-- ==== Sys2Proof/Word.lean ====
section
/-!
DEFINITION. The word types of the HZ-1610 and the numbers that name its places (R3, R4, R12, R16-R18).
-/

namespace Sys2Proof

/-- A 64-bit register or address value. -/
abbrev Word := BitVec 64

/-- One byte. -/
abbrev Byte := BitVec 8

/-- One 32-bit instruction word (R191) or F32 value (R150). -/
abbrev Word32 := BitVec 32

/-- A core of the module as one number: `(die * 64 + cluster) * 128 + core`, 0 to 131,071 (R12, R16, R17). -/
abbrev CoreIx := Nat

/-- A slot of the module: its core and its number 0-15 (R18). -/
structure SlotRef where
  core : CoreIx
  slot : Nat
  deriving DecidableEq, Repr

end Sys2Proof
end

