-- ==== Sys2Proof/Syntax.lean ====
section
/-!
DEFINITION. The instructions and events of the HZ-1610: one constructor of `Instr` for each row of the opcode table.
Register numbers and selectors are turned into constructors by the decoder, so that the machine sees no raw encodings
(R180, R195-R203). The rows that carry no encoding are the part's other steps (host, engine, headgate and controller
events). Their constructors bear no fields: where such an event acts and the data that arrive with it stand beside it in
the agenda entry that announces it (`Machine.Due`), and in `Machine.State.arg` while it is taken.
-/

namespace Sys2Proof

/-- The mesh ports (R17, R180). -/
inductive Port where
  | pn | pe | ps | pw
  deriving DecidableEq, Repr

/-- The scalar register namespace of R180, the reserved numbers left out. -/
inductive Reg where
  | g (n : Fin 40)
  | port (p : Port)
  | x (n : Fin 4)
  | z
  | tc
  | id
  | lk
  deriving DecidableEq, Repr

/-- A five-bit vector operand (R196, R238): shape, handle or port stream. -/
inductive VOp where
  | s (n : Fin 16)
  | h (n : Fin 8)
  | port (p : Port)
  deriving DecidableEq, Repr

/-- Access sizes of the M format (R195, R227). -/
inductive Size where
  | b | h | w | d
  deriving DecidableEq, Repr

/-- Rounding modes (R158, R208). -/
inductive Rm where
  | rn | rz | rd | ru
  deriving DecidableEq, Repr

/-- The conditions of compare-skip (R223). -/
inductive Cond where
  | eq | ne | lt | ge | ltn | gen | bs | bc | feq | fne | flt | fge | fun_ | full | empty
  deriving DecidableEq, Repr

/-- The conditions of VCMP (R250). -/
inductive VCond where
  | eq | ne | lt | ge | fun_
  deriving DecidableEq, Repr

/-- The operations of VRED (R252). -/
inductive RedOp where
  | sum | maxr | minr | maxabs
  deriving DecidableEq, Repr

/-- FENCE scopes (R117, R292). -/
inductive Scope where
  | core | cluster | die | module | system
  deriving DecidableEq, Repr

/-- The operations of AMO and RUPD (R289, R291). -/
inductive AmoOp where
  | add | min | max | minn | maxn | and | or | xor | swap | fadd
  deriving DecidableEq, Repr

/-- Last-read marks of an R-format word (R183). -/
structure Marks where
  a : Bool
  b : Bool
  deriving DecidableEq, Repr

/-- One row of the opcode table each, in the table's order. -/
inductive Instr where
  -- integer register forms (R217)
  | add (d a b : Reg) (m : Marks)
  | sub (d a b : Reg) (m : Marks)
  | mul (d a b : Reg) (m : Marks)
  | mulh (d a b : Reg) (m : Marks)
  | mulhn (d a b : Reg) (m : Marks)
  | div (d a b : Reg) (m : Marks)
  | divn (d a b : Reg) (m : Marks)
  | rem (d a b : Reg) (m : Marks)
  | remn (d a b : Reg) (m : Marks)
  | and (d a b : Reg) (m : Marks)
  | or (d a b : Reg) (m : Marks)
  | xor (d a b : Reg) (m : Marks)
  | shl (d a b : Reg) (m : Marks)
  | shr (d a b : Reg) (m : Marks)
  | sar (d a b : Reg) (m : Marks)
  | andn (d a b : Reg) (m : Marks)
  | min (d a b : Reg) (m : Marks)
  | max (d a b : Reg) (m : Marks)
  | minn (d a b : Reg) (m : Marks)
  | maxn (d a b : Reg) (m : Marks)
  | clz (d a : Reg) (ma : Bool)
  | popc (d a : Reg) (ma : Bool)
  | mov (d a : Reg) (ma : Bool)
  | leaX2 (d a b : Reg) (m : Marks)
  | leaX4 (d a b : Reg) (m : Marks)
  | leaX8 (d a b : Reg) (m : Marks)
  | void (n : Fin 40)
  -- immediate forms (R219-R220)
  | addi (d a : Reg) (imm : BitVec 12)
  | andi (d a : Reg) (imm : BitVec 12)
  | ori (d a : Reg) (imm : BitVec 12)
  | xori (d a : Reg) (imm : BitVec 12)
  | shli (d a : Reg) (n : BitVec 6)
  | shri (d a : Reg) (n : BitVec 6)
  | sari (d a : Reg) (n : BitVec 6)
  | movi (d : Reg) (imm : BitVec 18)
  | bext (d a : Reg) (pos len : BitVec 6)
  | bins (d a : Reg) (pos len : BitVec 6)
  | muli (d a : Reg) (imm : BitVec 12)
  -- compare-skip and control transfer (R222-R225)
  | csk (n : Fin 4) (c : Cond) (a b : Reg)
  | cski (n : Fin 4) (c : Cond) (a : Reg) (imm : BitVec 12)
  | br (off : BitVec 24)
  | brl (off : BitVec 24)
  | jmp (a : Reg) (ma : Bool)
  | jmpl (a : Reg) (ma : Bool)
  | ret
  -- loads and stores (R227-R230)
  | ld (d b : Reg) (sz : Size) (disp : BitVec 10)
  | lds (d b : Reg) (sz : Size) (disp : BitVec 10)
  | st (d b : Reg) (sz : Size) (disp : BitVec 10)
  | lda (d b : Reg) (sz : Size) (disp : BitVec 10)
  | stl (d b : Reg) (sz : Size) (disp : BitVec 10)
  | ldx (d a b : Reg) (sz : Size) (m : Marks)
  | ldxS (d a b : Reg) (sz : Size) (m : Marks)
  | stx (d a b : Reg) (sz : Size) (m : Marks)
  -- full/empty words, reservations, visits, remote updates, fences (R283-R292)
  | mpeek (d b : Reg) (disp : BitVec 10)
  | mtake (d b : Reg) (disp : BitVec 10)
  | mput (d b : Reg) (disp : BitVec 10)
  | mfill (d b : Reg) (disp : BitVec 10)
  | mdrain (b : Reg) (disp : BitVec 10)
  | mstate (d b : Reg) (disp : BitVec 10)
  | lrw (d b : Reg) (disp : BitVec 10)
  | sch (d a b : Reg) (m : Marks)
  | amoAdd (d a b : Reg) (m : Marks)
  | amoMin (d a b : Reg) (m : Marks)
  | amoMax (d a b : Reg) (m : Marks)
  | amoMinn (d a b : Reg) (m : Marks)
  | amoMaxn (d a b : Reg) (m : Marks)
  | amoAnd (d a b : Reg) (m : Marks)
  | amoOr (d a b : Reg) (m : Marks)
  | amoXor (d a b : Reg) (m : Marks)
  | amoSwap (d a b : Reg) (m : Marks)
  | amoFadd (d a b : Reg) (m : Marks)
  | cas (d a b : Reg) (m : Marks)
  | rupd (op : AmoOp) (a b : Reg) (m : Marks)
  | fenceAcq (sc : Scope)
  | fenceRel (sc : Scope)
  | fenceFull (sc : Scope)
  -- sluices, copies, subscriptions, handles, shapes (R293-R298, R231)
  | push (g : Fin 40) (q : Fin 8)
  | pop (g : Fin 40) (q : Fin 8)
  | cpy (d a b : Reg) (m : Marks)
  | cpyHdl (d a b : Reg) (m : Marks)
  | cpyTag (d a b : Reg) (m : Marks)
  | waitt (a : Reg) (ma : Bool)
  | psub (d a b : Reg) (m : Marks)
  | pret (d a b : Reg) (m : Marks)
  | pcan (d a : Reg) (ma : Bool)
  | hset (h : Fin 8) (a : Reg) (ma : Bool)
  | hadv (h : Fin 8) (a : Reg) (ma : Bool)
  | hcom (h : Fin 8) (a : Reg) (ma : Bool)
  | hwait (h : Fin 8) (a : Reg) (ma : Bool)
  | hroom (h : Fin 8) (a : Reg) (ma : Bool)
  | hget (d : Reg) (h : Fin 8) (k : Fin 2)
  | sld (s : Fin 16) (a b : Reg) (m : Marks)
  | sst (s : Fin 16) (a b : Reg) (m : Marks)
  | sbase (s : Fin 16) (a : Reg) (ma : Bool)
  | soff (s : Fin 16) (a : Reg) (ma : Bool)
  -- threads, banker, weirs, furrow unit (R340-R362)
  | spawn (d a b : Reg) (m : Marks)
  | spawnq (d a b : Reg) (m : Marks)
  | quit
  | yield
  | park (d a : Reg) (ma : Bool)
  | wake (d a : Reg) (ma : Bool)
  | cancel (d a : Reg) (ma : Bool)
  | poke (a b : Reg) (m : Marks)
  | claim (a : Reg) (ma : Bool)
  | acq (a : Reg) (ma : Bool)
  | acqt (d a : Reg) (ma : Bool)
  | rel (a : Reg) (ma : Bool)
  | weir (a b : Reg) (m : Marks)
  | wbyte (a b : Reg) (m : Marks)
  | wwait (a : Reg) (ma : Bool)
  | nest (a : Reg) (ma : Bool)
  | next (off : BitVec 24)
  -- tree instructions (R310)
  | trnew (a b : Reg) (m : Marks)
  | trdsc (a b : Reg) (m : Marks)
  | trxpd (d a : Reg) (s : Fin 16) (ma : Bool)
  | trbck (d a b : Reg) (m : Marks)
  | trpik (a b : Reg) (m : Marks)
  | trrrt (a b : Reg) (m : Marks)
  | trfre (a : Reg) (ma : Bool)
  | trnewF (a b : Reg) (m : Marks)
  | trdscF (a b : Reg) (m : Marks)
  | trxpdF (d a : Reg) (s : Fin 16) (ma : Bool)
  | trbckF (d a b : Reg) (m : Marks)
  | trpikF (a b : Reg) (m : Marks)
  | trrrtF (a b : Reg) (m : Marks)
  | trfreF (a : Reg) (ma : Bool)
  -- system forms (R419-R436)
  | csrr (d : Reg) (c : Fin 19)
  | csrw (c : Fin 19) (a : Reg) (ma : Bool)
  | trap (n : BitVec 12)
  | eret (d a : Reg) (ma : Bool)
  | emwin (d a b : Reg) (m : Marks)
  | launch (d a : Reg) (ma : Bool)
  | pwrd (d a : Reg) (ma : Bool)
  | brk
  | errinj (d a b : Reg) (m : Marks)
  | segrep (d a b : Reg) (m : Marks)
  -- scalar float (R234-R236)
  | fadd (d a b : Reg) (m : Marks)
  | fsub (d a b : Reg) (m : Marks)
  | fmul (d a b : Reg) (m : Marks)
  | fmin (d a b : Reg) (m : Marks)
  | fmax (d a b : Reg) (m : Marks)
  | fcvti (d a : Reg) (ma : Bool)
  | fcvtf (d a : Reg) (ma : Bool)
  | fabs (d a : Reg) (ma : Bool)
  | fneg (d a : Reg) (ma : Bool)
  | ffma (rm : Rm) (d a b : Reg) (m : Marks)
  -- long forms (R201)
  | movl (d : Reg) (imm : BitVec 48)
  | tbr (live : BitVec 32) (off : BitVec 22)
  | brf (link : Bool) (off : BitVec 53)
  -- vector forms (R247-R260)
  | vadd (d a b : VOp) (w : Fin 8) (rm : Rm)
  | vsub (d a b : VOp) (w : Fin 8) (rm : Rm)
  | vmul (d a b : VOp) (w : Fin 8) (rm : Rm)
  | vmin (d a b : VOp) (w : Fin 8) (rm : Rm)
  | vmax (d a b : VOp) (w : Fin 8) (rm : Rm)
  -- VABS and VNEG do not use the field rm of their word (R196, R248): a well-formed one has 0 there
  | vabs (d a : VOp) (w : Fin 8) (rm : Rm)
  | vneg (d a : VOp) (w : Fin 8) (rm : Rm)
  | vmov (d a : VOp) (w : Fin 8) (rm : Rm)
  | vsel (d a b : VOp) (w : Fin 8) (rm : Rm)
  | vfma (d a b : VOp) (w : Fin 8) (rm : Rm)
  | vcmp (c : VCond) (d a b : VOp) (w : Fin 8)
  | vred (op : RedOp) (dim : Fin 4) (d a : VOp) (w : Fin 8) (rm : Rm)
  | viadd (d a b : VOp) (w : Fin 8)
  | visub (d a b : VOp) (w : Fin 8)
  | vimul (d a b : VOp) (w : Fin 8)
  | vand (d a b : VOp) (w : Fin 8)
  | vor (d a b : VOp) (w : Fin 8)
  | vxor (d a b : VOp) (w : Fin 8)
  | vshl (d a b : VOp) (w : Fin 8)
  | vshr (d a b : VOp) (w : Fin 8)
  | vsar (d a b : VOp) (w : Fin 8)
  | vexp2 (d a : VOp) (w : Fin 8)
  | vlog2 (d a : VOp) (w : Fin 8)
  | vrcp (d a : VOp) (w : Fin 8)
  | vrsq (d a : VOp) (w : Fin 8)
  | vtanh (d a : VOp) (w : Fin 8)
  | verf (d a : VOp) (w : Fin 8)
  | vsin (d a : VOp) (w : Fin 8)
  | vcos (d a : VOp) (w : Fin 8)
  | vmatch (d a : VOp) (w : Fin 8)
  | vscan (d a : VOp) (w : Fin 8) (rm : Rm)
  | vgath (d a b : VOp) (w : Fin 8) (rm : Rm)
  | vscat (d a b : VOp) (w : Fin 8) (rm : Rm)
  | vbmax (d a : VOp) (w : Fin 8) (rm : Rm)
  | vqnt (d a : VOp) (n : Fin 8)
  | vwmax (k : Fin 16) (d a : VOp) (w : Fin 8) (rm : Rm)
  -- matrix forms (R268-R280)
  | mmaUnfold (t : Fin 8) (f : Fin 4) (b : VOp) (lead : Bool)
  | mmaShape (t : Fin 8) (a b : VOp) (lead : Bool)
  | mzero (t : Fin 8)
  | mload (t : Fin 8) (a : VOp)
  | mstore (t : Fin 8) (a : VOp)
  | msave (t : Fin 8) (a : VOp)
  | mrest (t : Fin 8) (a : VOp)
  | unf (f : Fin 4) (s : Fin 16)
  -- the Esnen set (R388); registers are e0-e15
  | esnenLi (d : Fin 16) (imm : BitVec 15)
  | esnenLih (d : Fin 16) (imm : BitVec 17)
  | esnenAdd (d a b : Fin 16)
  | esnenAddi (d a : Fin 16) (imm : BitVec 15)
  | esnenSub (d a b : Fin 16)
  | esnenAnd (d a b : Fin 16)
  | esnenOr (d a b : Fin 16)
  | esnenXor (d a b : Fin 16)
  | esnenShli (d a : Fin 16) (n : BitVec 5)
  | esnenShri (d a : Fin 16) (n : BitVec 5)
  | esnenLdb (d a : Fin 16) (imm : BitVec 15)
  | esnenLdh (d a : Fin 16) (imm : BitVec 15)
  | esnenLdw (d a : Fin 16) (imm : BitVec 15)
  | esnenStb (a b : Fin 16) (imm : BitVec 15)
  | esnenStw (a b : Fin 16) (imm : BitVec 15)
  | esnenBeq (a b : Fin 16) (imm : BitVec 15)
  | esnenBne (a b : Fin 16) (imm : BitVec 15)
  | esnenBlt (a b : Fin 16) (imm : BitVec 15)
  | esnenJal (d : Fin 16) (imm : BitVec 15)
  | esnenJr (a : Fin 16)
  | esnenEmit (a : Fin 16)
  | esnenMark (a : Fin 16)
  | esnenTlook (d a : Fin 16)
  | esnenDone (a : Fin 16)
  | esnenFail (imm : BitVec 15)
  | meterExhausted
  -- reset, stacks, links, gating
  | moduleReset
  | stackReady
  | patrolPass
  | hostLinkReset
  | clusterGate
  | clusterWake
  | linkFrame
  | channelRekey
  | linkRetrain
  -- device-register writes
  | invalidation
  | groupModeWrite
  | l2ControlWrite
  | ownerClaim
  | measurementExtend
  | stateRegisterWrite
  | functionLevelReset
  | vfEnableClear
  | deviceRegisterWrite
  | hostPostedWrite
  | hostRead
  | hostLaunch
  -- mailbox commands (R442)
  | create
  | destroy
  | layout
  | rotate
  | bind
  | monitor
  | attach
  | handover
  -- SPDM requests (R454)
  | getVersion
  | getCapabilities
  | negotiateAlgorithms
  | getDigests
  | getCertificate
  | challenge
  | getMeasurements
  -- headgate and regions
  | launchAdmission
  | bootTreeForward
  | initialThreadStart
  | regionCompletion
  | handlerSpawn
  -- memory system
  | tlbWalk
  | storePerformed
  | spillwayOverflow
  | spillwayInvalidation
  | visit
  | remoteUpdate
  | remoteFill
  | heldRequestService
  | mputClaimGrant
  | lrwHead
  | leaseEnd
  -- timers
  | parkDeadline
  | promiseTime
  | watchdogExpiry
  | yieldExpiry
  -- copy engine and pumps
  | copyAccept
  | copyChunk
  | q1CompletionEntry
  | loaderSubscription
  | storerSubscription
  | cancelRecord
  | loaderTile
  | storerTile
  -- tree engine
  | treeCmdNew
  | treeCmdDescent
  | treeCmdExpand
  | treeCmdBackup
  | treeCmdPick
  | treeCmdReroot
  | treeCmdFree
  | backgroundFreeing
  -- reduction, delivery, containment
  | reductionMessage
  | q6Entry
  | containmentNotice
  | frameRemap
  -- dispatcher, travelling, rotation, gangs
  | taskInsert
  | dispatch
  | arrival
  | arrivalPlacement
  | occupancySample
  | slotHandover
  | gangStart
  | gangRetire
  | debuggerResume
  | clockThrottle
  | externalPortAccess
  | vfEnableSet
  deriving DecidableEq, Repr

end Sys2Proof
end

