-- ==== Sys2Proof/Config.lean ====
section
/-!
DEFINITION. What the spec leaves open or takes from outside itself: constants without a body, so that no proof can use a
value of them. Each is named in the assumption log.
-/

namespace Sys2Proof.Config

/-- A fresh undefined value for each count of `State.seq` (R8): log entry 1. -/
opaque freeValue : Nat → BitVec 64

/-- How many turns pass before the next piece of engine or fabric work is taken (R7, R115, R116): log entry 2. -/
opaque engineDelay : Nat → Nat

/-- Which of the waiting pieces of engine work is taken next, where no stamp decides (R31): log entry 2. -/
opaque enginePick : Nat → Nat

/-- Whether the side band hands on a later beat of a scale stream than the next one (R85): log entry 50. -/
opaque sideBandSlip : Nat → Bool

/-- The special functions of R170 on F32 bits, outside the exact cases of R171: log entry 3. -/
inductive SpecialFn where
  | exp2 | log2 | rcp | rsq | tanh | erf | sin | cos
  deriving DecidableEq, Repr

/-- The value of a special function, within the bound of R170; the same for the same input on every core: log entry 3. -/
opaque special : SpecialFn → BitVec 32 → BitVec 32

/-- KMAC256 under a key number, truncated to the given number of bytes (R451): log entry 4. -/
opaque kmac256 : Nat → List Byte → Nat → List Byte

/-- An SLH-DSA-SHAKE-256f signature under the device identity key (R445, R454): log entry 4. -/
opaque slhDsaSign : List Byte → List Byte

/-- The security controller's random numbers, one for each draw (R443, R446): log entry 5. -/
opaque random : Nat → Nat

/-- Whether the health test of the random number generator passes on the n-th draw (R443): log entry 5. -/
opaque healthTest : Nat → Bool

/-- Whether the draw of the module link secret and of world 0's keys passed its health test when the module was reset (R443, R446): log
entry 9. -/
opaque bootDraw : Bool

/-- Whether the signature of a die's firmware image holds (R453): log entry 9. -/
opaque firmwareSound : Nat → Bool

/-- The bytes of an SPDM response, whose content the SPDM standard fixes: request code, transcript, request: log entry 6. -/
opaque spdmResponse : Nat → List Byte → List Byte → List Byte

/-- The firmware images measured into registers 0-3 at boot (R452): log entry 6. -/
opaque firmwareMeasurement : Nat → List Byte

end Sys2Proof.Config
end

