-- ==== Sys2Proof/Machine/State.lean ====
section
/-!
DEFINITION. The state of the HZ-1610 as plain data, the reasons a step can stop, and the state after module reset.
Sparse tables are lists of (key, value) pairs with keys strictly rising (Machine/Table.lean reads and writes them); a memory's
cells stand in ONE canonical form, no listed byte equal to what an unlisted address reads as.
-/

namespace Sys2Proof.Machine

/-- Why a step stops with a fault. -/
inductive Fault where
  /-- Raised by a meaning when the acting slot is empty: an empty slot issues nothing (R177), so no step of a run comes
  here. Safe. -/
  | emptySlot
  deriving DecidableEq, Repr

/-- Why an instruction has no meaning here. -/
inductive Refusal where
  /-- Raised by `Dispatch.exec` for a constructor whose meaning is not written yet. Safe. -/
  | notModelled (mnemonic : String)
  deriving DecidableEq, Repr

/-- The cause codes of R413. -/
inductive Cause where
  | ill | mid | priv | regn | xlat | prot | win | align | dike | lost | ue | promise | scaleseq | pool | spill
  | banker | wdog | hazard | trap | kill
  deriving DecidableEq, Repr

/-- A stamp (R29): the value of tc and the source number of the agent. -/
structure Stamp where
  tc  : Nat
  src : Nat
  deriving DecidableEq, Repr

/-- The masters that can own the module (R460), by their numbers 0, 1, 2. -/
inductive Master where
  | hostDriver | management | debugger
  deriving DecidableEq, Repr

/-- Where an event acts and what arrives with it: a core and slot (the acting thread of a store to a device register),
numbers, a word, bytes, a flag, the master that makes a write directly, the stamp with which it reached its point of decision (R31).
Each event's meaning says which it reads. -/
structure Args where
  core   : CoreIx := 0
  slot   : Nat := 0
  n      : Nat := 0
  m      : Nat := 0
  word   : Word := 0
  data   : List Byte := []
  flag   : Bool := false
  master : Option Master := none
  stamp  : Option Stamp := none
  deriving DecidableEq, Repr

/-- An entry of the agenda: an event that is to be taken, with its arguments. -/
structure Due where
  what : Instr
  arg  : Args
  deriving DecidableEq, Repr

/-- The two pipes of a core (R187). -/
inductive Pipe where
  | address | compute
  deriving DecidableEq, Repr

/-- A g register with its full/empty bit (R182); `pending` marks one that awaits a remote fill. -/
structure GReg where
  val     : Word
  full    : Bool
  pending : Bool
  deriving DecidableEq, Repr

/-- A shape record or unfold descriptor: four words (R147, R267). -/
structure Shape where
  w0 : Word
  w1 : Word
  w2 : Word
  w3 : Word
  deriving DecidableEq, Repr

/-- The two words of a handle (R142). -/
structure Handle where
  w0 : Word
  w1 : Word
  deriving DecidableEq, Repr

/-- A command record in a slot-to-engine sluice (R62): the words pushed so far, and the stamp once sealed; the register that
a CPY gave for its promise (R294); for a tree command the home core of its pool, or the status that the slot's core found
at the seal (R311, 0 for none); whether the form that sealed it waits for its result words (R313); the status with which a copy was
refused, while its completion waits (R73). -/
structure Record where
  words : List Word
  sealed : Option Stamp
  d    : Option Reg := none
  home : CoreIx := 0
  fail : Nat := 0
  traps : Bool := false
  refused : Option Nat := none
  deriving DecidableEq, Repr

/-- A slot-to-engine sluice: active and shadow record (R60, R62). -/
structure Outlet where
  active : Option Record
  shadow : Option Record
  deriving DecidableEq, Repr

/-- The eight sluices of a slot (R60). Beside each inbound word of an engine stands whether its POP acquires at module scope
(R76, R121). -/
structure Sluices where
  q0 : Outlet
  q1 : List Word
  q2 : Outlet
  q3 : List Word
  q4 : Outlet
  q5 : List Word
  q6 : List Word
  q7 : Outlet
  wide1 : List Bool
  wide3 : List Bool
  wide5 : List Bool
  deriving DecidableEq, Repr

/-- An entry of a compute queue with its progress (R177, R244): the instruction, its offset, the operands as they
stood at entry (R187), the beats retired, the carry, whether its handle waits have been met (R242), the stamp of its issue, and how many
address-pipe instructions of its thread have issued since (R187), and the ports for which its beat waits, outbound ones with `true`, since
when (R181, R241). -/
structure QEntry where
  instr   : Instr
  pc      : Word
  opD     : Option Shape
  opA     : Option Shape
  opB     : Option Shape
  hands   : List (Nat × Handle)
  serial  : Bool
  beats   : Nat
  carry   : Word
  waited  : Bool
  arrived : Bool
  heavy   : Bool
  /-- elements that the unit holds until a block or a contribution is whole (R259, R260) -/
  kept    : List Nat
  stamp   : Stamp
  since   : Nat
  ports   : Option (Stamp × List (Port × Bool))
  deriving DecidableEq, Repr

/-- What a parked slot waits for (R9). -/
inductive Park where
  /-- an empty register (R182) -/
  | reg (n : Fin 40)
  /-- a pending register (R182) -/
  | pending (n : Fin 40)
  /-- an empty inbound port or a full outbound port (R180), with the stamp by which it is served (R181) -/
  | portIn (p : Port) (st : Stamp)
  | portOut (p : Port) (st : Stamp)
  /-- an empty or full sluice (R61) -/
  | sluiceEmpty (q : Fin 8)
  | sluiceFull (q : Fin 8)
  /-- the core's store buffer is full (R111) -/
  | buffer
  /-- a buffer entry of the slot that names some but not all of the bytes (R112), or a visit of it (R124) -/
  | bufferEntry (addr n : Nat)
  /-- a release whose conditions do not hold yet (R118) -/
  | release
  /-- the compute queue is not empty (R115, R175, R344, R360) -/
  | computeQueue
  /-- a request that an event at its home answers (R285, R287, R359) -/
  | held
  /-- a walk for a virtual address, or the fault record of its page (R49, R50) -/
  | walk (world va : Nat)
  | record (world page : Nat)
  /-- PARK: the wake bit, or a deadline when not 0 (R344) -/
  | wake (deadline : Nat)
  /-- WAITT: the promised time (R295) -/
  | promise (t : Nat)
  /-- HWAIT, HROOM: the count waited for (R298) -/
  | handleFilled (h : Fin 8) (n : Nat)
  | handleRoom (h : Fin 8) (n : Nat)
  /-- HADV, HCOM, HSET: an older compute instruction names the handle (R242, R300) -/
  | handleFree (h : Fin 8)
  /-- HSET: the subscription on the handle ends (R300) -/
  | handleEnded (h : Fin 8)
  /-- WWAIT: a byte weir phase (R353) -/
  | byteWeir (k : Nat)
  /-- WEIR: the phase of a wired weir of a cluster (R352) -/
  | weir (k : Nat)
  /-- a trapping tree form waits for its last result word (R313) -/
  | tree
  /-- a shipping transfer waits for the slot's own work (R372) -/
  | ship
  /-- a frame is being remapped (R57) -/
  | frame (f : Nat)
  /-- the line of an access waits for the spillway, with the stamp of the access (R91, R92, R94) -/
  | fill (line : Nat) (st : Stamp)
  /-- FENCE.ACQ, FENCE.FULL: an older AMO or CAS of the slot has not been performed (R119, R292) -/
  | visits
  /-- the compute queue is full (R187) -/
  | computeRoom
  deriving DecidableEq, Repr

/-- A halted thread (R414): the cause, whether the fault was imprecise (R188), whether the debugger holds it (R421),
the virtual address it faulted on for XLAT (R50). -/
structure Halt where
  cause     : Cause
  imprecise : Bool
  debugger  : Bool
  page      : Option Nat
  deriving DecidableEq, Repr

/-- The nest binding and current chunk of a slot (R354, R355). -/
structure Nest where
  counter : Word
  e0 : Nat
  e1 : Nat
  e2 : Nat
  e3 : Nat
  parts : Nat
  minc  : Nat
  cur   : Nat
  lim   : Nat
  deriving DecidableEq, Repr

/-- A request for storage that waits at the banker (R359), with the stamp of its first attempt and the register that holds it. -/
structure AcqReq where
  request : Word
  stamp   : Stamp
  reg     : Reg
  mark    : Bool
  deriving DecidableEq, Repr

/-- A tree command a trapping form waits for (R313): pool base, error status met, words still to come, the scope of the
pool's home core. -/
structure TreeWait where
  base  : Word
  error : Bool
  left  : Nat
  wide  : Bool
  deriving DecidableEq, Repr

/-- What a thread holds in its slot (R177). Control registers that the region or the core determines (status, power,
rcb, segbase) are computed from them. A tile is sparse: an unlisted element is +0 (R265). -/
structure Thread where
  id       : Nat
  world    : Nat
  polder   : Nat
  region   : Nat
  role     : Nat
  pc       : Word
  skip     : Nat
  g        : Vector GReg 40
  x        : Vector Word 4
  lk       : Word
  shapes   : Vector Shape 16
  handles  : Vector Handle 8
  unfolds  : Vector (Option Shape) 4
  sluices  : Sluices
  cq       : List QEntry
  dikelo   : Word
  dikehi   : Word
  fvec     : Word
  fcause   : Word
  faddr    : Word
  fpriv    : Word
  meter    : Word
  wdog     : Nat
  /-- bit n: since its HSET, a subscription that reaches another die has filled handle n, so that its wait acquires at module scope (R121) -/
  farHandles : BitVec 8
  tree     : Word
  fflags   : BitVec 5
  claim    : Word
  blocks   : BitVec 3
  pageBase : Nat
  pages    : Nat
  tiles    : List (List (Nat × BitVec 32))
  granted  : Bool
  acq      : Option AcqReq
  wakeBit  : Bool
  yieldTo  : Nat
  nest     : Option Nest
  parked   : Option Park
  halted   : Option Halt
  emwBy    : Option SlotRef
  /-- the registers of released blocks whose results are still under way: each is discarded when it comes (R184) -/
  stale    : List Nat
  treeWait : Option TreeWait
  /-- whether the phase of the WEIR at which the thread waits has ended (R352) -/
  weirDone : Bool
  /-- whether the thread has issued no instruction yet (R369) -/
  unissued : Bool
  deriving DecidableEq, Repr

/-- A slot: its generation count and its thread, if it holds one (R177, R178). -/
structure Slot where
  gen    : BitVec 16
  thread : Option Thread
  deriving DecidableEq, Repr

/-- What a store-buffer entry does when it is performed (R111). -/
inductive StoreOp where
  /-- ST, STX, STL, SST: the bytes -/
  | bytes (data : List Byte)
  /-- a full/empty store: MPUT (claimed), MFILL, MDRAIN (R285) -/
  | put (v : Word)
  | fill (v : Word)
  | drain
  /-- SCH (R288) and the visits AMO and CAS (R289); `d` is the pending register -/
  | sch (v : Word) (d : Reg)
  | amo (op : AmoOp) (v : Word) (d : Reg)
  | cas (cmp v : Word) (d : Reg)
  deriving DecidableEq, Repr

/-- Where a checked access lands: local memory of a core, the scale plane of a core, or global memory at a physical
address (R20-R25, R34). -/
inductive Place where
  | loc (core : CoreIx) (off : Nat)
  | scale (core : CoreIx) (off : Nat)
  | glob (pa : Nat)
  deriving DecidableEq, Repr

/-- A release of a thread that does not hold back its younger accesses and has not completed (R118, R292). -/
structure Release where
  slot   : Nat
  tid    : Nat
  world  : Nat
  region : Nat
  wide   : Bool
  stamp  : Stamp
  deriving DecidableEq, Repr

/-- An entry of a core's store buffer (R111). -/
structure BufEntry where
  slot   : Nat
  tid    : Nat
  world  : Nat
  region : Nat
  place  : Place
  va     : Word
  n      : Nat
  op     : StoreOp
  older  : Nat
  /-- the stamp of its instruction (R29, R127) -/
  stamp  : Stamp
  deriving DecidableEq, Repr

/-- An image in a core's instruction store (R128, R334): the region and role it belongs to, the image offset of its
first word (a segment's start in travelling mode), its words, its entry offset, its provenance pairs (R410). -/
structure Image where
  region : Nat
  role   : Nat
  start  : Nat
  words  : List Word32
  entry  : Nat
  meter  : Word
  marks  : List (Nat × Nat)
  localLo : Nat
  localHi : Nat
  claim  : Word
  deriving DecidableEq, Repr

/-- A copy in progress under a promise token (R71, R69): issuer, world, ends, bytes moved, and the promise. -/
structure CopyJob where
  slot    : Nat
  tid     : Nat
  world   : Nat
  region  : Nat
  code    : Nat
  dst     : Word
  src     : Word
  dstGen  : Word
  srcGen  : Word
  length  : Nat
  moved   : Nat
  weir    : Nat
  phase   : Nat
  promise : Nat
  /-- whether an end lies on another die (R76) -/
  wide    : Bool
  /-- the status with which the copy ended; none while it runs (R70, R72) -/
  ended   : Option Nat
  /-- the order number of its end (R72) -/
  endNo   : Nat
  deriving DecidableEq, Repr

/-- A promise token (R71): the copy that bears it, the latest promise given on it, whether it is taken; of the earlier copies that bore
it, the promise and whether an end lay on another die (R75, R295). -/
structure Token where
  taken   : Bool
  promise : Nat
  job     : Option CopyJob
  past    : List (Nat × Bool)
  deriving DecidableEq, Repr

/-- A byte-weir phase (R353). -/
structure ByteWeir where
  counter : Int
  posted  : Bool
  world   : Option Nat
  sat     : Bool
  deriving DecidableEq, Repr

/-- A reduction message on its way to a server (R302, R303). -/
structure RedMsg where
  slot   : Nat
  world  : Nat
  region : Nat
  op     : Nat
  tag    : Nat
  child  : Nat
  value  : Word
  deriving DecidableEq, Repr

/-- An open round of a reduction tree (R303). -/
structure Round where
  slot   : Nat
  tag    : Nat
  op     : Nat
  world  : Nat
  region : Nat
  tree   : Word
  joined : List (Nat × Word)
  order  : Nat
  deriving DecidableEq, Repr

/-- Words that wait for room in a q6 (R416), with their stamp. -/
structure Q6Group where
  slot   : Nat
  stamp  : Stamp
  words  : List Word
  region : Nat
  notice : Bool
  deriving DecidableEq, Repr

/-- A remote fill, by POKE or by the result of an engine, on its way to a register of a core or held there (R182); `flags`
come with the result of AMO.FADD (R289), `poke` marks a POKE, `after` names the slot and the scope of the release that a POKE makes and that
is not known to have completed (R118, R120). -/
structure Fill where
  slot  : Nat
  tid   : Nat
  reg   : Reg
  value : Word
  flags : BitVec 5
  poke  : Bool
  stamp : Stamp
  after : Option (SlotRef × Bool)
  deriving DecidableEq, Repr

/-- A flume or spawn record on its way to a slot (R342, R373). -/
structure FlumeRec where
  spawn  : Bool
  tid    : Nat
  world  : Nat
  polder : Nat
  region : Nat
  role   : Nat
  skip   : Nat
  blocks : BitVec 3
  pc     : Word
  lk     : Word
  live   : BitVec 32
  full   : BitVec 32
  vals   : List Word
  claim  : Word
  wdog   : Nat
  fflags : BitVec 5
  stamp  : Stamp
  /-- the core it left (R375) -/
  origin : CoreIx
  /-- the slot, thread id and register of the SPAWN that waits for the new thread's id (R341) -/
  reply  : Option (SlotRef × Nat × Reg)
  deriving DecidableEq, Repr

/-- A translation held by a TLB (R48): the world, the virtual page, whether it maps 32 MiB, the frame's physical
address and the permission bits R, W, X of the leaf. -/
structure TlbEntry where
  world : Nat
  page  : Nat
  large : Bool
  pa    : Nat
  r     : Bool
  w     : Bool
  x     : Bool
  deriving DecidableEq, Repr

/-- A segment pinned on a core (R368): region, role, segment number and its start. -/
structure Pin where
  region : Nat
  role   : Nat
  seg    : Nat
  start  : Nat
  drop   : Bool
  deriving DecidableEq, Repr

/-- A service context: its own g0-g15 and x0-x3 (R179), and the world and region of the request that woke it last (R95, R104). -/
structure ServiceContext where
  g : Vector GReg 16
  x : Vector Word 4
  world  : Nat
  region : Nat
  deriving DecidableEq, Repr

/-- One core (R16-R19). Local memory, its full/empty bits and the scale plane are sparse: an unlisted byte reads 0 and
an unlisted word is full (R132). -/
structure Core where
  /-- the reduction server and the spillway: registers that no program reads or writes (R18, R179; log entry 47) -/
  service  : Vector ServiceContext 2
  slots    : Vector Slot 16
  mem      : List Host.Cell
  scale    : List Host.Cell
  emptyW   : List Nat
  poison   : List Nat
  /-- the poisoned words of the scale plane (R132) -/
  scalePoison : List Nat
  /-- FENCE.REL of the core's slots whose releases have not completed (R118, R292) -/
  releases : List Release
  buf      : List BufEntry
  portsIn  : Vector (List Word) 4
  images   : List Image
  shadow   : Option (Nat × List (Nat × BitVec 32))
  tokens   : List (Nat × Token)
  horizon  : List (Nat × Nat)
  endNo    : Nat
  weirs    : List (Nat × ByteWeir)
  rounds   : List Round
  link     : List RedMsg
  q6wait   : List Q6Group
  fills    : List Fill
  arrivals : List FlumeRec
  arrived  : BitVec 32
  pin      : Option Pin
  l1       : List Nat
  utlb     : List TlbEntry
  deriving DecidableEq, Repr

/-- The spare bits of a line at rest (R38) and its poison mark (R57). `sound` stands for the tag field: whether its 40 bits are those of
the line (R39, R42; log entry 47). -/
structure LineTag where
  world  : Nat
  epoch  : Nat
  fe     : BitVec 8
  sound  : Bool
  poison : Bool
  deriving DecidableEq, Repr

/-- A line held in a home slice (R89, R104, R434), most recently used first in its list. -/
structure SliceLine where
  pa     : Nat
  way    : Nat
  dirty  : Bool
  world  : Nat
  region : Nat
  va     : Option Nat
  /-- a planted uncorrectable error, or corrected error, not yet detected (R436) -/
  ue     : Bool
  ce     : Bool
  deriving DecidableEq, Repr

/-- A line held in a remote-data cache (R96, R97, R104). -/
structure RdcLine where
  die    : Nat
  pa     : Nat
  way    : Nat
  data   : List Byte
  valid  : BitVec 64
  dirty  : BitVec 64
  world  : Nat
  region : Nat
  va     : Option Nat
  ue     : Bool
  ce     : Bool
  deriving DecidableEq, Repr

/-- A directory entry (R90). -/
structure DirEntry where
  state : BitVec 2
  ptrs  : List Nat
  deriving DecidableEq, Repr

/-- An entry of a home's overflow table (R93): the line and the clusters marked. -/
structure OverEntry where
  line : Nat
  mask : BitVec 64
  deriving DecidableEq, Repr

/-- A read that waits for the spillway (R92), or an invalidation handed to it (R94): the home core, the line, the core that reads or
writes, the slot number, world and region of the request that pays for it (R95), its stamp. -/
structure SpillJob where
  home  : CoreIx
  line  : Nat
  core  : CoreIx
  slot  : Nat
  world : Nat
  region : Nat
  stamp : Stamp
  deriving DecidableEq, Repr

/-- A full/empty request held at the home of its word (R126). -/
inductive HeldKind where
  | peek | take | claim
  deriving DecidableEq, Repr

structure HeldReq where
  place : Place
  kind  : HeldKind
  slot  : SlotRef
  tid   : Nat
  d     : Reg
  world : Nat
  region: Nat
  va    : Word
  stamp : Stamp
  deriving DecidableEq, Repr

/-- A granted MPUT claim on a word (R285). -/
structure Claim where
  place : Place
  slot  : SlotRef
  tid   : Nat
  /-- whether its MPUT has retired into the store buffer -/
  used  : Bool
  deriving DecidableEq, Repr

/-- One place in the queue of a reserved line (R127); the head holds the reservation. -/
structure LrwPlace where
  slot   : SlotRef
  tid    : Nat
  va     : Word
  pa     : Nat
  d      : Reg
  stamp  : Stamp
  /-- the tc at which it reached the head -/
  head   : Option Nat
  /-- whether its load has been delivered -/
  loaded : Bool
  deriving DecidableEq, Repr

/-- A remote-update thread under way (R291). -/
structure Rupd where
  slot   : SlotRef
  tid    : Nat
  world  : Nat
  region : Nat
  place  : Place
  va     : Word
  op     : AmoOp
  value  : Word
  stamp  : Stamp
  /-- the tc from which its home core's spillway can take it (log entry 2) -/
  due    : Nat
  deriving DecidableEq, Repr

/-- The engagement key of a world (R40, R443): epoch, whether it is live, the key number and log-key number, and the tc
of its destruction. -/
structure Key where
  epoch     : Nat
  live      : Bool
  key       : Nat
  destroyed : Option Nat
  deriving DecidableEq, Repr

/-- A walk request (R49). -/
structure WalkReq where
  die   : Nat
  world : Nat
  page  : Nat
  slot  : SlotRef
  pipe  : Pipe
  stamp : Stamp
  deriving DecidableEq, Repr

/-- A fault record (R50): its world and page, its faulting thread, by slot and thread id, the threads parked on it, each with its stamp and the pipe of its
access. -/
structure FaultRecord where
  world   : Nat
  page    : Nat
  thread  : SlotRef
  tid     : Nat
  stamp   : Stamp
  parked  : List (SlotRef × Stamp × Pipe)
  deriving DecidableEq, Repr

/-- A role of a live region, as placed. -/
structure RoleInfo where
  role   : Nat
  power  : Nat
  claim  : Word
  /-- bytes of its native image; the entry offset of its threads, the meter they read, its provenance pairs (R409, R410) -/
  len    : Nat
  entry  : Nat
  meter  : Word
  marks  : List (Nat × Nat)
  /-- the placement-table entries of the role: the cores of each, and its slot range -/
  places : List (List CoreIx × Nat × Nat)
  deriving DecidableEq, Repr

/-- A segment of a travelling region (R367). -/
structure Segment where
  start : Nat
  len   : Nat
  role  : Nat
  home  : CoreIx
  reps  : List CoreIx
  /-- the cores among which senders choose, until the next advertisement (R376, R382) -/
  choice : List CoreIx
  deriving DecidableEq, Repr

/-- A live region: its block as resolved at admission (R329) and what the headgate keeps of it. -/
structure Region where
  id         : Nat
  rcb        : Nat
  parent     : Option Nat
  world      : Nat
  polder     : Nat
  priority   : Nat
  travelling : Bool
  hazard     : Bool
  privateL2  : Bool
  policy     : Nat
  handler    : Nat
  supervisor : Nat
  wdog       : Nat
  dieLo : Nat
  dieHi : Nat
  clusterLo : Nat
  clusterHi : Nat
  coreLo : Nat
  coreHi : Nat
  slotLo : Nat
  slotHi : Nat
  slots      : Nat
  pools      : Nat
  tokens     : Nat
  container  : Nat
  completion : Word
  fn         : Nat
  deps       : Nat
  ndeps      : Nat
  seed       : Word
  spill      : Nat
  spillsz    : Nat
  /-- the task records written to the spill area so far (R346) -/
  spillNo    : Nat
  tag        : Word
  args       : List Word
  cores      : List CoreIx
  roles      : List RoleInfo
  segs       : List Segment
  ringOff    : Nat
  ringCap    : Nat
  rings      : Nat
  ringCores  : List CoreIx
  dataVa     : Nat
  starting   : List SlotRef
  /-- what the boot tree has still to forward: core order number, image, bytes of the local image (R334) -/
  forward    : List (Nat × Image × List Byte)
  /-- spawn records accepted and not yet placed, and threads in flight (R336, R383) -/
  flight     : Nat
  terminated : Bool
  /-- messages that wait for a handler thread (R417): stamp, words, notice -/
  msgs       : List (Stamp × List Word × Bool)
  /-- whether a program has stored into the spill rings, which leaves their contents undefined (R378) -/
  ringSpoilt : Bool
  /-- the live threads, queued tasks and live child regions that its block's state bytes show (R329; log entry 55) -/
  shown      : Nat × Nat × Nat
  deriving DecidableEq, Repr

/-- A launch that waits at the headgate (R333): its record, its stamp, its origin. -/
structure LaunchReq where
  record : List Byte
  stamp  : Stamp
  /-- the slot and register of LAUNCH, none for a host launch -/
  slot   : Option (SlotRef × Reg)
  tid    : Nat
  world  : Nat
  region : Nat
  /-- the host function that launches (R455), none for LAUNCH; and the function that a completion interrupts (R329) -/
  fn     : Option Nat
  from_  : Nat
  deriving DecidableEq, Repr

/-- A translator run (R386-R396). -/
structure Translator where
  e       : Vector Word32 16
  pc      : Word32
  meter   : Nat
  code    : List Word32
  priv    : List Byte
  scratch : List Host.Cell
  out     : List Word32
  marks   : List (Nat × Nat)
  outcap  : Nat
  markcap : Nat
  role    : Nat
  lastPc  : Word32
  /-- none while it runs; the cause, the detail and (for success) the entry once ended -/
  ended   : Option (Nat × Nat)
  entry   : Nat
  world   : Nat
  container : Nat
  /-- where its image is to be cached: the role's digest, the directory entry, the offset of the reservation (R406, R408) -/
  digest  : List Byte
  dirNo   : Nat
  area    : Nat
  deriving DecidableEq, Repr

/-- The launch that the headgate is admitting while a translator runs for it (R333, R405): the resolved block, the
container's bytes, the images found so far, the roles whose image is still to be found. -/
structure Admission where
  req    : LaunchReq
  region : Region
  blob   : List Byte
  images : List Image
  left   : List Nat
  deriving DecidableEq, Repr

/-- A task in a dispatcher bank or in the spill area (R343, R346). -/
structure Task where
  no       : Nat
  region   : Nat
  role     : Nat
  entry    : Word
  args     : List Word
  priority : Nat
  tc       : Nat
  stamp    : Stamp
  polder   : Nat
  /-- who waits for the reply to the SPAWNQ (R341) -/
  reply    : Option (SlotRef × Nat × Reg)
  origin   : CoreIx
  deriving DecidableEq, Repr

/-- A cluster's dispatcher (R346-R348): banks by number, spilled tasks, tasks not yet inserted, the generators by
polder, the next insertion number, the tasks already dispatched (task number, thread id). -/
structure Dispatcher where
  banks   : List (Nat × List Task)
  spilled : List Task
  arriving: List Task
  gen     : List (Nat × Word)
  nextNo  : Nat
  started : List (Nat × Nat)
  deriving DecidableEq, Repr

/-- A wired weir (R350-R352, R260-R261). -/
structure Weir where
  world  : Nat
  region : Nat
  slotLo : Nat
  slotHi : Nat
  coreLo : Nat
  coreHi : Nat
  /-- the participants that have arrived: slot and thread id -/
  arrived : List (SlotRef × Nat)
  /-- contributions to the open phase of a max-combining weir: slot, thread id, elements (F32 bits), signalling NaN met (R260) -/
  contrib : List (SlotRef × Nat × List Word32 × Bool)
  /-- results held for a max-combining weir: slot and thread id still to collect, elements, invalid (R261) -/
  results : List (SlotRef × Nat × List Word32 × Bool)
  deriving DecidableEq, Repr

/-- The gang weir and joint array of a row (R264, R271-R275). -/
structure GangRow where
  /-- cores (0-15 within the row) that have arrived, by slot number -/
  arrived : List (Nat × Nat)
  /-- slot numbers whose gang has formed -/
  formed  : List Nat
  running : Option Nat
  last    : Nat
  /-- the bytes that the running gang reads, with the column of the core whose operand they are, 16 for the A operand, and
  the columns whose bytes an agent has written since the start (R277) -/
  reads   : List (Nat × Place × Nat)
  spoiled : List Nat
  deriving DecidableEq, Repr

/-- A registered pool of a tree engine (R306, R326). -/
structure Pool where
  base   : Nat
  pages  : Nat
  frames : List Nat
  world  : Nat
  region : Nat
  cpuct  : Word32
  vloss  : Word32
  fpu    : Word32
  alternate : Bool
  /-- the new root and the old one of a TRRRT whose freeing is not done, and its issuer's region (R316, R325) -/
  freeing : Option (Nat × Nat × Nat)
  /-- whether its contents and results are undefined: a page was mapped anew, or a program stored to bytes that the engine keeps (R305,
  R317, R465) -/
  spoilt : Bool
  deriving DecidableEq, Repr

/-- A subscription of a pump (R77-R85). -/
structure Subscription where
  slot   : SlotRef
  tid    : Nat
  world  : Nat
  region : Nat
  handle : Fin 8
  target : CoreIx
  loader : Bool
  count  : Nat
  moved  : Nat
  base   : Nat
  tpitch : Nat
  rpitch : Nat
  rbytes : Nat
  rows   : Nat
  format : Nat
  sbase  : Nat
  cancel : Bool
  /-- the status with which it ended; none while it is live (R83) -/
  ended  : Option Nat
  /-- whether the descriptor, the tensor or the target lies on another die (R121) -/
  wide   : Bool
  /-- what stands at the heads of the two streams, oldest first: the number that the beats bear (R84), the bytes -/
  data   : List (Nat × List Byte)
  scales : List (Nat × List Byte)
  deriving DecidableEq, Repr

/-- A virtual function (R455-R459) or, as number 0, physical function 0. -/
structure HostFn where
  bound   : Option (Nat × Nat)
  enabled : Bool
  state   : BitVec 2
  /-- MSI-X vectors pending, with the stamps of their completion records -/
  pending : List (Nat × Stamp)
  receipt : Nat
  /-- what the host has written into the MSI-X table (R455) -/
  msix    : List Host.Cell
  deriving DecidableEq, Repr

/-- A range monitor of a world (R449-R450). -/
structure Monitor where
  base  : Nat
  limit : Nat
  kinds : BitVec 4
  ring  : Nat
  deriving DecidableEq, Repr

/-- A sealed channel (R446-R448). -/
structure Channel where
  key      : List Byte
  counter  : Nat
  phase    : Bool
  failures : Nat
  retrain  : Bool
  deriving DecidableEq, Repr

/-- A patrol (R41): passes completed, the tc at which the running pass began, the beginning of the last completed pass. -/
structure Patrol where
  running  : Bool
  begun    : Nat
  lastDone : Option Nat
  deriving DecidableEq, Repr

/-- A rotation under way (R427-R431): the polder, the table of save-area pairs in world 0's memory, the slots that have not
handed over, those of them whose hand-over has begun. -/
structure Rotation where
  polder : Nat
  table  : Nat
  left   : List SlotRef
  begun  : List SlotRef
  deriving DecidableEq, Repr

/-- What a save area holds (R427, R428): the thread with its compute progress and tiles, its bank and scale granules,
its empty and poisoned words, and the polder's share of the arrival queue. The bytes of the area are undefined to every program
(its layout belongs to the part, R427); they are found again by the number of the first fresh value they were made of. -/
structure SaveArea where
  world  : Nat
  thread : Option Thread
  bank   : List Host.Cell
  scale  : List Host.Cell
  emptyW : List Nat
  poison : List Nat
  scalePoison : List Nat
  queue  : List FlumeRec
  /-- whether the thread has not been restored since it was saved -/
  away   : Bool
  deriving DecidableEq, Repr

/-- A lost line on its way to the containment logic of a die (R105, R434). -/
structure LostLine where
  die    : Nat
  pa     : Nat
  world  : Nat
  region : Option Nat
  va     : Option Nat
  stamp  : Stamp
  deriving DecidableEq, Repr

/-- Who makes an access at a home: its source number, world, region, slot number (R95, R102), the kind that a monitor
logs (R451: 0 read, 1 write, 2 atomic or visit, 3 engine, 4 host; 5 for the read half of an access logged once), the virtual address through the global window (R434). -/
structure Who where
  src    : Nat
  world  : Nat
  region : Nat
  slot   : Nat
  kind   : Nat
  va     : Option Nat
  deriving DecidableEq, Repr

/-- What has been scrubbed for a world since its creation (R445). -/
structure Scrub where
  regs  : Nat
  loc   : Nat
  tiles : Nat
  polders : List Nat
  /-- banks (core times 16 plus slot number) that a rotation has scrubbed and no thread of the world has used since -/
  banks : List Nat
  deriving DecidableEq, Repr

/-- What the module has sent to the outside: a host read's answer, an interrupt delivered, a message to the debugger,
an SPDM response, a byte written through a port, a line of the power manager's log. -/
inductive OutEvent where
  | hostData (fn : Nat) (data : List Byte)
  | hostFault (fn : Nat)
  | completerAbort (fn : Nat)
  | interrupt (fn vector : Nat) (stamp : Stamp)
  | debugMessage (words : List Word)
  | spdm (data : List Byte)
  | spdmError (code : Nat)
  | portWrite (port : Nat) (addr : Word) (data : List Byte)
  | portData (port : Nat) (data : List Byte)
  | portFault (port : Nat)
  | powerLog (what : Nat) (arg : Nat) (stamp : Stamp)
  | discardedLaunch (fn : Nat)
  deriving DecidableEq, Repr

/-- The whole module. -/
structure State where
  -- time and turns
  tc      : Nat
  seq     : Nat
  hold    : Nat
  cursor  : Nat
  cur     : SlotRef
  pipe    : Pipe
  arg     : Args
  /-- within a step: the access of an agent outside the slots that has to wait, and what for (R57, R91, R94); none between steps -/
  stall   : Option (Who × Park)
  urgent  : List Due
  agenda  : List Due
  -- cores
  cores   : List (Nat × Core)
  -- memory at rest and translation
  hbm     : List Host.Cell
  lines   : List (Nat × LineTag)
  spares  : List (Nat × Nat)
  keys    : List (Nat × Key)
  worldTable : List (Nat × Nat)
  pinned  : List Nat
  walks   : List WalkReq
  ctlbs   : List (Nat × List TlbEntry)
  records : List FaultRecord
  patrols : List (Nat × Patrol)
  retire  : List (Nat × Nat)
  -- caches
  slices  : List (Nat × List SliceLine)
  dirs    : List (Nat × DirEntry)
  overs   : List (Nat × List OverEntry)
  spillFills : List SpillJob
  spillInvs  : List SpillJob
  rdcs    : List RdcLine
  l2ctl   : List (Nat × BitVec 2)
  quars   : List (Nat × Word)
  rdcQuars : List (Nat × Word)
  /-- errors counted by way: uncorrectable ones, and the tc of each recent corrected one (R106) -/
  wayErrs : List (Nat × Nat × List Nat)
  dramErr : List Nat
  locErr  : List (Nat × Nat)
  -- homes
  held    : List HeldReq
  claims  : List Claim
  lrws    : List (Nat × List LrwPlace)
  rupds   : List Rupd
  -- layout and worlds
  layout  : Vector Nat 16
  locked  : Bool
  scrubs  : List (Nat × Scrub)
  destroying : Option (Nat × Stamp × Nat × Nat)
  -- headgate, regions, dispatch
  regions : List Region
  nextRegion : Nat
  /-- the parent of each region ever admitted, 0 for a root region (R435) -/
  ancestry : List (Nat × Nat)
  launches : List LaunchReq
  translator : Option Translator
  admitting  : Option Admission
  /-- the worlds that have stored into their translation caches, whose contents are then undefined (R408) -/
  cacheSpoilt : List Nat
  dispatchers : List (Nat × Dispatcher)
  weirs   : List (Nat × Weir)
  gangs   : List (Nat × GangRow)
  /-- records that have left their slots and not reached their target cores (R376, R383) -/
  flights : List (CoreIx × FlumeRec)
  occupancy : List (Nat × Nat)
  sampled : List (Nat × Nat)
  -- engines at memory
  pools   : List (Nat × List Pool)
  subs    : List Subscription
  lost    : List LostLine
  -- rotation
  rotations : List Rotation
  saves   : List (Nat × SaveArea)
  -- owner, host, sealing, attestation
  owner   : Option Master
  ready   : Word
  mboxStamp : Stamp
  mboxStatus : Nat
  mboxBusy : Bool
  mboxWait : List Due
  fns     : List (Nat × HostFn)
  attached : List Nat
  monitors : List (Nat × Monitor)
  measures : List (Nat × List Byte)
  channels : List (Nat × Channel)
  spdmStage : Nat
  spdmTrans : List Byte
  gated   : List Nat
  /-- the next cycle in which an agent, by its source number, can stamp an event, where that is not the present one (R30) -/
  stamped : List (Nat × Nat)
  throttled : Bool
  out     : List OutEvent
  deriving DecidableEq, Repr

/-- A g register of a thread that has just begun: zero and full (R179). -/
def GReg.zeroFull : GReg := { val := 0, full := true, pending := false }

/-- A g register of an unheld or newly granted block: zero and empty (R182). -/
def GReg.zeroEmpty : GReg := { val := 0, full := false, pending := false }

def Shape.zero : Shape := { w0 := 0, w1 := 0, w2 := 0, w3 := 0 }

def Handle.zero : Handle := { w0 := 0, w1 := 0 }

def Outlet.idle : Outlet := { active := none, shadow := none }

/-- The sluices of a thread that has just begun (R179). -/
def Sluices.idle : Sluices :=
  { q0 := .idle, q1 := [], q2 := .idle, q3 := [], q4 := .idle, q5 := [], q6 := [], q7 := .idle, wide1 := [], wide3 := [],
    wide5 := [] }

/-- An empty slot after module reset (R178). -/
def Slot.reset : Slot := { gen := 0, thread := none }

/-- A service context after reset: as a thread begins, every register zero and full (log entry 7). -/
def ServiceContext.reset : ServiceContext :=
  { g := Vector.replicate 16 { val := 0, full := true, pending := false }, x := Vector.replicate 4 0, world := 0, region := 0 }

/-- A core after module reset: slots empty, memory zero and full (R132), nothing pinned, no TLB or cache entry. -/
def Core.reset : Core :=
  { service := Vector.replicate 2 ServiceContext.reset, slots := Vector.replicate 16 Slot.reset, mem := [], scale := [], emptyW := [], poison := [],
    scalePoison := [], releases := [], buf := [],
    portsIn := Vector.replicate 4 [], images := [], shadow := none, tokens := [], horizon := [], endNo := 0, weirs := [],
    rounds := [], link := [], q6wait := [], fills := [], arrivals := [], arrived := 0, pin := none, l1 := [],
    utlb := [] }

/-- An erased line (R38, R41). -/
def LineTag.erased : LineTag := { world := 0, epoch := 0, fe := 0xFF, sound := true, poison := false }

def Key.none : Key := { epoch := 0, live := false, key := 0, destroyed := Option.none }

def DirEntry.zero : DirEntry := { state := 0, ptrs := [] }

def Token.free : Token := { taken := false, promise := 0, job := none, past := [] }

def ByteWeir.reset : ByteWeir := { counter := 0, posted := false, world := none, sat := false }

def Dispatcher.reset : Dispatcher :=
  { banks := [], spilled := [], arriving := [], gen := [], nextNo := 0, started := [] }

def GangRow.reset : GangRow := { arrived := [], formed := [], running := none, last := 15, reads := [], spoiled := [] }

def HostFn.reset : HostFn := { bound := none, enabled := false, state := 0, pending := [], receipt := 0, msix := [] }

def Channel.reset : Channel := { key := [], counter := 0, phase := false, failures := 0, retrain := false }

def Patrol.reset : Patrol := { running := false, begun := 0, lastDone := none }

def Scrub.zero : Scrub := { regs := 0, loc := 0, tiles := 0, polders := [], banks := [] }

/-- Bit `i` of the readiness register as reset leaves it (R463): culverts, tree engines and native table are ready, no stack is; the
security controller is ready if the boot draw passed its test, and then so is each die whose firmware signature holds (R443, R446,
R453; log entry 9). -/
def readyBit (i : Nat) : Bool :=
  if i < 16 then Config.bootDraw && Config.firmwareSound i
  else if i < 32 then false
  else if i < 60 then true
  else if i = 63 then Config.bootDraw
  else decide (i = 62)

/-- The readiness register as reset leaves it, from its bits (R463). -/
def readyAtReset : Word := (BitVec.ofBoolListLE ((List.range 64).map readyBit)).setWidth 64

/-- The state of the module right after module reset (R32, R41, R132, R178, R443). The stacks' own reset work stands in
the agenda. -/
def State.reset : State :=
  { tc := 0, seq := 0, hold := 0, cursor := 0, cur := { core := 0, slot := 0 }, pipe := .address,
    arg := {}, stall := none, urgent := [], agenda := (List.range 16).map (fun d => { what := .stackReady, arg := { n := d } })
      ++ (List.range 5).map (fun k => { what := .measurementExtend, arg := { n := k } }),
    cores := [], hbm := [], lines := [], spares := [],
    keys := [(0, { epoch := 1, live := true, key := 0, destroyed := none })],
    worldTable := [], pinned := [], walks := [], ctlbs := [], records := [], patrols := [], retire := [],
    slices := [], dirs := [], overs := [], spillFills := [], spillInvs := [], rdcs := [], l2ctl := [], quars := [],
    rdcQuars := [], wayErrs := [], dramErr := [], locErr := [],
    held := [], claims := [], lrws := [], rupds := [],
    layout := Vector.replicate 16 0, locked := false, scrubs := [], destroying := none,
    regions := [], nextRegion := 1, ancestry := [], launches := [], translator := none, admitting := none, cacheSpoilt := [], dispatchers := [], weirs := [], gangs := [],
    flights := [], occupancy := [], sampled := [], pools := [], subs := [], lost := [], rotations := [], saves := [],
    owner := none, ready := readyAtReset, mboxStamp := { tc := 0, src := 0 }, mboxStatus := 0, mboxBusy := false,
    mboxWait := [], fns := [], attached := [], monitors := [], measures := [], channels := [], spdmStage := 0,
    spdmTrans := [], gated := [], stamped := [], throttled := false, out := [] }

end Sys2Proof.Machine
end

