-- ==== Sys2Proof/Machine/Table.lean ====
section
/-!
DEFINITION. Sparse tables: sorted lists of (key, value) pairs, and byte memories in one canonical form.
-/

namespace Sys2Proof.Machine

/-- The value a sparse table holds at a key, `d` where the key is not listed. -/
def tget {α : Type} (d : α) : List (Nat × α) → Nat → α
  | [], _ => d
  | (k, v) :: r, x => if x = k then v else if x < k then d else tget d r x

/-- The table with a value stored at a key. -/
def tput {α : Type} : List (Nat × α) → Nat → α → List (Nat × α)
  | [], x, w => [(x, w)]
  | (k, v) :: r, x, w => if x = k then (k, w) :: r else if x < k then (x, w) :: (k, v) :: r else (k, v) :: tput r x w

/-- The table with a key taken out. -/
def tdel {α : Type} (m : List (Nat × α)) (x : Nat) : List (Nat × α) := m.filter (fun p => p.1 ≠ x)

/-- The table with the value at a key changed by `f`. -/
def tmod {α : Type} (d : α) (m : List (Nat × α)) (x : Nat) (f : α → α) : List (Nat × α) := tput m x (f (tget d m x))

/-- Whether the keys of a table rise strictly. -/
def keysRise {α : Type} : List (Nat × α) → Bool
  | [] => true
  | [_] => true
  | (k, _) :: (k', v') :: r => decide (k < k') && keysRise ((k', v') :: r)

/-- What a byte that nothing has written reads as: zero, in HBM4E (R41), local memory and the scale plane (R132). -/
def unwritten : Byte := 0

/-- The byte of a memory at an address. -/
def cellGet (m : List Host.Cell) (a : Nat) : Byte := tget unwritten m a

/-- The memory with one byte stored; storing what an unlisted byte reads as takes the entry out. -/
def cellPut : List Host.Cell → Nat → Byte → List Host.Cell
  | [], x, w => if w = unwritten then [] else [(x, w)]
  | (k, v) :: r, x, w =>
    if x = k then (if w = unwritten then r else (k, w) :: r)
    else if x < k then (if w = unwritten then (k, v) :: r else (x, w) :: (k, v) :: r)
    else (k, v) :: cellPut r x w

/-- Whether a memory is in canonical form: addresses strictly rising and no entry that reads as an unlisted byte. -/
def Memory.wf (m : List Host.Cell) : Bool := keysRise m && m.all (fun p => p.2 != unwritten)

/-- `n` bytes from address `a` up. -/
def cellsGet (m : List Host.Cell) (a : Nat) : Nat → List Byte
  | 0 => []
  | n + 1 => cellGet m a :: cellsGet m (a + 1) n

/-- The memory with bytes stored from address `a` up. -/
def cellsPut (m : List Host.Cell) (a : Nat) : List Byte → List Host.Cell
  | [] => m
  | b :: r => cellsPut (cellPut m a b) (a + 1) r

/-- The memory with every byte from `lo` up to but not including `hi` scrubbed to zero. -/
def cellsScrub (m : List Host.Cell) (lo hi : Nat) : List Host.Cell :=
  m.filter (fun p => decide (p.1 < lo) || decide (hi ≤ p.1))

/-- The value of bytes, the first being the least significant (R4). -/
def leNat : List Byte → Nat
  | [] => 0
  | b :: r => b.toNat + 256 * leNat r

/-- The `n` low bytes of a number, least significant first (R4). -/
def natLe (v : Nat) : Nat → List Byte
  | 0 => []
  | n + 1 => BitVec.ofNat 8 v :: natLe (v / 256) n

/-- The bytes of a list from position `i`, `n` of them, zero beyond its end. -/
def bytesAt (l : List Byte) (i n : Nat) : List Byte :=
  let s := (l.drop i).take n
  s ++ List.replicate (n - s.length) 0

/-- The little-endian number in `n` bytes at position `i` of a record. -/
def fieldAt (l : List Byte) (i n : Nat) : Nat := leNat (bytesAt l i n)

/-- Whether every byte of a list is zero. -/
def allZero (l : List Byte) : Bool := l.all (fun b => b == 0)

/-- A sorted list of numbers with one put in. -/
def setAdd : List Nat → Nat → List Nat
  | [], x => [x]
  | k :: r, x => if x = k then k :: r else if x < k then x :: k :: r else k :: setAdd r x

/-- An element put into a sorted list before the first that it precedes. -/
def insertBy {α : Type} (le : α → α → Bool) (x : α) : List α → List α
  | [] => [x]
  | y :: r => if le x y then x :: y :: r else y :: insertBy le x r

/-- A list sorted by an order. -/
def sortBy {α : Type} (le : α → α → Bool) (l : List α) : List α := l.foldr (insertBy le) []

/-- Words of 32 bits from bytes, four at a time. -/
def wordsOf : List Byte → List Word32
  | a :: b :: c :: d :: r => BitVec.ofNat 32 (leNat [a, b, c, d]) :: wordsOf r
  | _ => []

/-- Field `hi:lo` of a value, as a number (R4). -/
def bitsOf {w : Nat} (v : BitVec w) (hi lo : Nat) : Nat := (v.toNat / 2 ^ lo) % 2 ^ (hi + 1 - lo)

/-- Bit `i` of a value. -/
def bitOf {w : Nat} (v : BitVec w) (i : Nat) : Bool := v.getLsbD i

/-- Sign extension of a field to 64 bits (R197). -/
def sx {w : Nat} (v : BitVec w) : Word := v.signExtend 64

/-- The number of bytes a size names (R227). -/
def sizeBytes : Size → Nat
  | .b => 1
  | .h => 2
  | .w => 4
  | .d => 8

end Sys2Proof.Machine
end

