-- ==== Sys2Proof/WellFormed.lean ====
section
/-!
DEFINITION. Which instructions have an encoding: what R180, R183, R196-R200, R202, R203, R220, R222, R223, R239, R241,
R246 and R270 ask of a word beyond its fields' ranges. A word that breaks one of these is an illegal encoding (ILL).
-/

namespace Sys2Proof

/-- Whether a register may be written: tc and id may not (R180). -/
def Reg.dest : Reg → Bool
  | .tc => false
  | .id => false
  | _ => true

/-- Whether a register is one of g0-g39. -/
def Reg.isG : Reg → Bool
  | .g _ => true
  | _ => false

/-- A last-read mark may stand on a g register only (R183). -/
def markFits (on : Bool) (r : Reg) : Bool := !on || r.isG

def Marks.fit (m : Marks) (a b : Reg) : Bool := markFits m.a a && markFits m.b b

/-- An R-format form that reads a and b and writes d. -/
def wfDab (d a b : Reg) (m : Marks) : Bool := d.dest && m.fit a b

/-- An R-format form that reads a and writes d. -/
def wfDa (d a : Reg) (ma : Bool) : Bool := d.dest && markFits ma a

def VOp.isPort : VOp → Bool
  | .port _ => true
  | _ => false

def VOp.isShape : VOp → Bool
  | .s _ => true
  | _ => false

def VOp.isHandle : VOp → Bool
  | .h _ => true
  | _ => false

/-- Not all of the named operands are port streams (R239). -/
def walked (l : List VOp) : Bool := l.any (fun o => !o.isPort)

/-- BS and BC of CSKI use only imm12 bits 5:0, and CSKI has no FULL and no EMPTY (R198, R223). -/
def cskiFits (c : Cond) (imm : BitVec 12) : Bool :=
  match c with
  | .bs => decide (imm.toNat < 64)
  | .bc => decide (imm.toNat < 64)
  | .full => false
  | .empty => false
  | _ => true

/-- FULL and EMPTY test a g register and require the b field to be 0 (R198, R223). -/
def cskFits (c : Cond) (a b : Reg) : Bool :=
  match c with
  | .full => a.isG && decide (b = .g 0)
  | .empty => a.isG && decide (b = .g 0)
  | _ => true

/-- BEXT and BINS act on a field inside the word; a length of 0 means 64 (R220). -/
def fieldFits (pos len : BitVec 6) : Bool :=
  decide (pos.toNat + (if len = 0 then 64 else len.toNat) ≤ 64)

/-- Whether an instruction's operands are ones an encoding may hold. Rows of the table that carry no encoding hold no
operands and are well formed. -/
def Instr.wf : Instr → Bool
  | .add d a b m => wfDab d a b m
  | .sub d a b m => wfDab d a b m
  | .mul d a b m => wfDab d a b m
  | .mulh d a b m => wfDab d a b m
  | .mulhn d a b m => wfDab d a b m
  | .div d a b m => wfDab d a b m
  | .divn d a b m => wfDab d a b m
  | .rem d a b m => wfDab d a b m
  | .remn d a b m => wfDab d a b m
  | .and d a b m => wfDab d a b m
  | .or d a b m => wfDab d a b m
  | .xor d a b m => wfDab d a b m
  | .shl d a b m => wfDab d a b m
  | .shr d a b m => wfDab d a b m
  | .sar d a b m => wfDab d a b m
  | .andn d a b m => wfDab d a b m
  | .min d a b m => wfDab d a b m
  | .max d a b m => wfDab d a b m
  | .minn d a b m => wfDab d a b m
  | .maxn d a b m => wfDab d a b m
  | .clz d a ma => wfDa d a ma
  | .popc d a ma => wfDa d a ma
  | .mov d a ma => wfDa d a ma
  | .leaX2 d a b m => wfDab d a b m
  | .leaX4 d a b m => wfDab d a b m
  | .leaX8 d a b m => wfDab d a b m
  | .addi d _ _ => d.dest
  | .andi d _ _ => d.dest
  | .ori d _ _ => d.dest
  | .xori d _ _ => d.dest
  | .shli d _ _ => d.dest
  | .shri d _ _ => d.dest
  | .sari d _ _ => d.dest
  | .movi d _ => d.dest
  | .bext d _ pos len => d.dest && fieldFits pos len
  | .bins d _ pos len => d.dest && fieldFits pos len
  | .muli d _ _ => d.dest
  | .csk n c a b => decide (n ≠ 0) && cskFits c a b
  | .cski n c _ imm => decide (n ≠ 0) && cskiFits c imm
  | .jmp a ma => markFits ma a
  | .jmpl a ma => markFits ma a
  | .ld d _ _ _ => d.dest
  | .lds d _ _ _ => d.dest
  | .lda d _ _ _ => d.dest
  | .ldx d a b _ m => wfDab d a b m
  | .ldxS d a b sz m => wfDab d a b m && decide (sz ≠ .d)
  | .stx _ a b _ m => m.fit a b
  | .mpeek d _ _ => d.dest
  | .mtake d _ _ => d.dest
  | .mstate d _ _ => d.dest
  | .lrw d _ _ => d.dest
  | .sch d a b m => wfDab d a b m
  | .amoAdd d a b m => wfDab d a b m
  | .amoMin d a b m => wfDab d a b m
  | .amoMax d a b m => wfDab d a b m
  | .amoMinn d a b m => wfDab d a b m
  | .amoMaxn d a b m => wfDab d a b m
  | .amoAnd d a b m => wfDab d a b m
  | .amoOr d a b m => wfDab d a b m
  | .amoXor d a b m => wfDab d a b m
  | .amoSwap d a b m => wfDab d a b m
  | .amoFadd d a b m => wfDab d a b m
  | .cas d a b m => wfDab d a b m
  | .rupd _ a b m => m.fit a b
  | .push .. => true
  | .pop .. => true
  | .cpy d a b m => wfDab d a b m
  | .cpyHdl d a b m => wfDab d a b m
  | .cpyTag d a b m => wfDab d a b m
  | .waitt a ma => markFits ma a
  | .psub _ a b m => m.fit a b
  | .pret _ a b m => m.fit a b
  | .pcan _ a ma => markFits ma a
  | .hset _ a ma => markFits ma a
  | .hadv _ a ma => markFits ma a
  | .hcom _ a ma => markFits ma a
  | .hwait _ a ma => markFits ma a
  | .hroom _ a ma => markFits ma a
  | .hget d _ _ => d.dest
  | .sld _ a b m => m.fit a b
  | .sst _ a b m => m.fit a b
  | .sbase _ a ma => markFits ma a
  | .soff _ a ma => markFits ma a
  | .spawn d a b m => wfDab d a b m
  | .spawnq d a b m => wfDab d a b m
  | .park d a ma => wfDa d a ma
  | .wake d a ma => wfDa d a ma
  | .cancel d a ma => wfDa d a ma
  | .poke a b m => m.fit a b
  | .claim a ma => markFits ma a
  | .acq a ma => markFits ma a
  | .acqt d a ma => wfDa d a ma
  | .rel a ma => markFits ma a
  | .weir a b m => m.fit a b
  | .wbyte a b m => m.fit a b
  | .wwait a ma => markFits ma a
  | .nest a ma => markFits ma a
  | .trnew a b m => m.fit a b
  | .trdsc a b m => m.fit a b
  | .trxpd _ a _ ma => markFits ma a
  | .trbck _ a b m => m.fit a b
  | .trpik a b m => m.fit a b
  | .trrrt a b m => m.fit a b
  | .trfre a ma => markFits ma a
  | .trnewF a b m => m.fit a b
  | .trdscF a b m => m.fit a b
  | .trxpdF _ a _ ma => markFits ma a
  | .trbckF _ a b m => m.fit a b
  | .trpikF a b m => m.fit a b
  | .trrrtF a b m => m.fit a b
  | .trfreF a ma => markFits ma a
  | .csrr d _ => d.dest
  | .csrw _ a ma => markFits ma a
  | .eret d a ma => wfDa d a ma
  | .emwin d a b m => wfDab d a b m
  | .launch d a ma => wfDa d a ma
  | .pwrd d a ma => wfDa d a ma
  | .errinj d a b m => wfDab d a b m
  | .segrep d a b m => wfDab d a b m
  | .fadd d a b m => wfDab d a b m
  | .fsub d a b m => wfDab d a b m
  | .fmul d a b m => wfDab d a b m
  | .fmin d a b m => wfDab d a b m
  | .fmax d a b m => wfDab d a b m
  | .fcvti d a ma => wfDa d a ma
  | .fcvtf d a ma => wfDa d a ma
  | .fabs d a ma => wfDa d a ma
  | .fneg d a ma => wfDa d a ma
  | .ffma _ d a b m => wfDab d a b m
  | .movl d _ => d.dest
  | .vadd d a b _ _ => walked [d, a, b]
  | .vsub d a b _ _ => walked [d, a, b]
  | .vmul d a b _ _ => walked [d, a, b]
  | .vmin d a b _ _ => walked [d, a, b]
  | .vmax d a b _ _ => walked [d, a, b]
  | .vabs d a _ rm => walked [d, a] && decide (rm = .rn)
  | .vneg d a _ rm => walked [d, a] && decide (rm = .rn)
  | .vmov d a _ _ => walked [d, a]
  | .vsel d a b _ _ => walked [d, a, b]
  | .vfma d a b _ _ => walked [d, a, b]
  | .vcmp _ d a b _ => walked [d, a, b]
  | .vred _ _ d a _ _ => walked [d, a] && !a.isPort
  | .viadd d a b _ => walked [d, a, b]
  | .visub d a b _ => walked [d, a, b]
  | .vimul d a b _ => walked [d, a, b]
  | .vand d a b _ => walked [d, a, b]
  | .vor d a b _ => walked [d, a, b]
  | .vxor d a b _ => walked [d, a, b]
  | .vshl d a b _ => walked [d, a, b]
  | .vshr d a b _ => walked [d, a, b]
  | .vsar d a b _ => walked [d, a, b]
  | .vexp2 d a _ => walked [d, a]
  | .vlog2 d a _ => walked [d, a]
  | .vrcp d a _ => walked [d, a]
  | .vrsq d a _ => walked [d, a]
  | .vtanh d a _ => walked [d, a]
  | .verf d a _ => walked [d, a]
  | .vsin d a _ => walked [d, a]
  | .vcos d a _ => walked [d, a]
  | .vmatch d a _ => walked [d, a]
  | .vscan d a _ _ => walked [d, a] && !a.isPort
  | .vgath d a b _ _ => walked [d, a, b] && !a.isPort
  | .vscat d a b _ _ => walked [d, a, b] && !d.isPort
  | .vbmax d a _ _ => walked [d, a] && !a.isPort
  | .vqnt d a _ => walked [d, a]
  | .vwmax _ d a _ _ => walked [d, a]
  | .mmaUnfold _ _ b _ => !b.isPort
  | .mmaShape _ a b _ => !a.isPort && !b.isPort
  | .mload _ a => !a.isPort
  | .mstore _ a => !a.isPort
  | .msave _ a => !a.isPort
  | .mrest _ a => !a.isPort
  | .void .. => true
  | .br .. => true
  | .brl .. => true
  | .ret => true
  | .st .. => true
  | .stl .. => true
  | .mput .. => true
  | .mfill .. => true
  | .mdrain .. => true
  | .fenceAcq .. => true
  | .fenceRel .. => true
  | .fenceFull .. => true
  | .quit => true
  | .yield => true
  | .next .. => true
  | .trap .. => true
  | .brk => true
  | .tbr .. => true
  | .brf .. => true
  | .mzero .. => true
  | .unf .. => true
  | .esnenLi .. => true
  | .esnenLih .. => true
  | .esnenAdd .. => true
  | .esnenAddi .. => true
  | .esnenSub .. => true
  | .esnenAnd .. => true
  | .esnenOr .. => true
  | .esnenXor .. => true
  | .esnenShli .. => true
  | .esnenShri .. => true
  | .esnenLdb .. => true
  | .esnenLdh .. => true
  | .esnenLdw .. => true
  | .esnenStb .. => true
  | .esnenStw .. => true
  | .esnenBeq .. => true
  | .esnenBne .. => true
  | .esnenBlt .. => true
  | .esnenJal .. => true
  | .esnenJr .. => true
  | .esnenEmit .. => true
  | .esnenMark .. => true
  | .esnenTlook .. => true
  | .esnenDone .. => true
  | .esnenFail .. => true
  | .meterExhausted => true
  | .moduleReset => true
  | .stackReady => true
  | .patrolPass => true
  | .hostLinkReset => true
  | .clusterGate => true
  | .clusterWake => true
  | .linkFrame => true
  | .channelRekey => true
  | .linkRetrain => true
  | .invalidation => true
  | .groupModeWrite => true
  | .l2ControlWrite => true
  | .ownerClaim => true
  | .measurementExtend => true
  | .stateRegisterWrite => true
  | .functionLevelReset => true
  | .vfEnableClear => true
  | .deviceRegisterWrite => true
  | .hostPostedWrite => true
  | .hostRead => true
  | .hostLaunch => true
  | .create => true
  | .destroy => true
  | .layout => true
  | .rotate => true
  | .bind => true
  | .monitor => true
  | .attach => true
  | .handover => true
  | .getVersion => true
  | .getCapabilities => true
  | .negotiateAlgorithms => true
  | .getDigests => true
  | .getCertificate => true
  | .challenge => true
  | .getMeasurements => true
  | .launchAdmission => true
  | .bootTreeForward => true
  | .initialThreadStart => true
  | .regionCompletion => true
  | .handlerSpawn => true
  | .tlbWalk => true
  | .storePerformed => true
  | .spillwayOverflow => true
  | .spillwayInvalidation => true
  | .visit => true
  | .remoteUpdate => true
  | .remoteFill => true
  | .heldRequestService => true
  | .mputClaimGrant => true
  | .lrwHead => true
  | .leaseEnd => true
  | .parkDeadline => true
  | .promiseTime => true
  | .watchdogExpiry => true
  | .yieldExpiry => true
  | .copyAccept => true
  | .copyChunk => true
  | .q1CompletionEntry => true
  | .loaderSubscription => true
  | .storerSubscription => true
  | .cancelRecord => true
  | .loaderTile => true
  | .storerTile => true
  | .treeCmdNew => true
  | .treeCmdDescent => true
  | .treeCmdExpand => true
  | .treeCmdBackup => true
  | .treeCmdPick => true
  | .treeCmdReroot => true
  | .treeCmdFree => true
  | .backgroundFreeing => true
  | .reductionMessage => true
  | .q6Entry => true
  | .containmentNotice => true
  | .frameRemap => true
  | .taskInsert => true
  | .dispatch => true
  | .arrival => true
  | .arrivalPlacement => true
  | .occupancySample => true
  | .slotHandover => true
  | .gangStart => true
  | .gangRetire => true
  | .debuggerResume => true
  | .clockThrottle => true
  | .externalPortAccess => true
  | .vfEnableSet => true

end Sys2Proof
end

