-- ==== Sys2Proof/Decode.lean ====
section
/-!
DEFINITION. The decoder of native words (R191-R204) and of the words of the Esnen set (R387, R388), total on any words,
and the encoders written from the same tables. A word is read as a natural number; field `lo`, `n` is `n` bits from bit
`lo` up.
-/

namespace Sys2Proof

/-- The `n` bits of a word from bit `lo` up. -/
def fld (w lo n : Nat) : Nat := w / 2 ^ lo % 2 ^ n

/-! ### Operand fields -/

/-- A six-bit scalar register field (R180, R196). -/
def decReg (n : Nat) : Option Reg :=
  if h : n < 40 then some (.g ⟨n, h⟩)
  else if n = 40 then some (.port .pn)
  else if n = 41 then some (.port .pe)
  else if n = 42 then some (.port .ps)
  else if n = 43 then some (.port .pw)
  else if h : n - 44 < 4 then some (.x ⟨n - 44, h⟩)
  else if n = 48 then some .z
  else if n = 49 then some .tc
  else if n = 50 then some .id
  else if n = 51 then some .lk
  else none

def encPort : Port → Nat
  | .pn => 0
  | .pe => 1
  | .ps => 2
  | .pw => 3

def encReg : Reg → Nat
  | .g n => n.val
  | .port p => 40 + encPort p
  | .x n => 44 + n.val
  | .z => 48
  | .tc => 49
  | .id => 50
  | .lk => 51

/-- A five-bit vector operand field (R196). -/
def decVOp (n : Nat) : Option VOp :=
  if h : n < 16 then some (.s ⟨n, h⟩)
  else if h : n - 16 < 8 then some (.h ⟨n - 16, h⟩)
  else if n = 24 then some (.port .pn)
  else if n = 25 then some (.port .pe)
  else if n = 26 then some (.port .ps)
  else if n = 27 then some (.port .pw)
  else none

def encVOp : VOp → Nat
  | .s n => n.val
  | .h n => 16 + n.val
  | .port p => 24 + encPort p

/-- A field that names an object by number below `k` (R196). -/
def decFin (k n : Nat) : Option (Fin k) := if h : n < k then some ⟨n, h⟩ else none

def decSize : Nat → Size
  | 0 => .b
  | 1 => .h
  | 2 => .w
  | _ => .d

def encSize : Size → Nat
  | .b => 0
  | .h => 1
  | .w => 2
  | .d => 3

def decRm : Nat → Rm
  | 0 => .rn
  | 1 => .rz
  | 2 => .rd
  | _ => .ru

def encRm : Rm → Nat
  | .rn => 0
  | .rz => 1
  | .rd => 2
  | .ru => 3

/-- Condition codes 0 to 0xE (R223). -/
def decCond : Nat → Option Cond
  | 0 => some .eq
  | 1 => some .ne
  | 2 => some .lt
  | 3 => some .ge
  | 4 => some .ltn
  | 5 => some .gen
  | 6 => some .bs
  | 7 => some .bc
  | 8 => some .feq
  | 9 => some .fne
  | 10 => some .flt
  | 11 => some .fge
  | 12 => some .fun_
  | 13 => some .full
  | 14 => some .empty
  | _ => none

def encCond : Cond → Nat
  | .eq => 0
  | .ne => 1
  | .lt => 2
  | .ge => 3
  | .ltn => 4
  | .gen => 5
  | .bs => 6
  | .bc => 7
  | .feq => 8
  | .fne => 9
  | .flt => 10
  | .fge => 11
  | .fun_ => 12
  | .full => 13
  | .empty => 14

/-- The conditions of VCMP (R250). -/
def decVCond : Nat → Option VCond
  | 0 => some .eq
  | 1 => some .ne
  | 2 => some .lt
  | 3 => some .ge
  | 4 => some .fun_
  | _ => none

def encVCond : VCond → Nat
  | .eq => 0
  | .ne => 1
  | .lt => 2
  | .ge => 3
  | .fun_ => 4

/-- The operations of VRED (R252). -/
def decRedOp : Nat → RedOp
  | 0 => .sum
  | 1 => .maxr
  | 2 => .minr
  | _ => .maxabs

def encRedOp : RedOp → Nat
  | .sum => 0
  | .maxr => 1
  | .minr => 2
  | .maxabs => 3

/-- FENCE scopes (R292). -/
def decScope : Nat → Option Scope
  | 0 => some .core
  | 1 => some .cluster
  | 2 => some .die
  | 3 => some .module
  | 4 => some .system
  | _ => none

def encScope : Scope → Nat
  | .core => 0
  | .cluster => 1
  | .die => 2
  | .module => 3
  | .system => 4

/-- The operations of AMO and RUPD by fn (R289). -/
def decAmoOp : Nat → Option AmoOp
  | 0 => some .add
  | 1 => some .min
  | 2 => some .max
  | 3 => some .minn
  | 4 => some .maxn
  | 5 => some .and
  | 6 => some .or
  | 7 => some .xor
  | 8 => some .swap
  | 9 => some .fadd
  | _ => none

def encAmoOp : AmoOp → Nat
  | .add => 0
  | .min => 1
  | .max => 2
  | .minn => 3
  | .maxn => 4
  | .and => 5
  | .or => 6
  | .xor => 7
  | .swap => 8
  | .fadd => 9

/-- The marks of an R-format word: bit 1 for a, bit 0 for b (R183). -/
def decMarks (w : Nat) : Marks := { a := decide (fld w 1 1 = 1), b := decide (fld w 0 1 = 1) }

def encMark (b : Bool) : Nat := if b then 1 else 0

/-- Go on only where a condition holds. -/
def guardSome {α : Type} (b : Bool) (o : Option α) : Option α := if b then o else none

/-! ### R-format shapes (R195, R196): d 23:18, a 17:12, b 11:6, fn 5:2, marks 1:0 -/

abbrev DabForm := Reg → Reg → Reg → Marks → Instr

/-- d, a and b are registers. -/
def rDab (w : Nat) (k : DabForm) : Option Instr := do
  let d ← decReg (fld w 18 6)
  let a ← decReg (fld w 12 6)
  let b ← decReg (fld w 6 6)
  return k d a b (decMarks w)

/-- d and a are registers; b and its mark are 0. -/
def rDa (w : Nat) (k : Reg → Reg → Bool → Instr) : Option Instr :=
  guardSome (decide (fld w 6 6 = 0 ∧ fld w 0 1 = 0)) do
    let d ← decReg (fld w 18 6)
    let a ← decReg (fld w 12 6)
    return k d a (decMarks w).a

/-- a and b are registers; the d field holds `z`. -/
def rAb (z w : Nat) (k : Reg → Reg → Marks → Instr) : Option Instr :=
  guardSome (decide (fld w 18 6 = z)) do
    let a ← decReg (fld w 12 6)
    let b ← decReg (fld w 6 6)
    return k a b (decMarks w)

/-- a is a register; d, b and b's mark are 0. -/
def rA (w : Nat) (k : Reg → Bool → Instr) : Option Instr :=
  guardSome (decide (fld w 18 6 = 0 ∧ fld w 6 6 = 0 ∧ fld w 0 1 = 0)) do
    let a ← decReg (fld w 12 6)
    return k a (decMarks w).a

/-- The d field is an object number below `n`; a is a register; b and its mark are 0. -/
def rNa (n w : Nat) (k : Fin n → Reg → Bool → Instr) : Option Instr :=
  guardSome (decide (fld w 6 6 = 0 ∧ fld w 0 1 = 0)) do
    let d ← decFin n (fld w 18 6)
    let a ← decReg (fld w 12 6)
    return k d a (decMarks w).a

/-- The d field is an object number below `n`; a and b are registers. -/
def rNab (n w : Nat) (k : Fin n → Reg → Reg → Marks → Instr) : Option Instr := do
  let d ← decFin n (fld w 18 6)
  let a ← decReg (fld w 12 6)
  let b ← decReg (fld w 6 6)
  return k d a b (decMarks w)

/-- d and a are registers; the b field is a shape number; b's mark is 0. -/
def rDas (w : Nat) (k : Reg → Reg → Fin 16 → Bool → Instr) : Option Instr :=
  guardSome (decide (fld w 0 1 = 0)) do
    let d ← decReg (fld w 18 6)
    let a ← decReg (fld w 12 6)
    let s ← decFin 16 (fld w 6 6)
    return k d a s (decMarks w).a

/-- Every operand field and both marks are 0. -/
def rNone (w : Nat) (i : Instr) : Option Instr :=
  guardSome (decide (fld w 6 18 = 0 ∧ fld w 0 2 = 0)) (some i)

/-! ### I and M formats -/

/-- d, a and imm12. -/
def iDa (w : Nat) (k : Reg → Reg → BitVec 12 → Instr) : Option Instr := do
  let d ← decReg (fld w 18 6)
  let a ← decReg (fld w 12 6)
  return k d a (BitVec.ofNat 12 (fld w 0 12))

/-- d, a and a shift count; imm12 bits 11:6 are 0 (R197). -/
def iShift (w : Nat) (k : Reg → Reg → BitVec 6 → Instr) : Option Instr :=
  guardSome (decide (fld w 6 6 = 0)) do
    let d ← decReg (fld w 18 6)
    let a ← decReg (fld w 12 6)
    return k d a (BitVec.ofNat 6 (fld w 0 6))

/-- d, a, position and length. -/
def iField (w : Nat) (k : Reg → Reg → BitVec 6 → BitVec 6 → Instr) : Option Instr := do
  let d ← decReg (fld w 18 6)
  let a ← decReg (fld w 12 6)
  return k d a (BitVec.ofNat 6 (fld w 6 6)) (BitVec.ofNat 6 (fld w 0 6))

/-- data, base, size and displacement. -/
def mSized (w : Nat) (k : Reg → Reg → Size → BitVec 10 → Instr) : Option Instr := do
  let d ← decReg (fld w 18 6)
  let b ← decReg (fld w 12 6)
  return k d b (decSize (fld w 10 2)) (BitVec.ofNat 10 (fld w 0 10))

/-- data, base and displacement; the size field selects the form. -/
def mForm (w : Nat) (k : Reg → Reg → BitVec 10 → Instr) : Option Instr := do
  let d ← decReg (fld w 18 6)
  let b ← decReg (fld w 12 6)
  return k d b (BitVec.ofNat 10 (fld w 0 10))

/-! ### The A-class short majors (R202) -/

def decInt0 (w : Nat) : Option Instr :=
  match fld w 2 4 with
  | 0 => rDab w .add
  | 1 => rDab w .sub
  | 2 => rDab w .mul
  | 3 => rDab w .mulh
  | 4 => rDab w .mulhn
  | 5 => rDab w .div
  | 6 => rDab w .divn
  | 7 => rDab w .rem
  | 8 => rDab w .remn
  | 9 => rDab w .and
  | 10 => rDab w .or
  | 11 => rDab w .xor
  | 12 => rDab w .shl
  | 13 => rDab w .shr
  | 14 => rDab w .sar
  | _ => rDab w .andn

def decInt1 (w : Nat) : Option Instr :=
  match fld w 2 4 with
  | 0 => rDab w .min
  | 1 => rDab w .max
  | 2 => rDab w .minn
  | 3 => rDab w .maxn
  | 4 => rDa w .clz
  | 5 => rDa w .popc
  | 6 => rDa w .mov
  | 7 => rDab w .leaX2
  | 8 => rDab w .leaX4
  | 9 => rDab w .leaX8
  | 10 => guardSome (decide (fld w 6 12 = 0 ∧ fld w 0 2 = 0)) ((decFin 40 (fld w 18 6)).map .void)
  | _ => none

/-- CSK (R195, R198). -/
def decCsk (w : Nat) : Option Instr :=
  guardSome (decide (fld w 0 6 = 0)) do
    let n ← decFin 4 (fld w 22 2)
    let c ← decCond (fld w 18 4)
    let a ← decReg (fld w 12 6)
    let b ← decReg (fld w 6 6)
    return .csk n c a b

def decCski (w : Nat) : Option Instr := do
  let n ← decFin 4 (fld w 22 2)
  let c ← decCond (fld w 18 4)
  let a ← decReg (fld w 12 6)
  return .cski n c a (BitVec.ofNat 12 (fld w 0 12))

def decJump (w : Nat) : Option Instr :=
  match fld w 2 4 with
  | 0 => rA w .jmp
  | 1 => rA w .jmpl
  | 2 => rNone w .ret
  | _ => none

/-- LDX and STX (R229). -/
def decLdx (w : Nat) : Option Instr :=
  match fld w 4 2 with
  | 0 => rDab w (fun d a b m => .ldx d a b (decSize (fld w 2 2)) m)
  | 1 => rDab w (fun d a b m => .ldxS d a b (decSize (fld w 2 2)) m)
  | _ => none

def decStx (w : Nat) : Option Instr :=
  match fld w 4 2 with
  | 0 => rDab w (fun d a b m => .stx d a b (decSize (fld w 2 2)) m)
  | _ => none

/-- The full/empty forms (R283). -/
def decFullEmpty (w : Nat) : Option Instr :=
  match fld w 10 2 with
  | 0 => mForm w .mpeek
  | 1 => mForm w .mtake
  | 2 => mForm w .mput
  | _ => mForm w .mfill

def decDrain (w : Nat) : Option Instr :=
  match fld w 10 2 with
  | 0 => guardSome (decide (fld w 18 6 = 0)) do
      let b ← decReg (fld w 12 6)
      return .mdrain b (BitVec.ofNat 10 (fld w 0 10))
  | 1 => mForm w .mstate
  | _ => none

def decLrw (w : Nat) : Option Instr :=
  match fld w 10 2 with
  | 3 => mForm w .lrw
  | _ => none

/-- The AMO forms (R289). -/
def decAmo (w : Nat) : Option Instr :=
  match fld w 2 4 with
  | 0 => rDab w .amoAdd
  | 1 => rDab w .amoMin
  | 2 => rDab w .amoMax
  | 3 => rDab w .amoMinn
  | 4 => rDab w .amoMaxn
  | 5 => rDab w .amoAnd
  | 6 => rDab w .amoOr
  | 7 => rDab w .amoXor
  | 8 => rDab w .amoSwap
  | 9 => rDab w .amoFadd
  | _ => none

def decRupd (w : Nat) : Option Instr := do
  let op ← decAmoOp (fld w 2 4)
  rAb 48 w (.rupd op)

def decFence (w : Nat) : Option Instr :=
  guardSome (decide (fld w 6 12 = 0 ∧ fld w 0 2 = 0)) do
    let sc ← decScope (fld w 18 6)
    match fld w 2 4 with
    | 0 => some (.fenceAcq sc)
    | 1 => some (.fenceRel sc)
    | 2 => some (.fenceFull sc)
    | _ => none

/-- PUSH and POP (R195, R293). -/
def decQ (w : Nat) (k : Fin 40 → Fin 8 → Instr) : Option Instr :=
  guardSome (decide (fld w 0 15 = 0)) do
    let g ← decFin 40 (fld w 18 6)
    let q ← decFin 8 (fld w 15 3)
    return k g q

def decCpy (w : Nat) : Option Instr :=
  match fld w 2 4 with
  | 0 => rDab w .cpy
  | 1 => rDab w .cpyHdl
  | 2 => rDab w .cpyTag
  | _ => none

def decPump (w : Nat) : Option Instr :=
  match fld w 2 4 with
  | 0 => rDab w .psub
  | 1 => rDab w .pret
  | 2 => rDa w .pcan
  | _ => none

def decHandle (w : Nat) : Option Instr :=
  match fld w 2 4 with
  | 0 => rNa 8 w .hset
  | 1 => rNa 8 w .hadv
  | 2 => rNa 8 w .hcom
  | 3 => rNa 8 w .hwait
  | 4 => rNa 8 w .hroom
  | 5 => guardSome (decide (fld w 0 2 = 0)) do
      let d ← decReg (fld w 18 6)
      let h ← decFin 8 (fld w 12 6)
      let k ← decFin 2 (fld w 6 6)
      return .hget d h k
  | _ => none

def decShape (w : Nat) : Option Instr :=
  match fld w 2 4 with
  | 0 => rNab 16 w .sld
  | 1 => rNab 16 w .sst
  | 2 => rNa 16 w .sbase
  | 3 => rNa 16 w .soff
  | _ => none

def decSpawn (w : Nat) : Option Instr :=
  match fld w 2 4 with
  | 0 => rDab w .spawn
  | 1 => rDab w .spawnq
  | _ => none

def decThread (w : Nat) : Option Instr :=
  match fld w 2 4 with
  | 0 => rNone w .quit
  | 1 => rNone w .yield
  | 2 => rDa w .park
  | 3 => rDa w .wake
  | 4 => rDa w .cancel
  | 5 => rAb 0 w .poke
  | _ => none

def decBanker (w : Nat) : Option Instr :=
  match fld w 2 4 with
  | 0 => rA w .claim
  | 1 => rA w .acq
  | 2 => rDa w .acqt
  | 3 => rA w .rel
  | _ => none

def decWeir (w : Nat) : Option Instr :=
  match fld w 2 4 with
  | 0 => rAb 0 w .weir
  | 2 => rAb 0 w .wbyte
  | 3 => rA w .wwait
  | _ => none

/-- The tree forms (R310). -/
def decTree (w : Nat) : Option Instr :=
  match fld w 2 4 with
  | 0 => rAb 0 w .trnew
  | 1 => rAb 0 w .trdsc
  | 2 => rDas w .trxpd
  | 3 => rDab w .trbck
  | 4 => rAb 0 w .trpik
  | 5 => rAb 0 w .trrrt
  | 6 => rA w .trfre
  | 8 => rAb 0 w .trnewF
  | 9 => rAb 0 w .trdscF
  | 10 => rDas w .trxpdF
  | 11 => rDab w .trbckF
  | 12 => rAb 0 w .trpikF
  | 13 => rAb 0 w .trrrtF
  | 14 => rA w .trfreF
  | _ => none

def decSystem (w : Nat) : Option Instr :=
  match fld w 2 4 with
  | 0 => guardSome (decide (fld w 6 6 = 0 ∧ fld w 0 2 = 0)) do
      let d ← decReg (fld w 18 6)
      let c ← decFin 19 (fld w 12 6)
      return .csrr d c
  | 1 => rNa 19 w .csrw
  | 2 => guardSome (decide (fld w 18 6 = 0 ∧ fld w 0 2 = 0)) (some (.trap (BitVec.ofNat 12 (fld w 6 12))))
  | 3 => rDa w .eret
  | 4 => rDab w .emwin
  | 5 => rDa w .launch
  | 6 => rDa w .pwrd
  | 7 => rNone w .brk
  | 8 => rDab w .errinj
  | 9 => rDab w .segrep
  | _ => none

def decFloat (w : Nat) : Option Instr :=
  match fld w 2 4 with
  | 0 => rDab w .fadd
  | 1 => rDab w .fsub
  | 2 => rDab w .fmul
  | 3 => rDab w .fmin
  | 4 => rDab w .fmax
  | 5 => rDa w .fcvti
  | 6 => rDa w .fcvtf
  | 7 => rDa w .fabs
  | 8 => rDa w .fneg
  | _ => none

/-- An A-class short word by its major (R202). -/
def decAShort (w : Nat) : Option Instr :=
  match fld w 24 6 with
  | 0x00 => decInt0 w
  | 0x01 => decInt1 w
  | 0x02 => iDa w .addi
  | 0x03 => iDa w .andi
  | 0x04 => iDa w .ori
  | 0x05 => iDa w .xori
  | 0x06 => iShift w .shli
  | 0x07 => iShift w .shri
  | 0x08 => iShift w .sari
  | 0x09 => (decReg (fld w 18 6)).map (fun d => .movi d (BitVec.ofNat 18 (fld w 0 18)))
  | 0x0A => iField w .bext
  | 0x0B => iField w .bins
  | 0x0C => iDa w .muli
  | 0x10 => decCsk w
  | 0x11 => decCski w
  | 0x14 => some (.br (BitVec.ofNat 24 (fld w 0 24)))
  | 0x15 => some (.brl (BitVec.ofNat 24 (fld w 0 24)))
  | 0x16 => decJump w
  | 0x18 => mSized w .ld
  | 0x19 => mSized w .lds
  | 0x1A => mSized w .st
  | 0x1B => mSized w .lda
  | 0x1C => mSized w .stl
  | 0x1D => decLdx w
  | 0x1E => decStx w
  | 0x20 => decFullEmpty w
  | 0x21 => decDrain w
  | 0x22 => decLrw w
  | 0x23 => guardSome (decide (fld w 2 4 = 0)) (rDab w .sch)
  | 0x24 => decAmo w
  | 0x25 => guardSome (decide (fld w 2 4 = 0)) (rDab w .cas)
  | 0x26 => decRupd w
  | 0x27 => decFence w
  | 0x28 => decQ w .push
  | 0x29 => decQ w .pop
  | 0x2A => decCpy w
  | 0x2B => guardSome (decide (fld w 2 4 = 0)) (rA w .waitt)
  | 0x2C => decPump w
  | 0x2D => decHandle w
  | 0x2E => decShape w
  | 0x30 => decSpawn w
  | 0x31 => decThread w
  | 0x32 => decBanker w
  | 0x33 => decWeir w
  | 0x34 => guardSome (decide (fld w 2 4 = 0)) (rA w .nest)
  | 0x35 => some (.next (BitVec.ofNat 24 (fld w 0 24)))
  | 0x36 => decTree w
  | 0x38 => decSystem w
  | 0x39 => decFloat w
  | 0x3A => guardSome (decide (fld w 4 2 = 0)) (rDab w (.ffma (decRm (fld w 2 2))))
  | _ => none

/-! ### The C-class short majors (R203): V has d 23:19, a 18:14, b 13:9, fn 8:5, w 4:2, rm 1:0 -/

abbrev Rounded3 := VOp → VOp → VOp → Fin 8 → Rm → Instr

/-- The wait field (R199). -/
def decWait (w : Nat) : Fin 8 := ⟨fld w 2 3, Nat.mod_lt _ (by decide)⟩

/-- d, a, b, w and rm. -/
def vDab (w : Nat) (k : Rounded3) : Option Instr := do
  let d ← decVOp (fld w 19 5)
  let a ← decVOp (fld w 14 5)
  let b ← decVOp (fld w 9 5)
  return k d a b (decWait w) (decRm (fld w 0 2))

/-- d, a, w and rm; b is 0. -/
def vDa (w : Nat) (k : VOp → VOp → Fin 8 → Rm → Instr) : Option Instr :=
  guardSome (decide (fld w 9 5 = 0)) do
    let d ← decVOp (fld w 19 5)
    let a ← decVOp (fld w 14 5)
    return k d a (decWait w) (decRm (fld w 0 2))

/-- d, a, b and w; rm is 0 (R246). -/
def vDabN (w : Nat) (k : VOp → VOp → VOp → Fin 8 → Instr) : Option Instr :=
  guardSome (decide (fld w 0 2 = 0)) (vDab w (fun d a b n _ => k d a b n))

/-- d, a and w; b and rm are 0 (R246). -/
def vDaN (w : Nat) (k : VOp → VOp → Fin 8 → Instr) : Option Instr :=
  guardSome (decide (fld w 0 2 = 0)) (vDa w (fun d a n _ => k d a n))

def decVFloat (w : Nat) : Option Instr :=
  match fld w 5 4 with
  | 0 => vDab w .vadd
  | 1 => vDab w .vsub
  | 2 => vDab w .vmul
  | 3 => vDab w .vmin
  | 4 => vDab w .vmax
  | 5 => vDaN w (fun d a n => .vabs d a n .rn)
  | 6 => vDaN w (fun d a n => .vneg d a n .rn)
  | 7 => vDa w .vmov
  | 8 => vDab w .vsel
  | _ => none

def decVInt (w : Nat) : Option Instr :=
  match fld w 5 4 with
  | 0 => vDabN w .viadd
  | 1 => vDabN w .visub
  | 2 => vDabN w .vimul
  | 3 => vDabN w .vand
  | 4 => vDabN w .vor
  | 5 => vDabN w .vxor
  | 6 => vDabN w .vshl
  | 7 => vDabN w .vshr
  | 8 => vDabN w .vsar
  | _ => none

def decVSpecial (w : Nat) : Option Instr :=
  match fld w 5 4 with
  | 0 => vDaN w .vexp2
  | 1 => vDaN w .vlog2
  | 2 => vDaN w .vrcp
  | 3 => vDaN w .vrsq
  | 4 => vDaN w .vtanh
  | 5 => vDaN w .verf
  | 6 => vDaN w .vsin
  | 7 => vDaN w .vcos
  | _ => none

def decVHelp (w : Nat) : Option Instr :=
  match fld w 5 4 with
  | 0 => vDaN w .vmatch
  | 1 => vDa w .vscan
  | 2 => vDab w .vgath
  | 3 => vDab w .vscat
  | 4 => vDa w .vbmax
  | 5 => vDaN w .vqnt
  | _ => none

/-- The X format (R200): tile 23:21, unfold 20:19, A-from-unfold 18, a 17:13, b 12:8, fn 7:4, flags 3:0. -/
def decMatrix (w : Nat) : Option Instr :=
  let t : Fin 8 := ⟨fld w 21 3, Nat.mod_lt _ (by decide)⟩
  let f : Fin 4 := ⟨fld w 19 2, Nat.mod_lt _ (by decide)⟩
  let alone := decide (fld w 18 3 = 0 ∧ fld w 8 5 = 0 ∧ fld w 0 4 = 0)
  let withA (k : Fin 8 → VOp → Instr) : Option Instr :=
    guardSome alone ((decVOp (fld w 13 5)).map (k t))
  match fld w 4 4 with
  | 0 =>
    guardSome (decide (fld w 0 3 = 0)) do
      let b ← decVOp (fld w 8 5)
      let lead := decide (fld w 3 1 = 1)
      if fld w 18 1 = 1 then guardSome (decide (fld w 13 5 = 0)) (some (.mmaUnfold t f b lead))
      else guardSome (decide (fld w 19 2 = 0)) ((decVOp (fld w 13 5)).map (fun a => .mmaShape t a b lead))
  | 1 => guardSome (alone && decide (fld w 13 5 = 0)) (some (.mzero t))
  | 2 => withA .mload
  | 3 => withA .mstore
  | 4 => withA .msave
  | 5 => withA .mrest
  | _ => none

def decUnf (w : Nat) : Option Instr :=
  guardSome (decide (fld w 21 3 = 0 ∧ fld w 18 1 = 1 ∧ fld w 13 5 = 0 ∧ fld w 0 8 = 0))
    ((decFin 16 (fld w 8 5)).map (.unf ⟨fld w 19 2, Nat.mod_lt _ (by decide)⟩))

/-- A C-class short word by its major (R203). -/
def decCShort (w : Nat) : Option Instr :=
  match fld w 24 6 with
  | 0x00 => decVFloat w
  | 0x01 => guardSome (decide (fld w 5 4 = 0)) (vDab w .vfma)
  | 0x02 => do
      let c ← decVCond (fld w 5 4)
      vDabN w (.vcmp c)
  | 0x03 => vDa w (.vred (decRedOp (fld w 5 2)) ⟨fld w 7 2, Nat.mod_lt _ (by decide)⟩)
  | 0x04 => decVInt w
  | 0x05 => decVSpecial w
  | 0x06 => decVHelp w
  | 0x07 => vDa w (.vwmax ⟨fld w 5 4, Nat.mod_lt _ (by decide)⟩)
  | 0x08 => decMatrix w
  | 0x09 => decUnf w
  | _ => none

/-- A long form of class A (R201, R204). -/
def decALong (w c : Nat) : Option Instr :=
  match fld w 24 5 with
  | 0x00 => (decReg (fld w 18 6)).map (fun d => .movl d (BitVec.ofNat 48 (fld w 0 18 * 2 ^ 30 + fld c 0 30)))
  | 0x01 => some (.tbr (BitVec.ofNat 32 (fld w 22 2 * 2 ^ 30 + fld c 0 30)) (BitVec.ofNat 22 (fld w 0 22)))
  | 0x02 => some (.brf (decide (fld w 23 1 = 1)) (BitVec.ofNat 53 (fld w 0 23 * 2 ^ 30 + fld c 0 30)))
  | _ => none

/-- Why a word at an instruction boundary decodes to nothing: an illegal encoding, or a continuation word (R193). -/
inductive DecodeError where
  | ill | mid
  deriving DecidableEq, Repr

/-- The kind of a word (R192). -/
def kindOf (w : Nat) : Nat := fld w 30 2

/-- Whether a word is the first of a long instruction. -/
def isLong (w : Word32) : Bool := decide (kindOf w.toNat = 2)

/-- Keep an instruction only where its operands are ones an encoding may hold. -/
def legal (o : Option Instr) (len : Nat) : Except DecodeError (Instr × Nat) :=
  match o with
  | some i => if i.wf then .ok (i, len) else .error .ill
  | none => .error .ill

/-- DECODE the instruction that starts with the first of some words: the instruction and its length in bytes (R191-R204).
A first word followed by no continuation word is illegal. -/
def decode : List Word32 → Except DecodeError (Instr × Nat)
  | [] => .error .ill
  | w :: rest =>
    match kindOf w.toNat with
    | 0 => legal (decAShort w.toNat) 4
    | 1 => legal (decCShort w.toNat) 4
    | 2 =>
      match rest with
      | c :: _ =>
        if kindOf c.toNat = 3 ∧ fld w.toNat 29 1 = 0 then legal (decALong w.toNat c.toNat) 8 else .error .ill
      | [] => .error .ill
    | _ => .error .mid

/-! ### The Esnen set (R388): opcode 31:27, d 26:23, a 22:19, b 18:15, imm 14:0 -/

/-- A four-bit Esnen register field. -/
def eReg (w lo : Nat) : Fin 16 := ⟨fld w lo 4, Nat.mod_lt _ (by decide)⟩

/-- DECODE a word of the Esnen set; none is an unassigned opcode or a set zero field. -/
def decodeEsnen (word : Word32) : Option Instr :=
  let w := word.toNat
  let d := eReg w 23
  let a := eReg w 19
  let b := eReg w 15
  let imm := BitVec.ofNat 15 (fld w 0 15)
  let dab (i : Instr) : Option Instr := guardSome (decide (fld w 0 15 = 0)) (some i)
  let dai (i : Instr) : Option Instr := guardSome (decide (fld w 15 4 = 0)) (some i)
  let abi (i : Instr) : Option Instr := guardSome (decide (fld w 23 4 = 0)) (some i)
  let di (i : Instr) : Option Instr := guardSome (decide (fld w 15 8 = 0)) (some i)
  let one (i : Instr) : Option Instr := guardSome (decide (fld w 23 4 = 0 ∧ fld w 0 19 = 0)) (some i)
  match fld w 27 5 with
  | 0 => di (.esnenLi d imm)
  | 1 => guardSome (decide (fld w 17 6 = 0)) (some (.esnenLih d (BitVec.ofNat 17 (fld w 0 17))))
  | 2 => dab (.esnenAdd d a b)
  | 3 => dai (.esnenAddi d a imm)
  | 4 => dab (.esnenSub d a b)
  | 5 => dab (.esnenAnd d a b)
  | 6 => dab (.esnenOr d a b)
  | 7 => dab (.esnenXor d a b)
  | 8 => guardSome (decide (fld w 5 14 = 0)) (some (.esnenShli d a (BitVec.ofNat 5 (fld w 0 5))))
  | 9 => guardSome (decide (fld w 5 14 = 0)) (some (.esnenShri d a (BitVec.ofNat 5 (fld w 0 5))))
  | 10 => dai (.esnenLdb d a imm)
  | 11 => dai (.esnenLdh d a imm)
  | 12 => dai (.esnenLdw d a imm)
  | 13 => abi (.esnenStb a b imm)
  | 14 => abi (.esnenStw a b imm)
  | 15 => abi (.esnenBeq a b imm)
  | 16 => abi (.esnenBne a b imm)
  | 17 => abi (.esnenBlt a b imm)
  | 18 => di (.esnenJal d imm)
  | 19 => one (.esnenJr a)
  | 20 => one (.esnenEmit a)
  | 21 => one (.esnenMark a)
  | 22 => guardSome (decide (fld w 0 19 = 0)) (some (.esnenTlook d a))
  | 23 => one (.esnenDone a)
  | 24 => guardSome (decide (fld w 15 12 = 0)) (some (.esnenFail imm))
  | _ => none

/-- The words of an opcode-table word: the bits numbered from the first word up, laid out as bytes and read back. -/
def tableWords (nbits w : Nat) : List Word32 :=
  Machine.wordsOf (Machine.natLe (w % 2 ^ nbits) 8)

/-- What the native decoder reads from an opcode-table word; where no native instruction has the word, what the decoder
of the Esnen set reads (the two sets are decoded by different machines, R192 and R388). -/
def decodeTableWord (nbits w : Nat) : Option Instr :=
  match decode (tableWords nbits w) with
  | .ok (i, _) => some i
  | .error _ => ((tableWords nbits w).head?).bind decodeEsnen

/-! ### Encoders -/

/-- An A-class or C-class short word (R192, R195): the byte of kind and major, then 24 bits of fields. -/
def wordOf (top body : Nat) : List Word32 := [BitVec.ofNat 32 (top * 2 ^ 24 + body)]

/-- R format (R195). -/
def encR (top d a b fn ma mb : Nat) : List Word32 :=
  wordOf top (d * 2 ^ 18 + a * 2 ^ 12 + b * 2 ^ 6 + fn * 4 + ma * 2 + mb)

def encDab (top fn : Nat) (d a b : Reg) (m : Marks) : List Word32 :=
  encR top (encReg d) (encReg a) (encReg b) fn (encMark m.a) (encMark m.b)

def encDa (top fn : Nat) (d a : Reg) (ma : Bool) : List Word32 :=
  encR top (encReg d) (encReg a) 0 fn (encMark ma) 0

def encAb (top fn d : Nat) (a b : Reg) (m : Marks) : List Word32 :=
  encR top d (encReg a) (encReg b) fn (encMark m.a) (encMark m.b)

def encA (top fn d : Nat) (a : Reg) (ma : Bool) : List Word32 := encR top d (encReg a) 0 fn (encMark ma) 0

/-- I format (R195). -/
def encI (top : Nat) (d a : Reg) (imm : Nat) : List Word32 := wordOf top (encReg d * 2 ^ 18 + encReg a * 2 ^ 12 + imm)

/-- M format (R195). -/
def encM (top d : Nat) (b : Reg) (sz : Nat) (disp : BitVec 10) : List Word32 :=
  wordOf top (d * 2 ^ 18 + encReg b * 2 ^ 12 + sz * 2 ^ 10 + disp.toNat)

/-- V format (R195). -/
def encV (top d a b fn : Nat) (w : Nat) (rm : Nat) : List Word32 :=
  wordOf top (d * 2 ^ 19 + a * 2 ^ 14 + b * 2 ^ 9 + fn * 2 ^ 5 + w * 4 + rm)

def encV3 (top fn : Nat) (d a b : VOp) (w : Fin 8) (rm : Rm) : List Word32 :=
  encV top (encVOp d) (encVOp a) (encVOp b) fn w.val (encRm rm)

def encV2 (top fn : Nat) (d a : VOp) (w : Fin 8) (rm : Rm) : List Word32 :=
  encV top (encVOp d) (encVOp a) 0 fn w.val (encRm rm)

/-- X format (R195, R200). -/
def encX (top t f u a b fn flags : Nat) : List Word32 :=
  wordOf top (t * 2 ^ 21 + f * 2 ^ 19 + u * 2 ^ 18 + a * 2 ^ 13 + b * 2 ^ 8 + fn * 16 + flags)

/-- A long instruction (R192, R201): its first word and its continuation. -/
def encLong (major body cont : Nat) : List Word32 :=
  [BitVec.ofNat 32 (2 * 2 ^ 30 + major * 2 ^ 24 + body), BitVec.ofNat 32 (3 * 2 ^ 30 + cont)]

/-- An Esnen word (R388). -/
def encE (op d a b imm : Nat) : List Word32 :=
  [BitVec.ofNat 32 (op * 2 ^ 27 + d * 2 ^ 23 + a * 2 ^ 19 + b * 2 ^ 15 + imm)]

/-- ENCODE an instruction as its words; a row without an encoding has none. -/
def encode : Instr → List Word32
  | .add d a b m => encDab 0x00 0 d a b m
  | .sub d a b m => encDab 0x00 1 d a b m
  | .mul d a b m => encDab 0x00 2 d a b m
  | .mulh d a b m => encDab 0x00 3 d a b m
  | .mulhn d a b m => encDab 0x00 4 d a b m
  | .div d a b m => encDab 0x00 5 d a b m
  | .divn d a b m => encDab 0x00 6 d a b m
  | .rem d a b m => encDab 0x00 7 d a b m
  | .remn d a b m => encDab 0x00 8 d a b m
  | .and d a b m => encDab 0x00 9 d a b m
  | .or d a b m => encDab 0x00 10 d a b m
  | .xor d a b m => encDab 0x00 11 d a b m
  | .shl d a b m => encDab 0x00 12 d a b m
  | .shr d a b m => encDab 0x00 13 d a b m
  | .sar d a b m => encDab 0x00 14 d a b m
  | .andn d a b m => encDab 0x00 15 d a b m
  | .min d a b m => encDab 0x01 0 d a b m
  | .max d a b m => encDab 0x01 1 d a b m
  | .minn d a b m => encDab 0x01 2 d a b m
  | .maxn d a b m => encDab 0x01 3 d a b m
  | .clz d a ma => encDa 0x01 4 d a ma
  | .popc d a ma => encDa 0x01 5 d a ma
  | .mov d a ma => encDa 0x01 6 d a ma
  | .leaX2 d a b m => encDab 0x01 7 d a b m
  | .leaX4 d a b m => encDab 0x01 8 d a b m
  | .leaX8 d a b m => encDab 0x01 9 d a b m
  | .void n => encR 0x01 n.val 0 0 10 0 0
  | .addi d a imm => encI 0x02 d a imm.toNat
  | .andi d a imm => encI 0x03 d a imm.toNat
  | .ori d a imm => encI 0x04 d a imm.toNat
  | .xori d a imm => encI 0x05 d a imm.toNat
  | .shli d a n => encI 0x06 d a n.toNat
  | .shri d a n => encI 0x07 d a n.toNat
  | .sari d a n => encI 0x08 d a n.toNat
  | .movi d imm => wordOf 0x09 (encReg d * 2 ^ 18 + imm.toNat)
  | .bext d a pos len => encI 0x0A d a (pos.toNat * 2 ^ 6 + len.toNat)
  | .bins d a pos len => encI 0x0B d a (pos.toNat * 2 ^ 6 + len.toNat)
  | .muli d a imm => encI 0x0C d a imm.toNat
  | .csk n c a b => wordOf 0x10 (n.val * 2 ^ 22 + encCond c * 2 ^ 18 + encReg a * 2 ^ 12 + encReg b * 2 ^ 6)
  | .cski n c a imm => wordOf 0x11 (n.val * 2 ^ 22 + encCond c * 2 ^ 18 + encReg a * 2 ^ 12 + imm.toNat)
  | .br off => wordOf 0x14 off.toNat
  | .brl off => wordOf 0x15 off.toNat
  | .jmp a ma => encA 0x16 0 0 a ma
  | .jmpl a ma => encA 0x16 1 0 a ma
  | .ret => encR 0x16 0 0 0 2 0 0
  | .ld d b sz disp => encM 0x18 (encReg d) b (encSize sz) disp
  | .lds d b sz disp => encM 0x19 (encReg d) b (encSize sz) disp
  | .st d b sz disp => encM 0x1A (encReg d) b (encSize sz) disp
  | .lda d b sz disp => encM 0x1B (encReg d) b (encSize sz) disp
  | .stl d b sz disp => encM 0x1C (encReg d) b (encSize sz) disp
  | .ldx d a b sz m => encDab 0x1D (encSize sz) d a b m
  | .ldxS d a b sz m => encDab 0x1D (4 + encSize sz) d a b m
  | .stx d a b sz m => encDab 0x1E (encSize sz) d a b m
  | .mpeek d b disp => encM 0x20 (encReg d) b 0 disp
  | .mtake d b disp => encM 0x20 (encReg d) b 1 disp
  | .mput d b disp => encM 0x20 (encReg d) b 2 disp
  | .mfill d b disp => encM 0x20 (encReg d) b 3 disp
  | .mdrain b disp => encM 0x21 0 b 0 disp
  | .mstate d b disp => encM 0x21 (encReg d) b 1 disp
  | .lrw d b disp => encM 0x22 (encReg d) b 3 disp
  | .sch d a b m => encDab 0x23 0 d a b m
  | .amoAdd d a b m => encDab 0x24 0 d a b m
  | .amoMin d a b m => encDab 0x24 1 d a b m
  | .amoMax d a b m => encDab 0x24 2 d a b m
  | .amoMinn d a b m => encDab 0x24 3 d a b m
  | .amoMaxn d a b m => encDab 0x24 4 d a b m
  | .amoAnd d a b m => encDab 0x24 5 d a b m
  | .amoOr d a b m => encDab 0x24 6 d a b m
  | .amoXor d a b m => encDab 0x24 7 d a b m
  | .amoSwap d a b m => encDab 0x24 8 d a b m
  | .amoFadd d a b m => encDab 0x24 9 d a b m
  | .cas d a b m => encDab 0x25 0 d a b m
  | .rupd op a b m => encAb 0x26 (encAmoOp op) 48 a b m
  | .fenceAcq sc => encR 0x27 (encScope sc) 0 0 0 0 0
  | .fenceRel sc => encR 0x27 (encScope sc) 0 0 1 0 0
  | .fenceFull sc => encR 0x27 (encScope sc) 0 0 2 0 0
  | .push g q => wordOf 0x28 (g.val * 2 ^ 18 + q.val * 2 ^ 15)
  | .pop g q => wordOf 0x29 (g.val * 2 ^ 18 + q.val * 2 ^ 15)
  | .cpy d a b m => encDab 0x2A 0 d a b m
  | .cpyHdl d a b m => encDab 0x2A 1 d a b m
  | .cpyTag d a b m => encDab 0x2A 2 d a b m
  | .waitt a ma => encA 0x2B 0 0 a ma
  | .psub d a b m => encDab 0x2C 0 d a b m
  | .pret d a b m => encDab 0x2C 1 d a b m
  | .pcan d a ma => encDa 0x2C 2 d a ma
  | .hset h a ma => encA 0x2D 0 h.val a ma
  | .hadv h a ma => encA 0x2D 1 h.val a ma
  | .hcom h a ma => encA 0x2D 2 h.val a ma
  | .hwait h a ma => encA 0x2D 3 h.val a ma
  | .hroom h a ma => encA 0x2D 4 h.val a ma
  | .hget d h k => encR 0x2D (encReg d) h.val k.val 5 0 0
  | .sld s a b m => encAb 0x2E 0 s.val a b m
  | .sst s a b m => encAb 0x2E 1 s.val a b m
  | .sbase s a ma => encA 0x2E 2 s.val a ma
  | .soff s a ma => encA 0x2E 3 s.val a ma
  | .spawn d a b m => encDab 0x30 0 d a b m
  | .spawnq d a b m => encDab 0x30 1 d a b m
  | .quit => encR 0x31 0 0 0 0 0 0
  | .yield => encR 0x31 0 0 0 1 0 0
  | .park d a ma => encDa 0x31 2 d a ma
  | .wake d a ma => encDa 0x31 3 d a ma
  | .cancel d a ma => encDa 0x31 4 d a ma
  | .poke a b m => encAb 0x31 5 0 a b m
  | .claim a ma => encA 0x32 0 0 a ma
  | .acq a ma => encA 0x32 1 0 a ma
  | .acqt d a ma => encDa 0x32 2 d a ma
  | .rel a ma => encA 0x32 3 0 a ma
  | .weir a b m => encAb 0x33 0 0 a b m
  | .wbyte a b m => encAb 0x33 2 0 a b m
  | .wwait a ma => encA 0x33 3 0 a ma
  | .nest a ma => encA 0x34 0 0 a ma
  | .next off => wordOf 0x35 off.toNat
  | .trnew a b m => encAb 0x36 0 0 a b m
  | .trdsc a b m => encAb 0x36 1 0 a b m
  | .trxpd d a s ma => encR 0x36 (encReg d) (encReg a) s.val 2 (encMark ma) 0
  | .trbck d a b m => encDab 0x36 3 d a b m
  | .trpik a b m => encAb 0x36 4 0 a b m
  | .trrrt a b m => encAb 0x36 5 0 a b m
  | .trfre a ma => encA 0x36 6 0 a ma
  | .trnewF a b m => encAb 0x36 8 0 a b m
  | .trdscF a b m => encAb 0x36 9 0 a b m
  | .trxpdF d a s ma => encR 0x36 (encReg d) (encReg a) s.val 10 (encMark ma) 0
  | .trbckF d a b m => encDab 0x36 11 d a b m
  | .trpikF a b m => encAb 0x36 12 0 a b m
  | .trrrtF a b m => encAb 0x36 13 0 a b m
  | .trfreF a ma => encA 0x36 14 0 a ma
  | .csrr d c => encR 0x38 (encReg d) c.val 0 0 0 0
  | .csrw c a ma => encA 0x38 1 c.val a ma
  | .trap n => wordOf 0x38 (n.toNat * 2 ^ 6 + 2 * 4)
  | .eret d a ma => encDa 0x38 3 d a ma
  | .emwin d a b m => encDab 0x38 4 d a b m
  | .launch d a ma => encDa 0x38 5 d a ma
  | .pwrd d a ma => encDa 0x38 6 d a ma
  | .brk => encR 0x38 0 0 0 7 0 0
  | .errinj d a b m => encDab 0x38 8 d a b m
  | .segrep d a b m => encDab 0x38 9 d a b m
  | .fadd d a b m => encDab 0x39 0 d a b m
  | .fsub d a b m => encDab 0x39 1 d a b m
  | .fmul d a b m => encDab 0x39 2 d a b m
  | .fmin d a b m => encDab 0x39 3 d a b m
  | .fmax d a b m => encDab 0x39 4 d a b m
  | .fcvti d a ma => encDa 0x39 5 d a ma
  | .fcvtf d a ma => encDa 0x39 6 d a ma
  | .fabs d a ma => encDa 0x39 7 d a ma
  | .fneg d a ma => encDa 0x39 8 d a ma
  | .ffma rm d a b m => encDab 0x3A (encRm rm) d a b m
  | .movl d imm => encLong 0x00 (encReg d * 2 ^ 18 + imm.toNat / 2 ^ 30) (imm.toNat % 2 ^ 30)
  | .tbr live off => encLong 0x01 (live.toNat / 2 ^ 30 * 2 ^ 22 + off.toNat) (live.toNat % 2 ^ 30)
  | .brf link off => encLong 0x02 (encMark link * 2 ^ 23 + off.toNat / 2 ^ 30) (off.toNat % 2 ^ 30)
  | .vadd d a b w rm => encV3 0x40 0 d a b w rm
  | .vsub d a b w rm => encV3 0x40 1 d a b w rm
  | .vmul d a b w rm => encV3 0x40 2 d a b w rm
  | .vmin d a b w rm => encV3 0x40 3 d a b w rm
  | .vmax d a b w rm => encV3 0x40 4 d a b w rm
  | .vabs d a w rm => encV2 0x40 5 d a w rm
  | .vneg d a w rm => encV2 0x40 6 d a w rm
  | .vmov d a w rm => encV2 0x40 7 d a w rm
  | .vsel d a b w rm => encV3 0x40 8 d a b w rm
  | .vfma d a b w rm => encV3 0x41 0 d a b w rm
  | .vcmp c d a b w => encV3 0x42 (encVCond c) d a b w .rn
  | .vred op dim d a w rm => encV2 0x43 (dim.val * 4 + encRedOp op) d a w rm
  | .viadd d a b w => encV3 0x44 0 d a b w .rn
  | .visub d a b w => encV3 0x44 1 d a b w .rn
  | .vimul d a b w => encV3 0x44 2 d a b w .rn
  | .vand d a b w => encV3 0x44 3 d a b w .rn
  | .vor d a b w => encV3 0x44 4 d a b w .rn
  | .vxor d a b w => encV3 0x44 5 d a b w .rn
  | .vshl d a b w => encV3 0x44 6 d a b w .rn
  | .vshr d a b w => encV3 0x44 7 d a b w .rn
  | .vsar d a b w => encV3 0x44 8 d a b w .rn
  | .vexp2 d a w => encV2 0x45 0 d a w .rn
  | .vlog2 d a w => encV2 0x45 1 d a w .rn
  | .vrcp d a w => encV2 0x45 2 d a w .rn
  | .vrsq d a w => encV2 0x45 3 d a w .rn
  | .vtanh d a w => encV2 0x45 4 d a w .rn
  | .verf d a w => encV2 0x45 5 d a w .rn
  | .vsin d a w => encV2 0x45 6 d a w .rn
  | .vcos d a w => encV2 0x45 7 d a w .rn
  | .vmatch d a w => encV2 0x46 0 d a w .rn
  | .vscan d a w rm => encV2 0x46 1 d a w rm
  | .vgath d a b w rm => encV3 0x46 2 d a b w rm
  | .vscat d a b w rm => encV3 0x46 3 d a b w rm
  | .vbmax d a w rm => encV2 0x46 4 d a w rm
  | .vqnt d a n => encV2 0x46 5 d a n .rn
  | .vwmax k d a w rm => encV2 0x47 k.val d a w rm
  | .mmaUnfold t f b lead => encX 0x48 t.val f.val 1 0 (encVOp b) 0 (encMark lead * 8)
  | .mmaShape t a b lead => encX 0x48 t.val 0 0 (encVOp a) (encVOp b) 0 (encMark lead * 8)
  | .mzero t => encX 0x48 t.val 0 0 0 0 1 0
  | .mload t a => encX 0x48 t.val 0 0 (encVOp a) 0 2 0
  | .mstore t a => encX 0x48 t.val 0 0 (encVOp a) 0 3 0
  | .msave t a => encX 0x48 t.val 0 0 (encVOp a) 0 4 0
  | .mrest t a => encX 0x48 t.val 0 0 (encVOp a) 0 5 0
  | .unf f s => encX 0x49 0 f.val 1 0 s.val 0 0
  | .esnenLi d imm => encE 0 d.val 0 0 imm.toNat
  | .esnenLih d imm => encE 1 d.val 0 0 imm.toNat
  | .esnenAdd d a b => encE 2 d.val a.val b.val 0
  | .esnenAddi d a imm => encE 3 d.val a.val 0 imm.toNat
  | .esnenSub d a b => encE 4 d.val a.val b.val 0
  | .esnenAnd d a b => encE 5 d.val a.val b.val 0
  | .esnenOr d a b => encE 6 d.val a.val b.val 0
  | .esnenXor d a b => encE 7 d.val a.val b.val 0
  | .esnenShli d a n => encE 8 d.val a.val 0 n.toNat
  | .esnenShri d a n => encE 9 d.val a.val 0 n.toNat
  | .esnenLdb d a imm => encE 10 d.val a.val 0 imm.toNat
  | .esnenLdh d a imm => encE 11 d.val a.val 0 imm.toNat
  | .esnenLdw d a imm => encE 12 d.val a.val 0 imm.toNat
  | .esnenStb a b imm => encE 13 0 a.val b.val imm.toNat
  | .esnenStw a b imm => encE 14 0 a.val b.val imm.toNat
  | .esnenBeq a b imm => encE 15 0 a.val b.val imm.toNat
  | .esnenBne a b imm => encE 16 0 a.val b.val imm.toNat
  | .esnenBlt a b imm => encE 17 0 a.val b.val imm.toNat
  | .esnenJal d imm => encE 18 d.val 0 0 imm.toNat
  | .esnenJr a => encE 19 0 a.val 0 0
  | .esnenEmit a => encE 20 0 a.val 0 0
  | .esnenMark a => encE 21 0 a.val 0 0
  | .esnenTlook d a => encE 22 d.val a.val 0 0
  | .esnenDone a => encE 23 0 a.val 0 0
  | .esnenFail imm => encE 24 0 0 0 imm.toNat
  | .meterExhausted => []
  | .moduleReset => []
  | .stackReady => []
  | .patrolPass => []
  | .hostLinkReset => []
  | .clusterGate => []
  | .clusterWake => []
  | .linkFrame => []
  | .channelRekey => []
  | .linkRetrain => []
  | .invalidation => []
  | .groupModeWrite => []
  | .l2ControlWrite => []
  | .ownerClaim => []
  | .measurementExtend => []
  | .stateRegisterWrite => []
  | .functionLevelReset => []
  | .vfEnableClear => []
  | .deviceRegisterWrite => []
  | .hostPostedWrite => []
  | .hostRead => []
  | .hostLaunch => []
  | .create => []
  | .destroy => []
  | .layout => []
  | .rotate => []
  | .bind => []
  | .monitor => []
  | .attach => []
  | .handover => []
  | .getVersion => []
  | .getCapabilities => []
  | .negotiateAlgorithms => []
  | .getDigests => []
  | .getCertificate => []
  | .challenge => []
  | .getMeasurements => []
  | .launchAdmission => []
  | .bootTreeForward => []
  | .initialThreadStart => []
  | .regionCompletion => []
  | .handlerSpawn => []
  | .tlbWalk => []
  | .storePerformed => []
  | .spillwayOverflow => []
  | .spillwayInvalidation => []
  | .visit => []
  | .remoteUpdate => []
  | .remoteFill => []
  | .heldRequestService => []
  | .mputClaimGrant => []
  | .lrwHead => []
  | .leaseEnd => []
  | .parkDeadline => []
  | .promiseTime => []
  | .watchdogExpiry => []
  | .yieldExpiry => []
  | .copyAccept => []
  | .copyChunk => []
  | .q1CompletionEntry => []
  | .loaderSubscription => []
  | .storerSubscription => []
  | .cancelRecord => []
  | .loaderTile => []
  | .storerTile => []
  | .treeCmdNew => []
  | .treeCmdDescent => []
  | .treeCmdExpand => []
  | .treeCmdBackup => []
  | .treeCmdPick => []
  | .treeCmdReroot => []
  | .treeCmdFree => []
  | .backgroundFreeing => []
  | .reductionMessage => []
  | .q6Entry => []
  | .containmentNotice => []
  | .frameRemap => []
  | .taskInsert => []
  | .dispatch => []
  | .arrival => []
  | .arrivalPlacement => []
  | .occupancySample => []
  | .slotHandover => []
  | .gangStart => []
  | .gangRetire => []
  | .debuggerResume => []
  | .clockThrottle => []
  | .externalPortAccess => []
  | .vfEnableSet => []

/-- Whether an instruction belongs to the Esnen set, which a decoder of its own reads (R387, R388). -/
def Instr.isEsnen : Instr → Bool
  | .esnenLi .. => true
  | .esnenLih .. => true
  | .esnenAdd .. => true
  | .esnenAddi .. => true
  | .esnenSub .. => true
  | .esnenAnd .. => true
  | .esnenOr .. => true
  | .esnenXor .. => true
  | .esnenShli .. => true
  | .esnenShri .. => true
  | .esnenLdb .. => true
  | .esnenLdh .. => true
  | .esnenLdw .. => true
  | .esnenStb .. => true
  | .esnenStw .. => true
  | .esnenBeq .. => true
  | .esnenBne .. => true
  | .esnenBlt .. => true
  | .esnenJal .. => true
  | .esnenJr .. => true
  | .esnenEmit .. => true
  | .esnenMark .. => true
  | .esnenTlook .. => true
  | .esnenDone .. => true
  | .esnenFail .. => true
  | _ => false

end Sys2Proof
end

