-- ==== Sys2Proof/Machine/Ops.lean ====
section
/-!
DEFINITION. The named operations over slots, registers and the agenda, taking an exception (R413-R418) and returning from
one (R424), stopping a thread, and the shape every instruction of a thread has.
-/

namespace Sys2Proof.Machine

/-! ### Places and numbers -/

/-- The die, cluster and core number of a core (R12, R16, R17). -/
def dieOf (c : CoreIx) : Nat := c / 8192
def clusterOf (c : CoreIx) : Nat := c / 128
def inCluster (c : CoreIx) : Nat := c % 128
def coreIx (die cluster core : Nat) : CoreIx := (die * 64 + cluster) * 128 + core

/-- The row of a core, counted over the module, and its column (R17). -/
def rowOf (c : CoreIx) : Nat := c / 16
def colOf (c : CoreIx) : Nat := c % 16

/-- The home core of a pseudo-channel (R16). -/
def homeCore (die channel : Nat) : CoreIx := coreIx die channel 127

/-- A source number (R27): class, core and unit. -/
def sourceNo (cls : Nat) (c : CoreIx) (unit : Nat) : Nat :=
  cls * 2 ^ 21 + dieOf c * 2 ^ 17 + (clusterOf c % 64) * 2 ^ 11 + inCluster c * 16 + unit

/-- The source number of a slot (R28, class 3). -/
def slotSource (r : SlotRef) : Nat := sourceNo 3 r.core r.slot

/-- The source number of the host link (R28). -/
def hostLinkSource : Nat := sourceNo 4 0 0

/-- The source number of the security controller (R28). -/
def securitySource : Nat := sourceNo 4 0 11

/-- The source number of the containment logic of a die (R28). -/
def containmentSource (die : Nat) : Nat := sourceNo 4 (coreIx die 0 0) 12

/-- The source number of the headgate (R28). -/
def headSource : Nat := sourceNo 0 0 0

/-- The source number of the atomic unit of a home core (R28). -/
def atomicSource (home : CoreIx) : Nat := sourceNo 1 home 1

/-- The source number of a core's reduction server, and of its spillway (R28). -/
def serverSource (c : CoreIx) : Nat := sourceNo 2 c 0
def spillwaySource (c : CoreIx) : Nat := sourceNo 2 c 1

/-- The source number that an owner's claim bears (R461). -/
def masterSource : Master → Nat
  | .hostDriver => hostLinkSource
  | .management => sourceNo 4 0 9
  | .debugger => sourceNo 4 0 10

/-- The source number of the module's power manager (R28). -/
def powerSource : Nat := sourceNo 5 0 1

/-- The order of stamps (R29). -/
def Stamp.before (x y : Stamp) : Bool := decide (x.tc < y.tc) || (decide (x.tc = y.tc) && decide (x.src < y.src))

/-- A stamp as its 16 bytes in a record (R32). -/
def Stamp.bytes (x : Stamp) : List Byte := natLe x.tc 8 ++ natLe x.src 3 ++ List.replicate 5 0

/-- The thread id of a slot with a generation count (R178). -/
def threadId (r : SlotRef) (gen : BitVec 16) : Nat := slotSource r * 65536 + gen.toNat

/-- The slot that a thread id names (R178): its core and slot number. -/
def idSlot (id : Nat) : SlotRef :=
  let src := id / 65536
  { core := coreIx (src / 2 ^ 17 % 16) (src / 2 ^ 11 % 64) (src / 16 % 128), slot := src % 16 }

/-! ### Cores, slots and threads -/

def State.core (s : State) (c : CoreIx) : Core := tget Core.reset s.cores c

def State.setCore (s : State) (c : CoreIx) (k : Core) : State := { s with cores := tput s.cores c k }

def State.modCore (s : State) (c : CoreIx) (f : Core → Core) : State := s.setCore c (f (s.core c))

/-- A slot of a core; slot numbers are taken modulo 16. -/
def Core.slot (k : Core) (n : Nat) : Slot := k.slots[n % 16]'(Nat.mod_lt _ (by decide))

def Core.setSlot (k : Core) (n : Nat) (v : Slot) : Core :=
  { k with slots := k.slots.set (n % 16) v (Nat.mod_lt _ (by decide)) }

/-- Whether two names of slots name one slot: slot numbers count modulo 16. -/
abbrev sameSlot (q r : SlotRef) : Prop := q.core = r.core ∧ q.slot % 16 = r.slot % 16

def State.thread? (s : State) (r : SlotRef) : Option Thread := ((s.core r.core).slot r.slot).thread

/-- The state with the thread of a slot replaced. -/
def State.setThread (s : State) (r : SlotRef) (t : Thread) : State :=
  s.modCore r.core (fun k => k.setSlot r.slot { k.slot r.slot with thread := some t })

def State.modThread (s : State) (r : SlotRef) (f : Thread → Thread) : State :=
  match s.thread? r with
  | some t => s.setThread r (f t)
  | none => s

/-- The state with a slot empty: only its generation count stays (R177). -/
def State.clearSlot (s : State) (r : SlotRef) : State :=
  s.modCore r.core (fun k => k.setSlot r.slot { k.slot r.slot with thread := none })

/-- The live thread with an id, if its slot still holds it (R178). -/
def State.threadById (s : State) (id : Nat) : Option (SlotRef × Thread) :=
  let r := idSlot id
  match s.thread? r with
  | some t => if t.id = id then some (r, t) else none
  | none => none

/-- Every slot of the module that holds a thread, in core and slot order. -/
def State.threads (s : State) : List (SlotRef × Thread) :=
  s.cores.flatMap (fun p => (List.range 16).filterMap (fun n =>
    (p.2.slot n).thread.map (fun t => ({ core := p.1, slot := n }, t))))

/-- Work appended to the agenda (`State.agenda`). -/
def State.later (s : State) (i : Instr) (a : Args) : State := { s with agenda := s.agenda ++ [{ what := i, arg := a }] }

/-- Work appended to the agenda unless it stands there already. -/
def State.laterOnce (s : State) (i : Instr) (a : Args) : State :=
  if s.agenda.contains { what := i, arg := a } then s else s.later i a

/-- Something sent to the outside. -/
def State.emit (s : State) (e : OutEvent) : State := { s with out := s.out ++ [e] }

/-- The stamp that an agent's next event bears (R29): the present cycle, or the next in which it has stamped none (R30). -/
def State.stampOf (s : State) (src : Nat) : Stamp := { tc := max s.tc (tget 0 s.stamped src), src := src }

/-- The state once an event bears a stamp: its agent stamps no other in that cycle (R30). -/
def State.spend (s : State) (st : Stamp) : State := { s with stamped := tput s.stamped st.src (st.tc + 1) }

/-- An agent stamps an event (R29, R30). -/
def State.mint (s : State) (src : Nat) : Stamp × State := (s.stampOf src, s.spend (s.stampOf src))

/-- The stamp of an event of the current slot (R29). -/
def State.stamp (s : State) : Stamp := s.stampOf (slotSource s.cur)

/-- A line for the module power manager's log (R59, R448), stamped by it. -/
def State.powerLog (s : State) (what arg : Nat) : State := ((s.mint powerSource).2).emit (.powerLog what arg (s.mint powerSource).1)

/-- A fresh undefined value (R8, log entry 1) and the state that has used it. -/
def State.fresh (s : State) : Word × State := (Config.freeValue s.seq, { s with seq := s.seq + 1 })

/-- `n` bytes that are undefined (R8), eight from each fresh value; `f` bounds the number of values. -/
def State.freshBytes (s : State) (n : Nat) : Nat → List Byte × State
  | 0 => ([], s)
  | f + 1 =>
    if n = 0 then ([], s)
    else
      let v := s.fresh
      let rest := v.2.freshBytes (n - 8) f
      (natLe v.1.toNat (min n 8) ++ rest.1, rest.2)

/-! ### Polders (R18, R131, R136, R442) -/

/-- The polder that owns a slot number. -/
def State.polderOf (s : State) (n : Nat) : Nat := s.layout[n % 16]'(Nat.mod_lt _ (by decide))

/-- The slot numbers a polder owns, in ascending order. -/
def State.polderSlots (s : State) (p : Nat) : List Nat := (List.range 16).filter (fun n => s.polderOf n = p)

/-- The first offset of a polder's banks, and the first beyond them (R131, R136). -/
def State.polderLo (s : State) (p : Nat) : Nat := 2048 * (s.polderSlots p).headD 0
def State.polderHi (s : State) (p : Nat) : Nat := 2048 * ((s.polderSlots p).getLastD 0 + if (s.polderSlots p).isEmpty then 0 else 1)

/-! ### Regions -/

def State.region? (s : State) (id : Nat) : Option Region := s.regions.find? (fun r => r.id = id)

def State.modRegion (s : State) (id : Nat) (f : Region → Region) : State :=
  { s with regions := s.regions.map (fun r => if r.id = id then f r else r) }

/-- Whether region `a` is `d` or one of its ancestors; the walk is bounded by the number of live regions. -/
def ancestorOrSelf (regions : List Region) (a d : Nat) : Nat → Bool
  | 0 => a = d
  | n + 1 => a = d || (match regions.find? (fun r => r.id = d) with
    | some r => (match r.parent with | some p => ancestorOrSelf regions a p n | none => false)
    | none => false)

/-- Whether region `d` is region `a` or a descendant of it. -/
def State.isWithin (s : State) (d a : Nat) : Bool := ancestorOrSelf s.regions a d s.regions.length

/-- Whether the block of a live region names the thread as its supervisor (R331). -/
def State.isSup (s : State) (t : Thread) : Bool := s.regions.any (fun r => r.supervisor = t.id)

/-- status (R190), computed from what determines it. -/
def State.status (s : State) (t : Thread) : Word :=
  let reg := s.region? t.region
  let trav := match reg with | some r => r.travelling | none => false
  let dbg := match reg with | some r => r.hazard | none => false
  BitVec.ofNat 64 (t.blocks.toNat * 512 + t.cq.length * 16 + (if t.emwBy.isSome then 8 else 0)
    + (if s.isSup t then 4 else 0) + (if trav then 2 else 0) + (if dbg then 1 else 0))

/-- Whether a thread may use the forms reserved to supervisors and world 0 (R189, R352, R422). -/
def State.privileged (s : State) (t : Thread) : Bool := s.isSup t || t.world = 0

/-! ### Stops -/

/-- Why an instruction of a thread does not complete: it parks, or it raises a cause with a faulting address (R9). -/
inductive Stop where
  | park (p : Park)
  | trap (c : Cause) (addr : Word)
  deriving DecidableEq, Repr

/-- Raise a cause unless a condition holds. -/
def need (b : Bool) (c : Cause) (addr : Word) : Except Stop Unit := if b then .ok () else .error (.trap c addr)

/-! ### Registers (R180-R184, R214) -/

/-- Whether the block that holds a g register is held (R184). -/
def Thread.holds (t : Thread) (n : Nat) : Bool :=
  if n < 16 then true else t.blocks.getLsbD ((n - 16) / 8)

/-- The number of a port's inbound FIFO. -/
def portIx : Port → Fin 4
  | .pn => 0
  | .pe => 1
  | .ps => 2
  | .pw => 3

/-- The port opposite to a port: what core i writes to pe, its neighbour reads as pw (R181). -/
def portOpp : Port → Port
  | .pn => .ps
  | .ps => .pn
  | .pe => .pw
  | .pw => .pe

/-- The neighbour of a core through a port, none at the cluster's edge (R17). -/
def neighbour (c : CoreIx) (p : Port) : Option CoreIx :=
  let i := inCluster c
  match p with
  | .pn => if i < 16 then none else some (c - 16)
  | .ps => if 112 ≤ i then none else some (c + 16)
  | .pe => if colOf c = 15 then none else some (c + 1)
  | .pw => if colOf c = 0 then none else some (c - 1)

/-- The words that wait in an inbound port FIFO of a core. -/
def State.portIn (s : State) (c : CoreIx) (p : Port) : List Word := (s.core c).portsIn[portIx p]

/-- The FIFO that a write to a port appends to: the neighbour's inbound FIFO. -/
def State.portOut (s : State) (c : CoreIx) (p : Port) : List Word :=
  match neighbour c p with
  | some n => s.portIn n (portOpp p)
  | none => []

/-- The stamps of what waits for an inbound port of a core, or for an outbound one: parked slots and beats (R181). -/
def State.portWaits (s : State) (c : CoreIx) (p : Port) (out : Bool) : List Stamp :=
  (List.range 16).flatMap (fun n => match s.thread? { core := c, slot := n } with
    | none => []
    | some t =>
      (match t.parked with
        | some (.portIn q st) => if q = p && !out then [st] else []
        | some (.portOut q st) => if q = p && out then [st] else []
        | _ => []) ++
      (match t.cq.head?.bind (fun e => e.ports) with
        | some w => if w.2.contains (p, out) then [w.1] else []
        | none => []))

/-- Whether a port serves a contender with a stamp before every other that waits for it (R181). -/
def State.portTurn (s : State) (c : CoreIx) (p : Port) (out : Bool) (st : Stamp) : Bool :=
  !(s.portWaits c p out).any (fun x => x.before st)

/-- The stamp under which a thread contends for a port: that of the attempt since which it waits, else the present one (R181). -/
def State.portStamp (s : State) (t : Thread) : Stamp :=
  match t.parked with
  | some (.portIn _ st) => st
  | some (.portOut _ st) => st
  | _ => s.stamp

/-- A thread that takes its turn: its park is over; one for a port stands until it has contended for it (R181). -/
def Thread.roused (t : Thread) : Thread :=
  match t.parked with
  | some (.portIn _ _) => t
  | some (.portOut _ _) => t
  | _ => { t with parked := none }

/-- Read one register operand (R214): the value, or REGN for an unheld block or an edge port (R181, R184), or a park.
`used` lists the operands read before it: a port named again takes the next word (log entry 10). -/
def readReg (s : State) (t : Thread) (used : List Reg) (r : Reg) : Except Stop Word :=
  match r with
  | .g n =>
    if !t.holds n then .error (.trap .regn 0)
    else if !(t.g[n]).full then .error (.park (.reg n))
    else .ok (t.g[n]).val
  | .port p =>
    if (neighbour s.cur.core p).isNone then .error (.trap .regn 0)
    else match (s.portIn s.cur.core p)[used.count r]? with
      | some w => if s.portTurn s.cur.core p false (s.portStamp t) then .ok w else .error (.park (.portIn p (s.portStamp t)))
      | none => .error (.park (.portIn p (s.portStamp t)))
  | .x n => .ok t.x[n]
  | .z => .ok 0
  | .tc => .ok (BitVec.ofNat 64 s.tc)
  | .id => .ok (BitVec.ofNat 64 (slotSource s.cur))
  | .lk => .ok t.lk

/-- The checks on a destination before an instruction retires (R180, R182, R184, R214). -/
def checkDest (s : State) (t : Thread) (r : Reg) : Except Stop Unit :=
  match r with
  | .g n =>
    if !t.holds n then .error (.trap .regn 0)
    else if (t.g[n]).pending then .error (.park (.pending n))
    else .ok ()
  | .port p =>
    match neighbour s.cur.core p with
    | none => .error (.trap .regn 0)
    | some _ =>
      if (s.portOut s.cur.core p).length < 4 ∧ s.portTurn s.cur.core p true (s.portStamp t) = true then .ok ()
      else .error (.park (.portOut p (s.portStamp t)))
  | _ => .ok ()

/-- Take the words of the read ports out of their FIFOs (R214). -/
def State.takePorts (s : State) (c : CoreIx) : List Reg → State
  | [] => s
  | .port p :: r => (s.modCore c (fun k => { k with portsIn := k.portsIn.set (portIx p) (k.portsIn[portIx p]).tail })).takePorts c r
  | _ :: r => s.takePorts c r

/-- Append a word to the FIFO a port leads to (R181). -/
def State.givePort (s : State) (c : CoreIx) (p : Port) (v : Word) : State :=
  match neighbour c p with
  | none => s
  | some n => s.modCore n (fun k =>
      { k with portsIn := k.portsIn.set (portIx (portOpp p)) (k.portsIn[portIx (portOpp p)] ++ [v]) })

/-- The thread with a g register written and full (R182). -/
def Thread.setG (t : Thread) (n : Fin 40) (v : Word) : Thread :=
  { t with g := t.g.set n { val := v, full := true, pending := false } }

/-- The thread with a g register emptied, its value kept (R182, R183). -/
def Thread.emptyG (t : Thread) (n : Fin 40) : Thread := { t with g := t.g.set n { t.g[n] with full := false } }

/-- The thread with a g register empty and awaiting a remote fill (R182). -/
def Thread.pendG (t : Thread) (n : Fin 40) : Thread :=
  { t with g := t.g.set n { t.g[n] with full := false, pending := true } }

/-- Apply a last-read mark (R183). -/
def Thread.mark (t : Thread) (on : Bool) (r : Reg) : Thread :=
  match r with
  | .g n => if on then t.emptyG n else t
  | _ => t

/-- The thread with a register other than a port written (R180). -/
def Thread.write (t : Thread) (r : Reg) (v : Word) : Thread :=
  match r with
  | .g n => t.setG n v
  | .x n => { t with x := t.x.set n v }
  | .lk => { t with lk := v }
  | _ => t

/-- The thread with a register set pending; a destination other than a g register is written when the result comes. -/
def Thread.pend (t : Thread) (r : Reg) : Thread :=
  match r with
  | .g n => t.pendG n
  | _ => t

/-- Write a result to the current thread's register or port (R180, R181). -/
def State.writeReg (s : State) (r : Reg) (v : Word) : State :=
  match r with
  | .port p => s.givePort s.cur.core p v
  | _ => s.modThread s.cur (fun t => t.write r v)

/-- The thread once an address-pipe instruction of it has issued: each unretired compute instruction has one more beyond it (R187). -/
def Thread.issued (t : Thread) : Thread := { t with cq := t.cq.map (fun e => { e with since := e.since + 1 }) }

/-- Advance past an instruction of `n` bytes. -/
def Thread.advance (t : Thread) (n : Nat) : Thread :=
  { t.issued with pc := t.pc + BitVec.ofNat 64 n, parked := none, unissued := false }

/-- Retire an address-pipe instruction (R214): the port words it read are taken, marks are applied before the
destination is written (R183), the destination is written, the program counter moves on. -/
def retire (s : State) (t : Thread) (reads : List Reg) (marked : List (Bool × Reg)) (dest : Option (Reg × Word))
    (len : Nat) : State :=
  let t1 := marked.foldl (fun t p => t.mark p.1 p.2) t
  let s1 : State := (s.setThread s.cur (t1.advance len)).takePorts s.cur.core reads
  match dest with
  | none => s1
  | some (r, v) => s1.writeReg r v

/-- The marks of a two-operand form. -/
def markAB (m : Marks) (a b : Reg) : List (Bool × Reg) := [(m.a, a), (m.b, b)]

/-! ### What a stopping thread gives up (R286, R64, R274) -/

/-- Work that is taken before anything else happens, unless it stands there already. -/
def State.atOnce (s : State) (i : Instr) : State :=
  if s.urgent.contains { what := i, arg := {} } then s else { s with urgent := s.urgent ++ [{ what := i, arg := {} }] }

/-- When a word's state or claims change, its home serves the held requests before it decides another (R126, R285). -/
def State.serveHeld (s : State) : State := if s.held.isEmpty then s else s.atOnce .heldRequestService

/-- The first key of the tables of LRW requests that wait for a place at a home slice (R287): the slice's number follows. -/
def lrwWaiting : Nat := 2 ^ 42

/-- A line's queue whose head has just become the head: its lease runs from this cycle (R127). -/
def startLease (tc : Nat) : List LrwPlace → List LrwPlace
  | [] => []
  | q :: rest => { q with head := some (q.head.getD tc) } :: rest

/-- Give up the places of reservation queues that a condition names (R127, R286): a reservation passes on, and requests that
wait for a place may enter. -/
def State.dropPlaces (s : State) (drop : LrwPlace → Bool) : State :=
  let step (s : State) (p : Nat × List LrwPlace) : State :=
    if p.2.any drop then
      let q' := p.2.filter (fun q => !drop q)
      let passed := (p.2.head?.map drop).getD false && decide (p.1 < lrwWaiting)
      let q'' := if passed then startLease s.tc q' else q'
      let s' : State := { s with lrws := if q''.isEmpty then tdel s.lrws p.1 else tput s.lrws p.1 q'' }
      if passed && !q''.isEmpty then s'.laterOnce .lrwHead { n := p.1 } else s'
    else s
  if s.lrws.any (fun p => p.2.any drop) then
    let s1 : State := s.lrws.foldl step s
    s1.lrws.foldl (fun s p => if lrwWaiting ≤ p.1 then s.laterOnce .lrwHead { n := p.1 } else s) s1
  else s

/-- Give up every place a thread holds in reservation queues, its reservation included (R127). -/
def State.dropLrw (s : State) (tid : Nat) : State := s.dropPlaces (fun q => q.tid = tid)

/-- Withdraw the requests that a thread holds at a home: MPEEK, MTAKE, MPUT claims not yet retired, and a place in a
reservation queue that has not been served (R286). -/
def State.withdraw (s : State) (r : SlotRef) : State :=
  let s1 : State := { s with
      held := s.held.filter (fun h => h.slot ≠ r),
      claims := s.claims.filter (fun c => decide (c.slot ≠ r) || c.used),
      walks := s.walks.filter (fun w => w.slot ≠ r) }
  (s1.dropPlaces (fun q => decide (q.slot = r) && !q.loaded)).serveHeld

/-- The sixteen slots of a gang: slot number `n` of each core of a row (R264). -/
def gangSlots (row n : Nat) : List SlotRef := (List.range 16).map (fun c => { core := row * 16 + c, slot := n })

/-- Put a tile of a thread back from the shadow tile of its core (R274). -/
def State.restoreShadow (s : State) (r : SlotRef) : State :=
  match (s.core r.core).shadow with
  | none => s
  | some (n, tile) =>
    (s.modThread r (fun t => { t with tiles := t.tiles.set n tile })).modCore r.core (fun k => { k with shadow := none })

/-- Take a slot out of the gang weir of its row; a running gang of the slot aborts in all sixteen cores (R271, R274). -/
def State.leaveGang (s : State) (r : SlotRef) : State :=
  let row := rowOf r.core
  let g := tget GangRow.reset s.gangs row
  if g.arrived.contains (r.slot, colOf r.core) then
    let g' := { g with
      arrived := g.arrived.filter (fun a => a ≠ (r.slot, colOf r.core)),
      formed := g.formed.filter (fun n => n ≠ r.slot),
      running := if g.running = some r.slot then none else g.running,
      reads := if g.running = some r.slot then [] else g.reads }
    let s1 : State := { s with gangs := tput s.gangs row g' }
    let s2 : State := if g.running = some r.slot then (gangSlots row r.slot).foldl State.restoreShadow s1 else s1
    let s3 : State := s2.modThread r (fun t => { t with cq := t.cq.map (fun e => { e with arrived := false }) })
    if g.running = some r.slot && !g'.formed.isEmpty then s3.laterOnce .gangStart { n := row } else s3
  else s

/-- Withdraw a thread's arrivals at wired weirs when it ends, in its slot or saved (R352, R261). -/
def State.leaveWeirs (s : State) (tid : Nat) : State :=
  { s with weirs := s.weirs.map (fun p => (p.1, { p.2 with
      arrived := p.2.arrived.filter (fun q => q.2 ≠ tid),
      contrib := p.2.contrib.filter (fun q => q.2.1 ≠ tid),
      results := p.2.results.filter (fun q => q.2.1 ≠ tid) })) }

/-- A thread asks its die's walker for a page, and parks (R49). -/
def State.askWalk (s : State) (r : SlotRef) (p : Pipe) (world va : Nat) (st : Stamp) : State :=
  let q : WalkReq := { die := dieOf r.core, world := world, page := va / 65536, slot := r, pipe := p, stamp := st }
  let s1 : State := s.modThread r (fun t => { t with parked := some (.walk world va) })
  { s1 with walks := s1.walks ++ [q] }.laterOnce .tlbWalk { n := dieOf r.core }

/-- The entry of a fault record's parked threads with the earliest stamp (R51). -/
def firstParked (l : List (SlotRef × Stamp × Pipe)) : Option (SlotRef × Stamp × Pipe) :=
  l.foldl (fun b p => match b with
    | none => some p
    | some q => if p.2.1.before q.2.1 then some p else some q) none

/-- Change the fault record of a page of a world. -/
def State.modRecord (s : State) (world page : Nat) (f : FaultRecord → FaultRecord) : State :=
  { s with records := s.records.map (fun g => if g.world = world ∧ g.page = page then f g else g) }

/-- Drop the fault record of a page of a world. -/
def State.dropRecord (s : State) (world page : Nat) : State :=
  { s with records := s.records.filter (fun g => decide ¬(g.world = world ∧ g.page = page)) }

/-- A slot whose thread ends or is saved leaves the records on which it is parked. -/
def State.unparkRecords (s : State) (r : SlotRef) : State :=
  { s with records := s.records.map (fun f => { f with parked := f.parked.filter (fun p => p.1 ≠ r) }) }

/-- When the faulting thread of a record ends, the parked thread with the earliest stamp becomes the faulting thread and
re-executes its access, which walks (R51). -/
def State.leaveRecords (s : State) (tid : Nat) : State :=
  (s.records.filter (fun f => f.tid = tid)).foldl (fun (s : State) (f : FaultRecord) =>
    match firstParked f.parked with
    | none => s.dropRecord f.world f.page
    | some (q, st, p) =>
      match s.thread? q with
      | none => s.dropRecord f.world f.page
      | some t =>
        let s1 : State := s.modRecord f.world f.page (fun g => { g with thread := q, tid := t.id, stamp := st, parked := g.parked.filter (fun p => p.1 ≠ q) })
        match t.parked with
        | some (.record w va) => s1.askWalk q p w va st
        | _ => s1) s

/-! ### Regions: live threads and completion (R336) -/

/-- The live threads of a region: those in slots, halted ones included, and those in flight or not yet placed (R336). -/
def State.liveThreads (s : State) (id : Nat) : Nat :=
  (s.threads.filter (fun p => p.2.region = id)).length + ((s.region? id).map (fun r => r.flight + r.starting.length)).getD 0
    + (s.saves.filter (fun p => p.2.away && ((p.2.thread.map (fun t => decide (t.region = id))).getD false))).length

/-- The tasks of a region that wait in dispatchers (R343). -/
def State.queuedTasks (s : State) (id : Nat) : Nat :=
  (s.dispatchers.flatMap (fun p => (p.2.banks.flatMap (fun b => b.2)) ++ p.2.spilled ++ p.2.arriving)).countP
    (fun t => t.region = id)

/-- Whether work that threads of a region started outside the slots still runs: copies, subscriptions, tree commands,
remote updates (R336). -/
def State.outstanding (s : State) (id : Nat) : Bool :=
  s.subs.any (fun u => u.region = id) || s.rupds.any (fun u => u.region = id)
    || s.cores.any (fun p => p.2.tokens.any (fun k => match k.2.job with
        | some j => decide (j.region = id) && j.ended.isNone
        | none => false))

/-- The conditions under which a region completes (R336). -/
def State.regionIdle (s : State) (id : Nat) : Bool :=
  decide (s.liveThreads id = 0) && decide (s.queuedTasks id = 0) && !s.regions.any (fun r => r.parent = some id)
    && !s.outstanding id

/-- Have the headgate complete a region once its conditions hold. -/
def State.checkRegion (s : State) (id : Nat) : State :=
  if (s.region? id).isSome && s.regionIdle id then s.laterOnce .regionCompletion { n := id } else s

/-- Whether a thread's state lies in a save area (R430). -/
def State.isSaved (s : State) (tid : Nat) : Bool :=
  s.saves.any (fun p => p.2.away && (match p.2.thread with | some t => decide (t.id = tid) | none => false))

/-- What can move when a slot of a core becomes free: a waiting arrival, a waiting task, a waiting handler (R348, R377, R417). -/
def State.slotFreed (s : State) (c : CoreIx) : State :=
  let s1 : State := if (s.core c).arrivals.isEmpty then s else s.laterOnce .arrivalPlacement { core := c }
  let s2 : State := if ((tget Dispatcher.reset s1.dispatchers (clusterOf c)).banks.any (fun b => !b.2.isEmpty))
    then s1.laterOnce .dispatch { n := clusterOf c } else s1
  s2.regions.foldl (fun s r => if r.msgs.isEmpty then s else s.laterOnce .handlerSpawn { n := r.id }) s2

/-- Have the banker look again at the parked requests of a core (R359); the banker's own file grants them. -/
def State.bankerTurn (s : State) (c : CoreIx) : State :=
  (List.range 16).foldl (fun s n => s.modThread { core := c, slot := n } (fun t =>
    if t.acq.isSome ∧ t.parked = some .held then { t with parked := none } else t)) s

/-- Scrub pages of a core's local memory to zero (R357, R360). -/
def State.scrubPages (s : State) (c : CoreIx) (lo n : Nat) : State :=
  s.modCore c (fun k => { k with mem := cellsScrub k.mem lo (lo + 256 * n),
                                 poison := k.poison.filter (fun o => decide ¬(lo ≤ o ∧ o < lo + 256 * n)) })

/-- What ends with a thread wherever it is, in its slot or saved: its reservations (R127), weir arrivals (R352), the fault records
that it raised (R51), subscriptions (R64), claims, and its id in the blocks that name it as supervisor (R331). -/
def State.forgetThread (s : State) (tid : Nat) : State :=
  let s1 : State := ((s.dropLrw tid).leaveWeirs tid).leaveRecords tid
  let s2 : State := { s1 with
    subs := s1.subs.map (fun u => if u.tid = tid then { u with cancel := true } else u),
    regions := s1.regions.map (fun g => if g.supervisor = tid then { g with supervisor := 0 } else g) }
  s1.regions.foldl (fun s g => if g.supervisor = tid then s.laterOnce .handlerSpawn { n := g.id } else s) s2

/-- End a thread (R64, R286, R344, R360, R414): its requests, arrivals, windows and holdings are given up, its page run scrubbed, its slot
is empty, and whatever waited for the slot or the holdings may move. Entries in the store buffer are still performed, though
its compute queue is gone (R129); copies already accepted and remote updates run to their end (R64). -/
def endThread (s : State) (r : SlotRef) : State :=
  match s.thread? r with
  | none => s
  | some t =>
    let s1 : State := (((s.withdraw r).leaveGang r).unparkRecords r).forgetThread t.id
    let s2 : State := s1.scrubPages r.core t.pageBase t.pages
    let s3 : State := s2.threads.foldl (fun s p => if p.2.emwBy = some r then s.modThread p.1 (fun u => { u with emwBy := none }) else s) s2
    let waiting := (s3.core r.core).q6wait.filter (fun g => g.slot = r.slot)
    let s4 : State := s3.modCore r.core (fun k => { k with
      q6wait := k.q6wait.filter (fun g => g.slot ≠ r.slot), fills := k.fills.filter (fun f => f.tid ≠ t.id),
      buf := k.buf.map (fun e => if e.slot = r.slot ∧ e.tid = t.id then { e with older := 0 } else e) })
    let s5 : State := waiting.foldl (fun s g =>
      if bitsOf (g.words.headD 0) 39 32 = 0xFC then
        (s.modRegion g.region (fun q => { q with msgs := q.msgs ++ [(g.stamp, g.words, g.notice)] })).laterOnce .handlerSpawn { n := g.region }
      else s) s4
    let s6 : State := (s5.clearSlot r).bankerTurn r.core
    let s7 : State := { s6 with scrubs := tmod Scrub.zero s6.scrubs t.world (fun c =>
        { c with regs := c.regs + 1, tiles := c.tiles + t.tiles.length, polders := setAdd c.polders t.polder,
                 banks := c.banks.filter (fun b => b / 16 ≠ r.core) }) }
    (s7.slotFreed r.core).checkRegion t.region

/-- Terminate a region and its descendants: every thread, in a slot or saved, every queued task and record in flight ends with KILL
(R383, R417). -/
def terminateRegion (s : State) (id : Nat) : State :=
  let inside (g : Nat) : Bool := s.isWithin g id
  let s1 : State := { s with
    regions := s.regions.map (fun r => if inside r.id then
      { r with terminated := true, flight := 0, starting := [], forward := [], msgs := [] } else r),
    dispatchers := s.dispatchers.map (fun p => (p.1, { p.2 with
      banks := p.2.banks.map (fun b => (b.1, b.2.filter (fun t => !inside t.region))),
      spilled := p.2.spilled.filter (fun t => !inside t.region),
      arriving := p.2.arriving.filter (fun t => !inside t.region) })),
    saves := s.saves.filter (fun p => match p.2.thread with | some t => !inside t.region | none => true),
    flights := s.flights.filter (fun p => !inside p.2.region),
    cores := s.cores.map (fun p => (p.1, { p.2 with arrivals := p.2.arrivals.filter (fun f => !inside f.region) })) }
  let saved := s.saves.filterMap (fun p => p.2.thread.bind (fun t => if p.2.away && inside t.region then some t.id else none))
  let s1 : State := saved.foldl State.forgetThread s1
  let s2 : State := s1.threads.foldl (fun s p => if inside p.2.region then endThread s p.1 else s) s1
  s2.regions.foldl (fun s r => if inside r.id then s.checkRegion r.id else s) s2

/-! ### Taking an exception (R413-R418) -/

/-- The cause codes of R413. -/
def Cause.code : Cause → Nat
  | .ill => 0x01
  | .mid => 0x02
  | .priv => 0x03
  | .regn => 0x04
  | .xlat => 0x10
  | .prot => 0x11
  | .win => 0x12
  | .align => 0x13
  | .dike => 0x14
  | .lost => 0x15
  | .ue => 0x16
  | .promise => 0x20
  | .scaleseq => 0x22
  | .pool => 0x23
  | .spill => 0x24
  | .banker => 0x30
  | .wdog => 0x31
  | .hazard => 0x32
  | .trap => 0x50
  | .kill => 0x60

/-- The image that a thread executes on a core (R226, R369). -/
def Core.imageOf (k : Core) (region role : Nat) : Option Image :=
  k.images.find? (fun m => decide (m.region = region ∧ m.role = role))

/-- The bytes that the instruction store of a core holds, and those that the boot tree has still to bring to it, less the images that a test
leaves out (R19, R128, R334). -/
def State.storeUsed (s : State) (c : CoreIx) (but : Image → Bool) : Nat :=
  let held := ((s.core c).images.filter (fun m => !but m)).map (fun m => 4 * m.words.length)
  let coming := s.regions.flatMap (fun g => (g.forward.filter (fun f => g.cores[f.1]? = some c)).map (fun f => 4 * f.2.1.words.length))
  held.sum + coming.sum

/-- The bytes of an instruction store (R19). -/
def storeBytes : Nat := 16384

/-- The private-form offset reported for a native offset (R410): that of the pair with the largest native offset not
above it, or all ones. -/
def privOffset (marks : List (Nat × Nat)) (o : Nat) : Nat :=
  (marks.foldl (fun (b : Option (Nat × Nat)) p =>
    if p.1 ≤ o then (match b with | some q => if q.1 ≤ p.1 then some p else some q | none => some p) else b) none).elim
    0xFFFFFFFF (fun p => p.2)

/-- The private-form offset of a thread's word: from its role's map, on whatever core it runs (R410). -/
def State.privOf (s : State) (r : SlotRef) (t : Thread) (pc : Word) : Nat :=
  match (s.region? t.region).bind (fun g => g.roles.find? (fun k => k.role = t.role)) with
  | some k => privOffset k.marks pc.toNat
  | none =>
    match (s.core r.core).imageOf t.region t.role with
    | some m => privOffset m.marks pc.toNat
    | none => 0xFFFFFFFF

/-- The eight words of a fault message (R415). `kind` is 0 precise, 1 imprecise, 2 notice. -/
def faultWords (cause trapNo skip kind world region : Nat) (st : Stamp) (tid : Nat) (pc addr : Word) (priv : Nat)
    (whereW : Word) (beats : Nat) : List Word :=
  [BitVec.ofNat 64 (cause * 2 ^ 56 + trapNo * 2 ^ 44 + skip * 2 ^ 42 + kind * 2 ^ 40 + 0xFC * 2 ^ 32 + world * 2 ^ 24 + region),
   BitVec.ofNat 64 st.tc, BitVec.ofNat 64 (tid * 2 ^ 24 + st.src), pc, addr, BitVec.ofNat 64 priv, whereW, BitVec.ofNat 64 beats]

/-- Place words in the queue of groups that wait for room in a q6 (R416); they enter in stamp order. -/
def State.postQ6 (s : State) (r : SlotRef) (st : Stamp) (words : List Word) (region : Nat) (notice : Bool) : State :=
  (s.modCore r.core (fun k => { k with q6wait := k.q6wait ++
    [{ slot := r.slot, stamp := st, words := words, region := region, notice := notice }] })).laterOnce .q6Entry { core := r.core, slot := r.slot }

/-- Deliver a message under a region's fault policy (R417). `culprit` is the id of the faulting thread: the fault of a thread
that supervises any live region is escalated once. The walk up the tree of regions is bounded by their number. -/
def deliver (s : State) (region : Nat) (culprit : Nat) (st : Stamp) (words : List Word) (notice : Bool) : Nat → State
  | 0 => s
  | n + 1 =>
    match s.region? region with
    | none => s
    | some r =>
      let escalate := decide (r.policy = 3) || (decide (culprit ≠ 0) && s.regions.any (fun g => g.supervisor = culprit))
      if escalate then
        match r.parent with
        | some p => deliver s p 0 st words notice n
        | none => terminateRegion s r.id
      else if r.policy = 2 then terminateRegion s r.id
      else match s.threadById r.supervisor with
        | some (sup, _) => s.postQ6 sup st words r.id notice
        | none => (s.modRegion r.id (fun q => { q with msgs := q.msgs ++ [(st, words, notice)] })).laterOnce .handlerSpawn { n := r.id }

def State.deliverMsg (s : State) (region culprit : Nat) (st : Stamp) (words : List Word) (notice : Bool) : State :=
  deliver s region culprit st words notice (s.regions.length + 1)

/-- The live region to which a notice about a region goes: itself, or its nearest live ancestor (R435); the walk is bounded
by the number of regions ever admitted. -/
def State.liveAncestor (s : State) (id : Nat) : Nat → Option Nat
  | 0 => none
  | n + 1 => if (s.region? id).isSome then some id else if id = 0 then none else s.liveAncestor (tget 0 s.ancestry id) n

/-- The root region of a world, if one lives. -/
def State.rootRegion (s : State) (world : Nat) : Option Nat :=
  (s.regions.find? (fun r => r.world = world ∧ r.parent = none)).map (fun r => r.id)

/-- Send a notice of kind 10 about a lost line or an unperformed visit (R290, R434, R435), with the stamp of the containment logic
of a die. -/
def State.sendNotice (s : State) (c : Cause) (world : Nat) (region : Option Nat) (st : Stamp) (addr whereW : Word) : State :=
  let id := region.getD 0xFFFFFF
  let target := if id = 0xFFFFFF then s.rootRegion world else
    match s.liveAncestor id (s.ancestry.length + 1) with
    | some g => some g
    | none => s.rootRegion world
  let words := faultWords c.code 0 0 2 world (id % 2 ^ 24) st 0 (BitVec.allOnes 64) addr 0xFFFFFFFF whereW 0
  match target with
  | some g => s.deliverMsg g 0 st words true
  | none => s

/-- Halt a thread and send its fault message (R414, R415, R417). `resume` and `skipAfter` are where and with what skip
count it goes on after a successful ERET (R413); `pcMsg` is the faulting word's offset. -/
def haltThread (s : State) (r : SlotRef) (h : Halt) (trapNo : Nat) (pcMsg addr resume : Word) (skipAfter : Nat)
    (whereW : Word) (beats : Nat) : State :=
  match s.thread? r with
  | none => s
  | some t =>
    let priv := s.privOf r t pcMsg
    let st := s.stampOf (slotSource r)
    let t' := { t with
      pc := resume, skip := skipAfter, halted := some h, parked := none, acq := none,
      fcause := BitVec.ofNat 64 h.cause.code, faddr := addr, fpriv := BitVec.ofNat 64 priv }
    let words := faultWords h.cause.code trapNo t.skip (if h.imprecise then 1 else 0) t.world t.region st t.id pcMsg addr
      priv whereW beats
    let s1 : State := ((s.spend st).withdraw r).setThread r t'
    if h.debugger then s1.emit (.debugMessage words)
    else s1.deliverMsg t.region t.id st words false

/-- Whether a cause goes to the thread's own handler (R413, R418). -/
def Cause.toThread : Cause → Bool
  | .promise => true
  | .pool => true
  | _ => false

/-- TAKE AN EXCEPTION: the current thread raises a precise cause at its current instruction of `len` bytes. While an older
compute instruction of the slot is unretired, the instruction waits without effect (R188). PROMISE and POOL go to fvec
when it is not 0 (R418): fcause, faddr, fpriv and lk are written and the thread continues at fvec. Every other cause
halts the thread with a message under the region's policy (R414-R417). For a word that a skip annuls, the thread resumes
after it with the skip count less one (R224); TRAP and BRK resume after themselves (R413). -/
def takeFault (s : State) (c : Cause) (addr : Word) (trapNo : Nat) (len : Nat) : State :=
  match s.thread? s.cur with
  | none => s
  | some t =>
    if !t.cq.isEmpty then s.setThread s.cur { t with parked := some .computeQueue }
    else if c.toThread && t.fvec != 0 then
      s.setThread s.cur { t with
        parked := none, treeWait := none, fcause := BitVec.ofNat 64 c.code, faddr := addr,
        fpriv := BitVec.ofNat 64 (s.privOf s.cur t t.pc), pc := t.fvec,
        lk := if c = .promise then t.pc else t.pc + BitVec.ofNat 64 len }
    else
      let annulled := decide (t.skip > 0) && (decide (c = .ill) || decide (c = .mid))
      let after := annulled || decide (c = .trap) || decide (c = .pool)
      haltThread s s.cur { cause := c, imprecise := false, debugger := false, page := none } trapNo t.pc addr
        (if after then t.pc + BitVec.ofNat 64 len else t.pc) (if annulled then t.skip - 1 else t.skip) 0 0

/-- An imprecise fault of the compute instruction at the head of a slot's queue (R188): younger compute entries are
discarded, younger stores still held for the compute pipe are discarded, the thread halts and cannot resume. -/
def takeImprecise (s : State) (r : SlotRef) (c : Cause) (addr : Word) (e : QEntry) : State :=
  match s.thread? r with
  | none => s
  | some t =>
    let s1 : State := (s.leaveGang r).modCore r.core (fun k => { k with
      buf := k.buf.filter (fun b => decide ¬(b.slot = r.slot ∧ b.tid = t.id ∧ b.older > 0)) })
    let s2 : State := s1.modThread r (fun u => { u with cq := [] })
    haltThread s2 r { cause := c, imprecise := true, debugger := false, page := none } 0 e.pc addr t.pc t.skip t.pc e.beats

/-! ### Returning from an exception (R424) -/

/-- RETURN FROM AN EXCEPTION: a halted thread continues at its pc with its skip state; any window on it closes, its
watchdog is reloaded with the region's limit (R426). The access of a fault record's faulting thread walks again (R51). -/
def resumeThread (s : State) (r : SlotRef) : State :=
  let s1 : State := s.modThread r (fun t => { t with
    halted := none, parked := none, emwBy := none,
    wdog := match s.region? t.region with | some g => g.wdog | none => t.wdog })
  match s.thread? r with
  | some t =>
    match t.halted.bind (fun h => h.page) with
    | some va =>
      let st := s.stampOf (slotSource r)
      (s1.spend st).askWalk r (if t.cq.isEmpty then .address else .compute) t.world va st
    | none => s1
  | none => s1

/-! ### The shape of every instruction of a thread -/

/-- Park the current slot (R9). A slot that misses the TLBs asks its die's walker for the page (R49). -/
def State.parkOn (s : State) (r : SlotRef) (t : Thread) (p : Park) : State :=
  let s1 : State := s.setThread r { t with parked := some p }
  match p with
  | .walk w va =>
    let st := s.stampOf (slotSource r)
    (s1.spend st).askWalk r s.pipe w va st
  | _ => s1

/-- Run an address-pipe instruction of the current slot: it completes with a state, parks (R9), or takes its exception. -/
def issueLen (s : State) (len : Nat) (f : Thread → Except Stop State) : Host.Outcome State Fault Refusal :=
  match s.thread? s.cur with
  | none => .fault .emptySlot
  | some t =>
    match f t with
    | .ok s' => .next s'
    | .error (.park p) => .next (s.parkOn s.cur t p)
    | .error (.trap c addr) => .next (takeFault s c addr 0 len)

def issue (s : State) (f : Thread → Except Stop State) : Host.Outcome State Fault Refusal := issueLen s 4 f

/-- Read a, then b (R214). -/
def read2 (s : State) (t : Thread) (a b : Reg) : Except Stop (Word × Word) := do
  let x ← readReg s t [] a
  let y ← readReg s t [a] b
  return (x, y)

/-- Read a, then b, then d (R214). -/
def read3 (s : State) (t : Thread) (a b d : Reg) : Except Stop (Word × Word × Word) := do
  let x ← readReg s t [] a
  let y ← readReg s t [a] b
  let z ← readReg s t [a, b] d
  return (x, y, z)

/-- A form that reads a and b and writes d (R214, R217). -/
def binary (f : Word → Word → Word) (d a b : Reg) (m : Marks) (s : State) : Host.Outcome State Fault Refusal :=
  issue s fun t => do
    let (x, y) ← read2 s t a b
    checkDest s t d
    return retire s t [a, b] (markAB m a b) (some (d, f x y)) 4

/-- A form that reads a and writes d. -/
def unary (f : Word → Word) (d a : Reg) (ma : Bool) (s : State) : Host.Outcome State Fault Refusal :=
  issue s fun t => do
    let x ← readReg s t [] a
    checkDest s t d
    return retire s t [a] [(ma, a)] (some (d, f x)) 4

end Sys2Proof.Machine
end

