-- ==== Sys2Proof/Machine/Flags.lean ====
section
/-!
DEFINITION. The sticky flags (R172-R174) and how an instruction ORs its own into them.
-/

namespace Sys2Proof.Machine

/-- The flags of one operation, laid out as fflags bits 4:0 (R172). -/
abbrev FFlags := BitVec 5

def flagNV (b : Bool) : FFlags := if b then 0b10000 else 0
def flagDZ : FFlags := 0b01000
def flagOF : FFlags := 0b00101
def flagUF : FFlags := 0b00011
def flagNX (b : Bool) : FFlags := if b then 0b00001 else 0

/-- OR flags into a thread's fflags (R173). -/
def Thread.orFlags (t : Thread) (f : FFlags) : Thread := { t with fflags := t.fflags ||| f }

end Sys2Proof.Machine
end

