-- ==== Sys2Proof/Machine/Float.lean ====
section
/-!
DEFINITION. Number formats and exact arithmetic (R150-R176): values decoded exactly, operations on exact values, one
rounding at the end.
-/

namespace Sys2Proof.Machine

/-- An exact value: a NaN (signalling or not), an infinity, or (-1)^neg * m * 2^e. -/
inductive FV where
  | nan (sig : Bool)
  | inf (neg : Bool)
  | fin (neg : Bool) (m : Nat) (e : Int)
  deriving DecidableEq, Repr

def FV.isNan : FV → Bool
  | .nan _ => true
  | _ => false

def FV.isSnan : FV → Bool
  | .nan s => s
  | _ => false

def FV.isInf : FV → Bool
  | .inf _ => true
  | _ => false

def FV.neg : FV → FV
  | .nan s => .nan s
  | .inf n => .inf (!n)
  | .fin n m e => .fin (!n) m e

def FV.abs : FV → FV
  | .nan s => .nan s
  | .inf _ => .inf false
  | .fin _ m e => .fin false m e

def FV.isNeg : FV → Bool
  | .nan _ => false
  | .inf n => n
  | .fin n _ _ => n

def FV.isZero : FV → Bool
  | .fin _ m _ => m = 0
  | _ => false

def FV.zero : FV := .fin false 0 0

def FV.ofInt (i : Int) : FV := .fin (decide (i < 0)) i.natAbs 0

/-- A binary format with 8 exponent bits, bias 127 and `p` significand bits, the hidden one included: F32 has 24, W16
has 8 (R150). -/
def decodeFmt (p : Nat) (bits : Nat) : FV :=
  let fr := bits % 2 ^ (p - 1)
  let ex := bits / 2 ^ (p - 1) % 256
  let ng := decide (bits / 2 ^ (p + 7) % 2 = 1)
  if ex = 255 then (if fr = 0 then .inf ng else .nan (decide (fr < 2 ^ (p - 2))))
  else if ex = 0 then .fin ng fr (-125 - p)
  else .fin ng (fr + 2 ^ (p - 1)) (ex - 126 - p)

def decodeF32 (b : Word32) : FV := decodeFmt 24 b.toNat
def decodeW16 (b : BitVec 16) : FV := decodeFmt 8 b.toNat

/-- m * 2^e as a multiple of 2^q, rounded by a mode, and whether that changed it (R158). -/
def roundAt (rm : Rm) (neg : Bool) (m : Nat) (e q : Int) : Nat × Bool :=
  if q ≤ e then (m * 2 ^ (e - q).toNat, false)
  else
    let d := 2 ^ (q - e).toNat
    let n := m / d
    let r := m % d
    let up := match rm with
      | .rn => decide (d < 2 * r) || (decide (2 * r = d) && decide (n % 2 = 1))
      | .rz => false
      | .rd => neg && decide (r ≠ 0)
      | .ru => !neg && decide (r ≠ 0)
    (if up then n + 1 else n, decide (r ≠ 0))

/-- The position of the top bit: m lies in [2^k, 2^(k+1)). -/
def topBit (m : Nat) : Nat := Nat.log2 m

/-- Encode an exact value into a format of `p` significand bits, rounding once (R158, R174): the bits, and the flags. A
NaN is the canonical NaN (R151). -/
def encodeFmt (p : Nat) (rm : Rm) (v : FV) : Nat × FFlags :=
  let sign (n : Bool) : Nat := if n then 2 ^ (p + 7) else 0
  match v with
  | .nan _ => (255 * 2 ^ (p - 1) + 2 ^ (p - 2), 0)
  | .inf n => (sign n + 255 * 2 ^ (p - 1), 0)
  | .fin n m e =>
    if m = 0 then (sign n, 0)
    else
      let q0 : Int := e + topBit m - (p - 1 : Nat)
      let q : Int := max q0 (-125 - p)
      let (k0, inx) := roundAt rm n m e q
      let (k, q) := if k0 = 2 ^ p then (2 ^ (p - 1), q + 1) else (k0, q)
      if 2 ^ (p - 1) ≤ k ∧ 127 < q + (p - 1 : Nat) then
        let toInf := match rm with
          | .rn => true
          | .rz => false
          | .rd => n
          | .ru => !n
        (sign n + if toInf then 255 * 2 ^ (p - 1) else 255 * 2 ^ (p - 1) - 1, flagOF)
      else
        -- tiny after rounding: the value rounded with an unbounded exponent lies below 2^-126
        let (k1, _) := roundAt rm n m e q0
        let tiny := decide (q0 + (p - 1 : Nat) < -126) && decide ¬(k1 = 2 ^ p ∧ q0 + p = -126)
        let bits := if k < 2 ^ (p - 1) then k else (q + 125 + p).toNat * 2 ^ (p - 1) + k
        (sign n + bits, if inx && tiny then flagUF else flagNX inx)

def encodeF32 (rm : Rm) (v : FV) : Word32 × FFlags :=
  let r := encodeFmt 24 rm v
  (BitVec.ofNat 32 r.1, r.2)

def encodeW16 (rm : Rm) (v : FV) : BitVec 16 × FFlags :=
  let r := encodeFmt 8 rm v
  (BitVec.ofNat 16 r.1, r.2)

/-- The canonical NaN of F32 (R151). -/
def nanF32 : Word32 := 0x7FC00000

/-- The signed integer value of a finite magnitude scaled to exponent `e`. -/
def scaled (neg : Bool) (m : Nat) (e lo : Int) : Int :=
  let v : Int := m * 2 ^ (e - lo).toNat
  if neg then -v else v

/-- The exact sum, with the invalid flag of R247; a zero sum of values of both signs takes the sign its mode directs. -/
def fvAdd (rm : Rm) (x y : FV) : FV × FFlags :=
  let sn := flagNV (x.isSnan || y.isSnan)
  match x, y with
  | .nan _, _ => (.nan false, sn)
  | _, .nan _ => (.nan false, sn)
  | .inf a, .inf b => if a = b then (.inf a, sn) else (.nan false, flagNV true)
  | .inf a, _ => (.inf a, sn)
  | _, .inf b => (.inf b, sn)
  | .fin n1 m1 e1, .fin n2 m2 e2 =>
    if m1 = 0 ∧ m2 = 0 then (.fin (if n1 = n2 then n1 else decide (rm = .rd)) 0 0, 0)
    else
      let lo := min e1 e2
      let v := scaled n1 m1 e1 lo + scaled n2 m2 e2 lo
      if v = 0 then (.fin (decide (rm = .rd)) 0 0, 0) else (.fin (decide (v < 0)) v.natAbs lo, 0)

/-- The exact product, with the invalid flag of R247. -/
def fvMul (x y : FV) : FV × FFlags :=
  let sn := flagNV (x.isSnan || y.isSnan)
  match x, y with
  | .nan _, _ => (.nan false, sn)
  | _, .nan _ => (.nan false, sn)
  | .inf a, v => if v.isZero then (.nan false, flagNV true) else (.inf (a != v.isNeg), sn)
  | v, .inf b => if v.isZero then (.nan false, flagNV true) else (.inf (b != v.isNeg), sn)
  | .fin n1 m1 e1, .fin n2 m2 e2 => (.fin (n1 != n2) (m1 * m2) (e1 + e2), 0)

/-- a * b + c exactly (R167). -/
def fvFma (rm : Rm) (a b c : FV) : FV × FFlags :=
  let p := fvMul a b
  let r := fvAdd rm p.1 c
  (r.1, p.2 ||| r.2)

/-- Exact comparison; none when unordered. -/
def fvCmp (x y : FV) : Option Ordering :=
  match x, y with
  | .nan _, _ => none
  | _, .nan _ => none
  | .inf a, .inf b => if a = b then some .eq else some (if a then .lt else .gt)
  | .inf a, _ => some (if a then .lt else .gt)
  | _, .inf b => some (if b then .gt else .lt)
  | .fin n1 m1 e1, .fin n2 m2 e2 =>
    let lo := min e1 e2
    some (compare (scaled n1 m1 e1 lo) (scaled n2 m2 e2 lo))

/-- Whether the first value comes before the second in the order of R169, in which -0 lies below +0. -/
def fvBelow (x y : FV) : Bool :=
  match fvCmp x y with
  | some .lt => true
  | some .eq => x.isNeg && !y.isNeg
  | _ => false

/-- Minimum and maximum (R169). -/
def fvMin (x y : FV) : FV × FFlags :=
  if x.isNan || y.isNan then (.nan false, flagNV (x.isSnan || y.isSnan)) else (if fvBelow y x then y else x, 0)

def fvMax (x y : FV) : FV × FFlags :=
  if x.isNan || y.isNan then (.nan false, flagNV (x.isSnan || y.isSnan)) else (if fvBelow x y then y else x, 0)

/-- The quotient, correct to far more bits than a format holds, its lowest bit sticky (R319). -/
def fvDiv (x y : FV) : FV :=
  match x, y with
  | .nan _, _ => .nan false
  | _, .nan _ => .nan false
  | .inf _, .inf _ => .nan false
  | .inf a, v => .inf (a != v.isNeg)
  | v, .inf b => .fin (v.isNeg != b) 0 0
  | .fin n1 m1 e1, .fin n2 m2 e2 =>
    if m2 = 0 then (if m1 = 0 then .nan false else .inf (n1 != n2))
    else
      let sh := 64 + topBit m2
      let q := m1 * 2 ^ sh / m2
      let sticky := if m1 * 2 ^ sh % m2 = 0 then 0 else 1
      .fin (n1 != n2) (2 * q + sticky) (e1 - e2 - sh - 1)

/-- The integer square root of a number below 4^bits, found bit by bit. -/
def isqrt (v : Nat) : Nat → Nat → Nat
  | 0, r => r
  | b + 1, r => let r' := r + 2 ^ b; isqrt v b (if r' * r' ≤ v then r' else r)

/-- The square root, its lowest bit sticky (R319). -/
def fvSqrt (x : FV) : FV :=
  match x with
  | .nan _ => .nan false
  | .inf n => if n then .nan false else .inf false
  | .fin n m e =>
    if m = 0 then .fin n 0 0
    else if n then .nan false
    else
      let sh : Nat := if e % 2 = 0 then 64 else 65
      let v := m * 2 ^ sh
      let r := isqrt v (topBit v / 2 + 1) 0
      let sticky := if r * r = v then 0 else 1
      .fin false (2 * r + sticky) ((e - sh) / 2 - 1)

/-! ### F32 operations with nearest-even rounding -/

def f32Op (f : FV → FV → FV × FFlags) (x y : Word32) : Word32 × FFlags :=
  let r := f (decodeF32 x) (decodeF32 y)
  let e := encodeF32 .rn r.1
  (e.1, r.2 ||| e.2)

def f32Add (x y : Word32) : Word32 × FFlags := f32Op (fvAdd .rn) x y
def f32Sub (x y : Word32) : Word32 × FFlags :=
  f32Op (fun a b => fvAdd .rn a b.neg) x y
def f32Mul (x y : Word32) : Word32 × FFlags := f32Op fvMul x y
def f32Min (x y : Word32) : Word32 × FFlags := f32Op fvMin x y
def f32Max (x y : Word32) : Word32 × FFlags := f32Op fvMax x y
def f32Div (x y : Word32) : Word32 := (encodeF32 .rn (fvDiv (decodeF32 x) (decodeF32 y))).1
def f32Sqrt (x : Word32) : Word32 := (encodeF32 .rn (fvSqrt (decodeF32 x))).1
def f32OfNat (n : Nat) : Word32 := (encodeF32 .rn (.fin false n 0)).1

/-- IEEE greater-than with a NaN taken as minus infinity (R319). -/
def f32Greater (x y : Word32) : Bool :=
  let a := if (decodeF32 x).isNan then FV.inf true else decodeF32 x
  let b := if (decodeF32 y).isNan then FV.inf true else decodeF32 y
  fvCmp a b = some .gt

/-- Round an exact value to an integer within bounds (R159, R235). -/
def fvToInt (rm : Rm) (lo hi : Int) (v : FV) : Int × FFlags :=
  match v with
  | .nan _ => (0, flagNV true)
  | .inf n => (if n then lo else hi, flagNV true)
  | .fin n m e =>
    let (k, inx) := roundAt rm n m e 0
    let i : Int := if n then -(k : Int) else k
    if i < lo then (lo, flagNV true) else if hi < i then (hi, flagNV true) else (i, flagNX inx)

/-! ### Block formats (R155-R160) -/

/-- The magnitude field's top and the exponent bias of BX8 and BX4. -/
def bxTop (bx8 : Bool) : Nat := if bx8 then 63 else 3
def bxBias (bx8 : Bool) : Nat := if bx8 then 132 else 128

/-- An element's code from selector, sign and magnitude (R155). -/
def bxCode (bx8 : Bool) (sel neg : Bool) (m : Nat) : Nat :=
  if bx8 then (if sel then 128 else 0) + (if neg then 64 else 0) + m
  else (if sel then 8 else 0) + (if neg then 4 else 0) + m

/-- The value of an element under its block's pair (R156). -/
def bxDecode (bx8 : Bool) (code elo ehi : Nat) : FV :=
  let sel := if bx8 then code / 128 % 2 else code / 8 % 2
  let neg := decide ((if bx8 then code / 64 % 2 else code / 4 % 2) = 1)
  let m := if bx8 then code % 64 else code % 4
  let ex := if sel = 1 then ehi else elo
  if ex = 255 then .nan false else .fin neg m ((ex : Int) - bxBias bx8)

/-- Encode a value against the pair that stands for its block (R160). An element that selects exponent 255 is a NaN (R156): a finite source
that becomes it has changed its value. -/
def bxEncode (bx8 : Bool) (rm : Rm) (v : FV) (elo ehi : Nat) : Nat × FFlags :=
  let unit (x : Nat) : Int := (min x 254 : Nat) - (bxBias bx8 : Int)
  match v with
  | .nan _ => (bxCode bx8 true false 0, flagNV true)
  | .inf n => (bxCode bx8 true n (bxTop bx8), flagOF)
  | .fin n m e =>
    let lo := roundAt rm n m e (unit elo)
    let hi := roundAt rm n m e (unit ehi)
    let fl (r : Nat × Bool) (x : Nat) : FFlags := if r.1 = 0 ∧ m ≠ 0 then flagUF else flagNX (r.2 || decide (255 ≤ x))
    if lo.1 ≤ bxTop bx8 then (bxCode bx8 false n lo.1, fl lo elo)
    else if hi.1 ≤ bxTop bx8 then (bxCode bx8 true n hi.1, fl hi ehi)
    else (bxCode bx8 true n (bxTop bx8), flagOF)

/-- The smallest exponent from `x` up, at most 254, at which a magnitude rounds to at most the top (R162). -/
def qntExp (bx8 : Bool) (m : Nat) (e : Int) (x : Nat) : Nat → Nat
  | 0 => x
  | f + 1 =>
    if x < 254 ∧ bxTop bx8 < (roundAt .rn false m e ((x : Int) - bxBias bx8)).1 then qntExp bx8 m e (x + 1) f else x

/-- Quantise one block (R162, R163): the element codes, the pair, the flags. -/
def quantise (bx8 : Bool) (d : Nat) (v : List FV) : List Nat × Nat × Nat × FFlags :=
  let poison := v.any (fun x => x.isNan || x.isInf)
  let mx := v.foldl (fun (b : Nat × Int) x => match x with
    | .fin _ m e => if fvCmp (.fin false b.1 b.2) (.fin false m e) = some .lt then (m, e) else b
    | _ => b) (0, 0)
  let ehi := qntExp bx8 mx.1 mx.2 0 254
  let elo := ehi - d
  let one (x : FV) : Nat × FFlags :=
    match x with
    | .fin n m e =>
      let a := roundAt .rn false m e ((elo : Int) - bxBias bx8)
      if a.1 ≤ bxTop bx8 then (bxCode bx8 false n a.1, if a.1 = 0 ∧ m ≠ 0 then flagUF else flagNX a.2)
      else if !poison then
        let h := roundAt .rn false m e ((ehi : Int) - bxBias bx8)
        if bxTop bx8 < h.1 then (bxCode bx8 true n (bxTop bx8), flagOF)
        else (bxCode bx8 true n h.1, if h.1 = 0 ∧ m ≠ 0 then flagUF else flagNX h.2)
      else (bxCode bx8 true false 0, 0)
    | _ => (bxCode bx8 true false 0, 0)
  let els := v.map one
  (els.map (fun p => p.1), elo, if poison then 255 else ehi, els.foldl (fun f p => f ||| p.2) (flagNV poison))

/-! ### Sums (R164-R168) -/

/-- The exact sum of products of one group and its invalid flag (R166): a zero sum is +0 (R165). -/
def groupSum (ps : List (FV × FV)) : FV × FFlags :=
  let r := ps.foldl (fun (acc : FV × FFlags) p =>
    let q := fvMul p.1 p.2
    let nanIn := p.1.isNan || p.2.isNan
    let s := fvAdd .rn acc.1 q.1
    (s.1, acc.2 ||| q.2 ||| s.2 ||| flagNV nanIn)) (FV.zero, 0)
  match r.1 with
  | .fin n m e => (.fin (n && decide (m ≠ 0)) m e, r.2)
  | v => (v, r.2)

/-- Add one group of products to an accumulator element (R164): the group sum is rounded once, then added. -/
def accGroup (acc : Word32) (ps : List (FV × FV)) : Word32 × FFlags :=
  let g := groupSum ps
  let r := encodeF32 .rn g.1
  let a := f32Add acc r.1
  (a.1, g.2 ||| r.2 ||| a.2)

/-- An addition of R168 with absent operands. -/
def optAdd (x y : Option Word32 × FFlags) : Option Word32 × FFlags :=
  match x.1, y.1 with
  | none, _ => (y.1, x.2 ||| y.2)
  | _, none => (x.1, x.2 ||| y.2)
  | some a, some b => let r := f32Add a b; (some r.1, x.2 ||| y.2 ||| r.2)

/-- The fixed tree over eight lanes (R168). -/
def treeSum (l : Nat → Option Word32) : Option Word32 × FFlags :=
  let v (i : Nat) : Option Word32 × FFlags := (l i, 0)
  optAdd (optAdd (optAdd (v 0) (v 1)) (optAdd (v 2) (v 3))) (optAdd (optAdd (v 4) (v 5)) (optAdd (v 6) (v 7)))

end Sys2Proof.Machine
end

