-- ==== Sys2Proof/Machine/Memory.lean ====
section
/-!
DEFINITION. Memory as an access meets it: address windows (R20-R26), dikes (R135, R141), translation (R44-R49), the
comparisons of a line at rest (R40), home slices and their directory (R86-R95, R102, R438), the remote-data cache
(R96-R100), lost lines and quarantine (R57, R105, R106, R439, R440), range monitors (R449-R451).
-/

namespace Sys2Proof.Machine

/-! ### Windows (R20-R25) -/

/-- The window code of an address (R20). -/
def windowOf (a : Word) : Nat := a.toNat / 2 ^ 56

/-- Whether a window code names local memory through a format (R22). -/
def isLocalWindow (c : Nat) : Bool := decide (0xF0 ≤ c ∧ c ≤ 0xF7)

/-- Whether the fields of an address that its window's layout marks as zero or guard are zero; a reserved code has no
layout, and the fabric window is not for accesses (R21-R25). -/
def fieldsZero (a : Word) : Bool :=
  let c := windowOf a
  if c = 0 then decide (bitsOf a 55 52 = 0)
  else if isLocalWindow c then decide (bitsOf a 55 23 = 0 ∧ bitsOf a 15 15 = 0)
  else if c = 0xF8 then decide (bitsOf a 55 23 = 0 ∧ bitsOf a 15 12 = 0)
  else false

/-- Whether an access of `n` bytes at `a` is well formed (R25). -/
def wellFormed (a : Word) (n : Nat) : Bool :=
  let z := a + BitVec.ofNat 64 (n - 1)
  decide (windowOf a = windowOf z) && fieldsZero a && fieldsZero z

/-- Where a local or scale-plane address of a slot's cluster lies (R22, R23). -/
def localPlace (c : CoreIx) (a : Word) : Place :=
  let k := c / 128 * 128 + bitsOf a 22 16
  if windowOf a = 0xF8 then .scale k (bitsOf a 11 0) else .loc k (bitsOf a 14 0)

/-- A fabric address (R24): its core and offset; none when a zero or guard field is set. -/
def fabricPlace (a : Word) : Option (CoreIx × Nat) :=
  if windowOf a = 0xFD ∧ bitsOf a 45 23 = 0 ∧ bitsOf a 15 15 = 0 then
    some (coreIx (bitsOf a 55 52) (bitsOf a 51 46) (bitsOf a 22 16), bitsOf a 14 0)
  else none

/-! ### Dikes (R135, R141) -/

/-- The local offsets that a place of `n` bytes counts as for the dike check: first, and one past the last. -/
def dikeSpan : Place → Nat → CoreIx × Nat × Nat
  | .loc c o, n => (c, o, o + n)
  | .scale c b, n => (c, 16 * (b / 2), 16 * ((b + n - 1) / 2) + 16)
  | .glob _, _ => (0, 0, 0)

/-- The dike check for slot number `slot` and a world (R135). -/
def dikeFits (s : State) (slot world : Nat) (p : Place) (n : Nat) : Bool :=
  let (c, lo, hi) := dikeSpan p n
  match s.thread? { core := c, slot := slot } with
  | some t => decide (t.world = world ∧ t.dikelo.toNat ≤ lo ∧ hi ≤ t.dikehi.toNat)
  | none => false

/-- Whether `n` bytes at a place overlap `m` bytes at another. -/
def overlaps (p : Place) (n : Nat) (q : Place) (m : Nat) : Bool :=
  match p, q with
  | .loc c o, .loc d u => decide (c = d ∧ o < u + m ∧ u < o + n)
  | .scale c o, .scale d u => decide (c = d ∧ o < u + m ∧ u < o + n)
  | .glob o, .glob u => decide (o < u + m ∧ u < o + n)
  | _, _ => false

/-- An agent writes bytes at a place: the columns of a running gang that read one of them are spoiled (R277). -/
def State.spoil (s : State) (p : Place) (n : Nat) : State :=
  if s.gangs.any (fun g => g.2.reads.any (fun q => overlaps p n q.2.1 q.2.2)) then
    { s with gangs := s.gangs.map (fun g => (g.1, { g.2 with
        spoiled := g.2.spoiled ++ (g.2.reads.filter (fun q => overlaps p n q.2.1 q.2.2)).map (fun q => q.1) })) }
  else s

/-! ### Lines at rest (R34-R43) -/

/-- The home die of a physical address (R34). -/
def paDie (pa : Nat) : Nat := pa / 2 ^ 36 % 16

/-- The frame group of a physical address over the module: die and group together. -/
def paGroup (pa : Nat) : Nat := pa % 2 ^ 40 / 2 ^ 22

/-- The line of a physical address. -/
def lineOf (pa : Nat) : Nat := pa / 64 * 64

/-- The home slice of a line, counted over the module (R35, R36). -/
def State.sliceNo (s : State) (pa : Nat) : Nat :=
  paDie pa * 64 + (if s.pinned.contains (paGroup pa) then pa / 2 ^ 16 % 64 else pa / 2 ^ 12 % 64)

/-- The home core of a line. -/
def State.homeOf (s : State) (pa : Nat) : CoreIx := s.sliceNo pa * 128 + 127

/-- The three cases of R40. -/
inductive LineCase where
  | own | fresh | other
  deriving DecidableEq, Repr

/-- Whether the key of a world is live with an epoch (R40). -/
def State.keyLive (s : State) (world epoch : Nat) : Bool :=
  let k := tget Key.none s.keys world
  k.live && decide (k.epoch = epoch)

def State.tag (s : State) (line : Nat) : LineTag := tget LineTag.erased s.lines line

/-- Which case of R40 a request of a world to a line falls under. -/
def State.lineCase (s : State) (world line : Nat) : LineCase :=
  let t := s.tag line
  if !s.keyLive t.world t.epoch then .fresh else if t.world = world then .own else .other

def State.setTag (s : State) (line : Nat) (t : LineTag) : State := { s with lines := tput s.lines line t }

/-- A thread of a slot as the maker of an access. -/
def slotWho (r : SlotRef) (t : Thread) (kind : Nat) (va : Word) : Who :=
  { src := slotSource r, world := t.world, region := t.region, slot := r.slot, kind := kind,
    va := some (lineOf (va.toNat % 2 ^ 52)) }

/-! ### L1 and the directory (R86-R95) -/

/-- The core that a directory pointer names on a die (R90). -/
def pointerCore (die p : Nat) : CoreIx := die * 8192 + p

/-- Drop a line from the L1 of a core. -/
def State.dropL1 (s : State) (line : Nat) (c : CoreIx) : State :=
  if (s.core c).l1.contains line then s.modCore c (fun k => { k with l1 := k.l1.filter (fun x => x ≠ line) }) else s

/-- The overflow table of the home of a line, and the clusters it marks for the line (R93). -/
def State.overMask (s : State) (line : Nat) : BitVec 64 :=
  match (tget [] s.overs (s.sliceNo line)).find? (fun e => e.line = line) with
  | some e => e.mask
  | none => 0

/-- Every L1 copy of a line but that of one core is invalidated; the entry returns to state 00, or keeps the one sharer
left (R88, R94). -/
def State.invalidateL1 (s : State) (line : Nat) (keep : Option CoreIx) : State :=
  let e := tget DirEntry.zero s.dirs line
  if e.state = 0 then s else
  let die := paDie line
  let mask := s.overMask line
  let marked (c : CoreIx) : Bool := decide (e.state = 2) && decide (dieOf c = die) && mask.getLsbD (clusterOf c % 64)
  let victims := (e.ptrs.map (pointerCore die)) ++ ((s.cores.map (fun p => p.1)).filter marked)
  let kept := match keep with
    | some c => if victims.contains c && (s.core c).l1.contains line then some c else none
    | none => none
  let s1 : State := victims.foldl (fun s c => if kept = some c then s else s.dropL1 line c) s
  let e' : DirEntry := match kept with
    | some c => { state := 1, ptrs := [c % 8192] }
    | none => DirEntry.zero
  let sl := s.sliceNo line
  { s1 with dirs := tput s1.dirs line e', overs := tput s1.overs sl ((tget [] s1.overs sl).filter (fun o => o.line ≠ line)) }

/-- Put a line into the L1 of a core: 32 sets of 4 ways, least recently used replaced (R86); most recent first. -/
def l1Put (l : List Nat) (line : Nat) : List Nat :=
  let l' := l.filter (fun x => x ≠ line)
  let same := l'.filter (fun x => decide (x / 64 % 32 = line / 64 % 32))
  line :: (if same.length < 4 then l' else l'.filter (fun x => x ≠ same.getLastD 0))

/-! ### Home slices (R89, R102, R438) -/

/-- The set of a line in its home slice (R438). -/
def State.sliceSet (s : State) (line : Nat) : Nat :=
  if s.pinned.contains (paGroup line) then line / 64 % 1024 else line / 2 ^ 18 % 16 * 64 + line / 64 % 64

/-- Whether the die is in private mode (R101). -/
def State.privateMode (s : State) (die : Nat) : Bool := (tget 0 s.l2ctl die).getLsbD 1

/-- Whether a way of a cache of a die is open to a slot number (R102): in private mode, the ways of its polder. -/
def State.wayOpen (s : State) (die slot way : Nat) : Bool :=
  !s.privateMode die || decide (s.polderOf way = s.polderOf slot)

/-- Whether a quarantine word names a way (R106). -/
def wayOut (q : Word) (way : Nat) : Bool := q.getLsbD way

/-- Count an error in a quarantine word (R106): the corrected count in 63:48, the uncorrected count in 47:32. -/
def quarCount (q : Word) (corrected : Bool) : Word :=
  let lo := if corrected then 48 else 32
  if bitsOf q (lo + 15) lo = 0xFFFF then q else q + BitVec.ofNat 64 (2 ^ lo)

/-- The errors counted by a way: uncorrectable ones, and the cycles of the corrected ones that still count (R106). The
way's number is that of its cache (slice number, or 1024 plus the die) times 16 plus the way. -/
def wayRecord (l : List (Nat × Nat × List Nat)) (w : Nat) : Nat × List Nat :=
  match l.find? (fun p => p.1 = w) with
  | some p => p.2
  | none => (0, [])

def setWayRecord (l : List (Nat × Nat × List Nat)) (w : Nat) (v : Nat × List Nat) : List (Nat × Nat × List Nat) :=
  (w, v) :: l.filter (fun p => p.1 ≠ w)

/-- Start the remap of a frame whose line is lost, and tell the containment logic (R57, R105, R434). -/
def State.loseLine (s : State) (die line world : Nat) (region va : Option Nat) : State :=
  let st := s.stampOf (containmentSource die)
  let frame := line / 65536
  let s1 : State := { (s.spend st).setTag line { s.tag line with poison := true } with
    lost := s.lost ++ [{ die := die, pa := line, world := world, region := region, va := va, stamp := st }],
    retire := if (s.retire.map (fun p => p.1)).contains frame then s.retire else s.retire ++ [(frame, line)] }
  (s1.laterOnce .frameRemap { n := frame }).later .containmentNotice { n := die }

/-- The write-back of a line of a way that is being quarantined: an error planted in a dirty line is detected and counted, and an
uncorrectable one loses the line (R105, R106, R436). -/
def State.lastWriteBack (s : State) (sl : Nat) (x : SliceLine) : State :=
  if !x.dirty || !(x.ue || x.ce) then s
  else
    let s1 : State := { s with quars := tmod 0 s.quars sl (fun q => quarCount q (!x.ue)) }
    if x.ue then s1.loseLine (paDie x.pa) x.pa x.world (some x.region) x.va else s1

/-- Quarantine a way of a slice (R106, R440): its dirty lines are written back, its lines leave the cache; the data at home are what
its sound dirty lines hold. -/
def State.quarantineSlice (s : State) (sl way : Nat) : State :=
  let ls := tget [] s.slices sl
  let gone := ls.filter (fun x => x.way = way)
  let s0 : State := gone.foldl (fun s x => s.lastWriteBack sl x) s
  let s1 : State := gone.foldl (fun s x => s.invalidateL1 x.pa none) s0
  { s1 with slices := tput s1.slices sl (ls.filter (fun x => x.way ≠ way)),
            quars := tmod 0 s1.quars sl (fun q => q ||| BitVec.ofNat 64 (2 ^ way)) }

/-- Count an uncorrectable error of a slice's way, and quarantine the way at its second (R106). -/
def State.countSliceUe (s : State) (sl way : Nat) : State :=
  let r := wayRecord s.wayErrs (sl * 16 + way)
  let s1 : State := { s with quars := tmod 0 s.quars sl (fun q => quarCount q false),
                             wayErrs := setWayRecord s.wayErrs (sl * 16 + way) (r.1 + 1, r.2) }
  if 2 ≤ r.1 + 1 then s1.quarantineSlice sl way else s1

/-- Count a corrected error of a slice's way, and quarantine the way at the 64th within 16,777,216 cycles (R106). -/
def State.countSliceCe (s : State) (sl way : Nat) : State :=
  let r := wayRecord s.wayErrs (sl * 16 + way)
  let recent := s.tc :: r.2.filter (fun t => decide (s.tc < t + 16777216))
  let s1 : State := { s with quars := tmod 0 s.quars sl (fun q => quarCount q true),
                             wayErrs := setWayRecord s.wayErrs (sl * 16 + way) (r.1, recent) }
  if 64 ≤ recent.length then s1.quarantineSlice sl way else s1

/-- The line of a slice that a fill of a set evicts: the least recently used of the ways open to it. -/
def evictee (s : State) (ls : List SliceLine) (set die slot : Nat) : Option SliceLine :=
  (ls.filter (fun x => decide (s.sliceSet x.pa = set) && s.wayOpen die slot x.way)).getLast?

/-- Take a line out of a slice: its L1 copies are invalidated, and a planted error is detected (R89, R436, R439). -/
def State.evict (s : State) (sl : Nat) (x : SliceLine) : State :=
  let s1 : State := s.invalidateL1 x.pa none
  let s2 : State := { s1 with slices := tput s1.slices sl ((tget [] s1.slices sl).filter (fun y => y.pa ≠ x.pa)) }
  let s3 : State :=
    if x.ue && x.dirty then s2.loseLine (paDie x.pa) x.pa x.world (some x.region) x.va else s2
  let s4 : State := if x.ue then s3.countSliceUe sl x.way else if x.ce then s3.countSliceCe sl x.way else s3
  if s4.dramErr.contains x.pa && x.dirty && !x.ue then { s4 with dramErr := s4.dramErr.filter (fun l => l ≠ x.pa) } else s4

/-- Whether a fill of a line's home slice for a slot number may take a way (R102, R106). -/
def State.wayUsable (s : State) (line slot way : Nat) : Bool :=
  !wayOut (tget 0 s.quars (s.sliceNo line)) way && s.wayOpen (paDie line) slot way

/-- The lowest-numbered way of a line's set that is invalid and usable (R438). -/
def State.freeWay (s : State) (line slot : Nat) : Option Nat :=
  let used (w : Nat) : Bool :=
    (tget [] s.slices (s.sliceNo line)).any (fun x => decide (x.way = w) && decide (s.sliceSet x.pa = s.sliceSet line))
  (List.range 16).find? (fun w => s.wayUsable line slot w && !used w)

/-- The line that a fill of a line's set evicts when no usable way is invalid (R438). -/
def State.fillVictim (s : State) (line slot : Nat) : Option SliceLine :=
  evictee s ((tget [] s.slices (s.sliceNo line)).filter (fun x => s.wayUsable line slot x.way)) (s.sliceSet line) (paDie line) slot

/-- Fill a line into its home slice for a slot number (R102, R107, R438). A polder with no way left bypasses the cache. -/
def State.fillSlice (s : State) (line slot : Nat) : State :=
  let sl := s.sliceNo line
  let new (w : Nat) : SliceLine :=
    { pa := line, way := w, dirty := false, world := (s.tag line).world, region := 0xFFFFFF, va := none, ue := false, ce := false }
  match s.freeWay line slot with
  | some w => { s with slices := tput s.slices sl (new w :: tget [] s.slices sl) }
  | none =>
    match s.fillVictim line slot with
    | some x =>
      let s1 : State := s.evict sl x
      if wayOut (tget 0 s1.quars sl) x.way then s1
      else { s1 with slices := tput s1.slices sl (new x.way :: tget [] s1.slices sl) }
    | none => s

/-- Bring a line to the front of its home slice, filling it on a miss (R438). A planted error is detected: the answer says
whether the line's data are lost (R105, R435, R436, R439). `whole` says that the access writes all 64 bytes. -/
def State.touchLine (s : State) (line slot : Nat) (whole : Bool) : State × Bool :=
  let sl := s.sliceNo line
  let ls := tget [] s.slices sl
  match ls.find? (fun x => x.pa = line) with
  | some x =>
    let clean : SliceLine := { x with ue := false, ce := false }
    let front (s : State) (x : SliceLine) : State :=
      { s with slices := tput s.slices sl (x :: (tget [] s.slices sl).filter (fun y => y.pa ≠ line)) }
    if whole then (front s clean, false)
    else if x.ue then
      if x.dirty then
        let s1 : State := { (s.invalidateL1 line none) with
          slices := tput s.slices sl (ls.filter (fun y => y.pa ≠ line)) }
        let s2 : State := s1.loseLine (paDie line) line x.world (some x.region) x.va
        (s2.countSliceUe sl x.way, true)
      else
        let s1 : State := { (s.invalidateL1 line none) with
          slices := tput s.slices sl (ls.filter (fun y => y.pa ≠ line)) }
        ((s1.countSliceUe sl x.way).fillSlice line slot, false)
    else if x.ce then ((front s clean).countSliceCe sl x.way, false)
    else (front s x, false)
  | none =>
    if (s.dramErr.contains line || !(s.tag line).sound) && !whole then
      let s1 : State := { s with dramErr := s.dramErr.filter (fun l => l ≠ line) }
      (s1.loseLine (paDie line) line (s.tag line).world none none, true)
    else
      let s1 : State := { s with dramErr := s.dramErr.filter (fun l => l ≠ line) }
      (s1.fillSlice line slot, false)

/-- Bring a line to the front of its home slice, filling it on a miss, without a test of the line: one whose world and epoch place it in
the second case of R40. -/
def State.glance (s : State) (line slot : Nat) : State :=
  let sl := s.sliceNo line
  match (tget [] s.slices sl).find? (fun x => x.pa = line) with
  | some x => { s with slices := tput s.slices sl (x :: (tget [] s.slices sl).filter (fun y => y.pa ≠ line)) }
  | none => s.fillSlice line slot

/-! ### What a request waits for at a home (R57, R91-R95) -/

/-- Whether the frame of a physical address is being remapped: accesses to it wait (R57). -/
def State.remapping (s : State) (p : Place) : Option Nat :=
  match p with
  | .glob pa => if (s.retire.map (fun q => q.1)).contains (pa / 65536) then some (pa / 65536) else none
  | _ => none

/-- Whether spillway work stands on a line: requests to it wait (R91). -/
def State.lineBusy (s : State) (line : Nat) : Bool :=
  s.spillFills.any (fun j => j.line = line) || s.spillInvs.any (fun j => j.line = line)

/-- Whether the directory hands the invalidation of a line's copies to the spillway (R94). -/
def State.overflowed (s : State) (line : Nat) : Bool := decide ((tget DirEntry.zero s.dirs line).state = 2)

/-- Hand the invalidation of a line's copies to the spillway of its home, for a request that pays for it (R94, R95). -/
def State.askSpillway (s : State) (w : Who) (c : CoreIx) (line : Nat) : State :=
  let x := s.mint w.src
  let j : SpillJob := { home := s.homeOf line, line := line, core := c, slot := w.slot, world := w.world, region := w.region, stamp := x.1 }
  { x.2.modCore j.home (fun k => k) with spillInvs := x.2.spillInvs ++ [j] }

/-- What the spillway stands in the way of, for a request that fills a line: the line, or the one that its fill evicts (R91, R94). -/
def State.spillMeet (s : State) (w : Who) (c : CoreIx) (line : Nat) (wr : Bool) : Option (State × Park) :=
  let st := s.stampOf w.src
  let ask (l : Nat) (inv : Bool) : Option (State × Park) :=
    if s.lineBusy l then some (s.spend st, .fill l st)
    else if inv && s.overflowed l then some (s.askSpillway w c l, .fill l st) else none
  match ask line wr with
  | some x => some x
  | none =>
    if (tget [] s.slices (s.sliceNo line)).any (fun x => x.pa = line) || (s.freeWay line w.slot).isSome then none
    else (s.fillVictim line w.slot).bind (fun x => ask x.pa true)

/-- What a request waits for at the home of a physical address: the remap of its frame, or the spillway (R57, R91, R94). None where
it can be served. -/
def State.homeMeet (s : State) (w : Who) (c : CoreIx) (pa : Nat) (wr : Bool) : Option (State × Park) :=
  if 2 ^ 40 ≤ pa then none
  else
    match s.remapping (.glob pa) with
    | some f => some (s, .frame f)
    | none => s.spillMeet w c (lineOf pa) wr

/-! ### Translation (R44-R49) -/

def TlbEntry.covers (e : TlbEntry) (world page : Nat) : Bool :=
  decide (e.world = world) && (if e.large then decide (e.page / 512 = page / 512) else decide (e.page = page))

/-- The 64 KiB piece of an entry that a page needs (R48). -/
def TlbEntry.piece (e : TlbEntry) (page : Nat) : TlbEntry :=
  if e.large then { e with large := false, page := page, pa := e.pa + page % 512 * 65536 } else e

/-- What a micro-TLB, and then the cluster TLB, hold for a page of a world (R48). -/
def State.tlb (s : State) (c : CoreIx) (world page : Nat) : Option TlbEntry :=
  match (s.core c).utlb.find? (fun e => e.covers world page) with
  | some e => some e
  | none => ((tget [] s.ctlbs (clusterOf c)).find? (fun e => e.covers world page)).map (fun e => e.piece page)

/-- Keep at most `n` entries, the oldest installed dropped: which entry a full TLB drops is the model's choice (log entry 52). -/
def capped {α : Type} (n : Nat) (l : List α) : List α := l.drop (l.length - n)

/-- A micro-TLB miss that hits in the cluster TLB copies the piece it needs (R48). -/
def State.copyTlb (s : State) (c : CoreIx) (e : TlbEntry) : State :=
  if (s.core c).utlb.contains e then s else s.modCore c (fun k => { k with utlb := capped 32 (k.utlb ++ [e]) })

/-- Whether a table entry is malformed or invalid (R45, R46). -/
def State.entryBad (s : State) (world level e : Nat) : Bool :=
  let v := e % 2 = 1
  let leaf := e / 2 % 2 = 1
  let addr := e / 4096 % 2 ^ 29 * 4096
  let device := decide (2 ^ 40 ≤ addr)
  decide (¬v) || decide (e / 32 % 128 ≠ 0) || decide (2 ^ 41 ≤ e)
    || (decide leaf && decide (level ≤ 2)) || (decide (¬leaf) && decide (level = 4))
    || (decide leaf && decide (level = 4) && decide (addr % 65536 ≠ 0))
    || (decide leaf && decide (level = 3) && decide (addr % 2 ^ 25 ≠ 0))
    || (decide leaf && decide (level = 3) && !device && (List.range 8).any (fun i => s.pinned.contains (paGroup addr + i)))
    || (decide (¬leaf) && device)
    || (decide leaf && device && decide (world ≠ 0) && !(decide (level = 4) && decide (addr % 2 ^ 36 = 0)))

/-- The permissions and page of a leaf. -/
def leafEntry (world page level e : Nat) : TlbEntry :=
  { world := world, page := if level = 3 then page / 512 * 512 else page, large := decide (level = 3),
    pa := e / 4096 % 2 ^ 29 * 4096,
    r := decide (e / 4 % 2 = 1), w := decide (e / 8 % 2 = 1), x := decide (e / 16 % 2 = 1) }

/-- One read of a table entry through its home slice (R44, R49). A line in the third case of R40, poisoned or lost gives none, and the walk
ends in XLAT: the model's choice (log entry 52). -/
def State.readEntry (s : State) (world slot pa : Nat) : State × Option Nat :=
  let line := lineOf pa
  match s.lineCase world line with
  | .other => (s, none)
  | .fresh => (s.glance line slot, some 0)
  | .own =>
    if (s.tag line).poison then (s, none)
    else
      let (s1, lost) := s.touchLine line slot false
      (s1, if lost then none else some (leNat (cellsGet s1.hbm pa 8)))

/-- Walk the tables from a level; the levels left bound the walk. -/
def walkFrom (s : State) (world page slot table : Nat) : Nat → State × Option TlbEntry
  | 0 => (s, none)
  | n + 1 =>
    let level := 4 - n
    match s.readEntry world slot (table + 8 * (page / 2 ^ (9 * n) % 512)) with
    | (s1, none) => (s1, none)
    | (s1, some e) =>
      if s1.entryBad world level e then (s1, none)
      else if e / 2 % 2 = 1 then (s1, some (leafEntry world page level e))
      else walkFrom s1 world page slot (e / 4096 % 2 ^ 29 * 4096) n

/-- What a walk waits for at the home of the first table line that cannot be read yet (R57, R91). -/
def walkMeetFrom (s : State) (w : Who) (page table : Nat) : Nat → Option (State × Park)
  | 0 => none
  | n + 1 =>
    let pa := table + 8 * (page / 2 ^ (9 * n) % 512)
    match s.homeMeet w 0 pa false with
    | some x => some x
    | none =>
      match s.readEntry w.world w.slot pa with
      | (s1, some e) =>
        if s1.entryBad w.world (4 - n) e || decide (e / 2 % 2 = 1) then none
        else walkMeetFrom s1 w page (e / 4096 % 2 ^ 29 * 4096) n
      | (_, none) => none

/-- What the walk of a world's tables for a page waits for. -/
def State.walkMeet (s : State) (w : Who) (page : Nat) : Option (State × Park) :=
  let root := tget 0 s.worldTable w.world
  if root = 0 ∨ root % 4096 ≠ 0 ∨ 2 ^ 40 ≤ root then none else walkMeetFrom s w page root 4

/-- WALK the tables of a world for a page (R44-R46, R49); none is XLAT. -/
def State.walk (s : State) (world page slot : Nat) : State × Option TlbEntry :=
  let root := tget 0 s.worldTable world
  if root = 0 ∨ root % 4096 ≠ 0 ∨ 2 ^ 40 ≤ root then (s, none) else walkFrom s world page slot root 4

/-- The permission check of a translated access (R47). -/
def TlbEntry.grants (e : TlbEntry) (rd wr : Bool) : Bool := (!rd || e.r) && (!wr || e.w)

/-- Translate a global address for an instruction of a slot: the physical address, a park on the walk, or PROT (R47-R50). -/
def translate (s : State) (r : SlotRef) (t : Thread) (a : Word) (rd wr : Bool) : Except Stop Nat :=
  let page := a.toNat / 65536
  match s.tlb r.core t.world page with
  | none => .error (.park (.walk t.world a.toNat))
  | some e =>
    if e.grants rd wr then .ok (e.pa + a.toNat % 65536) else .error (.trap .prot a)

/-- The state after a translation has been used. -/
def State.usedTlb (s : State) (r : SlotRef) (t : Thread) (a : Word) : State :=
  match s.tlb r.core t.world (a.toNat / 65536) with
  | some e => s.copyTlb r.core e
  | none => s

/-- Where an access of `n` bytes of a slot lands, after the dike check or the translation (R26). The window and alignment
have been checked. -/
def placeOf (s : State) (r : SlotRef) (t : Thread) (a : Word) (n : Nat) (rd wr : Bool) : Except Stop Place :=
  if windowOf a = 0 then do
    let pa ← translate s r t a rd wr
    return .glob pa
  else
    let p := localPlace r.core a
    if dikeFits s r.slot t.world p n then .ok p else .error (.trap .dike a)

/-- The checks of R26 in their order for an aligned access: window, alignment, then dikes or translation. -/
def checkAccess (s : State) (r : SlotRef) (t : Thread) (a : Word) (n : Nat) (rd wr : Bool) : Except Stop Place := do
  need (wellFormed a n) .win a
  need (decide (a.toNat % n = 0)) .align a
  placeOf s r t a n rd wr

/-! ### Range monitors (R449-R451) -/

/-- Whether a line lies in an enabled monitor (R449). -/
def State.monitored (s : State) (line : Nat) : Bool :=
  s.monitors.any (fun p => decide (p.2.kinds ≠ 0) && decide (p.2.base ≤ line ∧ line ≤ p.2.limit))

/-- The bytes of a world at a global address of its own, found by its tables (hardware's own accesses). -/
def State.worldPa (s : State) (world : Nat) (va : Nat) : Option Nat :=
  match (s.walk world (va / 65536) 0).2 with
  | some e =>
    let pa := (e.piece (va / 65536)).pa + va % 65536
    if pa < 2 ^ 40 then some pa else none
  | none => none

/-- Store bytes of one line at its home under a world's key, without any trace in the caches (R39, R40). -/
def State.rawStore (s : State) (world pa : Nat) (data : List Byte) : State :=
  let line := lineOf pa
  match s.lineCase world line with
  | .other => s
  | .own => { s with hbm := cellsPut s.hbm pa data }
  | .fresh =>
    { s.setTag line { world := world, epoch := (tget Key.none s.keys world).epoch, fe := 0xFF, sound := true, poison := false } with
      hbm := cellsPut (cellsScrub s.hbm line (line + 64)) pa data }

/-- Bytes at a home as a world reads them; zero where R40 gives zero bytes. -/
def State.rawRead (s : State) (world pa n : Nat) : List Byte :=
  match s.lineCase world (lineOf pa) with
  | .own => cellsGet s.hbm pa n
  | _ => List.replicate n 0

/-- Store bytes that may span lines, at a world's global address, as hardware does. -/
def State.rawStoreVa (s : State) (world : Nat) (va : Nat) : List Byte → Nat → State
  | _, 0 => s
  | data, f + 1 =>
    if data.isEmpty then s else
    let n := min data.length (64 - va % 64)
    let s1 : State := match s.worldPa world va with
      | some pa => s.rawStore world pa (data.take n)
      | none => s
    s1.rawStoreVa world (va + n) (data.drop n) f

/-- Write one log record of a monitor (R451). -/
def State.logAccess (s : State) (key : Nat) (m : Monitor) (line kind : Nat) (w : Who) (st : Stamp) (refused : Bool) : State :=
  let owner := key / 64
  match s.worldPa owner m.ring with
  | none => s
  | some pa =>
    let h := s.rawRead owner pa 64
    let written := fieldAt h 0 8
    let taken := fieldAt h 8 8
    let n := fieldAt h 16 8
    let dropped := fieldAt h 24 8
    if written - taken = n then s.rawStore owner (pa + 24) (natLe (dropped + 1) 8)
    else
      let prev := if written = 0 then List.replicate 24 0 else
        match s.worldPa owner (m.ring + 64 + 64 * ((written - 1) % n)) with
        | some q => s.rawRead owner (q + 40) 24
        | none => List.replicate 24 0
      let body := st.bytes ++ natLe line 8
        ++ [BitVec.ofNat 8 kind, BitVec.ofNat 8 w.world, if refused then 1 else 0, 0, 0, 0, 0, 0]
        ++ natLe (written + dropped) 8
      let chain := Config.kmac256 (tget Key.none s.keys owner).key (body ++ prev) 24
      let s1 : State := s.rawStoreVa owner (m.ring + 64 + 64 * (written % n)) (body ++ bytesAt chain 0 24) 4
      s1.rawStore owner pa (natLe (written + 1) 8)

/-- Log an access at a home, with its stamp, in every monitor that it matches (R450). -/
def State.logAll (s : State) (line : Nat) (w : Who) (refused : Bool) : State :=
  let bit := if w.kind = 0 then 0 else if w.kind = 1 then 1 else if w.kind = 2 then 2 else 3
  let hits := s.monitors.filter (fun p => p.2.kinds.getLsbD bit && decide (p.2.base ≤ line ∧ line ≤ p.2.limit))
  if decide (5 ≤ w.kind) || hits.isEmpty then s
  else
    let x := s.mint w.src
    hits.foldl (fun s p => s.logAccess p.1 p.2 line w.kind w x.1 refused) x.2

/-! ### Accesses at a home (R35, R40, R58, R91, R104) -/

/-- The stamp of an access names its maker; a write replaces the owner tag (R104, R434). -/
def State.tagWrite (s : State) (line : Nat) (w : Who) : State :=
  let sl := s.sliceNo line
  { s with slices := tput s.slices sl ((tget [] s.slices sl).map (fun x =>
      if x.pa = line then { x with dirty := true, world := w.world, region := w.region, va := w.va } else x)) }

/-- An atomic that writes nothing replaces the owner tag all the same (R104). -/
def State.retag (s : State) (line : Nat) (w : Who) : State :=
  let sl := s.sliceNo line
  { s with slices := tput s.slices sl ((tget [] s.slices sl).map (fun x =>
      if x.pa = line then { x with world := w.world, region := w.region } else x)) }

/-- The first address of a world's translation cache (R407). -/
def cacheBase : Nat := 0x000FFFFFFF000000

/-- Whether a global address lies in the spill rings of a region (R378). -/
def Region.inRings (g : Region) (va : Nat) : Bool :=
  let lo := g.dataVa + g.ringOff
  g.travelling && decide (lo ≤ va ∧ va < lo + g.rings * (64 + 320 * g.ringCap))

/-- A program stores where hardware keeps what only it may write: bytes 0-31 of a pool's lines, spill rings, the translation cache.
What hardware reads there later is undefined (R305, R317, R378, R408, R465). -/
def State.taint (s : State) (w : Who) (pa n : Nat) : State :=
  if n = 0 ∨ (w.kind ≠ 1 ∧ w.kind ≠ 2) then s
  else
    let hit (p : Pool) : Bool := decide (pa % 64 < 32) && p.frames.contains (pa / 65536 * 65536)
    { s with
      pools := s.pools.map (fun q => (q.1, q.2.map (fun p => if hit p then { p with spoilt := true } else p)))
      regions := s.regions.map (fun g =>
        if decide (g.world = w.world) && w.va.any g.inRings then { g with ringSpoilt := true } else g)
      cacheSpoilt := if w.va.any (fun a => decide (cacheBase ≤ a ∧ a < cacheBase + 0xE00000)) then setAdd s.cacheSpoilt w.world
        else s.cacheSpoilt }

/-- READ `n` bytes of one line at its home. -/
def State.homeRead (s : State) (w : Who) (pa n : Nat) : State × Except Cause (List Byte) :=
  let line := lineOf pa
  match s.lineCase w.world line with
  | .other => (s.logAll line w true, .error .prot)
  | .fresh =>
    ((s.glance line w.slot).logAll line w false, .ok (List.replicate n 0))
  | .own =>
    if (s.tag line).poison then (s.logAll line w false, .error .lost)
    else
      let (s1, lost) := s.touchLine line w.slot false
      let s2 : State := s1.logAll line w false
      (s2, if lost then .error .lost else .ok (cellsGet s2.hbm pa n))

/-- WRITE bytes of one line at its home (R40, R58): none of them where the answer is a cause. L1 copies other than that of
`keep` are invalidated (R88). -/
def State.homeWrite (s : State) (w : Who) (keep : Option CoreIx) (pa : Nat) (data : List Byte) : State × Option Cause :=
  let line := lineOf pa
  let whole := decide (data.length = 64)
  match s.lineCase w.world line with
  | .other => (s.logAll line w true, some .prot)
  | .fresh =>
    let s1 : State := ((s.spoil (.glob pa) data.length).touchLine line w.slot true).1
    let s2 : State := (s1.rawStore w.world pa data).tagWrite line w
    (((s2.invalidateL1 line keep).taint w pa data.length).logAll line w false, none)
  | .own =>
    let s : State := s.spoil (.glob pa) data.length
    if (s.tag line).poison && !whole then (s.logAll line w false, some .lost)
    else
      let (s1, lost) := s.touchLine line w.slot whole
      if lost then (s1.logAll line w false, some .lost)
      else
        let s2 : State := s1.setTag line { s1.tag line with sound := true, poison := false }
        let s3 : State := ({ s2 with hbm := cellsPut s2.hbm pa data }).tagWrite line w
        (((s3.invalidateL1 line keep).taint w pa data.length).logAll line w false, none)

/-- Read bytes that may span lines at their homes, `f` lines at most. -/
def State.homeReadAll (s : State) (w : Who) (pa n : Nat) : Nat → State × Except Cause (List Byte)
  | 0 => (s, .ok [])
  | f + 1 =>
    if n = 0 then (s, .ok []) else
    let k := min n (64 - pa % 64)
    match s.homeRead w pa k with
    | (s1, .error c) => (s1, .error c)
    | (s1, .ok b) =>
      match s1.homeReadAll w (pa + k) (n - k) f with
      | (s2, .error c) => (s2, .error c)
      | (s2, .ok r) => (s2, .ok (b ++ r))

/-- Whether word `pa` of a global line is full to a world's eyes (R38, R40). -/
def State.globFull (s : State) (world pa : Nat) : Bool :=
  match s.lineCase world (lineOf pa) with
  | .own => (s.tag (lineOf pa)).fe.getLsbD (pa / 8 % 8)
  | _ => true

/-- Set or clear the full/empty bit of a global word (R38). -/
def State.setGlobFull (s : State) (pa : Nat) (full : Bool) : State :=
  let t := s.tag (lineOf pa)
  let m : BitVec 8 := BitVec.ofNat 8 (2 ^ (pa / 8 % 8))
  s.setTag (lineOf pa) { t with fe := if full then t.fe ||| m else t.fe &&& ~~~m }

/-! ### The remote-data cache (R96-R100) -/

def byteMask (pa n : Nat) : BitVec 64 := BitVec.ofNat 64 ((2 ^ n - 1) * 2 ^ (pa % 64))

/-- The set of a line in a remote-data cache of 16,384 sets (log entry 11). -/
def rdcSet (line : Nat) : Nat := line / 64 % 16384

/-- Send the dirty bytes of a remote-data line to its home, a run of them at a time (R99). A planted uncorrectable error
is detected: the dirty bytes are lost and the home's line is poisoned (R105). -/
def rdcRuns (x : RdcLine) : List (Nat × List Byte) :=
  let step (acc : List (Nat × List Byte)) (i : Nat) : List (Nat × List Byte) :=
    if x.dirty.getLsbD i then
      match acc with
      | (o, b) :: r => if o + b.length = i then (o, b ++ [x.data.getD i 0]) :: r else (i, [x.data.getD i 0]) :: acc
      | [] => [(i, [x.data.getD i 0])]
    else acc
  ((List.range 64).foldl step []).reverse

/-- The maker of a write-back that no request of a program makes, by quarantine or flush. The spec names no agent for it: the model gives
it class 4, the die, unit 0 (log entry 52). -/
def rdcSelf (die way : Nat) (x : RdcLine) : Who :=
  { src := sourceNo 4 (coreIx die 0 0) 0, world := x.world, region := x.region, slot := way, kind := 1, va := x.va }

/-- Send the dirty bytes of a remote-data line to its home. -/
def State.sendDirty (s : State) (w : Who) (x : RdcLine) : State :=
  (rdcRuns x).foldl (fun s p => (s.homeWrite w none (x.pa + p.1) p.2).1) s

/-- The write-back of a remote-data line of a way that is being quarantined: an error planted in a dirty copy is detected and counted;
an uncorrectable one loses its bytes (R105, R106, R436). -/
def State.lastRdcWriteBack (s : State) (die way : Nat) (x : RdcLine) : State :=
  let s1 : State := if x.dirty ≠ 0 ∧ (x.ue || x.ce) then { s with rdcQuars := tmod 0 s.rdcQuars die (fun q => quarCount q (!x.ue)) } else s
  if x.dirty = 0 then s1
  else if x.ue then s1.loseLine die x.pa x.world (some x.region) x.va
  else s1.sendDirty (rdcSelf die way x) x

/-- Take a way of a remote-data cache out of use (R106): its dirty lines are written back, its lines leave. -/
def State.quarantineRdc (s : State) (die way : Nat) : State :=
  let out := s.rdcs.filter (fun x => decide (x.die = die ∧ x.way = way))
  let s1 : State := out.foldl (fun s x => s.lastRdcWriteBack die way x) s
  { s1 with rdcs := s1.rdcs.filter (fun x => decide ¬(x.die = die ∧ x.way = way)),
            rdcQuars := tmod 0 s1.rdcQuars die (fun q => q ||| BitVec.ofNat 64 (2 ^ way)) }

def State.countRdc (s : State) (die way : Nat) (corrected : Bool) : State :=
  let key := (1024 + die) * 16 + way
  let r := wayRecord s.wayErrs key
  let recent := if corrected then s.tc :: r.2.filter (fun t => decide (s.tc < t + 16777216)) else r.2
  let ues := if corrected then r.1 else r.1 + 1
  let s1 : State := { s with rdcQuars := tmod 0 s.rdcQuars die (fun q => quarCount q corrected),
                             wayErrs := setWayRecord s.wayErrs key (ues, recent) }
  if 2 ≤ ues ∨ 64 ≤ recent.length then s1.quarantineRdc die way else s1

/-- Write a remote-data line back and, where `keep` is off, drop it (R98-R100, R105). -/
def State.rdcWriteBack (s : State) (w : Who) (x : RdcLine) (keep : Bool) : State :=
  let rest := s.rdcs.filter (fun y => decide ¬(y.die = x.die ∧ y.pa = x.pa))
  if x.ue = true then
    let s1 : State := { s with rdcs := rest }
    let s2 : State := if x.dirty = 0 then s1 else s1.loseLine x.die x.pa x.world (some x.region) x.va
    s2.countRdc x.die x.way false
  else
    let s1 : State := s.sendDirty { w with world := x.world, region := x.region, va := x.va } x
    let x' : RdcLine := { x with dirty := 0, ce := false }
    let kept : List RdcLine := s1.rdcs.map (fun y => if y.die = x.die ∧ y.pa = x.pa then x' else y)
    let gone : List RdcLine := s1.rdcs.filter (fun y => decide ¬(y.die = x.die ∧ y.pa = x.pa))
    let s2 : State := { s1 with rdcs := if keep then kept else gone }
    if x.ce then s2.countRdc x.die x.way true else s2

/-- A release or acquire of a world at module or system scope on a die (R98): every dirty byte of the world is written
back; an acquire then invalidates the world's lines. -/
def State.rdcSync (s : State) (w : Who) (die : Nat) (acquire : Bool) : State :=
  (s.rdcs.filter (fun x => decide (x.die = die ∧ x.world = w.world))).foldl (fun s x => s.rdcWriteBack w x (!acquire)) s

/-- An access that must meet the home first writes back and invalidates the die's copy of the line (R100). -/
def State.rdcYield (s : State) (w : Who) (die line : Nat) : State :=
  match s.rdcs.find? (fun x => decide (x.die = die ∧ x.pa = line)) with
  | some x => s.rdcWriteBack w x false
  | none => s

/-- The copies of a die in the set of a line. -/
def State.rdcSame (s : State) (die line : Nat) : List RdcLine :=
  s.rdcs.filter (fun x => decide (x.die = die ∧ rdcSet x.pa = rdcSet line))

/-- Whether a fill for a slot number may take a way of a die's remote-data cache (R102, R106). -/
def State.rdcUsable (s : State) (die slot way : Nat) : Bool :=
  !wayOut (tget 0 s.rdcQuars die) way && s.wayOpen die slot way

/-- The lowest-numbered way of a line's set that is invalid and usable. -/
def State.rdcFree (s : State) (die line slot : Nat) : Option Nat :=
  (List.range 16).find? (fun v => s.rdcUsable die slot v && !(s.rdcSame die line).any (fun x => x.way = v))

/-- The copy that a fill evicts when no usable way is invalid. -/
def State.rdcVictim (s : State) (die line slot : Nat) : Option RdcLine :=
  ((s.rdcSame die line).filter (fun x => s.rdcUsable die slot x.way)).getLast?

/-- Make room for a line in a remote-data cache; none where every way open to the slot is quarantined (R102, R107). -/
def State.rdcRoom (s : State) (w : Who) (die line : Nat) : State × Option Nat :=
  match s.rdcFree die line w.slot with
  | some v => (s, some v)
  | none =>
    match s.rdcVictim die line w.slot with
    | some x =>
      let s1 : State := s.rdcWriteBack w x false
      (s1, if wayOut (tget 0 s1.rdcQuars die) x.way then none else some x.way)
    | none => (s, none)

/-- The copy of a line that a die holds for a world; another world's copy is written back first (R96). An error planted in
a clean copy discards it, and one in a dirty copy loses its bytes (R105, R439). The flag says that data were lost. -/
def State.rdcFind (s : State) (w : Who) (die line : Nat) : State × Option RdcLine × Bool :=
  match s.rdcs.find? (fun x => decide (x.die = die ∧ x.pa = line)) with
  | none => (s, none, false)
  | some x =>
    if x.world ≠ w.world then (s.rdcWriteBack w x false, none, false)
    else if x.ue then (s.rdcWriteBack w x false, none, decide (x.dirty ≠ 0))
    else if x.ce then
      let s0 : State := { s with rdcs := s.rdcs.map (fun (y : RdcLine) =>
        if y.die = die ∧ y.pa = line then { y with ce := false } else y) }
      let s1 : State := s0.countRdc die x.way true
      (s1, s1.rdcs.find? (fun y => decide (y.die = die ∧ y.pa = line)), false)
    else (s, some x, false)

/-- Put a copy at the front of the remote-data caches' list, most recently used first. -/
def State.rdcPut (s : State) (x : RdcLine) : State :=
  { s with rdcs := x :: s.rdcs.filter (fun y => decide ¬(y.die = x.die ∧ y.pa = x.pa)) }

/-- Replace the bytes of a line that a mask names. -/
def mergeBytes (old new : List Byte) (m : BitVec 64) : List Byte :=
  (List.range 64).map (fun i => if m.getLsbD i then new.getD i 0 else old.getD i 0)

/-- A read by a die of bytes of a line homed on another die (R96, R97, R449). -/
def State.farRead (s : State) (w : Who) (die pa n : Nat) : State × Except Cause (List Byte) :=
  let line := lineOf pa
  if s.monitored line then s.homeRead w pa n else
  match s.rdcFind w die line with
  | (s1, _, true) => (s1, .error .lost)
  | (s1, found, false) =>
    match found with
    | some x =>
      if x.valid &&& byteMask pa n = byteMask pa n then (s1.rdcPut x, .ok (bytesAt x.data (pa % 64) n))
      else
        match s1.homeRead w line 64 with
        | (s2, .error c) => (s2, .error c)
        | (s2, .ok b) =>
          let x' : RdcLine := { x with data := mergeBytes x.data b (~~~x.dirty), valid := BitVec.allOnes 64 }
          (s2.rdcPut x', .ok (bytesAt x'.data (pa % 64) n))
    | none =>
      match s1.homeRead w line 64 with
      | (s2, .error c) => (s2, .error c)
      | (s2, .ok b) =>
        let (s3, room) := s2.rdcRoom w die line
        let s4 : State := match room with
          | some v => s3.rdcPut { die := die, pa := line, way := v, data := b, valid := BitVec.allOnes 64, dirty := 0,
                                  world := w.world, region := 0xFFFFFF, va := none, ue := false, ce := false }
          | none => s3
        (s4, .ok (bytesAt b (pa % 64) n))

/-- A store by a die to a line homed on another die (R97). -/
def State.farWrite (s : State) (w : Who) (die pa : Nat) (data : List Byte) : State × Option Cause :=
  let line := lineOf pa
  if s.monitored line then s.homeWrite w none pa data else
  match s.rdcFind w die line with
  | (s1, _, true) => (s1, some .lost)
  | (s1, found, false) =>
    let n := data.length
    let m := byteMask pa n
    let place (x : RdcLine) : RdcLine :=
      { x with
        data := mergeBytes x.data (List.replicate (pa % 64) 0 ++ data) m,
        valid := x.valid ||| m, dirty := x.dirty ||| m, world := w.world, region := w.region, va := w.va }
    let s1 : State := s1.spoil (.glob pa) n
    match found with
    | some x => (s1.rdcPut (place x), none)
    | none =>
      match s1.rdcRoom w die line with
      | (s2, some v) =>
        (s2.rdcPut (place { die := die, pa := line, way := v, data := List.replicate 64 0, valid := 0, dirty := 0,
                            world := w.world, region := w.region, va := w.va, ue := false, ce := false }), none)
      | (s2, none) => s2.homeWrite w none pa data

/-! ### What an access waits for (R57, R91, R94, R97-R100) -/

/-- What the write-back of a copy waits for at its home. -/
def State.copyMeet (s : State) (w : Who) (c : CoreIx) (x : RdcLine) : Option (State × Park) :=
  if x.dirty = 0 then none else s.homeMeet w c x.pa true

/-- What an access of a die to a line homed on another waits for: the write-back of another world's copy, the fetch of the line, the
write-back of the copy that its fill evicts. -/
def State.farMeet (s : State) (w : Who) (c : CoreIx) (pa n : Nat) (wr : Bool) : Option (State × Park) :=
  let die := dieOf c
  let line := lineOf pa
  if s.monitored line then s.homeMeet w c pa wr
  else
    let room := if (s.rdcFree die line w.slot).isSome then none else (s.rdcVictim die line w.slot).bind (s.copyMeet w c)
    let fetch := if wr then none else s.homeMeet w c pa false
    match s.rdcs.find? (fun x => decide (x.die = die ∧ x.pa = line)) with
    | some x =>
      if x.world ≠ w.world then (s.copyMeet w c x).or (fetch.or room)
      else if wr || decide (x.valid &&& byteMask pa n = byteMask pa n) then none else fetch
    | none => fetch.or room

/-- What an access of a core to a place waits for; none where it can be made. -/
def State.placeMeet (s : State) (w : Who) (c : CoreIx) (p : Place) (n : Nat) (wr : Bool) : Option (State × Park) :=
  match p with
  | .glob pa => if paDie pa = dieOf c then s.homeMeet w c pa wr else s.farMeet w c pa n wr
  | _ => none

/-- What the write-back of a world's dirty bytes on a die waits for (R98). -/
def State.syncMeet (s : State) (w : Who) (c : CoreIx) (die : Nat) : Option (State × Park) :=
  (s.rdcs.filter (fun x => decide (x.die = die ∧ x.world = w.world))).findSome? (s.copyMeet w c)

/-! ### Local memory and the scale plane (R132) -/

/-- The number of a local word over the module. -/
def locWord (c : CoreIx) (off : Nat) : Nat := c * 4096 + off / 8

/-- Detect an error planted in a local word: the word is poisoned (R132, R436); a corrected one leaves it intact. -/
def State.detectLocal (s : State) (c : CoreIx) (off : Nat) : State :=
  match s.locErr.find? (fun p => p.1 = locWord c off) with
  | some p =>
    let s1 : State := { s with locErr := s.locErr.filter (fun q => q.1 ≠ p.1) }
    if p.2 = 0 then s1.modCore c (fun k => { k with poison := setAdd k.poison (off / 8 * 8) }) else s1
  | none => s

/-- A visit or copy that reaches a gated cluster wakes it (R464). -/
def State.rouse (s : State) (c : CoreIx) : State :=
  if s.gated.contains (clusterOf c) then { s with gated := s.gated.filter (fun k => k ≠ clusterOf c) } else s

/-- READ `n` bytes of local memory, at most four words of them (R132). -/
def State.locRead (s : State) (c : CoreIx) (off n : Nat) : State × Except Cause (List Byte) :=
  let words := (List.range ((off % 8 + n + 7) / 8)).map (fun i => off / 8 * 8 + 8 * i)
  let s1 : State := words.foldl (fun s o => s.detectLocal c o) (s.rouse c)
  if words.any (fun o => (s1.core c).poison.contains o) then (s1, .error .ue) else (s1, .ok (cellsGet (s1.core c).mem off n))

/-- WRITE bytes of local memory: a part of a poisoned word raises UE, a whole word clears its poison (R132). -/
def State.locWrite (s : State) (c : CoreIx) (off : Nat) (data : List Byte) : State × Option Cause :=
  let n := data.length
  let words := (List.range ((off % 8 + n + 7) / 8)).map (fun i => off / 8 * 8 + 8 * i)
  let whole (o : Nat) : Bool := decide (off ≤ o ∧ o + 8 ≤ off + n)
  let s1 : State := words.foldl (fun s o =>
    if whole o then { s with locErr := s.locErr.filter (fun p => p.1 ≠ locWord c o) } else s.detectLocal c o) (s.rouse c)
  if words.any (fun o => (s1.core c).poison.contains o && !whole o) then (s1, some .ue)
  else ((s1.modCore c (fun k => { k with
    mem := cellsPut k.mem off data, poison := k.poison.filter (fun o => !(words.contains o)) })).spoil (.loc c off) n, none)

/-- Whether bytes of the scale plane lie in a poisoned word of it (R132). -/
def State.scaleBad (s : State) (c : CoreIx) (off n : Nat) : Bool :=
  (s.core c).scalePoison.any (fun o => decide (o < off + n ∧ off < o + 8))

/-- READ bytes of the scale plane: of a poisoned word, UE (R132). -/
def State.scaleRead (s : State) (c : CoreIx) (off n : Nat) : Except Cause (List Byte) :=
  if s.scaleBad c off n then .error .ue else .ok (cellsGet (s.core c).scale off n)

/-- WRITE bytes of the scale plane: a part of a poisoned word raises UE, a whole word clears its poison (R132). -/
def State.scaleWrite (s : State) (c : CoreIx) (off : Nat) (data : List Byte) : State × Option Cause :=
  let n := data.length
  let whole (o : Nat) : Bool := decide (off ≤ o ∧ o + 8 ≤ off + n)
  let touched (o : Nat) : Bool := decide (o < off + n ∧ off < o + 8)
  if (s.core c).scalePoison.any (fun o => touched o && !whole o) then (s, some .ue)
  else (((s.rouse c).modCore c (fun k => { k with
    scale := cellsPut k.scale off data, scalePoison := k.scalePoison.filter (fun o => !touched o) })).spoil (.scale c off) n, none)

/-! ### Any place -/

/-- READ bytes within one line at a place, for a core: near lines at their home, far ones through the core's die (R109). -/
def State.readPlace (s : State) (w : Who) (c : CoreIx) (p : Place) (n : Nat) : State × Except Cause (List Byte) :=
  match p with
  | .loc k o => s.locRead k o n
  | .scale k o => (s, s.scaleRead k o n)
  | .glob pa => if paDie pa = dieOf c then s.homeRead w pa n else s.farRead w (dieOf c) pa n

/-- WRITE bytes within one line at a place, for a core. -/
def State.writePlace (s : State) (w : Who) (c : CoreIx) (p : Place) (data : List Byte) : State × Option Cause :=
  match p with
  | .loc k o => s.locWrite k o data
  | .scale k o => s.scaleWrite k o data
  | .glob pa =>
    if paDie pa = dieOf c then s.homeWrite w (some c) pa data else s.farWrite w (dieOf c) pa data

/-- Whether a word at a place is full (R43, R132). -/
def State.wordFull (s : State) (world : Nat) (p : Place) : Bool :=
  match p with
  | .loc c o => !(s.core c).emptyW.contains (o / 8 * 8)
  | .scale _ _ => true
  | .glob pa => s.globFull world pa

/-- Set or clear the full/empty bit of a word at a place. -/
def State.setWordFull (s : State) (p : Place) (full : Bool) : State :=
  match p with
  | .loc c o => s.modCore c (fun k => { k with
      emptyW := if full then k.emptyW.filter (fun x => x ≠ o / 8 * 8) else setAdd k.emptyW (o / 8 * 8) })
  | .scale _ _ => s
  | .glob pa => s.setGlobFull pa full

end Sys2Proof.Machine
end

