-- ==== Sys2Proof/Machine/Operands.lean ====
section
/-!
DEFINITION. Every operand form: the streams of a compute instruction (R138-R149, R238-R245), its entry into the compute
queue and its beats (R187, R188, R244), and the memory operands of the address pipe with forwarding from the store buffer
(R112, R115, R227-R229).
-/

namespace Sys2Proof.Machine

/-! ### Meanings that change state as they go -/

/-- A meaning in parts: each changes the state, and the first that stops decides; what it has changed until then stands
(only detections of errors are changed before the last check). -/
abbrev Run (α : Type) := ExceptT Stop (StateM State) α

def liftE {α : Type} (x : Except Stop α) : Run α := fun s => (x, s)

def stopIf (b : Bool) (st : Stop) : Run Unit := if b then throw st else pure ()

def needR (b : Bool) (c : Cause) (a : Word) : Run Unit := stopIf (!b) (.trap c a)

/-- An access whose cause is reported with an address. -/
def accessR {α : Type} (a : Word) (f : State → State × Except Cause α) : Run α := fun s =>
  match f s with
  | (s1, .ok x) => (.ok x, s1)
  | (s1, .error c) => (.error (.trap c a), s1)

def modifyS (f : State → State) : Run Unit := modify f

/-- Wait where the state says what for (R57, R91): what has been asked of the spillway stands. -/
def waitFor (f : State → Option (State × Park)) : Run Unit := fun s =>
  match f s with
  | some (s1, p) => (.error (.park p), s1)
  | none => (.ok (), s)

/-- Make one change for each element of a list, or none of them: where one fails, only what it detects stands (R149, R244). -/
def wholeOrNone {α : Type} (f : α → Run Unit) (l : List α) : Run Unit := fun s0 =>
  let rec go : List α → State → Except Stop Unit × State
    | [], s => (.ok (), s)
    | x :: rest, s =>
      match (f x) s with
      | (.ok (), s1) => go rest s1
      | (.error e, _) => (.error e, ((f x) s0).2)
  go l s0

/-- Run an address-pipe instruction of the current slot in parts. -/
def issueRun (s : State) (len : Nat) (f : Thread → Run Unit) : Host.Outcome State Fault Refusal :=
  match s.thread? s.cur with
  | none => .fault .emptySlot
  | some t =>
    match (f t) s with
    | (.ok (), s1) => .next s1
    | (.error (.park p), s1) => .next (s1.parkOn s1.cur t p)
    | (.error (.trap c a), s1) => .next (takeFault s1 c a 0 len)

/-! ### Streams of elements (R139, R145, R148) -/

/-- Which of the three operands of a V or X word. -/
inductive Role where
  | d | a | b
  deriving DecidableEq, Repr

/-- What supplies or takes the elements of an operand: a shape; a ring with its index of the first slot and the number of
slots; a mesh port. -/
inductive OpKind where
  | shape (sh : Shape)
  | ring (h : Handle) (start n : Nat)
  | port (p : Port)
  deriving DecidableEq, Repr

/-- An operand as a compute instruction sees it: `code` is the window that decodes it, `glob` says that its base lies in
the global window (decoded as the form states). -/
structure OpView where
  kind : OpKind
  code : Nat
  glob : Bool
  deriving DecidableEq, Repr

/-- Half bytes of an element of a window (R139). -/
def nibs (code : Nat) : Nat :=
  if code = 0xF1 ∨ code = 0xF6 then 8 else if code = 0xF2 then 4 else if code = 0xF4 then 1 else 2

/-- Extent k of a shape (R147). -/
def Shape.ext (sh : Shape) (k : Nat) : Nat := bitsOf sh.w1 (16 * k + 15) (16 * k)

/-- Stride k of a shape, signed, in elements; dimension 0 has stride 1 (R147). -/
def Shape.stride (sh : Shape) (k : Nat) : Int :=
  let s32 (n : Nat) : Int := (BitVec.ofNat 32 n).toInt
  match k with
  | 0 => 1
  | 1 => s32 (bitsOf sh.w2 31 0)
  | 2 => s32 (bitsOf sh.w2 63 32)
  | _ => s32 (bitsOf sh.w3 63 32)

/-- An index into a walk: its four coordinates, its number in walk order, its lane in the beat. -/
structure Lane where
  i0 : Nat
  i1 : Nat
  i2 : Nat
  i3 : Nat
  j  : Nat
  lane : Nat
  deriving DecidableEq, Repr

/-- The element number of an index in a shape's stream (R148). -/
def Shape.elem (sh : Shape) (l : Lane) : Int :=
  l.i0 + l.i1 * sh.stride 1 + l.i2 * sh.stride 2 + l.i3 * sh.stride 3

/-- Fields of a handle (R142). -/
def Handle.window (h : Handle) : Nat := bitsOf h.w0 63 56
def Handle.size (h : Handle) : Nat := bitsOf h.w0 55 40
def Handle.count (h : Handle) : Nat := bitsOf h.w0 39 32
def Handle.broken (h : Handle) : Bool := bitOf h.w0 31
def Handle.loader (h : Handle) : Bool := bitOf h.w0 30
def Handle.storer (h : Handle) : Bool := bitOf h.w0 29
def Handle.base (h : Handle) : Nat := bitsOf h.w0 14 0
def Handle.prod (h : Handle) : Nat := bitsOf h.w1 63 32
def Handle.cons (h : Handle) : Nat := bitsOf h.w1 31 0

/-- Filled slots of a ring: P - C modulo 2^32 (R143). -/
def Handle.filled (h : Handle) : Nat := (h.prod + 2 ^ 32 - h.cons) % 2 ^ 32

/-- Free slots of a ring (R143). -/
def Handle.free (h : Handle) : Nat := h.count - h.filled

def Handle.setProd (h : Handle) (p : Nat) : Handle := { h with w1 := BitVec.ofNat 64 (p % 2 ^ 32 * 2 ^ 32 + h.cons) }
def Handle.setCons (h : Handle) (c : Nat) : Handle := { h with w1 := BitVec.ofNat 64 (h.prod * 2 ^ 32 + c % 2 ^ 32) }

/-- Where an element lies: a local byte, with the upper nibble meant or not; a global address; a lane of a port's beat. -/
inductive ELoc where
  | loc (c : CoreIx) (off : Nat) (upper : Bool)
  | glob (va : Word)
  | port (p : Port) (lane : Nat)
  deriving DecidableEq, Repr

/-- Bytes of an element; a BX4 element counts as the byte that holds it (R135). -/
def elemBytes (code : Nat) : Nat := max 1 (nibs code / 2)

/-- A local address again, for a fault message. -/
def locAddr (code : Nat) (c : CoreIx) (off : Nat) : Word := BitVec.ofNat 64 (code * 2 ^ 56 + c % 128 * 2 ^ 16 + off)

/-- Where element `k` of an operand's stream lies (R139, R145, R148); an offset outside local memory, and a ring's stream
that is too short, raise WIN. -/
def OpView.locate (v : OpView) (r : SlotRef) (k : Int) (lane : Nat) : Except Stop ELoc :=
  match v.kind with
  | .shape sh =>
    if v.glob then
      let va := sh.w0 + BitVec.ofInt 64 (k * elemBytes v.code)
      if windowOf va = 0 ∧ wellFormed va (elemBytes v.code) then .ok (.glob va) else .error (.trap .win va)
    else
      let q : Int := 2 * (bitsOf sh.w0 14 0 : Nat) + k * nibs v.code
      if q < 0 ∨ 65536 < q + nibs v.code then .error (.trap .win sh.w0)
      else .ok (.loc (r.core / 128 * 128 + bitsOf sh.w0 22 16) (q.toNat / 2) (decide (q.toNat % 2 = 1)))
  | .ring h start n =>
    let q := k.toNat * nibs v.code
    if n * h.size * 2 < q + nibs v.code then .error (.trap .win h.w0)
    else
      let pos := (start + q / 2 / h.size) % 2 ^ 32 % h.count
      .ok (.loc r.core (h.base + pos * h.size + q / 2 % h.size) (decide (q % 2 = 1)))
  | .port p => .ok (.port p lane)

/-- Where the element of an operand for an index of the walk lies. -/
def OpView.at (v : OpView) (r : SlotRef) (l : Lane) : Except Stop ELoc :=
  match v.kind with
  | .shape sh => v.locate r (sh.elem l) l.lane
  | _ => v.locate r l.j l.lane

/-- The block of a BX element at a byte offset: its first offset, its length in bytes, and the scale offset of its pair (R140). -/
def blockOf (code off : Nat) : Nat × Nat × Nat :=
  let n := if code = 0xF3 then 32 else 16
  let b := off / n * n
  (b, n, b / 16 * 2)

def isBx (code : Nat) : Bool := decide (code = 0xF3 ∨ code = 0xF4)

/-- Check one element of an operand (R135, R141, R245, R47): dikes, or translation and permissions. -/
def checkElem (s : State) (r : SlotRef) (t : Thread) (code : Nat) (wr : Bool) (e : ELoc) : Except Stop Unit :=
  match e with
  | .loc c off _ =>
    let span := if isBx code then ((blockOf code off).1, (blockOf code off).2.1) else (off, elemBytes code)
    need (dikeFits s r.slot t.world (.loc c span.1) span.2) .dike (locAddr code c off)
  | .glob va => do
    let pa ← translate s r t va (!wr) wr
    need (decide (pa < 2 ^ 40)) .prot va
  | .port _ _ => .ok ()

/-- An element as read: its bits, its exact value, its value as an integer. -/
structure EVal where
  bits : Nat
  val  : FV
  int  : Int
  deriving DecidableEq, Repr

/-- Decode an element's bits by its window (R150-R156, R138). -/
def decodeElem (code bits : Nat) (pair : Nat × Nat) : EVal :=
  if code = 0xF1 then { bits := bits, val := decodeF32 (BitVec.ofNat 32 bits), int := 0 }
  else if code = 0xF2 then { bits := bits, val := decodeW16 (BitVec.ofNat 16 bits), int := 0 }
  else if code = 0xF3 then { bits := bits, val := bxDecode true bits pair.1 pair.2, int := 0 }
  else if code = 0xF4 then { bits := bits, val := bxDecode false bits pair.1 pair.2, int := 0 }
  else if code = 0xF5 then
    let i := (BitVec.ofNat 8 bits).toInt
    { bits := bits, val := FV.ofInt i, int := i }
  else if code = 0xF6 then
    let i := (BitVec.ofNat 32 bits).toInt
    { bits := bits, val := FV.ofInt i, int := i }
  else { bits := bits, val := FV.ofInt bits, int := bits }

/-- Encode a value into a window by a rounding mode (R158-R160): the bits and the flags. -/
def encodeElem (code : Nat) (rm : Rm) (v : FV) (pair : Nat × Nat) : Nat × FFlags :=
  if code = 0xF1 then let r := encodeF32 rm v; (r.1.toNat, r.2)
  else if code = 0xF2 then let r := encodeW16 rm v; (r.1.toNat, r.2)
  else if code = 0xF3 then bxEncode true rm v pair.1 pair.2
  else if code = 0xF4 then bxEncode false rm v pair.1 pair.2
  else if code = 0xF5 then let r := fvToInt rm (-128) 127 v; ((BitVec.ofInt 8 r.1).toNat, r.2)
  else if code = 0xF6 then let r := fvToInt rm (-2147483648) 2147483647 v; ((BitVec.ofInt 32 r.1).toNat, r.2)
  else let r := fvToInt rm 0 255 v; ((BitVec.ofInt 8 r.1).toNat, r.2)

/-- Convert a value into a window: a signalling NaN sets invalid (R151, log entry 12). -/
def convertElem (code : Nat) (rm : Rm) (v : FV) (pair : Nat × Nat) : Nat × FFlags :=
  let r := encodeElem code rm v pair
  (r.1, r.2 ||| flagNV v.isSnan)

/-- A buffer entry's bytes, if it holds any (R111). -/
def StoreOp.bytes? : StoreOp → Option (List Byte)
  | .bytes b => some b
  | .put v => some (natLe v.toNat 8)
  | .fill v => some (natLe v.toNat 8)
  | _ => none

/-- Whether a store-buffer entry of the slot names some of the bytes. -/
def State.buffered (s : State) (r : SlotRef) (p : Place) (n : Nat) : Bool :=
  (s.core r.core).buf.any (fun e => decide (e.slot = r.slot) && overlaps p n e.place e.n)

/-- A compute read of `n` bytes that the slot's own store buffer still holds is a hazard (R115): their value is free, or HAZARD where
the region's detector is on (R433). Other bytes are read by `f`. -/
def readPast (r : SlotRef) (t : Thread) (a : Word) (p : Place) (n : Nat) (f : State → State × Except Cause (List Byte)) : Run (List Byte) := do
  let s ← get
  if s.buffered r p n then
    let hz := match s.region? t.region with | some g => g.hazard | none => false
    if hz then throw (.trap .hazard a)
    let x := s.freshBytes n n
    set x.2
    return x.1
  accessR a f

/-- The exponent pair of the block of a BX element, from the scale plane (R132, R140). -/
def pairR (r : SlotRef) (t : Thread) (code : Nat) (e : ELoc) : Run (Nat × Nat) := do
  match e with
  | .loc c off _ =>
    if isBx code then
      let p := (blockOf code off).2.2
      let b ← readPast r t (locAddr code c off) (.scale c p) 2 (fun s => (s, s.scaleRead c p 2))
      return ((b.getD 0 0).toNat, (b.getD 1 0).toNat)
    else return (0, 0)
  | _ => return (0, 0)

/-- Read the bits of an element (R115, R132, R245). -/
def readElem (r : SlotRef) (t : Thread) (code : Nat) (words : List Word) (e : ELoc) : Run EVal := do
  let s ← get
  match e with
  | .loc c off upper =>
    let b ← readPast r t (locAddr code c off) (.loc c off) (elemBytes code) (fun s => s.locRead c off (elemBytes code))
    let bits := if code = 0xF4 then (if upper then leNat b / 16 else leNat b % 16) else leNat b
    return decodeElem code bits (← pairR r t code e)
  | .glob va =>
    let pa ← liftE (translate s r t va true false)
    modifyS (fun s => s.usedTlb r t va)
    let b ← readPast r t va (.glob pa) (elemBytes code) (fun s => s.readPlace (slotWho r t 0 va) r.core (.glob pa) (elemBytes code))
    return decodeElem code (leNat b) (0, 0)
  | .port _ lane =>
    let all := words.foldr (fun w acc => w.toNat + 2 ^ 64 * acc) 0
    return decodeElem code (all / 2 ^ (4 * nibs code * lane) % 2 ^ (4 * nibs code)) (0, 0)

/-- Write the bits of an element at its place. -/
def writeElem (r : SlotRef) (t : Thread) (code bits : Nat) (e : ELoc) : Run Unit := do
  match e with
  | .loc c off upper =>
    let s ← get
    let old := (cellGet (s.core c).mem off).toNat
    let data := if code = 0xF4 then [BitVec.ofNat 8 (if upper then bits * 16 + old % 16 else old / 16 * 16 + bits)]
      else natLe bits (elemBytes code)
    accessR (locAddr code c off) (fun s =>
      match s.locWrite c off data with
      | (s1, none) => (s1, .ok ())
      | (s1, some k) => (s1, .error k))
  | .glob va =>
    let pa ← liftE (translate (← get) r t va false true)
    modifyS (fun s => s.usedTlb r t va)
    accessR va (fun s =>
      match s.writePlace (slotWho r t 1 va) r.core (.glob pa) (natLe bits (elemBytes code)) with
      | (s1, none) => (s1, .ok ())
      | (s1, some k) => (s1, .error k))
  | .port _ _ => return ()

/-! ### Operands of a queue entry (R142-R147, R238-R242) -/

/-- The copy of a shape that an entry took for an operand (R187). -/
def QEntry.shapeOf (e : QEntry) : Role → Option Shape
  | .d => e.opD
  | .a => e.opA
  | .b => e.opB

/-- An operand as the entry sees it, with what each kind raises (R145, R148, R181, R238, R242). `gcode` is the window in
which the form decodes a global operand; `pcode` is the window of the iteration operand, for a port (R238). -/
def viewOf (r : SlotRef) (t : Thread) (e : QEntry) (role : Role) (dest : Bool) (w : Nat) (gcode pcode : Nat)
    (op : VOp) : Except Stop OpView :=
  match op with
  | .s _ =>
    match e.shapeOf role with
    | none => .error (.trap .win 0)
    | some sh =>
      let c := windowOf sh.w0
      if bitsOf sh.w3 31 0 ≠ 0 then .error (.trap .win sh.w0)
      else if c = 0 then
        if fieldsZero sh.w0 then .ok { kind := .shape sh, code := gcode, glob := true } else .error (.trap .win sh.w0)
      else if isLocalWindow c && fieldsZero sh.w0 then .ok { kind := .shape sh, code := c, glob := false }
      else .error (.trap .win sh.w0)
  | .h n =>
    let h := t.handles[n]
    if h.count = 0 then .error (.trap .win h.w0)
    else if h.broken then .error (.trap .scaleseq h.w0)
    else if (dest && h.loader) || (!dest && h.storer) then .error (.trap .prot h.w0)
    else .ok { kind := .ring h (if dest then h.prod else h.cons) (w + 1), code := h.window, glob := false }
  | .port p =>
    if (neighbour r.core p).isNone then .error (.trap .regn 0)
    else .ok { kind := .port p, code := pcode, glob := false }

/-- The iteration operand among operands in the order d, a, b: the first shape, else the first handle (R239). -/
def iterationOf (ops : List (Role × Bool × VOp)) : Option (Role × Bool × VOp) :=
  match ops.find? (fun o => o.2.2.isShape) with
  | some o => some o
  | none => ops.find? (fun o => o.2.2.isHandle)

/-- The walk of a compute instruction (R149, R240): its extents and the lanes of a beat. -/
structure Walk where
  e0 : Nat
  e1 : Nat
  e2 : Nat
  e3 : Nat
  lanes : Nat
  deriving DecidableEq, Repr

/-- The beats of one run of dimension 0. -/
def Walk.perRun (k : Walk) : Nat := (k.e0 + k.lanes - 1) / k.lanes

/-- The beats of a walk (R149). -/
def Walk.beats (k : Walk) : Nat := if k.e0 = 0 then 0 else k.perRun * k.e1 * k.e2 * k.e3

/-- The elements of a walk. -/
def Walk.size (k : Walk) : Nat := k.e0 * k.e1 * k.e2 * k.e3

/-- The unmasked lanes of a beat (R149). -/
def Walk.beat (k : Walk) (b : Nat) : List Lane :=
  let run := b / k.perRun
  let first := b % k.perRun * k.lanes
  (List.range (min k.lanes (k.e0 - first))).map (fun l =>
    { i0 := first + l, i1 := run % k.e1, i2 := run / k.e1 % k.e2, i3 := run / k.e1 / k.e2,
      j := run * k.e0 + first + l, lane := l })

/-- The four extents that an operand gives a walk (R239): a shape's own; for a handle, one dimension of its elements. -/
def OpView.extents (v : OpView) : Nat × Nat × Nat × Nat :=
  match v.kind with
  | .shape sh => (sh.ext 0, sh.ext 1, sh.ext 2, sh.ext 3)
  | .ring h _ n => (n * h.size * 2 / nibs v.code, 1, 1, 1)
  | .port _ => (0, 0, 0, 0)

/-- The elements that a handle's stream holds. -/
def OpView.streamLen (v : OpView) : Option Nat :=
  match v.kind with
  | .ring h _ n => some (n * h.size * 2 / nibs v.code)
  | _ => none

/-- Whether an operand fits a walk of the given extents (R239): a shape has them, a handle's stream is long enough. -/
def OpView.fits (v : OpView) (x : Nat × Nat × Nat × Nat) : Bool :=
  match v.kind with
  | .shape _ => decide (v.extents = x)
  | .ring _ _ _ => decide (x.1 * x.2.1 * x.2.2.1 * x.2.2.2 ≤ v.streamLen.getD 0)
  | .port _ => true

/-- Whether an operand's base is aligned for its window (R139). -/
def OpView.aligned (v : OpView) : Bool :=
  match v.kind with
  | .shape sh => decide (sh.w0.toNat % elemBytes v.code = 0)
  | .ring h _ _ => decide (h.base % elemBytes v.code = 0)
  | .port _ => true

def OpView.addr (v : OpView) : Word :=
  match v.kind with
  | .shape sh => sh.w0
  | .ring h _ _ => h.w0
  | .port _ => 0

/-- The waits of an entry's handle operands (R145, R242): each is a source with P - C filled slots, or a destination with
free ones. A handle that raises a fault instead waits for nothing. -/
def waitsMet (t : Thread) (ops : List (Role × Bool × VOp)) (w : Nat) : Bool :=
  ops.all (fun o => match o.2.2 with
    | .h n =>
      let h := t.handles[n]
      decide (h.count = 0) || h.broken || (if o.2.1 then h.loader || decide (w + 1 ≤ h.free) else h.storer || decide (w + 1 ≤ h.filled))
    | _ => true)

/-- The port words that a beat of `n` elements takes or gives (R241). -/
def portWords (code n : Nat) : Nat := (n * nibs code * 4 + 63) / 64

/-- The words that a beat of `n` elements takes from a port through some views (R241). -/
def takenFrom (p : Port) (vs : List OpView) (n : Nat) : Nat :=
  (vs.map (fun v => if v.kind = .port p then portWords v.code n else 0)).sum

/-- The ports of a beat's sources, and with `true` that of its destination. -/
def beatPorts (dest : Option OpView) (srcs : List OpView) : List (Port × Bool) :=
  srcs.filterMap (fun v => match v.kind with | .port p => some (p, false) | _ => none)
    ++ dest.toList.filterMap (fun v => match v.kind with | .port p => some (p, true) | _ => none)

/-- Whether the port sources of a beat hold all its words, its port destination has room for them (R241), and it is the beat's turn at
each (R181). -/
def portsReady (s : State) (r : SlotRef) (e : QEntry) (dest : Option OpView) (srcs : List OpView) (n : Nat) : Bool :=
  (beatPorts dest srcs).all (fun x =>
    s.portTurn r.core x.1 x.2 ((e.ports.map (fun w => w.1)).getD s.stamp) &&
      (if x.2 then dest.all (fun v => decide ((s.portOut r.core x.1).length + portWords v.code n ≤ 4))
        else decide (takenFrom x.1 srcs n ≤ (s.portIn r.core x.1).length)))

/-- Wait until the ports of a beat are ready; the entry keeps the stamp since which it waits (R181, R241). -/
def waitPorts (r : SlotRef) (e : QEntry) (dest : Option OpView) (srcs : List OpView) (n : Nat) : Run Unit := do
  let s ← get
  if !portsReady s r e dest srcs n then
    let w := ((e.ports.map (fun w => w.1)).getD s.stamp, beatPorts dest srcs)
    modifyS (fun s => s.modThread r (fun t => { t with cq := match t.cq with
      | x :: rest => { x with ports := some w } :: rest
      | [] => [] }))
    throw (.park .computeQueue)

/-- Take words out of the front of an inbound port. -/
def State.takeWords (s : State) (c : CoreIx) (p : Port) (n : Nat) : State :=
  s.modCore c (fun k => { k with portsIn := k.portsIn.set (portIx p) ((k.portsIn[portIx p]).drop n) })

/-- Pack the elements of a beat into port words (R241). -/
def packWords (code : Nat) (els : List Nat) : List Word :=
  let all := els.foldr (fun x acc => x + 2 ^ (4 * nibs code) * acc) 0
  (List.range (portWords code els.length)).map (fun i => BitVec.ofNat 64 (all / 2 ^ (64 * i)))

/-! ### Entry and retirement (R187, R233, R244) -/

/-- Whether an operand makes the instruction address-serialising: its base lies in the global window (R187). -/
def serialOp (t : Thread) (op : VOp) : Bool :=
  match op with
  | .s n => decide (windowOf (t.shapes[n]).w0 = 0)
  | _ => false

def shapeAt (t : Thread) (op : Option VOp) : Option Shape :=
  match op with
  | some (.s n) => some t.shapes[n]
  | _ => none

/-- A compute instruction ENTERS the queue of its slot (R187): it copies the shapes and handles that it names. A full queue
holds the slot. -/
def enterQueue (s : State) (i : Instr) (d a b : Option VOp) (heavy : Bool) : Host.Outcome State Fault Refusal :=
  issue s fun t =>
    if 16 ≤ t.cq.length then .error (.park .computeRoom)
    else
      let ops := d.toList ++ a.toList ++ b.toList
      let e : QEntry :=
        { instr := i, pc := t.pc, opD := shapeAt t d, opA := shapeAt t a, opB := shapeAt t b,
          hands := ops.filterMap (fun o => match o with | .h n => some (n.val, t.handles[n]) | _ => none),
          serial := (match i with | .unf .. => false | _ => ops.any (serialOp t)), beats := 0, carry := 0, waited := false, arrived := false, heavy := heavy,
          kept := [], stamp := s.stamp, since := 0, ports := none }
      .ok (s.setThread s.cur { t.advance 4 with cq := (t.advance 4).cq ++ [e] })

/-- What a beat leaves of its entry: the entry with its new progress, or nothing once it has retired. -/
inductive BeatEnd where
  | more (e : QEntry)
  | done
  deriving DecidableEq, Repr

/-- Record a beat's end: progress in the entry, or the entry leaves the queue (R244). -/
def endBeat (t : Thread) : BeatEnd → Thread
  | .more e => { t with cq := e :: t.cq.tail }
  | .done => { t with cq := t.cq.tail }

/-- When a compute instruction retires, the store-buffer entries that follow it have one less to wait for (R115). -/
def State.retireBefore (s : State) (r : SlotRef) : BeatEnd → State
  | .more _ => s
  | .done => (if (s.core r.core).buf.isEmpty then s else s.laterOnce .storePerformed { core := r.core }).modCore r.core (fun k => { k with
      buf := k.buf.map (fun e => if e.slot = r.slot then { e with older := e.older - 1 } else e) })

/-- A precise fault of an address-serialising compute instruction (R187, R188): its beats that retired stand, and it
resumes from its recorded progress. -/
def takeSerial (s : State) (r : SlotRef) (c : Cause) (addr : Word) (e : QEntry) : State :=
  match s.thread? r with
  | none => s
  | some t =>
    haltThread s r { cause := c, imprecise := false, debugger := false, page := none } 0 e.pc addr t.pc t.skip 0 e.beats

/-- A thread whose compute instruction tries its beat again: what the beat waited for at a home is over (R57, R91). -/
def Thread.waitOver (t : Thread) : Thread :=
  match t.parked with
  | some (.frame _) => { t with parked := none }
  | some (.fill _ _) => { t with parked := none }
  | _ => t

/-- One BEAT of the compute instruction at the head of the current slot's queue (R187, R188, R244). A beat that waits
leaves the state as it was; a walk or a fault record parks an address-serialising entry's slot. -/
def runBeat (s : State) (body : Thread → QEntry → Run BeatEnd) : Host.Outcome State Fault Refusal :=
  match s.thread? s.cur with
  | none => .fault .emptySlot
  | some t =>
    match t.cq with
    | [] => .next s
    | e :: _ =>
      let s : State := s.modThread s.cur Thread.waitOver
      match (body t e) s with
      | (.ok be, s1) => .next ((s1.modThread s.cur (fun u => endBeat u be)).retireBefore s.cur be)
      | (.error (.park (.walk w p)), s1) => .next (s1.parkOn s.cur ((s1.thread? s.cur).getD t) (.walk w p))
      | (.error (.park (.frame f)), s1) => .next (s1.parkOn s.cur ((s1.thread? s.cur).getD t) (.frame f))
      | (.error (.park (.fill l st)), s1) => .next (s1.parkOn s.cur ((s1.thread? s.cur).getD t) (.fill l st))
      | (.error (.park _), s1) => .next s1
      | (.error (.trap c a), s1) => .next (if e.serial then takeSerial s1 s.cur c a e else takeImprecise s1 s.cur c a e)

/-- A compute instruction: it enters the queue on the address pipe, and runs a beat on the compute pipe. -/
def computeForm (s : State) (i : Instr) (d a b : Option VOp) (heavy : Bool) (body : Thread → QEntry → Run BeatEnd) :
    Host.Outcome State Fault Refusal :=
  match s.pipe with
  | .address => enterQueue s i d a b heavy
  | .compute => runBeat s body

/-- OR flags into the fflags of the slot as a beat retires (R173). -/
def orFlagsR (r : SlotRef) (f : FFlags) : Run Unit := modifyS (fun s => s.modThread r (fun t => t.orFlags f))

/-! ### The elementwise engine (R238-R246) -/

/-- What a lane of a beat produces: bits as they are, a value to be converted, or nothing. -/
inductive Out where
  | bits (b : Nat)
  | val (v : FV)
  | skip
  deriving DecidableEq, Repr

/-- Raise ALIGN for the first operand whose base is misaligned (R139, R245). -/
def alignAll (views : List OpView) : Except Stop Unit :=
  match views.find? (fun v => !v.aligned) with
  | some v => .error (.trap .align v.addr)
  | none => .ok ()

/-- The operands of a walking instruction after its checks: views in the order of the list, the walk. -/
structure Plan where
  views : List OpView
  walk  : Walk
  deriving DecidableEq, Repr

/-- Build the views and the walk of an instruction that an operand defines, and check them (R238-R240, R245): reserved windows and unbound
handles, extents that do not match, windows the form does not accept. A walk without a beat raises ALIGN here, another at its beat. -/
def planBy (it : Role × Bool × VOp) (r : SlotRef) (t : Thread) (e : QEntry) (ops : List (Role × Bool × VOp)) (w gcode : Nat)
    (accept : List OpView → Bool) : Except Stop Plan := do
  let vi ← viewOf r t e it.1 it.2.1 w gcode 0 it.2.2
  let views ← ops.mapM (fun o => viewOf r t e o.1 o.2.1 w gcode vi.code o.2.2)
  let x := vi.extents
  need (views.all (fun v => v.fits x)) .win vi.addr
  need (accept views) .win vi.addr
  let widest := views.foldl (fun m v => max m (nibs v.code)) 1
  let walk : Walk := { e0 := x.1, e1 := x.2.1, e2 := x.2.2.1, e3 := x.2.2.2, lanes := 64 / widest }
  if walk.beats = 0 then alignAll views
  return { views := views, walk := walk }

/-- The plan of an instruction whose iteration operand is the one of R239. -/
def planOf (r : SlotRef) (t : Thread) (e : QEntry) (ops : List (Role × Bool × VOp)) (w gcode : Nat)
    (accept : List OpView → Bool) : Except Stop Plan :=
  match iterationOf ops with
  | none => .error (.trap .win 0)
  | some it => planBy it r t e ops w gcode accept

/-- Wait for the handles of an entry before its first beat (R242). The wait of a source is an acquire of what filled the handle: at
module scope where the subscription reached another die (R120, R121). -/
def waitHandles (r : SlotRef) (t : Thread) (e : QEntry) (ops : List (Role × Bool × VOp)) (w : Nat) : Run Unit := do
  stopIf (!e.waited && !waitsMet t ops w) (.park .computeQueue)
  let far := ops.any (fun o => !o.2.1 && (match o.2.2 with | .h n => t.farHandles.getLsbD n.val | _ => false))
  if !e.waited && far then
    waitFor (fun s => s.syncMeet (slotWho r t 1 0) r.core (dieOf r.core))
    modifyS (fun s => s.rdcSync (slotWho r t 1 0) (dieOf r.core) true)

/-- Read one operand over the lanes of a beat. `before` are the sources read before it: a port named again gives its next words
(R241, log entry 10). -/
def readOperand (r : SlotRef) (t : Thread) (before : List OpView) (v : OpView) (locs : List ELoc) : Run (List EVal) := do
  let s ← get
  let words := match v.kind with
    | .port p => ((s.portIn r.core p).drop (takenFrom p before locs.length)).take (portWords v.code locs.length)
    | _ => []
  locs.mapM (fun e => readElem r t v.code words e)

/-- Read the sources of a beat in their order. -/
def readSources (r : SlotRef) (t : Thread) (before : List OpView) : List (OpView × List ELoc) → Run (List (List EVal))
  | [] => return []
  | p :: rest => do
    let x ← readOperand r t before p.1 p.2
    let xs ← readSources r t (before ++ [p.1]) rest
    return x :: xs

/-- Convert and write the results of a beat into a destination, all of them or none (R244); the flags they set. -/
def writeOuts (r : SlotRef) (t : Thread) (rm : Rm) (v : OpView) (locs : List ELoc) (outs : List Out) : Run FFlags := do
  let coded ← (locs.zip outs).mapM (fun (p : ELoc × Out) => match p.2 with
    | .bits b => (return (p.1, some b, (0 : FFlags)) : Run (ELoc × Option Nat × FFlags))
    | .val x => do
      let c := encodeElem v.code rm x (← pairR r t v.code p.1)
      return (p.1, some c.1, c.2)
    | .skip => return (p.1, none, 0))
  wholeOrNone (fun c => writeElem r t v.code c.2 c.1) (coded.filterMap (fun c => c.2.1.map (fun b => (c.1, b))))
  match v.kind with
  | .port p =>
    let words := packWords v.code (coded.map (fun c => c.2.1.getD 0))
    modifyS (fun s => words.foldl (fun s w => s.givePort r.core p w) s)
  | _ => pure ()
  return coded.foldl (fun f c => f ||| c.2.2) 0

/-- What a beat waits for at the homes of the global bytes that it touches (R57, R91). -/
def beatMeet (r : SlotRef) (t : Thread) (ps : List (OpView × Bool × List ELoc)) (s : State) : Option (State × Park) :=
  ps.findSome? (fun p => p.2.2.findSome? (fun e => match e with
    | .glob va => (match translate s r t va (!p.2.1) p.2.1 with
      | .ok pa => s.placeMeet (slotWho r t 0 va) r.core (.glob pa) (elemBytes p.1.code) p.2.1
      | .error _ => none)
    | _ => none))

/-- The places of the elements of a beat's operands, each with whether it is written and its lanes, after the checks of R26 over all of them:
windows, alignment (`also` among it), then dikes or translation (R149, R245). -/
def beatPlaces (r : SlotRef) (t : Thread) (vs : List (OpView × Bool × List Lane)) (also : Except Stop Unit := .ok ()) :
    Run (List (List ELoc)) := do
  let s ← get
  let ls ← liftE (vs.mapM (fun v => v.2.2.mapM (fun l => v.1.at r l)))
  liftE (alignAll (vs.map (fun v => v.1)))
  liftE also
  liftE ((vs.zip ls).forM (fun p => p.2.forM (fun e => checkElem s r t p.1.1.code p.1.2.1 e)))
  waitFor (beatMeet r t ((vs.zip ls).map (fun p => (p.1.1, p.1.2.1, p.2))))
  return ls

/-- Take the words that a beat has read from its port sources (R241). -/
def takePortWords (r : SlotRef) (views : List OpView) (n : Nat) : Run Unit :=
  views.forM (fun v => match v.kind with
    | .port p => modifyS (fun s => s.takeWords r.core p (portWords v.code n))
    | _ => pure ())

/-- One beat of a form that walks d and its sources together. `srcs` are its sources in the order a, b; `readsD` says that d
is read as a source too, last. `f` gives the results of the beat's lanes, with flags, from the values of each source, and
the carry that the beat leaves (R244). -/
def walking (r : SlotRef) (t : Thread) (e : QEntry) (d : VOp) (srcs : List (Role × VOp)) (w : Nat) (rm : Rm)
    (readsD : Bool) (accept : OpView → List OpView → Bool)
    (f : OpView → List OpView → List Lane → List (List EVal) → List (Out × FFlags) × Word) : Run BeatEnd := do
  let ops : List (Role × Bool × VOp) := (.d, true, d) :: srcs.map (fun o => (o.1, false, o.2))
  let plan ← liftE (planOf r t e ops w 0xF1 (fun vs => match vs with
    | v :: rest => accept v rest
    | [] => false))
  if plan.walk.beats = 0 then return .done
  waitHandles r t e ops w
  match plan.views with
  | [] => return .done
  | vd :: vs =>
    let lanes := plan.walk.beat e.beats
    let srcs := if readsD then vs ++ [vd] else vs
    let places ← beatPlaces r t ((plan.views.zip (ops.map (fun o => o.2.1))).map (fun v => (v.1, v.2, lanes)))
    let ld := places.headD []
    waitPorts r e (some vd) srcs lanes.length
    let vals ← readSources r t [] (srcs.zip (places.tail ++ [ld]))
    let outs := f vd vs lanes vals
    let fl ← writeOuts r t rm vd ld (outs.1.map (fun o => o.1))
    takePortWords r srcs lanes.length
    orFlagsR r (outs.1.foldl (fun g o => g ||| o.2) fl)
    if e.beats + 1 = plan.walk.beats then return .done
    else return .more { e with beats := e.beats + 1, waited := true, carry := outs.2, ports := none }

/-- One beat of an elementwise form: lanes do not depend on each other, and nothing is carried over. -/
def elementwise (r : SlotRef) (t : Thread) (e : QEntry) (d : VOp) (srcs : List (Role × VOp)) (w : Nat) (rm : Rm)
    (readsD : Bool) (accept : OpView → List OpView → Bool)
    (f : OpView → List OpView → List (List EVal) → List (Out × FFlags)) : Run BeatEnd :=
  walking r t e d srcs w rm readsD accept (fun vd vs _ vals => (f vd vs vals, 0))

/-! ### The bytes that an unretired compute instruction names (R115, R433) -/

/-- The operands of a compute instruction: role, whether it is written, the operand, and its wait count. -/
def operandsOf : Instr → List (Role × Bool × VOp) × Nat
  | .vadd d a b w _ | .vsub d a b w _ | .vmul d a b w _ | .vmin d a b w _ | .vmax d a b w _ | .vsel d a b w _
  | .vfma d a b w _ | .vgath d a b w _ | .vscat d a b w _ => ([(.d, true, d), (.a, false, a), (.b, false, b)], w.val)
  | .vcmp _ d a b w | .viadd d a b w | .visub d a b w | .vimul d a b w | .vand d a b w | .vor d a b w | .vxor d a b w
  | .vshl d a b w | .vshr d a b w | .vsar d a b w => ([(.d, true, d), (.a, false, a), (.b, false, b)], w.val)
  | .vmov d a w _ | .vred _ _ d a w _ | .vscan d a w _ | .vbmax d a w _
  | .vwmax _ d a w _ => ([(.d, true, d), (.a, false, a)], w.val)
  | .vexp2 d a w | .vlog2 d a w | .vrcp d a w | .vrsq d a w | .vtanh d a w | .verf d a w | .vsin d a w | .vcos d a w
  | .vabs d a w _ | .vneg d a w _ | .vmatch d a w => ([(.d, true, d), (.a, false, a)], w.val)
  | .vqnt d a _ => ([(.d, true, d), (.a, false, a)], 0)
  | .mmaShape _ a b _ => ([(.a, false, a), (.b, false, b)], 0)
  | .mmaUnfold _ _ b _ => ([(.b, false, b)], 0)
  | .mload _ a => ([(.a, false, a)], 0)
  | .mrest _ a => ([(.a, false, a)], 0)
  | .mstore _ a => ([(.a, true, a)], 0)
  | .msave _ a => ([(.a, true, a)], 0)
  | _ => ([], 0)

/-- The operands of a compute instruction of a core: an MMA outside the lead core does not use its a field (R270). -/
def operandsAt (r : SlotRef) (i : Instr) : List (Role × Bool × VOp) × Nat :=
  let o := operandsOf i
  match i with
  | .mmaShape .. => if colOf r.core = 0 then o else (o.1.filter (fun x => decide (x.1 ≠ .a)), o.2)
  | _ => o

/-- Every index of a walk. -/
def allLanes (x : Nat × Nat × Nat × Nat) : List Lane :=
  let k : Walk := { e0 := x.1, e1 := x.2.1, e2 := x.2.2.1, e3 := x.2.2.2, lanes := max 1 x.1 }
  (List.range k.beats).flatMap k.beat

/-- Whether an operand is the table of a gather or a scatter: only its base and first extent are used (R256, R257). -/
def tableRole (i : Instr) (role : Role) : Bool :=
  match i with
  | .vgath .. => decide (role = .a)
  | .vscat .. => decide (role = .d)
  | _ => false

/-- The bytes of the activation of an unfold record (R267, R268): its core offset, its first offset, how many. -/
def unfoldSpan (u : Shape) : Nat × Nat :=
  let n := bitsOf u.w1 47 32 * bitsOf u.w1 31 16 * bitsOf u.w1 15 0
  (bitsOf u.w0 14 0, (n * nibs (windowOf u.w0) + 1) / 2)

/-- Whether the lead's unfold record of an MMA covers one of `n` bytes at a place. -/
def unfoldNames (r : SlotRef) (t : Thread) (i : Instr) (p : Place) (n : Nat) : Bool :=
  match i with
  | .mmaUnfold _ f _ _ =>
    match t.unfolds[f] with
    | some u => decide (colOf r.core = 0) && overlaps p n (.loc r.core (unfoldSpan u).1) (unfoldSpan u).2
    | none => false
  | _ => false

/-- VQNT alone writes the exponent pairs of its destination's blocks (R259). -/
def isVqnt : Instr → Bool
  | .vqnt .. => true
  | _ => false

/-- Whether an operand of an unretired compute instruction names one of `n` bytes at a place, the exponent pairs of its BX blocks
among them (R141); with `wr`, only those that it writes. -/
def entryNames (r : SlotRef) (t : Thread) (e : QEntry) (wr : Bool) (p : Place) (n : Nat) : Bool :=
  let o := operandsAt r e.instr
  (!wr && unfoldNames r t e.instr p n) || o.1.any (fun op => (!wr || op.2.1) &&
    match viewOf r t e op.1 op.2.1 o.2 0xF1 0xF1 op.2.2 with
    | .error _ => false
    | .ok v =>
      let x := if tableRole e.instr op.1 then (v.extents.1, 1, 1, 1) else v.extents
      (allLanes x).any (fun l => match v.at r l with
        | .ok (.loc c off _) => overlaps p n (.loc c off) (elemBytes v.code) ||
          (isBx v.code && (!wr || isVqnt e.instr) && overlaps p n (.scale c (blockOf v.code off).2.2) 2)
        | _ => false))

/-! ### Memory operands of the address pipe (R227-R229, R112) -/

/-- The effective address of a sized M-format operand (R227). -/
def eaSized (b : Word) (disp : BitVec 10) (n : Nat) : Word := b + sx disp * BitVec.ofNat 64 n

/-- What the slot's store buffer gives a load of `n` bytes at a place (R112, R124): the bytes of the youngest entry that
names any of them, when it names all; a wait when it names some, or is a visit; nothing when no entry names them. -/
def forwarded (s : State) (r : SlotRef) (p : Place) (n : Nat) : Except Stop (Option (List Byte)) :=
  match ((s.core r.core).buf.filter (fun e => decide (e.slot = r.slot) && overlaps p n e.place e.n && e.op ≠ .drain)).getLast? with
  | none => .ok none
  | some e =>
    let off := match p, e.place with
      | .loc _ o, .loc _ u => if u ≤ o ∧ o + n ≤ u + e.n then some (o - u) else none
      | .scale _ o, .scale _ u => if u ≤ o ∧ o + n ≤ u + e.n then some (o - u) else none
      | .glob o, .glob u => if u ≤ o ∧ o + n ≤ u + e.n then some (o - u) else none
      | _, _ => none
    match off, e.op.bytes? with
    | some k, some b => .ok (some (bytesAt b k n))
    | _, _ =>
      let at_ := match e.place with | .loc _ o => o | .scale _ o => o | .glob o => o
      .error (.park (.bufferEntry at_ e.n))

/-- The hazards of an address-pipe access (R115, R433): an older, unretired compute instruction of the slot names its
bytes. With the detector on, HAZARD; else a load's value is free. -/
def hazardOf (s : State) (r : SlotRef) (t : Thread) (p : Place) (n : Nat) (load : Bool) : Bool × Bool :=
  let on := match s.region? t.region with | some g => g.hazard | none => false
  if on then (t.cq.any (fun e => entryNames r t e false p n), false)
  else if load then (false, t.cq.any (fun e => entryNames r t e true p n))
  else (false, false)

/-- A near load that misses L1 fills it (R86, R92): the line, then a pointer in the directory; a fifth sharer waits for
the spillway. A line that its slice does not hold, and a monitored one, is not held (R89, R449). -/
def fillL1 (r : SlotRef) (t : Thread) (pa : Nat) : Run Unit := do
  let s ← get
  let line := lineOf pa
  if s.monitored line then return ()
  if !(tget [] s.slices (s.sliceNo line)).any (fun x => x.pa = line) then return ()
  let e := tget DirEntry.zero s.dirs line
  let me := r.core % 8192
  let put (s : State) : State := s.modCore r.core (fun k => { k with l1 := l1Put k.l1 line })
  if (e.state = 1 ∧ e.ptrs.contains me) ∨ (e.state = 2 ∧ (s.core r.core).l1.contains line) then modifyS put
  else if e.state = 2 ∨ (e.state = 1 ∧ 4 ≤ e.ptrs.length) then
    let x := s.mint (slotSource r)
    let job : SpillJob := { home := s.homeOf line, line := line, core := r.core, slot := r.slot, world := t.world, region := t.region,
                            stamp := x.1 }
    set { x.2.modCore job.home (fun k => k) with spillFills := x.2.spillFills ++ [job] }
    throw (.park (.fill line x.1))
  else modifyS (fun s => put { s with dirs := tput s.dirs line { state := 1, ptrs := e.ptrs ++ [me] } })

/-- READ `n` bytes at a place for a load of the slot, checks already made: forwarded from the slot's own buffer, or from
memory (R112-R114, R86). -/
def loadBytes (r : SlotRef) (t : Thread) (a : Word) (p : Place) (n : Nat) : Run (List Byte) := do
  let s ← get
  match s.remapping p with
  | some f => throw (.park (.frame f))
  | none => pure ()
  let hz := hazardOf s r t p n true
  if hz.1 then throw (.trap .hazard a)
  if hz.2 then
    let (b, s1) := s.freshBytes n n
    set s1
    return b
  let fw ← liftE (forwarded s r p n)
  match fw with
  | some b => return b
  | none =>
    match p with
    | .glob pa =>
      if paDie pa = dieOf r.core && (s.core r.core).l1.contains (lineOf pa) && decide (s.lineCase t.world (lineOf pa) = .own)
          && !(s.tag (lineOf pa)).poison then
        modifyS (fun s => s.modCore r.core (fun k => { k with l1 := l1Put k.l1 (lineOf pa) }))
        return cellsGet s.hbm pa n
      waitFor (fun s => s.placeMeet (slotWho r t 0 a) r.core p n false)
      let b ← accessR a (fun s => s.readPlace (slotWho r t 0 a) r.core p n)
      if paDie pa = dieOf r.core then fillL1 r t pa
      return b
    | _ => accessR a (fun s => s.readPlace (slotWho r t 0 a) r.core p n)

/-- The data faults of a store, made before it retires (R228): PROT of R40, LOST for part of a poisoned line, UE for part
of a poisoned local word. -/
def storeFault (s : State) (t : Thread) (p : Place) (n : Nat) : Option Cause :=
  match p with
  | .glob pa =>
    match s.lineCase t.world (lineOf pa) with
    | .other => some .prot
    | .fresh => none
    | .own => if (s.tag (lineOf pa)).poison && decide (n < 64) then some .lost else none
  | .loc c o => if decide (n < 8) && ((s.detectLocal c o).core c).poison.contains (o / 8 * 8) then some .ue else none
  | .scale c o => if decide (n < 8) && s.scaleBad c o n then some .ue else none

/-- The compute instructions older than a store, which its buffer entry follows (R115). -/
def olderCompute (t : Thread) : Nat := t.cq.length

/-- Put an entry into the store buffer of the slot's core (R111), and have it performed. -/
def State.buffer (s : State) (r : SlotRef) (t : Thread) (p : Place) (a : Word) (n : Nat) (op : StoreOp) : State :=
  let x := s.mint (slotSource r)
  (x.2.modCore r.core (fun k => { k with buf := k.buf ++
    [{ slot := r.slot, tid := t.id, world := t.world, region := t.region, place := p, va := a, n := n, op := op,
       older := olderCompute t, stamp := x.1 }] })).laterOnce .storePerformed { core := r.core }

/-- The checks that stop a store before it enters the buffer: a frame under remap, a hazard, its data faults, room
(R57, R111, R228, R433). -/
def storeChecks (s : State) (r : SlotRef) (t : Thread) (a : Word) (p : Place) (n : Nat) : Except Stop Unit := do
  match s.remapping p with
  | some f => .error (.park (.frame f))
  | none =>
    need (!(hazardOf s r t p n false).1) .hazard a
    match storeFault s t p n with
    | some c => .error (.trap c a)
    | none => if (s.core r.core).buf.length < 32 then .ok () else .error (.park .buffer)

end Sys2Proof.Machine
end

