-- ==== Sys2Proof/Machine/Issue.lean ====
section
/-!
DEFINITION. Releases and acquires (R117-R122), fetching (R191-R194, R226, R369), what a parked slot waits for (R9, R182),
the issue wheels (R185-R187), and what a cycle's end makes due.
-/

namespace Sys2Proof.Machine

/-! ### Releases and acquires -/

/-- The scopes in order of width (R117). -/
def Scope.wide : Scope → Bool
  | .module => true
  | .system => true
  | _ => false

/-- Device-register work of a slot that has not been taken yet: its stores are acknowledged only then (R54). -/
def State.devicePending (s : State) (r : SlotRef) : Bool :=
  (s.agenda ++ s.mboxWait).any (fun d => decide (d.arg.core = r.core ∧ d.arg.slot = r.slot) &&
    (match d.what with
      | .invalidation => true
      | .deviceRegisterWrite => true
      | .groupModeWrite => true
      | .l2ControlWrite => true
      | .measurementExtend => true
      | .stateRegisterWrite => true
      | .ownerClaim => true
      | _ => false))

/-- Whether conditions 1, 2 and 4 of a release hold for a slot (R118, R125). -/
def releaseMet (s : State) (r : SlotRef) (t : Thread) : Bool :=
  t.cq.isEmpty && !(s.core r.core).buf.any (fun e => decide (e.slot = r.slot)) && !s.rupds.any (fun u => decide (u.slot = r))
    && !s.devicePending r

/-- Whether conditions 1, 2 and 4 hold for a release of a slot that bears a stamp, younger work apart (R118, R125). -/
def State.olderDone (s : State) (r : SlotRef) (st : Stamp) : Bool :=
  !((s.thread? r).any (fun t => t.cq.any (fun e => e.stamp.before st)))
    && !(s.core r.core).buf.any (fun e => decide (e.slot = r.slot) && e.stamp.before st)
    && !s.rupds.any (fun u => decide (u.slot = r) && u.stamp.before st) && !s.devicePending r

/-- Whether a release that stands beside its thread can complete: its conditions hold, and its write-back waits for nothing (R118). -/
def State.releaseReady (s : State) (r : SlotRef) (w : Who) (st : Stamp) (wide : Bool) : Bool :=
  s.olderDone r st && (!wide || (s.syncMeet w r.core (dieOf r.core)).isNone)

/-- Complete a release that stands beside its thread (R98, R118). -/
def State.completeRelease (s : State) (r : SlotRef) (w : Who) (wide : Bool) : State :=
  if wide then s.rdcSync w (dieOf r.core) false else s

/-- Ask the spillways for what the write-back of a release waits for (R94). -/
def State.askRelease (s : State) (r : SlotRef) (w : Who) (st : Stamp) (wide : Bool) : State :=
  if s.olderDone r st && wide then ((s.syncMeet w r.core (dieOf r.core)).map (fun x => x.1)).getD s else s

/-- A release of a slot that holds it back (R118): it waits for its conditions, and at module or system scope writes back the dirty bytes
of its world in its die's remote-data cache (R98). -/
def releaseR (r : SlotRef) (t : Thread) (wide : Bool) : Run Unit := do
  stopIf (!releaseMet (← get) r t) (.park .release)
  if wide then
    waitFor (fun s => s.syncMeet (slotWho r t 1 0) r.core (dieOf r.core))
    modifyS (fun s => s.rdcSync (slotWho r t 1 0) (dieOf r.core) false)

/-- An acquire of a slot in an instruction of it: it waits for what its write-backs wait for, then invalidates (R98, R119). -/
def acquireR (r : SlotRef) (t : Thread) (wide : Bool) : Run Unit := do
  if wide then
    waitFor (fun s => s.syncMeet (slotWho r t 1 0) r.core (dieOf r.core))
    modifyS (fun s => s.rdcSync (slotWho r t 1 0) (dieOf r.core) true)

/-- An acquire of a slot at module or system scope invalidates its world's lines in its die's remote-data cache (R98, R119). -/
def acquireS (s : State) (r : SlotRef) (t : Thread) (wide : Bool) : State :=
  if wide then s.rdcSync (slotWho r t 1 0) (dieOf r.core) true else s

/-! ### Fetching (R191-R194, R226, R369) -/

/-- The word at an image offset, none outside the image. -/
def Image.word (m : Image) (pc : Nat) : Option Word32 :=
  if m.start ≤ pc ∧ pc % 4 = 0 then m.words[(pc - m.start) / 4]? else none

/-- Whether a word is a compute instruction (R187): kind 01, or 10 with bit 29 set. -/
def isComputeWord (w : Word32) : Bool := decide (bitsOf w 31 30 = 1) || (decide (bitsOf w 31 30 = 2) && bitOf w 29)

/-- Whether an offset lies in the code range of an image (R226). -/
def Image.has (m : Image) (pc : Nat) : Bool := decide (m.start ≤ pc ∧ pc < m.start + 4 * m.words.length)

/-- What stands at a thread's program counter: an instruction and its length, or the cause that its fetch raises with the
faulting address and the length of the word (R193, R194, R226). -/
def fetch (s : State) (r : SlotRef) (t : Thread) : Except (Cause × Word × Nat) (Instr × Nat) :=
  match (s.core r.core).imageOf t.region t.role with
  | none => .error (.prot, t.pc, 4)
  | some m =>
    match m.word t.pc.toNat with
    | none => .error (.prot, t.pc, 4)
    | some w =>
      if isLong w && decide (t.pc.toNat + 4 = m.start + 4 * m.words.length) then .error (.prot, t.pc + 4, 4)
      else
        match decode (w :: (m.word (t.pc.toNat + 4)).toList) with
        | .ok x => .ok x
        | .error .ill => .error (.ill, w.setWidth 64, 4)
        | .error .mid => .error (.mid, w.setWidth 64, 4)

/-- The word at a thread's program counter, as an ILL raised by its meaning reports it (R415). -/
def State.wordHere (s : State) (r : SlotRef) (t : Thread) : Word :=
  match (s.core r.core).imageOf t.region t.role with
  | some m => ((m.word t.pc.toNat).getD 0).setWidth 64
  | none => 0

/-! ### What a parked slot waits for -/

def Sluices.inbound (q : Sluices) : Fin 8 → List Word
  | 1 => q.q1
  | 3 => q.q3
  | 5 => q.q5
  | 6 => q.q6
  | _ => []

def Sluices.outlet (q : Sluices) : Fin 8 → Outlet
  | 0 => q.q0
  | 2 => q.q2
  | 4 => q.q4
  | _ => q.q7

/-- Whether the POP of each inbound word acquires at module scope (R76, R121). -/
def Sluices.wides (q : Sluices) : Fin 8 → List Bool
  | 1 => q.wide1
  | 3 => q.wide3
  | 5 => q.wide5
  | _ => []

/-- Words of an engine enter an inbound sluice, with the scope at which their POP acquires. -/
def Sluices.post (q : Sluices) (n : Fin 8) (ws : List Word) (wide : Bool) : Sluices :=
  let marks := ws.map (fun _ => wide)
  if n = 1 then { q with q1 := q.q1 ++ ws, wide1 := q.wide1 ++ marks }
  else if n = 3 then { q with q3 := q.q3 ++ ws, wide3 := q.wide3 ++ marks }
  else { q with q5 := q.q5 ++ ws, wide5 := q.wide5 ++ marks }

/-- The sluices once a POP has removed a word (R61). -/
def Sluices.pop (q : Sluices) (n : Fin 8) : Sluices :=
  if n = 1 then { q with q1 := q.q1.tail, wide1 := q.wide1.tail }
  else if n = 3 then { q with q3 := q.q3.tail, wide3 := q.wide3.tail }
  else if n = 5 then { q with q5 := q.q5.tail, wide5 := q.wide5.tail }
  else { q with q6 := q.q6.tail }

def Sluices.setOutlet (q : Sluices) (n : Fin 8) (v : Outlet) : Sluices :=
  if n = 0 then { q with q0 := v } else if n = 2 then { q with q2 := v } else if n = 4 then { q with q4 := v }
  else { q with q7 := v }

/-- Whether the shadow of an outlet holds a sealed record (R62). -/
def Outlet.full (o : Outlet) : Bool :=
  match o.shadow with
  | some r => r.sealed.isSome
  | none => false

/-- Whether an entry of the compute queue names a handle. -/
def QEntry.names (e : QEntry) (h : Fin 8) : Bool := e.hands.any (fun p => p.1 = h.val)

/-- Whether a subscription stands on a handle of a slot (R77, R300). -/
def State.subOn (s : State) (r : SlotRef) (h : Fin 8) : Bool :=
  s.subs.any (fun u => decide (u.target = r.core ∧ u.slot.slot = r.slot ∧ u.handle = h))

/-- The heavy units of a region in use (R361): running gangs, instructions of major 0x05 past their first beat, live
subscriptions. -/
def State.heavyInUse (s : State) (region : Nat) : Nat :=
  (s.gangs.filter (fun p => match p.2.running with
    | some n => ((s.thread? { core := p.1 * 16, slot := n }).map (fun t => decide (t.region = region))).getD false
    | none => false)).length
  + (s.threads.filter (fun p => decide (p.2.region = region) && (match p.2.cq with
      | e :: _ => e.heavy && decide (0 < e.beats)
      | [] => false))).length
  + (s.subs.filter (fun u => u.region = region ∧ u.ended = none)).length

/-- The tokens of a region that its children do not hold (R330). -/
def State.tokensOf (s : State) (g : Region) : Nat :=
  g.tokens - ((s.regions.filter (fun k => k.parent = some g.id)).map (fun k => k.tokens)).sum

/-- Whether one more heavy unit of a region may start: its own units count against what its children leave (R330, R361). -/
def State.heavyRoom (s : State) (region : Nat) : Bool :=
  match s.region? region with
  | some g => decide (s.heavyInUse region < s.tokensOf g)
  | none => true

/-- Whether an entry is a visit. -/
def BufEntry.isVisit (e : BufEntry) : Bool :=
  match e.op with
  | .amo _ _ _ => true
  | .cas _ _ _ => true
  | _ => false

/-- Whether a place lies in a line. -/
def Place.inLine (p : Place) (line : Nat) : Bool :=
  match p with
  | .glob pa => decide (lineOf pa = line)
  | _ => false

/-- Whether no other request that waits at a line's home bears an earlier stamp (R91): a parked slot's, or that of the entry at the head of a
store buffer. -/
def State.lineTurn (s : State) (line : Nat) (st : Stamp) : Bool :=
  !s.threads.any (fun p => match p.2.parked with
    | some (.fill l x) => decide (l = line) && x.before st && !s.rotations.any (fun k => k.begun.contains p.1)
    | _ => false) &&
  !s.cores.any (fun k => match k.2.buf with
    | e :: _ => decide (e.older = 0) && e.place.inLine line && e.stamp.before st
    | [] => false)

/-- Whether what a slot parked on has changed so that the instruction re-executes (R9). Parks that an event ends by
clearing them answer no. -/
def parkOver (s : State) (r : SlotRef) (t : Thread) : Park → Bool
  | .reg n => (t.g[n]).full
  | .pending n => !(t.g[n]).pending
  | .portIn p st => !(s.portIn r.core p).isEmpty && s.portTurn r.core p false st
  | .portOut p st => decide ((s.portOut r.core p).length < 4) && s.portTurn r.core p true st
  | .sluiceEmpty q => !(t.sluices.inbound q).isEmpty
  | .sluiceFull q => !(t.sluices.outlet q).full
  | .buffer => decide ((s.core r.core).buf.length < 32)
  | .bufferEntry addr n => !(s.core r.core).buf.any (fun e => decide (e.slot = r.slot ∧ e.n = n) &&
      (match e.place with
        | .loc _ o => decide (o = addr)
        | .scale _ o => decide (o = addr)
        | .glob o => decide (o = addr)))
  | .release => releaseMet s r t
  | .computeQueue => t.cq.isEmpty
  | .computeRoom => decide (t.cq.length < 16)
  | .held => false
  | .walk _ _ => false
  | .record _ _ => false
  | .wake _ => t.wakeBit
  | .promise _ => false
  | .handleFilled h n => decide (n ≤ (t.handles[h]).filled) || (t.handles[h]).broken
  | .handleRoom h n => decide (n ≤ (t.handles[h]).free)
  | .handleFree h => !t.cq.any (fun e => e.names h)
  | .handleEnded h => !s.subOn r h
  | .byteWeir k =>
    let w := tget ByteWeir.reset (s.core r.core).weirs k
    w.sat || (w.posted && decide (w.counter = 0)) || decide (w.world ≠ none ∧ w.world ≠ some t.world)
  | .weir _ => t.weirDone
  | .tree => match t.treeWait with | some w => decide (w.left = 0) | none => true
  | .ship => releaseMet s r t && !(List.range 40).any (fun n => if h : n < 40 then (t.g[n]).pending else false)
  | .frame f => !(s.retire.map (fun q => q.1)).contains f
  | .fill line st => !s.lineBusy line && s.lineTurn line st
  | .visits => !(s.core r.core).buf.any (fun e => decide (e.slot = r.slot) && e.isVisit)

/-! ### The issue wheels (R185-R187) -/

/-- Whether a thread can issue at all: not halted, not held by an emulation window of its own making. -/
def Thread.live (t : Thread) : Bool := t.halted.isNone

/-- Whether an address-serialising instruction stands in the queue (R187). -/
def Thread.serialised (t : Thread) : Bool := t.cq.any (fun e => e.serial)

/-- Whether the next instruction of a thread is a compute instruction that finds the queue full (R185, R187). -/
def queueFull (s : State) (r : SlotRef) (t : Thread) : Bool :=
  decide (16 ≤ t.cq.length) && (match (s.core r.core).imageOf t.region t.role with
    | some m => (m.word t.pc.toNat).any isComputeWord
    | none => false)

/-- Whether a slot's thread is free to take an address-pipe turn (R185, R187): its park is over, no address-serialising
instruction is unretired, at most 16 instructions go beyond the oldest unretired compute instruction, it has not yielded, its hand-over
has not begun (R429). -/
def addressFree (s : State) (r : SlotRef) (t : Thread) : Bool :=
  t.live && !t.serialised && t.cq.head?.all (fun e => decide (e.since < 16)) && decide (t.yieldTo ≤ s.tc) && !s.rotations.any (fun k => k.begun.contains r) &&
    (match t.parked with
      | none => true
      | some p => parkOver s r t p)

/-- Whether a slot is ready in the address pipe: free, its next instruction not annulled and not one that finds the queue full (R185). -/
def addressReady (s : State) (r : SlotRef) : Bool :=
  match s.thread? r with
  | some t => addressFree s r t && decide (t.skip = 0) && !queueFull s r t
  | none => false

/-- Whether a beat of the head of a slot's queue could run: its handle waits are met, it is not waiting for a walk, a
record, its gang or its weir, and no older release holds back what it writes (R118, R120, R145, R242, R271). -/
def computeReady (s : State) (r : SlotRef) : Bool :=
  match s.thread? r with
  | some t =>
    match t.cq with
    | [] => false
    | e :: _ =>
      let o := operandsAt r e.instr
      let waiting := match t.parked with
        | some (.walk _ _) => true
        | some (.record _ _) => true
        | some (.frame f) => !parkOver s r t (.frame f)
        | some (.fill l st) => !parkOver s r t (.fill l st)
        | _ => false
      let held := o.1.any (fun x => x.2.1) && (s.core r.core).releases.any (fun x => decide (x.tid = t.id) && x.stamp.before e.stamp)
      t.live && !waiting && !held && !e.arrived && (e.waited || waitsMet t o.1 o.2) && (!e.heavy || decide (0 < e.beats) || s.heavyRoom t.region)
  | none => false

def pipeReady (s : State) (p : Pipe) (r : SlotRef) : Bool :=
  match p with
  | .address => addressReady s r
  | .compute => computeReady s r

/-- The slot that takes the turn of slot number `n` of a core in a pipe (R185): the owner when it is ready; otherwise, the
first ready slot above it, wrapping, of its world when it holds a thread, of its polder when it is empty. `donated` says that the owner has
consumed a skip count in this turn (R222, R224). -/
def turnOf (s : State) (p : Pipe) (c : CoreIx) (n : Nat) (donated : Bool) : Option SlotRef :=
  let owner : SlotRef := { core := c, slot := n }
  if !donated && pipeReady s p owner then some owner
  else
    let others := (List.range 15).map (fun k => ({ core := c, slot := (n + 1 + k) % 16 } : SlotRef))
    match s.thread? owner with
    | some t => others.find? (fun r => pipeReady s p r && decide ((s.thread? r).map (fun u => u.world) = some t.world))
    | none => others.find? (fun r => pipeReady s p r && decide (s.polderOf r.slot = s.polderOf n))

/-- An annulled instruction takes its slot's skip count in the turn it would have used (R185, R222, R224): it is decoded,
and ILL or MID is raised. -/
def annul (s : State) (r : SlotRef) (t : Thread) : State :=
  let s1 : State := { s with cur := r, pipe := .address }
  match fetch s r t with
  | .ok (_, len) => s1.setThread r { t with skip := t.skip - 1, pc := t.pc + BitVec.ofNat 64 len, parked := none }
  | .error (c, a, len) => takeFault s1 c a 0 len

/-- Annul on the turn of slot number `n` of a core, when its next instruction is annulled; the answer says whether it was. -/
def annulTurn (s : State) (c : CoreIx) (n : Nat) : State × Bool :=
  let r : SlotRef := { core := c, slot := n }
  match s.thread? r with
  | some t => if addressFree s r t && decide (0 < t.skip) then (annul s r t, true) else (s, false)
  | none => (s, false)

/-- What a turn gives: an instruction to execute for a slot and pipe; an exception of the fetch; nothing. -/
inductive Turn where
  | run (i : Instr) (s : State)
  | idle (s : State)
  deriving Repr

/-! ### The end of a cycle -/

/-- What becomes due for a thread when tc reaches `tc` (R295, R344, R426). -/
def threadDue (tc : Nat) (r : SlotRef) (t : Thread) : List Due :=
  let at_ : Args := { core := r.core, slot := r.slot }
  (match t.parked with
    | some (.wake d) => if d ≠ 0 ∧ d < tc then [{ what := .parkDeadline, arg := at_ }] else []
    | some (.promise d) => if d ≤ tc then [{ what := .promiseTime, arg := at_ }] else []
    | _ => [])
  ++ (if t.yieldTo = tc ∧ tc ≠ 0 then [{ what := .yieldExpiry, arg := at_ }] else [])
  ++ (if t.wdog = 1 then [{ what := .watchdogExpiry, arg := at_ }] else [])

/-- A thread after a cycle: an enabled watchdog falls, but not while the debugger holds the thread (R425). -/
def countDown (t : Thread) : Thread :=
  match t.halted with
  | some h => if h.debugger then t else { t with wdog := t.wdog - 1 }
  | none => { t with wdog := t.wdog - 1 }

/-- The watchdogs of the first `n` slots of a core fall. -/
def Core.countSlots (k : Core) : Nat → Core
  | 0 => k
  | n + 1 =>
    let v := k.slot n
    match v.thread with
    | some t => (k.setSlot n { v with thread := some (countDown t) }).countSlots n
    | none => k.countSlots n

/-- The next piece of waiting work, when it is its turn (R7, R31, R116; log entry 2). -/
def takeWork (s : State) : Option (Due × State) :=
  match s.urgent with
  | d :: rest => some (d, { s with urgent := rest, arg := d.arg })
  | [] =>
    if s.hold ≠ 0 then none
    else
      let k := if s.agenda.length ≤ 1 then 0 else Config.enginePick s.seq % s.agenda.length
      match s.agenda[k]? with
      | some d => some (d, { s with
          agenda := s.agenda.eraseIdx k, arg := d.arg, hold := Config.engineDelay s.seq, seq := s.seq + 1 })
      | none => none

end Sys2Proof.Machine
end

