-- ==== Sys2Proof/Machine/Keccak.lean ====
section
/-!
DEFINITION. SHAKE256, which R399, R403, R406, R446, R447 and R452 name: the sponge of FIPS 202 with rate 136 and suffix 1111.
PRESUMED: the spec names the function and leaves its definition to that standard (log entry 4).
The permutation's constants are computed as that standard defines them, not tabulated. A state is five planes of five lanes.
-/

namespace Sys2Proof.Machine

/-- One lane row of the permutation's state. -/
abbrev Plane := List Word

/-- Two planes added lane by lane. -/
def Plane.add (p q : Plane) : Plane := List.zipWith (fun u v => u ^^^ v) p q

/-- The plane whose lane x is lane x + k of another, around the row. -/
def Plane.ahead (k : Nat) (p : Plane) : Plane := p.drop k ++ p.take k

/-- The next power of x modulo x^8 + x^6 + x^5 + x^4 + 1 over two elements. -/
def nextPower (r : Nat) : Nat := if r < 128 then 2 * r else (2 * r - 256) ^^^ 0x71

/-- The bits of a round's constant, from the power that stands before it: bit 2^j - 1 is the constant coefficient of the j-th power
from there. It answers the power that the next round starts from, too. -/
def roundBits (r j : Nat) : Nat → Nat × Word
  | 0 => (r, 0)
  | left + 1 =>
    let rest := roundBits (nextPower r) (j + 1) left
    (rest.1, rest.2 ||| if r % 2 = 1 then BitVec.ofNat 64 (2 ^ (2 ^ j - 1)) else 0)

/-- The place (x, y) of the walk of lanes and its rotation, for the steps t + 1, t + 2, … -/
def rotationWalk (x y t : Nat) : Nat → List ((Nat × Nat) × Nat)
  | 0 => []
  | left + 1 => ((x, y), (t + 1) * (t + 2) / 2 % 64) :: rotationWalk y ((2 * x + 3 * y) % 5) (t + 1) left

/-- By how much lane (x, y) rotates; lane (0, 0) is not on the walk and does not rotate. -/
def rotationOf (x y : Nat) : Nat := ((rotationWalk 1 0 0 24).lookup (x % 5, y % 5)).getD 0

/-- The column parities spread to both neighbours. -/
def spreadParity (a : List Plane) : List Plane :=
  let sums := a.foldl Plane.add (List.replicate 5 0)
  let change := List.zipWith (fun left right => left ^^^ right.rotateLeft 1) (Plane.ahead 4 sums) (Plane.ahead 1 sums)
  a.map (Plane.add change)

/-- Each lane rotated and moved to its new place. -/
def scatterLanes (a : List Plane) : List Plane :=
  (List.range 5).map (fun y => (List.range 5).map (fun x =>
    ((a.getD x []).getD ((x + 3 * y) % 5) 0).rotateLeft (rotationOf (x + 3 * y) x)))

/-- The only step that is not linear, a plane at a time. -/
def mixPlane (p : Plane) : Plane := Plane.add p (List.zipWith (fun u v => ~~~u &&& v) (Plane.ahead 1 p) (Plane.ahead 2 p))

/-- The rounds of the permutation that are left, from a state and the power that stands before them. -/
def spongeRounds (r : Nat) (a : List Plane) : Nat → List Plane
  | 0 => a
  | left + 1 =>
    let k := roundBits r 0 7
    match (scatterLanes (spreadParity a)).map mixPlane with
    | [] => []
    | first :: others => spongeRounds k.1 (Plane.add first [k.2, 0, 0, 0, 0] :: others) left

/-- The permutation: 24 rounds. -/
def permute (a : List Plane) : List Plane := spongeRounds 1 a 24

/-- The bytes of a sponge's rate. -/
def spongeRate : Nat := 136

/-- Cut words into planes. -/
def planesOf (w : List Word) : List Plane := (List.range 5).map (fun y => (w.drop (5 * y)).take 5)

/-- A block enters the state; what is missing of it counts as zero. -/
def absorbBlock (a : List Plane) (block : List Byte) : List Plane :=
  permute (List.zipWith Plane.add a (planesOf ((List.range 25).map (fun i => BitVec.ofNat 64 (leNat (bytesAt block (8 * i) 8))))))

/-- The last block of a message: suffix and padding after what is left of it. -/
def lastBlock (m : List Byte) : List Byte :=
  let free := spongeRate - m.length
  if free = 1 then m ++ [0x9F] else m ++ (0x1F : Byte) :: (List.replicate (free - 2) 0 ++ [0x80])

/-- A message enters the state; `f` bounds its whole blocks. -/
def absorbMessage (a : List Plane) (m : List Byte) : Nat → List Plane
  | 0 => a
  | f + 1 =>
    if m.length < spongeRate then absorbBlock a (lastBlock m)
    else absorbMessage (absorbBlock a (bytesAt m 0 spongeRate)) (m.drop spongeRate) f

/-- Bytes come out, a block for each state; `f` bounds the blocks. -/
def emitBytes (a : List Plane) : Nat → List Byte
  | 0 => []
  | f + 1 => (a.flatten.flatMap (fun w => natLe w.toNat 8)).take spongeRate ++ emitBytes (permute a) f

/-- SHAKE256 of a message with `n` bytes of output. -/
def shake256 (m : List Byte) (n : Nat) : List Byte :=
  let full := absorbMessage (List.replicate 5 (List.replicate 5 0)) m (m.length / spongeRate + 1)
  (emitBytes full (n / spongeRate + 1)).take n

end Sys2Proof.Machine
end

