-- ==== Sys2Proof/Machine/NativeTable.lean ====
section
/-!
DEFINITION. The native table of a generation-1 part (R398-R401): one record for each form of R202-R204, sorted by key, its
descriptors in the order of R400, its cost from the cost lines of R237, R262, R281, R304, R328, R364, R385 and R437. A cost line that names
no result (an annulment decided, a target or body that issues, a failing form that retires) gives latency 0 (log entry 51).
-/

namespace Sys2Proof.Machine

/-- A record of the native table (R400). -/
structure NativeRecord where
  key      : Nat
  template : Nat
  fields   : List (Nat × Nat)
  cls      : Nat
  turns    : Nat
  latency  : Nat
  cont     : Nat
  deriving DecidableEq, Repr

def nativePart0 : List NativeRecord :=
  [{ key := 0x000000, template := 0x00000000, fields := [(18, 6), (12, 6), (6, 6), (0, 2)], cls := 0, turns := 1, latency := 2, cont := 0 },
   { key := 0x000001, template := 0x00000004, fields := [(18, 6), (12, 6), (6, 6), (0, 2)], cls := 0, turns := 1, latency := 2, cont := 0 },
   { key := 0x000002, template := 0x00000008, fields := [(18, 6), (12, 6), (6, 6), (0, 2)], cls := 0, turns := 1, latency := 4, cont := 0 },
   { key := 0x000003, template := 0x0000000C, fields := [(18, 6), (12, 6), (6, 6), (0, 2)], cls := 0, turns := 1, latency := 4, cont := 0 },
   { key := 0x000004, template := 0x00000010, fields := [(18, 6), (12, 6), (6, 6), (0, 2)], cls := 0, turns := 1, latency := 4, cont := 0 },
   { key := 0x000005, template := 0x00000014, fields := [(18, 6), (12, 6), (6, 6), (0, 2)], cls := 0, turns := 1, latency := 40, cont := 0 },
   { key := 0x000006, template := 0x00000018, fields := [(18, 6), (12, 6), (6, 6), (0, 2)], cls := 0, turns := 1, latency := 40, cont := 0 },
   { key := 0x000007, template := 0x0000001C, fields := [(18, 6), (12, 6), (6, 6), (0, 2)], cls := 0, turns := 1, latency := 40, cont := 0 },
   { key := 0x000008, template := 0x00000020, fields := [(18, 6), (12, 6), (6, 6), (0, 2)], cls := 0, turns := 1, latency := 40, cont := 0 },
   { key := 0x000009, template := 0x00000024, fields := [(18, 6), (12, 6), (6, 6), (0, 2)], cls := 0, turns := 1, latency := 2, cont := 0 },
   { key := 0x00000A, template := 0x00000028, fields := [(18, 6), (12, 6), (6, 6), (0, 2)], cls := 0, turns := 1, latency := 2, cont := 0 },
   { key := 0x00000B, template := 0x0000002C, fields := [(18, 6), (12, 6), (6, 6), (0, 2)], cls := 0, turns := 1, latency := 2, cont := 0 },
   { key := 0x00000C, template := 0x00000030, fields := [(18, 6), (12, 6), (6, 6), (0, 2)], cls := 0, turns := 1, latency := 2, cont := 0 },
   { key := 0x00000D, template := 0x00000034, fields := [(18, 6), (12, 6), (6, 6), (0, 2)], cls := 0, turns := 1, latency := 2, cont := 0 },
   { key := 0x00000E, template := 0x00000038, fields := [(18, 6), (12, 6), (6, 6), (0, 2)], cls := 0, turns := 1, latency := 2, cont := 0 },
   { key := 0x00000F, template := 0x0000003C, fields := [(18, 6), (12, 6), (6, 6), (0, 2)], cls := 0, turns := 1, latency := 2, cont := 0 },
   { key := 0x000100, template := 0x01000000, fields := [(18, 6), (12, 6), (6, 6), (0, 2)], cls := 0, turns := 1, latency := 2, cont := 0 },
   { key := 0x000101, template := 0x01000004, fields := [(18, 6), (12, 6), (6, 6), (0, 2)], cls := 0, turns := 1, latency := 2, cont := 0 },
   { key := 0x000102, template := 0x01000008, fields := [(18, 6), (12, 6), (6, 6), (0, 2)], cls := 0, turns := 1, latency := 2, cont := 0 },
   { key := 0x000103, template := 0x0100000C, fields := [(18, 6), (12, 6), (6, 6), (0, 2)], cls := 0, turns := 1, latency := 2, cont := 0 },
   { key := 0x000104, template := 0x01000010, fields := [(18, 6), (12, 6), (0, 2)], cls := 0, turns := 1, latency := 2, cont := 0 },
   { key := 0x000105, template := 0x01000014, fields := [(18, 6), (12, 6), (0, 2)], cls := 0, turns := 1, latency := 2, cont := 0 },
   { key := 0x000106, template := 0x01000018, fields := [(18, 6), (12, 6), (0, 2)], cls := 0, turns := 1, latency := 2, cont := 0 },
   { key := 0x000107, template := 0x0100001C, fields := [(18, 6), (12, 6), (6, 6), (0, 2)], cls := 0, turns := 1, latency := 2, cont := 0 },
   { key := 0x000108, template := 0x01000020, fields := [(18, 6), (12, 6), (6, 6), (0, 2)], cls := 0, turns := 1, latency := 2, cont := 0 },
   { key := 0x000109, template := 0x01000024, fields := [(18, 6), (12, 6), (6, 6), (0, 2)], cls := 0, turns := 1, latency := 2, cont := 0 },
   { key := 0x00010A, template := 0x01000028, fields := [(18, 6)], cls := 0, turns := 1, latency := 2, cont := 0 },
   { key := 0x000200, template := 0x02000000, fields := [(18, 6), (12, 6), (0, 12)], cls := 0, turns := 1, latency := 2, cont := 0 },
   { key := 0x000300, template := 0x03000000, fields := [(18, 6), (12, 6), (0, 12)], cls := 0, turns := 1, latency := 2, cont := 0 },
   { key := 0x000400, template := 0x04000000, fields := [(18, 6), (12, 6), (0, 12)], cls := 0, turns := 1, latency := 2, cont := 0 }]

def nativePart1 : List NativeRecord :=
  [{ key := 0x000500, template := 0x05000000, fields := [(18, 6), (12, 6), (0, 12)], cls := 0, turns := 1, latency := 2, cont := 0 },
   { key := 0x000600, template := 0x06000000, fields := [(18, 6), (12, 6), (0, 6)], cls := 0, turns := 1, latency := 2, cont := 0 },
   { key := 0x000700, template := 0x07000000, fields := [(18, 6), (12, 6), (0, 6)], cls := 0, turns := 1, latency := 2, cont := 0 },
   { key := 0x000800, template := 0x08000000, fields := [(18, 6), (12, 6), (0, 6)], cls := 0, turns := 1, latency := 2, cont := 0 },
   { key := 0x000900, template := 0x09000000, fields := [(18, 6), (12, 6), (0, 12)], cls := 0, turns := 1, latency := 2, cont := 0 },
   { key := 0x000A00, template := 0x0A000000, fields := [(18, 6), (12, 6), (6, 6), (0, 6)], cls := 0, turns := 1, latency := 2, cont := 0 },
   { key := 0x000B00, template := 0x0B000000, fields := [(18, 6), (12, 6), (6, 6), (0, 6)], cls := 0, turns := 1, latency := 2, cont := 0 },
   { key := 0x000C00, template := 0x0C000000, fields := [(18, 6), (12, 6), (0, 12)], cls := 0, turns := 1, latency := 4, cont := 0 },
   { key := 0x001000, template := 0x10000000, fields := [(12, 6), (6, 6), (18, 4), (22, 2)], cls := 0, turns := 1, latency := 0, cont := 0 },
   { key := 0x001100, template := 0x11000000, fields := [(12, 6), (0, 12), (18, 4), (22, 2)], cls := 0, turns := 1, latency := 0, cont := 0 },
   { key := 0x001400, template := 0x14000000, fields := [(0, 24)], cls := 0, turns := 1, latency := 0, cont := 0 },
   { key := 0x001500, template := 0x15000000, fields := [(0, 24)], cls := 0, turns := 1, latency := 0, cont := 0 },
   { key := 0x001600, template := 0x16000000, fields := [(12, 6), (0, 2)], cls := 0, turns := 1, latency := 0, cont := 0 },
   { key := 0x001601, template := 0x16000004, fields := [(12, 6), (0, 2)], cls := 0, turns := 1, latency := 0, cont := 0 },
   { key := 0x001602, template := 0x16000008, fields := [], cls := 0, turns := 1, latency := 0, cont := 0 },
   { key := 0x001800, template := 0x18000000, fields := [(18, 6), (12, 6), (0, 10), (10, 2)], cls := 4, turns := 1, latency := 4, cont := 0 },
   { key := 0x001900, template := 0x19000000, fields := [(18, 6), (12, 6), (0, 10), (10, 2)], cls := 4, turns := 1, latency := 4, cont := 0 },
   { key := 0x001A00, template := 0x1A000000, fields := [(12, 6), (0, 10), (18, 6), (10, 2)], cls := 0, turns := 1, latency := 0, cont := 0 },
   { key := 0x001B00, template := 0x1B000000, fields := [(18, 6), (12, 6), (0, 10), (10, 2)], cls := 4, turns := 1, latency := 4, cont := 0 },
   { key := 0x001C00, template := 0x1C000000, fields := [(12, 6), (0, 10), (18, 6), (10, 2)], cls := 0, turns := 1, latency := 0, cont := 0 },
   { key := 0x001D00, template := 0x1D000000, fields := [(18, 6), (12, 6), (6, 6), (0, 2), (2, 4)], cls := 4, turns := 1, latency := 4, cont := 0 },
   { key := 0x001E00, template := 0x1E000000, fields := [(12, 6), (6, 6), (18, 6), (0, 2), (2, 4)], cls := 0, turns := 1, latency := 0, cont := 0 },
   { key := 0x002000, template := 0x20000000, fields := [(18, 6), (12, 6), (0, 10)], cls := 4, turns := 1, latency := 4, cont := 0 },
   { key := 0x002001, template := 0x20000400, fields := [(18, 6), (12, 6), (0, 10)], cls := 4, turns := 1, latency := 4, cont := 0 },
   { key := 0x002002, template := 0x20000800, fields := [(12, 6), (0, 10), (18, 6)], cls := 0, turns := 1, latency := 0, cont := 0 },
   { key := 0x002003, template := 0x20000C00, fields := [(12, 6), (0, 10), (18, 6)], cls := 0, turns := 1, latency := 0, cont := 0 },
   { key := 0x002100, template := 0x21000000, fields := [(12, 6), (0, 10)], cls := 0, turns := 1, latency := 0, cont := 0 },
   { key := 0x002101, template := 0x21000400, fields := [(18, 6), (12, 6), (0, 10)], cls := 4, turns := 1, latency := 4, cont := 0 },
   { key := 0x002200, template := 0x22000C00, fields := [(18, 6), (12, 6), (0, 10)], cls := 4, turns := 1, latency := 60, cont := 0 },
   { key := 0x002300, template := 0x23000000, fields := [(18, 6), (12, 6), (6, 6), (0, 2)], cls := 4, turns := 1, latency := 64, cont := 0 }]

def nativePart2 : List NativeRecord :=
  [{ key := 0x002400, template := 0x24000000, fields := [(18, 6), (12, 6), (6, 6), (0, 2)], cls := 4, turns := 1, latency := 8, cont := 0 },
   { key := 0x002401, template := 0x24000004, fields := [(18, 6), (12, 6), (6, 6), (0, 2)], cls := 4, turns := 1, latency := 8, cont := 0 },
   { key := 0x002402, template := 0x24000008, fields := [(18, 6), (12, 6), (6, 6), (0, 2)], cls := 4, turns := 1, latency := 8, cont := 0 },
   { key := 0x002403, template := 0x2400000C, fields := [(18, 6), (12, 6), (6, 6), (0, 2)], cls := 4, turns := 1, latency := 8, cont := 0 },
   { key := 0x002404, template := 0x24000010, fields := [(18, 6), (12, 6), (6, 6), (0, 2)], cls := 4, turns := 1, latency := 8, cont := 0 },
   { key := 0x002405, template := 0x24000014, fields := [(18, 6), (12, 6), (6, 6), (0, 2)], cls := 4, turns := 1, latency := 8, cont := 0 },
   { key := 0x002406, template := 0x24000018, fields := [(18, 6), (12, 6), (6, 6), (0, 2)], cls := 4, turns := 1, latency := 8, cont := 0 },
   { key := 0x002407, template := 0x2400001C, fields := [(18, 6), (12, 6), (6, 6), (0, 2)], cls := 4, turns := 1, latency := 8, cont := 0 },
   { key := 0x002408, template := 0x24000020, fields := [(18, 6), (12, 6), (6, 6), (0, 2)], cls := 4, turns := 1, latency := 8, cont := 0 },
   { key := 0x002409, template := 0x24000024, fields := [(18, 6), (12, 6), (6, 6), (0, 2)], cls := 4, turns := 1, latency := 8, cont := 0 },
   { key := 0x002500, template := 0x25000000, fields := [(18, 6), (12, 6), (6, 6), (0, 2)], cls := 4, turns := 1, latency := 8, cont := 0 },
   { key := 0x002600, template := 0x26C00000, fields := [(12, 6), (6, 6), (0, 2)], cls := 0, turns := 1, latency := 0, cont := 0 },
   { key := 0x002601, template := 0x26C00004, fields := [(12, 6), (6, 6), (0, 2)], cls := 0, turns := 1, latency := 0, cont := 0 },
   { key := 0x002602, template := 0x26C00008, fields := [(12, 6), (6, 6), (0, 2)], cls := 0, turns := 1, latency := 0, cont := 0 },
   { key := 0x002603, template := 0x26C0000C, fields := [(12, 6), (6, 6), (0, 2)], cls := 0, turns := 1, latency := 0, cont := 0 },
   { key := 0x002604, template := 0x26C00010, fields := [(12, 6), (6, 6), (0, 2)], cls := 0, turns := 1, latency := 0, cont := 0 },
   { key := 0x002605, template := 0x26C00014, fields := [(12, 6), (6, 6), (0, 2)], cls := 0, turns := 1, latency := 0, cont := 0 },
   { key := 0x002606, template := 0x26C00018, fields := [(12, 6), (6, 6), (0, 2)], cls := 0, turns := 1, latency := 0, cont := 0 },
   { key := 0x002607, template := 0x26C0001C, fields := [(12, 6), (6, 6), (0, 2)], cls := 0, turns := 1, latency := 0, cont := 0 },
   { key := 0x002608, template := 0x26C00020, fields := [(12, 6), (6, 6), (0, 2)], cls := 0, turns := 1, latency := 0, cont := 0 },
   { key := 0x002609, template := 0x26C00024, fields := [(12, 6), (6, 6), (0, 2)], cls := 0, turns := 1, latency := 0, cont := 0 },
   { key := 0x002700, template := 0x27000000, fields := [(18, 6)], cls := 0, turns := 1, latency := 0, cont := 0 },
   { key := 0x002701, template := 0x27000004, fields := [(18, 6)], cls := 0, turns := 1, latency := 0, cont := 0 },
   { key := 0x002702, template := 0x27000008, fields := [(18, 6)], cls := 0, turns := 1, latency := 0, cont := 0 },
   { key := 0x002800, template := 0x28000000, fields := [(15, 3), (18, 6)], cls := 0, turns := 1, latency := 0, cont := 0 },
   { key := 0x002900, template := 0x29000000, fields := [(18, 6), (15, 3)], cls := 0, turns := 1, latency := 2, cont := 0 },
   { key := 0x002A00, template := 0x2A000000, fields := [(18, 6), (12, 6), (6, 6), (0, 2)], cls := 0, turns := 1, latency := 4, cont := 0 },
   { key := 0x002A01, template := 0x2A000004, fields := [(18, 6), (12, 6), (6, 6), (0, 2)], cls := 0, turns := 1, latency := 4, cont := 0 },
   { key := 0x002A02, template := 0x2A000008, fields := [(18, 6), (12, 6), (6, 6), (0, 2)], cls := 0, turns := 1, latency := 4, cont := 0 },
   { key := 0x002B00, template := 0x2B000000, fields := [(12, 6), (0, 2)], cls := 0, turns := 1, latency := 0, cont := 0 }]

def nativePart3 : List NativeRecord :=
  [{ key := 0x002C00, template := 0x2C000000, fields := [(18, 6), (12, 6), (6, 6), (0, 2)], cls := 0, turns := 1, latency := 0, cont := 0 },
   { key := 0x002C01, template := 0x2C000004, fields := [(18, 6), (12, 6), (6, 6), (0, 2)], cls := 0, turns := 1, latency := 0, cont := 0 },
   { key := 0x002C02, template := 0x2C000008, fields := [(18, 6), (12, 6), (0, 2)], cls := 0, turns := 1, latency := 0, cont := 0 },
   { key := 0x002D00, template := 0x2D000000, fields := [(18, 6), (12, 6), (0, 2)], cls := 0, turns := 1, latency := 2, cont := 0 },
   { key := 0x002D01, template := 0x2D000004, fields := [(18, 6), (12, 6), (0, 2)], cls := 0, turns := 1, latency := 2, cont := 0 },
   { key := 0x002D02, template := 0x2D000008, fields := [(18, 6), (12, 6), (0, 2)], cls := 0, turns := 1, latency := 2, cont := 0 },
   { key := 0x002D03, template := 0x2D00000C, fields := [(18, 6), (12, 6), (0, 2)], cls := 0, turns := 1, latency := 2, cont := 0 },
   { key := 0x002D04, template := 0x2D000010, fields := [(18, 6), (12, 6), (0, 2)], cls := 0, turns := 1, latency := 2, cont := 0 },
   { key := 0x002D05, template := 0x2D000014, fields := [(18, 6), (12, 6), (6, 6)], cls := 0, turns := 1, latency := 2, cont := 0 },
   { key := 0x002E00, template := 0x2E000000, fields := [(18, 6), (12, 6), (6, 6), (0, 2)], cls := 4, turns := 1, latency := 4, cont := 0 },
   { key := 0x002E01, template := 0x2E000004, fields := [(12, 6), (6, 6), (18, 6), (0, 2)], cls := 0, turns := 1, latency := 0, cont := 0 },
   { key := 0x002E02, template := 0x2E000008, fields := [(18, 6), (12, 6), (0, 2)], cls := 0, turns := 1, latency := 2, cont := 0 },
   { key := 0x002E03, template := 0x2E00000C, fields := [(18, 6), (12, 6), (0, 2)], cls := 0, turns := 1, latency := 2, cont := 0 },
   { key := 0x003000, template := 0x30000000, fields := [(18, 6), (12, 6), (6, 6), (0, 2)], cls := 4, turns := 1, latency := 8, cont := 0 },
   { key := 0x003001, template := 0x30000004, fields := [(18, 6), (12, 6), (6, 6), (0, 2)], cls := 4, turns := 1, latency := 8, cont := 0 },
   { key := 0x003100, template := 0x31000000, fields := [], cls := 0, turns := 1, latency := 0, cont := 0 },
   { key := 0x003101, template := 0x31000004, fields := [], cls := 0, turns := 1, latency := 0, cont := 0 },
   { key := 0x003102, template := 0x31000008, fields := [(18, 6), (12, 6), (0, 2)], cls := 0, turns := 1, latency := 0, cont := 0 },
   { key := 0x003103, template := 0x3100000C, fields := [(18, 6), (12, 6), (0, 2)], cls := 4, turns := 1, latency := 8, cont := 0 },
   { key := 0x003104, template := 0x31000010, fields := [(18, 6), (12, 6), (0, 2)], cls := 4, turns := 1, latency := 8, cont := 0 },
   { key := 0x003105, template := 0x31000014, fields := [(12, 6), (6, 6), (0, 2)], cls := 0, turns := 1, latency := 0, cont := 0 },
   { key := 0x003200, template := 0x32000000, fields := [(12, 6), (0, 2)], cls := 0, turns := 1, latency := 0, cont := 0 },
   { key := 0x003201, template := 0x32000004, fields := [(12, 6), (0, 2)], cls := 0, turns := 1, latency := 0, cont := 0 },
   { key := 0x003202, template := 0x32000008, fields := [(18, 6), (12, 6), (0, 2)], cls := 0, turns := 1, latency := 0, cont := 0 },
   { key := 0x003203, template := 0x3200000C, fields := [(12, 6), (0, 2)], cls := 0, turns := 1, latency := 0, cont := 0 },
   { key := 0x003300, template := 0x33000000, fields := [(12, 6), (6, 6), (0, 2)], cls := 0, turns := 1, latency := 0, cont := 0 },
   { key := 0x003302, template := 0x33000008, fields := [(12, 6), (6, 6), (0, 2)], cls := 0, turns := 1, latency := 0, cont := 0 },
   { key := 0x003303, template := 0x3300000C, fields := [(12, 6), (0, 2)], cls := 0, turns := 1, latency := 0, cont := 0 },
   { key := 0x003400, template := 0x34000000, fields := [(12, 6), (0, 2)], cls := 4, turns := 1, latency := 4, cont := 0 },
   { key := 0x003500, template := 0x35000000, fields := [(0, 24)], cls := 0, turns := 1, latency := 0, cont := 0 }]

def nativePart4 : List NativeRecord :=
  [{ key := 0x003600, template := 0x36000000, fields := [(12, 6), (6, 6), (0, 2)], cls := 0, turns := 1, latency := 0, cont := 0 },
   { key := 0x003601, template := 0x36000004, fields := [(12, 6), (6, 6), (0, 2)], cls := 0, turns := 1, latency := 0, cont := 0 },
   { key := 0x003602, template := 0x36000008, fields := [(18, 6), (12, 6), (6, 6), (0, 2)], cls := 0, turns := 1, latency := 0, cont := 0 },
   { key := 0x003603, template := 0x3600000C, fields := [(18, 6), (12, 6), (6, 6), (0, 2)], cls := 0, turns := 1, latency := 0, cont := 0 },
   { key := 0x003604, template := 0x36000010, fields := [(12, 6), (6, 6), (0, 2)], cls := 0, turns := 1, latency := 0, cont := 0 },
   { key := 0x003605, template := 0x36000014, fields := [(12, 6), (6, 6), (0, 2)], cls := 0, turns := 1, latency := 0, cont := 0 },
   { key := 0x003606, template := 0x36000018, fields := [(12, 6), (0, 2)], cls := 0, turns := 1, latency := 0, cont := 0 },
   { key := 0x003608, template := 0x36000020, fields := [(12, 6), (6, 6), (0, 2)], cls := 0, turns := 1, latency := 0, cont := 0 },
   { key := 0x003609, template := 0x36000024, fields := [(12, 6), (6, 6), (0, 2)], cls := 0, turns := 1, latency := 0, cont := 0 },
   { key := 0x00360A, template := 0x36000028, fields := [(18, 6), (12, 6), (6, 6), (0, 2)], cls := 0, turns := 1, latency := 0, cont := 0 },
   { key := 0x00360B, template := 0x3600002C, fields := [(18, 6), (12, 6), (6, 6), (0, 2)], cls := 0, turns := 1, latency := 0, cont := 0 },
   { key := 0x00360C, template := 0x36000030, fields := [(12, 6), (6, 6), (0, 2)], cls := 0, turns := 1, latency := 0, cont := 0 },
   { key := 0x00360D, template := 0x36000034, fields := [(12, 6), (6, 6), (0, 2)], cls := 0, turns := 1, latency := 0, cont := 0 },
   { key := 0x00360E, template := 0x36000038, fields := [(12, 6), (0, 2)], cls := 0, turns := 1, latency := 0, cont := 0 },
   { key := 0x003800, template := 0x38000000, fields := [(18, 6), (12, 6)], cls := 0, turns := 1, latency := 2, cont := 0 },
   { key := 0x003801, template := 0x38000004, fields := [(18, 6), (12, 6), (0, 2)], cls := 0, turns := 1, latency := 0, cont := 0 },
   { key := 0x003802, template := 0x38000008, fields := [(6, 12)], cls := 0, turns := 1, latency := 0, cont := 0 },
   { key := 0x003803, template := 0x3800000C, fields := [(18, 6), (12, 6), (0, 2)], cls := 4, turns := 1, latency := 8, cont := 0 },
   { key := 0x003804, template := 0x38000010, fields := [(18, 6), (12, 6), (6, 6), (0, 2)], cls := 4, turns := 1, latency := 8, cont := 0 },
   { key := 0x003805, template := 0x38000014, fields := [(18, 6), (12, 6), (0, 2)], cls := 4, turns := 1, latency := 120, cont := 0 },
   { key := 0x003806, template := 0x38000018, fields := [(18, 6), (12, 6), (0, 2)], cls := 0, turns := 1, latency := 0, cont := 0 },
   { key := 0x003807, template := 0x3800001C, fields := [], cls := 0, turns := 1, latency := 0, cont := 0 },
   { key := 0x003808, template := 0x38000020, fields := [(18, 6), (12, 6), (6, 6), (0, 2)], cls := 4, turns := 1, latency := 8, cont := 0 },
   { key := 0x003809, template := 0x38000024, fields := [(18, 6), (12, 6), (6, 6), (0, 2)], cls := 0, turns := 1, latency := 0, cont := 0 },
   { key := 0x003900, template := 0x39000000, fields := [(18, 6), (12, 6), (6, 6), (0, 2)], cls := 0, turns := 1, latency := 4, cont := 0 },
   { key := 0x003901, template := 0x39000004, fields := [(18, 6), (12, 6), (6, 6), (0, 2)], cls := 0, turns := 1, latency := 4, cont := 0 },
   { key := 0x003902, template := 0x39000008, fields := [(18, 6), (12, 6), (6, 6), (0, 2)], cls := 0, turns := 1, latency := 4, cont := 0 },
   { key := 0x003903, template := 0x3900000C, fields := [(18, 6), (12, 6), (6, 6), (0, 2)], cls := 0, turns := 1, latency := 4, cont := 0 },
   { key := 0x003904, template := 0x39000010, fields := [(18, 6), (12, 6), (6, 6), (0, 2)], cls := 0, turns := 1, latency := 4, cont := 0 },
   { key := 0x003905, template := 0x39000014, fields := [(18, 6), (12, 6), (0, 2)], cls := 0, turns := 1, latency := 4, cont := 0 }]

def nativePart5 : List NativeRecord :=
  [{ key := 0x003906, template := 0x39000018, fields := [(18, 6), (12, 6), (0, 2)], cls := 0, turns := 1, latency := 4, cont := 0 },
   { key := 0x003907, template := 0x3900001C, fields := [(18, 6), (12, 6), (0, 2)], cls := 0, turns := 1, latency := 4, cont := 0 },
   { key := 0x003908, template := 0x39000020, fields := [(18, 6), (12, 6), (0, 2)], cls := 0, turns := 1, latency := 4, cont := 0 },
   { key := 0x003A00, template := 0x3A000000, fields := [(18, 6), (12, 6), (6, 6), (0, 2), (2, 4)], cls := 0, turns := 1, latency := 4, cont := 0 },
   { key := 0x010000, template := 0x40000000, fields := [(19, 5), (14, 5), (9, 5), (2, 3), (0, 2)], cls := 1, turns := 1, latency := 4, cont := 0 },
   { key := 0x010001, template := 0x40000020, fields := [(19, 5), (14, 5), (9, 5), (2, 3), (0, 2)], cls := 1, turns := 1, latency := 4, cont := 0 },
   { key := 0x010002, template := 0x40000040, fields := [(19, 5), (14, 5), (9, 5), (2, 3), (0, 2)], cls := 1, turns := 1, latency := 4, cont := 0 },
   { key := 0x010003, template := 0x40000060, fields := [(19, 5), (14, 5), (9, 5), (2, 3), (0, 2)], cls := 1, turns := 1, latency := 4, cont := 0 },
   { key := 0x010004, template := 0x40000080, fields := [(19, 5), (14, 5), (9, 5), (2, 3), (0, 2)], cls := 1, turns := 1, latency := 4, cont := 0 },
   { key := 0x010005, template := 0x400000A0, fields := [(19, 5), (14, 5), (2, 3)], cls := 1, turns := 1, latency := 4, cont := 0 },
   { key := 0x010006, template := 0x400000C0, fields := [(19, 5), (14, 5), (2, 3)], cls := 1, turns := 1, latency := 4, cont := 0 },
   { key := 0x010007, template := 0x400000E0, fields := [(19, 5), (14, 5), (2, 3), (0, 2)], cls := 1, turns := 1, latency := 4, cont := 0 },
   { key := 0x010008, template := 0x40000100, fields := [(19, 5), (14, 5), (9, 5), (2, 3), (0, 2)], cls := 1, turns := 1, latency := 4, cont := 0 },
   { key := 0x010100, template := 0x41000000, fields := [(19, 5), (14, 5), (9, 5), (2, 3), (0, 2)], cls := 1, turns := 1, latency := 4, cont := 0 },
   { key := 0x010200, template := 0x42000000, fields := [(19, 5), (14, 5), (9, 5), (2, 3), (5, 4)], cls := 1, turns := 1, latency := 4, cont := 0 },
   { key := 0x010300, template := 0x43000000, fields := [(19, 5), (14, 5), (2, 3), (0, 2), (5, 4)], cls := 1, turns := 1, latency := 4, cont := 0 },
   { key := 0x010400, template := 0x44000000, fields := [(19, 5), (14, 5), (9, 5), (2, 3)], cls := 1, turns := 1, latency := 4, cont := 0 },
   { key := 0x010401, template := 0x44000020, fields := [(19, 5), (14, 5), (9, 5), (2, 3)], cls := 1, turns := 1, latency := 4, cont := 0 },
   { key := 0x010402, template := 0x44000040, fields := [(19, 5), (14, 5), (9, 5), (2, 3)], cls := 1, turns := 1, latency := 4, cont := 0 },
   { key := 0x010403, template := 0x44000060, fields := [(19, 5), (14, 5), (9, 5), (2, 3)], cls := 1, turns := 1, latency := 4, cont := 0 },
   { key := 0x010404, template := 0x44000080, fields := [(19, 5), (14, 5), (9, 5), (2, 3)], cls := 1, turns := 1, latency := 4, cont := 0 },
   { key := 0x010405, template := 0x440000A0, fields := [(19, 5), (14, 5), (9, 5), (2, 3)], cls := 1, turns := 1, latency := 4, cont := 0 },
   { key := 0x010406, template := 0x440000C0, fields := [(19, 5), (14, 5), (9, 5), (2, 3)], cls := 1, turns := 1, latency := 4, cont := 0 },
   { key := 0x010407, template := 0x440000E0, fields := [(19, 5), (14, 5), (9, 5), (2, 3)], cls := 1, turns := 1, latency := 4, cont := 0 },
   { key := 0x010408, template := 0x44000100, fields := [(19, 5), (14, 5), (9, 5), (2, 3)], cls := 1, turns := 1, latency := 4, cont := 0 },
   { key := 0x010500, template := 0x45000000, fields := [(19, 5), (14, 5), (2, 3)], cls := 1, turns := 4, latency := 8, cont := 0 },
   { key := 0x010501, template := 0x45000020, fields := [(19, 5), (14, 5), (2, 3)], cls := 1, turns := 4, latency := 8, cont := 0 },
   { key := 0x010502, template := 0x45000040, fields := [(19, 5), (14, 5), (2, 3)], cls := 1, turns := 4, latency := 8, cont := 0 },
   { key := 0x010503, template := 0x45000060, fields := [(19, 5), (14, 5), (2, 3)], cls := 1, turns := 4, latency := 8, cont := 0 },
   { key := 0x010504, template := 0x45000080, fields := [(19, 5), (14, 5), (2, 3)], cls := 1, turns := 4, latency := 8, cont := 0 }]

def nativePart6 : List NativeRecord :=
  [{ key := 0x010505, template := 0x450000A0, fields := [(19, 5), (14, 5), (2, 3)], cls := 1, turns := 4, latency := 8, cont := 0 },
   { key := 0x010506, template := 0x450000C0, fields := [(19, 5), (14, 5), (2, 3)], cls := 1, turns := 4, latency := 8, cont := 0 },
   { key := 0x010507, template := 0x450000E0, fields := [(19, 5), (14, 5), (2, 3)], cls := 1, turns := 4, latency := 8, cont := 0 },
   { key := 0x010600, template := 0x46000000, fields := [(19, 5), (14, 5), (2, 3)], cls := 1, turns := 1, latency := 4, cont := 0 },
   { key := 0x010601, template := 0x46000020, fields := [(19, 5), (14, 5), (2, 3), (0, 2)], cls := 1, turns := 1, latency := 4, cont := 0 },
   { key := 0x010602, template := 0x46000040, fields := [(19, 5), (14, 5), (9, 5), (2, 3), (0, 2)], cls := 5, turns := 1, latency := 4, cont := 0 },
   { key := 0x010603, template := 0x46000060, fields := [(19, 5), (14, 5), (9, 5), (2, 3), (0, 2)], cls := 5, turns := 1, latency := 4, cont := 0 },
   { key := 0x010604, template := 0x46000080, fields := [(19, 5), (14, 5), (2, 3), (0, 2)], cls := 1, turns := 1, latency := 4, cont := 0 },
   { key := 0x010605, template := 0x460000A0, fields := [(19, 5), (14, 5), (2, 3)], cls := 1, turns := 1, latency := 4, cont := 0 },
   { key := 0x010700, template := 0x47000000, fields := [(19, 5), (14, 5), (2, 3), (0, 2), (5, 4)], cls := 5, turns := 1, latency := 20, cont := 0 },
   { key := 0x010800, template := 0x48000000, fields := [(21, 3), (19, 2), (18, 1), (13, 5), (8, 5), (3, 1)], cls := 5, turns := 1, latency := 36, cont := 0 },
   { key := 0x010801, template := 0x48000010, fields := [(21, 3)], cls := 1, turns := 1, latency := 4, cont := 0 },
   { key := 0x010802, template := 0x48000020, fields := [(21, 3), (13, 5)], cls := 1, turns := 1, latency := 4, cont := 0 },
   { key := 0x010803, template := 0x48000030, fields := [(21, 3), (13, 5)], cls := 1, turns := 1, latency := 4, cont := 0 },
   { key := 0x010804, template := 0x48000040, fields := [(21, 3), (13, 5)], cls := 1, turns := 1, latency := 4, cont := 0 },
   { key := 0x010805, template := 0x48000050, fields := [(21, 3), (13, 5)], cls := 1, turns := 1, latency := 4, cont := 0 },
   { key := 0x010900, template := 0x49040000, fields := [(19, 2), (8, 5)], cls := 1, turns := 1, latency := 4, cont := 0 },
   { key := 0x020000, template := 0x80000000, fields := [(18, 6), (0, 18), (32, 30)], cls := 2, turns := 1, latency := 2, cont := 0xC0000000 },
   { key := 0x020100, template := 0x81000000, fields := [(0, 22), (23, 1), (22, 1), (32, 30)], cls := 2, turns := 1, latency := 0, cont := 0xC0000000 },
   { key := 0x020200, template := 0x82000000, fields := [(0, 23), (32, 30), (23, 1)], cls := 2, turns := 1, latency := 0, cont := 0xC0000000 }]

/-- The records of the native table. -/
def nativeRecords : List NativeRecord :=
  nativePart0 ++ nativePart1 ++ nativePart2 ++ nativePart3 ++ nativePart4 ++ nativePart5 ++ nativePart6

/-- A record as its 32 bytes (R400). -/
def NativeRecord.bytes (r : NativeRecord) : List Byte :=
  natLe r.key 4 ++ natLe r.template 4
    ++ bytesAt (r.fields.flatMap (fun f => [BitVec.ofNat 8 f.1, BitVec.ofNat 8 f.2])) 0 12
    ++ [BitVec.ofNat 8 r.cls, BitVec.ofNat 8 r.turns] ++ natLe r.latency 2 ++ natLe r.cont 4 ++ natLe 0 4

/-- Bytes 0-15 of the header (R399). -/
def nativeHead : List Byte := natLe 0x45564954414E5A48 8 ++ natLe 1 4 ++ natLe nativeRecords.length 4

/-- Bytes 32 to the end (R399). -/
def nativeTail : List Byte :=
  natLe 32 4 ++ natLe 64 4 ++ List.replicate 24 0 ++ nativeRecords.flatMap NativeRecord.bytes

/-- The identity of the table: the first 128 bits of SHAKE256 over the rest (R399). -/
def nativeIdentity : List Byte := bytesAt (shake256 (nativeHead ++ nativeTail) 16) 0 16

/-- The bytes of the table. -/
def nativeLength : Nat := 64 + 32 * nativeRecords.length

/-- The byte of the table at an offset. -/
def nativeByte (off : Nat) : Byte :=
  if off < 16 then nativeHead.getD off 0
  else if off < 32 then nativeIdentity.getD (off - 16) 0
  else if off < 64 then ((natLe 32 4 ++ natLe 64 4).getD (off - 32) 0)
  else match nativeRecords[(off - 64) / 32]? with
    | some r => r.bytes.getD (off % 32) 0
    | none => 0

/-- The T-window address of the record with a key; 0 when no record has it (R401). -/
def nativeLookup (key : Nat) : Nat :=
  match (List.range nativeRecords.length).find? (fun i => decide ((nativeRecords[i]?.map (fun r => r.key)) = some key)) with
  | some i => 0x40000000 + 64 + 32 * i
  | none => 0

end Sys2Proof.Machine
end

