-- ==== Sys2Proof/Machine/Device.lean ====
section
/-!
DEFINITION. The device registers (R34, R37, R53, R101, R106, R398, R441, R452, R458, R460, R463): what a load reads at each
offset, and the event that a store to each becomes.
-/

namespace Sys2Proof.Machine

/-- The die and offset of a physical address in device space (R34). -/
def devDie (pa : Nat) : Nat := pa / 2 ^ 36 % 16
def devOff (pa : Nat) : Nat := pa % 2 ^ 36

/-- The state register (R458): bits 2k+1:2k for virtual function k + 1. -/
def State.fnStates (s : State) : Nat :=
  (List.range 16).foldl (fun acc k => acc + (tget HostFn.reset s.fns (k + 1)).state.toNat * 4 ^ k) 0

/-- The number of a master (R460). -/
def Master.number : Master → Nat
  | .hostDriver => 0
  | .management => 1
  | .debugger => 2

/-- The byte of a multi-byte register at an offset from it. -/
def byteOf (v i : Nat) : Byte := BitVec.ofNat 8 (v / 256 ^ i)

/-- The byte that a device register gives at an offset; none where the spec names no register or states no value. -/
def State.deviceByte (s : State) (die off : Nat) : Option Byte :=
  if 0x20000 ≤ off ∧ off < 0x20800 then
    let g := die * 16384 + 8 * (off - 0x20000)
    some (BitVec.ofNat 8 ((List.range 8).foldl (fun acc j => acc + if s.pinned.contains (g + j) then 2 ^ j else 0) 0))
  else if 0x20800 ≤ off ∧ off < 0x20808 then some (byteOf (tget 0 s.l2ctl die).toNat (off - 0x20800))
  else if 0x21000 ≤ off ∧ off < 0x21200 then
    some (byteOf (tget 0 s.quars (die * 64 + (off - 0x21000) / 8)).toNat ((off - 0x21000) % 8))
  else if 0x21200 ≤ off ∧ off < 0x21208 then some (byteOf (tget 0 s.rdcQuars die).toNat (off - 0x21200))
  else if 0x100000 ≤ off ∧ off < 0x100000 + nativeLength then some (nativeByte (off - 0x100000))
  else if die ≠ 0 then none
  else if 0x30040 ≤ off ∧ off < 0x30050 then some ((bytesAt s.mboxStamp.bytes (off - 0x30040) 1).headD 0)
  else if off = 0x30050 then some (BitVec.ofNat 8 s.mboxStatus)
  else if 0x31000 ≤ off ∧ off < 0x31008 then some (byteOf s.ready.toNat (off - 0x31000))
  else if 0x32000 ≤ off ∧ off < 0x32008 then
    some (byteOf (match s.owner with | some m => m.number | none => 0xFF) (off - 0x32000))
  else if 0x33000 ≤ off ∧ off < 0x33008 then some (byteOf s.fnStates (off - 0x33000))
  else if 0x34000 ≤ off ∧ off < 0x34400 then
    some ((bytesAt (tget [] s.measures ((off - 0x34000) / 64)) (off % 64) 1).headD 0)
  else none

/-- READ `n` bytes of device space: registers as their rules state, a free value for bytes that no rule gives (log entry 13). -/
def State.deviceRead (s : State) (pa n : Nat) : State × List Byte :=
  let free := s.freshBytes n n
  let named := (List.range n).map (fun i => s.deviceByte (devDie pa) (devOff pa + i))
  let all := (named.zip free.1).map (fun (p : Option Byte × Byte) => p.1.getD p.2)
  (if named.all (fun b => b.isSome) then s else free.2, all)

/-- Whether a store to device space raises PROT (R53): a store to the invalidation register of another size, or one that
sets a zero bit. -/
def deviceBad (pa : Nat) (data : List Byte) : Bool :=
  let v := BitVec.ofNat 64 (leNat data)
  decide (devOff pa < 8) &&
    (decide (devOff pa ≠ 0 ∨ data.length ≠ 8) || decide (bitsOf v 63 52 ≠ 0 ∨ bitsOf v 15 2 ≠ 0))

/-- The event that a store to device space becomes (R5, R37, R53, R101, R441, R452, R458, R460). -/
def deviceEvent (pa : Nat) (data : List Byte) : Instr :=
  let off := devOff pa
  if off = 0 then .invalidation
  else if 0x20000 ≤ off ∧ off < 0x20800 then .groupModeWrite
  else if off = 0x20800 ∧ data.length = 8 then .l2ControlWrite
  else if devDie pa ≠ 0 then .deviceRegisterWrite
  else if off = 0x32000 then .ownerClaim
  else if off = 0x33000 then .stateRegisterWrite
  else if 0x34400 ≤ off ∧ off < 0x34680 ∧ off % 64 = 0 ∧ data.length = 64 then .measurementExtend
  else .deviceRegisterWrite

/-- A store of a thread to device space reaches its register: the event is taken next. -/
def State.deviceStore (s : State) (core : CoreIx) (slot tid world pa : Nat) (data : List Byte) : State :=
  let k := if deviceEvent pa data = .measurementExtend then 6 + (devOff pa - 0x34400) / 64 else pa
  let a : Args := { core := core, slot := slot, n := k, m := world, word := BitVec.ofNat 64 tid, data := data }
  { s with urgent := s.urgent ++ [{ what := deviceEvent pa data, arg := a }] }

end Sys2Proof.Machine
end

