-- ==== Sys2Proof/Machine/LoadStore.lean ====
section
/-!
DEFINITION. Loads, stores and shape records (R227-R232).
-/

namespace Sys2Proof.Machine

def isDevice (p : Place) : Bool :=
  match p with
  | .glob pa => decide (2 ^ 40 ≤ pa)
  | _ => false

/-- Whether a place is global memory: then LDA and STL have module scope (R230). -/
def isGlobal (p : Place) : Bool :=
  match p with
  | .glob _ => true
  | _ => false

/-- READ `n` bytes for a load or SLD of the slot, by R25, R26, R227 and R228: the bytes and their place. -/
def loadChecked (r : SlotRef) (t : Thread) (a : Word) (n : Nat) : Run (List Byte × Place) := do
  let p ← liftE (checkAccess (← get) r t a n true false)
  if isGlobal p then modifyS (fun s => s.usedTlb r t a)
  match p with
  | .glob pa =>
    if isDevice p then
      stopIf ((← get).buffered r p n) (.park (.bufferEntry pa n))
      let x := (← get).deviceRead pa n
      set x.1
      return (x.2, p)
    else
      let b ← loadBytes r t a p n
      return (b, p)
  | _ =>
    let b ← loadBytes r t a p n
    return (b, p)

/-- Finish an instruction run in parts: `t` is its thread as it stands. -/
def retireR (t : Thread) (reads : List Reg) (marked : List (Bool × Reg)) (dest : Option (Reg × Word)) : Run Unit :=
  modifyS (fun s => retire s t reads marked dest 4)

/-- The value that a load delivers (R227). -/
def loaded (signed : Bool) (b : List Byte) : Word :=
  if signed then (BitVec.ofNat (8 * b.length) (leNat b)).signExtend 64 else BitVec.ofNat 64 (leNat b)

/-- LD, LDS, LDX and LDA from their effective address on. -/
def loadInto (t : Thread) (d : Reg) (reads : List Reg) (marked : List (Bool × Reg)) (a : Word) (n : Nat) (signed acquire : Bool) :
    Run Unit := do
  let r := (← get).cur
  liftE (checkDest (← get) t d)
  let x ← loadChecked r t a n
  if acquire then acquireR r t (isGlobal x.2)
  retireR t reads marked (some (d, loaded signed x.1))

/-- The checks of a store of bytes, then its entry into the store buffer (R111, R227, R228). -/
def storeChecked (r : SlotRef) (t : Thread) (a : Word) (data : List Byte) (release : Bool) : Run Unit := do
  let n := data.length
  let p ← liftE (checkAccess (← get) r t a n false true)
  match p with
  | .glob pa =>
    if isDevice p then
      needR (!deviceBad pa data) .prot a
      stopIf (decide (32 ≤ ((← get).core r.core).buf.length)) (.park .buffer)
      if release || decide (devOff pa < 8) then releaseR r t true
    else
      liftE (storeChecks (← get) r t a p n)
      if release then releaseR r t true
    modifyS (fun s => s.usedTlb r t a)
  | _ =>
    liftE (storeChecks (← get) r t a p n)
    if release then releaseR r t false
  modifyS (fun s => s.buffer r t p a n (.bytes data))

/-- ST, STX and STL from their effective address on. -/
def storeFrom (t : Thread) (reads : List Reg) (marked : List (Bool × Reg)) (a v : Word) (n : Nat) (release : Bool) : Run Unit := do
  storeChecked (← get).cur t a (natLe v.toNat n) release
  retireR t reads marked none

/-- LD, LDS and LDA. -/
def loadForm (d b : Reg) (sz : Size) (disp : BitVec 10) (signed acquire : Bool) (s : State) : Host.Outcome State Fault Refusal :=
  issueRun s 4 fun t => do
    let x ← liftE (readReg s t [] b)
    loadInto t d [b] [] (eaSized x disp (sizeBytes sz)) (sizeBytes sz) signed acquire

/-- LDX. -/
def loadIndexed (d a b : Reg) (sz : Size) (m : Marks) (signed : Bool) (s : State) : Host.Outcome State Fault Refusal :=
  issueRun s 4 fun t => do
    let x ← liftE (read2 s t a b)
    loadInto t d [a, b] (markAB m a b) (x.1 + x.2) (sizeBytes sz) signed false

/-- ST and STL: the base is read before the data. -/
def storeForm (d b : Reg) (sz : Size) (disp : BitVec 10) (release : Bool) (s : State) : Host.Outcome State Fault Refusal :=
  issueRun s 4 fun t => do
    let x ← liftE (read2 s t b d)
    storeFrom t [b, d] [] (eaSized x.1 disp (sizeBytes sz)) x.2 (sizeBytes sz) release

/-- LD (R227). -/
def execLd (d b : Reg) (sz : Size) (disp : BitVec 10) (s : State) : Host.Outcome State Fault Refusal :=
  loadForm d b sz disp false false s

/-- LDS (R227). -/
def execLds (d b : Reg) (sz : Size) (disp : BitVec 10) (s : State) : Host.Outcome State Fault Refusal :=
  loadForm d b sz disp true false s

/-- ST (R227). -/
def execSt (d b : Reg) (sz : Size) (disp : BitVec 10) (s : State) : Host.Outcome State Fault Refusal :=
  storeForm d b sz disp false s

/-- LDA: a load that is also an acquire (R230). -/
def execLda (d b : Reg) (sz : Size) (disp : BitVec 10) (s : State) : Host.Outcome State Fault Refusal :=
  loadForm d b sz disp false true s

/-- STL: a store that is also a release (R230). -/
def execStl (d b : Reg) (sz : Size) (disp : BitVec 10) (s : State) : Host.Outcome State Fault Refusal :=
  storeForm d b sz disp true s

/-- LDX, zero-extended (R229). -/
def execLdx (d a b : Reg) (sz : Size) (m : Marks) (s : State) : Host.Outcome State Fault Refusal :=
  loadIndexed d a b sz m false s

/-- LDX, sign-extended (R229). -/
def execLdxS (d a b : Reg) (sz : Size) (m : Marks) (s : State) : Host.Outcome State Fault Refusal :=
  loadIndexed d a b sz m true s

/-- STX (R229). -/
def execStx (d a b : Reg) (sz : Size) (m : Marks) (s : State) : Host.Outcome State Fault Refusal :=
  issueRun s 4 fun t => do
    let x ← liftE (read3 s t a b d)
    storeFrom t [a, b, d] (markAB m a b) (x.1 + x.2.1) x.2.2 (sizeBytes sz) false

/-! ### Shape records (R231, R232) -/

/-- A 32-byte record as a shape, and back (R147). -/
def Shape.ofBytes (b : List Byte) : Shape :=
  { w0 := BitVec.ofNat 64 (fieldAt b 0 8), w1 := BitVec.ofNat 64 (fieldAt b 8 8), w2 := BitVec.ofNat 64 (fieldAt b 16 8),
    w3 := BitVec.ofNat 64 (fieldAt b 24 8) }

def Shape.bytes (sh : Shape) : List Byte :=
  natLe sh.w0.toNat 8 ++ natLe sh.w1.toNat 8 ++ natLe sh.w2.toNat 8 ++ natLe sh.w3.toNat 8

/-- SLD (R231). -/
def execSld (n : Fin 16) (a b : Reg) (m : Marks) (s : State) : Host.Outcome State Fault Refusal :=
  issueRun s 4 fun t => do
    let x ← liftE (read2 s t a b)
    let v ← loadChecked s.cur t (x.1 + x.2) 32
    retireR { t with shapes := t.shapes.set n (Shape.ofBytes v.1) } [a, b] (markAB m a b) none

/-- SST: one store-buffer entry of 32 bytes (R231). -/
def execSst (n : Fin 16) (a b : Reg) (m : Marks) (s : State) : Host.Outcome State Fault Refusal :=
  issueRun s 4 fun t => do
    let x ← liftE (read2 s t a b)
    storeChecked s.cur t (x.1 + x.2) (t.shapes[n]).bytes false
    retireR t [a, b] (markAB m a b) none

/-- SBASE (R231). -/
def execSbase (n : Fin 16) (a : Reg) (ma : Bool) (s : State) : Host.Outcome State Fault Refusal :=
  issue s fun t => do
    let x ← readReg s t [] a
    return retire s { t with shapes := t.shapes.set n { t.shapes[n] with w0 := x } } [a] [(ma, a)] none 4

/-- The base that SOFF leaves (R232). -/
def offsetBase (w0 x : Word) : Word :=
  if isLocalWindow (windowOf w0) || decide (windowOf w0 = 0xF8) then
    BitVec.ofNat 64 (w0.toNat / 65536 * 65536 + (w0.toNat + x.toNat) % 65536)
  else w0 + x

/-- SOFF (R231, R232). -/
def execSoff (n : Fin 16) (a : Reg) (ma : Bool) (s : State) : Host.Outcome State Fault Refusal :=
  issue s fun t => do
    let x ← readReg s t [] a
    return retire s { t with shapes := t.shapes.set n { t.shapes[n] with w0 := offsetBase (t.shapes[n]).w0 x } } [a] [(ma, a)] none 4

end Sys2Proof.Machine
end

