-- ==== Sys2Proof/Machine/Homes.lean ====
section
/-!
DEFINITION. What happens at the home of a word (R88, R94, R100, R111, R124-R127, R284-R291): store-buffer entries
performed, visits, held requests served, reservations handed on, results filled into registers.
-/

namespace Sys2Proof.Machine

/-! ### Remote fills (R182) -/

/-- Send a fill to a core. -/
def State.sendFill (s : State) (c : CoreIx) (f : Fill) : State :=
  (s.modCore c (fun k => { k with fills := k.fills ++ [f] })).laterOnce .remoteFill { core := c }

/-- An agent sends a result to a register of a slot's thread, under a stamp of its own (R28-R30). -/
def State.deliverResult (s : State) (r : SlotRef) (tid : Nat) (d : Reg) (v : Word) (flags : FFlags) (src : Nat) : State :=
  let x := s.mint src
  x.2.sendFill r.core { slot := r.slot, tid := tid, reg := d, value := v, flags := flags, poke := false, stamp := x.1, after := none }

/-- The thread that a fill is for, if it still runs. -/
def State.fillThread (s : State) (c : CoreIx) (f : Fill) : Option Thread :=
  match s.thread? { core := c, slot := f.slot } with
  | some t => if t.id = f.tid then some t else none
  | none => none

/-- The maker of the release that a POKE makes (R120). -/
def Fill.who (f : Fill) (r : SlotRef) (world : Nat) : Who :=
  { src := f.stamp.src, world := world, region := 0xFFFFFF, slot := r.slot, kind := 1, va := none }

/-- Whether the release that a POKE makes has completed, or can (R118, R120). -/
def State.fillReleased (s : State) (f : Fill) : Bool :=
  match f.after with
  | none => true
  | some (r, _) => s.olderDone r f.stamp

/-- Whether a fill can take effect now: never on a full register; a POKE also waits for its release and for a register whose own result is
under way, and is discarded where the block is unheld (R120, R182, R344). A result for a saved thread is held
until the restore, and a POKE to one is discarded (R430, R431). -/
def State.fillReady (s : State) (c : CoreIx) (f : Fill) : Bool :=
  s.fillReleased f &&
  match s.fillThread c f with
  | none => f.poke || !s.isSaved f.tid
  | some t =>
    match f.reg with
    | .g n => !f.poke || !t.holds n || (!(t.g[n]).full && !(t.g[n]).pending)
    | .port p => decide ((s.portOut c p).length < 4)
    | _ => true

/-- A result for a g register takes effect where the register awaits one. One whose block was released first is discarded, though the
block may be held again (R184). -/
def Thread.takeResult (t : Thread) (n : Fin 40) (v : Word) : Thread :=
  if t.stale.contains n.val then { t with stale := t.stale.erase n.val }
  else if t.holds n && (t.g[n]).pending then t.setG n v else t

/-- A fill takes effect. A thread that waited for a result outside the g registers goes on. -/
def State.performFill (s : State) (c : CoreIx) (f : Fill) : State :=
  let r : SlotRef := { core := c, slot := f.slot }
  match s.fillThread c f with
  | none => s
  | some t =>
    match f.reg with
    | .g n =>
      if f.poke then (if t.holds n then s.setThread r (t.setG n f.value) else s)
      else s.setThread r ((t.takeResult n f.value).orFlags f.flags)
    | .port p => (s.setThread r { t.orFlags f.flags with parked := none }).givePort c p f.value
    | .x n => s.setThread r { (t.orFlags f.flags).write (.x n) f.value with parked := none }
    | .lk => s.setThread r { (t.orFlags f.flags).write .lk f.value with parked := none }
    | _ => s.setThread r (t.orFlags f.flags)

/-- The earliest of some stamped things. -/
def earliestBy {α : Type} (st : α → Stamp) (l : List α) : Option α :=
  l.foldl (fun (b : Option α) x => match b with
    | none => some x
    | some y => if (st x).before (st y) then some x else b) none

/-- REMOTE_FILL: the earliest fill of a core that can take effect does (R182). -/
def execRemoteFill (s : State) : Host.Outcome State Fault Refusal :=
  let c := s.arg.core
  match earliestBy (fun f => f.stamp) ((s.core c).fills.filter (s.fillReady c)) with
  | none => .next s
  | some f =>
    let s1 : State := (s.performFill c f).modCore c (fun k => { k with fills := k.fills.erase f })
    .next (if (s1.core c).fills.any (s1.fillReady c) then s1.laterOnce .remoteFill { core := c } else s1)

/-! ### One access at a home -/

/-- The maker of a store-buffer entry's access. -/
def BufEntry.who (e : BufEntry) (c : CoreIx) (kind : Nat) : Who :=
  { src := slotSource { core := c, slot := e.slot }, world := e.world, region := e.region, slot := e.slot, kind := kind,
    va := if windowOf e.va = 0 then some (lineOf (e.va.toNat % 2 ^ 52)) else none }

/-- An access that must meet its home: the die of a far requester first writes back and drops its copy (R100). -/
def State.yieldFar (s : State) (w : Who) (c : CoreIx) (p : Place) : State :=
  match p with
  | .glob pa => if paDie pa = dieOf c then s else s.rdcYield w (dieOf c) (lineOf pa)
  | _ => s

/-- What the write-back of that copy waits for at the home. -/
def State.yieldMeet (s : State) (w : Who) (c : CoreIx) (p : Place) : Option (State × Park) :=
  match p with
  | .glob pa =>
    if paDie pa = dieOf c then none
    else (s.rdcs.find? (fun x => decide (x.die = dieOf c ∧ x.pa = lineOf pa))).bind (s.copyMeet w c)
  | _ => none

/-- Whether a word's line or local word is poisoned to a world's eyes (R40, R58, R132). -/
def State.poisonedAt (s : State) (world : Nat) (p : Place) : Bool :=
  match p with
  | .glob pa => decide (s.lineCase world (lineOf pa) = .own) && (s.tag (lineOf pa)).poison
  | .loc c o => ((s.detectLocal c o).core c).poison.contains (o / 8 * 8)
  | .scale _ _ => false

/-- A VISIT: one indivisible read and write of `n` bytes at their home (R124). `f` gives the new value, or none where
nothing is written. The answer is the old value, or the cause for which the visit is not performed. -/
def State.visitWord (s : State) (w : Who) (c : CoreIx) (p : Place) (n : Nat) (f : Nat → Option Nat) : State × Except Cause Nat :=
  match p with
  | .loc k o =>
    match s.locRead k o n with
    | (s1, .error e) => (s1, .error e)
    | (s1, .ok b) =>
      match f (leNat b) with
      | some v => ((s1.locWrite k o (natLe v n)).1, .ok (leNat b))
      | none => (s1, .ok (leNat b))
  | .scale _ _ => (s, .error .win)
  | .glob pa =>
    match ((s.rouse (s.homeOf (lineOf pa))).yieldFar w c p).homeRead { w with kind := 5 } pa n with
    | (s1, .error e) => (s1.logAll (lineOf pa) w (e = .prot), .error e)
    | (s1, .ok b) =>
      match f (leNat b) with
      | some v => ((s1.homeWrite w none pa (natLe v n)).1, .ok (leNat b))
      | none => (((s1.retag (lineOf pa) w).taint w pa n).logAll (lineOf pa) w false, .ok (leNat b))

/-- What an AMO makes of the word w and the operand b (R289), in `n` bytes, with flags. -/
def amoApply (op : AmoOp) (w : Nat) (b : Word) : Nat × FFlags :=
  let x : Word := BitVec.ofNat 64 w
  match op with
  | .add => ((x + b).toNat, 0)
  | .min => ((if b.slt x then b else x).toNat, 0)
  | .max => ((if x.slt b then b else x).toNat, 0)
  | .minn => ((if b.ult x then b else x).toNat, 0)
  | .maxn => ((if x.ult b then b else x).toNat, 0)
  | .and => ((x &&& b).toNat, 0)
  | .or => ((x ||| b).toNat, 0)
  | .xor => ((x ^^^ b).toNat, 0)
  | .swap => (b.toNat, 0)
  | .fadd => let r := f32Add (BitVec.ofNat 32 w) (b.setWidth 32); (r.1.toNat, r.2)

/-- Bytes of an atomic's word: 4 for FADD, else 8 (R282). -/
def amoBytes : AmoOp → Nat
  | .fadd => 4
  | _ => 8

/-- The notice for a visit or update that poison kept from being performed (R290, R291). -/
def State.visitNotice (s : State) (c : Cause) (core : CoreIx) (world region : Nat) (p : Place) (va : Word) : State :=
  let x := s.mint (containmentSource (match p with | .glob pa => paDie pa | _ => dieOf core))
  x.2.sendNotice c world (some region) x.1 va (match p with | .glob pa => BitVec.ofNat 64 (lineOf pa) | _ => 0)

/-- The core whose atomic unit and memory serve a place (R16, R28). -/
def State.homeAt (s : State) (p : Place) : CoreIx :=
  match p with
  | .loc k _ => k
  | .scale k _ => k
  | .glob pa => s.homeOf (lineOf pa)

/-- What a visit, or a full/empty request, waits for at the home of its word (R57, R91, R100). -/
def State.visitMeet (s : State) (w : Who) (c : CoreIx) (p : Place) : Option (State × Park) :=
  match p with
  | .glob pa => s.homeMeet w c pa true
  | _ => none

/-- Whether the entry at the head of a core's buffer can be performed: older compute work has retired (R115), the older releases of its
thread have completed (R118), its frame is not being remapped and no spillway work stands on its line (R57, R91). -/
def State.headReady (s : State) (c : CoreIx) : Bool :=
  match (s.core c).buf with
  | [] => false
  | e :: _ => decide (e.older = 0) && (s.remapping e.place).isNone
    && !(s.core c).releases.any (fun x => decide (x.tid = e.tid) && x.stamp.before e.stamp)
    && (match e.place with | .glob pa => !s.lineBusy (lineOf pa) | _ => true)

/-! ### Releases that do not hold back younger accesses (R118, R292) -/

/-- The maker of a pending release's write-back. -/
def Release.who (x : Release) (c : CoreIx) : Who :=
  { src := slotSource { core := c, slot := x.slot }, world := x.world, region := x.region, slot := x.slot, kind := 1, va := none }

/-- A release of the current slot that does not hold it back begins (R118). -/
def State.beginRelease (s : State) (r : SlotRef) (t : Thread) (wide : Bool) : State :=
  let x := s.mint (slotSource r)
  let k : Release := { slot := r.slot, tid := t.id, world := t.world, region := t.region, wide := wide, stamp := x.1 }
  (x.2.modCore r.core (fun c => { c with releases := c.releases ++ [k] })).laterOnce .storePerformed { core := r.core }

/-- Complete the releases of a core whose conditions hold (R118). -/
def State.settleReleases (s : State) (c : CoreIx) : State :=
  (s.core c).releases.foldl (fun s x =>
    let r : SlotRef := { core := c, slot := x.slot }
    if s.releaseReady r (x.who c) x.stamp x.wide then
      (s.completeRelease r (x.who c) x.wide).modCore c (fun k => { k with releases := k.releases.erase x })
    else s.askRelease r (x.who c) x.stamp x.wide) s

/-- The buffer without its head; the next entry is to be performed. -/
def State.popBuffer (s : State) (c : CoreIx) : State :=
  let s1 : State := s.modCore c (fun k => { k with buf := k.buf.tail })
  if (s1.core c).buf.isEmpty then s1 else s1.laterOnce .storePerformed { core := c }

/-- Hand a reservation on to the next place of a line's queue (R127). -/
def State.handOn (s : State) (line : Nat) : State :=
  let q := startLease s.tc (tget [] s.lrws line).tail
  let s1 : State := { s with lrws := if q.isEmpty then tdel s.lrws line else tput s.lrws line q }
  let s2 : State := if q.isEmpty then s1 else s1.laterOnce .lrwHead { n := line }
  s2.lrws.foldl (fun s p => if lrwWaiting ≤ p.1 then s.laterOnce .lrwHead { n := p.1 } else s) s2

/-- Whether a thread holds the reservation of a line, and its lease has not ended at a stamp (R127). -/
def State.holdsLine (s : State) (tid line : Nat) (st : Stamp) : Bool :=
  match (tget [] s.lrws line).head? with
  | some q => decide (q.tid = tid) && (match q.head with
    | some h => decide (st.tc < h + 4096)
    | none => false)
  | none => false

/-- Hand on a reservation that its holder keeps beyond its lease: its SCH came in time and did not store (R127). -/
def State.lapse (s : State) (line : Nat) : State :=
  match (tget [] s.lrws line).head? with
  | some q => if (q.head.getD s.tc) + 4096 ≤ s.tc then s.handOn line else s
  | none => s

/-- A full/empty store at the home of a word: bytes written (none for MDRAIN), then the bit (R284). -/
def State.putWord (s : State) (w : Who) (c : CoreIx) (p : Place) (data : List Byte) (full : Bool) : State :=
  match p with
  | .loc k o =>
    match s.locWrite k o data with
    | (s1, none) => s1.setWordFull p full
    | (s1, some _) => s1
  | .scale _ _ => s
  | .glob pa =>
    match (s.yieldFar w c p).homeWrite w none pa data with
    | (s1, none) => s1.setWordFull p full
    | (s1, some _) => s1

/-- PERFORM a store-buffer entry of a core other than a visit (R88, R111, R127, R285). -/
def State.performStore (s : State) (c : CoreIx) (e : BufEntry) : State :=
  let w := e.who c 1
  let r : SlotRef := { core := c, slot := e.slot }
  match e.op with
  | .bytes b =>
    match e.place with
    | .glob pa => if 2 ^ 40 ≤ pa then s.deviceStore c e.slot e.tid e.world pa b else (s.writePlace w c e.place b).1
    | _ => (s.writePlace w c e.place b).1
  | .put v =>
    let s1 : State := s.putWord w c e.place (natLe v.toNat 8) true
    ({ s1 with claims := s1.claims.filter (fun k => decide ¬(k.place = e.place ∧ k.tid = e.tid ∧ k.used = true)) }).serveHeld
  | .fill v => (s.putWord w c e.place (natLe v.toNat 8) true).serveHeld
  | .drain => (s.putWord w c e.place [] false).serveHeld
  | .sch v d =>
    match e.place with
    | .glob pa =>
      let home := atomicSource (s.homeAt e.place)
      if s.holdsLine e.tid (lineOf pa) e.stamp then
        match (s.yieldFar w c e.place).homeWrite w none pa (natLe v.toNat 8) with
        | (s1, none) => (s1.handOn (lineOf pa)).deliverResult r e.tid d 0 0 home
        | (s1, some _) => (s1.lapse (lineOf pa)).deliverResult r e.tid d 1 0 home
      else s.deliverResult r e.tid d 1 0 home
    | _ => s
  | .amo _ _ _ => s
  | .cas _ _ _ => s

/-- PERFORM a visit that stands in a core's store buffer (R124, R289, R290). -/
def State.performVisit (s : State) (c : CoreIx) (e : BufEntry) : State :=
  let w := e.who c 2
  let r : SlotRef := { core := c, slot := e.slot }
  let home := atomicSource (s.homeAt e.place)
  let finish (x : State × Except Cause Nat) (d : Reg) (fl : Nat → FFlags) : State :=
    match x with
    | (s1, .ok old) => s1.deliverResult r e.tid d (BitVec.ofNat 64 old) (fl old) home
    | (s1, .error k) =>
      let s2 : State := s1.deliverResult r e.tid d 0 0 home
      if k = .prot then s2 else s2.visitNotice k c e.world e.region e.place e.va
  match e.op with
  | .amo op v d => finish (s.visitWord w c e.place e.n (fun old => some (amoApply op old v).1)) d (fun old => (amoApply op old v).2)
  | .cas cmp v d => finish (s.visitWord w c e.place e.n (fun old => if old = cmp.toNat then some v.toNat else none)) d (fun _ => 0)
  | _ => s

/-- What an entry waits for at the home of its bytes (R57, R91, R94, R100). -/
def BufEntry.meet (e : BufEntry) (s : State) (c : CoreIx) : Option (State × Park) :=
  match e.op with
  | .bytes _ => s.placeMeet (e.who c 1) c e.place e.n true
  | _ => s.visitMeet (e.who c 1) c e.place

/-- The head of a core's store buffer is performed, if it can be and is of the wanted kind (R111); an entry of the other
kind, and an invalidation by the spillway (R94), are asked for. -/
def performHead (s : State) (c : CoreIx) (visit : Bool) : State :=
  match (s.core c).buf with
  | [] => s
  | e :: _ =>
    if !s.headReady c then s
    else if e.isVisit != visit then s.laterOnce (if visit then .storePerformed else .visit) { core := c }
    else
      match e.meet s c with
      | some x => x.1
      | none => (if visit then s.performVisit c e else s.performStore c e).popBuffer c

/-- STORE_PERFORMED (R88, R111): the releases that can complete do, then the head of the buffer is performed (R118). -/
def execStorePerformed (s : State) : Host.Outcome State Fault Refusal :=
  .next (performHead (s.settleReleases s.arg.core) s.arg.core false)

/-- VISIT (R124). -/
def execVisit (s : State) : Host.Outcome State Fault Refusal := .next (performHead s s.arg.core true)

/-- A core's spillway takes up work of a world and region (R95, R104). -/
def State.serviceFor (s : State) (c : CoreIx) (world region : Nat) : State :=
  s.modCore c (fun k => { k with service := k.service.set 1 { k.service[1] with world := world, region := region } })

/-- The maker of a remote update. -/
def Rupd.who (u : Rupd) : Who :=
  { src := slotSource u.slot, world := u.world, region := u.region, slot := u.slot.slot, kind := 2,
    va := if windowOf u.va = 0 then some (lineOf (u.va.toNat % 2 ^ 52)) else none }

/-- Whether a remote-update thread is ready for the spillway of a core on the turn of a slot number: it has come to its home core, and was
issued from that slot number (R95, R291). -/
def State.rupdReady (s : State) (c : CoreIx) (n : Nat) (u : Rupd) : Bool :=
  decide (s.homeAt u.place = c ∧ u.slot.slot % 16 = n % 16 ∧ u.due ≤ s.tc) &&
    (match u.place with
      | .glob pa => (s.remapping u.place).isNone && !s.lineBusy (lineOf pa)
      | _ => true)

/-- REMOTE_UPDATE: on the turn of a slot number of a home core, its spillway performs one remote-update thread issued from that slot
number, in no order among several (R95, R125, R291). Arguments `core` and `slot` name the turn. -/
def execRemoteUpdate (s : State) : Host.Outcome State Fault Refusal :=
  let l := s.rupds.filter (s.rupdReady s.arg.core s.arg.slot)
  let k := if l.length ≤ 1 then 0 else Config.enginePick s.seq % l.length
  match l[k]? with
  | none => .next s
  | some u =>
    match s.visitMeet u.who u.slot.core u.place with
    | some x => .next x.1
    | none => .next (perform (s.serviceFor s.arg.core u.world u.region) u)
where
  perform (s : State) (u : Rupd) : State :=
    let x := s.visitWord u.who (s.homeAt u.place) u.place (amoBytes u.op) (fun old => some (amoApply u.op old u.value).1)
    let s1 : State := { x.1 with rupds := x.1.rupds.erase u, seq := x.1.seq + 1 }
    let s2 : State := match x.2 with
      | .error .prot => s1
      | .error c => s1.visitNotice c u.slot.core u.world u.region u.place u.va
      | .ok _ => s1
    s2.checkRegion u.region

/-! ### The spillway (R92-R95) -/

/-- Take the earliest entry out of a full overflow table: every L1 copy of its line goes (R93). -/
def State.overMake (s : State) (sl line : Nat) (mask : BitVec 64) : State :=
  let l := tget [] s.overs sl
  if l.any (fun e => e.line = line) then
    { s with overs := tput s.overs sl (l.map (fun e => if e.line = line then { e with mask := e.mask ||| mask } else e)) }
  else
    let s1 : State := match l with
      | e :: _ => if 2048 ≤ l.length then s.invalidateL1 e.line none else s
      | [] => s
    { s1 with overs := tput s1.overs sl (tget [] s1.overs sl ++ [{ line := line, mask := mask }]) }

/-- The spillway's jobs on the turn of a slot number of a home core (R95), the earliest first. -/
def spillJob (l : List SpillJob) (c : CoreIx) (n : Nat) : Option SpillJob :=
  earliestBy (fun j => j.stamp) (l.filter (fun j => decide (j.home = c ∧ j.slot % 16 = n % 16)))

/-- SPILLWAY_OVERFLOW: on a turn of the reader's slot number at the home core, the reader is recorded in the overflow table and its L1 fill
completes, if the slice still holds the line (R89, R92, R93, R95). Arguments `core` and `slot` name the turn. -/
def execSpillwayOverflow (s : State) : Host.Outcome State Fault Refusal :=
  match spillJob s.spillFills s.arg.core s.arg.slot with
  | none => .next s
  | some j =>
    let s0 : State := { s.serviceFor s.arg.core j.world j.region with spillFills := s.spillFills.erase j }
    let sl := s0.sliceNo j.line
    if !(tget [] s0.slices sl).any (fun x => x.pa = j.line) then .next s0
    else
      let e := tget DirEntry.zero s0.dirs j.line
      let bit (c : CoreIx) : BitVec 64 := BitVec.ofNat 64 (2 ^ (clusterOf c % 64))
      let mask := (e.ptrs.map (pointerCore (paDie j.line))).foldl (fun m c => m ||| bit c) (bit j.core)
      let s1 : State := if e.state = 0 then { s0 with dirs := tput s0.dirs j.line { state := 1, ptrs := [j.core % 8192] } }
        else { s0.overMake sl j.line mask with dirs := tput (s0.overMake sl j.line mask).dirs j.line { state := 2, ptrs := [] } }
      .next (s1.modCore j.core (fun k => { k with l1 := l1Put k.l1 j.line }))

/-- SPILLWAY_INVALIDATION: on a turn of the slot number of the request that pays, every copy in the marked clusters goes, the table
entry is freed, and the request that waits may be served (R94, R95). Arguments `core` and `slot` name the turn. -/
def execSpillwayInvalidation (s : State) : Host.Outcome State Fault Refusal :=
  match spillJob s.spillInvs s.arg.core s.arg.slot with
  | none => .next s
  | some j =>
    let s1 : State := ({ s.serviceFor s.arg.core j.world j.region with spillInvs := s.spillInvs.erase j }).invalidateL1 j.line none
    .next (if (s1.core j.core).buf.isEmpty then s1 else s1.laterOnce .storePerformed { core := j.core })

/-- The work of a core's spillway that takes the address-pipe turn of a slot number before any thread (R95, R185): its jobs by their stamps,
then remote updates. -/
def spillwayTurn (s : State) (c : CoreIx) (n : Nat) : Option Instr :=
  match spillJob s.spillFills c n, spillJob s.spillInvs c n with
  | some f, some i => some (if f.stamp.before i.stamp then .spillwayOverflow else .spillwayInvalidation)
  | some _, none => some .spillwayOverflow
  | none, some _ => some .spillwayInvalidation
  | none, none => if s.rupds.any (s.rupdReady c n) then some .remoteUpdate else none

/-! ### Held requests (R126, R284-R286) -/

/-- The base register of the full/empty instruction at which a thread waits: its port word is taken as it retires. -/
def heldBase (s : State) (r : SlotRef) (t : Thread) : List Reg :=
  match fetch s r t with
  | .ok (.mpeek _ b _, _) => [b]
  | .ok (.mtake _ b _, _) => [b]
  | .ok (.lrw _ b _, _) => [b]
  | _ => []

/-- Whether a held request can be served now (R126, R285, R286). -/
def State.heldReady (s : State) (h : HeldReq) : Bool :=
  match s.thread? h.slot with
  | none => true
  | some t =>
    if t.id ≠ h.tid then true
    else if (s.remapping h.place).isSome then false
    else
      match h.kind with
      | .claim => (!s.wordFull h.world h.place && !s.claims.any (fun c => c.place = h.place))
          || (match h.place with | .glob _ => s.poisonedAt h.world h.place | _ => false)
      | _ =>
        (s.wordFull h.world h.place || s.poisonedAt h.world h.place) &&
          (match checkDest { s with cur := h.slot } t h.d with
            | .ok _ => true
            | .error _ => false)

/-- The request that the homes serve next: the earliest of those whose condition holds. -/
def State.nextHeld (s : State) : Option HeldReq := earliestBy (fun h => h.stamp) (s.held.filter s.heldReady)

/-- Grant an MPUT claim: the word is claimed, and the MPUT may retire (R285). -/
def State.grantClaim (s : State) (h : HeldReq) : State :=
  let s1 : State := { s with held := s.held.erase h }
  match s1.thread? h.slot with
  | none => s1
  | some t =>
    if t.id ≠ h.tid then s1
    else
      let s2 : State := { s1 with claims := s1.claims ++ [{ place := h.place, slot := h.slot, tid := h.tid, used := false }] }
      s2.setThread h.slot { t with parked := none }

/-- Serve an MPEEK or MTAKE: it retires with its data (R284-R286). -/
def State.serveRead (s : State) (h : HeldReq) : State :=
  let s0 : State := { s with held := s.held.erase h, cur := h.slot, pipe := .address }
  match s0.thread? h.slot with
  | none => s0
  | some t =>
    if t.id ≠ h.tid then s0
    else
      let w := slotWho h.slot t (if h.kind = .take then 5 else 0) h.va
      let x : State × Except Cause (List Byte) := match h.place with
        | .loc k o => s0.locRead k o 8
        | .scale _ _ => (s0, .error .win)
        | .glob pa => s0.homeRead w pa 8
      match x with
      | (s2, .error c) => takeFault s2 c h.va 0 4
      | (s2, .ok b) =>
        let s3 : State := if h.kind = .take then s2.putWord { w with kind := 1 } h.slot.core h.place [] false else s2
        let s4 : State := acquireS s3 h.slot t (isGlobal h.place)
        Machine.retire s4 t (heldBase s4 h.slot t) [] (some (h.d, loaded false b)) 4

/-- What a held request waits for before its home can serve it: the spillway (R91), or the write-backs of its acquire (R98). -/
def State.heldMeet (s : State) (h : HeldReq) : Option (State × Park) :=
  let w : Who := { src := slotSource h.slot, world := h.world, region := h.region, slot := h.slot.slot, kind := 0, va := none }
  match s.visitMeet w h.slot.core h.place with
  | some x => some x
  | none => if isGlobal h.place then s.syncMeet w h.slot.core (dieOf h.slot.core) else none

/-- HELD_REQUEST_SERVICE: the earliest request that can be served is (R126); then the next. -/
def execHeldRequestService (s : State) : Host.Outcome State Fault Refusal :=
  match s.nextHeld with
  | none => .next s
  | some h =>
    if h.kind = .claim then .next { s with urgent := s.urgent ++ [{ what := .mputClaimGrant, arg := {} }] }
    else if (s.heldMeet h).isSome then .next (((s.heldMeet h).map (fun x => x.1)).getD s)
    else
      let s1 : State := s.serveRead h
      .next { s1 with urgent := s1.urgent ++ [{ what := .heldRequestService, arg := {} }] }

/-- MPUT_CLAIM_GRANT: the home grants the claim that comes next (R285). -/
def execMputClaimGrant (s : State) : Host.Outcome State Fault Refusal :=
  match s.nextHeld with
  | none => .next s
  | some h =>
    let s1 : State := if h.kind = .claim then s.grantClaim h else s
    .next { s1 with urgent := s1.urgent ++ [{ what := .heldRequestService, arg := {} }] }

/-! ### Reservations (R127, R287) -/

/-- A queue of places with one put in, by stamp; the head keeps its place. -/
def placeIn (q : List LrwPlace) (x : LrwPlace) : List LrwPlace :=
  match q with
  | [] => [x]
  | h :: rest =>
    let before := rest.takeWhile (fun y => y.stamp.before x.stamp)
    h :: (before ++ x :: rest.drop before.length)

/-- The places taken at a home slice. -/
def State.lrwPlaces (s : State) (sl : Nat) : Nat :=
  ((s.lrws.filter (fun p => decide (p.1 < lrwWaiting ∧ s.sliceNo p.1 = sl))).map (fun p => p.2.length)).sum

/-- Enter a place in its line's queue, or in the slice's wait when its 1,024 places are taken (R287). -/
def State.enterLrw (s : State) (x : LrwPlace) : State :=
  let line := lineOf x.pa
  let sl := s.sliceNo line
  if 1024 ≤ s.lrwPlaces sl then
    { s with lrws := tmod [] s.lrws (lrwWaiting + sl) (fun q => q ++ [x]) }
  else
    let q := tget [] s.lrws line
    let s1 : State := { s with lrws := tput s.lrws line (startLease s.tc (placeIn q x)) }
    if q.isEmpty then s1.laterOnce .lrwHead { n := line } else s1

/-- What the load of a reservation waits for at the home (R57, R91), and its acquire for (R98). -/
def lrwMeet (s : State) (x : LrwPlace) (w : Who) : Option (State × Park) :=
  (s.homeMeet w x.slot.core x.pa true).or (s.syncMeet w x.slot.core (dieOf x.slot.core))

/-- LRW_HEAD: the slot at the head of a line's queue holds the reservation, its lease starts, and its LRW performs its load,
an acquire (R127). For a slice's wait, the earliest request enters its queue (R287). -/
def execLrwHead (s : State) : Host.Outcome State Fault Refusal :=
  let line := s.arg.n
  if lrwWaiting ≤ line then
    match earliestBy (fun q => q.stamp) (tget [] s.lrws line) with
    | none => .next s
    | some x =>
      if 1024 ≤ s.lrwPlaces (line - lrwWaiting) then .next s
      else
        let rest := (tget [] s.lrws line).erase x
        let s1 : State := { s with lrws := if rest.isEmpty then tdel s.lrws line else tput s.lrws line rest }
        .next (if rest.isEmpty then s1.enterLrw x else (s1.enterLrw x).laterOnce .lrwHead { n := line })
  else
    match tget [] s.lrws line with
    | [] => .next s
    | x :: rest =>
      if x.loaded then .next s
      else
        match s.thread? x.slot with
        | none => .next (s.handOn line)
        | some t =>
          let s0 : State := { s with cur := x.slot, pipe := .address }
          let w := slotWho x.slot t 0 x.va
          if t.id ≠ x.tid then .next (s.handOn line)
          else
          let blocked := (match checkDest s0 t x.d with | .ok _ => false | .error _ => true) || (s.remapping (.glob x.pa)).isSome
          if blocked then .next (s.laterOnce .lrwHead { n := line })
          else if (lrwMeet s x w).isSome then .next ((((lrwMeet s x w).map (fun y => y.1)).getD s).laterOnce .lrwHead { n := line })
          else
            match (s0.yieldFar w x.slot.core (.glob x.pa)).homeRead w x.pa 8 with
            | (s1, .error c) => .next ((takeFault s1 c x.va 0 4).handOn line)
            | (s1, .ok b) =>
              let x' : LrwPlace := { x with head := some (x.head.getD s.tc), loaded := true }
              let s2 : State := acquireS { s1 with lrws := tput s1.lrws line (x' :: rest) } x.slot t true
              .next (retire s2 t (heldBase s2 x.slot t) [] (some (x.d, loaded false b)) 4)

/-- Whether an SCH of a reservation's holder, stamped before the end of the lease, has still to be performed (R127). -/
def State.schUnderWay (s : State) (line : Nat) (q : LrwPlace) : Bool :=
  (s.core q.slot.core).buf.any (fun e => decide (e.tid = q.tid) && e.place.inLine line
    && decide (e.stamp.tc < (q.head.getD s.tc) + 4096) && (match e.op with | .sch _ _ => true | _ => false))

/-- LEASE_END: the reservation passes to the next slot, unless an SCH stamped before the end is under way (R127). -/
def execLeaseEnd (s : State) : Host.Outcome State Fault Refusal :=
  match (tget [] s.lrws s.arg.n).head? with
  | some q =>
    if (q.head.getD s.tc) + 4096 ≤ s.tc ∧ s.schUnderWay s.arg.n q = false then .next (s.handOn s.arg.n) else .next s
  | none => .next s

end Sys2Proof.Machine
end

