-- ==== Sys2Proof/Machine/Sync.lean ====
section
/-!
DEFINITION. The word forms and the fences as their slot issues them (R282-R292): full/empty words, reservations, visits,
remote updates.
-/

namespace Sys2Proof.Machine

/-- The checks of R282 on the word of `n` bytes at `a`: window, alignment, dikes or translation, no device space, no frame
under remap. -/
def wordPlace (r : SlotRef) (t : Thread) (a : Word) (n : Nat) : Run Place := do
  needR (decide (windowOf a ≠ 0xF8)) .win a
  let p ← liftE (checkAccess (← get) r t a n true true)
  needR (!isDevice p) .prot a
  match (← get).remapping p with
  | some f => throw (.park (.frame f))
  | none => pure ()
  if isGlobal p then modifyS (fun s => s.usedTlb r t a)
  needR (!(hazardOf (← get) r t p n false).1) .hazard a
  return p

/-- PROT of R40: a line whose live key is another world's. -/
def ownLine (t : Thread) (a : Word) (p : Place) : Run Unit := do
  let s ← get
  match p with
  | .glob pa => needR (decide (s.lineCase t.world (lineOf pa) ≠ .other)) .prot a
  | _ => pure ()

/-- The address of a word form: disp counts in eights (R197). -/
def eaWord (b : Word) (disp : BitVec 10) : Word := eaSized b disp 8

/-- A load-like word form waits for its slot's own entries that name the word (R112, R285). -/
def pastOwn (r : SlotRef) (p : Place) : Run Unit := do
  let s ← get
  let at_ := match p with | .loc _ o => o | .scale _ o => o | .glob o => o
  stopIf (s.buffered r p 8) (.park (.bufferEntry at_ 8))

/-- Room in the store buffer (R111). -/
def bufferRoom (r : SlotRef) : Run Unit := do
  stopIf (decide (32 ≤ ((← get).core r.core).buf.length)) (.park .buffer)

/-- Retire with a destination that a result fills later (R182): a g register is pending; another destination holds its
slot until the result comes (R216). -/
def retirePending (t : Thread) (reads : List Reg) (marked : List (Bool × Reg)) (d : Reg) : Run Unit := do
  modifyS (fun s => (retire s t reads marked none 4).modThread s.cur (fun u => match d with
    | .g n => u.pendG n
    | .x _ => { u with parked := some .held }
    | .lk => { u with parked := some .held }
    | .port _ => { u with parked := some .held }
    | _ => u))

/-! ### Full/empty words (R283-R286) -/

/-- A request that must meet a far home first writes back and drops its die's copy of the line (R100). -/
def leaveDie (r : SlotRef) (t : Thread) (a : Word) (p : Place) : Run Unit := do
  let w := slotWho r t 0 a
  waitFor (fun s => s.yieldMeet w r.core p)
  modifyS (fun s => s.yieldFar w r.core p)

/-- A request goes to the home of its word with the stamp of its attempt, and the slot parks (R126, R285). -/
def holdAt (t : Thread) (kind : HeldKind) (d : Reg) (p : Place) (a : Word) (next : Instr) : Run Unit := do
  let r := (← get).cur
  leaveDie r t a p
  modifyS (fun s =>
    let x := s.mint (slotSource r)
    let h : HeldReq := { place := p, kind := kind, slot := r, tid := t.id, d := d, world := t.world, region := t.region, va := a, stamp := x.1 }
    ({ x.2 with held := x.2.held ++ [h] }).laterOnce next {})
  throw (.park .held)

/-- MPEEK and MTAKE: the request goes to the home (R126, R285). -/
def heldRead (kind : HeldKind) (d b : Reg) (disp : BitVec 10) (s : State) : Host.Outcome State Fault Refusal :=
  issueRun s 4 fun t => do
    let r := s.cur
    let x ← liftE (readReg s t [] b)
    liftE (checkDest s t d)
    let a := eaWord x disp
    let p ← wordPlace r t a 8
    ownLine t a p
    pastOwn r p
    holdAt t kind d p a .heldRequestService

/-- MPEEK (R284). -/
def execMpeek (d b : Reg) (disp : BitVec 10) (s : State) : Host.Outcome State Fault Refusal := heldRead .peek d b disp s

/-- MTAKE (R284). -/
def execMtake (d b : Reg) (disp : BitVec 10) (s : State) : Host.Outcome State Fault Refusal := heldRead .take d b disp s

/-- The data faults of a full/empty store, made before it retires (R58, R132, R228, R285): MDRAIN writes no bytes, so it
raises UE on a poisoned local word as well. -/
def putFault (t : Thread) (a : Word) (p : Place) (drain : Bool) : Run Unit := do
  let s ← get
  match storeFault s t p 8 with
  | some c => throw (.trap c a)
  | none => match p with
    | .loc _ _ => if drain && s.poisonedAt t.world p then throw (.trap .ue a) else pure ()
    | _ => pure ()

/-- Whether a claim is the one that a thread's MPUT on a word has been granted and has not used (R285). -/
def Claim.standsFor (k : Claim) (p : Place) (r : SlotRef) (t : Thread) : Bool :=
  decide (k.place = p ∧ k.slot = r ∧ k.tid = t.id) && !k.used

/-- MPUT: it claims the word, and once the claim stands it retires into the store buffer as a release (R118, R285). -/
def execMput (d b : Reg) (disp : BitVec 10) (s : State) : Host.Outcome State Fault Refusal :=
  issueRun s 4 fun t => do
    let r := s.cur
    let x ← liftE (read2 s t b d)
    let a := eaWord x.1 disp
    let p ← wordPlace r t a 8
    putFault t a p false
    if (← get).claims.any (fun k => k.standsFor p r t) then
      bufferRoom r
      releaseR r t (isGlobal p)
      modifyS (fun s => { s with claims := s.claims.map (fun k => if k.standsFor p r t then { k with used := true } else k) })
      modifyS (fun s => s.buffer r t p a 8 (.put x.2))
      retireR t [b, d] [] none
    else holdAt t .claim .z p a .mputClaimGrant

/-- MFILL: a release that writes the word and fills it, without waiting for it (R284). -/
def execMfill (d b : Reg) (disp : BitVec 10) (s : State) : Host.Outcome State Fault Refusal :=
  issueRun s 4 fun t => do
    let r := s.cur
    let x ← liftE (read2 s t b d)
    let a := eaWord x.1 disp
    let p ← wordPlace r t a 8
    putFault t a p false
    bufferRoom r
    releaseR r t (isGlobal p)
    modifyS (fun s => s.buffer r t p a 8 (.fill x.2))
    retireR t [b, d] [] none

/-- MDRAIN: the word is set empty, its bytes unchanged (R284). -/
def execMdrain (b : Reg) (disp : BitVec 10) (s : State) : Host.Outcome State Fault Refusal :=
  issueRun s 4 fun t => do
    let r := s.cur
    let x ← liftE (readReg s t [] b)
    let a := eaWord x disp
    let p ← wordPlace r t a 8
    putFault t a p true
    bufferRoom r
    modifyS (fun s => s.buffer r t p a 8 .drain)
    retireR t [b] [] none

/-- MSTATE: the full/empty bit, without waiting and without ordering (R284, R285). -/
def execMstate (d b : Reg) (disp : BitVec 10) (s : State) : Host.Outcome State Fault Refusal :=
  issueRun s 4 fun t => do
    let r := s.cur
    let x ← liftE (readReg s t [] b)
    liftE (checkDest s t d)
    let a := eaWord x disp
    let p ← wordPlace r t a 8
    ownLine t a p
    pastOwn r p
    leaveDie r t a p
    waitFor (fun s => match p with
      | .glob pa => s.homeMeet (slotWho r t 0 a) r.core pa false
      | _ => none)
    let full := (← get).wordFull t.world p
    retireR t [b] [] (some (d, if full then 1 else 0))

/-! ### Reservations (R287, R288) -/

/-- LRW: the slot gives up an earlier place, takes one in the queue of the word's line, and parks (R127, R287). -/
def execLrw (d b : Reg) (disp : BitVec 10) (s : State) : Host.Outcome State Fault Refusal :=
  issueRun s 4 fun t => do
    let r := s.cur
    let x ← liftE (readReg s t [] b)
    liftE (checkDest s t d)
    let a := eaWord x disp
    needR (decide (windowOf a = 0)) .win a
    let p ← wordPlace r t a 8
    ownLine t a p
    pastOwn r p
    match p with
    | .glob pa =>
      modifyS (fun s =>
        let y := s.mint (slotSource r)
        (y.2.dropLrw t.id).enterLrw { slot := r, tid := t.id, va := a, pa := pa, d := d, stamp := y.1, head := none, loaded := false })
      throw (.park .held)
    | _ => throw (.trap .win a)

/-- SCH: a release into the store buffer; d awaits the home's answer (R288). -/
def execSch (d a b : Reg) (m : Marks) (s : State) : Host.Outcome State Fault Refusal :=
  issueRun s 4 fun t => do
    let r := s.cur
    let x ← liftE (read2 s t a b)
    liftE (checkDest s t d)
    needR (decide (windowOf x.1 = 0)) .win x.1
    let p ← wordPlace r t x.1 8
    putFault t x.1 p false
    bufferRoom r
    releaseR r t true
    modifyS (fun s => s.buffer r t p x.1 8 (.sch x.2 d))
    retirePending t [a, b] (markAB m a b) d

/-! ### Visits and remote updates (R289-R291) -/

/-- AMO: the visit enters the store buffer; d is pending until its result (R124, R289). -/
def amoForm (op : AmoOp) (d a b : Reg) (m : Marks) (s : State) : Host.Outcome State Fault Refusal :=
  issueRun s 4 fun t => do
    let r := s.cur
    let x ← liftE (read2 s t a b)
    liftE (checkDest s t d)
    let p ← wordPlace r t x.1 (amoBytes op)
    ownLine t x.1 p
    bufferRoom r
    modifyS (fun s => s.buffer r t p x.1 (amoBytes op) (.amo op x.2 d))
    retirePending t [a, b] (markAB m a b) d

/-- AMO.ADD (R289). -/
def execAmoAdd (d a b : Reg) (m : Marks) (s : State) : Host.Outcome State Fault Refusal := amoForm .add d a b m s

/-- AMO.MIN (R289). -/
def execAmoMin (d a b : Reg) (m : Marks) (s : State) : Host.Outcome State Fault Refusal := amoForm .min d a b m s

/-- AMO.MAX (R289). -/
def execAmoMax (d a b : Reg) (m : Marks) (s : State) : Host.Outcome State Fault Refusal := amoForm .max d a b m s

/-- AMO.MINN (R289). -/
def execAmoMinn (d a b : Reg) (m : Marks) (s : State) : Host.Outcome State Fault Refusal := amoForm .minn d a b m s

/-- AMO.MAXN (R289). -/
def execAmoMaxn (d a b : Reg) (m : Marks) (s : State) : Host.Outcome State Fault Refusal := amoForm .maxn d a b m s

/-- AMO.AND (R289). -/
def execAmoAnd (d a b : Reg) (m : Marks) (s : State) : Host.Outcome State Fault Refusal := amoForm .and d a b m s

/-- AMO.OR (R289). -/
def execAmoOr (d a b : Reg) (m : Marks) (s : State) : Host.Outcome State Fault Refusal := amoForm .or d a b m s

/-- AMO.XOR (R289). -/
def execAmoXor (d a b : Reg) (m : Marks) (s : State) : Host.Outcome State Fault Refusal := amoForm .xor d a b m s

/-- AMO.SWAP (R289). -/
def execAmoSwap (d a b : Reg) (m : Marks) (s : State) : Host.Outcome State Fault Refusal := amoForm .swap d a b m s

/-- AMO.FADD (R289). -/
def execAmoFadd (d a b : Reg) (m : Marks) (s : State) : Host.Outcome State Fault Refusal := amoForm .fadd d a b m s

/-- CAS: d is the comparand, and then awaits the old word (R289). -/
def execCas (d a b : Reg) (m : Marks) (s : State) : Host.Outcome State Fault Refusal :=
  issueRun s 4 fun t => do
    let r := s.cur
    let x ← liftE (read3 s t a b d)
    liftE (checkDest s t d)
    let p ← wordPlace r t x.1 8
    ownLine t x.1 p
    bufferRoom r
    modifyS (fun s => s.buffer r t p x.1 8 (.cas x.2.2 x.2.1 d))
    retirePending t [a, b, d] (markAB m a b) d

/-- RUPD: a remote-update thread leaves the slot for its home core (R125, R291). -/
def execRupd (op : AmoOp) (a b : Reg) (m : Marks) (s : State) : Host.Outcome State Fault Refusal :=
  issueRun s 4 fun t => do
    let r := s.cur
    let x ← liftE (read2 s t a b)
    let p ← wordPlace r t x.1 (amoBytes op)
    ownLine t x.1 p
    leaveDie r t x.1 p
    modifyS (fun s =>
      let y := s.mint (slotSource r)
      let u : Rupd := { slot := r, tid := t.id, world := t.world, region := t.region, place := p, va := x.1, op := op, value := x.2,
                        stamp := y.1, due := s.tc + Config.engineDelay s.seq }
      { y.2.modCore (s.homeAt p) (fun k => k) with rupds := s.rupds ++ [u], seq := s.seq + 1 })
    retireR t [a, b] (markAB m a b) none

/-! ### Fences (R292) -/

/-- Every fence waits for the slot's compute queue (R115, R292). -/
def fenceForm (s : State) (f : Thread → Run Unit) : Host.Outcome State Fault Refusal :=
  issueRun s 4 fun t => do
    stopIf (!t.cq.isEmpty) (.park .computeQueue)
    f t
    retireR t [] [] none

/-- FENCE.ACQ: the older AMO and CAS of the slot are performed, then the acquire (R119, R292). -/
def execFenceAcq (sc : Scope) (s : State) : Host.Outcome State Fault Refusal :=
  fenceForm s fun t => do
    stopIf ((s.core s.cur.core).buf.any (fun e => decide (e.slot = s.cur.slot) && e.isVisit)) (.park .visits)
    acquireR s.cur t (Scope.wide sc)

/-- FENCE.REL: a release that does not hold back younger accesses; what follows it is performed after it has completed (R118, R120, R292). -/
def execFenceRel (sc : Scope) (s : State) : Host.Outcome State Fault Refusal :=
  fenceForm s fun t => modifyS (fun s => s.beginRelease s.cur t (Scope.wide sc))

/-- FENCE.FULL: the release, then the acquire (R292). -/
def execFenceFull (sc : Scope) (s : State) : Host.Outcome State Fault Refusal :=
  fenceForm s fun t => do
    releaseR s.cur t (Scope.wide sc)
    acquireR s.cur t (Scope.wide sc)

end Sys2Proof.Machine
end

