-- ==== Sys2Proof/Machine/Sluice.lean ====
section
/-!
DEFINITION. Sluices: PUSH, POP and the sealing of command records (R60-R64, R293), and the places that an engine reaches.
-/

namespace Sys2Proof.Machine

/-! ### Places that an engine reaches (R66, R69, R79, R321) -/

/-- The maker of an engine's access. -/
def engineWho (src world region slot : Nat) (va : Word) : Who :=
  { src := src, world := world, region := region, slot := slot, kind := 3,
    va := if windowOf va = 0 then some (lineOf (va.toNat % 2 ^ 52)) else none }

/-- Where `n` bytes at an address lie for an engine that serves slot number `slot` of core `c` in a world (R66, R69): the
windows of R66 are permitted, the tables are walked in place, no fault record is made. -/
def State.enginePlace (s : State) (c : CoreIx) (slot world : Nat) (a : Word) (n : Nat) (rd wr : Bool) : State × Except Cause Place :=
  let z := a + BitVec.ofNat 64 (n - 1)
  if windowOf a = 0xFD then
    match fabricPlace a, fabricPlace z with
    | some (k, o), some (k', o') =>
      if k ≠ k' ∨ o' ≠ o + (n - 1) then (s, .error .win)
      else if dikeFits s slot world (.loc k o) n then (s, .ok (.loc k o)) else (s, .error .dike)
    | _, _ => (s, .error .win)
  else if !wellFormed a n then (s, .error .win)
  else if windowOf a = 0 then
    match s.walk world (a.toNat / 65536) slot with
    | (s1, none) => (s1, .error .xlat)
    | (s1, some e) =>
      if e.grants rd wr then (s1, .ok (.glob ((e.piece (a.toNat / 65536)).pa + a.toNat % 65536))) else (s1, .error .prot)
  else
    let p := localPlace c a
    if dikeFits s slot world p n then (s, .ok p) else (s, .error .dike)

/-- The lines that `n` bytes at an address touch: offset and length of each part; `f` bounds them. -/
def lineParts (a : Word) (done n : Nat) : Nat → List (Nat × Nat)
  | 0 => []
  | f + 1 =>
    if n = 0 then []
    else
      let k := min n (64 - (a.toNat + done) % 64)
      (done, k) :: lineParts a (done + k) (n - k) f

/-- Whether `n` bytes at an address pass the window check of R25 with the fabric window permitted (R66). -/
def spanFits (a : Word) (n : Nat) : Bool :=
  let z := a + BitVec.ofNat 64 (n - 1)
  if windowOf a = 0xFD then
    match fabricPlace a, fabricPlace z with
    | some x, some y => decide (x.1 = y.1 ∧ y.2 = x.2 + (n - 1))
    | _, _ => false
  else wellFormed a n

/-- The places of `n` bytes at an address, a line at a time, after the window check of all of them (R26, R66). -/
def State.engineSpan (s : State) (c : CoreIx) (slot world : Nat) (a : Word) (n : Nat) (rd wr : Bool) :
    State × Except Cause (List (Place × Nat)) :=
  if n ≠ 0 ∧ spanFits a n = false then (s, .error .win)
  else
    (lineParts a 0 n (n / 64 + 2)).foldl (fun (acc : State × Except Cause (List (Place × Nat))) p =>
      match acc with
      | (s1, .error k) => (s1, .error k)
      | (s1, .ok l) =>
        match s1.enginePlace c slot world (a + BitVec.ofNat 64 p.1) p.2 rd wr with
        | (s2, .error k) => (s2, .error k)
        | (s2, .ok q) => (s2, .ok (l ++ [(q, p.2)]))) (s, .ok [])

/-- What an engine's access of `n` bytes at an address waits for: at the homes of the tables, and of its lines (R57, R91, R94). -/
def State.engineMeet (s : State) (w : Who) (c : CoreIx) (a : Word) (n : Nat) (wr : Bool) : Option (State × Park) :=
  if windowOf a ≠ 0 then none
  else
    (lineParts a 0 n (n / 64 + 2)).findSome? (fun p =>
      let va := a + BitVec.ofNat 64 p.1
      match s.walkMeet w (va.toNat / 65536) with
      | some x => some x
      | none =>
        match s.enginePlace c w.slot w.world va p.2 (!wr) wr with
        | (s1, .ok (.glob pa)) => s1.homeMeet w c pa wr
        | _ => none)

/-- An engine reads bytes at their homes (R116). -/
def State.engineRead (s : State) (w : Who) (l : List (Place × Nat)) : State × Except Cause (List Byte) :=
  l.foldl (fun (acc : State × Except Cause (List Byte)) p =>
    match acc with
    | (s1, .error k) => (s1, .error k)
    | (s1, .ok b) =>
      let x : State × Except Cause (List Byte) := match p.1 with
        | .loc k o => s1.locRead k o p.2
        | .scale k o => (s1, s1.scaleRead k o p.2)
        | .glob pa => if 2 ^ 40 ≤ pa then (let r := s1.deviceRead pa p.2; (r.1, .ok r.2)) else s1.homeRead w pa p.2
      match x with
      | (s2, .error k) => (s2, .error k)
      | (s2, .ok r) => (s2, .ok (b ++ r))) (s, .ok [])

/-- Cut bytes into the parts of a span. -/
def cutBytes : List (Place × Nat) → List Byte → List (Place × List Byte)
  | [], _ => []
  | p :: r, b => (p.1, b.take p.2) :: cutBytes r (b.drop p.2)

/-- An engine writes bytes of one line at their home, or nothing where the answer is a cause (R40, R53, R58, R132). -/
def State.engineStore (s : State) (w : Who) (core slot tid : Nat) (p : Place) (data : List Byte) : State × Option Cause :=
  match p with
  | .loc k o => s.locWrite k o data
  | .scale k o => s.scaleWrite k o data
  | .glob pa =>
    if 2 ^ 40 ≤ pa then
      if deviceBad pa data then (s, some .prot) else (s.deviceStore core slot tid w.world pa data, none)
    else s.homeWrite w none pa data

/-- An engine writes bytes at their homes, or, where one part would fail, nothing but what that part detects (R69, R116). -/
def State.engineWrite (s : State) (w : Who) (core slot tid : Nat) (l : List (Place × Nat)) (data : List Byte) : State × Option Cause :=
  let parts := cutBytes l data
  let failing := parts.findSome? (fun p =>
    match s.engineStore w core slot tid p.1 p.2 with
    | (s1, some k) => some (s1, k)
    | (_, none) => none)
  match failing with
  | some x => (x.1, some x.2)
  | none =>
    let all := parts.foldl (fun (acc : State × Option Cause) p =>
      match acc with
      | (s1, some k) => (s1, some k)
      | (s1, none) => s1.engineStore w core slot tid p.1 p.2) (s, none)
    (if all.2.isSome then s else all.1, all.2)

/-- How far from a core an end of an engine's command lies (R74): 0 its cluster, 1 its die, 2 another die; none where its first byte
does not translate. -/
def State.endReach (s : State) (c : CoreIx) (slot world : Nat) (a : Word) : Option Nat :=
  let coreReach (k : CoreIx) : Nat := if clusterOf k = clusterOf c then 0 else if dieOf k = dieOf c then 1 else 2
  if windowOf a = 0xFD then (fabricPlace a).map (fun p => coreReach p.1)
  else if !wellFormed a 1 then none
  else if windowOf a = 0 then
    (s.walk world (a.toNat / 65536) slot).2.map (fun e => if paDie (e.piece (a.toNat / 65536)).pa = dieOf c then 1 else 2)
  else some 0

/-- Whether an end of an engine's command lies on another die than a core (R76, R121); an end that cannot be found counts
as far (log entry 15). -/
def State.farEnd (s : State) (c : CoreIx) (slot world : Nat) (a : Word) : Bool :=
  decide ((s.endReach c slot world a).getD 2 = 2)

/-! ### Records (R62) -/

/-- A record as it stands in an outlet: in the active position when that is empty. -/
def Outlet.put (o : Outlet) (r : Record) : Outlet :=
  match o.active with
  | none => { active := some r, shadow := none }
  | some _ => { o with shadow := some r }

/-- The outlet once its active record has been taken: a sealed shadow becomes active. -/
def Outlet.take (o : Outlet) : Outlet :=
  match o.shadow with
  | some r => if r.sealed.isSome then { active := some r, shadow := none } else { active := none, shadow := some r }
  | none => { active := none, shadow := none }

/-- Whether an outlet holds a partly assembled record. -/
def Outlet.partly (o : Outlet) : Bool :=
  match o.shadow with
  | some r => r.sealed.isNone
  | none => false

/-- The event that takes the records of a pump code (R77); other codes are refused by the first. -/
def pumpEvent (w0 : Word) : Instr :=
  match bitsOf w0 61 56 with
  | 1 => .storerSubscription
  | 2 => .cancelRecord
  | _ => .loaderSubscription

/-- The event that takes the records of a tree code (R310, R311). -/
def treeEvent (w0 : Word) : Instr :=
  match bitsOf w0 61 56 with
  | 1 => .treeCmdDescent
  | 2 => .treeCmdExpand
  | 3 => .treeCmdBackup
  | 4 => .treeCmdPick
  | 5 => .treeCmdReroot
  | 6 => .treeCmdFree
  | _ => .treeCmdNew

/-- Put a sealed record into an outlet of the slot and call its engine. -/
def sealInto (r : SlotRef) (q : Fin 8) (x : Record) (s : State) : State :=
  let s1 : State := s.modThread r (fun t => { t with sluices := t.sluices.setOutlet q ((t.sluices.outlet q).put x) })
  let w0 := x.words.headD 0
  if q = 0 then s1.laterOnce .copyAccept { core := r.core }
  else if q = 2 then s1.later (pumpEvent w0) { core := r.core }
  else if q = 4 then s1.later (treeEvent w0) { core := x.home }
  else s1.laterOnce .reductionMessage { core := r.core }

/-- The stamp of a sealed record (R62). -/
def Record.stamp (x : Record) : Stamp := x.sealed.getD { tc := 0, src := 0 }

/-- The slots of a core with an active record in an outlet, earliest first (R63). -/
def allRecords (s : State) (c : CoreIx) (q : Fin 8) : List (SlotRef × Thread × Record) :=
  let l := (List.range 16).filterMap (fun n =>
    let r : SlotRef := { core := c, slot := n }
    match s.thread? r with
    | some t => (t.sluices.outlet q).active.map (fun x => (r, t, x))
    | none => none)
  sortBy (fun a b => !(b.2.2.stamp.before a.2.2.stamp)) l

/-- Those of them whose engine can act on them: what their slots did before the seal is done (R76, R118). -/
def activeRecords (s : State) (c : CoreIx) (q : Fin 8) : List (SlotRef × Thread × Record) :=
  (allRecords s c q).filter (fun x => s.olderDone x.1 x.2.2.stamp)

/-- The release that the seal of a record makes can complete, at module scope where `wide` (R118, R121). -/
def State.sealReady (s : State) (r : SlotRef) (t : Thread) (x : Record) (wide : Bool) : Bool :=
  s.releaseReady r (slotWho r t 1 0) x.stamp wide

/-- Complete the release that the seal of a record makes, as the engine takes the record (R118). -/
def State.sealDone (s : State) (r : SlotRef) (t : Thread) (wide : Bool) : State := s.completeRelease r (slotWho r t 1 0) wide

/-- Ask the spillways for what that release waits for (R94). -/
def State.sealAsk (s : State) (r : SlotRef) (t : Thread) (x : Record) (wide : Bool) : State :=
  s.askRelease r (slotWho r t 1 0) x.stamp wide

/-- What the slot's core finds of a tree record that PUSH seals (R311): the status with which the core completes it (0 for
none), the core that serves it: the home of its pool, or the slot's own. A record of one word has no base that R311 admits. -/
def treeSealCheck (s : State) (r : SlotRef) (t : Thread) (words : List Word) : Nat × CoreIx :=
  let base := words.getD 1 1
  let extra := words.getD 2 0
  let c := r.core
  if windowOf base ≠ 0 ∨ bitsOf base 55 52 ≠ 0 ∨ bitsOf base 15 0 ≠ 0 then (7, c)
  else if bitsOf (words.headD 0) 61 56 = 2 ∧ (windowOf extra ≠ 0 ∨ bitsOf extra 55 52 ≠ 0 ∨ bitsOf extra 1 0 ≠ 0) then (7, c)
  else
    match (s.enginePlace c r.slot t.world base 64 true true).2 with
    | .ok (.glob pa) => if 2 ^ 40 ≤ pa then (0xB, c) else (0, s.homeOf (lineOf pa))
    | .ok _ => (7, c)
    | .error .xlat => (0xA, c)
    | .error _ => (0xB, c)

/-- Whether a reduction message is malformed, or its slot has no tree (R302). -/
def messageBad (t : Thread) (w0 : Word) : Bool :=
  decide (bitsOf w0 63 62 ≠ 1 ∨ 3 < bitsOf w0 61 56 ∨ bitsOf w0 47 40 ≠ 0 ∨ bitsOf w0 39 32 ≠ 0 ∨ bitsOf w0 31 0 ≠ 0 ∨
    bitsOf t.tree 61 57 = 0)

/-- Seal a record into an outlet of the current slot (R62, R293, R294); the release that this makes stands beside the slot, and its engine
acts on the record when the release can complete (R118, R120). -/
def sealRecord (r : SlotRef) (q : Fin 8) (x : Record) : Run Unit :=
  modifyS (fun s =>
    let y := s.mint (slotSource r)
    sealInto r q { x with sealed := some y.1 } y.2)

/-- PUSH (R61, R62, R293). -/
def execPush (g : Fin 40) (q : Fin 8) (s : State) : Host.Outcome State Fault Refusal :=
  issueRun s 4 fun t => do
    let r := s.cur
    if q = 1 ∨ q = 3 ∨ q = 5 ∨ q = 6 then throw (.trap .ill (s.wordHere r t))
    let v ← liftE (readReg s t [] (.g g))
    let o := t.sluices.outlet q
    stopIf o.full (.park (.sluiceFull q))
    let words := (match o.shadow with | some x => x.words | none => []) ++ [v]
    if words.length = bitsOf (words.headD 0) 63 62 + 1 then
      if q = 7 && messageBad t (words.headD 0) then
        stopIf (!t.cq.isEmpty) (.park .computeQueue)
        modifyS (fun s => s.modThread r (fun u => { u with sluices := u.sluices.setOutlet 7 { o with shadow := none } }))
        throw (.trap .prot 0)
      if q = 4 then waitFor (fun s => s.walkMeet (slotWho r t 0 (words.getD 1 0)) ((words.getD 1 0).toNat / 65536))
      let chk := if q = 4 then treeSealCheck s r t words else (0, r.core)
      sealRecord r q { words := words, sealed := none, home := chk.2, fail := chk.1 }
      let t1 := ((← get).thread? r).getD t
      retireR t1 [] [] none
    else
      let part : Record := { words := words, sealed := none }
      retireR { t with sluices := t.sluices.setOutlet q { o with shadow := some part } } [] [] none

/-- POP (R61, R293): the word leaves the sluice, after the acquire that it makes (R76, R120, R121); g is empty until the word comes (R182). -/
def execPop (g : Fin 40) (q : Fin 8) (s : State) : Host.Outcome State Fault Refusal :=
  issueRun s 4 fun t => do
    let r := s.cur
    if q = 0 ∨ q = 2 ∨ q = 4 ∨ q = 7 then throw (.trap .ill (s.wordHere r t))
    liftE (checkDest s t (.g g))
    match t.sluices.inbound q with
    | [] => throw (.park (.sluiceEmpty q))
    | w :: _ =>
      acquireR r t ((t.sluices.wides q).headD false)
      retirePending { t with sluices := t.sluices.pop q } [] [] (.g g)
      modifyS (fun s => s.deliverResult r t.id (.g g) w 0 (slotSource r))

end Sys2Proof.Machine
end

