-- ==== Sys2Proof/Machine/Copy.lean ====
section
/-!
DEFINITION. The copy engine (R65-R76, R294, R295): copies, their promises, their completions, and byte-weir deliveries.
-/

namespace Sys2Proof.Machine

/-- The status of a failed access in a copy or pump completion (R69, R70). A poisoned local word, for which R69 names no
status, ends the copy as a poisoned line does (log entry 14). -/
def statusOf : Cause → Nat
  | .xlat => 3
  | .prot => 4
  | .win => 5
  | .dike => 6
  | _ => 7

/-! ### Byte weirs as copies meet them (R353) -/

/-- A counter with a change added: beyond its bounds it stays at the bound and the phase is saturated. -/
def ByteWeir.add (w : ByteWeir) (d : Int) : ByteWeir :=
  let v := w.counter + d
  if v < -(2 ^ 63) then { w with counter := -(2 ^ 63), sat := true }
  else if 2 ^ 63 - 1 < v then { w with counter := 2 ^ 63 - 1, sat := true }
  else { w with counter := v }

/-- The table key of a phase of a byte weir. -/
def weirKey (weir phase : Nat) : Nat := weir * 2 + phase

/-- A tagged copy subtracts a chunk's bytes from its phase at the destination core. -/
def State.weirDelivery (s : State) (c : CoreIx) (weir phase world n : Nat) : State :=
  let deliver (w : ByteWeir) : ByteWeir := { w.add (-(n : Int)) with world := some (w.world.getD world) }
  s.modCore c (fun k => { k with weirs := tmod ByteWeir.reset k.weirs (weirKey weir phase) deliver })

/-! ### Acceptance (R65, R67, R68, R71, R73, R74) -/

/-- The entry of the buffer table that a handle names (R67). What the engine does with one whose base is not a global address, or whose
bytes 19-31 are not zero, is not said: it uses the entry as it stands (log entry 53). -/
def bufferEntry (h : Word) : Word := 0x000FFFFFFFE00000 + BitVec.ofNat 64 (32 * bitsOf h 63 48)

/-- Read the buffer-table entry of a handle through the world's tables. -/
def State.readHandle (s : State) (c : CoreIx) (slot world : Nat) (h : Word) : State × Except Cause (List Byte) :=
  match s.engineSpan c slot world (bufferEntry h) 32 true false with
  | (s1, .error k) => (s1, .error k)
  | (s1, .ok l) => s1.engineRead (engineWho (sourceNo 1 c 0) world 0 slot (bufferEntry h)) l

/-- Whether an entry makes a handle stale (R68); `flag` is the bit that its end needs. -/
def handleStale (h : Word) (e : List Byte) (flag : Nat) : Bool :=
  let fl := fieldAt e 18 1
  decide (bitsOf h 47 32 ≠ fieldAt e 16 2) || decide (fl % 2 = 0) || decide (fl / 2 ^ flag % 2 = 0)

/-- What the engine makes of a record: refused with a status (R73), or a copy, whose first failure may be known already. -/
inductive CopyVerdict where
  | refused (status : Nat)
  | accepted (dst src : Word) (failed : Option Nat)
  deriving DecidableEq, Repr

/-- Whether a copy header sets a zero field, or names no code (R65). The status of a record of another length is not said: BOUND (log
entry 53). -/
def copyHeaderBad (w0 : Word) : Bool :=
  let code := bitsOf w0 61 56
  decide (bitsOf w0 63 62 ≠ 2) || decide (3 ≤ code) || decide (bitsOf w0 55 52 ≠ 0) || decide (bitsOf w0 47 32 ≠ 0)
    || (decide (code ≠ 2) && decide (bitsOf w0 51 48 ≠ 0))

/-- Examine a record at acceptance (R65, R68, R70). Where its length is 0 and another refusal holds, which status it completes with is not
said: the other one (log entry 53). -/
def State.copyVerdict (s : State) (c : CoreIx) (slot world : Nat) (words : List Word) : State × CopyVerdict :=
  let w0 := words.headD 0
  let w1 := words.getD 1 0
  let w2 := words.getD 2 0
  let n := bitsOf w0 31 0
  if copyHeaderBad w0 then (s, .refused 2)
  else if bitsOf w0 61 56 = 1 then
    match s.readHandle c slot world w1 with
    | (s1, .error k) => (s1, .accepted w1 w2 (some (statusOf k)))
    | (s1, .ok e1) =>
      match s1.readHandle c slot world w2 with
      | (s2, .error k) => (s2, .accepted w1 w2 (some (statusOf k)))
      | (s2, .ok e2) =>
        if handleStale w1 e1 2 || handleStale w2 e2 1 then (s2, .refused 1)
        else if fieldAt e1 8 8 < bitsOf w1 31 0 + n ∨ fieldAt e2 8 8 < bitsOf w2 31 0 + n then (s2, .refused 2)
        else if n = 0 then (s2, .refused 0)
        else (s2, .accepted (BitVec.ofNat 64 (fieldAt e1 0 8 + bitsOf w1 31 0)) (BitVec.ofNat 64 (fieldAt e2 0 8 + bitsOf w2 31 0)) none)
  else if bitsOf w0 61 56 = 2 ∧ ¬(isLocalWindow (windowOf w1) = true ∨ windowOf w1 = 0xFD) then (s, .refused 0xC)
  else if n = 0 then (s, .refused 0)
  else (s, .accepted w1 w2 none)

/-- The lowest-numbered free token of a polder (R71). -/
def State.freeToken (s : State) (c : CoreIx) (polder : Nat) : Option Nat :=
  let k := s.core c
  ((s.polderSlots polder).flatMap (fun n => (List.range 4).map (fun i => 4 * n + i))).find? (fun i =>
    let t := tget Token.free k.tokens i
    !t.taken && decide (t.promise ≤ s.tc))

/-- The path allowance of a copy (R74): by the farthest end. An end that does not translate leaves it open, unless the other lies on
another die (log entry 15). -/
def State.pathAllowance (s : State) (c : CoreIx) (slot world : Nat) (dst src : Word) (failed : Bool) : State × Nat :=
  let reach (a : Word) : Option Nat := if failed then none else s.endReach c slot world a
  match reach dst, reach src with
  | some x, some y => (s, if max x y = 0 then 24 else if max x y = 1 then 480 else 960)
  | some 2, none => (s, 960)
  | none, some 2 => (s, 960)
  | _, _ => ((s.fresh).2, (s.fresh).1.toNat % 2 ^ 32)

/-- Whether an end of a copy lies on another die (R76); where a handle could not be read, that is not known, and it counts so. -/
def State.copyFar (s : State) (r : SlotRef) (t : Thread) (dst src : Word) (failed : Bool) : Bool :=
  failed || s.farEnd r.core r.slot t.world dst || s.farEnd r.core r.slot t.world src

/-- The promise word (R74). -/
def promiseWord (token promise : Nat) : Word := BitVec.ofNat 64 (token * 2 ^ 56 + promise % 2 ^ 56)

/-- Give the promise to the register of a CPY (R294). -/
def State.givePromise (s : State) (r : SlotRef) (tid : Nat) (x : Record) (v : Word) : State :=
  match x.d with
  | some d => s.deliverResult r tid d v 0 (sourceNo 1 r.core 0)
  | none => s

/-- Take the active record out of a slot's q0. -/
def takeQ0 (t : Thread) : Thread := { t with sluices := { t.sluices with q0 := t.sluices.q0.take } }

/-- The completion word of a refused copy (R73). -/
def refusedWord (st : Nat) : Word := BitVec.ofNat 64 (0xFF * 2 ^ 56 + st * 2 ^ 48)

/-- Refuse the active record of a slot: its promise is given, and its completion enters q1, or waits in the active position (R73). -/
def refuseCopy (s : State) (r : SlotRef) (t : Thread) (x : Record) (st : Nat) : State :=
  let kept : Thread := { t with sluices := { t.sluices with q0 := { t.sluices.q0 with active := some { x with refused := some st } } } }
  let t1 : Thread := if t.sluices.q1.length < 16 then { takeQ0 t with sluices := (takeQ0 t).sluices.post 1 [refusedWord st] false } else kept
  (s.setThread r t1).givePromise r t.id x (promiseWord 0xFF (s.tc + 4))

/-- A token's record of the copies that bore it, as it is taken again (R71, R75). -/
def Token.history (k : Token) : List (Nat × Bool) :=
  match k.job with
  | some j => (j.promise, j.wide) :: k.past
  | none => k.past

/-- Give a copy its token and its promise (R71, R74). -/
def startCopy (s : State) (r : SlotRef) (t : Thread) (x : Record) (dst src : Word) (failed : Option Nat) (i : Nat) : State :=
  let w0 := x.words.headD 0
  let n := bitsOf w0 31 0
  let k := (s.polderSlots t.polder).length
  let start := max (s.tc + 4) (tget 0 (s.core r.core).horizon t.polder)
  let h := start + (n + 4 * k - 1) / (4 * k)
  let l := s.pathAllowance r.core r.slot t.world dst src failed.isSome
  let promise := h + l.2
  let far := s.copyFar r t dst src failed.isSome
  let job : CopyJob :=
    { slot := r.slot, tid := t.id, world := t.world, region := t.region, code := bitsOf w0 61 56, dst := dst, src := src,
      dstGen := x.words.getD 1 0, srcGen := x.words.getD 2 0, length := n, moved := 0, weir := bitsOf w0 51 49,
      phase := bitsOf w0 48 48, promise := promise, wide := far, ended := failed, endNo := (s.core r.core).endNo }
  let s1 : State := (l.1.setThread r (takeQ0 t)).modCore r.core (fun c => { c with
    tokens := tput c.tokens i { taken := true, promise := promise, job := some job, past := (tget Token.free c.tokens i).history },
    horizon := tput c.horizon t.polder h, endNo := c.endNo + 1 })
  let s2 : State := if failed.isSome then s1.laterOnce .q1CompletionEntry { core := r.core } else s1.laterOnce .copyChunk { core := r.core }
  s2.givePromise r t.id x (promiseWord i promise)

/-- What the engine's look at a record waits for: at the homes of the buffer-table entries that it names (R57, R91). -/
def copyMeets (s : State) (r : SlotRef) (t : Thread) (words : List Word) : Option (State × Park) :=
  let look (h : Word) : Option (State × Park) :=
    s.engineMeet (engineWho (sourceNo 1 r.core 0) t.world t.region r.slot (bufferEntry h)) r.core (bufferEntry h) 32 false
  if bitsOf (words.headD 0) 61 56 = 1 ∧ copyHeaderBad (words.headD 0) = false then (look (words.getD 1 0)).or (look (words.getD 2 0)) else none

/-- Accept or refuse the active record of a slot, if it need not wait (R71, R73, R74). Its release completes as it is taken, at the scope of
its farthest end (R76). -/
def tryAccept (s : State) (r : SlotRef) (t : Thread) (x : Record) : Option State :=
  match x.refused with
  | some st =>
    if t.sluices.q1.length < 16 then
      some (s.setThread r { takeQ0 t with sluices := (takeQ0 t).sluices.post 1 [refusedWord st] false })
    else none
  | none =>
    if (copyMeets s r t x.words).isSome then (copyMeets s r t x.words).map (fun y => y.1)
    else
      let far := match (s.copyVerdict r.core r.slot t.world x.words).2 with
        | .refused _ => false
        | .accepted dst src failed => s.copyFar r t dst src failed.isSome
      if !s.sealReady r t x far then some (s.sealAsk r t x far)
      else
        match (s.sealDone r t far).copyVerdict r.core r.slot t.world x.words with
        | (s1, .refused st) => some (refuseCopy s1 r t x st)
        | (s1, .accepted dst src failed) => (s1.freeToken r.core t.polder).map (startCopy s1 r t x dst src failed)

/-- COPY_ACCEPT: the earliest record that need not wait is accepted or refused (R63, R71-R74). -/
def execCopyAccept (s : State) : Host.Outcome State Fault Refusal :=
  let c := s.arg.core
  match (activeRecords s c 0).findSome? (fun x => tryAccept s x.1 x.2.1 x.2.2) with
  | none => .next s
  | some s1 => .next (if (activeRecords s1 c 0).isEmpty then s1 else s1.laterOnce .copyAccept { core := c })

/-! ### Chunks (R69) -/

/-- A copy ends with a status; its completion waits in its token (R72). -/
def State.endCopy (s : State) (c : CoreIx) (i : Nat) (j : CopyJob) (status : Nat) : State :=
  let s1 : State := s.modCore c (fun k => { k with
    tokens := tmod Token.free k.tokens i (fun t => { t with job := some { j with ended := some status, endNo := k.endNo } }),
    endNo := k.endNo + 1 })
  (s1.laterOnce .q1CompletionEntry { core := c }).checkRegion j.region

/-- Whether a handle of a copy has become stale since (R69). -/
def State.handleGone (s : State) (c : CoreIx) (j : CopyJob) : State × Option Nat :=
  match s.readHandle c j.slot j.world j.dstGen with
  | (s1, .error k) => (s1, some (statusOf k))
  | (s1, .ok e1) =>
    match s1.readHandle c j.slot j.world j.srcGen with
    | (s2, .error k) => (s2, some (statusOf k))
    | (s2, .ok e2) => (s2, if handleStale j.dstGen e1 2 || handleStale j.srcGen e2 1 then some 1 else none)

/-- What a chunk of a copy waits for: at the homes of its bytes, of the tables, and of the entries that it rereads (R57, R69, R91, R94). -/
def chunkMeets (s : State) (c : CoreIx) (j : CopyJob) (src dst : Word) (n : Nat) : Option (State × Park) :=
  let look (a : Word) (k : Nat) (wr : Bool) : Option (State × Park) :=
    s.engineMeet (engineWho (sourceNo 1 c 0) j.world j.region j.slot a) c a k wr
  let entries := if j.code = 1 then (look (bufferEntry j.dstGen) 32 false).or (look (bufferEntry j.srcGen) 32 false) else none
  entries.or ((look src n false).or (look dst n true))

/-- Move one chunk of a copy, or end it (R69). Where both ends fail, the status is that of the source (log entry 53). -/
def moveChunk (s : State) (c : CoreIx) (i : Nat) (j : CopyJob) : State :=
  let n := min 4096 (j.length - j.moved)
  let src := j.src + BitVec.ofNat 64 j.moved
  let dst := j.dst + BitVec.ofNat 64 j.moved
  let meets := chunkMeets s c j src dst n
  if meets.isSome then ((meets.map (fun x => x.1)).getD s).laterOnce .copyChunk { core := c }
  else
  let chk : State × Option Nat := if j.code = 1 then s.handleGone c j else (s, none)
  match chk with
  | (s1, some st) => s1.endCopy c i j st
  | (s1, none) =>
    let who (a : Word) : Who := engineWho (sourceNo 1 c 0) j.world j.region j.slot a
    match s1.engineSpan c j.slot j.world src n true false with
    | (s2, .error k) => s2.endCopy c i j (statusOf k)
    | (s2, .ok from_) =>
      match s2.engineSpan c j.slot j.world dst n false true with
      | (s3, .error k) => s3.endCopy c i j (statusOf k)
      | (s3, .ok goal) =>
        let target := goal.findSome? (fun p => match p.1 with | .loc k _ => some k | _ => none)
        let phaseOf (k : CoreIx) : ByteWeir := tget ByteWeir.reset (s3.core k).weirs (weirKey j.weir j.phase)
        let foreign := decide (j.code = 2) && (match target with
          | some k => match (phaseOf k).world with | some w => decide (w ≠ j.world) | none => false
          | none => false)
        if foreign then s3.endCopy c i j 4
        else
          match s3.engineRead (who src) from_ with
          | (s4, .error k) => s4.endCopy c i j (statusOf k)
          | (s4, .ok b) =>
            match s4.engineWrite (who dst) c j.slot j.tid goal b with
            | (s5, some k) => s5.endCopy c i j (statusOf k)
            | (s5, none) =>
              let s6 : State := match decide (j.code = 2), target with
                | true, some k => s5.weirDelivery k j.weir j.phase j.world n
                | _, _ => s5
              let j' : CopyJob := { j with moved := j.moved + n }
              if j'.moved = j'.length then s6.endCopy c i j' 0
              else (s6.modCore c (fun k => { k with tokens := tmod Token.free k.tokens i (fun t => { t with job := some j' }) })).laterOnce .copyChunk { core := c }

/-- The copies of a core that run, by token. -/
def runningCopies (k : Core) : List (Nat × CopyJob) :=
  k.tokens.filterMap (fun p => match p.2.job with
    | some j => if p.2.taken ∧ j.ended = none then some (p.1, j) else none
    | none => none)

/-- COPY_CHUNK: one chunk of one running copy moves; which copy is the engine's (R74, R116). -/
def execCopyChunk (s : State) : Host.Outcome State Fault Refusal :=
  let c := s.arg.core
  let l := runningCopies (s.core c)
  let k := if l.length ≤ 1 then 0 else Config.enginePick s.seq % l.length
  match l[k]? with
  | none => .next s
  | some p =>
    let s1 : State := moveChunk { s with seq := s.seq + 1 } c p.1 p.2
    .next (if (runningCopies (s1.core c)).isEmpty then s1 else s1.laterOnce .copyChunk { core := c })

/-! ### Completions (R70-R72) -/

/-- The copies of a core whose completions wait in their tokens, in the order in which they ended. -/
def endedCopies (k : Core) : List (Nat × CopyJob × Nat) :=
  let l := k.tokens.filterMap (fun p => match p.2.job with
    | some j => match j.ended with
      | some st => if p.2.taken then some (p.1, j, st) else none
      | none => none
    | none => none)
  sortBy (fun a b => decide (a.2.1.endNo ≤ b.2.1.endNo)) l

/-- One waiting completion enters q1, or is discarded with its thread (R64, R72, R430). -/
def enterQ1 (s : State) (c : CoreIx) (p : Nat × CopyJob × Nat) : State :=
  let j := p.2.1
  let r : SlotRef := { core := c, slot := j.slot }
  let free (s : State) : State := s.modCore c (fun k => { k with tokens := tmod Token.free k.tokens p.1 (fun t => { t with taken := false }) })
  let word := BitVec.ofNat 64 (p.1 * 2 ^ 56 + p.2.2 * 2 ^ 48 + j.moved)
  match s.thread? r with
  | some t =>
    if t.id = j.tid then
      if t.sluices.q1.length < 16 then
        free (s.setThread r { t with sluices := t.sluices.post 1 [word] j.wide })
      else s
    else if s.isSaved j.tid then s else free s
  | none => if s.isSaved j.tid then s else free s

/-- Q1_COMPLETION_ENTRY: completions enter as room appears (R72). -/
def execQ1CompletionEntry (s : State) : Host.Outcome State Fault Refusal :=
  let c := s.arg.core
  .next ((endedCopies (s.core c)).foldl (fun s p => enterQ1 s c p) s)

/-! ### CPY and WAITT (R294, R295) -/

/-- CPY: the record is built and sealed in one instruction; d awaits the promise (R294). `extra` is the number of length
bits that the form takes. -/
def copyForm (code : Nat) (d a b : Reg) (m : Marks) (s : State) : Host.Outcome State Fault Refusal :=
  issueRun s 4 fun t => do
    let r := s.cur
    let x ← liftE (read3 s t a b d)
    liftE (checkDest s t d)
    let o := t.sluices.q0
    stopIf o.full (.park (.sluiceFull 0))
    needR (!o.partly) .prot 0
    let v := x.2.2
    let tagBits := if code = 2 then bitsOf v 34 32 * 2 ^ 49 + bitsOf v 35 35 * 2 ^ 48 else 0
    let bad := if code = 2 then decide (bitsOf v 63 36 ≠ 0) else decide (bitsOf v 63 32 ≠ 0)
    let w0 := BitVec.ofNat 64 (2 * 2 ^ 62 + code * 2 ^ 56 + tagBits + (if bad then 2 ^ 47 else 0) + bitsOf v 31 0)
    sealRecord r 0 { words := [w0, x.1, x.2.1], sealed := none, d := some d }
    let t1 := ((← get).thread? r).getD t
    retirePending t1 [a, b, d] (markAB m a b) d

/-- CPY (R294). -/
def execCpy (d a b : Reg) (m : Marks) (s : State) : Host.Outcome State Fault Refusal := copyForm 0 d a b m s

/-- CPY.HDL (R294). -/
def execCpyHdl (d a b : Reg) (m : Marks) (s : State) : Host.Outcome State Fault Refusal := copyForm 1 d a b m s

/-- CPY.TAG (R294). -/
def execCpyTag (d a b : Reg) (m : Marks) (s : State) : Host.Outcome State Fault Refusal := copyForm 2 d a b m s

/-- Whether the copy that bears a token under a promise still runs (R75). -/
def Token.running (k : Token) (p : Nat) : Bool :=
  match k.job with
  | some j => decide (j.promise = p) && j.ended.isNone
  | none => false

/-- Whether an end of the copy that bore a token under a promise lay on another die (R75, R76, R121). -/
def Token.wideFor (k : Token) (p : Nat) : Bool := k.history.any (fun x => decide (x.1 = p) && x.2)

/-- What WAITT does when it issues, and again when its promise has come (R75, R295). -/
def waittForm (a : Reg) (ma : Bool) (s : State) : Host.Outcome State Fault Refusal :=
  issueRun s 4 fun t => do
    let r := s.cur
    let x ← liftE (readReg s t [] a)
    let i := bitsOf x 63 56
    let p := bitsOf x 55 0
    needR (decide (i = 0xFF) || (decide (i < 64) && (s.polderSlots t.polder).contains (i / 4))) .prot 0
    stopIf (decide (s.tc < p)) (.park (.promise p))
    let k := tget Token.free (s.core r.core).tokens i
    stopIf (decide (i ≠ 0xFF) && k.running p) (.trap .promise 0)
    acquireR r t (decide (i ≠ 0xFF) && k.wideFor p)
    retireR t [a] [(ma, a)] none

/-- WAITT: sleeps until the promise, then checks the token (R75, R295). -/
def execWaitt (a : Reg) (ma : Bool) (s : State) : Host.Outcome State Fault Refusal := waittForm a ma s

/-- PROMISE_TIME: tc reaches the promise at which a WAITT sleeps, and the token is checked (R75, R295). -/
def execPromiseTime (s : State) : Host.Outcome State Fault Refusal :=
  let r : SlotRef := { core := s.arg.core, slot := s.arg.slot }
  match s.thread? r with
  | some t =>
    match t.parked with
    | some (.promise _) =>
      let s1 : State := { s.setThread r { t with parked := none } with cur := r, pipe := .address }
      match fetch s1 r t with
      | .ok (.waitt a ma, _) => waittForm a ma s1
      | _ => .next s1
    | _ => .next s
  | none => .next s

end Sys2Proof.Machine
end

