-- ==== Sys2Proof/Machine/Handle.lean ====
section
/-!
DEFINITION. The handle instructions (R142-R144, R298-R300).
-/

namespace Sys2Proof.Machine

/-- Whether a binding is refused by HSET (R142, R143): the zero field, the window, the size, the end of the ring. -/
def bindingBad (x : Word) : Bool :=
  let h : Handle := { w0 := x, w1 := 0 }
  decide (bitsOf x 28 15 ≠ 0) || !isLocalWindow h.window || decide (h.size % 16 ≠ 0)
    || (decide (h.count ≠ 0) && decide (h.size = 0)) || decide (32768 < h.base + h.count * h.size)

/-- The handle that a binding leaves: P and C zero, the flags of subscriptions and the broken flag clear (R143). -/
def bound (x : Word) : Handle := { w0 := BitVec.ofNat 64 (bitsOf x 63 32 * 2 ^ 32 + bitsOf x 28 0), w1 := 0 }

/-- HSET: it ends a live subscription on the handle, waits until its ending word has entered q3, then binds (R298, R300). -/
def execHset (h : Fin 8) (a : Reg) (ma : Bool) (s : State) : Host.Outcome State Fault Refusal :=
  issueRun s 4 fun t => do
    let r := s.cur
    let x ← liftE (readReg s t [] a)
    needR (!bindingBad x) .win x
    stopIf (t.cq.any (fun e => e.names h)) (.park (.handleFree h))
    if s.subOn r h then
      modifyS (fun s => { s with subs := s.subs.map (fun u =>
        if u.target = r.core ∧ u.slot.slot = r.slot ∧ u.handle = h then { u with cancel := true } else u) })
      throw (.park (.handleEnded h))
    retireR { t with handles := t.handles.set h (bound x), farHandles := t.farHandles &&& ~~~(BitVec.ofNat 8 (2 ^ h.val)) } [a] [(ma, a)] none

/-- The common part of HADV and HCOM: a count that is checked against a limit, then an advance (R299). -/
def advanceForm (h : Fin 8) (a : Reg) (ma : Bool) (busy : Handle → Bool) (limit : Handle → Nat) (move : Handle → Nat → Handle)
    (release : Bool) (s : State) : Host.Outcome State Fault Refusal :=
  issueRun s 4 fun t => do
    let r := s.cur
    let x ← liftE (readReg s t [] a)
    let k := t.handles[h]
    needR (decide (k.count ≠ 0)) .win k.w0
    needR (!busy k) .prot k.w0
    stopIf (t.cq.any (fun e => e.names h)) (.park (.handleFree h))
    needR (decide (x.toNat ≤ limit k)) .prot k.w0
    if release && decide (x ≠ 0) then releaseR r t false
    retireR { t with handles := t.handles.set h (move k x.toNat) } [a] [(ma, a)] none

/-- HADV: C advances; a release of the consumer's reads (R298-R300). -/
def execHadv (h : Fin 8) (a : Reg) (ma : Bool) (s : State) : Host.Outcome State Fault Refusal :=
  advanceForm h a ma Handle.storer Handle.filled (fun k n => k.setCons (k.cons + n)) false s

/-- HCOM: P advances; a release at cluster scope (R120, R298-R300). -/
def execHcom (h : Fin 8) (a : Reg) (ma : Bool) (s : State) : Host.Outcome State Fault Refusal :=
  advanceForm h a ma Handle.loader Handle.free (fun k n => k.setProd (k.prod + n)) true s

/-- HWAIT: parks until P - C reaches the count; an acquire (R120, R121, R298, R299). -/
def execHwait (h : Fin 8) (a : Reg) (ma : Bool) (s : State) : Host.Outcome State Fault Refusal :=
  issueRun s 4 fun t => do
    let r := s.cur
    let x ← liftE (readReg s t [] a)
    let k := t.handles[h]
    needR (decide (k.count ≠ 0)) .win k.w0
    needR (!k.broken) .scaleseq k.w0
    needR (decide (x.toNat ≤ k.count)) .prot k.w0
    stopIf (decide (k.filled < x.toNat)) (.park (.handleFilled h x.toNat))
    acquireR r t (t.farHandles.getLsbD h.val)
    retireR t [a] [(ma, a)] none

/-- HROOM: parks until n - (P - C) reaches the count (R298, R299). -/
def execHroom (h : Fin 8) (a : Reg) (ma : Bool) (s : State) : Host.Outcome State Fault Refusal :=
  issueRun s 4 fun t => do
    let x ← liftE (readReg s t [] a)
    let k := t.handles[h]
    needR (decide (k.count ≠ 0)) .win k.w0
    needR (decide (x.toNat ≤ k.count)) .prot k.w0
    stopIf (decide (k.free < x.toNat)) (.park (.handleRoom h x.toNat))
    retireR t [a] [(ma, a)] none

/-- HGET: word k of the handle (R298). -/
def execHget (d : Reg) (h : Fin 8) (k : Fin 2) (s : State) : Host.Outcome State Fault Refusal :=
  issue s fun t => do
    checkDest s t d
    return retire s t [] [] (some (d, if k = 0 then (t.handles[h]).w0 else (t.handles[h]).w1)) 4

end Sys2Proof.Machine
end

