-- ==== Sys2Proof/Machine/Pump.lean ====
section
/-!
DEFINITION. The pumps (R77-R85, R296, R297): subscriptions, tiles and their scales, cancels, ending words.
-/

namespace Sys2Proof.Machine

/-! ### The handle of a subscription (R77) -/

/-- The thread whose handle a subscription fills or empties. -/
def Subscription.at (u : Subscription) : SlotRef := { core := u.target, slot := u.slot.slot }

/-- The state with the handle of a slot changed. -/
def State.modHandle (s : State) (r : SlotRef) (h : Fin 8) (f : Handle → Handle) : State :=
  s.modThread r (fun t => { t with handles := t.handles.set h (f t.handles[h]) })

/-- The handle word with a flag set or cleared. -/
def Handle.flag (h : Handle) (bit : Nat) (on : Bool) : Handle :=
  let m : Word := BitVec.ofNat 64 (2 ^ bit)
  { h with w0 := if on then h.w0 ||| m else h.w0 &&& ~~~m }

/-- The flag bit of a subscription: loader 30, storer 29 (R142). -/
def Subscription.bit (u : Subscription) : Nat := if u.loader then 30 else 29

/-- The source number of the pump that serves a subscription (R28, R79). -/
def Subscription.src (s : State) (u : Subscription) : Nat :=
  let die := match (s.enginePlace u.slot.core u.slot.slot u.world (BitVec.ofNat 64 u.base) 1 false false).2 with
    | .ok (.glob pa) => paDie pa
    | _ => dieOf u.slot.core
  sourceNo 1 (coreIx die (clusterOf u.slot.core % 64) 127) 3

/-! ### Ending words (R83) -/

/-- An ending word for q3. -/
def pumpWord (h status tiles : Nat) : Word := BitVec.ofNat 64 (h * 2 ^ 56 + status * 2 ^ 48 + tiles)

/-- Post a word to q3 of a thread if it has room, with the scope at which its POP acquires (R121); a thread that has ended gets nothing (R64), a saved one waits (R430). None
where the word must wait. -/
def postQ3 (s : State) (r : SlotRef) (tid : Nat) (w : Word) (wide : Bool) : Option State :=
  match s.thread? r with
  | some t =>
    if t.id = tid then
      if t.sluices.q3.length < 16 then some (s.setThread r { t with sluices := t.sluices.post 3 [w] wide }) else none
    else if s.isSaved tid then none else some s
  | none => if s.isSaved tid then none else some s

/-- A subscription ends: its flag leaves the handle, its word goes to q3 as room appears. -/
def State.endSub (s : State) (u : Subscription) (status : Nat) : State :=
  let s1 : State := match s.thread? u.at with
    | some t => if t.world = u.world then s.modHandle u.at u.handle (fun h => h.flag u.bit false) else s
    | none => s
  let u' : Subscription := { u with ended := some status }
  match postQ3 s1 u.slot u.tid (pumpWord u.handle.val status u.moved) u.wide with
  | some s2 => ({ s2 with subs := s2.subs.erase u }).checkRegion u.region
  | none => { s1 with subs := s1.subs.map (fun v => if v = u then u' else v) }

/-- Ending words that wait enter q3 as room appears. -/
def State.settleSubs (s : State) : State :=
  s.subs.foldl (fun s u => match u.ended with
    | some st => (match postQ3 s u.slot u.tid (pumpWord u.handle.val st u.moved) u.wide with
      | some s2 => ({ s2 with subs := s2.subs.erase u }).checkRegion u.region
      | none => s)
    | none => s) s

/-! ### Acceptance (R77-R80, R297, R361) -/

/-- What the pump makes of a record. -/
inductive SubVerdict where
  | refused (status : Nat)
  | cancelled
  | accepted (u : Subscription)
  | waits
  deriving DecidableEq, Repr

/-- Zero fields of a subscription record (R77). The status of a record of another length is not said: BOUND (log entry 53). -/
def subRecordBad (words : List Word) : Bool :=
  let w0 := words.headD 0
  let w2 := words.getD 2 0
  decide (bitsOf w0 63 62 ≠ 2) || decide (3 ≤ bitsOf w0 61 56) || decide (bitsOf w0 55 51 ≠ 0) || decide (bitsOf w0 47 32 ≠ 0)
    || (match fabricPlace w2 with
      | some (_, o) => decide (o ≠ 0)
      | none => decide (windowOf w2 = 0xFD))

/-- A tensor descriptor as a subscription (R78). -/
def subOf (r : SlotRef) (t : Thread) (words : List Word) (target : CoreIx) (b : List Byte) : Subscription :=
  let w0 := words.headD 0
  { slot := r, tid := t.id, world := t.world, region := t.region, handle := Fin.ofNat 8 (bitsOf w0 50 48), target := target,
    loader := decide (bitsOf w0 61 56 = 0), count := bitsOf w0 31 0, moved := 0, base := fieldAt b 0 8, tpitch := fieldAt b 8 8,
    rpitch := fieldAt b 16 4, rbytes := fieldAt b 20 2, rows := fieldAt b 22 2, format := fieldAt b 24 1, sbase := fieldAt b 32 8,
    cancel := false, ended := none, wide := false, data := [], scales := [] }

/-- Whether a descriptor sets a zero field or names no format (R78). The status for formats 3-255 is not said: BOUND (log entry 53). -/
def descriptorBad (b : List Byte) : Bool :=
  decide (2 < fieldAt b 24 1) || decide (fieldAt b 25 7 ≠ 0) || decide (fieldAt b 40 8 ≠ 0)

/-- Whether a descriptor's tile does not suit its handle or format (R80). The status for an unbound handle is not said: SHAPE here, and DIKE
where a tile finds it unbound (log entry 53). -/
def shapeBad (u : Subscription) (h : Handle) : Bool :=
  decide (u.rbytes * u.rows ≠ h.size) || decide (h.count = 0) || (decide (u.format = 1) && decide (u.rbytes % 32 ≠ 0))
    || (decide (u.format = 2) && decide (u.rbytes % 16 ≠ 0))

/-- Examine a subscription record (R77, R78, R80). The status for a target that is no fabric address is not said: WIN (log entry 53). -/
def State.subVerdict (s : State) (r : SlotRef) (t : Thread) (words : List Word) : State × SubVerdict :=
  let w0 := words.headD 0
  let w1 := words.getD 1 0
  if subRecordBad words then (s, .refused 2)
  else
    match fabricPlace (words.getD 2 0) with
    | none => (s, .refused 5)
    | some (target, _) =>
      let at_ : SlotRef := { core := target, slot := r.slot }
      let h : Fin 8 := Fin.ofNat 8 (bitsOf w0 50 48)
      let live := s.subs.any (fun u => decide (u.target = target ∧ u.slot.slot = r.slot ∧ u.handle = h ∧ u.ended = none))
      if bitsOf w0 61 56 = 2 then (s, if live then .cancelled else .refused 0)
      else if w1.toNat % 16 ≠ 0 then (s, .refused 2)
      else
        match s.engineSpan r.core r.slot t.world w1 48 true false with
        | (s1, .error k) => (s1, .refused (statusOf k))
        | (s1, .ok l) =>
          if windowOf w1 ≠ 0 then (s1, .refused 5)
          else if l.any (fun p => isDevice p.1) then (s1, .refused 4)
          else
            match s1.engineRead (engineWho (sourceNo 1 (coreIx (dieOf r.core) (clusterOf r.core % 64) 127) 3) t.world t.region r.slot w1) l with
            | (s2, .error k) => (s2, .refused (statusOf k))
            | (s2, .ok b) =>
              if descriptorBad b then (s2, .refused 2)
              else
                match s2.thread? at_ with
                | none => (s2, .refused 6)
                | some tt =>
                  let u := subOf r t words target b
                  if tt.world ≠ t.world then (s2, .refused 6)
                  else if shapeBad u tt.handles[h] then (s2, .refused 8)
                  else if live then (s2, .refused 9)
                  else if s2.heavyRoom t.region then (s2, .accepted u) else (s2, .waits)

/-- Take the active record out of a slot's q2. -/
def takeQ2 (t : Thread) : Thread := { t with sluices := { t.sluices with q2 := t.sluices.q2.take } }

/-- Whether a subscription record reaches another die than its slot's: its target, its descriptor, or its tensor (R121). -/
def State.subWide (s : State) (r : SlotRef) (t : Thread) (words : List Word) : Bool :=
  let far (a : Word) : Bool := s.farEnd r.core r.slot t.world a
  let w1 := words.getD 1 0
  if far (words.getD 2 0) then true
  else if bitsOf (words.headD 0) 61 56 = 2 then false
  else if far w1 then true
  else
    match s.engineSpan r.core r.slot t.world w1 8 true false with
    | (s1, .ok l) =>
      match (s1.engineRead (engineWho 0 t.world t.region r.slot w1) l).2 with
      | .ok b => far (BitVec.ofNat 64 (leNat b))
      | .error _ => false
    | (_, .error _) => false

/-- The handle whose subscription begins: its flag, and, for a loader, the scope of the waits that it satisfies (R77, R121). -/
def State.subBegun (s : State) (u : Subscription) : State :=
  (s.modHandle u.at u.handle (fun k => k.flag u.bit true)).modThread u.at (fun t =>
    if u.loader && u.wide then { t with farHandles := t.farHandles ||| BitVec.ofNat 8 (2 ^ u.handle.val) } else t)

/-- Serve the active record of a slot, once its release is complete; none where it waits. -/
def subscribe (s : State) (r : SlotRef) (t : Thread) (x : Record) (wide : Bool) : Option State :=
  let hn := bitsOf (x.words.headD 0) 50 48
  match s.subVerdict r t x.words with
  | (_, .waits) => none
  | (s1, .refused st) => postQ3 (s1.setThread r (takeQ2 t)) r t.id (pumpWord hn st 0) wide
  | (s1, .cancelled) =>
    let target := match fabricPlace (x.words.getD 2 0) with | some p => p.1 | none => 0
    let stop (u : Subscription) : Subscription :=
      if u.target = target ∧ u.slot.slot = r.slot ∧ u.handle = Fin.ofNat 8 hn then { u with cancel := true } else u
    let s2 : State := s1.setThread r (takeQ2 t)
    let s3 : State := { s2 with subs := s2.subs.map stop }
    some ((s3.laterOnce .loaderTile {}).laterOnce .storerTile {})
  | (s1, .accepted v) =>
    let u : Subscription := { v with wide := wide }
    let s2 : State := (s1.setThread r (takeQ2 t)).subBegun u
    let s3 : State := { s2 with subs := s2.subs ++ [u] }
    some (s3.laterOnce (if u.loader then .loaderTile else .storerTile) {})

/-- What the reading of a record's descriptor waits for (R57, R91). A cancel record, and one that is refused for its fields, reads none. -/
def State.subMeet (s : State) (r : SlotRef) (t : Thread) (words : List Word) : Option (State × Park) :=
  let w1 := words.getD 1 0
  if subRecordBad words ∨ bitsOf (words.headD 0) 61 56 = 2 then none
  else s.engineMeet (engineWho (sourceNo 1 (coreIx (dieOf r.core) (clusterOf r.core % 64) 127) 3) t.world t.region r.slot w1) r.core w1 48 false

/-- Serve the active record of a slot, if it need not wait (R57, R91, R118). -/
def trySubscribe (s : State) (r : SlotRef) (t : Thread) (x : Record) : Option State :=
  let wide := s.subWide r t x.words
  match s.subMeet r t x.words with
  | some y => some y.1
  | none => if s.sealReady r t x wide then subscribe (s.sealDone r t wide) r t x wide else some (s.sealAsk r t x wide)

/-- The active q2 records of the pumps with a number, earliest first: pump c of each die serves cluster c of every die, so that a record is
never taken before an earlier one of its pump (R63, R79). -/
def pumpRecords (s : State) (c : Nat) : List (SlotRef × Thread × Record) :=
  let l := ((s.cores.map (fun p => p.1)).filter (fun k => decide (clusterOf k % 64 = c))).flatMap (fun k => activeRecords s k 2)
  sortBy (fun a b => !(b.2.2.stamp.before a.2.2.stamp)) l

/-- Serve the earliest record of the pumps of a core's cluster number that need not wait, if it has the wanted code; ask for the others'
events. -/
def pumpServe (s : State) (c : CoreIx) (want : Instr) : State :=
  match (pumpRecords s (clusterOf c % 64)).findSome? (fun x => (trySubscribe s x.1 x.2.1 x.2.2).map (fun s1 => (s1, pumpEvent (x.2.2.words.headD 0)))) with
  | none => s
  | some (s1, ev) => if ev = want then s1 else s.laterOnce ev { core := c }

/-- LOADER_SUBSCRIPTION (R80); a record with an unknown code is refused here. -/
def execLoaderSubscription (s : State) : Host.Outcome State Fault Refusal := .next (pumpServe s s.arg.core .loaderSubscription)

/-- STORER_SUBSCRIPTION (R80). -/
def execStorerSubscription (s : State) : Host.Outcome State Fault Refusal := .next (pumpServe s s.arg.core .storerSubscription)

/-- CANCEL_RECORD (R297). -/
def execCancelRecord (s : State) : Host.Outcome State Fault Refusal := .next (pumpServe s s.arg.core .cancelRecord)

/-! ### Tiles (R81-R84) -/

/-- The rows of tile `i`: address and bytes (R78). -/
def Subscription.row (u : Subscription) (i j : Nat) : Word := BitVec.ofNat 64 (u.base + i * u.tpitch + j * u.rpitch)

/-- Bytes of a block of the tile's format, and the blocks of a tile (R84). -/
def Subscription.block (u : Subscription) : Nat := if u.format = 1 then 32 else 16
def Subscription.blocks (u : Subscription) : Nat := if u.format = 0 then 0 else u.rbytes * u.rows / u.block

/-- The address of tile `i`'s scale pairs (R84). -/
def Subscription.pairs (u : Subscription) (i : Nat) : Word := BitVec.ofNat 64 (u.sbase + 2 * i * u.blocks)

/-- The parts of a tile in memory: its rows where `data`, its scale pairs where `scales` (R78, R84). -/
def Subscription.parts (u : Subscription) (i : Nat) (data scales : Bool) : List (Word × Nat) :=
  (if data then (List.range u.rows).map (fun j => (u.row i j, u.rbytes)) else [])
    ++ (if scales && decide (u.blocks ≠ 0) then [(u.pairs i, 2 * u.blocks)] else [])

/-- The places of parts of a tile, all of them or the first cause. -/
def partSpans (s : State) (u : Subscription) (l : List (Word × Nat)) (rd wr : Bool) : State × Except Cause (List (Place × Nat)) :=
  l.foldl (fun (acc : State × Except Cause (List (Place × Nat))) a =>
    match acc with
    | (s1, .error k) => (s1, .error k)
    | (s1, .ok l) =>
      if windowOf a.1 ≠ 0 then (s1, .error .win) else
      match s1.engineSpan u.slot.core u.slot.slot u.world a.1 a.2 rd wr with
      | (s2, .error k) => (s2, .error k)
      | (s2, .ok q) => if q.any (fun p => isDevice p.1) then (s2, .error .prot) else (s2, .ok (l ++ q))) (s, .ok [])

/-- The maker of a subscription's accesses. -/
def Subscription.who (s : State) (u : Subscription) : Who := engineWho (u.src s) u.world u.region u.slot.slot (u.row u.moved 0)

/-- What accesses to parts of a tile wait for (R57, R91, R94). -/
def partsMeet (s : State) (u : Subscription) (l : List (Word × Nat)) (wr : Bool) : Option (State × Park) :=
  l.findSome? (fun a => s.engineMeet (u.who s) u.slot.core a.1 a.2 wr)

/-- The scale-plane bytes of a tile: those of each block's starting granule (R84). -/
def scaleAt (u : Subscription) (off k : Nat) : Nat := (off + k * u.block) / 16 * 2

/-- Whether the local side of a tile passes the dike check (R79): its bytes, and the scale-plane bytes of its blocks (R141). -/
def tileDike (s : State) (u : Subscription) (off : Nat) : Bool :=
  dikeFits s u.slot.slot u.world (.loc u.target off) (u.rbytes * u.rows) &&
    (List.range u.blocks).all (fun k => dikeFits s u.slot.slot u.world (.scale u.target (scaleAt u off k)) 2)

/-- Whether a scale pair of a tile lies in a poisoned word of the scale plane (R132). -/
def tileBad (s : State) (u : Subscription) (off : Nat) : Bool :=
  (List.range u.blocks).any (fun k => s.scaleBad u.target (scaleAt u off k) 2)

/-- Write the pairs of a loaded tile. -/
def putScales (s : State) (u : Subscription) (off : Nat) (pairs : List Byte) : State :=
  (List.range u.blocks).foldl (fun s k => (s.scaleWrite u.target (scaleAt u off k) (bytesAt pairs (2 * k) 2)).1) s

/-- The scale pairs of a tile in local memory; UE where one lies in a poisoned word (R84, R132). -/
def getScales (s : State) (u : Subscription) (off : Nat) : Except Cause (List Byte) := do
  let l ← (List.range u.blocks).mapM (fun k => s.scaleRead u.target (scaleAt u off k) 2)
  return l.flatten

/-- A subscription as it stands now. -/
def State.setSub (s : State) (u u' : Subscription) : State := { s with subs := s.subs.map (fun v => if v = u then u' else v) }

/-- Fetch parts of a tile for a loader and go on with their bytes, or end the subscription (R83). -/
def fetchParts (s : State) (u : Subscription) (l : List (Word × Nat)) (go : State → List Byte → State) : State :=
  match partsMeet s u l false with
  | some x => x.1
  | none =>
    match partSpans s u l true false with
    | (s1, .error k) => s1.endSub u (statusOf k)
    | (s1, .ok places) =>
      match s1.engineRead (u.who s1) places with
      | (s2, .error k) => s2.endSub u (statusOf k)
      | (s2, .ok b) => go s2 b

/-- The number that the beats of a tile bear (R84). -/
def seqNo (i : Nat) : Nat := i % 65536

/-- A stream of a loader runs ahead: the data of the next tile come, or its scale pairs, neither stream more than one tile ahead of the
other (R84). `slip` says that the side band hands on a later beat (R85). -/
def streamAhead (s : State) (u : Subscription) (scales slip : Bool) : State :=
  let mine := if scales then u.scales.length else u.data.length
  let other := if scales then u.data.length else u.scales.length
  let i := u.moved + mine
  if other < mine ∨ u.count ≤ i ∨ (u.blocks = 0 ∧ (scales = true ∨ 0 < mine)) ∨ u.cancel = true then s
  else
    fetchParts s u (u.parts i (!scales) scales) (fun s2 b =>
      let beat : Nat × List Byte := (seqNo (if scales && slip then i + 1 else i), b)
      s2.setSub u (if scales then { u with scales := u.scales ++ [beat] } else { u with data := u.data ++ [beat] }))

/-- Commit a tile whose data and pairs have come (R81, R84, R85): bytes and scales are written, the producer index advances. -/
def commitTile (s : State) (u : Subscription) (h : Handle) (data scales : Nat × List Byte) : State :=
  let off := h.base + u.moved % h.count * h.size
  if u.blocks ≠ 0 ∧ data.1 ≠ scales.1 then
    (s.modHandle u.at u.handle (fun k => k.flag 31 true)).endSub u 0xB
  else if !tileDike s u off then s.endSub u 6
  else if tileBad s u off then s.endSub u 7
  else
    match s.locWrite u.target off data.2 with
    | (s3, some k) => s3.endSub u (statusOf k)
    | (s3, none) =>
      let s4 : State := (putScales s3 u off scales.2).modHandle u.at u.handle (fun k => k.setProd (k.prod + 1))
      let u' : Subscription := { u with
        moved := u.moved + 1, data := if u.cancel then [] else u.data.tail, scales := if u.cancel then [] else u.scales.tail }
      let s5 : State := s4.setSub u u'
      if u'.moved = u'.count then s5.endSub u' 0 else s5

/-- A loader places a tile and its scales, and advances the producer index (R81, R84): what its streams have not brought yet is fetched. -/
def loadTile (s : State) (u : Subscription) (h : Handle) (slip : Bool) : State :=
  let off := h.base + u.moved % h.count * h.size
  let n := if u.data.isEmpty then u.rbytes * u.rows else 0
  if !tileDike s u off then s.endSub u 6
  else
    fetchParts s u (u.parts u.moved u.data.isEmpty u.scales.isEmpty) (fun s2 b =>
      commitTile s2 u h (u.data.headD (seqNo u.moved, b.take n)) (u.scales.headD (seqNo (if slip then u.moved + 1 else u.moved), b.drop n)))

/-- A storer writes the consumer slot as the next tile, and advances the consumer index (R82, R84). -/
def storeTile (s : State) (u : Subscription) (h : Handle) : State :=
  let off := h.base + h.cons % h.count * h.size
  let n := u.rbytes * u.rows
  let parts := u.parts u.moved true true
  if !tileDike s u off then s.endSub u 6
  else
    match partsMeet s u parts true with
    | some x => x.1
    | none =>
      match partSpans s u parts false true with
      | (s1, .error k) => s1.endSub u (statusOf k)
      | (s1, .ok l) =>
        match s1.locRead u.target off n with
        | (s2, .error k) => s2.endSub u (statusOf k)
        | (s2, .ok b) =>
          match getScales s2 u off with
          | .error k => s2.endSub u (statusOf k)
          | .ok pairs =>
            match s2.engineWrite (u.who s2) u.slot.core u.slot.slot u.tid l (b ++ pairs) with
            | (s3, some k) => s3.endSub u (statusOf k)
            | (s3, none) =>
              let s4 : State := s3.modHandle u.at u.handle (fun k => k.setCons (k.cons + 1))
              let u' : Subscription := { u with moved := u.moved + 1 }
              let s5 : State := s4.setSub u u'
              if u'.moved = u'.count then s5.endSub u' 0 else s5

/-- Whether a subscription can go on: it has been cancelled, has moved all its tiles, has lost its thread, or its ring has a
slot for it (R81-R83). -/
def State.subReady (s : State) (u : Subscription) : Bool :=
  decide (u.ended = none) &&
    (u.cancel || decide (u.moved = u.count) || (match s.thread? u.at with
      | some t =>
        let h := t.handles[u.handle]
        decide (t.world ≠ u.world) || decide (h.count = 0) || (if u.loader then decide (0 < h.free) else decide (0 < h.filled))
      | none => true))

/-- Whether a tile of a loader is in flight, and has room (R83). -/
def Subscription.inFlight (u : Subscription) (h : Handle) : Bool :=
  u.loader && (!u.data.isEmpty || !u.scales.isEmpty) && decide (0 < h.free)

/-- One tile of one subscription, a stream of it run ahead, or its end (R81-R83). A cancel takes effect after the tile in flight. `what` is
0 for a tile, 1 for data ahead, 2 for scale pairs ahead. -/
def pumpTile (s : State) (loader slip : Bool) (what : Nat) : State :=
  let s0 := s.settleSubs
  let l := s0.subs.filter (fun u => decide (u.loader = loader) && s0.subReady u)
  let k := if l.length ≤ 1 then 0 else Config.enginePick s0.seq % l.length
  match l[k]? with
  | none => s0
  | some u =>
    let s1 : State := { s0 with seq := s0.seq + 1 }
    if u.moved = u.count then s1.endSub u 0
    else
      match s1.thread? u.at with
      | none => s1.endSub u (if u.cancel then 0xA else 6)
      | some t =>
        let h := t.handles[u.handle]
        if u.cancel && !u.inFlight h then s1.endSub u 0xA
        else if t.world ≠ u.world ∨ h.count = 0 then s1.endSub u 6
        else if !loader then storeTile s1 u h
        else if what = 0 || u.cancel then loadTile s1 u h slip
        else streamAhead s1 u (decide (what = 2)) slip

/-- LOADER_TILE (R81, R84, R85). Arguments: `n` which of its parts moves, `flag` whether the side band slips. -/
def execLoaderTile (s : State) : Host.Outcome State Fault Refusal := .next (pumpTile s true s.arg.flag s.arg.n)

/-- STORER_TILE (R82, R84). -/
def execStorerTile (s : State) : Host.Outcome State Fault Refusal := .next (pumpTile s false false 0)

/-! ### PSUB, PRET, PCAN (R296) -/

/-- Build a subscription record and seal it into q2. -/
def subForm (code : Nat) (d a : Reg) (b : Option Reg) (marked : List (Bool × Reg)) (s : State) : Host.Outcome State Fault Refusal :=
  issueRun s 4 fun t => do
    let r := s.cur
    let x ← liftE (readReg s t [] a)
    let y ← match b with
      | some b => liftE (readReg s t [a] b)
      | none => pure 0
    let z ← liftE (readReg s t (a :: b.toList) d)
    let o := t.sluices.q2
    stopIf o.full (.park (.sluiceFull 2))
    needR (!o.partly) .prot 0
    let bad := if bitsOf x 63 56 = 0 then 0 else 2 ^ 47
    let w0 := BitVec.ofNat 64 (2 * 2 ^ 62 + code * 2 ^ 56 + bitsOf x 55 0) ||| BitVec.ofNat 64 bad
    sealRecord r 2 { words := [w0, y, z], sealed := none }
    let t1 := ((← get).thread? r).getD t
    retireR t1 (a :: b.toList ++ [d]) marked none

/-- PSUB (R296). -/
def execPsub (d a b : Reg) (m : Marks) (s : State) : Host.Outcome State Fault Refusal := subForm 0 d a (some b) (markAB m a b) s

/-- PRET (R296). -/
def execPret (d a b : Reg) (m : Marks) (s : State) : Host.Outcome State Fault Refusal := subForm 1 d a (some b) (markAB m a b) s

/-- PCAN (R296, R297). -/
def execPcan (d a : Reg) (ma : Bool) (s : State) : Host.Outcome State Fault Refusal := subForm 2 d a none [(ma, a)] s

end Sys2Proof.Machine
end

