-- ==== Sys2Proof/Machine/Banker.lean ====
section
/-!
DEFINITION. The banker (R356-R360): pools of register blocks, pages and tiles, claims, requests, grants and releases.
-/

namespace Sys2Proof.Machine

/-! ### Words and holdings (R357) -/

def popCount (n k : Nat) : Nat := ((List.range k).filter (fun i => n / 2 ^ i % 2 = 1)).length

/-- An amount of storage: register blocks, pages, tiles. -/
structure Amount where
  blocks : Nat
  pages  : Nat
  tiles  : Nat
  deriving DecidableEq, Repr

/-- The amount a claim word names. -/
def claimAmount (w : Word) : Amount := { blocks := bitsOf w 1 0, pages := bitsOf w 15 8, tiles := bitsOf w 39 32 }

/-- The amount a request word names by its mask. -/
def requestAmount (w : Word) : Amount :=
  { blocks := popCount (bitsOf w 2 0) 3, pages := bitsOf w 15 8, tiles := bitsOf w 39 32 }

/-- What a thread holds. -/
def heldAmount (t : Thread) : Amount :=
  { blocks := popCount t.blocks.toNat 3, pages := t.pages, tiles := t.tiles.length }

/-- The held register (R357). -/
def heldWord (t : Thread) : Word :=
  BitVec.ofNat 64 (t.tiles.length * 2 ^ 32 + t.pageBase * 2 ^ 16 + t.pages * 2 ^ 8 + t.blocks.toNat)

/-- Whether a claim word sets a zero field; a request word's. -/
def claimBad (w : Word) : Bool :=
  decide (bitsOf w 63 40 ≠ 0 ∨ bitsOf w 31 16 ≠ 0 ∨ bitsOf w 7 2 ≠ 0)
def requestBad (w : Word) : Bool :=
  decide (bitsOf w 63 40 ≠ 0 ∨ bitsOf w 31 16 ≠ 0 ∨ bitsOf w 7 3 ≠ 0)

/-! ### Pools (R356) -/

/-- The tiles of a polder on each core: half its slot numbers; the tiles left over go to the polders with odd numbers. -/
def State.polderTiles (s : State) (p : Nat) : Nat :=
  let k (q : Nat) : Nat := (s.polderSlots q).length
  let odd := (List.range 16).filter (fun q => k q % 2 = 1)
  let left := 8 - ((List.range 16).map (fun q => k q / 2)).sum
  k p / 2 + (if (odd.take left).contains p then 1 else 0)

/-- The first page number of a polder's pool on a core: above every local image placed in its banks, those that the boot
tree has still to bring included (R356). -/
def State.firstPage (s : State) (c : CoreIx) (p : Nat) : Nat :=
  let lo := s.polderLo p
  let coming := s.regions.flatMap (fun g => (g.forward.filter (fun f => g.cores[f.1]? = some c)).map (fun f => f.2.1))
  let top := ((s.core c).images ++ coming).foldl (fun m i => if lo < i.localHi ∧ i.localLo < s.polderHi p then max m i.localHi else m) lo
  (top + 255) / 256

/-- The pages of a polder's pool on a core. -/
def State.pagesOf (s : State) (c : CoreIx) (p : Nat) : List Nat :=
  (List.range (s.polderHi p / 256 - s.firstPage c p)).map (fun i => s.firstPage c p + i)

/-- The totals of a polder's pool on a core. -/
def State.poolTotal (s : State) (c : CoreIx) (p : Nat) : Amount :=
  { blocks := 2 * (s.polderSlots p).length, pages := (s.pagesOf c p).length, tiles := s.polderTiles p }

/-- The threads of a polder on a core. -/
def State.polderThreads (s : State) (c : CoreIx) (p : Nat) : List (SlotRef × Thread) :=
  (List.range 16).filterMap (fun n =>
    let r : SlotRef := { core := c, slot := n }
    match s.thread? r with
    | some t => if t.polder = p then some (r, t) else none
    | none => none)

/-- What a pool has free: blocks, the free page numbers, tiles. -/
structure PoolFree where
  blocks : Nat
  pages  : List Nat
  tiles  : Nat
  deriving DecidableEq, Repr

/-- The pages of a thread's run. -/
def runPages (t : Thread) : List Nat := (List.range t.pages).map (fun i => t.pageBase / 256 + i)

def State.poolFree (s : State) (c : CoreIx) (p : Nat) : PoolFree :=
  let ts := s.polderThreads c p
  let total := s.poolTotal c p
  { blocks := total.blocks - (ts.map (fun x => (heldAmount x.2).blocks)).sum,
    pages := (s.pagesOf c p).filter (fun g => !ts.any (fun x => (runPages x.2).contains g)),
    tiles := total.tiles - (ts.map (fun x => (heldAmount x.2).tiles)).sum }

/-- The lowest run of `n` free pages. -/
def freeRun (pages : List Nat) (n : Nat) : Option Nat :=
  pages.find? (fun g => (List.range n).all (fun i => pages.contains (g + i)))

/-- Whether an amount is there (R359). -/
def PoolFree.has (f : PoolFree) (a : Amount) : Bool :=
  decide (a.blocks ≤ f.blocks ∧ a.tiles ≤ f.tiles) && (decide (a.pages = 0) || (freeRun f.pages a.pages).isSome)

/-! ### The check (R359) -/

/-- A thread as the check sees it: what it still needs, what it gives back, the pages of its run. -/
structure Party where
  need  : Amount
  held  : Amount
  pages : List Nat
  deriving DecidableEq, Repr

/-- A party that holds an amount under a claim; one with a page run needs no pages. -/
def partyOf (claim : Word) (h : Amount) (pages : List Nat) : Party :=
  let c := claimAmount claim
  { need := { blocks := c.blocks - h.blocks, pages := if h.pages = 0 then c.pages else 0, tiles := c.tiles - h.tiles },
    held := h, pages := pages }

/-- The check over parties, `n` rounds of it. -/
def safeCheck (f : PoolFree) (ps : List Party) : Nat → Bool
  | 0 => ps.isEmpty
  | n + 1 =>
    match ps.find? (fun p => f.has p.need) with
    | none => ps.isEmpty
    | some p =>
      safeCheck { blocks := f.blocks + p.held.blocks, pages := sortBy (fun a b => decide (a ≤ b)) (f.pages ++ p.pages),
                  tiles := f.tiles + p.held.tiles } (ps.erase p) n

/-- The parties of a polder on a core, one of them replaced. -/
def State.parties (s : State) (c : CoreIx) (p : Nat) (except : Option SlotRef) : List Party :=
  ((s.polderThreads c p).filter (fun x => some x.1 ≠ except)).map (fun x => partyOf x.2.claim (heldAmount x.2) (runPages x.2))

/-- The verdict on a request: granted with the first page of its run, not available, or not safe. -/
inductive Verdict where
  | grant (page : Nat)
  | unavailable
  | notSafe
  deriving DecidableEq, Repr

/-- Judge an amount that a party of claim `claim` and holdings `h` asks for (R359); the pool is that before the grant. -/
def State.judge (s : State) (c : CoreIx) (p : Nat) (who : Option SlotRef) (claim : Word) (h : Amount) (run : List Nat) (a : Amount) :
    Verdict :=
  let f := s.poolFree c p
  if !f.has a then .unavailable
  else
    let page := (freeRun f.pages a.pages).getD 0
    let got := if a.pages = 0 then [] else (List.range a.pages).map (fun i => page + i)
    let f' : PoolFree := { blocks := f.blocks - a.blocks, pages := f.pages.filter (fun g => !got.contains g), tiles := f.tiles - a.tiles }
    let h' : Amount := { blocks := h.blocks + a.blocks, pages := h.pages + a.pages, tiles := h.tiles + a.tiles }
    if safeCheck f' (partyOf claim h' (run ++ got) :: s.parties c p who) 17 then .grant page else .notSafe

/-- Judge a request of a thread in its slot. -/
def State.judgeThread (s : State) (r : SlotRef) (t : Thread) (w : Word) : Verdict :=
  s.judge r.core t.polder (some r) t.claim (heldAmount t) (runPages t) (requestAmount w)

/-! ### Grants and releases (R182, R359, R360) -/

/-- The thread with the registers of some blocks zero and empty. -/
def Thread.clearBlocks (t : Thread) (mask : Nat) : Thread :=
  { t with g := (List.range 24).foldl (fun (v : Vector GReg 40) i =>
      if mask / 2 ^ (i / 8) % 2 = 1 then v.set ((i + 16) % 40) GReg.zeroEmpty (Nat.mod_lt _ (by decide)) else v) t.g }

/-- Grant a request to the thread of a slot: blocks zero and empty, pages zero at the run, tiles zero. -/
def State.grantTo (s : State) (r : SlotRef) (t : Thread) (w : Word) (page : Nat) : State :=
  let a := requestAmount w
  let t1 : Thread := t.clearBlocks (bitsOf w 2 0)
  let t2 : Thread := { t1 with
    blocks := t1.blocks ||| BitVec.ofNat 3 (bitsOf w 2 0), granted := true, acq := none,
    pages := if a.pages = 0 then t1.pages else a.pages, pageBase := if a.pages = 0 then t1.pageBase else page * 256,
    tiles := t1.tiles ++ List.replicate a.tiles [] }
  (if a.pages = 0 then s else s.scrubPages r.core (page * 256) a.pages).setThread r t2

/-- Whether a request cannot be served under the thread's claim (R358). -/
def requestBanned (trav : Bool) (t : Thread) (w : Word) : Bool :=
  let a := requestAmount w
  let c := claimAmount t.claim
  let h := heldAmount t
  decide (c.blocks < h.blocks + a.blocks ∨ c.pages < a.pages ∨ c.tiles < h.tiles + a.tiles)
    || (BitVec.ofNat 3 (bitsOf w 2 0) &&& t.blocks != 0)
    || (decide (a.pages ≠ 0) && decide (h.pages ≠ 0))
    || (trav && bitOf w 2)

def State.isTrav (s : State) (region : Nat) : Bool := match s.region? region with | some g => g.travelling | none => false

/-- Grant the earliest request of a polder's parked threads that can be granted, and retire its ACQ (R359). -/
def State.serveOne (s : State) (c : CoreIx) (p : Nat) : Option State :=
  let waiting := (s.polderThreads c p).filterMap (fun x => match x.2.acq with
    | some q => if x.2.halted.isNone then some (x.1, x.2, q) else none
    | none => none)
  let sorted := sortBy (fun (a b : SlotRef × Thread × AcqReq) => !(b.2.2.stamp.before a.2.2.stamp)) waiting
  sorted.findSome? (fun x =>
    match s.judgeThread x.1 x.2.1 x.2.2.request with
    | .grant page =>
      let s1 : State := s.grantTo x.1 x.2.1 x.2.2.request page
      match s1.thread? x.1 with
      | none => none
      | some t =>
        let q := x.2.2
        let s2 : State := Machine.retire { s1 with cur := x.1 } t [q.reg] [(q.mark, q.reg)] none 4
        some { s2 with cur := s.cur }
    | _ => none)

/-- Serve the parked requests of a polder in stamp order, each that can be granted. -/
def State.serveBanker (s : State) (c : CoreIx) (p : Nat) : Nat → State
  | 0 => s
  | n + 1 => match s.serveOne c p with
    | some s1 => s1.serveBanker c p n
    | none => s

/-- The pool of a polder has changed: parked requests, then arrivals that wait for blocks, are looked at again. -/
def State.poolChanged (s : State) (c : CoreIx) (p : Nat) : State :=
  let s1 : State := s.serveBanker c p 16
  if (s1.core c).arrivals.isEmpty then s1 else s1.laterOnce .arrivalPlacement { core := c }

/-! ### CLAIM, ACQ, ACQT, REL (R358) -/

/-- CLAIM (R358). -/
def execClaim (a : Reg) (ma : Bool) (s : State) : Host.Outcome State Fault Refusal :=
  issueRun s 4 fun t => do
    let x ← liftE (readReg s t [] a)
    needR (!claimBad x) .prot 0
    let c := claimAmount x
    let total := s.poolTotal s.cur.core t.polder
    needR (!t.granted && decide (c.blocks ≤ total.blocks ∧ c.pages ≤ total.pages ∧ c.tiles ≤ total.tiles)) .banker 0
    retireR { t with claim := x } [a] [(ma, a)] none

/-- ACQ: granted at once, or the slot parks with the stamp of its first attempt (R358, R359). -/
def execAcq (a : Reg) (ma : Bool) (s : State) : Host.Outcome State Fault Refusal :=
  issueRun s 4 fun t => do
    let r := s.cur
    let x ← liftE (readReg s t [] a)
    needR (!requestBad x) .prot 0
    needR (!requestBanned (s.isTrav t.region) t x) .banker 0
    let y := s.mint (slotSource r)
    let q : AcqReq := { request := x, stamp := match t.acq with | some q => q.stamp | none => y.1, reg := a, mark := ma }
    modifyS (fun _ => ((if t.acq.isSome then s else y.2).setThread r { t with acq := some q, parked := some .held }).serveBanker r.core t.polder 16)

/-- ACQT: granted or not, at once (R358, R359). -/
def execAcqt (d a : Reg) (ma : Bool) (s : State) : Host.Outcome State Fault Refusal :=
  issueRun s 4 fun t => do
    let r := s.cur
    let x ← liftE (readReg s t [] a)
    liftE (checkDest s t d)
    needR (!requestBad x) .prot 0
    needR (!requestBanned (s.isTrav t.region) t x) .banker 0
    modifyS (fun s => s.serveBanker r.core t.polder 16)
    let s1 ← get
    match s1.judgeThread r t x with
    | .grant page =>
      modifyS (fun s => s.grantTo r t x page)
      retireR (((← get).thread? r).getD t) [a] [(ma, a)] (some (d, 0))
    | .unavailable => retireR t [a] [(ma, a)] (some (d, 1))
    | .notSafe => retireR t [a] [(ma, a)] (some (d, 2))

/-- Whether a release names what the thread does not hold (R358). -/
def releaseBanned (t : Thread) (w : Word) : Bool :=
  let a := requestAmount w
  (BitVec.ofNat 3 (bitsOf w 2 0) &&& ~~~t.blocks != 0) || decide (t.tiles.length < a.tiles) || (decide (a.pages ≠ 0) && decide (a.pages ≠ t.pages))

/-- The registers of some blocks whose results are still under way: those results are discarded when they come (R184). -/
def Thread.underWay (t : Thread) (mask : Nat) : List Nat :=
  ((List.range 24).filter (fun i => decide (mask / 2 ^ (i / 8) % 2 = 1) && (if h : i + 16 < 40 then (t.g[i + 16]).pending else false))).map (fun i => i + 16)

/-- REL: it waits for the compute queue; what it releases is scrubbed (R358, R360). -/
def execRel (a : Reg) (ma : Bool) (s : State) : Host.Outcome State Fault Refusal :=
  issueRun s 4 fun t => do
    let r := s.cur
    let x ← liftE (readReg s t [] a)
    needR (!requestBad x) .prot 0
    needR (!releaseBanned t x) .banker 0
    stopIf (!t.cq.isEmpty) (.park .computeQueue)
    let q := requestAmount x
    if q.pages ≠ 0 then modifyS (fun s => s.scrubPages r.core t.pageBase t.pages)
    let t1 : Thread := (t.mark ma a).clearBlocks (bitsOf x 2 0)
    let t2 : Thread := { t1 with
      stale := t1.stale ++ t.underWay (bitsOf x 2 0), blocks := t1.blocks &&& ~~~(BitVec.ofNat 3 (bitsOf x 2 0)), tiles := t1.tiles.take (t1.tiles.length - q.tiles),
      pages := if q.pages = 0 then t1.pages else 0, pageBase := if q.pages = 0 then t1.pageBase else 0 }
    retireR t2 [a] [] none
    modifyS (fun s => s.poolChanged r.core t.polder)

end Sys2Proof.Machine
end

