-- ==== Sys2Proof/Machine/Begin.lean ====
section
/-!
DEFINITION. A thread begins in a slot (R136, R178, R179, R335), and a program placed where the next step fetches it.
-/

namespace Sys2Proof.Machine

/-- The meter that a thread of a role reads (R409): that of its role's image, wherever the thread begins. -/
def State.meterOf (s : State) (c : CoreIx) (region role : Nat) : Word :=
  match (s.region? region).bind (fun g => g.roles.find? (fun k => k.role = role)) with
  | some k => k.meter
  | none => match (s.core c).imageOf region role with | some m => m.meter | none => 0

/-- Where a thread begins: the program counter holds a multiple of 4 (R191). What becomes of another entry offset of a task, of a handler or
of a role is not said: its low bits are dropped (log entry 54). -/
def alignedPc (pc : Word) : Word := pc &&& ~~~3

/-- The state of a thread that begins (R179): g0-g15 zero and full, the other blocks not held, everything else zero or
empty; dikes around its polder's banks (R136), the claim and watchdog it is given (R335, R425), the meter of the image it
runs (R409). -/
def newThread (s : State) (r : SlotRef) (id world polder region role : Nat) (pc claim : Word) (wdog : Nat) : Thread :=
  { id := id, world := world, polder := polder, region := region, role := role, pc := alignedPc pc, skip := 0,
    g := (List.range 24).foldl (fun (v : Vector GReg 40) i => v.set ((i + 16) % 40) GReg.zeroEmpty (Nat.mod_lt _ (by decide)))
      (Vector.replicate 40 GReg.zeroFull),
    x := Vector.replicate 4 0, lk := 0, shapes := Vector.replicate 16 Shape.zero, handles := Vector.replicate 8 Handle.zero,
    unfolds := Vector.replicate 4 none, sluices := Sluices.idle, cq := [],
    dikelo := BitVec.ofNat 64 (s.polderLo polder), dikehi := BitVec.ofNat 64 (s.polderHi polder),
    fvec := 0, fcause := 0, faddr := 0, fpriv := 0,
    meter := s.meterOf r.core region role,
    wdog := wdog, farHandles := 0, tree := 0, fflags := 0, claim := claim, blocks := 0, pageBase := 0, pages := 0, tiles := [],
    granted := false, acq := none, wakeBit := false, yieldTo := 0, nest := none, parked := none, halted := none,
    emwBy := none, stale := [], treeWait := none, weirDone := false, unissued := true }

/-- Place a thread in an empty slot: its id joins the slot's source number with the generation count, which advances
(R178). The watchdog is the region's (R425). The argument words fill g0 upward. -/
def State.beginThread (s : State) (r : SlotRef) (world polder region role : Nat) (pc claim : Word) (args : List Word) : State :=
  let k := s.core r.core
  let gen := (k.slot r.slot).gen + 1
  let wdog := match s.region? region with | some g => g.wdog | none => 0
  let t := newThread s r (threadId r gen) world polder region role pc claim wdog
  let t1 : Thread := { t with g := (args.zip (List.range 16)).foldl (fun (v : Vector GReg 40) (p : Word × Nat) =>
      v.set (p.2 % 40) { val := p.1, full := true, pending := false } (Nat.mod_lt _ (by decide))) t.g }
  s.setCore r.core (k.setSlot r.slot { gen := gen, thread := some t1 })

/-- The id that the next thread of a slot will bear (R331). -/
def State.nextId (s : State) (r : SlotRef) : Nat := threadId r (((s.core r.core).slot r.slot).gen + 1)

/-- What a launch does, for the words of one instruction (log entry 8): native words are the image of a thread of world 0 in
the slot of core 0 that owns the coming turn; words of the Esnen set alone are the program of a running translation. -/
def placeProgram (s : State) (words : List Word32) : State :=
  let r : SlotRef := { core := 0, slot := s.tc % 16 }
  let native := match decode words with | .ok _ => true | .error _ => false
  let esnen := match words with | w :: _ => (decodeEsnen w).isSome | [] => false
  if !native && esnen then
    { s with
      urgent := [], hold := 1, cursor := 0,
      translator := some
        { e := Vector.replicate 16 0, pc := 0, meter := 1, code := words, priv := [], scratch := [], out := [], marks := [],
          outcap := 4096, markcap := 4096, role := 0, lastPc := 0, ended := none, entry := 0, world := 0,
          container := 0, digest := [], dirNo := 256, area := 0 } }
  else
    let m : Image := { region := 0, role := 0, start := 0, words := words ++ [0, 0], entry := 0, meter := 0, marks := [],
                       localLo := 0, localHi := 0, claim := 0 }
    let s1 : State := { s with urgent := [], hold := 1, cursor := 1 }
    let s2 : State := s1.modCore 0 (fun k => { k with images := [m] })
    s2.beginThread r 0 (s.polderOf r.slot) 0 0 0 0 []

end Sys2Proof.Machine
end

