-- ==== Sys2Proof/Machine/Travel.lean ====
section
/-!
DEFINITION. Travelling threads (R365-R385): where a control transfer leads, what ships, where the record lands, spill rings,
and the placement of travelled and spawned threads.
-/

namespace Sys2Proof.Machine

/-! ### Hardware's own reads of a world's memory -/

/-- Bytes at a global address of a world as hardware reads them by its tables; zero where they do not translate. `f` bounds
the lines. -/
def State.rawReadVa (s : State) (world va n : Nat) : Nat → List Byte
  | 0 => []
  | f + 1 =>
    if n = 0 then [] else
    let k := min n (64 - va % 64)
    (match s.worldPa world va with
      | some pa => s.rawRead world pa k
      | none => List.replicate k 0) ++ s.rawReadVa world (va + k) (n - k) f

/-- What an access by the spillway of a core to a ring of a world waits for (R57, R91, R94). -/
def State.ringMeet (s : State) (w : Who) (c : CoreIx) (va n : Nat) (wr : Bool) : Option (State × Park) :=
  s.engineMeet w c (BitVec.ofNat 64 va) n wr

/-- READ bytes of a ring through their home slices. -/
def State.ringFetch (s : State) (w : Who) (c : CoreIx) (va n : Nat) : State × Except Cause (List Byte) :=
  match s.engineSpan c w.slot w.world (BitVec.ofNat 64 va) n false false with
  | (s1, .error k) => (s1, .error k)
  | (s1, .ok l) => s1.engineRead w l

/-- WRITE bytes of a ring through their home slices (R104). -/
def State.ringStore (s : State) (w : Who) (c : CoreIx) (va : Nat) (data : List Byte) : State :=
  match s.engineSpan c w.slot w.world (BitVec.ofNat 64 va) data.length false false with
  | (s1, .error _) => s1
  | (s1, .ok l) => (s1.engineWrite w c w.slot 0 l data).1

/-! ### Slots (R177, R348) -/

/-- Whether a slot is free: empty, and not kept for an initial thread. -/
def State.slotFree (s : State) (r : SlotRef) : Bool :=
  (s.thread? r).isNone && !s.regions.any (fun g => g.starting.contains r)

/-- The lowest free slot of a polder on a core. -/
def State.freeSlot (s : State) (c : CoreIx) (p : Nat) : Option SlotRef :=
  ((s.polderSlots p).map (fun n => ({ core := c, slot := n } : SlotRef))).find? (fun r => s.slotFree r)

/-! ### Spill rings (R378, R379) -/

/-- The address of a core's ring in a region (R378): the last that it was given, for a core dropped and added again (R382). -/
def Region.ringAt (g : Region) (c : CoreIx) : Option Nat :=
  let i := g.ringCores.reverse.idxOf c
  if i < g.ringCores.length then some (g.dataVa + g.ringOff + (g.ringCores.length - 1 - i) * (64 + 320 * g.ringCap)) else none

/-- Records taken from and written to the ring of a core. -/
def State.ringCounts (s : State) (g : Region) (c : CoreIx) : Nat × Nat :=
  match g.ringAt c with
  | some a => let h := s.rawReadVa g.world a 16 2; (fieldAt h 0 8, fieldAt h 8 8)
  | none => (0, 0)

/-- Records that stand in the ring of a core: those of a terminated region are discarded (R383). -/
def State.ringHas (s : State) (g : Region) (c : CoreIx) : Nat :=
  if g.terminated then 0 else (s.ringCounts g c).2 - (s.ringCounts g c).1

/-- The maker of a core's accesses to a ring: its spillway, for the region whose record wakes it (R104). -/
def ringWho (c : CoreIx) (g : Region) (slot va : Nat) : Who := engineWho (spillwaySource c) g.world g.id slot (BitVec.ofNat 64 va)

/-- Records of a polder in the share of a core, those on their way included (R377). -/
def State.shareUsed (s : State) (c : CoreIx) (p : Nat) : Nat :=
  (s.core c).arrivals.countP (fun f => f.polder = p) + s.flights.countP (fun x => decide (x.1 = c ∧ x.2.polder = p))

/-- The entries of a polder's share (R377). -/
def State.shareSize (s : State) (p : Nat) : Nat := 2 * (s.polderSlots p).length

/-- Whether a core can take one more record of a region's polder, in its share or its ring (R342, R379). -/
def State.canSend (s : State) (g : Region) (c : CoreIx) (p : Nat) : Bool :=
  let used := s.shareUsed c p
  if g.travelling && (g.ringAt c).isSome then
    decide (s.ringHas g c < g.ringCap) && decide (used + s.ringHas g c < s.shareSize p + g.ringCap)
  else decide (used < s.shareSize p)

/-- Send a record to a core: its thread is in flight (R336, R383). -/
def State.sendRecord (s : State) (c : CoreIx) (f : FlumeRec) : State :=
  let s1 : State := { s with flights := s.flights ++ [(c, f)] }
  (s1.modRegion f.region (fun g => { g with flight := g.flight + 1 })).later .arrival { core := c }

/-! ### Records (R373) -/

/-- The registers a mask names, in ascending order. -/
def maskRegs (m : BitVec 32) : List Nat := (List.range 32).filter (fun k => m.getLsbD k)

def Thread.gAt (t : Thread) (k : Nat) : GReg := t.g[k % 40]'(Nat.mod_lt _ (by decide))

/-- The registers that a transfer other than TBR carries (R370). -/
def Thread.liveMask (t : Thread) : BitVec 32 :=
  BitVec.ofNat 32 (0xFFFF + (if t.blocks.getLsbD 0 then 0xFF0000 else 0) + (if t.blocks.getLsbD 1 then 0xFF000000 else 0))

/-- The record of a thread that ships. -/
def flumeOf (r : SlotRef) (t : Thread) (target : Word) (live : BitVec 32) (st : Stamp) : FlumeRec :=
  let regs := maskRegs live
  { spawn := false, tid := t.id, world := t.world, polder := t.polder, region := t.region, role := t.role, skip := t.skip,
    blocks := t.blocks, pc := target, lk := t.lk, live := live,
    full := BitVec.ofNat 32 ((regs.filter (fun k => (t.gAt k).full)).map (fun k => 2 ^ k)).sum,
    vals := regs.map (fun k => if (t.gAt k).full then (t.gAt k).val else 0), claim := t.claim, wdog := t.wdog,
    fflags := t.fflags, stamp := st, origin := r.core, reply := none }

/-- The 320 bytes of a record in a ring (R373, R378). For a spawn record, whose form in a ring no rule gives, word 39 holds
who waits for its reply, and its role (log entry 16). -/
def FlumeRec.bytes (f : FlumeRec) : List Byte :=
  let w0 := f.tid * 2 ^ 24 + f.world * 2 ^ 16 + f.skip * 2 ^ 14 + f.blocks.toNat % 4 * 2 ^ 12 + f.vals.length
  let last := match f.reply with
    | some (_, tid, d) => tid * 2 ^ 24 + f.role * 2 ^ 8 + encReg d * 4 + 3
    | none => f.role * 2 ^ 8 + (if f.spawn then 1 else 0)
  let words := [w0, f.pc.toNat, f.lk.toNat, f.full.toNat * 2 ^ 32 + f.live.toNat, f.claim.toNat, f.wdog,
    f.region * 2 ^ 40 + f.fflags.toNat] ++ f.vals.map (fun v => v.toNat)
  let body := words.flatMap (fun w => natLe w 8)
  body ++ List.replicate (312 - body.length) 0 ++ natLe last 8

/-- A record read back from a ring. -/
def FlumeRec.ofBytes (b : List Byte) (polder : Nat) (st : Stamp) : FlumeRec :=
  let w (i : Nat) : Nat := fieldAt b (8 * i) 8
  let last := w 39
  let tid := last / 2 ^ 24
  { spawn := decide (last % 2 = 1), tid := w 0 / 2 ^ 24, world := w 0 / 2 ^ 16 % 256, polder := polder, region := w 6 / 2 ^ 40,
    role := last / 2 ^ 8 % 2 ^ 16, skip := w 0 / 2 ^ 14 % 4, blocks := BitVec.ofNat 3 (w 0 / 2 ^ 12 % 4),
    pc := BitVec.ofNat 64 (w 1), lk := BitVec.ofNat 64 (w 2), live := BitVec.ofNat 32 (w 3), full := BitVec.ofNat 32 (w 3 / 2 ^ 32),
    vals := (List.range (w 0 % 64)).map (fun i => BitVec.ofNat 64 (w (7 + i))), claim := BitVec.ofNat 64 (w 4), wdog := w 5,
    fflags := BitVec.ofNat 5 (w 6), stamp := st, origin := (idSlot (w 0 / 2 ^ 24)).core,
    reply := if last / 2 % 2 = 1 then (decReg (last / 4 % 64)).map (fun d => (idSlot tid, tid, d)) else none }

/-! ### Leaving (R370-R372, R376) -/

/-- The segment of a role that holds an offset. -/
def Region.segmentOf (g : Region) (role : Nat) (pc : Nat) : Option Segment :=
  g.segs.find? (fun k => decide (k.role = role ∧ k.start ≤ pc ∧ pc < k.start + k.len))

/-- The core of a segment with the lowest advertised occupancy; ties go to the lowest core address (R376). -/
def State.pickCore (s : State) (k : Segment) (polder : Nat) : CoreIx :=
  let occ (c : CoreIx) : Nat := tget 0 s.occupancy (c * 16 + polder)
  k.choice.foldl (fun b c => if occ c < occ b ∨ (occ c = occ b ∧ c < b) then c else b) (k.choice.headD k.home)

/-- Whether a shipping transfer must wait (R372). -/
def shipWaits (s : State) (r : SlotRef) (t : Thread) : Bool :=
  !releaseMet s r t || (List.range 40).any (fun n => (t.gAt n).pending)
    || (s.core r.core).tokens.any (fun p => match p.2.job with
      | some j => decide (j.tid = t.id) && p.2.taken && j.ended.isNone
      | none => false)
    || t.sluices.q0.active.isSome || t.sluices.q4.active.isSome

/-- Whether a shipping transfer raises PROT (R372). -/
def shipBarred (s : State) (t : Thread) : Bool :=
  let q := t.sluices
  let busy (o : Outlet) : Bool := o.active.isSome || o.shadow.isSome
  busy q.q0 || busy q.q2 || busy q.q4 || busy q.q7 || !q.q1.isEmpty || !q.q3.isEmpty || !q.q5.isEmpty || !q.q6.isEmpty
    || s.subs.any (fun u => u.tid = t.id) || decide (t.pages ≠ 0) || !t.tiles.isEmpty
    || s.lrws.any (fun p => p.2.any (fun x => decide (x.tid = t.id)))

/-- The slot of a thread that has left is empty; its blocks return to the pool (R372). -/
def State.vacate (s : State) (r : SlotRef) (polder : Nat) : State :=
  let s1 : State := s.threads.foldl (fun (s : State) (p : SlotRef × Thread) =>
    if p.2.emwBy = some r then s.modThread p.1 (fun u => { u with emwBy := none }) else s) s
  ((s1.clearSlot r).poolChanged r.core polder).slotFreed r.core

/-- SHIP the thread of a slot to a segment: it waits, is barred, spills, or leaves (R370-R380). -/
def ship (r : SlotRef) (t t1 : Thread) (k : Segment) (target : Word) (live : BitVec 32) (reads : List Reg) : Run Unit := do
  let s ← get
  stopIf (shipWaits s r t) (.park .ship)
  needR (!shipBarred s t) .prot 0
  let c := s.pickCore k t.polder
  match s.region? t.region with
  | none => throw (.trap .prot target)
  | some g =>
    needR (s.canSend g c t.polder) .spill target
    releaseR r t (decide (dieOf c ≠ dieOf r.core))
    modifyS (fun s =>
      let y := s.mint (slotSource r)
      ((y.2.takePorts r.core reads).vacate r t.polder).sendRecord c (flumeOf r t1 target live y.1))

/-- A control transfer of the slot's thread to an image offset (R191, R225, R226, R370): within the code range it branches; a
target in another segment of the role ships the thread when `live` is given; anything else raises PROT. -/
def goTo (t : Thread) (target : Word) (link : Option Word) (live : Option (BitVec 32)) (reads : List Reg) (marked : List (Bool × Reg)) :
    Run Unit := do
  let s ← get
  let r := s.cur
  needR (decide (target.toNat % 4 = 0)) .align target
  let t0 : Thread := { t with lk := link.getD t.lk }
  let t1 : Thread := marked.foldl (fun t p => t.mark p.1 p.2) t0
  let here := match (s.core r.core).imageOf t.region t.role with
    | some m => m.has target.toNat
    | none => false
  if here then
    modifyS (fun s => (s.setThread r { t1.issued with pc := target, parked := none, unissued := false }).takePorts r.core reads)
  else
    match s.region? t.region, live with
    | some g, some m =>
      match (if g.travelling then g.segmentOf t.role target.toNat else none) with
      | some k => ship r t t1 k target m reads
      | none => throw (.trap .prot target)
    | _, _ => throw (.trap .prot target)

/-- A thread whose first instruction lies in a segment held elsewhere ships before it (R369). -/
def shipFirst (s : State) (r : SlotRef) (t : Thread) : State :=
  let s0 : State := { s with cur := r, pipe := .address }
  match (goTo t t.pc none (some t.liveMask) [] []) s0 with
  | (.ok (), s1) => s1
  | (.error (.park p), s1) => s1.parkOn r t p
  | (.error (.trap c a), s1) => takeFault s1 c a 0 4

/-! ### Landing (R374-R379, R381, R384) -/

/-- The registers of an arriving thread (R374). -/
def arriveRegs (t : Thread) (f : FlumeRec) : Thread :=
  let carried := (maskRegs f.live).zip f.vals
  let reg (k : Nat) : GReg :=
    match carried.find? (fun p => p.1 = k) with
    | some p => { val := p.2, full := f.full.getLsbD k, pending := false }
    | none => if k < 16 ∨ (k < 32 ∧ f.blocks.getLsbD ((k - 16) / 8)) then GReg.zeroFull else GReg.zeroEmpty
  { t with g := (List.range 40).foldl (fun (v : Vector GReg 40) k => v.set (k % 40) (reg k) (Nat.mod_lt _ (by decide))) t.g }

/-- Whether the acquire of a placement on a core has module scope (R342, R375). -/
def FlumeRec.wide (f : FlumeRec) (c : CoreIx) : Bool := f.spawn || decide (dieOf f.origin ≠ dieOf c)

/-- What the acquire of a placement waits for (R57, R91, R98). -/
def State.landMeet (s : State) (c : CoreIx) (f : FlumeRec) : Option (State × Park) :=
  if f.wide c then
    s.syncMeet { src := spillwaySource c, world := f.world, region := f.region, slot := 0, kind := 1, va := none } c (dieOf c)
  else none

/-- Place a record in a free slot of its polder, when the core's pool can grant its blocks (R374, R375, R377). -/
def State.placeRecord (s : State) (c : CoreIx) (f : FlumeRec) : Option State :=
  match s.freeSlot c f.polder with
  | none => none
  | some r =>
    let zero : Amount := { blocks := 0, pages := 0, tiles := 0 }
    match s.judge c f.polder none f.claim zero [] { zero with blocks := popCount f.blocks.toNat 3 } with
    | .grant _ =>
      let s1 : State := s.beginThread r f.world f.polder f.region f.role f.pc f.claim []
      match s1.thread? r with
      | none => none
      | some t =>
        let t1 : Thread := { arriveRegs t f with
          lk := f.lk, skip := f.skip, blocks := f.blocks, granted := decide (f.blocks ≠ 0), fflags := f.fflags,
          wdog := if f.spawn then t.wdog else f.wdog }
        let s2 : State := acquireS (s1.setThread r t1) r t1 (f.wide c)
        let s3 : State := s2.modCore c (fun k => { k with
          arrived := if k.pin.isSome && k.arrived != BitVec.allOnes 32 then k.arrived + 1 else k.arrived })
        let s4 : State := s3.modRegion f.region (fun g => { g with flight := g.flight - 1 })
        some (match f.reply with
          | some (q, tid, d) => s4.deliverResult q tid d (BitVec.ofNat 64 t.id) 0 (spillwaySource c)
          | none => s4)
    | _ => none

/-- Write a record to the tail of its core's ring (R104, R378, R379). -/
def State.ringWrite (s : State) (g : Region) (c : CoreIx) (f : FlumeRec) : State :=
  match g.ringAt c with
  | none => s
  | some a =>
    let n := (s.ringCounts g c).2
    let w := ringWho c g ((idSlot f.tid).slot) a
    (s.ringStore w c (a + 64 + 320 * (n % g.ringCap)) f.bytes).ringStore w c (a + 8) (natLe (n + 1) 8)

/-- Whether a record that arrives at a core goes to the core's ring (R379). -/
def State.toRing (s : State) (c : CoreIx) (f : FlumeRec) : Option Region :=
  match s.region? f.region with
  | some g =>
    let share := (s.core c).arrivals.countP (fun y => y.polder = f.polder)
    if g.travelling && (g.ringAt c).isSome && (decide (s.shareSize f.polder ≤ share) || decide (0 < s.ringHas g c)) then some g else none
  | none => none

/-- What the write of a record to a ring waits for. -/
def State.ringTailMeet (s : State) (g : Region) (c : CoreIx) (f : FlumeRec) : Option (State × Park) :=
  match g.ringAt c with
  | none => none
  | some a =>
    let w := ringWho c g ((idSlot f.tid).slot) a
    (s.ringMeet w c (a + 64 + 320 * ((s.ringCounts g c).2 % g.ringCap)) 320 true).or (s.ringMeet w c (a + 8) 8 true)

/-- ARRIVAL: the earliest record on its way to a core enters its polder's share, or the tail of the core's ring (R377, R379). -/
def execArrival (s : State) : Host.Outcome State Fault Refusal :=
  let c := s.arg.core
  match earliestBy (fun x => x.2.stamp) (s.flights.filter (fun x => x.1 = c)) with
  | none => .next s
  | some x =>
    let f := x.2
    match s.toRing c f with
    | some g =>
      match s.ringTailMeet g c f with
      | some y => .next y.1
      | none =>
        let s1 : State := { s with flights := s.flights.erase x, gated := s.gated.filter (fun k => k ≠ clusterOf c) }
        .next ((s1.ringWrite g c f).laterOnce .arrivalPlacement { core := c })
    | none =>
      let s1 : State := { s with flights := s.flights.erase x, gated := s.gated.filter (fun k => k ≠ clusterOf c) }
      .next ((s1.modCore c (fun k => { k with arrivals := k.arrivals ++ [f] })).laterOnce .arrivalPlacement { core := c })

/-- A record of a ring is lost: it is not placed, and its thread ends (R384). -/
def State.ringLost (s : State) (g : Region) (c : CoreIx) (at_ : Nat) : State :=
  let y := s.mint (spillwaySource c)
  let s1 : State := y.2.modRegion g.id (fun q => { q with flight := q.flight - 1 })
  let words := faultWords Cause.lost.code 0 0 0 g.world g.id y.1 0 (BitVec.allOnes 64) (BitVec.ofNat 64 at_) 0xFFFFFFFF 0 0
  (s1.deliverMsg g.id 0 y.1 words false).checkRegion g.id

/-- The record that a ring's bytes hold. Where a program has stored into the region's rings it is undefined: what the thread carries is
free, within its region and world (R8, R378). -/
def State.ringRecord (s : State) (g : Region) (b : List Byte) (st : Stamp) : FlumeRec × State :=
  if !g.ringSpoilt then (FlumeRec.ofBytes b g.polder st, s)
  else
    let v := s.freshBytes 320 40
    let f := FlumeRec.ofBytes v.1 g.polder st
    ({ f with spawn := false, world := g.world, region := g.id, pc := f.pc &&& ~~~3, reply := none }, v.2)

/-- Move the oldest record of the ring of a core into the share of its polder, while there is room (R379); one whose ring
record is lost ends its thread (R384). -/
def State.ringRead (s : State) (c : CoreIx) : Option State :=
  match ((s.core c).pin.bind (fun pin => s.region? pin.region)).bind (fun g => (g.ringAt c).map (fun a => (g, a))) with
  | none => none
  | some (g, a) =>
    if s.ringHas g c = 0 ∨ s.shareSize g.polder ≤ (s.core c).arrivals.countP (fun y => y.polder = g.polder) then none
    else
      let n := (s.ringCounts g c).1
      let at_ := a + 64 + 320 * (n % g.ringCap)
      let w := ringWho c g 0 a
      match (s.ringMeet w c at_ 320 false).or (s.ringMeet w c a 8 true) with
      | some y => some y.1
      | none =>
        let x := (s.ringStore w c a (natLe (n + 1) 8)).ringFetch w c at_ 320
        match x.2 with
        | .error _ => some (x.1.ringLost g c at_)
        | .ok b =>
          let y := x.1.mint (spillwaySource c)
          let z := y.2.ringRecord g b y.1
          some (z.2.modCore c (fun k => { k with arrivals := k.arrivals ++ [z.1] }))

/-- The heads of the shares of a core, earliest in the queue first: one for each polder (R377). -/
def shareHeads (l : List FlumeRec) : List FlumeRec :=
  l.foldl (fun (acc : List FlumeRec) f => if acc.any (fun x => x.polder = f.polder) then acc else acc ++ [f]) []

/-- ARRIVAL_PLACEMENT: the first head of a share that can be placed is; the ring refills the share (R377, R379). -/
def execArrivalPlacement (s : State) : Host.Outcome State Fault Refusal :=
  let c := s.arg.core
  let refill (s : State) : State := (s.ringRead c).getD s
  match (shareHeads (s.core c).arrivals).findSome? (fun f => (s.placeRecord c f).map (fun s1 =>
      match s.landMeet c f with
      | some y => (none, y.1)
      | none => (some f, s1))) with
  | some (none, s1) => .next s1
  | none =>
    match s.ringRead c with
    | some s1 => .next (s1.laterOnce .arrivalPlacement { core := c })
    | none => .next s
  | some (some f, s1) =>
    .next ((refill (s1.modCore c (fun k => { k with arrivals := k.arrivals.erase f }))).laterOnce .arrivalPlacement { core := c })

/-- The occupancies that the pinned cores sample now (R376). -/
def State.samples (s : State) : List (Nat × Nat) :=
  s.cores.flatMap (fun p => match p.2.pin with
    | none => []
    | some pin => match s.region? pin.region with
      | none => []
      | some g =>
        let here (q : Nat) : Nat := p.2.arrivals.countP (fun f => f.polder = q) + (if q = g.polder then s.ringHas g p.1 else 0)
        ((List.range 16).filter (fun q => here q ≠ 0)).map (fun q => (p.1 * 16 + q, here q)))

/-- Whether a dropped replica still holds work: queued or ringed records, or a thread in its segment (R382). -/
def State.pinBusy (s : State) (c : CoreIx) (pin : Pin) : Bool :=
  !(s.core c).arrivals.isEmpty || s.flights.any (fun x => x.1 = c)
    || s.threads.any (fun p => decide (p.1.core = c ∧ p.2.region = pin.region ∧ p.2.role = pin.role))
    || (match s.region? pin.region with | some g => decide (0 < s.ringHas g c) | none => false)

/-- OCCUPANCY_SAMPLE: what was sampled is advertised, the choices follow the replicas, and every pinned core samples anew
(R376, R382). A dropped replica with nothing left unpins. -/
def execOccupancySample (s : State) : Host.Outcome State Fault Refusal :=
  let s1 : State := { s with
    occupancy := s.sampled, sampled := s.samples,
    regions := s.regions.map (fun g => { g with segs := g.segs.map (fun k => { k with choice := k.home :: k.reps }) }) }
  .next (s1.cores.foldl (fun (s : State) (p : CoreIx × Core) => match p.2.pin with
    | some pin =>
      if pin.drop && !s.pinBusy p.1 pin then
        s.modCore p.1 (fun k => { k with
          pin := none, images := k.images.filter (fun m => decide ¬(m.region = pin.region ∧ m.role = pin.role)) })
      else s
    | none => s) s1)

end Sys2Proof.Machine
end

