-- ==== Sys2Proof/Machine/Control.lean ====
section
/-!
DEFINITION. Compare-skip and the control transfers (R222-R226, R201, R371), and the furrow unit (R354, R355).
-/

namespace Sys2Proof.Machine

/-! ### Conditions (R223) -/

/-- A condition on two values, with the flags it sets. FULL and EMPTY do not compare values. -/
def condHolds (c : Cond) (x y : Word) : Bool × FFlags :=
  let fx := decodeF32 (x.setWidth 32)
  let fy := decodeF32 (y.setWidth 32)
  let un := fx.isNan || fy.isNan
  let quiet := flagNV (fx.isSnan || fy.isSnan)
  match c with
  | .eq => (decide (x = y), 0)
  | .ne => (decide (x ≠ y), 0)
  | .lt => (x.slt y, 0)
  | .ge => (!x.slt y, 0)
  | .ltn => (x.ult y, 0)
  | .gen => (!x.ult y, 0)
  | .bs => (x.getLsbD (bitsOf y 5 0), 0)
  | .bc => (!x.getLsbD (bitsOf y 5 0), 0)
  | .feq => (decide (fvCmp fx fy = some .eq), quiet)
  | .fne => (decide (fvCmp fx fy ≠ some .eq), quiet)
  | .flt => (decide (fvCmp fx fy = some .lt), flagNV un)
  | .fge => (decide (fvCmp fx fy = some .gt ∨ fvCmp fx fy = some .eq), flagNV un)
  | .fun_ => (un, quiet)
  | .full => (false, 0)
  | .empty => (false, 0)

/-- Whether a condition is on F32 values. -/
def condFloat : Cond → Bool
  | .feq => true
  | .fne => true
  | .flt => true
  | .fge => true
  | .fun_ => true
  | _ => false

/-- Retire a compare: flags, and the count of instructions to annul (R222, R223). -/
def setSkip (t : Thread) (n : Fin 4) (r : Bool × FFlags) : Thread :=
  { t.orFlags r.2 with skip := if r.1 then 0 else n.val }

/-- CSK (R222, R223). -/
def execCsk (n : Fin 4) (c : Cond) (a b : Reg) (s : State) : Host.Outcome State Fault Refusal :=
  issue s fun t =>
    match c, a with
    | .full, .g k => do
      need (t.holds k) .regn 0
      return retire s (setSkip t n ((t.g[k]).full, 0)) [] [] none 4
    | .empty, .g k => do
      need (t.holds k) .regn 0
      return retire s (setSkip t n (!(t.g[k]).full, 0)) [] [] none 4
    | .full, _ => .error (.trap .ill (s.wordHere s.cur t))
    | .empty, _ => .error (.trap .ill (s.wordHere s.cur t))
    | _, _ => do
      let x ← read2 s t a b
      return retire s (setSkip t n (condHolds c x.1 x.2)) [a, b] [] none 4

/-- The second operand of CSKI: the immediate, as an F32 for the F conditions (R223). -/
def immFor (c : Cond) (imm : BitVec 12) : Word :=
  if condFloat c then ((encodeF32 .rn (FV.ofInt imm.toInt)).1).setWidth 64 else sx imm

/-- CSKI (R222, R223). -/
def execCski (n : Fin 4) (c : Cond) (a : Reg) (imm : BitVec 12) (s : State) : Host.Outcome State Fault Refusal :=
  issue s fun t => do
    let x ← readReg s t [] a
    return retire s (setSkip t n (condHolds c x (immFor c imm))) [a] [] none 4

/-! ### Control transfer (R225, R371) -/

/-- A transfer by an offset in words. -/
def relTarget {w : Nat} (t : Thread) (off : BitVec w) : Word := t.pc + sx off * 4

/-- BR (R225). -/
def execBr (off : BitVec 24) (s : State) : Host.Outcome State Fault Refusal :=
  issueRun s 4 fun t => goTo t (relTarget t off) none (some t.liveMask) [] []

/-- BRL (R225). -/
def execBrl (off : BitVec 24) (s : State) : Host.Outcome State Fault Refusal :=
  issueRun s 4 fun t => goTo t (relTarget t off) (some (t.pc + 4)) (some t.liveMask) [] []

/-- JMP (R225). -/
def execJmp (a : Reg) (ma : Bool) (s : State) : Host.Outcome State Fault Refusal :=
  issueRun s 4 fun t => do
    let x ← liftE (readReg s t [] a)
    goTo t x none (some t.liveMask) [a] [(ma, a)]

/-- JMPL: a is read before lk is written (R225). -/
def execJmpl (a : Reg) (ma : Bool) (s : State) : Host.Outcome State Fault Refusal :=
  issueRun s 4 fun t => do
    let x ← liftE (readReg s t [] a)
    goTo t x (some (t.pc + 4)) (some t.liveMask) [a] [(ma, a)]

/-- RET (R225). -/
def execRet (s : State) : Host.Outcome State Fault Refusal :=
  issueRun s 4 fun t => goTo t t.lk none (some t.liveMask) [] []

/-- TBR: a mask that names a register of an unheld block raises REGN; then it acts as BR, or ships what the mask names
(R371). -/
def execTbr (live : BitVec 32) (off : BitVec 22) (s : State) : Host.Outcome State Fault Refusal :=
  issueRun s 8 fun t => do
    needR ((maskRegs live).all (fun k => t.holds k)) .regn 0
    goTo t (relTarget t off) none (some live) [] []

/-- BRF and BRF.L (R225). -/
def execBrf (link : Bool) (off : BitVec 53) (s : State) : Host.Outcome State Fault Refusal :=
  issueRun s 8 fun t => goTo t (relTarget t off) (if link then some (t.pc + 8) else none) (some t.liveMask) [] []

/-! ### Furrow unit (R354, R355) -/

/-- NEST: binds a nest descriptor; the slot is left with no chunk (R354). -/
def execNest (a : Reg) (ma : Bool) (s : State) : Host.Outcome State Fault Refusal :=
  issueRun s 4 fun t => do
    let r := s.cur
    let x ← liftE (readReg s t [] a)
    let v ← loadChecked r t x 32
    let b := v.1
    needR (decide (fieldAt b 16 4 ≠ 0 ∧ fieldAt b 20 4 ≠ 0 ∧ fieldAt b 24 8 = 0)) .win x
    let k : Nest := { counter := BitVec.ofNat 64 (fieldAt b 0 8), e0 := fieldAt b 8 2, e1 := fieldAt b 10 2, e2 := fieldAt b 12 2,
                      e3 := fieldAt b 14 2, parts := fieldAt b 16 4, minc := fieldAt b 20 4, cur := 0, lim := 0 }
    retireR { t with nest := some k } [a] [(ma, a)] none

/-- The index registers that an index of the nest leaves (R355). -/
def nestIndex (k : Nest) (l : Nat) : Vector Word 4 :=
  let w (n : Nat) : Word := BitVec.ofNat 64 n
  ((((Vector.replicate 4 (0 : Word)).set 0 (w (l % k.e0))).set 1 (w (l / k.e0 % k.e1))).set 2 (w (l / (k.e0 * k.e1) % k.e2))).set 3
    (w (l / (k.e0 * k.e1 * k.e2)))

/-- The chunk that a claim takes from a counter value: none when nothing is left (R355). -/
def nestClaim (k : Nest) (c : Word) : Option Nat :=
  let total := k.e0 * k.e1 * k.e2 * k.e3
  let left : Int := total - c.toNat
  if left ≤ 0 then none
  else
    let n := left.toNat
    some (min n (max k.minc ((n + k.parts - 1) / k.parts)))

/-- Take the next index of a chunk and transfer to the body. -/
def nextBody (t : Thread) (k : Nest) (target : Word) : Run Unit :=
  goTo { t with nest := some { k with cur := k.cur + 1 }, x := nestIndex k k.cur } target none none [] []

/-- NEXT: the next index of the chunk, or a claim of a new one at the counter's home, one indivisible visit (R124, R355).
A transfer outside the code range is refused before its claim takes anything (R225). -/
def execNext (off : BitVec 24) (s : State) : Host.Outcome State Fault Refusal :=
  issueRun s 4 fun t => do
    let r := s.cur
    match t.nest with
    | none => throw (.trap .prot 0)
    | some k =>
      let target := relTarget t off
      let here := match (s.core r.core).imageOf t.region t.role with
        | some m => m.has target.toNat
        | none => false
      if k.cur < k.lim then nextBody t k target
      else
        let a := k.counter
        needR (decide (windowOf a ≠ 0xF8)) .win a
        let p ← liftE (checkAccess (← get) r t a 8 true true)
        needR (!isDevice p) .prot a
        match (← get).remapping p with
        | some f => throw (.park (.frame f))
        | none => pure ()
        if isGlobal p then modifyS (fun s => s.usedTlb r t a)
        needR (!(hazardOf (← get) r t p 8 false).1) .hazard a
        stopIf ((← get).buffered r p 8) (.park (.bufferEntry (match p with | .loc _ o => o | .scale _ o => o | .glob o => o) 8))
        let w := slotWho r t 2 a
        leaveDie r t a p
        waitFor (fun s => s.visitMeet w r.core p)
        let old ← accessR a (fun s => s.visitWord w r.core p 8 (fun c =>
          if here then (nestClaim k (BitVec.ofNat 64 c)).map (fun n => (c + n) % 2 ^ 64) else none))
        match nestClaim k (BitVec.ofNat 64 old) with
        | none => retireR t [] [] none
        | some n =>
          let c := old
          nextBody t { k with cur := c, lim := c + n } target

end Sys2Proof.Machine
end

