-- ==== Sys2Proof/Machine/Esnen.lean ====
section
/-!
DEFINITION. The Esnen set (R386-R389), a translation's windows, meter, output and end (R390-R397), the turn of the
translator.
-/

namespace Sys2Proof.Machine

/-- The causes with which a translation ends (R396). -/
def trIll : Nat := 0x01
def trMeter : Nat := 0x40
def trConfine : Nat := 0x41
def trEmit : Nat := 0x42
def trFail : Nat := 0x50

/-- Register reads: e0 reads zero (R387). -/
def Translator.reg (k : Translator) (n : Fin 16) : Word32 := if n = 0 then 0 else k.e[n]

/-- Register writes: those of e0 are discarded (R387). -/
def Translator.set (k : Translator) (n : Fin 16) (v : Word32) : Translator :=
  if n = 0 then k else { k with e := k.e.set n v }

/-- The byte offset of the next output word (R394). -/
def Translator.outAt (k : Translator) : Nat := 4 * k.out.length

/-- Whether an instruction can be fetched at an offset: inside the translator section, aligned (R390). -/
def Translator.fetchable (k : Translator) (pc : Word32) : Bool :=
  decide (pc.toNat % 4 = 0 ∧ pc.toNat / 4 < k.code.length)

/-- SX of a 15-bit immediate (R388). -/
def sx32 (imm : BitVec 15) : Word32 := imm.signExtend 32

/-- Where the T and S windows begin, and the bytes of S (R390). -/
def tWindow : Nat := 0x40000000
def sWindow : Nat := 0x60000000
def sBytes : Nat := 0x10000

/-- LOAD `n` bytes from the P, T or S window; none where the access does not lie wholly inside one (R390). -/
def Translator.load (k : Translator) (a n : Nat) : Option Nat :=
  if a + n ≤ k.priv.length then some (leNat (bytesAt k.priv a n))
  else if tWindow ≤ a ∧ a + n ≤ tWindow + nativeLength then
    some (leNat ((List.range n).map (fun i => nativeByte (a - tWindow + i))))
  else if sWindow ≤ a ∧ a + n ≤ sWindow + sBytes then some (leNat (cellsGet k.scratch (a - sWindow) n))
  else none

/-- STORE the low `n` bytes of a value; only S takes stores (R388, R390). -/
def Translator.store (k : Translator) (a n : Nat) (v : Word32) : Option Translator :=
  if sWindow ≤ a ∧ a + n ≤ sWindow + sBytes then
    some { k with scratch := cellsPut k.scratch (a - sWindow) (natLe v.toNat n) }
  else none

/-- What an Esnen instruction leads to: the next program counter, or the end of the translation with its cause and detail. -/
inductive EsnenNext where
  | go (k : Translator) (pc : Word32)
  | stop (k : Translator) (cause detail : Nat)
  deriving DecidableEq, Repr

/-- The 32 bytes of a translation report (R396). -/
def reportBytes (tc : Nat) (k : Translator) (cause detail : Nat) : List Byte :=
  natLe tc 8 ++ natLe cause 1 ++ natLe 0 1 ++ natLe k.role 2 ++ natLe k.lastPc.toNat 4 ++ natLe k.meter 4
    ++ natLe k.out.length 4 ++ natLe detail 4 ++ natLe k.marks.length 4

/-- An agent outside the slots as the maker of an access (R28): its source number and the kind that a monitor logs (R451). -/
def agentWho (src kind world va : Nat) : Who := { engineWho src world 0xFFFFFF 0 (BitVec.ofNat 64 va) with kind := kind }

/-- Whether nothing in the module makes an access wait at its home (R57, R91, R94). -/
def State.calm (s : State) : Bool :=
  s.retire.isEmpty && s.spillFills.isEmpty && s.spillInvs.isEmpty && !s.dirs.any (fun p => decide (p.2.state = 2))

/-- What an access of such an agent waits for, at the homes of the tables and of its lines; in a calm module nothing is looked up. -/
def State.agentMeet (s : State) (w : Who) (va n : Nat) (wr : Bool) : Option Park :=
  if s.calm then none else (s.engineMeet w 0 (BitVec.ofNat 64 va) n wr).map (fun x => x.2)

/-- Such an agent reads `n` bytes through a world's tables, in the global window; none when it cannot, or when the read has to wait, which
the state then says. -/
def State.agentRead (s : State) (src kind world va n : Nat) : State × Option (List Byte) :=
  if 2 ^ 52 < va + n ∨ s.stall.isSome then (s, none) else
  match s.agentMeet (agentWho src kind world va) va n false with
  | some p => ({ s with stall := some (agentWho src kind world va, p) }, none)
  | none =>
    match s.engineSpan 0 0 world (BitVec.ofNat 64 va) n true false with
    | (s1, .ok l) =>
      match s1.engineRead (agentWho src kind world va) l with
      | (s2, .ok b) => (s2, some b)
      | (s2, .error _) => (s2, none)
    | (s1, .error _) => (s1, none)

/-- Such an agent writes bytes through a world's tables; nothing where it cannot, or has to wait. The flag says whether it has written. -/
def State.agentWrite (s : State) (src kind world va : Nat) (data : List Byte) : State × Bool :=
  if 2 ^ 52 < va + data.length ∨ s.stall.isSome then (s, false) else
  match s.agentMeet (agentWho src kind world va) va data.length true with
  | some p => ({ s with stall := some (agentWho src kind world va, p) }, false)
  | none =>
    match s.engineSpan 0 0 world (BitVec.ofNat 64 va) data.length false true with
    | (s1, .ok l) =>
      let x := s1.engineWrite (agentWho src kind world va) 0 0 0 l data
      (x.1, x.2.isNone)
    | (s1, .error _) => (s1, false)

/-- A die writes one remote-data line back and drops it, for its own flush or clearing, or has to wait for it. -/
def State.agentBack (s : State) (x : RdcLine) : State :=
  let w := rdcSelf x.die x.way x
  if s.stall.isSome then s
  else
    match s.copyMeet w (coreIx x.die 0 0) x with
    | some p => { s with stall := some (w, p.2) }
    | none => s.rdcWriteBack w x false

/-- Such an agent has a die write a world's dirty bytes back (R98), or has to wait for it. -/
def State.agentSync (s : State) (src world die : Nat) : State :=
  let w := agentWho src 3 world 0
  if s.stall.isSome then s
  else
    match s.syncMeet w (coreIx die 0 0) die with
    | some x => { s with stall := some (w, x.2) }
    | none => s.rdcSync w die false

/-- A piece of work of such an agent is done whole, or, where one of its accesses has to wait, not at all: it stays to be done `again`,
and the spillway is asked for what the access waits for (R57, R91, R94; log entry 52). -/
def State.whole (s : State) (work again : State → State) : State :=
  let s1 := work s
  match s1.stall with
  | none => s1
  | some (w, .fill line _) => again (if s.overflowed line && !s.lineBusy line then s.askSpillway w 0 line else s)
  | some _ => again s

/-- The headgate's reads and writes (R28). -/
def State.headRead (s : State) (world va n : Nat) : State × Option (List Byte) := s.agentRead headSource 3 world va n
def State.headWrite (s : State) (world va : Nat) (data : List Byte) : State × Bool := s.agentWrite headSource 3 world va data

/-- END a translation: its report is written into its container, or dropped where that write faults (R396); the launch that
waits for it goes on (R333, R405). Where the write has to wait, the translation ends in a later turn. -/
def State.endTranslation (s : State) (k : Translator) (cause detail : Nat) : State :=
  let s1 : State := { s with translator := some { k with ended := some (cause, detail) } }
  s.whole (fun _ => (s1.headWrite k.world (k.container + 32) (reportBytes s.tc k cause detail)).1.laterOnce .launchAdmission {}) (fun s => s)

/-- Whether a translation is running. -/
def Translator.running (k : Translator) : Bool := k.ended.isNone

/-- EXECUTE one instruction of the translation (R392): with a meter of 0 it ends with METER; otherwise the meter falls by 1, the
instruction executes, and a next program counter that cannot be fetched ends it with CONFINE (R390). -/
def esnenRun (s : State) (f : Translator → EsnenNext) : Host.Outcome State Fault Refusal :=
  match s.translator with
  | none => .next s
  | some k =>
    if !k.running then .next s
    else if k.meter = 0 then .next (s.endTranslation { k with lastPc := k.pc } trMeter 0)
    else
      match f { k with meter := k.meter - 1, lastPc := k.pc } with
      | .go k1 pc =>
        if k1.fetchable pc then .next { s with translator := some { k1 with pc := pc } }
        else .next (s.endTranslation k1 trConfine pc.toNat)
      | .stop k1 cause detail => .next (s.endTranslation k1 cause detail)

/-- An instruction that writes ed and goes on at pc + 4 (R388). -/
def esnenWrite (s : State) (d : Fin 16) (v : Translator → Word32) : Host.Outcome State Fault Refusal :=
  esnenRun s fun k => .go (k.set d (v k)) (k.pc + 4)

/-- An instruction that loads `n` bytes (R388). -/
def esnenLoad (s : State) (d a : Fin 16) (imm : BitVec 15) (n : Nat) : Host.Outcome State Fault Refusal :=
  esnenRun s fun k =>
    let ea := k.reg a + sx32 imm
    match k.load ea.toNat n with
    | some v => .go (k.set d (BitVec.ofNat 32 v)) (k.pc + 4)
    | none => .stop k trConfine ea.toNat

/-- An instruction that stores `n` bytes (R388). -/
def esnenStore (s : State) (a b : Fin 16) (imm : BitVec 15) (n : Nat) : Host.Outcome State Fault Refusal :=
  esnenRun s fun k =>
    let ea := k.reg a + sx32 imm
    match k.store ea.toNat n (k.reg b) with
    | some k1 => .go k1 (k.pc + 4)
    | none => .stop k trConfine ea.toNat

/-- The target of a branch or JAL (R388). -/
def branchTarget (pc : Word32) (imm : BitVec 15) : Word32 := pc + 4 * sx32 imm

/-- A branch (R388). -/
def esnenBranch (s : State) (a b : Fin 16) (imm : BitVec 15) (taken : Word32 → Word32 → Bool) : Host.Outcome State Fault Refusal :=
  esnenRun s fun k => .go k (if taken (k.reg a) (k.reg b) then branchTarget k.pc imm else k.pc + 4)

/-! ### The operations (R388) -/

/-- LI: ed := SX(imm15). -/
def execEsnenLi (d : Fin 16) (imm : BitVec 15) (s : State) : Host.Outcome State Fault Refusal :=
  esnenWrite s d fun _ => sx32 imm

/-- LIH: bits 31:15 from the immediate, bits 14:0 kept. -/
def execEsnenLih (d : Fin 16) (imm : BitVec 17) (s : State) : Host.Outcome State Fault Refusal :=
  esnenWrite s d fun k => (imm.setWidth 32 <<< 15) ||| (k.reg d &&& 0x00007FFF)

/-- ADD. -/
def execEsnenAdd (d a b : Fin 16) (s : State) : Host.Outcome State Fault Refusal :=
  esnenWrite s d fun k => k.reg a + k.reg b

/-- ADDI. -/
def execEsnenAddi (d a : Fin 16) (imm : BitVec 15) (s : State) : Host.Outcome State Fault Refusal :=
  esnenWrite s d fun k => k.reg a + sx32 imm

/-- SUB. -/
def execEsnenSub (d a b : Fin 16) (s : State) : Host.Outcome State Fault Refusal :=
  esnenWrite s d fun k => k.reg a - k.reg b

/-- AND. -/
def execEsnenAnd (d a b : Fin 16) (s : State) : Host.Outcome State Fault Refusal :=
  esnenWrite s d fun k => k.reg a &&& k.reg b

/-- OR. -/
def execEsnenOr (d a b : Fin 16) (s : State) : Host.Outcome State Fault Refusal :=
  esnenWrite s d fun k => k.reg a ||| k.reg b

/-- XOR. -/
def execEsnenXor (d a b : Fin 16) (s : State) : Host.Outcome State Fault Refusal :=
  esnenWrite s d fun k => k.reg a ^^^ k.reg b

/-- SHLI. -/
def execEsnenShli (d a : Fin 16) (n : BitVec 5) (s : State) : Host.Outcome State Fault Refusal :=
  esnenWrite s d fun k => k.reg a <<< n.toNat

/-- SHRI: zeros in. -/
def execEsnenShri (d a : Fin 16) (n : BitVec 5) (s : State) : Host.Outcome State Fault Refusal :=
  esnenWrite s d fun k => k.reg a >>> n.toNat

/-- LDB. -/
def execEsnenLdb (d a : Fin 16) (imm : BitVec 15) (s : State) : Host.Outcome State Fault Refusal := esnenLoad s d a imm 1

/-- LDH. -/
def execEsnenLdh (d a : Fin 16) (imm : BitVec 15) (s : State) : Host.Outcome State Fault Refusal := esnenLoad s d a imm 2

/-- LDW. -/
def execEsnenLdw (d a : Fin 16) (imm : BitVec 15) (s : State) : Host.Outcome State Fault Refusal := esnenLoad s d a imm 4

/-- STB. -/
def execEsnenStb (a b : Fin 16) (imm : BitVec 15) (s : State) : Host.Outcome State Fault Refusal := esnenStore s a b imm 1

/-- STW. -/
def execEsnenStw (a b : Fin 16) (imm : BitVec 15) (s : State) : Host.Outcome State Fault Refusal := esnenStore s a b imm 4

/-- BEQ. -/
def execEsnenBeq (a b : Fin 16) (imm : BitVec 15) (s : State) : Host.Outcome State Fault Refusal :=
  esnenBranch s a b imm fun x y => x == y

/-- BNE. -/
def execEsnenBne (a b : Fin 16) (imm : BitVec 15) (s : State) : Host.Outcome State Fault Refusal :=
  esnenBranch s a b imm fun x y => x != y

/-- BLT: a signed comparison. -/
def execEsnenBlt (a b : Fin 16) (imm : BitVec 15) (s : State) : Host.Outcome State Fault Refusal :=
  esnenBranch s a b imm fun x y => x.slt y

/-- JAL: ed := pc + 4. -/
def execEsnenJal (d : Fin 16) (imm : BitVec 15) (s : State) : Host.Outcome State Fault Refusal :=
  esnenRun s fun k => .go (k.set d (k.pc + 4)) (branchTarget k.pc imm)

/-- JR. -/
def execEsnenJr (a : Fin 16) (s : State) : Host.Outcome State Fault Refusal :=
  esnenRun s fun k => .go k (k.reg a)

/-- EMIT: a word of output, of at most outcap (R394). -/
def execEsnenEmit (a : Fin 16) (s : State) : Host.Outcome State Fault Refusal :=
  esnenRun s fun k =>
    if k.out.length < k.outcap then .go { k with out := k.out ++ [k.reg a] } (k.pc + 4) else .stop k trEmit 0

/-- MARK: the pair of the output offset and ea, in place of an earlier one of the same offset; at most markcap pairs (R394). -/
def execEsnenMark (a : Fin 16) (s : State) : Host.Outcome State Fault Refusal :=
  esnenRun s fun k =>
    let rest := k.marks.filter (fun p => p.1 ≠ k.outAt)
    if rest.length < k.markcap then .go { k with marks := rest ++ [(k.outAt, (k.reg a).toNat)] } (k.pc + 4) else .stop k trEmit 0

/-- TLOOK (R401). -/
def execEsnenTlook (d a : Fin 16) (s : State) : Host.Outcome State Fault Refusal :=
  esnenWrite s d fun k => BitVec.ofNat 32 (nativeLookup (k.reg a).toNat)

/-- DONE: the translation succeeds with entry offset ea, or ends with EMIT (R395). -/
def execEsnenDone (a : Fin 16) (s : State) : Host.Outcome State Fault Refusal :=
  esnenRun s fun k =>
    let ea := (k.reg a).toNat
    if ea % 4 = 0 ∧ ea < k.outAt then .stop { k with entry := ea } 0 0 else .stop k trEmit 0

/-- FAIL (R395). -/
def execEsnenFail (imm : BitVec 15) (s : State) : Host.Outcome State Fault Refusal :=
  esnenRun s fun k => .stop k trFail imm.toNat

/-- METER_EXHAUSTED: the meter is 0 before an instruction (R392). -/
def execMeterExhausted (s : State) : Host.Outcome State Fault Refusal :=
  match s.translator with
  | none => .next s
  | some k => if k.running && decide (k.meter = 0) then .next (s.endTranslation { k with lastPc := k.pc } trMeter 0) else .next s

/-! ### The translator's turn (R397) -/

/-- The next instruction of a running translation, or its end where none can be executed (R389, R390, R392). -/
def translatorTurn (s : State) (k : Translator) : Turn :=
  if k.meter = 0 then .run .meterExhausted s
  else if !k.fetchable k.pc then .idle (s.endTranslation k trConfine k.pc.toNat)
  else
    match (k.code[k.pc.toNat / 4]?).bind decodeEsnen with
    | some i => .run i s
    | none => .idle (s.endTranslation { k with meter := k.meter - 1, lastPc := k.pc } trIll 0)

end Sys2Proof.Machine
end

