-- ==== Sys2Proof/Machine/Threads.lean ====
section
/-!
DEFINITION. Spawning, tasks and dispatch, parking, waking, ending and poking (R340-R349), the watchdog (R425, R426).
-/

namespace Sys2Proof.Machine

/-! ### Replies (R341) -/

/-- A reply word: its status in bits 63:56. -/
def replyWord (status v : Nat) : Word := BitVec.ofNat 64 (status * 2 ^ 56 + v)

/-- Send a reply to the register of the current slot's thread. -/
def State.replyTo (s : State) (t : Thread) (d : Reg) (status v : Nat) : State :=
  s.deliverResult s.cur t.id d (replyWord status v) 0 (slotSource s.cur)

/-! ### Placement and budgets (R329, R330) -/

/-- Whether a core lies within a region's placement. -/
def Region.places (g : Region) (c : CoreIx) : Bool :=
  decide (g.dieLo ≤ dieOf c ∧ dieOf c ≤ g.dieHi ∧ g.clusterLo ≤ clusterOf c % 64 ∧ clusterOf c % 64 ≤ g.clusterHi
    ∧ g.coreLo ≤ inCluster c ∧ inCluster c ≤ g.coreHi)

/-- The slots, pools and tokens that a region has not given to its children (R330). -/
def State.slotsOf (s : State) (g : Region) : Nat :=
  g.slots - ((s.regions.filter (fun k => k.parent = some g.id)).map (fun k => k.slots)).sum
def State.poolsOf (s : State) (g : Region) : Nat :=
  g.pools - ((s.regions.filter (fun k => k.parent = some g.id)).map (fun k => k.pools)).sum
def Region.role? (g : Region) (role : Nat) : Option RoleInfo := g.roles.find? (fun k => k.role = role)

/-- Whether one more thread of a region fits its slot budget. -/
def State.slotRoom (s : State) (g : Region) : Bool := decide (s.liveThreads g.id < s.slotsOf g)

/-- Whether a core can run a role of a region: it holds the image, or the region travels (R342, R343). -/
def State.runsRole (s : State) (g : Region) (role : Nat) (c : CoreIx) : Bool :=
  g.places c && (g.travelling || ((s.core c).imageOf g.id role).isSome)

/-! ### SPAWN (R342) -/

/-- The argument registers g4-g7 of a spawn, each read as an operand (R340). -/
def spawnArgs (s : State) (t : Thread) : Except Stop (List Word) := do
  let p ← readReg s t [] (.g 4)
  let q ← readReg s t [] (.g 5)
  let u ← readReg s t [] (.g 6)
  let v ← readReg s t [] (.g 7)
  return [p, q, u, v]

/-- The core that a SPAWN or SEGREP target names, and whether it sets another bit (R340). -/
def targetCore (a : Word) : CoreIx × Bool :=
  (coreIx (bitsOf a 55 52) (bitsOf a 51 46) (bitsOf a 22 16), decide (bitsOf a 63 56 ≠ 0 ∨ bitsOf a 45 23 ≠ 0 ∨ bitsOf a 15 0 ≠ 0))

/-- The status with which a SPAWN is refused, 0 when it is accepted. -/
def spawnStatus (s : State) (t : Thread) (a b : Word) : Nat :=
  let tgt := targetCore a
  match s.region? t.region with
  | none => 2
  | some g =>
    let len := match g.role? t.role with | some k => k.len | none => 0
    if tgt.2 || !s.runsRole g t.role tgt.1 || decide (b.toNat % 4 ≠ 0 ∨ len ≤ b.toNat) then 2
    else if !s.slotRoom g then 1
    else if !s.canSend g tgt.1 t.polder then 3 else 0

/-- SPAWN: a release at module scope; the record goes to the target core, or the refusal is the reply (R341, R342). -/
def execSpawn (d a b : Reg) (m : Marks) (s : State) : Host.Outcome State Fault Refusal :=
  issueRun s 4 fun t => do
    let r := s.cur
    let x ← liftE (read2 s t a b)
    let args ← liftE (spawnArgs s t)
    liftE (checkDest s t d)
    releaseR r t true
    let st := spawnStatus (← get) t x.1 x.2
    retirePending t [a, b] (markAB m a b) d
    if st = 0 then
      let claim := match s.region? t.region with
        | some g => match g.role? t.role with | some k => k.claim | none => 0
        | none => 0
      let f : FlumeRec :=
        { spawn := true, tid := t.id, world := t.world, polder := t.polder, region := t.region, role := t.role, skip := 0,
          blocks := 0, pc := x.2, lk := 0, live := 0xF, full := 0xF, vals := args, claim := claim, wdog := 0, fflags := 0,
          stamp := s.stamp, origin := r.core, reply := some (r, t.id, d) }
      modifyS (fun s => (s.spend f.stamp).sendRecord (targetCore x.1).1 f)
    else modifyS (fun s => s.replyTo t d st 0)

/-! ### Dispatchers (R343, R346-R348) -/

/-- The source number of a cluster's dispatcher (R28). -/
def dispatcherSource (cluster : Nat) : Nat := sourceNo 0 (cluster * 128) 1

def State.dispatcher (s : State) (cluster : Nat) : Dispatcher := tget Dispatcher.reset s.dispatchers cluster

def State.setDispatcher (s : State) (cluster : Nat) (d : Dispatcher) : State :=
  { s with dispatchers := tput s.dispatchers cluster d }

/-- One draw of a generator (R347). -/
def xorshift (x : Word) : Word :=
  let a := x ^^^ (x <<< 13)
  let b := a ^^^ (a >>> 7)
  b ^^^ (b <<< 17)

/-- Draw a bank of a polder: the dispatcher with its generator moved on, and the bank. -/
def drawBank (s : State) (d : Dispatcher) (polder : Nat) : Dispatcher × Nat :=
  let x := xorshift (tget 0 d.gen polder)
  let slots := s.polderSlots polder
  ({ d with gen := tput d.gen polder x }, slots.getD (x.toNat % max 1 slots.length) 0)

/-- The number of a task (R341). -/
def taskId (cluster no : Nat) : Nat := cluster / 64 * 2 ^ 52 + cluster % 64 * 2 ^ 46 + no % 2 ^ 32

/-- SPAWNQ: a release at module scope; the task goes to the dispatcher of the named cluster (R341, R343). -/
def execSpawnq (d a b : Reg) (m : Marks) (s : State) : Host.Outcome State Fault Refusal :=
  issueRun s 4 fun t => do
    let r := s.cur
    let x ← liftE (read2 s t a b)
    let args ← liftE (spawnArgs s t)
    liftE (checkDest s t d)
    releaseR r t true
    let s1 ← get
    let cluster := bitsOf x.1 55 52 * 64 + bitsOf x.1 51 46
    let ok := decide (bitsOf x.1 63 56 = 0 ∧ bitsOf x.1 45 4 = 0) && (match s1.region? t.region with
      | some g => (List.range 128).any (fun i => s1.runsRole g t.role (cluster * 128 + i))
      | none => false)
    retirePending t [a, b] (markAB m a b) d
    if ok then
      let k : Task := { no := 0, region := t.region, role := t.role, entry := x.2, args := args, priority := bitsOf x.1 3 0, tc := 0,
                        stamp := s.stamp, polder := t.polder, reply := some (r, t.id, d), origin := r.core }
      modifyS (fun s => ((s.spend k.stamp).setDispatcher cluster { s.dispatcher cluster with arriving := (s.dispatcher cluster).arriving ++ [k] }).later
        .taskInsert { n := cluster })
    else modifyS (fun s => s.replyTo t d 2 0)

/-- The tasks of a region in every spill area (R346). -/
def State.spilledOf (s : State) (region : Nat) : Nat :=
  (s.dispatchers.map (fun p => p.2.spilled.countP (fun k => k.region = region))).sum

/-- Reply to a SPAWNQ. -/
def State.replyTask (s : State) (k : Task) (cluster status v : Nat) : State :=
  match k.reply with
  | some (q, tid, d) => s.deliverResult q tid d (replyWord status v) 0 (dispatcherSource cluster)
  | none => s

/-- The effective priority of a task (R346). -/
def Task.urgency (k : Task) (now : Nat) : Nat := min 15 (k.priority + (now - k.tc) / 65536)

/-- The head of a bank: the highest effective priority, ties to the earlier insertion (R346). -/
def bankHead (now : Nat) (l : List Task) : Option Task :=
  l.foldl (fun (b : Option Task) k => match b with
    | none => some k
    | some h => if h.urgency now < k.urgency now ∨ (h.urgency now = k.urgency now ∧ k.stamp.before h.stamp) then some k else some h) none

/-- The slot in which a task could start: the lowest free one of the lowest-numbered core (R348). -/
def State.taskSlot (s : State) (cluster : Nat) (k : Task) : Option SlotRef :=
  match s.region? k.region with
  | none => none
  | some g =>
    if !s.slotRoom g then none
    else (List.range 128).findSome? (fun i =>
      let c := cluster * 128 + i
      if s.runsRole g k.role c then s.freeSlot c k.polder else none)

/-- The head of a bank, where it could start now. -/
def startable (s : State) (cluster : Nat) (d : Dispatcher) (bank : Nat) : Option Task :=
  (bankHead s.tc (tget [] d.banks bank)).bind (fun k => if (s.taskSlot cluster k).isSome then some k else none)

/-- Draw two banks until one has a task to start, and after the draws given take the first that has (R348). -/
def drawTask (s : State) (cluster polder : Nat) (d : Dispatcher) : Nat → Dispatcher × Option (Nat × Task)
  | 0 => (d, (s.polderSlots polder).findSome? (fun b => (startable s cluster d b).map (fun k => (b, k))))
  | n + 1 =>
    let x := drawBank s d polder
    let y := drawBank s x.1 polder
    match startable s cluster y.1 x.2, startable s cluster y.1 y.2 with
    | none, none => drawTask s cluster polder y.1 n
    | some k, none => (y.1, some (x.2, k))
    | none, some k => (y.1, some (y.2, k))
    | some k, some l =>
      if k.urgency s.tc < l.urgency s.tc ∨ (k.urgency s.tc = l.urgency s.tc ∧ y.2 < x.2) then (y.1, some (y.2, l)) else (y.1, some (x.2, k))

/-- A bank of a polder with room that the generator chooses; after 8 draws, the first with room. -/
def drawRoom (s : State) (polder : Nat) (d : Dispatcher) : Nat → Dispatcher × Option Nat
  | 0 => (d, (s.polderSlots polder).find? (fun b => decide ((tget [] d.banks b).length < 64)))
  | n + 1 =>
    let x := drawBank s d polder
    if (tget [] x.1.banks x.2).length < 64 then (x.1, some x.2) else drawRoom s polder x.1 n

/-- Move the oldest spilled tasks of a polder into banks, while one has room; `f` bounds them (R346). -/
def unspill (s : State) (polder : Nat) (d : Dispatcher) : Nat → Dispatcher
  | 0 => d
  | f + 1 =>
    match d.spilled.find? (fun k => k.polder = polder) with
    | none => d
    | some k =>
      match drawRoom s polder d 8 with
      | (d1, some b) => unspill s polder { d1 with spilled := d1.spilled.erase k, banks := tput d1.banks b (tget [] d1.banks b ++ [k]) } f
      | (d1, none) => d1

/-- Whether a spilled task of a dispatcher has room in a bank of its polder. -/
def canUnspill (s : State) (d : Dispatcher) : Bool :=
  d.spilled.any (fun k => (s.polderSlots k.polder).any (fun b => decide ((tget [] d.banks b).length < 64)))

/-- A dispatcher once whatever can leave the spill areas has (R346). -/
def settle (s : State) (d : Dispatcher) : Dispatcher :=
  if canUnspill s d then (List.range 16).foldl (fun d p => unspill s p d d.spilled.length) d else d

/-- The place of the next record in a region's spill area, a ring of 64-byte records (R346). -/
def Region.spillVa (g : Region) : Nat := g.spill + 64 * (g.spillNo % max 1 (g.spillsz / 64))

/-- The maker of a dispatcher's accesses to the spill area of a region. -/
def spillWho (cluster : Nat) (g : Region) : Who := engineWho (dispatcherSource cluster) g.world g.id 0 (BitVec.ofNat 64 g.spillVa)

/-- Write a 64-byte task record into a region's spill area. How a record is laid out is not said: its bytes are undefined (R8, R346; log
entry 18). -/
def State.spillRecord (s : State) (cluster : Nat) (g : Region) : State :=
  let b := s.freshBytes 64 8
  let s1 : State := b.2.ringStore (spillWho cluster g) (cluster * 128) g.spillVa b.1
  s1.modRegion g.id (fun q => { q with spillNo := q.spillNo + 1 })

/-- A task that has come to its dispatcher enters a bank that the generator chooses, or the spill area, or is refused with FULL
(R343, R346). -/
def State.insertTask (s : State) (c : Nat) (d : Dispatcher) (k : Task) : State :=
  let d1 : Dispatcher := { d with arriving := d.arriving.erase k }
  let draw := drawBank s d1 k.polder
  let bank := tget [] draw.1.banks draw.2
  let k' : Task := { k with no := d.nextNo, tc := s.tc }
  let d2 : Dispatcher := { draw.1 with nextNo := (d.nextNo + 1) % 2 ^ 32 }
  if bank.length < 64 then
    let s1 : State := s.setDispatcher c { d2 with banks := tput d2.banks draw.2 (bank ++ [k']) }
    (s1.replyTask k c 0 (taskId c d.nextNo)).laterOnce .dispatch { n := c }
  else
    match s.region? k.region with
    | none => ((s.setDispatcher c draw.1).replyTask k c 3 0).checkRegion k.region
    | some g =>
      if s.spilledOf k.region < g.spillsz / 64 then
        let s1 : State := (s.spillRecord c g).setDispatcher c (settle s { d2 with spilled := d2.spilled ++ [k'] })
        s1.replyTask k c 0 (taskId c d.nextNo)
      else ((s.setDispatcher c draw.1).replyTask k c 3 0).checkRegion k.region

/-- What a task that has come to its dispatcher waits for: the home of its record, where the spill area takes it (R57, R91, R346). -/
def State.taskMeet (s : State) (c : Nat) (d : Dispatcher) (k : Task) : Option (State × Park) :=
  let draw := drawBank s { d with arriving := d.arriving.erase k } k.polder
  if (tget [] draw.1.banks draw.2).length < 64 then none
  else
    (s.region? k.region).bind (fun g =>
      if s.spilledOf k.region < g.spillsz / 64 then s.ringMeet (spillWho c g) (c * 128) g.spillVa 64 true else none)

/-- TASK_INSERT: the earliest task on its way to a dispatcher is inserted (R31, R343); spilled tasks move into banks that have room
(R346). -/
def execTaskInsert (s : State) : Host.Outcome State Fault Refusal :=
  let c := s.arg.n
  let d := settle s (s.dispatcher c)
  let s0 : State := if canUnspill s (s.dispatcher c) then s.setDispatcher c d else s
  match earliestBy (fun k => k.stamp) d.arriving with
  | none => .next s0
  | some k =>
    match s.taskMeet c d k with
    | some x => .next x.1
    | none => .next (s0.insertTask c d k)

/-- DISPATCH: where a task of a polder can start, two banks are drawn and the more urgent head starts as a spawned thread
does (R342, R348). -/
def execDispatch (s : State) : Host.Outcome State Fault Refusal :=
  let c := s.arg.n
  let d := s.dispatcher c
  match (List.range 16).find? (fun p => (s.polderSlots p).any (fun b => (startable s c d b).isSome)) with
  | none => .next s
  | some p =>
    match drawTask s c p d 9 with
    | (d1, none) => .next (s.setDispatcher c d1)
    | (d1, some (b, k)) =>
      match s.taskSlot c k, s.region? k.region with
      | some r, some g =>
        let claim := match g.role? k.role with | some q => q.claim | none => 0
        let id := s.nextId r
        let d2 : Dispatcher := { d1 with banks := tput d1.banks b ((tget [] d1.banks b).erase k), started := d1.started ++ [(k.no, id)] }
        let w : Who := { src := dispatcherSource c, world := g.world, region := g.id, slot := r.slot, kind := 1, va := none }
        let s1 : State := (s.setDispatcher c (settle s d2)).beginThread r g.world k.polder k.region k.role k.entry claim k.args
        let s2 : State := match s1.thread? r with
          | some t => acquireS s1 r t true
          | none => s1
        match s.syncMeet w r.core (dieOf r.core) with
        | some x => .next x.1
        | none => .next ({ s2 with gated := s2.gated.filter (fun q => q ≠ c) }.laterOnce .dispatch { n := c })
      | _, _ => .next s

/-! ### QUIT, YIELD, PARK, WAKE, CANCEL, POKE (R344, R345) -/

/-- QUIT: it waits for the compute queue, releases at module scope, and ends the thread (R344). -/
def execQuit (s : State) : Host.Outcome State Fault Refusal :=
  issueRun s 4 fun t => do
    let r := s.cur
    stopIf (!t.cq.isEmpty) (.park .computeQueue)
    releaseR r t true
    modifyS (fun s => endThread s r)

/-- YIELD: the slot is not ready in the address pipe for 16 cycles (R344). -/
def execYield (s : State) : Host.Outcome State Fault Refusal :=
  issue s fun t => .ok (retire s { t with yieldTo := s.tc + 17 } [] [] none 4)

/-- YIELD_EXPIRY: the slot is ready again (R344). -/
def execYieldExpiry (s : State) : Host.Outcome State Fault Refusal :=
  .next (s.modThread { core := s.arg.core, slot := s.arg.slot } (fun t => if t.yieldTo ≤ s.tc then { t with yieldTo := 0 } else t))

/-- What PARK does when it issues, and again when its deadline has come (R344). -/
def parkForm (d a : Reg) (ma : Bool) (s : State) : Host.Outcome State Fault Refusal :=
  issue s fun t => do
    let x ← readReg s t [] a
    checkDest s t d
    if t.wakeBit then return retire s { t with wakeBit := false } [a] [(ma, a)] (some (d, 0)) 4
    else if x ≠ 0 ∧ x.toNat ≤ s.tc then return retire s t [a] [(ma, a)] (some (d, 1)) 4
    else .error (.park (.wake x.toNat))

/-- PARK (R344). -/
def execPark (d a : Reg) (ma : Bool) (s : State) : Host.Outcome State Fault Refusal := parkForm d a ma s

/-- PARK_DEADLINE: tc has reached the deadline of a parked slot that no wake has reached, and its PARK ends with 1 (R344). -/
def execParkDeadline (s : State) : Host.Outcome State Fault Refusal :=
  let r : SlotRef := { core := s.arg.core, slot := s.arg.slot }
  match s.thread? r with
  | some t =>
    match t.parked with
    | some (.wake n) =>
      if n = 0 ∨ s.tc < n then .next s
      else
        let s1 : State := { s.setThread r { t with parked := none } with cur := r, pipe := .address }
        match fetch s1 r t with
        | .ok (.park d a ma, _) => parkForm d a ma s1
        | _ => .next s1
    | _ => .next s
  | none => .next s

/-- WAKE: the wake bit of a live thread of the issuer's world (R341, R344). -/
def execWake (d a : Reg) (ma : Bool) (s : State) : Host.Outcome State Fault Refusal :=
  issueRun s 4 fun t => do
    let x ← liftE (readReg s t [] a)
    liftE (checkDest s t d)
    retirePending t [a] [(ma, a)] d
    let s1 ← get
    match s1.threadById (bitsOf x 39 0) with
    | some (q, u) =>
      if u.world = t.world then
        modifyS (fun s => (s.modThread q (fun v => { v with wakeBit := true })).replyTo t d 0 0)
      else modifyS (fun s => s.replyTo t d 5 0)
    | none => modifyS (fun s => s.replyTo t d 5 0)

/-- Take a waiting task out of a dispatcher (R345). -/
def State.dropTask (s : State) (cluster : Nat) (no : Nat) : Option State :=
  let d := s.dispatcher cluster
  let gone (l : List Task) : List Task := l.filter (fun k => k.no ≠ no)
  match ((d.banks.flatMap (fun b => b.2)) ++ d.spilled).find? (fun k => k.no = no) with
  | none => none
  | some k =>
    let s1 : State := s.setDispatcher cluster (settle s { d with banks := d.banks.map (fun b => (b.1, gone b.2)), spilled := gone d.spilled })
    some (s1.checkRegion k.region)

/-- CANCEL of a task or of a thread (R341, R345). -/
def execCancel (d a : Reg) (ma : Bool) (s : State) : Host.Outcome State Fault Refusal :=
  issueRun s 4 fun t => do
    let x ← liftE (readReg s t [] a)
    liftE (checkDest s t d)
    retirePending t [a] [(ma, a)] d
    let s1 ← get
    if bitOf x 63 then
      match s1.threadById (bitsOf x 39 0) with
      | some (q, u) =>
        if s1.isWithin u.region t.region then modifyS (fun s => endThread (s.replyTo t d 0 0) q)
        else modifyS (fun s => s.replyTo t d 5 0)
      | none => modifyS (fun s => s.replyTo t d 5 0)
    else
      let cluster := bitsOf x 55 52 * 64 + bitsOf x 51 46
      let no := bitsOf x 31 0
      if bitsOf x 63 56 ≠ 0 ∨ bitsOf x 45 32 ≠ 0 then modifyS (fun s => s.replyTo t d 5 0)
      else
        match s1.dropTask cluster no with
        | some s2 => modifyS (fun _ => s2.replyTo t d 0 0)
        | none =>
          match (s1.dispatcher cluster).started.find? (fun p => p.1 = no) with
          | some p => modifyS (fun s => s.replyTo t d 4 p.2)
          | none => modifyS (fun s => s.replyTo t d 5 0)

/-- POKE: a release, after which comes its remote fill: the fill of a register of a thread in the issuer's cluster (R118, R120, R121, R182, R344). -/
def execPoke (a b : Reg) (m : Marks) (s : State) : Host.Outcome State Fault Refusal :=
  issueRun s 4 fun t => do
    let r := s.cur
    let x ← liftE (read2 s t a b)
    let id := bitsOf x.1 39 0
    let n := bitsOf x.1 45 40
    needR (decide (n < 40 ∧ clusterOf (idSlot id).core = clusterOf r.core)) .prot 0
    retireR t [a, b] (markAB m a b) none
    match (← get).threadById id with
    | some (q, u) =>
      if u.world = t.world then
        let f : Fill := { slot := q.slot, tid := id, reg := .g (Fin.ofNat 40 n), value := x.2, flags := 0, poke := true, stamp := s.stamp,
                          after := some (r, false) }
        modifyS (fun s => (s.spend f.stamp).sendFill q.core f)
      else pure ()
    | none => pure ()

/-! ### The watchdog (R426) -/

/-- WATCHDOG_EXPIRY: an enabled watchdog has reached 0. A running thread halts with WDOG at its next instruction, once its
older compute instructions have completed (R188); of a halted thread the message is sent again as WDOG (R426). -/
def execWatchdogExpiry (s : State) : Host.Outcome State Fault Refusal :=
  let r : SlotRef := { core := s.arg.core, slot := s.arg.slot }
  match s.thread? r with
  | none => .next s
  | some t =>
    let h : Halt := { cause := .wdog, imprecise := false, debugger := false, page := none }
    match t.halted with
    | some k =>
      let y := s.mint (slotSource r)
      let words := faultWords Cause.wdog.code 0 t.skip 0 t.world t.region y.1 t.id t.pc 0 (s.privOf r t t.pc) 0 0
      .next (if k.debugger then s else y.2.deliverMsg t.region t.id y.1 words false)
    | none =>
      if t.cq.isEmpty then .next (haltThread s r h 0 t.pc 0 t.pc t.skip 0 0)
      else .next (s.later .watchdogExpiry s.arg)

end Sys2Proof.Machine
end

