-- ==== Sys2Proof/Machine/Tree.lean ====
section
/-!
DEFINITION. The tree engine (R305-R327, R465): pools, nodes, the seven commands, background freeing.
-/

namespace Sys2Proof.Machine

/-! ### A command's view of its pool (R316) -/

/-- What a running command sees: the state, the node lines it has read, the lines it will write. Nothing is written until the
command ends well (R316). -/
structure TreeRun where
  s     : State
  lines : List (Nat × List Byte)
  dirty : List Nat
  deriving DecidableEq, Repr

/-- A command's work: it ends with a value or with an error status (R314). -/
abbrev TreeM (α : Type) := ExceptT Nat (StateM TreeRun) α

/-- The pool a command works on, with the maker of its accesses. -/
structure PoolCtx where
  pool : Pool
  who  : Who
  deriving DecidableEq, Repr

/-- The nodes of a pool (R305). -/
def Pool.capacity (p : Pool) : Nat := 1024 * p.pages

/-- The physical line of a node (R305). -/
def Pool.line (p : Pool) (i : Nat) : Nat := p.frames.getD (i / 1024) 0 + 64 * (i % 1024)

/-- The index that stands for none. -/
def noNode : Nat := 0xFFFFFFFF

/-- A status no word carries: an access of the command waits at its home, and the whole command with it (R57, R91). -/
def treeWaits : Nat := 0x100

def treeFail {α : Type} (status : Nat) : TreeM α := throw status

/-- The status of an access that fails (R314). -/
def treeStatus (c : Cause) : Nat :=
  match c with
  | .lost => 9
  | .xlat => 0xA
  | _ => 0xB

/-- Wait at a home, where the request must (R57, R91, R94). -/
def treeMeet (k : PoolCtx) (line : Nat) (wr : Bool) : TreeM Unit := do
  let c ← get
  match c.s.homeMeet k.who 0 line wr with
  | some x =>
    set { c with s := x.1 }
    throw treeWaits
  | none => pure ()

def treeNeed (b : Bool) (status : Nat) : TreeM Unit := if b then pure () else throw status

/-- Read a node's line at its home slice (R316): LOST where it is poisoned. -/
def readNode (k : PoolCtx) (i : Nat) : TreeM (List Byte) := do
  let c ← get
  match c.lines.find? (fun p => p.1 = i) with
  | some p => return p.2
  | none =>
    treeMeet k (k.pool.line i) false
    match c.s.homeRead k.who (k.pool.line i) 64 with
    | (s1, .ok b) =>
      set { c with s := s1, lines := (i, b) :: c.lines }
      return b
    | (s1, .error e) =>
      set { c with s := s1 }
      throw (treeStatus e)

/-- Replace bytes of a node's line; it is written when the command ends. -/
def putNode (i : Nat) (b : List Byte) : TreeM Unit :=
  modify (fun c => { c with lines := (i, b) :: c.lines.filter (fun p => p.1 ≠ i), dirty := setAdd c.dirty i })

/-- Bytes with some replaced from a position on. -/
def setBytes (b : List Byte) (i : Nat) (d : List Byte) : List Byte := b.take i ++ d ++ b.drop (i + d.length)

def setField (k : PoolCtx) (i off n v : Nat) : TreeM Unit := do
  let b ← readNode k i
  putNode i (setBytes b off (natLe v n))

/-- The bytes that a command writes to a node: free ones where the pool's contents are undefined (R8, R305, R317, R465). -/
def nodeBytes (k : PoolCtx) (s : State) (b : List Byte) : List Byte × State :=
  if k.pool.spoilt then s.freshBytes 64 8 else (b, s)

/-- Write one line of a command; a refusal ends it with a status. -/
def writeNode (k : PoolCtx) (i : Nat) (b : List Byte) : TreeM Unit := do
  let c ← get
  let x := nodeBytes k c.s b
  match x.2.homeWrite k.who none (k.pool.line i) x.1 with
  | (s1, none) => set { c with s := s1 }
  | (s1, some e) =>
    set { c with s := s1 }
    throw (treeStatus e)

/-- Write the lines of a command that has ended well: all of them, or none and a status (R40, R316). What must wait at a home is asked for
before the first is written. -/
def commitTree (k : PoolCtx) (c : TreeRun) : State × Except Nat Unit :=
  match (c.dirty.forM (fun i => treeMeet k (k.pool.line i) true) : TreeM Unit) c with
  | (.error e, c1) => (c1.s, .error e)
  | (.ok (), c1) =>
    match (c.dirty.forM (fun i => writeNode k i ((c.lines.find? (fun p => p.1 = i)).elim [] (fun p => p.2))) : TreeM Unit) c1 with
    | (.ok (), c2) => (c2.s, .ok ())
    | (.error e, _) => (c1.s, .error e)

/-- Run a part of a command and write what it has changed; an error writes nothing. -/
def runTree {α : Type} (s : State) (k : PoolCtx) (f : TreeM α) : State × Except Nat α :=
  match f { s := s, lines := [], dirty := [] } with
  | (.error e, c) => (c.s, .error e)
  | (.ok x, c) =>
    match commitTree k c with
    | (s1, .ok ()) => (s1, .ok x)
    | (s1, .error e) => (s1, .error e)

/-! ### Node fields (R307, R308) -/

def nodeN (b : List Byte) : Nat := fieldAt b 0 4
def nodeW (b : List Byte) : Word32 := BitVec.ofNat 32 (fieldAt b 4 4)
def nodeP (b : List Byte) : Word32 := BitVec.ofNat 32 (fieldAt b 8 4)
def nodeVL (b : List Byte) : Nat := fieldAt b 12 2
def nodeFlags (b : List Byte) : Nat := fieldAt b 14 2
def nodeParent (b : List Byte) : Nat := fieldAt b 16 4
def nodeFirst (b : List Byte) : Nat := fieldAt b 20 4
def nodeCount (b : List Byte) : Nat := fieldAt b 24 2
def nodeAction (b : List Byte) : Nat := fieldAt b 26 2

def flagOn (b : List Byte) (i : Nat) : Bool := decide (nodeFlags b / 2 ^ i % 2 = 1)

/-- Flags bits: expanded 0, terminal 1, in-batch 2, live 15 (R308). -/
def setFlag (k : PoolCtx) (i bit : Nat) (on : Bool) : TreeM Unit := do
  let b ← readNode k i
  let f := nodeFlags b
  let cleared := if f / 2 ^ bit % 2 = 1 then f - 2 ^ bit else f
  putNode i (setBytes b 14 (natLe (if on then cleared + 2 ^ bit else cleared) 2))

/-- Header fields (R307). -/
def headBump (b : List Byte) : Nat := fieldAt b 20 4
def headFree (b : List Byte) : Nat := fieldAt b 24 4
def headRoot (b : List Byte) : Nat := fieldAt b 28 4

/-- Whether an index may be followed (R465). -/
def Pool.indexOk (p : Pool) (i : Nat) : Bool := decide (1 ≤ i ∧ i < p.capacity)

/-- Check an index that is to be followed. -/
def followIndex (k : PoolCtx) (i : Nat) : TreeM Unit := treeNeed (k.pool.indexOk i) 4

/-- Whether an index is valid (R309). -/
def validNode (k : PoolCtx) (i : Nat) : TreeM Bool := do
  let h ← readNode k 0
  if k.pool.indexOk i && decide (i < headBump h) then
    let b ← readNode k i
    return flagOn b 15
  else return false

/-! ### Descent and pick (R319, R320, R324) -/

/-- The children of an expanded node, each index checked. -/
def childRange (k : PoolCtx) (b : List Byte) : TreeM (List Nat) := do
  treeNeed (decide (nodeCount b ≠ 0)) 5
  treeNeed (k.pool.indexOk (nodeFirst b) && decide (nodeFirst b + nodeCount b ≤ k.pool.capacity)) 4
  return (List.range (nodeCount b)).map (fun j => nodeFirst b + j)

/-- The score of a child under its parent's s (R319). -/
def childScore (p : Pool) (root : Word32) (b : List Byte) : Word32 :=
  let v := nodeN b + nodeVL b
  let q := if 0 < v then f32Div (f32Sub (nodeW b) (f32Mul (f32OfNat (nodeVL b)) p.vloss).1).1 (f32OfNat v) else p.fpu
  let u := f32Div (f32Mul (f32Mul p.cpuct (nodeP b)).1 root).1 (f32OfNat (1 + v))
  (f32Add q u).1

/-- The best child of a node, ties to the lowest index (R319). -/
def bestChild (k : PoolCtx) (b : List Byte) : TreeM Nat := do
  let root := f32Sqrt (f32OfNat (nodeN b + nodeVL b))
  let kids ← childRange k b
  let best ← kids.foldlM (fun (acc : Option (Nat × Word32)) c => do
    let sc := childScore k.pool root (← readNode k c)
    return match acc with
      | none => some (c, sc)
      | some (d, old) => if f32Greater sc old then some (c, sc) else some (d, old)) none
  return (best.map (fun p => p.1)).getD 0

/-- Walk down from a node; the path in reverse, its last node first. -/
def descend (k : PoolCtx) (n : Nat) (path : List Nat) : Nat → TreeM (List Nat)
  | 0 => treeFail 5
  | f + 1 => do
    let b ← readNode k n
    if flagOn b 0 then
      let c ← bestChild k b
      descend k c (c :: path) f
    else return path

/-- One descent (R319): the word it posts, and whether it ends the command with an error. -/
def oneDescent (k : PoolCtx) : TreeM Word := do
  let h ← readNode k 0
  let root := headRoot h
  followIndex k root
  let path ← descend k root [root] k.pool.capacity
  let n := path.headD root
  let depth := path.length - 1
  let word (status : Nat) : Word := BitVec.ofNat 64 (status * 2 ^ 56 + depth * 2 ^ 32 + n)
  let b ← readNode k n
  if flagOn b 2 then return word 1
  let below := path.take depth
  let lines ← below.mapM (readNode k)
  if lines.any (fun x => decide (nodeVL x = 65535)) then treeFail 5
  setFlag k n 2 true
  below.forM (fun i => do
    let x ← readNode k i
    putNode i (setBytes x 12 (natLe (nodeVL x + 1) 2)))
  return word (if flagOn b 1 then 2 else 0)

/-- TRPIK: the child with the largest N (R324). -/
def pickChild (k : PoolCtx) (n : Nat) : TreeM Word := do
  treeNeed (← validNode k n) 4
  let b ← readNode k n
  treeNeed (flagOn b 0) 5
  let kids ← childRange k b
  let best ← kids.foldlM (fun (acc : Option (Nat × List Byte)) c => do
    let x ← readNode k c
    return match acc with
      | none => some (c, x)
      | some (d, y) => if nodeN y < nodeN x then some (c, x) else some (d, y)) none
  match best with
  | some (c, x) => return BitVec.ofNat 64 (nodeAction x * 2 ^ 32 + c)
  | none => treeFail 5

/-! ### Expansion (R321, R322) -/

/-- Link a run: the header or the run before it names it. -/
def linkRun (k : PoolCtx) (prev : Nat) (next : Nat) : TreeM Unit :=
  if prev = 0 then setField k 0 24 4 next else setField k prev 4 4 next

/-- Allocate `n` nodes: the first run that fits, else fresh nodes (R322). -/
def allocate (k : PoolCtx) (n prev cur : Nat) : Nat → TreeM Nat
  | 0 => treeFail 5
  | f + 1 => do
    if cur = noNode then
      let h ← readNode k 0
      let bump := headBump h
      treeNeed (decide (1 ≤ bump)) 4
      treeNeed (decide (bump + n ≤ k.pool.capacity)) 3
      setField k 0 20 4 (bump + n)
      return bump
    else
      followIndex k cur
      let b ← readNode k cur
      let len := fieldAt b 0 4
      let next := fieldAt b 4 4
      treeNeed (decide (1 ≤ len ∧ cur + len ≤ k.pool.capacity)) 4
      if n ≤ len then
        if n = len then linkRun k prev next
        else
          let old ← readNode k (cur + n)
          putNode (cur + n) (setBytes (setBytes old 0 (natLe (len - n) 4 ++ natLe next 4)) 14 (natLe 0 2))
          linkRun k prev (cur + n)
        return cur
      else allocate k n cur next f

/-- Read the k priors of an expansion through the world's tables (R321): BOUND, XLAT, PROT or LOST. -/
def readPriors (k : PoolCtx) (c : CoreIx) (extra : Word) (n : Nat) : TreeM (List Word32) := do
  if n = 0 then return []
  treeNeed (decide (windowOf extra = 0) && wellFormed extra 4 && wellFormed (extra + BitVec.ofNat 64 (4 * n - 1)) 1
    && decide (windowOf (extra + BitVec.ofNat 64 (4 * n - 1)) = 0)) 7
  let q0 ← get
  match q0.s.engineMeet k.who c extra (4 * n) false with
  | some x =>
    set { q0 with s := x.1 }
    throw treeWaits
  | none => pure ()
  let q ← get
  match q.s.engineSpan c k.who.slot k.who.world extra (4 * n) true false with
  | (s1, .error e) =>
    set { q with s := s1 }
    throw (treeStatus e)
  | (s1, .ok l) =>
    if l.any (fun p => isDevice p.1) then throw 0xB
    match s1.engineRead k.who l with
    | (s2, .error e) =>
      set { q with s := s2 }
      throw (treeStatus e)
    | (s2, .ok b) =>
      set { q with s := s2 }
      return wordsOf b

/-- TRXPD (R321). -/
def expandLeaf (k : PoolCtx) (c : CoreIx) (leaf : Nat) (extra : Word) (v n : Nat) : TreeM Word := do
  treeNeed (← validNode k leaf) 4
  let b ← readNode k leaf
  treeNeed (!flagOn b 0 && !flagOn b 1) 5
  let priors ← readPriors k c extra n
  setField k leaf 28 4 v
  if n = 0 then
    setFlag k leaf 1 true
    return BitVec.ofNat 64 leaf
  let h ← readNode k 0
  let f ← allocate k n 0 (headFree h) (k.pool.capacity + 1)
  ((List.range n).zip priors).forM (fun p =>
    putNode (f + p.1) (natLe 0 8 ++ natLe p.2.toNat 4 ++ natLe 0 2 ++ natLe 0x8000 2 ++ natLe leaf 4 ++ natLe 0 4 ++ natLe 0 2
      ++ natLe p.1 2 ++ natLe 0 36))
  setField k leaf 20 4 f
  setField k leaf 24 2 n
  setFlag k leaf 0 true
  return BitVec.ofNat 64 (n * 2 ^ 32 + f)

/-! ### Backup and re-root (R323, R325) -/

/-- Add a value to a node and its ancestors (R323). -/
def backup (k : PoolCtx) (n : Nat) (x : Word32) : Nat → TreeM Unit
  | 0 => treeFail 5
  | f + 1 => do
    let b ← readNode k n
    let b1 := setBytes b 0 (natLe (min (nodeN b + 1) 0xFFFFFFFF) 4 ++ natLe (f32Add (nodeW b) x).1.toNat 4)
    if nodeParent b = noNode then
      putNode n b1
      return ()
    let b2 := setBytes b1 12 (natLe (nodeVL b - 1) 2)
    putNode n b2
    followIndex k (nodeParent b)
    backup k (nodeParent b) (if k.pool.alternate then x ^^^ 0x80000000 else x) f

/-- TRBCK (R323). -/
def backupLeaf (k : PoolCtx) (leaf : Nat) (v : Word32) : TreeM Word := do
  treeNeed (← validNode k leaf) 4
  let b ← readNode k leaf
  treeNeed (flagOn b 2) 5
  backup k leaf v k.pool.capacity
  setFlag k leaf 2 false
  return BitVec.ofNat 64 (headRoot (← readNode k 0))

/-- TRRRT: the part that the command itself does (R325); the old root. -/
def reroot (k : PoolCtx) (n : Nat) : TreeM (Word × Nat) := do
  treeNeed (← validNode k n) 4
  let b ← readNode k n
  let h ← readNode k 0
  let old := headRoot h
  treeNeed (decide (nodeParent b = old)) 5
  setField k n 16 4 noNode
  setField k n 12 2 0
  setField k 0 28 4 n
  return (BitVec.ofNat 64 n, old)

/-! ### Background freeing (R325, R465) -/

/-- A node's line as the freeing reads it; none where it is poisoned. -/
def State.peekNode (s : State) (k : PoolCtx) (i : Nat) : Option (List Byte) :=
  match s.homeRead { k.who with kind := 5 } (k.pool.line i) 64 with
  | (_, .ok b) => some b
  | (_, .error _) => none

/-- Whether a node lies outside the new root's subtree: its chain of parents meets the old root, a node known to be outside,
or its end, before the new root; none where that cannot be told. -/
def outsideOf (s : State) (k : PoolCtx) (b : Nat) (known : List Nat) (n : Nat) : Nat → Option Bool
  | 0 => none
  | f + 1 =>
    if n = b then some false
    else if known.contains n then some true
    else match s.peekNode k n with
      | none => none
      | some x =>
        if nodeParent x = noNode then some true
        else if k.pool.indexOk (nodeParent x) then outsideOf s k b known (nodeParent x) f else none

/-- The nodes to free, in ascending order. -/
def toFree (s : State) (k : PoolCtx) (b old bump : Nat) : List Nat × List Nat :=
  (List.range (min bump k.pool.capacity)).foldl (fun (acc : List Nat × List Nat) i =>
    if i = 0 then acc
    else match s.peekNode k i with
      | none => acc
      | some x =>
        if !flagOn x 15 then acc
        else match outsideOf s k b acc.2 i k.pool.capacity with
          | some true => (acc.1 ++ [i], i :: acc.2)
          | _ => acc) ([], [old])

/-- The runs of the free list up to one that is poisoned or cannot be followed, and that run's index. -/
def freeRuns (s : State) (k : PoolCtx) (cur : Nat) : Nat → List (Nat × Nat) × Nat
  | 0 => ([], cur)
  | f + 1 =>
    if cur = noNode then ([], noNode)
    else if !k.pool.indexOk cur then ([], 0)
    else match s.peekNode k cur with
      | none => ([], cur)
      | some x =>
        let len := fieldAt x 0 4
        let next := fieldAt x 4 4
        if len = 0 ∨ k.pool.capacity < cur + len ∨ (next ≠ noNode ∧ (next ≤ cur ∨ k.pool.capacity ≤ next)) then ([], cur)
        else
          let r := freeRuns s k next f
          ((cur, len) :: r.1, r.2)

/-- Merge one node into a list of runs, joining those it touches (R309, R325). -/
def addRun : List (Nat × Nat) → Nat → List (Nat × Nat)
  | [], i => [(i, 1)]
  | (a, n) :: r, i =>
    if i + 1 < a then (i, 1) :: (a, n) :: r
    else if i + 1 = a then (i, n + 1) :: r
    else if i = a + n then
      match r with
      | (b, m) :: r' => if i + 1 = b then (a, n + 1 + m) :: r' else (a, n + 1) :: r
      | [] => [(a, n + 1)]
    else (a, n) :: addRun r i

/-- Write the headers of a list of runs, the last one leading to `next`. -/
def writeRuns (k : PoolCtx) (next : Nat) : List (Nat × Nat) → TreeM Unit
  | [] => pure ()
  | (a, n) :: r => do
    let b ← readNode k a
    putNode a (setBytes (setBytes b 0 (natLe n 4 ++ natLe ((r.headD (next, 0)).1) 4)) 14 (natLe 0 2))
    writeRuns k next r

/-- A node's bytes as it is freed: its live bit is clear; its other bytes are undefined (R309), free values. -/
def blankNode (k : PoolCtx) (s : State) (i : Nat) : State :=
  let v := s.freshBytes 64 8
  (v.2.homeWrite k.who none (k.pool.line i) (setBytes v.1 14 (natLe 0 2))).1

/-- What the freeing waits for at some of the pool's lines (R57, R91, R94). -/
def freeMeet (s : State) (k : PoolCtx) (l : List Nat) (wr : Bool) : Option State :=
  (l.findSome? (fun i => s.homeMeet k.who 0 (k.pool.line i) wr)).map (fun x => x.1)

/-- Free what lies outside the new root's subtree (R325); the flag is off where an access must wait first. -/
def freeNodes (s : State) (k : PoolCtx) (b old : Nat) : State × Bool :=
  match freeMeet s k [0] false with
  | some s1 => (s1, false)
  | none =>
    match s.peekNode k 0 with
    | none => (s, true)
    | some h =>
      match freeMeet s k (List.range (min (headBump h) k.pool.capacity)) false with
      | some s1 => (s1, false)
      | none =>
        let free := (toFree s k b old (headBump h)).1
        let runs := freeRuns s k (headFree h) (k.pool.capacity + 1)
        let go := if runs.2 = noNode then free else free.filter (fun i => decide (i < runs.2))
        let merged := go.foldl addRun runs.1
        if go.isEmpty then (s, true)
        else
          match freeMeet s k (0 :: go ++ merged.map (fun p => p.1)) true with
          | some s1 => (s1, false)
          | none =>
            ((runTree (go.foldl (blankNode k) s) k (do
              writeRuns k runs.2 merged
              linkRun k 0 (merged.headD (runs.2, 0)).1 : TreeM Unit)).1, true)

/-! ### Pools (R305, R306, R326, R327) -/

def State.poolList (s : State) (h : CoreIx) : List Pool := tget [] s.pools h

/-- The pools that a region has registered. -/
def State.poolsUsed (s : State) (region : Nat) : Nat :=
  (s.pools.map (fun p => p.2.countP (fun q => q.region = region))).sum

/-- Put a pool in the place of another among the registrations of a home core. -/
def State.setPool (s : State) (h : CoreIx) (p q : Pool) : State :=
  { s with pools := tput s.pools h ((s.poolList h).map (fun x => if x = p then q else x)) }

/-- Whether every page of a pool still maps to the frame that it had at TRNEW (R305). -/
def State.poolMapped (s : State) (p : Pool) : Bool :=
  (List.range p.pages).all (fun i =>
    let page := p.base / 65536 + i
    decide ((s.walk p.world page 0).2.map (fun e => (e.piece page).pa) = p.frames[i]?))

/-- The pool as a command finds it: once a page is mapped anew, its contents and results are undefined (R305). -/
def State.poolNow (s : State) (h : CoreIx) (p : Pool) : State × Pool :=
  if p.spoilt || s.poolMapped p then (s, p) else (s.setPool h p { p with spoilt := true }, { p with spoilt := true })

/-- The status of a page of a new pool that cannot be reached (R314, R326). -/
def pageStatus (c : Cause) : Nat := if c = .win then 7 else treeStatus c

/-- The frames of a pool's pages, walked in ascending order, or the status of the first that does not suit (R326). -/
def poolFrames (w : Who) (c : CoreIx) (h : CoreIx) (base : Word) (pages : Nat) (s : State) : State × Except Nat (List Nat) :=
  (List.range pages).foldl (fun (acc : State × Except Nat (List Nat)) i =>
    match acc with
    | (s1, .error e) => (s1, .error e)
    | (s1, .ok l) =>
      let a := base + BitVec.ofNat 64 (65536 * i)
      match s1.walkMeet w (a.toNat / 65536) with
      | some x => (x.1, .error treeWaits)
      | none =>
        match s1.enginePlace c w.slot w.world a 64 true true with
        | (s2, .ok (.glob pa)) =>
          if 2 ^ 40 ≤ pa then (s2, .error 0xB)
          else if s2.pinned.contains (paGroup pa) && decide (s2.homeOf (lineOf pa) = h) then (s2, .ok (l ++ [pa])) else (s2, .error 8)
        | (s2, .ok _) => (s2, .error 7)
        | (s2, .error e) => (s2, .error (pageStatus e))) (s, .ok [])

/-- The maker of a command's accesses (R28, R316). -/
def treeWho (h : CoreIx) (t : Thread) (slot : Nat) : Who :=
  { src := sourceNo 1 h 2, world := t.world, region := t.region, slot := slot, kind := 3, va := none }

/-- The word of an error status. -/
def treeError (status : Nat) : Word := BitVec.ofNat 64 (status * 2 ^ 56)

/-- TRNEW (R326): the header is checked, read and written, the pool registered. -/
def treeNew (s : State) (h : CoreIx) (r : SlotRef) (t : Thread) (base : Word) (pages : Nat) : State × Except Nat Word :=
  let budget := match s.region? t.region with | some g => s.poolsOf g | none => 0
  let w := treeWho h t r.slot
  if pages = 0 ∨ 4096 < pages then (s, .error 7)
  else if (s.poolList h).any (fun p => decide (p.base = base.toNat ∧ p.world = t.world)) then (s, .error 5)
  else if 64 ≤ (s.poolList h).length ∨ budget ≤ s.poolsUsed t.region then (s, .error 3)
  else match poolFrames w r.core h base pages s with
    | (s1, .error e) => (s1, .error e)
    | (s1, .ok frames) =>
      let p : Pool := { base := base.toNat, pages := pages, frames := frames, world := t.world, region := t.region, cpuct := 0,
                        vloss := 0, fpu := 0, alternate := false, freeing := none, spoilt := false }
      let k : PoolCtx := { pool := p, who := w }
      let make : TreeM (List Byte) := do
        let b ← readNode k 0
        treeNeed (decide (fieldAt b 12 2 < 2 ∧ fieldAt b 14 2 = 0)) 7
        putNode 0 (setBytes b 16 (natLe pages 4 ++ natLe 2 4 ++ natLe noNode 4 ++ natLe 1 4))
        putNode 1 (natLe 0 8 ++ natLe 0 6 ++ natLe 0x8000 2 ++ natLe noNode 4 ++ natLe 0 44)
        return b
      match runTree s1 k make with
      | (s2, .error e) => (s2, .error e)
      | (s2, .ok b) =>
        let p' : Pool := { p with
          cpuct := BitVec.ofNat 32 (fieldAt b 0 4), vloss := BitVec.ofNat 32 (fieldAt b 4 4), fpu := BitVec.ofNat 32 (fieldAt b 8 4),
          alternate := decide (fieldAt b 12 2 % 2 = 1) }
        ({ s2 with pools := tput s2.pools h (s2.poolList h ++ [p']) }, .ok (BitVec.ofNat 64 (pages * 2 ^ 32 + 1)))

/-- TRFRE (R327): the pool is unregistered, its header's bytes 16-31 are zeroed. -/
def freePool (s : State) (h : CoreIx) (k : PoolCtx) : State × Except Nat Unit :=
  match runTree s k (do
    let b ← readNode k 0
    putNode 0 (setBytes b 16 (natLe 0 16)) : TreeM Unit) with
  | (s1, .ok ()) => ({ s1 with pools := tput s1.pools h ((s1.poolList h).erase k.pool) }, .ok ())
  | (s1, .error e) => (s1, .error e)

/-! ### Commands (R311, R314, R315) -/

/-- Whether a record is malformed (R311). -/
def treeRecordBad (words : List Word) : Bool :=
  let w0 := words.headD 0
  let code := bitsOf w0 61 56
  let n := if code = 2 then 3 else if code = 3 then 2 else 1
  decide (6 < code ∨ bitsOf w0 63 62 ≠ n ∨ bitsOf w0 55 32 ≠ 0)
    || (decide (code = 3) && decide (bitsOf (words.getD 2 0) 63 32 ≠ 0))
    || (decide (code = 2) && decide (bitsOf (words.getD 3 0) 31 16 ≠ 0 ∨ 4096 < bitsOf (words.getD 3 0) 15 0))
    || (decide (code = 6) && decide (bitsOf w0 31 0 ≠ 0))

/-- The result words that a record has (R315). -/
def treeWords (words : List Word) : Nat :=
  let w0 := words.headD 0
  if bitsOf w0 61 56 = 1 ∧ 1 ≤ bitsOf w0 31 0 ∧ bitsOf w0 31 0 ≤ 16 then bitsOf w0 31 0 else 1

/-- The registered pool that a record names (R306). -/
def State.findPool (s : State) (h : CoreIx) (world : Nat) (base : Word) : Option Pool :=
  (s.poolList h).find? (fun p => decide (p.base = base.toNat ∧ p.world = world))

/-- The descents of a TRDSC, one after another; one that fails writes nothing, and the rest carry its status (R320). -/
def descents (k : PoolCtx) : Nat → TreeM (List Word)
  | 0 => pure []
  | n + 1 => fun c =>
    match oneDescent k c with
    | (.ok w, c1) =>
      match descents k n c1 with
      | (.ok l, c2) => (.ok (w :: l), c2)
      | (.error e, c2) => (.error e, c2)
    | (.error e, c1) => if e = treeWaits then (.error e, c1) else (.ok (List.replicate (n + 1) (treeError e)), { c with s := c1.s })

/-- A result word of a pool: a free one where its results are undefined, but for an error status (R8, R305, R317, R465). -/
def treeWord (spoilt : Bool) (s : State) (w : Word) : Word × State :=
  if spoilt && decide (bitsOf w 63 56 < 3) then s.fresh else (w, s)

def treeResults (spoilt : Bool) (s : State) : List Word → State × List Word
  | [] => (s, [])
  | w :: l =>
    let v := treeWord spoilt s w
    let r := treeResults spoilt v.2 l
    (r.1, v.1 :: r.2)

/-- What the TRRRT of a pool's engine does once the new root stands: the freeing begins (R325). -/
def State.beginFreeing (s : State) (h : CoreIx) (p : Pool) (b old region : Nat) : State :=
  (s.setPool h p { p with freeing := some (b, old, region) }).laterOnce .backgroundFreeing { core := h }

/-- A command on a registered pool: the state it leaves, and its words or the status with which it ends. -/
def poolCommand (s : State) (h : CoreIx) (k : PoolCtx) (c : CoreIx) (words : List Word) : State × Except Nat (List Word) :=
  let w0 := words.headD 0
  let arg := bitsOf w0 31 0
  let one (r : State × Except Nat Word) : State × Except Nat (List Word) := (r.1, r.2.map (fun w => [w]))
  match bitsOf w0 61 56 with
  | 1 => runTree s k (descents k arg)
  | 2 => one (runTree s k (expandLeaf k c arg (words.getD 2 0) (bitsOf (words.getD 3 0) 63 32) (bitsOf (words.getD 3 0) 15 0)))
  | 3 => one (runTree s k (backupLeaf k arg (BitVec.ofNat 32 (bitsOf (words.getD 2 0) 31 0))))
  | 4 => one (runTree s k (pickChild k arg))
  | 5 =>
    match runTree s k (reroot k arg) with
    | (s1, .error e) => (s1, .error e)
    | (s1, .ok (w, old)) => (s1.beginFreeing h k.pool arg old k.who.region, .ok [w])
  | _ => one ((freePool s h k).1, (freePool s h k).2.map (fun _ => 0))

/-- Run a command: the state it leaves and its result words, or the status with which it ends (R311, R320). -/
def treeCommand (s : State) (h : CoreIx) (r : SlotRef) (t : Thread) (x : Record) : State × Except Nat (List Word) :=
  let w0 := x.words.headD 0
  let base := x.words.getD 1 0
  let arg := bitsOf w0 31 0
  if x.fail ≠ 0 then (s, .error x.fail)
  else if treeRecordBad x.words then (s, .error 7)
  else if bitsOf w0 61 56 = 0 then (let p := treeNew s h r t base arg; (p.1, p.2.map (fun w => [w])))
  else if bitsOf w0 61 56 = 1 ∧ (arg = 0 ∨ 16 < arg) then (s, .error 7)
  else
    match s.findPool h t.world base with
    | none => (s, .error 6)
    | some p =>
      let n := s.poolNow h p
      match poolCommand n.1 h { pool := n.2, who := treeWho h t r.slot } r.core x.words with
      | (s1, .error e) => (s1, .error e)
      | (s1, .ok l) => let v := treeResults n.2.spoilt s1 l; (v.1, .ok v.2)

/-- The records present at an engine (R315): arrived, with room in q5 for all their words, their pool not being freed
(R325); earliest first. One that its core has completed needs room for its word alone (R311). -/
def treePresent (s : State) (h : CoreIx) : List (SlotRef × Thread × Record) :=
  let all := (s.cores.map (fun p => p.1)).flatMap (fun c => activeRecords s c 4)
  let room (x : Record) : Nat := if x.fail ≠ 0 then 1 else treeWords x.words
  let idle (x : SlotRef × Thread × Record) : Bool := decide (x.2.2.fail ≠ 0) ||
    (match s.findPool h x.2.1.world (x.2.2.words.getD 1 0) with
      | some p => p.freeing.isNone
      | none => true)
  let mine := all.filter (fun x => decide (x.2.2.home = h) && decide (x.2.1.sluices.q5.length + room x.2.2 ≤ 16) && idle x)
  sortBy (fun (a b : SlotRef × Thread × Record) => !(b.2.2.stamp.before a.2.2.stamp)) mine

/-- Whether an engine's record comes from a slot of another die than its pool's (R121). -/
def treeFar (r : SlotRef) (x : Record) : Bool := decide (dieOf x.home ≠ dieOf r.core)

/-- Post the words of a command to its slot's q5; the trapping form that sealed it learns how it ended (R313, R314). -/
def postTree (s : State) (r : SlotRef) (x : Record) (words : List Word) : State :=
  let bad := words.any (fun w => decide (3 ≤ bitsOf w 63 56))
  s.modThread r (fun t => { t with
    sluices := { t.sluices with q4 := t.sluices.q4.take }.post 5 words (treeFar r x),
    treeWait := if x.traps then t.treeWait.map (fun w => { w with left := 0, error := w.error || bad }) else t.treeWait })

/-- Take a record whose release can complete: its command runs, or waits at a home with nothing done (R57, R76, R118). -/
def takeTree (s : State) (h : CoreIx) (r : SlotRef) (t : Thread) (x : Record) : State :=
  if !s.sealReady r t x (treeFar r x) then s.sealAsk r t x (treeFar r x)
  else
    let p := treeCommand (s.sealDone r t (treeFar r x)) h r t x
    match p.2 with
    | .ok l => (postTree p.1 r x l).checkRegion t.region
    | .error e => if e = treeWaits then p.1 else (postTree p.1 r x [treeError e]).checkRegion t.region

/-- Serve the earliest present record of an engine, if it has the wanted code; ask for the other's event (R315). -/
def treeServe (s : State) (h : CoreIx) (want : Instr) : State :=
  match treePresent s h with
  | [] => s
  | x :: rest =>
    let ev := treeEvent (x.2.2.words.headD 0)
    if ev ≠ want then s.laterOnce ev { core := h }
    else
      let s1 := takeTree s h x.1 x.2.1 x.2.2
      match rest with
      | y :: _ => s1.laterOnce (treeEvent (y.2.2.words.headD 0)) { core := h }
      | [] => s1

/-- TREE_CMD_NEW (R326). -/
def execTreeCmdNew (s : State) : Host.Outcome State Fault Refusal := .next (treeServe s s.arg.core .treeCmdNew)

/-- TREE_CMD_DESCENT (R319, R320). -/
def execTreeCmdDescent (s : State) : Host.Outcome State Fault Refusal := .next (treeServe s s.arg.core .treeCmdDescent)

/-- TREE_CMD_EXPAND (R321). -/
def execTreeCmdExpand (s : State) : Host.Outcome State Fault Refusal := .next (treeServe s s.arg.core .treeCmdExpand)

/-- TREE_CMD_BACKUP (R323). -/
def execTreeCmdBackup (s : State) : Host.Outcome State Fault Refusal := .next (treeServe s s.arg.core .treeCmdBackup)

/-- TREE_CMD_PICK (R324). -/
def execTreeCmdPick (s : State) : Host.Outcome State Fault Refusal := .next (treeServe s s.arg.core .treeCmdPick)

/-- TREE_CMD_REROOT (R325). -/
def execTreeCmdReroot (s : State) : Host.Outcome State Fault Refusal := .next (treeServe s s.arg.core .treeCmdReroot)

/-- TREE_CMD_FREE (R327). -/
def execTreeCmdFree (s : State) : Host.Outcome State Fault Refusal := .next (treeServe s s.arg.core .treeCmdFree)

/-- The maker of the freeing's accesses (R28, R316). -/
def freeWho (h : CoreIx) (world region : Nat) : Who :=
  { src := sourceNo 1 h 2, world := world, region := region, slot := 0, kind := 3, va := none }

/-- BACKGROUND_FREEING: the freeing of one pool is done, with the owner tag of the TRRRT that began it (R316, R325). -/
def execBackgroundFreeing (s : State) : Host.Outcome State Fault Refusal :=
  let h := s.arg.core
  match (s.poolList h).findSome? (fun p => p.freeing.map (fun f => (p, f))) with
  | none => .next s
  | some (p0, b, old, region) =>
    let n := s.poolNow h p0
    match freeNodes n.1 { pool := n.2, who := freeWho h p0.world region } b old with
    | (s1, false) => .next s1
    | (s1, true) =>
      let s2 : State := s1.setPool h n.2 { n.2 with freeing := none }
      .next (match treePresent s2 h with
        | x :: _ => s2.laterOnce (treeEvent (x.2.2.words.headD 0)) { core := h }
        | [] => s2)

/-- Free one pool of a region that completes, as TRFRE does (R306, R327); none of it where an access must wait. -/
def State.dropPool (s : State) (h : CoreIx) (p : Pool) : State :=
  let k : PoolCtx := { pool := p, who := freeWho h p.world p.region }
  let done : State × Bool := match p.freeing with
    | some (b, old, region) => freeNodes s { pool := p, who := freeWho h p.world region } b old
    | none => (s, true)
  if !done.2 then done.1
  else
    match freePool done.1 h k with
    | (s1, .error e) => if e = treeWaits then s1 else { s1 with pools := tput s1.pools h ((s1.poolList h).erase p) }
    | (s1, .ok ()) => s1

/-- The pools that a region still has registered. -/
def State.regionPools (s : State) (region : Nat) : List (CoreIx × Pool) :=
  s.pools.flatMap (fun q => (q.2.filter (fun p => p.region = region)).map (fun p => (q.1, p)))

/-- A region that completes has its pools freed (R306). -/
def State.freePools (s : State) (region : Nat) : State :=
  (s.regionPools region).foldl (fun s q => s.dropPool q.1 q.2) s

/-! ### The tree instructions (R310, R312, R313) -/

/-- The checks on a pool base (R312), and its physical address. -/
def treeBase (r : SlotRef) (t : Thread) (a : Word) : Run Nat := do
  needR (decide (windowOf a = 0 ∧ bitsOf a 55 52 = 0)) .win a
  needR (decide (bitsOf a 15 0 = 0)) .align a
  let pa ← liftE (translate (← get) r t a true true)
  needR (decide (pa < 2 ^ 40)) .prot a
  modifyS (fun s => s.usedTlb r t a)
  return pa

/-- The words of a TRXPD's shape (R312): its base and its extent, checked. -/
def treeShape (sh : Shape) : Run (Word × Nat) := do
  needR (decide (windowOf sh.w0 = 0 ∧ bitsOf sh.w0 55 52 = 0 ∧ sh.ext 1 = 1 ∧ sh.ext 2 = 1 ∧ sh.ext 3 = 1 ∧ sh.ext 0 ≤ 4096)) .win sh.w0
  needR (decide (bitsOf sh.w0 1 0 = 0)) .align sh.w0
  return (sh.w0, sh.ext 0)

/-- Finish a trapping form whose command has ended: POOL after it when a result word carries an error, else the acquire of
the command's writes (R313). -/
def treeEnd (t : Thread) (w : TreeWait) (reads : List Reg) (marked : List (Bool × Reg)) : Run Unit := do
  let r := (← get).cur
  stopIf (decide (w.left ≠ 0)) (.park .tree)
  let t1 : Thread := { t with treeWait := none }
  if w.error then
    stopIf (!t.cq.isEmpty) (.park .computeQueue)
    modifyS (fun s => (s.setThread r (marked.foldl (fun t p => t.mark p.1 p.2) t1)).takePorts r.core reads)
    throw (.trap .pool w.base)
  else
    acquireR r t w.wide
    retireR t1 reads marked none

/-- A tree instruction: it builds its record, seals it into q4, and retires or waits (R310-R313). -/
def treeForm (trapping : Bool) (code : Nat) (d : Option Reg) (a : Reg) (b : Option Reg) (sh : Option (Fin 16)) (marked : List (Bool × Reg))
    (s : State) : Host.Outcome State Fault Refusal :=
  issueRun s 4 fun t => do
    let r := s.cur
    let reads := a :: b.toList ++ d.toList
    match t.treeWait with
    | some w => treeEnd t w reads marked
    | none =>
      let x ← liftE (readReg s t [] a)
      let y ← match b with
        | some b => liftE (readReg s t [a] b)
        | none => pure 0
      let z ← match d with
        | some d => liftE (readReg s t (a :: b.toList) d)
        | none => pure 0
      let pa ← treeBase r t x
      let k ← match sh with
        | some n => treeShape t.shapes[n]
        | none => pure (0, 0)
      let o := t.sluices.q4
      stopIf o.full (.park (.sluiceFull 4))
      needR (!o.partly) .prot 0
      let arg := if code = 2 ∨ code = 3 then (if code = 2 then bitsOf z 31 0 else bitsOf y 31 0) else bitsOf y 31 0
      let head := BitVec.ofNat 64 ((if code = 2 then 3 else if code = 3 then 2 else 1) * 2 ^ 62 + code * 2 ^ 56 + (if code = 6 then 0 else arg))
      let words := if code = 2 then [head, x, k.1, BitVec.ofNat 64 (bitsOf z 63 32 * 2 ^ 32 + k.2)]
        else if code = 3 then [head, x, BitVec.ofNat 64 (bitsOf z 31 0)] else [head, x]
      let home := s.homeOf (lineOf pa)
      sealRecord r 4 { words := words, sealed := none, home := home, traps := trapping }
      let t1 := ((← get).thread? r).getD t
      if trapping then
        modifyS (fun s => s.setThread r { t1 with
          treeWait := some { base := x, error := false, left := treeWords words, wide := decide (dieOf home ≠ dieOf r.core) },
          parked := some .tree, unissued := false })
      else retireR t1 reads marked none

/-- TRNEW (R310). -/
def execTrnew (a b : Reg) (m : Marks) (s : State) : Host.Outcome State Fault Refusal := treeForm true 0 none a (some b) none (markAB m a b) s

/-- TRDSC (R310). -/
def execTrdsc (a b : Reg) (m : Marks) (s : State) : Host.Outcome State Fault Refusal := treeForm true 1 none a (some b) none (markAB m a b) s

/-- TRXPD (R310). -/
def execTrxpd (d a : Reg) (n : Fin 16) (ma : Bool) (s : State) : Host.Outcome State Fault Refusal :=
  treeForm true 2 (some d) a none (some n) [(ma, a)] s

/-- TRBCK (R310). -/
def execTrbck (d a b : Reg) (m : Marks) (s : State) : Host.Outcome State Fault Refusal := treeForm true 3 (some d) a (some b) none (markAB m a b) s

/-- TRPIK (R310). -/
def execTrpik (a b : Reg) (m : Marks) (s : State) : Host.Outcome State Fault Refusal := treeForm true 4 none a (some b) none (markAB m a b) s

/-- TRRRT (R310). -/
def execTrrrt (a b : Reg) (m : Marks) (s : State) : Host.Outcome State Fault Refusal := treeForm true 5 none a (some b) none (markAB m a b) s

/-- TRFRE (R310). -/
def execTrfre (a : Reg) (ma : Bool) (s : State) : Host.Outcome State Fault Refusal := treeForm true 6 none a none none [(ma, a)] s

/-- TRNEW.F (R310). -/
def execTrnewF (a b : Reg) (m : Marks) (s : State) : Host.Outcome State Fault Refusal := treeForm false 0 none a (some b) none (markAB m a b) s

/-- TRDSC.F (R310). -/
def execTrdscF (a b : Reg) (m : Marks) (s : State) : Host.Outcome State Fault Refusal := treeForm false 1 none a (some b) none (markAB m a b) s

/-- TRXPD.F (R310). -/
def execTrxpdF (d a : Reg) (n : Fin 16) (ma : Bool) (s : State) : Host.Outcome State Fault Refusal :=
  treeForm false 2 (some d) a none (some n) [(ma, a)] s

/-- TRBCK.F (R310). -/
def execTrbckF (d a b : Reg) (m : Marks) (s : State) : Host.Outcome State Fault Refusal := treeForm false 3 (some d) a (some b) none (markAB m a b) s

/-- TRPIK.F (R310). -/
def execTrpikF (a b : Reg) (m : Marks) (s : State) : Host.Outcome State Fault Refusal := treeForm false 4 none a (some b) none (markAB m a b) s

/-- TRRRT.F (R310). -/
def execTrrrtF (a b : Reg) (m : Marks) (s : State) : Host.Outcome State Fault Refusal := treeForm false 5 none a (some b) none (markAB m a b) s

/-- TRFRE.F (R310). -/
def execTrfreF (a : Reg) (ma : Bool) (s : State) : Host.Outcome State Fault Refusal := treeForm false 6 none a none none [(ma, a)] s

end Sys2Proof.Machine
end

