-- ==== Sys2Proof/Machine/Launch.lean ====
section
/-!
DEFINITION. The headgate: region control blocks (R329-R331), containers (R402-R404), launches and their seven steps
(R332, R333, R339), the translation cache (R405-R409), the boot tree (R334), initial threads (R335), completion
(R336-R338), handler threads (R416, R417), interrupts of host functions (R458).
-/

namespace Sys2Proof.Machine

/-- The refusal statuses of R333. -/
def stBudget : Nat := 0x01
def stPlace : Nat := 0x02
def stParent : Nat := 0x07
def stTokens : Nat := 0x08
def stXlate : Nat := 0x09
def stMode : Nat := 0x0A
def stFormat : Nat := 0x0B

/-- A check of a step of R333. -/
def check (b : Bool) (status : Nat) : Except Nat Unit := if b then .ok () else .error status

/-! ### Containers (R402-R404) -/

/-- A section of a container: type, role index, offset, length. -/
structure Section where
  kind : Nat
  role : Nat
  off  : Nat
  len  : Nat
  deriving DecidableEq, Repr

/-- The sections of a container, in directory order. -/
def sectionsOf (blob : List Byte) : List Section :=
  (List.range (fieldAt blob 6 2)).map (fun i =>
    let o := 128 + 16 * i
    { kind := fieldAt blob o 2, role := fieldAt blob (o + 2) 2, off := fieldAt blob (o + 8) 4, len := fieldAt blob (o + 12) 4 })

/-- The bytes of a section. -/
def sectionBytes (blob : List Byte) (x : Section) : List Byte := bytesAt blob x.off x.len

/-- Whether a type of section appears at most once (R403). -/
def onceKind (k : Nat) : Bool := decide (k = 6 ∨ k = 7 ∨ k = 10 ∨ k = 11)

/-- The section of a type for a role; of a type that appears once, whatever its role field. -/
def findSection (blob : List Byte) (kind role : Nat) : Option Section :=
  (sectionsOf blob).find? (fun x => decide (x.kind = kind) && (onceKind kind || decide (x.role = role)))

/-- Whether a section appears again after itself against R403. -/
def repeated : List Section → Bool
  | [] => false
  | x :: r => r.any (fun y => decide (y.kind = x.kind) && (onceKind x.kind || decide (y.role = x.role))) || repeated r

/-- A role record (R404). -/
structure RoleRecord where
  role    : Nat
  trans   : Nat
  meter   : Nat
  outcap  : Nat
  markcap : Nat
  boot    : Nat
  entry   : Nat
  deriving DecidableEq, Repr

def roleRecord (b : List Byte) : RoleRecord :=
  { role := fieldAt b 0 2, trans := fieldAt b 2 2, meter := fieldAt b 4 4, outcap := fieldAt b 8 4, markcap := fieldAt b 12 4,
    boot := fieldAt b 16 4, entry := fieldAt b 20 4 }

/-- The role records of a container, in role order (R405). -/
def roleRecords (blob : List Byte) : List RoleRecord :=
  sortBy (fun x y => decide (x.role ≤ y.role))
    (((sectionsOf blob).filter (fun x => x.kind = 1)).map (fun x => roleRecord (sectionBytes blob x)))

/-- Whether a section's content breaks its layout or its limit (R390, R403, R404; log entry 22). The digest of a section that the headgate
cannot read, one of `dark`, is not compared. -/
def sectionBad (blob : List Byte) (dark : List Section) (x : Section) : Bool :=
  let b := sectionBytes blob x
  match x.kind with
  | 1 =>
    let k := roleRecord b
    decide (x.len ≠ 32 ∨ fieldAt b 24 8 ≠ 0 ∨ k.role ≠ x.role) ||
      (decide (k.trans ≠ 0xFFFF) && decide (k.outcap = 0 ∨ 3145728 < k.outcap ∨ 65536 < k.markcap))
  | 2 => decide (2 ^ 30 < x.len)
  | 3 => decide (2 ^ 20 < x.len)
  | 4 => decide (x.len < 16)
  | 5 => decide (x.len < 4)
  | 7 => decide (x.len % 16 ≠ 0) || (List.range (x.len / 16)).any (fun i => decide (fieldAt b (16 * i + 10) 6 ≠ 0))
  | 8 => decide (x.len ≠ 8)
  | 9 => decide (x.len ≠ 2)
  | 10 => decide (x.len < 16 ∨ x.len ≠ 16 + 32 * fieldAt b 0 4)
  | 11 =>
    let others := (sectionsOf blob).filter (fun y => y.kind ≠ 11)
    decide (x.len ≠ 64 * others.length) ||
      (others.zip (List.range others.length)).any (fun p =>
        !dark.contains p.1 && decide (bytesAt b (64 * p.2) 64 ≠ shake256 (sectionBytes blob p.1) 64))
  | _ => false

/-- Whether step 1 refuses a container with FORMAT (R402). -/
def containerBad (blob : List Byte) (dark : List Section) : Bool :=
  let l := sectionsOf blob
  let length := fieldAt blob 24 8
  decide (fieldAt blob 0 4 ≠ 0x4955434F ∨ fieldAt blob 4 2 ≠ 1) || !allZero (bytesAt blob 64 64)
    || decide (length < 128 + 16 * fieldAt blob 6 2)
    || (List.range (fieldAt blob 6 2)).any (fun i => decide (fieldAt blob (128 + 16 * i + 4) 4 ≠ 0))
    || l.any (fun x => decide (length < x.off + x.len) || decide (x.kind = 0 ∨ 11 < x.kind))
    || repeated l || l.any (fun x => sectionBad blob dark x)

/-- A placement-table entry (R403): role; die, cluster, core and slot ranges. -/
structure PlaceEntry where
  role : Nat
  dieLo : Nat
  dieHi : Nat
  clusterLo : Nat
  clusterHi : Nat
  coreLo : Nat
  coreHi : Nat
  slotLo : Nat
  slotHi : Nat
  deriving DecidableEq, Repr

/-- The placement table of a container. -/
def placeTable (blob : List Byte) : List PlaceEntry :=
  match findSection blob 7 0 with
  | none => []
  | some x =>
    let b := sectionBytes blob x
    (List.range (x.len / 16)).map (fun i =>
      let f (j : Nat) : Nat := fieldAt b (16 * i + j) 1
      { role := fieldAt b (16 * i) 2, dieLo := f 2, dieHi := f 3, clusterLo := f 4, clusterHi := f 5, coreLo := f 6, coreHi := f 7,
        slotLo := f 8, slotHi := f 9 })

/-- The numbers of a range lo-hi. -/
def rangeOf (lo hi : Nat) : List Nat := (List.range (hi + 1 - lo)).map (fun i => lo + i)

/-- The cores of a placement-table entry, in boot-tree order (R334). -/
def PlaceEntry.cores (e : PlaceEntry) : List CoreIx :=
  (rangeOf e.dieLo e.dieHi).flatMap (fun d => (rangeOf e.clusterLo e.clusterHi).flatMap (fun k =>
    (rangeOf e.coreLo e.coreHi).map (fun c => coreIx d k c)))

/-- The slots of a placement-table entry. -/
def PlaceEntry.slots (e : PlaceEntry) : List SlotRef :=
  e.cores.flatMap (fun c => (rangeOf e.slotLo e.slotHi).map (fun n => ({ core := c, slot := n } : SlotRef)))

/-! ### Region control blocks (R329) -/

/-- Whether a field of a block inherits: its every bit is 1. -/
def inherits (blk : List Byte) (o n : Nat) : Bool := decide (fieldAt blk o n = 256 ^ n - 1)

/-- The fields that can inherit: offset and length. World, parent and id name the region itself. -/
def inheritable : List (Nat × Nat) :=
  [(17, 1), (18, 1), (20, 1), (24, 8), (32, 8), (40, 8), (48, 8), (56, 4), (60, 2), (62, 2), (64, 8), (72, 8), (80, 8), (88, 4),
   (96, 8), (104, 8), (112, 8)]

/-- Whether a block has a field that inherits, policy 0 or mode bit 7. -/
def blockInherits (blk : List Byte) : Bool :=
  inheritable.any (fun p => inherits blk p.1 p.2) || decide (fieldAt blk 20 1 = 0) || decide (128 ≤ fieldAt blk 19 1)

/-- Whether a block has a zero field set, or a value out of its field's range (log entry 22). -/
def blockBad (blk : List Byte) : Bool :=
  decide (fieldAt blk 4 4 ≠ 0 ∨ fieldAt blk 21 3 ≠ 0 ∨ fieldAt blk 92 4 ≠ 0 ∨ fieldAt blk 120 8 ≠ 0) || !allZero (bytesAt blk 192 64)
    || (decide (fieldAt blk 19 1 / 8 % 16 ≠ 0) && !inherits blk 19 1)
    || (decide (15 < fieldAt blk 17 1) && !inherits blk 17 1) || (decide (15 < fieldAt blk 18 1) && !inherits blk 18 1)
    || (decide (3 < fieldAt blk 20 1) && !inherits blk 20 1) || (decide (64 < fieldAt blk 88 4) && !inherits blk 88 4)
    || (decide (fieldAt blk 37 3 ≠ 0) && !inherits blk 32 8)

/-- The region of a block with its inherited fields resolved (R329), for a launch record. -/
def resolveBlock (blk rec_ : List Byte) (p : Option Region) (fn : Nat) : Region :=
  let own (o n : Nat) (parents : Region → Nat) : Nat :=
    match p with
    | some q => if inherits blk o n then parents q else fieldAt blk o n
    | none => fieldAt blk o n
  let byte (o : Nat) (parents : Region → Nat) : Nat :=
    match p with
    | some q => if inherits blk 48 8 then parents q else fieldAt blk o 1
    | none => fieldAt blk o 1
  let mode (k : Nat) (parents : Region → Bool) : Bool :=
    match p with
    | some q => if 128 ≤ fieldAt blk 19 1 then parents q else decide (fieldAt blk 19 1 / 2 ^ k % 2 = 1)
    | none => decide (fieldAt blk 19 1 / 2 ^ k % 2 = 1)
  { id := 0, rcb := fieldAt rec_ 0 8, parent := p.map (fun q => q.id), world := fieldAt blk 16 1,
    polder := own 17 1 (fun q => q.polder), priority := own 18 1 (fun q => q.priority),
    travelling := mode 0 (fun q => q.travelling), hazard := mode 1 (fun q => q.hazard), privateL2 := mode 2 (fun q => q.privateL2),
    policy := match p with
      | some q => if fieldAt blk 20 1 = 0 ∨ fieldAt blk 20 1 = 255 then q.policy else fieldAt blk 20 1
      | none => fieldAt blk 20 1,
    handler := own 24 8 (fun q => q.handler), supervisor := own 32 8 (fun q => q.supervisor), wdog := own 40 8 (fun q => q.wdog),
    dieLo := byte 48 (fun q => q.dieLo), dieHi := byte 49 (fun q => q.dieHi), clusterLo := byte 50 (fun q => q.clusterLo),
    clusterHi := byte 51 (fun q => q.clusterHi), coreLo := byte 52 (fun q => q.coreLo), coreHi := byte 53 (fun q => q.coreHi),
    slotLo := byte 54 (fun q => q.slotLo), slotHi := byte 55 (fun q => q.slotHi),
    slots := own 56 4 (fun q => q.slots), pools := own 60 2 (fun q => q.pools), tokens := own 62 2 (fun q => q.tokens),
    container := own 64 8 (fun q => q.container), completion := BitVec.ofNat 64 (own 72 8 (fun q => q.completion.toNat)), fn := fn,
    deps := own 80 8 (fun q => q.deps), ndeps := own 88 4 (fun q => q.ndeps), seed := BitVec.ofNat 64 (own 96 8 (fun q => q.seed.toNat)),
    spillNo := 0, ringSpoilt := false, shown := (0, 0, 0), spill := own 104 8 (fun q => q.spill), spillsz := own 112 8 (fun q => q.spillsz), tag := BitVec.ofNat 64 (fieldAt rec_ 48 8),
    args := (List.range 4).map (fun i => BitVec.ofNat 64 (fieldAt rec_ (16 + 8 * i) 8)),
    cores := [], roles := [], segs := [], ringOff := 0, ringCap := 0, rings := 0, ringCores := [], dataVa := 0, starting := [],
    forward := [], flight := 0, terminated := false, msgs := [] }

/-- The bytes 0-127 of a block as the headgate leaves them at admission. -/
def blockBytes (g : Region) (parentVa : Nat) : List Byte :=
  natLe g.id 4 ++ natLe 0 4 ++ natLe parentVa 8 ++ natLe g.world 1 ++ natLe g.polder 1 ++ natLe g.priority 1
    ++ natLe ((if g.travelling then 1 else 0) + (if g.hazard then 2 else 0) + (if g.privateL2 then 4 else 0)) 1
    ++ natLe g.policy 1 ++ natLe 0 3 ++ natLe g.handler 8 ++ natLe g.supervisor 8 ++ natLe g.wdog 8
    ++ [g.dieLo, g.dieHi, g.clusterLo, g.clusterHi, g.coreLo, g.coreHi, g.slotLo, g.slotHi].flatMap (fun x => natLe x 1)
    ++ natLe g.slots 4 ++ natLe g.pools 2 ++ natLe g.tokens 2 ++ natLe g.container 8 ++ natLe g.completion.toNat 8
    ++ natLe g.deps 8 ++ natLe g.ndeps 4 ++ natLe 0 4 ++ natLe g.seed.toNat 8 ++ natLe g.spill 8 ++ natLe g.spillsz 8 ++ natLe 0 8

/-- What the state bytes of a live region's block are to show: live threads, queued tasks, live child regions (R329). -/
def State.counts (s : State) (id : Nat) : Nat × Nat × Nat :=
  (s.liveThreads id, s.queuedTasks id, s.regions.countP (fun g => g.parent = some id))

/-- Bytes 128-191 of a live region's block (R329). -/
def State.blockState (s : State) (id : Nat) : List Byte :=
  let n := s.counts id
  natLe n.1 4 ++ natLe n.2.1 4 ++ natLe n.2.2 2 ++ List.replicate 54 0

/-- Write the state bytes of a region's block. -/
def State.writeState (s : State) (id : Nat) : State :=
  match s.region? id with
  | some g => (s.headWrite g.world (g.rcb + 128) (s.blockState id)).1.modRegion id (fun q => { q with shown := s.counts id })
  | none => s

/-- The headgate brings the state bytes of every live region up to date (R329; log entry 55); a write that has to wait is made later. -/
def State.showCounts (s : State) : State :=
  s.regions.foldl (fun s g => if g.shown = s.counts g.id then s else s.whole (fun s => s.writeState g.id) (fun s => s)) s

/-! ### Records, replies and interrupts -/

/-- The 32 bytes of a completion record (R338). -/
def completionBytes (st : Stamp) (region status : Nat) (tag : Word) : List Byte :=
  st.bytes ++ natLe region 3 ++ natLe status 1 ++ natLe 0 4 ++ natLe tag.toNat 8

/-- Raise an MSI-X vector of a function with the stamp of its completion record: delivered while the function runs, else
pending (R458). -/
def State.raiseVector (s : State) (fn vector : Nat) (st : Stamp) : State :=
  let f := tget HostFn.reset s.fns fn
  if fn = 0 ∨ f.state = 0 then s.emit (.interrupt fn vector st)
  else { s with fns := tput s.fns fn { f with pending := f.pending.filter (fun p => p.1 ≠ vector) ++ [(vector, st)] } }

/-- Answer LAUNCH with a status (R339). -/
def State.replyLaunch (s : State) (q : LaunchReq) (status : Nat) : State :=
  match q.slot with
  | some (r, d) => s.deliverResult r q.tid d (BitVec.ofNat 64 status) 0 headSource
  | none => s

/-- The headgate goes on to the next launch that waits. -/
def State.nextLaunch (s : State) : State :=
  let s1 : State := { s with admitting := none }
  if s1.launches.isEmpty then s1 else s1.laterOnce .launchAdmission {}

/-- REFUSE a launch (R333): the completion record, where a block that can be read gives its address; the reply; nothing else. -/
def State.refuseLaunch (s : State) (q : LaunchReq) (completion : Option Word) (status : Nat) : State :=
  let s1 : State := match completion with
    | some a =>
      let x := s.mint headSource
      (x.2.headWrite (fieldAt q.record 8 1) (a.toNat % 2 ^ 52)
        (completionBytes x.1 0 status (BitVec.ofNat 64 (fieldAt q.record 48 8)))).1
    | none => s
  (s1.replyLaunch q status).nextLaunch

/-! ### Steps 1 to 4 (R333) -/

/-- The live region whose block lies at an address of a world. -/
def State.regionAt (s : State) (world va : Nat) : Option Region :=
  s.regions.find? (fun g => decide (g.world = world ∧ g.rcb = va))

/-- Whether a launch comes from world 0 as far as a root region goes (R333): from physical function 0 or a function bound to
world 0; never from LAUNCH. -/
def fromWorld0 (q : LaunchReq) : Bool := q.slot.isNone && decide (q.world = 0) && q.fn.isSome

/-- Step 2: the parent (R331, R333, R339, R444, R456). -/
def step2 (s : State) (q : LaunchReq) (blk : List Byte) (p : Option Region) : Except Nat Unit := do
  let world := fieldAt blk 16 1
  check (match s.destroying with | some d => decide (d.1 ≠ world) | none => true) stParent
  check (match q.fn with | some k => decide (k = 0 ∨ q.world = world) | none => decide (q.world = world)) stParent
  match p with
  | none =>
    check (decide (fieldAt blk 8 8 = 0) && fromWorld0 q && (tget Key.none s.keys world).live) stParent
    check (decide (fieldAt blk 32 8 = 0)) stParent
  | some g =>
    check (q.fn.isSome || s.isWithin g.id q.region) stParent
    check (inherits blk 17 1 || decide (fieldAt blk 17 1 = g.polder) || (decide (g.parent = none) && decide (g.world = 0))) stParent
    let sup := fieldAt blk 32 8
    check (decide (sup = 0) || inherits blk 32 8 || (match s.threadById sup with
      | some x => decide (x.2.world = world) && s.isWithin g.id x.2.region
      | none => false)) stParent

/-- Step 3: the budgets fit the parent's free amounts (R330). -/
def step3 (s : State) (g : Region) (p : Option Region) : Except Nat Unit := do
  match p with
  | none => .ok ()
  | some u =>
    check (decide (g.slots + s.liveThreads u.id ≤ s.slotsOf u ∧ g.pools + s.poolsUsed u.id ≤ s.poolsOf u)) stBudget
    check (decide (g.tokens + s.heavyInUse u.id ≤ s.tokensOf u)) stTokens

/-- Step 4: the L2 mode of every placed die, and a segment map for a region that travels (R101, R333, R365). -/
def step4 (s : State) (g : Region) (blob : List Byte) : Except Nat Unit := do
  check ((placeTable blob).all (fun e => (rangeOf e.dieLo e.dieHi).all (fun d => s.privateMode d == g.privateL2))) stMode
  check (!g.travelling || (findSection blob 10 0).isSome) stMode

/-! ### The translation cache and step 5 (R405-R409) -/

def cacheArea : Nat := cacheBase + 0x4000
def cacheAreaBytes : Nat := 0xE00000 - 0x4000

/-- Whether every page of some bytes of a world is mapped to memory with given permissions (R47); the tables are read anew. -/
def State.pagesGrant (s : State) (world va n : Nat) (ok : TlbEntry → Bool) : State × Bool :=
  let pages := rangeOf (va / 65536) ((va + n - 1) / 65536)
  let w := agentWho headSource 3 world va
  if s.stall.isSome then (s, false)
  else
    match (if s.calm then none else pages.findSome? (s.walkMeet w)) with
    | some x => ({ s with stall := some (w, x.2) }, false)
    | none => (s, pages.all (fun page =>
        match (s.walk world page 0).2 with
        | some e => ok e && decide ((e.piece page).pa < 2 ^ 40)
        | none => false))

/-- What the reading of a native image needs of its pages (R47). -/
def imageGrant (e : TlbEntry) : Bool := e.r && e.x

/-- The headgate reads a native image; none where a page lacks R or X, or the read fails (R47). -/
def State.imageRead (s : State) (world va n : Nat) : State × Option (List Byte) :=
  match s.pagesGrant world va n imageGrant with
  | (s1, false) => (s1, none)
  | (s1, true) => s1.headRead world va n

/-- Bytes put into a list at an offset. -/
def patch (l : List Byte) (o : Nat) (b : List Byte) : List Byte :=
  (l ++ List.replicate (o - l.length) 0).take o ++ b ++ l.drop (o + b.length)

/-- READ a container at step 1: its header, its directory, its sections. A section of native code that cannot be read as an image is left
out, its bytes as zeros, and named: it refuses the launch at step 5 if a role needs it (R47, R402). None where another read fails. -/
def State.readContainer (s : State) (world base : Nat) : State × Option (List Byte × List Section) :=
  match s.headRead world base 128 with
  | (s1, none) => (s1, none)
  | (s1, some h) =>
    match s1.headRead world base (128 + 16 * fieldAt h 6 2) with
    | (s2, none) => (s2, none)
    | (s2, some d) =>
      (sectionsOf d).foldl (fun (acc : State × Option (List Byte × List Section)) x =>
        match acc with
        | (s, none) => (s, none)
        | (s, some (blob, dark)) =>
          if fieldAt h 24 8 < x.off + x.len ∨ x.len = 0 then (s, some (blob, dark))
          else
            match (if x.kind = 4 then s.imageRead world (base + x.off) x.len else s.headRead world (base + x.off) x.len) with
            | (s1, some b) => (s1, some (patch blob x.off b, dark))
            | (s1, none) => (s1, if x.kind = 4 then some (blob, dark ++ [x]) else none)) (s2, some (d, []))

/-- Whether a world maps its cache (R407). -/
def State.cacheMapped (s : State) (world : Nat) : State × Bool := s.pagesGrant world cacheBase 0xE00000 (fun e => e.r && e.w && e.x)

/-- The headgate reads a translation cache; what stands in one into which its world has stored is undefined (R408). -/
def State.cacheRead (s : State) (world va n : Nat) : State × Option (List Byte) :=
  if s.cacheSpoilt.contains world then (let x := s.freshBytes n n; (x.2, some x.1)) else s.headRead world va n

/-- A directory entry of the cache (R407). -/
structure CacheEntry where
  no     : Nat
  digest : List Byte
  used   : Nat
  off    : Nat
  len    : Nat
  marks  : Nat
  meter  : Nat
  entry  : Nat
  deriving DecidableEq, Repr

/-- The valid entries of a cache directory. -/
def cacheEntries (b : List Byte) : List CacheEntry :=
  (List.range 256).filterMap (fun i =>
    let f (o n : Nat) : Nat := fieldAt b (64 * i + o) n
    if f 60 1 % 2 = 1 then
      some { no := i, digest := bytesAt b (64 * i) 32, used := f 32 8, off := f 40 4, len := f 44 4, marks := f 48 4, meter := f 52 4,
             entry := f 56 4 }
    else none)

/-- The digest of a role (R406). -/
def roleDigest (trans priv : List Byte) : List Byte :=
  shake256 (natLe trans.length 8 ++ trans ++ natLe priv.length 8 ++ priv ++ nativeIdentity) 32

/-- The first place where `n` bytes fit between the entries of the area, at a multiple of 64 (R408; log entry 22). -/
def firstFit (l : List CacheEntry) (n : Nat) : Option Nat :=
  let ends := l.map (fun e => (e.off + e.len + 8 * e.marks + 63) / 64 * 64)
  let fits (o : Nat) : Bool := decide (o + n ≤ cacheAreaBytes) && l.all (fun e => decide (o + n ≤ e.off ∨ e.off + e.len + 8 * e.marks ≤ o))
  (sortBy (fun a b => decide (a ≤ b)) (0 :: ends)).find? fits

/-- Evict entries by ascending last use, ties to the lowest index, until the reservation and an entry fit (R408). -/
def makeRoom (s : State) (world : Nat) (l : List CacheEntry) (n : Nat) : Nat → State × Option (Nat × Nat)
  | 0 => (s, none)
  | f + 1 =>
    match firstFit l n, (List.range 256).find? (fun i => !l.any (fun e => e.no = i)) with
    | some o, some i => (s, some (i, o))
    | _, _ =>
      match (sortBy (fun (a b : CacheEntry) => decide (a.used < b.used ∨ (a.used = b.used ∧ a.no ≤ b.no))) l) with
      | [] => (s, none)
      | e :: r => makeRoom (s.headWrite world (cacheBase + 64 * e.no + 60) [0]).1 world r n f

/-- The provenance pairs that follow a cached image. -/
def markPairs (b : List Byte) (n : Nat) : List (Nat × Nat) :=
  (List.range n).map (fun i => (fieldAt b (8 * i) 4, fieldAt b (8 * i + 4) 4))

/-- An image as step 5 finds it: not yet placed. -/
def foundImage (role : Nat) (words : List Word32) (entry : Nat) (meter : Word) (marks : List (Nat × Nat)) : Image :=
  { region := 0, role := role, start := 0, words := words, entry := entry, meter := meter, marks := marks, localLo := 0, localHi := 0,
    claim := 0 }

/-- The segment map of a container (R367): role, start, length, home and replicas of each segment. -/
def segmentMap (blob : List Byte) : List Segment :=
  match findSection blob 10 0 with
  | none => []
  | some x =>
    let b := sectionBytes blob x
    (List.range (fieldAt b 0 4)).map (fun i =>
      let o := 16 + 32 * i
      let core (v : Nat) : CoreIx := coreIx (v / 2 ^ 17 % 16) (v / 2 ^ 11 % 64) (v / 16 % 128)
      let home := core (fieldAt b (o + 8) 4)
      let reps := ((List.range 3).map (fun j => fieldAt b (o + 12 + 4 * j) 4)).filter (fun v => v ≠ 0xFFFFFFFF)
      { start := fieldAt b o 4, len := fieldAt b (o + 4) 4, role := fieldAt b (o + 24) 2, home := home, reps := reps.map core,
        choice := home :: reps.map core })

/-- Whether a role's image covers every segment that the map gives it (R405). -/
def coversMap (blob : List Byte) (m : Image) : Bool :=
  (segmentMap blob).all (fun k => decide (k.role ≠ m.role ∨ k.start + k.len ≤ 4 * m.words.length))

/-- What step 5 leads to: a refusal; the images of every role; a translator that runs, with the launch kept. -/
inductive Found where
  | refuse
  | images (l : List Image)
  | running
  deriving DecidableEq, Repr

/-- Start a translator for a role (R391, R392, R408). -/
def State.startTranslator (s : State) (adm : Admission) (k : RoleRecord) (code priv digest : List Byte) (at_ : Nat × Nat) : State :=
  let e0 : Vector Word32 16 := Vector.replicate 16 0
  let e1 := ((e0.set 1 (BitVec.ofNat 32 priv.length)).set 2 (BitVec.ofNat 32 nativeLength)).set 3 (BitVec.ofNat 32 k.outcap)
  let t : Translator :=
    { e := e1.set 4 (BitVec.ofNat 32 k.role), pc := 0, meter := k.meter, code := wordsOf code, priv := priv, scratch := [], out := [],
      marks := [], outcap := k.outcap, markcap := k.markcap, role := k.role, lastPc := 0, ended := none, entry := 0,
      world := adm.region.world, container := adm.region.container, digest := digest, dirNo := at_.1, area := at_.2 }
  { s with translator := some t, admitting := some adm }

/-- STEP 5 for the roles that are left, in role order (R405). -/
def findImages (s : State) (q : LaunchReq) (g : Region) (blob : List Byte) (done : List Image) : List Nat → State × Found
  | [] => (s, .images done)
  | role :: rest =>
    match (roleRecords blob).find? (fun k => k.role = role) with
    | none => (s, .refuse)
    | some k =>
      let keep (s : State) (m : Image) : State × Found :=
        if coversMap blob m then findImages s q g blob (done ++ [m]) rest else (s, .refuse)
      let native : State × Option (Option (List Byte)) := match findSection blob 4 role with
        | some x => let y := s.imageRead g.world (g.container + x.off) x.len; (y.1, y.2.map some)
        | none => (s, some none)
      match native with
      | (s1, none) => (s1, .refuse)
      | (s, some b) =>
        if (b.getD []).take 16 = nativeIdentity then keep s (foundImage role (wordsOf ((b.getD []).drop 16)) k.entry 0xFFFFFFFF [])
        else
          let trans := ((sectionsOf blob).filter (fun x => x.kind = 3))[k.trans]?
          let code := match trans with | some x => sectionBytes blob x | none => []
          let priv := match findSection blob 2 role with | some x => sectionBytes blob x | none => []
          let digest := roleDigest code priv
          match s.cacheRead g.world cacheBase 0x4000 with
          | (s1, none) => (s1, .refuse)
          | (s1, some dir) =>
            match (cacheEntries dir).find? (fun e => decide (e.digest = digest)) with
            | some e =>
              match s1.cacheRead g.world (cacheArea + e.off) (e.len + 8 * e.marks) with
              | (s2, none) => (s2, .refuse)
              | (s2, some b) =>
                let meter : Nat := if trans.isSome then e.meter else 0xFFFFFFFF
                keep (s2.headWrite g.world (cacheBase + 64 * e.no + 32) (natLe s2.tc 8)).1
                  (foundImage role (wordsOf (b.take e.len)) e.entry (BitVec.ofNat 64 meter) (markPairs (b.drop e.len) e.marks))
            | none =>
              match trans with
              | none => (s1, .refuse)
              | some _ =>
                match makeRoom s1 g.world (cacheEntries dir) (4 * k.outcap + 8 * k.markcap) 257 with
                | (s2, none) => (s2, .refuse)
                | (s2, some at_) =>
                  (s2.startTranslator { req := q, region := g, blob := blob, images := done, left := rest } k code priv digest at_, .running)

/-- STEP 5 (R405, R407): the world's cache must be mapped, whatever the roles need. -/
def step5 (s : State) (q : LaunchReq) (g : Region) (blob : List Byte) : State × Found :=
  match s.cacheMapped g.world with
  | (s1, false) => (s1, .refuse)
  | (s1, true) => findImages s1 q g blob [] ((roleRecords blob).map (fun k => k.role))

/-! ### Step 6 (R333, R356, R361, R368) -/

/-- The local image of a role: its placement offset and its bytes (R403). -/
def localImage (blob : List Byte) (role : Nat) : Nat × List Byte :=
  match findSection blob 5 role with
  | some x => let b := sectionBytes blob x; (fieldAt b 0 4, b.drop 4)
  | none => (0, [])

/-- The claim word and the power declaration of a role (R357, R361, R403). -/
def roleClaim (blob : List Byte) (role : Nat) : Word :=
  match findSection blob 8 role with | some x => BitVec.ofNat 64 (fieldAt (sectionBytes blob x) 0 8) | none => 0
def rolePower (blob : List Byte) (role : Nat) : Nat :=
  match findSection blob 9 role with | some x => fieldAt (sectionBytes blob x) 0 2 | none => 0

/-- Whether an entry lies within the block's placement and the machine. -/
def PlaceEntry.within (e : PlaceEntry) (g : Region) : Bool :=
  decide (g.dieLo ≤ e.dieLo ∧ e.dieHi ≤ g.dieHi ∧ g.clusterLo ≤ e.clusterLo ∧ e.clusterHi ≤ g.clusterHi ∧ g.coreLo ≤ e.coreLo
    ∧ e.coreHi ≤ g.coreHi ∧ g.slotLo ≤ e.slotLo ∧ e.slotHi ≤ g.slotHi ∧ e.dieHi ≤ 15 ∧ e.clusterHi ≤ 63 ∧ e.coreHi ≤ 127 ∧ e.slotHi ≤ 15)

/-- The distinct elements of a list, in order of first appearance. -/
def distinct {α : Type} [BEq α] (l : List α) : List α := l.foldl (fun acc x => if acc.contains x then acc else acc ++ [x]) []

/-- The cores of a region's segment map: home then replicas, entry by entry (R378). -/
def mapCores (segs : List Segment) : List CoreIx := segs.flatMap (fun k => k.home :: k.reps)

/-- Whether a segment map breaks R367 or R368. -/
def mapBad (s : State) (g : Region) (blob : List Byte) : Bool :=
  match findSection blob 10 0 with
  | none => false
  | some x =>
    let b := sectionBytes blob x
    let segs := segmentMap blob
    let cores := mapCores segs
    let fieldBad (v : Nat) : Bool := decide (v % 16 ≠ 0 ∨ 2 ^ 21 ≤ v)
    let zeroSet := (List.range (fieldAt b 0 4)).any (fun i =>
      let o := 16 + 32 * i
      fieldBad (fieldAt b (o + 8) 4) || (List.range 3).any (fun j => let v := fieldAt b (o + 12 + 4 * j) 4; decide (v ≠ 0xFFFFFFFF) && fieldBad v)
        || decide (fieldAt b (o + 26) 6 ≠ 0))
    let shape := segs.any (fun k => decide (k.start % 4 ≠ 0 ∨ k.len % 4 ≠ 0 ∨ k.len < 4 ∨ 16384 < k.len))
    let overlap := (List.range segs.length).any (fun i => (List.range i).any (fun j =>
      match segs[i]?, segs[j]? with
      | some p, some q => decide (p.role = q.role ∧ p.start < q.start + q.len ∧ q.start < p.start + p.len)
      | _, _ => false))
    zeroSet || shape || overlap || decide ((distinct cores).length ≠ cores.length) || cores.any (fun c => !g.places c)
      || cores.any (fun c => (s.core c).pin.isSome || s.regions.any (fun q => (mapCores q.segs).contains c)) || decide (fieldAt b 0 4 = 0 ∨ 65536 < fieldAt b 0 4)
      || decide (fieldAt b 4 4 < 16 ∨ fieldAt b 8 4 < cores.length ∨ fieldAt b 12 4 % 64 ≠ 0)

/-- Whether a local image may be placed on a core: within the polder's banks, over no page that a thread holds, and the check of
R359 still holds (R333, R356). -/
def localFits (s : State) (g : Region) (c : CoreIx) (lo : Nat) (bytes : List Byte) : Bool :=
  if bytes.isEmpty then true
  else
    let hi := lo + bytes.length
    let m : Image := { foundImage 0 [] 0 0 [] with localLo := lo, localHi := hi }
    let s1 : State := s.modCore c (fun k => { k with images := k.images ++ [m] })
    decide (s.polderLo g.polder ≤ lo ∧ hi ≤ s.polderHi g.polder)
      && !(s.polderThreads c g.polder).any (fun x => (runPages x.2).any (fun p => decide (256 * p < hi ∧ lo < 256 * p + 256)))
      && safeCheck (s1.poolFree c g.polder) (s1.parties c g.polder none) 17

/-- What the boot tree brings to core number `j` of its order: for each role placed there, and for the segment pinned there, an
image and the bytes of its local image. -/
def bootItems (g : Region) (blob : List Byte) (images : List Image) (j : Nat) (c : CoreIx) : List (Nat × Image × List Byte) :=
  images.filterMap (fun m =>
    let placed := (placeTable blob).any (fun e => decide (e.role = m.role) && e.cores.contains c)
    let seg := if g.travelling then g.segs.find? (fun k => decide (k.role = m.role) && (k.home :: k.reps).contains c) else none
    if !placed && seg.isNone then none
    else
      let l := if placed then localImage blob m.role else (0, [])
      let words := if !g.travelling then m.words
        else match seg with | some k => (m.words.drop (k.start / 4)).take (k.len / 4) | none => []
      let start := match seg with | some k => k.start | none => 0
      some (j, { m with region := g.id, start := start, words := words, localLo := l.1, localHi := l.1 + l.2.length, claim := roleClaim blob m.role },
        l.2))

/-- The cores of a launch in boot-tree order: those placed, and those of the segment map of a region that travels (R334). -/
def launchCores (g : Region) (blob : List Byte) : List CoreIx :=
  sortBy (fun a b => decide (a ≤ b)) (distinct ((placeTable blob).flatMap (fun e => e.cores) ++ mapCores g.segs))

/-- A region with the segment map of its container, where it travels. -/
def mappedRegion (g : Region) (blob : List Byte) : Region := { g with segs := if g.travelling then segmentMap blob else [] }

/-- Whether the instruction store of every core of a launch has room for the images that it brings (R19, R405; log entry 22). -/
def storesFit (s : State) (g : Region) (blob : List Byte) (images : List Image) : Bool :=
  let g1 := mappedRegion g blob
  (launchCores g1 blob).all (fun c =>
    decide (((bootItems g1 blob images 0 c).map (fun b => 4 * b.2.1.words.length)).sum + s.storeUsed c (fun _ => false) ≤ storeBytes))

/-- STEP 6: placement, then the slot budget, then the tokens (R333, R361, R368, R456, R463). -/
def step6 (s : State) (q : LaunchReq) (g : Region) (blob : List Byte) (images : List Image) : Except Nat Unit := do
  let table := placeTable blob
  let slots := table.flatMap (fun e => e.slots)
  check (table.all (fun e => e.within g)) stPlace
  check (table.all (fun e => images.any (fun m => m.role = e.role))) stPlace
  check (table.all (fun e => (rangeOf e.dieLo e.dieHi).all (fun d => s.ready.getLsbD d))) stPlace
  check (match q.fn with
    | some 0 => true
    | some k => decide ((tget HostFn.reset s.fns k).bound = some (g.polder, g.world))
    | none => true) stPlace
  check (slots.all (fun r => decide (s.polderOf r.slot = g.polder) && s.slotFree r)) stPlace
  check (decide ((distinct slots).length = slots.length)) stPlace
  check (images.all (fun m => let l := localImage blob m.role
    ((table.filter (fun e => e.role = m.role)).flatMap (fun e => e.cores)).all (fun c => localFits s g c l.1 l.2))) stPlace
  check (g.travelling || images.all (fun m => decide (4 * m.words.length ≤ storeBytes))) stPlace
  check (!g.travelling || !mapBad s g blob) stPlace
  check (storesFit s g blob images) stPlace
  check (decide (slots.length ≤ g.slots)) stBudget
  check (decide ((images.map (fun m => rolePower blob m.role)).sum ≤ g.tokens)) stTokens

/-! ### Step 7 (R331, R333, R334, R347) -/

/-- A region id that is free: the counter's, or the next above it. -/
def State.freeRegionId (s : State) : Nat :=
  (((List.range (s.regions.length + 1)).map (fun i => (s.nextRegion - 1 + i) % 0xFFFFFE + 1)).find? (fun k => (s.region? k).isNone)).getD
    s.nextRegion

/-- The region with what its container places: roles, cores in boot-tree order, segments, rings, initial threads to come. -/
def placeRegion (g0 : Region) (blob : List Byte) (images : List Image) : Region :=
  let table := placeTable blob
  let g := mappedRegion g0 blob
  let cores := launchCores g blob
  let map_ := match findSection blob 10 0 with | some x => sectionBytes blob x | none => []
  let roles : List RoleInfo := images.map (fun m =>
    { role := m.role, power := rolePower blob m.role, claim := roleClaim blob m.role, len := 4 * m.words.length, entry := m.entry,
      meter := m.meter, marks := m.marks,
      places := (table.filter (fun e => e.role = m.role)).map (fun e => (e.cores, e.slotLo, e.slotHi)) })
  let g1 : Region := { g with
    cores := cores, roles := roles, ringCap := fieldAt map_ 4 4, rings := fieldAt map_ 8 4, ringOff := fieldAt map_ 12 4,
    ringCores := mapCores g.segs, starting := table.flatMap (fun e => e.slots),
    dataVa := match findSection blob 6 0 with | some x => g.container + x.off | none => g.container }
  { g1 with forward := (cores.zip (List.range cores.length)).flatMap (fun p => bootItems g1 blob images p.2 p.1) }

/-- The first initial thread of a region: on the first core of the boot tree that has one, in the lowest slot (R331). -/
def Region.firstSlot (g : Region) : Option SlotRef :=
  g.starting.foldl (fun (b : Option SlotRef) r => match b with
    | none => some r
    | some q => if r.core < q.core ∨ (r.core = q.core ∧ r.slot < q.slot) then some r else some q) none

/-- The role placed in a slot by a region's placement table. -/
def Region.roleAt (g : Region) (r : SlotRef) : Option RoleInfo :=
  g.roles.find? (fun k => k.places.any (fun p => p.1.contains r.core && decide (p.2.1 ≤ r.slot ∧ r.slot ≤ p.2.2)))

/-- The slot in which a region's first initial thread was placed, from its placement table. -/
def Region.firstPlaced (g : Region) : Option SlotRef :=
  g.cores.findSome? (fun c => ((List.range 16).map (fun n => ({ core := c, slot := n } : SlotRef))).find? (fun r => (g.roleAt r).isSome))

/-- The clusters of a region's placement (R329). -/
def Region.clusters (g : Region) : List Nat :=
  (rangeOf g.dieLo (min g.dieHi 15)).flatMap (fun d => (rangeOf g.clusterLo (min g.clusterHi 63)).map (fun k => 64 * d + k))

/-- Seed the generator of a region's polder on each cluster of its placement where it has no queued task (R347). -/
def State.seedGenerators (s : State) (g : Region) : State :=
  g.clusters.foldl (fun s k =>
    let d := s.dispatcher k
    let queued := ((d.banks.flatMap (fun b => b.2)) ++ d.spilled ++ d.arriving).any (fun t => t.polder = g.polder)
    let x := g.seed ^^^ BitVec.ofNat 64 (k / 64 * 4096 + k % 64 * 16 + g.polder)
    if queued then s else s.setDispatcher k { d with gen := tput d.gen g.polder (if x = 0 then 1 else x) }) s

/-- STEP 7: the id, the supervisor, the resolved block; LAUNCH's reply; the images start down the boot tree. A gated cluster of
the placement wakes (R464). -/
def State.admitRegion (s : State) (q : LaunchReq) (g : Region) (blob : List Byte) (images : List Image) (parentVa : Nat) : State :=
  let id := s.freeRegionId
  let g1 : Region := placeRegion { g with id := id } blob images
  let sup := if g1.supervisor ≠ 0 then g1.supervisor else match g1.firstSlot with | some r => s.nextId r | none => 0
  let g2 : Region := { g1 with supervisor := sup }
  let s1 : State := { s with
    regions := s.regions ++ [g2], nextRegion := id % 0xFFFFFE + 1, ancestry := tput s.ancestry id (g2.parent.getD 0), admitting := none,
    gated := s.gated.filter (fun k => !g2.cores.any (fun c => decide (clusterOf c = k))) }
  let s2 : State := (s1.headWrite g2.world g2.rcb (blockBytes g2 parentVa ++ s1.blockState id)).1.modRegion id (fun q => { q with shown := s1.counts id })
  let s3 : State := (match g2.parent with | some p => s2.writeState p | none => s2).seedGenerators g2
  let s4 : State := s3.replyLaunch q 0
  let s6 : State := g2.cores.foldl (fun s c => s.bankerTurn c) s4.nextLaunch
  if g2.forward.isEmpty then s6.checkRegion id else s6.later .bootTreeForward { n := id }

/-- Steps 6 and 7, once every image has been found. -/
def State.finishLaunch (s : State) (q : LaunchReq) (g : Region) (blob : List Byte) (images : List Image) : State :=
  match step6 s q g blob images with
  | .error status => s.refuseLaunch q (some g.completion) status
  | .ok () =>
    let parentVa := match g.parent.bind (fun p => s.region? p) with | some u => u.rcb | none => 0
    s.admitRegion q g blob images parentVa

/-- What follows what step 5 finds. -/
def State.continueLaunch (x : State × Found) (q : LaunchReq) (g : Region) (blob : List Byte) : State :=
  match x with
  | (s1, .refuse) => s1.refuseLaunch q (some g.completion) stXlate
  | (s1, .images l) => s1.finishLaunch q g blob l
  | (s1, .running) => s1

/-- Whether a launch record has a zero field set, or names no block (R332, R333). -/
def recordBad (b : List Byte) : Bool := decide (b.length ≠ 64 ∨ fieldAt b 9 7 ≠ 0 ∨ fieldAt b 56 8 ≠ 0 ∨ fieldAt b 0 8 % 256 ≠ 0)

/-- ADMIT a launch (R333): steps 1 to 4, then step 5. -/
def State.admitLaunch (s : State) (q : LaunchReq) : State :=
  let rec_ := q.record
  let world := fieldAt rec_ 8 1
  match s.headRead world (fieldAt rec_ 0 8) 256 with
  | (s1, none) => s1.refuseLaunch q none stFormat
  | (s1, some blk) =>
    let parentVa := fieldAt blk 8 8
    let p := if parentVa = 0 then none else s1.regionAt world parentVa
    let g := resolveBlock blk rec_ p q.from_
    let target : Option Word := if p.isNone && inherits blk 72 8 then none else some g.completion
    if recordBad rec_ || blockBad blk || decide (fieldAt blk 16 1 ≠ world) || (decide (parentVa = 0) && blockInherits blk) then
      s1.refuseLaunch q target stFormat
    else
      let unread := if decide (parentVa ≠ 0) && p.isNone && inherits blk 64 8 then stParent else stFormat
      match s1.readContainer world g.container with
      | (s2, none) => s2.refuseLaunch q target unread
      | (s2, some (blob, dark)) =>
        if containerBad blob dark then s2.refuseLaunch q target unread
        else
          let checks : Except Nat Unit := do
            step2 s2 q blk p
            step3 s2 g p
            step4 s2 g blob
            check (allZero (bytesAt blob 8 16) || decide (bytesAt blob 8 16 = nativeIdentity)) stXlate
          match checks with
          | .error status => s2.refuseLaunch q target status
          | .ok () => State.continueLaunch (step5 s2 q g blob) q g blob

/-- Cache what a translation has produced: the image, the marks, the entry, its valid bit last (R407, R408). -/
def State.cacheTranslation (s : State) (k : Translator) : State × Bool :=
  let put (x : State × Bool) (va : Nat) (b : List Byte) : State × Bool :=
    if b.isEmpty || !x.2 then x else x.1.headWrite k.world va b
  let image := k.out.flatMap (fun w => natLe w.toNat 4)
  let marks := k.marks.flatMap (fun p => natLe p.1 4 ++ natLe p.2 4)
  let e := cacheBase + 64 * k.dirNo
  let x1 := put (s, true) (cacheArea + k.area) image
  let x2 := put x1 (cacheArea + k.area + image.length) marks
  let x3 := put x2 e (k.digest ++ natLe s.tc 8 ++ natLe k.area 4 ++ natLe image.length 4 ++ natLe k.marks.length 4 ++ natLe k.meter 4
    ++ natLe k.entry 4)
  put x3 (e + 60) (natLe 1 4)

/-- The launch whose translation has ended goes on: what the translation produced is cached and used; where it failed, was not cached, or leaves a
segment out, the launch is refused (R395, R405, R408). -/
def State.endLaunch (s : State) (adm : Admission) : State :=
  let refuse (s : State) : State := s.refuseLaunch adm.req (some adm.region.completion) stXlate
  match s.translator with
  | none => refuse s
  | some k =>
    match k.ended with
    | none => s
    | some (cause, _) =>
      let s1 : State := { s with translator := none }
      if cause ≠ 0 then refuse s1
      else
        let m := foundImage k.role k.out k.entry (BitVec.ofNat 64 k.meter) k.marks
        match s1.cacheTranslation k with
        | (s2, false) => refuse s2
        | (s2, true) =>
          if coversMap adm.blob m then
            State.continueLaunch (findImages s2 adm.req adm.region adm.blob (adm.images ++ [m]) adm.left) adm.req adm.region adm.blob
          else refuse s2

/-- The headgate admits: the launch whose translation has ended goes on, or the waiting launch with the earliest stamp is taken (R333). -/
def State.admitNext (s : State) : State :=
  match s.admitting with
  | some adm => s.endLaunch adm
  | none =>
    match earliestBy (fun q => q.stamp) s.launches with
    | none => s
    | some q => { s with launches := s.launches.erase q }.admitLaunch q

/-- LAUNCH_ADMISSION: launches are admitted one at a time, in the order of their stamps (R333). -/
def execLaunchAdmission (s : State) : Host.Outcome State Fault Refusal :=
  .next (s.whole State.admitNext (fun s => s.laterOnce .launchAdmission {}))

/-! ### LAUNCH (R339) -/

/-- LAUNCH: the record is read with precise faults; a release at module scope; d pending until the headgate answers. -/
def execLaunch (d a : Reg) (ma : Bool) (s : State) : Host.Outcome State Fault Refusal :=
  issueRun s 4 fun t => do
    let r := s.cur
    let x ← liftE (readReg s t [] a)
    liftE (checkDest s t d)
    needR (decide (windowOf x = 0)) .win x
    let record := (← loadChecked r t x 64).1
    releaseR r t true
    retirePending t [a] [(ma, a)] d
    let fn := match s.region? t.region with | some g => g.fn | none => 0
    modifyS (fun s =>
      let y := s.mint (slotSource r)
      let q : LaunchReq := { record := record, stamp := y.1, slot := some (r, d), tid := t.id, world := t.world, region := t.region,
                             fn := none, from_ := fn }
      { y.2 with launches := y.2.launches ++ [q] }.laterOnce .launchAdmission {})

/-! ### The boot tree and initial threads (R334, R335) -/

/-- A core receives an image and its local image. -/
def State.receiveImage (s : State) (g : Region) (c : CoreIx) (m : Image) (bytes : List Byte) : State :=
  let seg := (g.segs.zip (List.range g.segs.length)).find? (fun p => decide (p.1.role = m.role) && (p.1.home :: p.1.reps).contains c)
  let s1 : State := s.modCore c (fun k => { k with
    images := k.images ++ [m],
    pin := match seg with
      | some p => some { region := g.id, role := m.role, seg := p.2, start := p.1.start, drop := false }
      | none => k.pin,
    arrived := if seg.isSome then 0 else k.arrived })
  (s1.locWrite c m.localLo bytes).1

/-- BOOT_TREE_FORWARD: the next core in boot-tree order whose parent in the tree has received everything receives its images and
local images from it, the first core from the headgate (R334); its initial threads can then begin. -/
def execBootTreeForward (s : State) : Host.Outcome State Fault Refusal :=
  match s.region? s.arg.n with
  | none => .next s
  | some g =>
    match g.forward with
    | [] => .next s
    | (j, _, _) :: _ =>
      match g.cores[j]? with
      | none => .next s
      | some c =>
        let mine := g.forward.filter (fun f => f.1 = j)
        let s1 : State := mine.foldl (fun s f => s.receiveImage g c f.2.1 f.2.2) s
        let s2 : State := s1.modRegion g.id (fun q => { q with forward := q.forward.filter (fun f => f.1 ≠ j) })
        let s3 : State := (g.starting.filter (fun r => r.core = c)).foldl (fun s r =>
          s.later .initialThreadStart { core := r.core, slot := r.slot, n := g.id }) s2
        .next (if (g.forward.filter (fun f => f.1 ≠ j)).isEmpty then s3 else s3.later .bootTreeForward s.arg)

/-- INITIAL_THREAD_START: an initial thread begins at its role's entry with the launch's arguments and its role's claim; it begins
with an acquire (R123, R335). -/
def execInitialThreadStart (s : State) : Host.Outcome State Fault Refusal :=
  let r : SlotRef := { core := s.arg.core, slot := s.arg.slot }
  match s.region? s.arg.n with
  | none => .next s
  | some g =>
    match g.roleAt r with
    | none => .next s
    | some k =>
      if !g.starting.contains r || g.forward.any (fun f => decide (g.cores[f.1]? = some r.core)) then .next s
      else
        let s1 : State := s.modRegion g.id (fun q => { q with starting := q.starting.filter (fun x => x ≠ r) })
        let s2 : State := s1.beginThread r g.world g.polder g.id k.role (BitVec.ofNat 64 k.entry) k.claim g.args
        match s2.thread? r with
        | some t =>
          match s.syncMeet (slotWho r t 1 0) r.core (dieOf r.core) with
          | some x => .next (x.1.later .initialThreadStart s.arg)
          | none => .next (acquireS s2 r t true)
        | none => .next s2

/-! ### Completion (R336-R338, R416) -/

/-- Send the words of a notice to the policy of the nearest live ancestor of a region (R416, R435). -/
def State.passNotice (s : State) (region world : Nat) (st : Stamp) (words : List Word) : State :=
  match s.liveAncestor region (s.ancestry.length + 1) with
  | some g => s.deliverMsg g 0 st words true
  | none => match s.rootRegion world with
    | some g => s.deliverMsg g 0 st words true
    | none => s

/-- Post the two words of a completion notice to the supervisor of the parent (R338). -/
def State.postNotice (s : State) (parent : Nat) (words : List Word) : State :=
  match s.region? parent with
  | none => s
  | some p =>
    let x := s.mint headSource
    match s.threadById p.supervisor with
    | some (r, _) => x.2.postQ6 r x.1 words p.id false
    | none =>
      if p.policy = 1 then
        (x.2.modRegion p.id (fun q => { q with msgs := q.msgs ++ [(x.1, words, false)] })).laterOnce .handlerSpawn { n := p.id }
      else s

/-- Launch the dependants of a region in list order, each as LAUNCH would: as from its parent region, or, for a root region, as its
launching function would (log entry 23). -/
def State.launchDependants (s : State) (g : Region) : State :=
  match s.headRead g.world g.deps (64 * g.ndeps) with
  | (s1, none) => s1
  | (s1, some b) =>
    (List.range g.ndeps).foldl (fun (s : State) i =>
      let x := s.mint headSource
      let q : LaunchReq := { record := bytesAt b (64 * i) 64, stamp := x.1, slot := none, tid := 0,
                             world := if g.parent.isNone ∧ g.fn = 0 then 0 else g.world, region := g.parent.getD 0,
                             fn := if g.parent.isSome then none else some g.fn, from_ := g.fn }
      { x.2 with launches := x.2.launches ++ [q] }.laterOnce .launchAdmission {}) s1

/-- A region that completes leaves the module: its weirs are unbound, its budgets free again; its images and pins leave their cores, and the
words that wait there for its supervisor. -/
def State.removeRegion (s : State) (id : Nat) : State :=
  { s with
    weirs := s.weirs.filter (fun p => p.2.region ≠ id),
    regions := s.regions.filter (fun q => q.id ≠ id),
    cores := s.cores.map (fun p => (p.1, { p.2 with
      images := p.2.images.filter (fun m => m.region ≠ id),
      pin := p.2.pin.bind (fun x => if x.region = id then none else some x),
      q6wait := p.2.q6wait.filter (fun w => w.region ≠ id) })) }

/-- The notices that wait for the supervisor of a region that has completed go to its ancestors; its other messages are dropped (R416). -/
def State.passWaiting (s : State) (g : Region) (waiting : List Q6Group) : State :=
  let s1 : State := waiting.foldl (fun s w => s.passNotice g.id g.world w.stamp w.words) s
  (g.msgs.filter (fun m => m.2.2)).foldl (fun s m => s.passNotice g.id g.world m.1 m.2.1) s1

/-- COMPLETE a region, its conditions holding: pools and weirs, budgets, flush, record, notification, dependants, in this order
(R336-R338). Where the freeing of a pool has to wait, the region completes later. -/
def State.completeRegion (s : State) (g : Region) : State :=
  let s1 : State := s.freePools g.id
  if !(s1.regionPools g.id).isEmpty then s1.later .regionCompletion { n := g.id }
  else
    let status := if g.terminated then 0x10 else 0
    let addr := g.completion.toNat % 2 ^ 52
    let vector := bitOf g.completion 63
    let s2 : State := s1.removeRegion g.id
    let s3 : State := if vector then (List.range 16).foldl (fun s d => s.agentSync headSource g.world d) s2 else s2
    let x := s3.mint headSource
    let s4 : State := (x.2.headWrite g.world addr (completionBytes x.1 g.id status g.tag)).1
    let s5 : State := (s4.headWrite g.world (g.rcb + 128) (List.replicate 64 0)).1
    let s6 : State := if vector then s5.raiseVector g.fn (bitsOf g.completion 62 52) x.1
      else match g.parent with
        | some p => s5.postNotice p [BitVec.ofNat 64 (g.id * 2 ^ 40 + 0xFE * 2 ^ 32 + status), BitVec.ofNat 64 addr]
        | none => s5
    let s7 : State := s6.passWaiting g ((s.cores.flatMap (fun p => p.2.q6wait)).filter (fun w => w.region = g.id && w.notice))
    let s8 : State := g.cores.foldl (fun s c => s.bankerTurn c) s7
    let s9 : State := if status = 0 ∧ g.ndeps ≠ 0 then s8.launchDependants g else s8
    let s10 : State := match g.parent with | some p => (s9.writeState p).checkRegion p | none => s9
    match s10.destroying with
    | some d => if d.1 = g.world then s10.laterOnce .destroy { n := g.world, flag := true } else s10
    | none => s10

/-- REGION_COMPLETION: the headgate completes a region once its conditions hold (R336). -/
def execRegionCompletion (s : State) : Host.Outcome State Fault Refusal :=
  match s.region? s.arg.n with
  | none => .next s
  | some g =>
    if s.regionIdle g.id then .next (s.whole (fun s => s.completeRegion g) (fun s => s.later .regionCompletion { n := g.id })) else .next s

/-! ### Handler threads (R417) -/

/-- Give the messages that wait for a region's supervisor to a live one. -/
def State.handMessages (s : State) (g : Region) (r : SlotRef) : State :=
  g.msgs.foldl (fun s m => s.postQ6 r m.1 m.2.1 g.id m.2.2) (s.modRegion g.id (fun q => { q with msgs := [] }))

/-- A handler thread begins for a region in a slot and becomes its supervisor (R417). -/
def State.beginHandler (s : State) (g : Region) (r : SlotRef) (k : RoleInfo) : State :=
  let id := s.nextId r
  let s1 : State := s.beginThread r g.world g.polder g.id k.role (BitVec.ofNat 64 g.handler) k.claim []
  let s2 : State := match s1.thread? r with | some t => acquireS s1 r t true | none => s1
  let s3 : State := s2.modRegion g.id (fun q => { q with supervisor := id })
  ((s3.headWrite g.world (g.rcb + 32) (natLe id 8)).1).handMessages g r

/-- The headgate looks at a region's supervisor. The field of its block follows it (R331). Where messages wait and no live thread is named, a
handler begins on the first core of the boot tree, in the block's polder, in the role of the first initial thread, at the handler entry, and
becomes the supervisor; it waits while no slot is free or the slot budget is spent (R417). -/
def State.superviseRegion (s : State) (g : Region) : State :=
  let s0 : State := (s.headWrite g.world (g.rcb + 32) (natLe g.supervisor 8)).1
  if g.msgs.isEmpty then s0
  else
    match s0.threadById g.supervisor with
    | some (r, _) => s0.handMessages g r
    | none =>
      match g.cores.head?, g.firstPlaced.bind (fun r => g.roleAt r) with
      | some c, some k =>
        match s0.freeSlot c g.polder with
        | none => s0
        | some r =>
          if !s0.slotRoom g then s0
          else
            match s0.syncMeet (agentWho headSource 3 g.world 0) r.core (dieOf r.core) with
            | some x => x.1.later .handlerSpawn { n := g.id }
            | none => s0.beginHandler g r k
      | _, _ => s0

/-- HANDLER_SPAWN: see `State.superviseRegion`. -/
def execHandlerSpawn (s : State) : Host.Outcome State Fault Refusal :=
  match s.region? s.arg.n with
  | none => .next s
  | some g => .next (s.whole (fun s => s.superviseRegion g) (fun s => s.later .handlerSpawn { n := g.id }))

/-! ### Launches by the host (R332, R455-R457) -/

/-- Whether a posted write of the host that comes before one numbered `n` has not been performed (R123). -/
def State.postedBefore (s : State) (n : Nat) : Bool :=
  s.agenda.any (fun d => decide (d.what = .hostPostedWrite ∨ d.what = .hostLaunch) && decide (d.arg.slot < n))

/-- HOST_LAUNCH: a posted write of a launch record to the headgate window of a function: argument `n` is the function, the data its 64
bytes, `slot` its number in the order of the host's writes, in which it is performed (R123). A function that is not enabled or not bound
accepts no launch (R457). -/
def execHostLaunch (s : State) : Host.Outcome State Fault Refusal :=
  let k := s.arg.n
  let f := tget HostFn.reset s.fns k
  if s.postedBefore s.arg.slot then .next (s.later .hostLaunch s.arg)
  else if s.arg.data.length ≠ 64 ∨ 16 < k then .next s
  else if k ≠ 0 ∧ (f.enabled = false ∨ f.bound = none) then .next (s.emit (.discardedLaunch k))
  else
    let world := match f.bound with | some b => if k = 0 then 0 else b.2 | none => 0
    let x := s.mint hostLinkSource
    let q : LaunchReq := { record := s.arg.data, stamp := x.1, slot := none, tid := 0, world := world, region := 0, fn := some k, from_ := k }
    .next ({ x.2 with launches := x.2.launches ++ [q] }.laterOnce .launchAdmission {})

end Sys2Proof.Machine
end

