-- ==== Sys2Proof/Machine/System.lean ====
section
/-!
DEFINITION. The system forms (R189, R190, R362, R363, R382, R419-R424, R436): control registers, traps, breakpoints, emulation
windows, the return from an exception, power declarations, planted errors, replicas of segments.
-/

namespace Sys2Proof.Machine

/-! ### Control registers (R189, R419) -/

/-- The power register (R363). -/
def State.powerWord (s : State) (t : Thread) : Word :=
  match s.region? t.region with
  | some g =>
    let declared := match g.role? t.role with | some k => k.power | none => 0
    BitVec.ofNat 64 (declared % 65536 * 2 ^ 32 + s.heavyInUse g.id % 65536 * 2 ^ 16 + g.tokens % 65536)
  | none => 0

/-- segbase (R368). -/
def State.segBase (s : State) (c : CoreIx) : Word :=
  match (s.core c).pin with
  | some p => BitVec.ofNat 64 p.start
  | none => BitVec.allOnes 64

/-- What a control register of the current slot reads as, by its number (R189). -/
def controlRead (s : State) (t : Thread) (c : Nat) : Word :=
  match c with
  | 0x00 => s.status t
  | 0x01 => BitVec.ofNat 64 t.world
  | 0x02 => BitVec.ofNat 64 t.polder
  | 0x03 => BitVec.ofNat 64 t.id
  | 0x04 => t.dikelo
  | 0x05 => t.dikehi
  | 0x06 => t.fvec
  | 0x07 => t.fcause
  | 0x08 => t.faddr
  | 0x09 => t.fpriv
  | 0x0A => t.meter
  | 0x0B => BitVec.ofNat 64 t.wdog
  | 0x0C => t.tree
  | 0x0D => s.powerWord t
  | 0x0E => s.segBase s.cur.core
  | 0x0F => match s.region? t.region with | some g => BitVec.ofNat 64 g.rcb | none => 0
  | 0x10 => t.claim
  | 0x11 => heldWord t
  | _ => t.fflags.setWidth 64

/-- CSRR: fflags waits for the compute queue (R175, R419). -/
def execCsrr (d : Reg) (c : Fin 19) (s : State) : Host.Outcome State Fault Refusal :=
  issue s fun t => do
    checkDest s t d
    if c.val = 0x12 ∧ !t.cq.isEmpty then .error (.park .computeQueue)
    else return retire s t [] [] (some (d, controlRead s t c.val)) 4

/-- Whether a value may be written to a control register (R136, R172, R301, R419). -/
def controlFits (s : State) (t : Thread) (c : Nat) (x : Word) : Bool :=
  match c with
  | 0x04 => decide (bitsOf x 63 15 = 0 ∧ s.polderLo t.polder ≤ x.toNat)
  | 0x05 => decide (bitsOf x 63 16 = 0 ∧ x.toNat ≤ s.polderHi t.polder)
  | 0x06 => decide (bitsOf x 1 0 = 0)
  | 0x0C => decide (bitsOf x 63 62 = 0 ∧ bitsOf x 29 0 = 0)
  | _ => decide (bitsOf x 63 5 = 0)

/-- The thread with a control register written. -/
def controlWrite (t : Thread) (c : Nat) (x : Word) : Thread :=
  match c with
  | 0x04 => { t with dikelo := x }
  | 0x05 => { t with dikehi := x }
  | 0x06 => { t with fvec := x }
  | 0x0C => { t with tree := x }
  | _ => { t with fflags := x.setWidth 5 }

/-- Whether a thread may write a control register (R189). -/
def controlAllowed (s : State) (t : Thread) (c : Nat) : Bool :=
  decide (c = 0x04 ∨ c = 0x05 ∨ c = 0x06 ∨ c = 0x12) || (decide (c = 0x0C) && s.privileged t)

/-- CSRW (R175, R189, R419). -/
def execCsrw (c : Fin 19) (a : Reg) (ma : Bool) (s : State) : Host.Outcome State Fault Refusal :=
  issue s fun t => do
    let x ← readReg s t [] a
    need (controlAllowed s t c.val) .priv 0
    need (controlFits s t c.val x) .prot 0
    if c.val = 0x12 ∧ !t.cq.isEmpty then .error (.park .computeQueue)
    else return retire s (controlWrite t c.val x) [a] [(ma, a)] none 4

/-! ### Traps and breakpoints (R420, R421) -/

/-- TRAP: raised precisely with its number (R420). -/
def execTrap (n : BitVec 12) (s : State) : Host.Outcome State Fault Refusal :=
  match s.thread? s.cur with
  | none => .fault .emptySlot
  | some _ => .next (takeFault s .trap 0 n.toNat 4)

/-- Whether the debugger master has attached a region or an ancestor of it (R421, R442). -/
def State.underDebug (s : State) (region : Nat) : Bool := s.attached.any (fun g => s.isWithin region g)

/-- BRK: a halt for the debugger, or TRAP 0xFFE (R421). -/
def execBrk (s : State) : Host.Outcome State Fault Refusal :=
  match s.thread? s.cur with
  | none => .fault .emptySlot
  | some t =>
    if s.underDebug t.region then
      if t.cq.isEmpty then
        .next (haltThread s s.cur { cause := .trap, imprecise := false, debugger := true, page := none } 0xFFE t.pc 0 (t.pc + 4) t.skip 0 0)
      else .next (s.setThread s.cur { t with parked := some .computeQueue })
    else .next (takeFault s .trap 0 0xFFE 4)

/-- DEBUGGER_RESUME: a thread that the debugger holds goes on after its BRK (R421). -/
def execDebuggerResume (s : State) : Host.Outcome State Fault Refusal :=
  .next (s.modThread { core := s.arg.core, slot := s.arg.slot } (fun t => match t.halted with
    | some h => if h.debugger then { t with halted := none, parked := none } else t
    | none => t))

/-! ### Emulation windows and ERET (R422-R424) -/

/-- The halted thread that an EMWIN open or an ERET may work on (R422). -/
def State.haltedTarget (s : State) (t : Thread) (id : Nat) : Option (SlotRef × Thread × Halt) :=
  match s.threadById id with
  | some (q, u) => match u.halted with
    | some h => if u.world = t.world ∧ s.isWithin u.region t.region then some (q, u, h) else none
    | none => none
  | none => none

/-- Read the state that an index of a window names (R423). -/
def windowRead (u : Thread) (k : Nat) : Except Stop Word :=
  if k < 40 then (if u.holds k then .ok (u.gAt k).val else .error (.trap .regn 0))
  else if k = 44 then .ok u.x[0]
  else if k = 45 then .ok u.x[1]
  else if k = 46 then .ok u.x[2]
  else if k = 47 then .ok u.x[3]
  else if k = 51 then .ok u.lk
  else if k = 52 then .ok u.pc
  else if k = 53 then .ok (BitVec.ofNat 64 u.skip)
  else if k = 54 then .ok (BitVec.ofNat 64 (((List.range 40).filter (fun i => (u.gAt i).full)).map (fun i => 2 ^ i)).sum)
  else if k = 55 then .ok (u.fflags.setWidth 64)
  else .error (.trap .prot 0)

/-- The thread with full/empty bits set from a word; unheld blocks unchanged (R423). -/
def setFullBits (u : Thread) (v : Word) : Thread :=
  { u with g := (List.range 40).foldl (fun (g : Vector GReg 40) i =>
      let old := u.gAt i
      if u.holds i then g.set (i % 40) { old with full := v.getLsbD i, pending := old.pending && !v.getLsbD i } (Nat.mod_lt _ (by decide))
      else g) u.g }

/-- Write the state that an index of a window names (R423). -/
def windowWrite (u : Thread) (k : Nat) (v : Word) : Except Stop Thread :=
  if k < 40 then (if u.holds k then .ok (u.setG (Fin.ofNat 40 k) v) else .error (.trap .regn 0))
  else if k = 44 then .ok { u with x := u.x.set 0 v }
  else if k = 45 then .ok { u with x := u.x.set 1 v }
  else if k = 46 then .ok { u with x := u.x.set 2 v }
  else if k = 47 then .ok { u with x := u.x.set 3 v }
  else if k = 51 then .ok { u with lk := v }
  else if k = 52 then (if v.toNat % 4 = 0 then .ok { u with pc := v } else .error (.trap .prot 0))
  else if k = 53 then (if v.toNat ≤ 3 then .ok { u with skip := v.toNat } else .error (.trap .prot 0))
  else if k = 54 then .ok (setFullBits u v)
  else if k = 55 then (if v.toNat < 32 then .ok { u with fflags := v.setWidth 5 } else .error (.trap .prot 0))
  else .error (.trap .prot 0)

/-- The thread on which the current slot holds an open window (R422). -/
def windowOn (s : State) (id : Nat) : Except Stop (SlotRef × Thread) :=
  match s.threadById id with
  | some (q, u) => if u.emwBy = some s.cur then .ok (q, u) else .error (.trap .prot 0)
  | none => .error (.trap .prot 0)

/-- EMWIN (R422, R423). -/
def execEmwin (d a b : Reg) (m : Marks) (s : State) : Host.Outcome State Fault Refusal :=
  issue s fun t => do
    let x ← read2 s t a b
    checkDest s t d
    need (s.privileged t) .priv 0
    need (decide (bitsOf x.1 61 46 = 0)) .prot 0
    let op := bitsOf x.1 63 62
    let k := bitsOf x.1 45 40
    let id := bitsOf x.1 39 0
    let finish (s : State) (v : Word) : State := retire s ((s.thread? s.cur).getD t) [a, b] (markAB m a b) (some (d, v)) 4
    if op = 0 then
      match s.haltedTarget t id with
      | none => return finish s (replyWord 5 0)
      | some (q, u, _) =>
        if u.emwBy ≠ none ∧ u.emwBy ≠ some s.cur then return finish s (replyWord 6 0)
        else return finish (s.setThread q { u with emwBy := some s.cur }) (replyWord 0 0)
    else
      let w ← windowOn s id
      if op = 1 then
        let v ← windowRead w.2 k
        return finish s v
      else if op = 2 then
        let u ← windowWrite w.2 k x.2
        return finish (s.setThread w.1 u) 0
      else return finish (s.setThread w.1 { w.2 with emwBy := none }) (replyWord 0 0)

/-- ERET: a release at module scope; the halted thread continues (R424). -/
def execEret (d a : Reg) (ma : Bool) (s : State) : Host.Outcome State Fault Refusal :=
  issueRun s 4 fun t => do
    let r := s.cur
    let x ← liftE (readReg s t [] a)
    liftE (checkDest s t d)
    needR (decide (bitsOf x 63 40 = 0)) .prot 0
    releaseR r t true
    let s1 ← get
    match s1.haltedTarget t x.toNat with
    | none => retireR t [a] [(ma, a)] (some (d, replyWord 5 0))
    | some (q, u, h) =>
      if u.emwBy ≠ none ∧ u.emwBy ≠ some r then retireR t [a] [(ma, a)] (some (d, replyWord 6 0))
      else if h.imprecise then
        retireR t [a] [(ma, a)] (some (d, replyWord 7 0))
        modifyS (fun s => endThread s q)
      else
        waitFor (fun s => s.syncMeet (slotWho q u 1 0) q.core (dieOf q.core))
        retireR t [a] [(ma, a)] (some (d, replyWord 0 0))
        modifyS (fun s => acquireS (resumeThread s q) q u true)

/-! ### PWRD, ERRINJ, SEGREP (R362, R382, R436) -/

/-- The sum of a region's power declarations, one of them replaced (R361). -/
def powerSum (g : Region) (role v : Nat) : Nat := (g.roles.map (fun k => if k.role = role then v else k.power)).sum

/-- PWRD (R362). -/
def execPwrd (d a : Reg) (ma : Bool) (s : State) : Host.Outcome State Fault Refusal :=
  issue s fun t => do
    let x ← readReg s t [] a
    checkDest s t d
    match s.region? t.region with
    | some g =>
      if x.toNat ≤ 65535 ∧ powerSum g t.role x.toNat ≤ s.tokensOf g then
        let s1 : State := s.modRegion g.id (fun g => { g with roles := g.roles.map (fun k => if k.role = t.role then { k with power := x.toNat } else k) })
        return retire s1 t [a] [(ma, a)] (some (d, 0)) 4
      else return retire s t [a] [(ma, a)] (some (d, 1)) 4
    | none => return retire s t [a] [(ma, a)] (some (d, if x = 0 then 0 else 1)) 4

/-- Plant an error in a storage; none where the line is not there (R436). -/
def plant (s : State) (storage : Nat) (corrected : Bool) (x : Word) : Option State :=
  let line := x.toNat
  match storage with
  | 0 =>
    let sl := s.sliceNo line
    let ls := tget [] s.slices sl
    if ls.any (fun y => y.pa = line) then
      some { s with slices := tput s.slices sl (ls.map (fun (y : SliceLine) =>
        if y.pa = line then (if corrected then { y with ce := true } else { y with ue := true }) else y)) }
    else none
  | 1 =>
    let die := dieOf s.cur.core
    if s.rdcs.any (fun y => decide (y.die = die ∧ y.pa = line)) then
      some { s with rdcs := s.rdcs.map (fun (y : RdcLine) =>
        if y.die = die ∧ y.pa = line then (if corrected then { y with ce := true } else { y with ue := true }) else y) }
    else none
  | 2 => some (if corrected then s else { s with dramErr := setAdd s.dramErr line })
  | _ =>
    match fabricPlace x with
    | some (c, o) => some { s with locErr := (locWord c o, if corrected then 1 else 0) :: s.locErr.filter (fun p => p.1 ≠ locWord c o) }
    | none => none

/-- Whether an address suits a storage (R436). -/
def plantFits (storage : Nat) (x : Word) : Bool :=
  if storage < 3 then decide (x.toNat < 2 ^ 40 ∧ x.toNat % 64 = 0)
  else (fabricPlace x).isSome && decide (x.toNat % 8 = 0)

/-- ERRINJ (R436). -/
def execErrinj (d a b : Reg) (m : Marks) (s : State) : Host.Outcome State Fault Refusal :=
  issue s fun t => do
    let x ← read2 s t a b
    checkDest s t d
    need (decide (t.world = 0)) .priv 0
    let storage := bitsOf x.2 2 0
    need (decide (bitsOf x.2 63 9 = 0 ∧ bitsOf x.2 7 3 = 0 ∧ storage < 4)) .prot 0
    need (plantFits storage x.1) .prot x.1
    match plant s storage (bitOf x.2 8) x.1 with
    | some s1 => return retire s1 t [a, b] (markAB m a b) (some (d, 0)) 4
    | none => return retire s t [a, b] (markAB m a b) (some (d, 1)) 4

/-- Pin a segment on a core as a replica, with the image of its home in the place of what the core holds of the role, and the next ring (R368,
R382). -/
def State.pinReplica (s : State) (g : Region) (n : Nat) (k : Segment) (c : CoreIx) : State :=
  let images := (s.core k.home).images.filter (fun m => decide (m.region = g.id ∧ m.role = k.role))
  let s1 : State := s.modCore c (fun q => { q with
    images := q.images.filter (fun m => decide ¬(m.region = g.id ∧ m.role = k.role)) ++ images, pin := some { region := g.id, role := k.role, seg := n, start := k.start, drop := false }, arrived := 0 })
  s1.modRegion g.id (fun g => { g with
    ringCores := g.ringCores ++ [c],
    segs := (g.segs.zip (List.range g.segs.length)).map (fun p => if p.2 = n then { p.1 with reps := p.1.reps ++ [c] } else p.1) })

/-- Take a replica out of a segment's choice; the core unpins when it has nothing left (R382). -/
def State.dropReplica (s : State) (g : Region) (n : Nat) (c : CoreIx) : State :=
  let s1 : State := s.modCore c (fun q => { q with pin := q.pin.map (fun p => { p with drop := true }) })
  s1.modRegion g.id (fun g => { g with
    segs := (g.segs.zip (List.range g.segs.length)).map (fun p => if p.2 = n then { p.1 with reps := p.1.reps.filter (fun q => q ≠ c) } else p.1) })

/-- What a SEGREP does, and its reply: status and value (R382); a core whose instruction store has no room for the segment is no place for a
replica (R19; log entry 22). -/
def segrepDo (s : State) (t : Thread) (x b : Word) : State × Nat × Nat :=
  let tgt := targetCore b
  let c := tgt.1
  let n := bitsOf x 15 0
  let op := bitsOf x 63 62
  match s.region? t.region with
  | none => (s, 5, 0)
  | some g =>
    match g.segs[n]? with
    | none => (s, 5, 0)
    | some k =>
      let holds := match (s.core c).pin with | some p => decide (p.region = g.id ∧ p.seg = n) | none => false
      if tgt.2 ∨ bitsOf x 61 16 ≠ 0 then (s, 5, 0)
      else if op = 0 ∨ op = 3 then
        if holds then
          (if op = 3 then s.modCore c (fun q => { q with arrived := 0 }) else s, 0, (s.core c).arrived.toNat)
        else (s, 5, 0)
      else if op = 1 then
        if 3 ≤ k.reps.length ∨ g.rings ≤ g.ringCores.length then (s, 1, 0)
        else if !g.places c || (s.core c).pin.isSome || decide (storeBytes < s.storeUsed c (fun m => decide (m.region = g.id ∧ m.role = k.role)) + k.len)
          then (s, 2, 0)
        else (s.pinReplica g n k c, 0, 0)
      else if k.reps.contains c then (s.dropReplica g n c, 0, 0) else (s, 5, 0)

/-- SEGREP (R382). -/
def execSegrep (d a b : Reg) (m : Marks) (s : State) : Host.Outcome State Fault Refusal :=
  issueRun s 4 fun t => do
    let x ← liftE (read2 s t a b)
    liftE (checkDest s t d)
    needR (s.privileged t) .priv 0
    retirePending t [a, b] (markAB m a b) d
    let y := segrepDo (← get) t x.1 x.2
    modifyS (fun _ => y.1.replyTo t d y.2.1 y.2.2)

end Sys2Proof.Machine
end

