-- ==== Sys2Proof/Machine/Events.lean ====
section
/-!
DEFINITION. Events of the memory system and of the module's controllers: walks and fault records (R48-R56), lost lines and
retired frames (R57-R59, R434, R435), erasure and patrol (R41), device registers (R37, R53, R101, R452, R458-R462), links
(R446-R448), gating and throttling (R33, R464), reset (R32).
-/

namespace Sys2Proof.Machine

/-! ### Walks and fault records (R48-R52) -/

/-- Let a parked thread go on: it re-executes its access. -/
def State.unpark (s : State) (r : SlotRef) : State := s.modThread r (fun t => { t with parked := none })

/-- Install a walk's leaf for the slots that asked: in their clusters' TLBs and their cores' micro-TLBs (R48). -/
def State.installTlb (s : State) (e : TlbEntry) (page : Nat) (r : SlotRef) : State :=
  let k := clusterOf r.core
  let l := tget [] s.ctlbs k
  let s1 : State := if l.contains e then s else { s with ctlbs := tput s.ctlbs k (capped 1024 (l ++ [e])) }
  s1.copyTlb r.core (e.piece page)

/-- The fault record of a page of a world (R50). -/
def State.record? (s : State) (world page : Nat) : Option FaultRecord :=
  s.records.find? (fun f => decide (f.world = world ∧ f.page = page))

/-- Whether a thread can raise XLAT now: an address-pipe access waits for older compute instructions (R188). -/
def walkRipe (q : WalkReq) (t : Thread) : Bool :=
  match q.pipe with
  | .compute => true
  | .address => t.cq.isEmpty

/-- The faulting thread of a record halts, and its message goes out (R50, R51). -/
def State.xlat (s : State) (q : WalkReq) (t : Thread) (va : Nat) : State :=
  let h : Halt := { cause := .xlat, imprecise := false, debugger := false, page := some va }
  let a := BitVec.ofNat 64 va
  match q.pipe, t.cq with
  | .compute, e :: _ => haltThread s q.slot h 0 e.pc a t.pc t.skip 0 e.beats
  | _, _ => haltThread s q.slot h 0 t.pc a t.pc t.skip 0 0

/-- A request whose walk has ended in XLAT (R50, R51): its thread makes the record and halts, halts again as the record's faulting
thread, or parks on the record. -/
def State.walkFails (s : State) (q : WalkReq) : State :=
  match s.thread? q.slot with
  | none => s
  | some t =>
    match t.parked with
    | some (.walk w va) =>
      if !walkRipe q t then s.setThread q.slot { t with parked := some .computeQueue }
      else
        match s.record? w q.page with
        | none =>
          let f : FaultRecord := { world := w, page := q.page, thread := q.slot, tid := t.id, stamp := q.stamp, parked := [] }
          { s with records := s.records ++ [f] }.xlat q t va
        | some f =>
          if f.tid = t.id then s.xlat q t va
          else (s.modRecord w q.page (fun g => { g with parked := g.parked ++ [(q.slot, q.stamp, q.pipe)] })).setThread q.slot
            { t with parked := some (.record w va) }
    | _ => s

/-- A request whose walk has succeeded: the leaf is installed, the thread goes on, and when it is a record's faulting thread, the
record is deleted and every thread parked on it wakes (R51). -/
def State.walkServes (s : State) (e : TlbEntry) (q : WalkReq) : State :=
  let s1 : State := (s.installTlb e q.page q.slot).unpark q.slot
  match s1.record? q.world q.page, s1.thread? q.slot with
  | some f, some t =>
    if f.tid = t.id then f.parked.foldl (fun s p => s.unpark p.1) (s1.dropRecord q.world q.page) else s1
  | _, _ => s1

/-- The requests of a die's walker that ask for the page of one of them, in the order of their stamps (R49, R50). -/
def State.walkGroup (s : State) (q : WalkReq) : List WalkReq :=
  sortBy (fun (a b : WalkReq) => a.stamp.before b.stamp)
    (s.walks.filter (fun w => decide (w.die = q.die ∧ w.world = q.world ∧ w.page = q.page)))

/-- Walk for a group of requests, the earliest of which is `q`. -/
def State.walkFor (s : State) (q : WalkReq) : State :=
  let group := s.walkGroup q
  let s1 : State := { s with walks := s.walks.filter (fun w => !group.contains w) }
  let x := s1.walk q.world q.page q.slot.slot
  match x.2 with
  | some e => group.foldl (fun s w => s.walkServes e w) x.1
  | none => group.foldl (fun s w => s.walkFails w) x.1

/-- TLB_WALK: a die's walker takes the earliest request and every other of its world and page, reads the tables as they stand, and
installs the leaf or makes a fault record (R49-R51, R56). A walk is one step, and a die's walks are taken one at a time: the model's choice
(log entry 52). A request waits while another die's for the same page bears an earlier stamp, so that the record's faulting thread is the
earliest of those present (R31, R50), and while a table's line cannot be read (R57, R91). -/
def execTlbWalk (s : State) : Host.Outcome State Fault Refusal :=
  match earliestBy (fun (w : WalkReq) => w.stamp) (s.walks.filter (fun w => w.die = s.arg.n)) with
  | none => .next s
  | some q =>
    let first (w : WalkReq) : Bool := decide (w.world = q.world ∧ w.page = q.page) && w.stamp.before q.stamp
    let w : Who := { src := slotSource q.slot, world := q.world, region := 0xFFFFFF, slot := q.slot.slot, kind := 5, va := none }
    if s.walks.any first then .next (s.laterOnce .tlbWalk s.arg)
    else
      match s.walkMeet w q.page with
      | some x => .next (x.1.laterOnce .tlbWalk s.arg)
      | none =>
        let s1 : State := s.walkFor q
        .next (if s1.walks.any (fun w => w.die = s.arg.n) then s1.laterOnce .tlbWalk s.arg else s1)

/-! ### Lost lines and frames (R57-R59, R434, R435) -/

/-- CONTAINMENT_NOTICE: the containment logic of a die sends the notice of its earliest lost line (R434, R435). -/
def execContainmentNotice (s : State) : Host.Outcome State Fault Refusal :=
  match earliestBy (fun (l : LostLine) => l.stamp) (s.lost.filter (fun l => l.die = s.arg.n)) with
  | none => .next s
  | some l =>
    let s1 : State := { s with lost := s.lost.erase l }
    let va := match l.va with | some v => BitVec.ofNat 64 v | none => BitVec.allOnes 64
    .next (s1.sendNotice .lost l.world l.region l.stamp va (BitVec.ofNat 64 l.pa))

/-- FRAME_REMAP: a base die has copied a retired frame to the lowest spare of the failed line's pseudo-channel that none has taken;
where none is left, every line of the frame is poisoned, the owner gets LOST for the page, and the power manager's log records it
(R57, R59). -/
def execFrameRemap (s : State) : Host.Outcome State Fault Refusal :=
  let frame := s.arg.n
  match s.retire.find? (fun p => p.1 = frame) with
  | none => .next s
  | some (_, line) =>
    let s1 : State := { s with retire := s.retire.filter (fun p => p.1 ≠ frame) }
    let channel := s.sliceNo line
    let taken := tget 0 s.spares channel
    if taken < 16 then .next { s1 with spares := tput s1.spares channel (taken + 1) }
    else
      let die := paDie line
      let s2 : State := (List.range 1024).foldl (fun (s : State) i =>
        let l := frame * 65536 + 64 * i
        (s.setTag l { s.tag l with poison := true })) s1
      let x := s2.mint (containmentSource die)
      let lostPage : LostLine := { die := die, pa := frame * 65536, world := (s.tag line).world, region := none, va := none, stamp := x.1 }
      .next (({ x.2 with lost := x.2.lost ++ [lostPage] }.later .containmentNotice { n := die }).powerLog 1 frame)

/-! ### Erasure and patrol (R41) -/

/-- The lines of a die that satisfy a condition are erased: 64 zero bytes, all words full, no poison. -/
def State.eraseLines (s : State) (die : Nat) (dead : LineTag → Bool) : State :=
  let gone (line : Nat) : Bool := decide (paDie line = die) && dead (s.tag line)
  { s with
    hbm := s.hbm.filter (fun p => !gone (lineOf p.1)),
    lines := s.lines.filter (fun p => !gone p.1) }

/-- STACK_READY: a base die has written every line of its stack as erased, and the stack's ready bit is set; its first patrol pass
begins (R41, R463). -/
def execStackReady (s : State) : Host.Outcome State Fault Refusal :=
  let d := s.arg.n % 16
  if s.ready.getLsbD (16 + d) then .next s
  else
    let s1 : State := s.eraseLines d (fun _ => true)
    .next { s1 with
      ready := s1.ready ||| BitVec.ofNat 64 (2 ^ (16 + d)),
      patrols := tput s1.patrols d { running := true, begun := s.tc, lastDone := none } }

/-- PATROL_PASS: the pass that a base die's patrol is in ends: every line whose world has no live key, or another epoch than the live
key's, has been rewritten as erased; the next pass begins in the next cycle (R41). -/
def execPatrolPass (s : State) : Host.Outcome State Fault Refusal :=
  let d := s.arg.n
  let p := tget Patrol.reset s.patrols d
  if !p.running then .next s
  else
    let s1 : State := s.eraseLines d (fun t => !s.keyLive t.world t.epoch)
    .next { s1 with patrols := tput s1.patrols d { running := true, begun := s.tc + 1, lastDone := some p.begun } }

/-! ### Device registers -/

/-- Whether a write to an owner's register counts (R462): the owner master's own, or that of a thread of world 0 while the module has
an owner. -/
def State.ownerWrites (s : State) (a : Args) : Bool :=
  match a.master with
  | some m => decide (s.owner = some m)
  | none => s.owner.isSome && decide (a.m = 0)

/-- The entries of a TLB that an invalidation leaves (R53). -/
def keepEntry (world page : Nat) (large all : Bool) (e : TlbEntry) : Bool :=
  if e.world ≠ world then true
  else if all then false
  else if large then decide (e.page / 512 ≠ page / 512)
  else decide (e.page ≠ page) || e.large

/-- INVALIDATION: a store of eight bytes to the invalidation register of a die removes entries of the storing slot's world from every
TLB, and acts as a release at module scope (R53-R55). Argument `m` is the world, the data the register's bytes. -/
def execInvalidation (s : State) : Host.Outcome State Fault Refusal :=
  let v := BitVec.ofNat 64 (leNat s.arg.data)
  let world := s.arg.m
  let w : Who := { src := slotSource { core := s.arg.core, slot := s.arg.slot }, world := world, region := 0xFFFFFF, slot := s.arg.slot,
                   kind := 1, va := none }
  let keep (e : TlbEntry) : Bool := keepEntry world (bitsOf v 51 16) (bitOf v 1) (bitOf v 0) e
  match s.syncMeet w s.arg.core (dieOf s.arg.core) with
  | some x => .next (x.1.later .invalidation s.arg)
  | none =>
    let s1 : State := s.rdcSync w (dieOf s.arg.core) false
    .next { s1 with
      ctlbs := s1.ctlbs.map (fun p => (p.1, p.2.filter keep)),
      cores := s1.cores.map (fun p => (p.1, { p.2 with utlb := p.2.utlb.filter keep })) }

/-- Whether a world other than 0 holds a live key (R37). -/
def State.otherKeyLive (s : State) : Bool := s.keys.any (fun p => decide (p.1 ≠ 0) && p.2.live)

/-- The group numbers that a byte of the group mode table holds, with the value the byte gives each. -/
def groupBits (g0 : Nat) (b : Byte) : List (Nat × Bool) := (List.range 8).map (fun j => (g0 + j, b.getLsbD j))

/-- GROUP_MODE_WRITE: bytes of a die's group mode table, accepted only while the layout is unlocked and no world but 0 holds a live key
(R37, R462). Argument `n` is the physical address. -/
def execGroupModeWrite (s : State) : Host.Outcome State Fault Refusal :=
  if !s.ownerWrites s.arg || s.locked || s.otherKeyLive then .next s
  else
    let g0 := devDie s.arg.n * 16384 + 8 * (devOff s.arg.n - 0x20000)
    let bits := (s.arg.data.zip (List.range s.arg.data.length)).flatMap (fun p => groupBits (g0 + 8 * p.2) p.1)
    .next { s with pinned := bits.foldl (fun l p => if p.2 then setAdd l p.1 else l.filter (fun x => x ≠ p.1)) s.pinned }

/-- L2_CONTROL_WRITE: the mode that a die takes at the next lock; ignored while the layout is locked, and where a zero bit is set
(R101, R462). -/
def execL2ControlWrite (s : State) : Host.Outcome State Fault Refusal :=
  let v := BitVec.ofNat 64 (leNat s.arg.data)
  let d := devDie s.arg.n
  if !s.ownerWrites s.arg || s.locked || decide (bitsOf v 63 2 ≠ 0) then .next s
  else .next { s with l2ctl := tmod 0 s.l2ctl d (fun c => (c &&& 2) ||| (v.setWidth 2 &&& 1)) }

/-- Whether another claim that has reached the register bears an earlier stamp (R31, R461). -/
def State.claimBefore (s : State) (st : Stamp) : Bool :=
  s.agenda.any (fun d => decide (d.what = .ownerClaim) && (match d.arg.stamp with | some x => x.before st | none => false))

/-- OWNER_CLAIM: a master writes its own number to the owner register. The claim reaches the register with a stamp of its source number, and is
decided once that cycle is over: the first by stamp makes its master owner, later ones are ignored (R460, R461). -/
def execOwnerClaim (s : State) : Host.Outcome State Fault Refusal :=
  match s.arg.master with
  | none => .next s
  | some m =>
    match s.arg.stamp with
    | none => .next ((s.mint (masterSource m)).2.later .ownerClaim { s.arg with stamp := some (s.mint (masterSource m)).1 })
    | some st =>
      if s.tc ≤ st.tc ∨ s.claimBefore st = true then .next (s.later .ownerClaim s.arg)
      else if s.owner.isNone ∧ leNat s.arg.data = m.number then .next { s with owner := some m } else .next s

/-- Extend a measurement register (R452). -/
def State.extend (s : State) (k : Nat) (d : List Byte) : State :=
  { s with measures := tput s.measures k (shake256 (bytesAt (tget [] s.measures k) 0 64 ++ d) 64) }

/-- MEASUREMENT_EXTEND: registers 0-3 at boot with each firmware image, 4 with the native table's identity, 6-15 by a 64-byte write of
world 0 (R452). Argument `n` is the register. -/
def execMeasurementExtend (s : State) : Host.Outcome State Fault Refusal :=
  let k := s.arg.n
  if k < 4 then .next (s.extend k (Config.firmwareMeasurement k))
  else if k = 4 then .next (s.extend 4 nativeIdentity)
  else if 6 ≤ k ∧ k ≤ 15 ∧ s.arg.data.length = 64 ∧ s.ownerWrites s.arg = true then .next (s.extend k s.arg.data)
  else .next s

/-- Deliver the interrupts that wait for a function, in stamp order (R458). -/
def State.deliverPending (s : State) (k : Nat) : State :=
  let f := tget HostFn.reset s.fns k
  let l := sortBy (fun (a b : Nat × Stamp) => !b.2.before a.2) f.pending
  l.foldl (fun s p => s.emit (.interrupt k p.1 p.2)) { s with fns := tput s.fns k { f with pending := [] } }

/-- STATE_REGISTER_WRITE: the owner sets each virtual function running, descheduled or paused; one that runs again gets its pending
interrupts (R458, R462). The value 11, which names no state, leaves a function as it is. -/
def execStateRegisterWrite (s : State) : Host.Outcome State Fault Refusal :=
  if !s.ownerWrites s.arg then .next s
  else
    let v := leNat s.arg.data
    .next ((List.range 16).foldl (fun s k =>
      let x := v / 4 ^ k % 4
      if x = 3 then s
      else
        let f := tget HostFn.reset s.fns (k + 1)
        let s1 : State := { s with fns := tput s.fns (k + 1) { f with state := BitVec.ofNat 2 x } }
        if x = 0 then s1.deliverPending (k + 1) else s1) s)

/-! ### Links (R446-R448) -/

/-- A channel: the key it takes at reset comes from the module link secret (R446). -/
def State.channel (s : State) (n : Nat) : Channel :=
  tget { Channel.reset with key := shake256 (natLe (Config.random 0) 64 ++ natLe n 4) 32 } s.channels n

/-- Whether the channels have their keys: the security controller drew the module link secret (R446, R463). -/
def State.channelsReady (s : State) : Bool := s.ready.getLsbD 63

/-- LINK_FRAME: a sealed frame arrives on channel `n`; argument `flag` says that its tag is sound. A sound frame is delivered; another
is discarded and sent again under the next counter; after eight failures in a row the link retrains (R446-R448). While no channel is ready, no frame passes (R446). -/
def execLinkFrame (s : State) : Host.Outcome State Fault Refusal :=
  let c := s.channel s.arg.n
  if !s.channelsReady then .next s
  else if c.retrain then .next (s.later .linkFrame s.arg)
  else
    let c1 : Channel := { c with counter := c.counter + 1, failures := if s.arg.flag then 0 else c.failures + 1 }
    let c2 : Channel := if 8 ≤ c1.failures then { c1 with retrain := true } else c1
    let s1 : State := { s with channels := tput s.channels s.arg.n c2 }
    let s2 : State := if c2.retrain then s1.laterOnce .linkRetrain { n := s.arg.n } else s1
    if 2 ^ 32 ≤ c2.counter then .next { s2 with urgent := s2.urgent ++ [{ what := .channelRekey, arg := { n := s.arg.n } }] }
    else .next s2

/-- CHANNEL_REKEY: a channel whose counter has reached 2^32 frames takes its next key; the counter restarts and the key phase
inverts (R447). -/
def execChannelRekey (s : State) : Host.Outcome State Fault Refusal :=
  let c := s.channel s.arg.n
  if c.counter < 2 ^ 32 then .next s
  else
    let c1 : Channel := { c with key := shake256 (c.key ++ natLe c.counter 8) 32, counter := 0, phase := !c.phase }
    .next { s with channels := tput s.channels s.arg.n c1 }

/-- LINK_RETRAIN: a link that retrains resumes, and the power manager's log records it (R448). -/
def execLinkRetrain (s : State) : Host.Outcome State Fault Refusal :=
  let c := s.channel s.arg.n
  if !c.retrain then .next s
  else
    let s1 : State := { s with channels := tput s.channels s.arg.n { c with retrain := false, failures := 0 } }
    .next (s1.powerLog 2 s.arg.n)

/-! ### Power, gating and reset (R32, R33, R464) -/

/-- Whether a cluster is idle: no thread, no work for a thread, no engine work of its cores (R464). -/
def State.clusterIdle (s : State) (k : Nat) : Bool :=
  (s.cores.filter (fun p => clusterOf p.1 = k)).all (fun p =>
    (List.range 16).all (fun n => (p.2.slot n).thread.isNone) && p.2.buf.isEmpty && p.2.arrivals.isEmpty && p.2.fills.isEmpty
      && p.2.tokens.all (fun t => !t.2.taken) && p.2.rounds.isEmpty && p.2.link.isEmpty)
    && !s.flights.any (fun f => clusterOf f.1 = k) && !s.regions.any (fun g => g.starting.any (fun r => clusterOf r.core = k))
    && (s.dispatcher k).arriving.isEmpty && (s.dispatcher k).banks.all (fun b => b.2.isEmpty)
    && !s.subs.any (fun u => clusterOf u.target = k)

/-- CLUSTER_GATE: an idle cluster is gated; with work for it, gating is abandoned (R464). -/
def execClusterGate (s : State) : Host.Outcome State Fault Refusal :=
  if s.clusterIdle s.arg.n then .next { s with gated := setAdd s.gated s.arg.n } else .next s

/-- CLUSTER_WAKE: a gated cluster wakes (R464). -/
def execClusterWake (s : State) : Host.Outcome State Fault Refusal :=
  .next { s with gated := s.gated.filter (fun k => k ≠ s.arg.n) }

/-- CLOCK_THROTTLE: the clock is throttled, or released (R33); argument `flag` says which. Only time is affected. -/
def execClockThrottle (s : State) : Host.Outcome State Fault Refusal := .next { s with throttled := s.arg.flag }

/-- MODULE_RESET: every piece of state takes its reset value (R32, R41, R132, R178, R443). -/
def execModuleReset (_ : State) : Host.Outcome State Fault Refusal := .next State.reset

/-- HOST_LINK_RESET: ownership held by the host driver is cleared, and nothing else (R461). -/
def execHostLinkReset (s : State) : Host.Outcome State Fault Refusal :=
  .next (if s.owner = some .hostDriver then { s with owner := none } else s)

end Sys2Proof.Machine
end

