-- ==== Sys2Proof/Machine/Mailbox.lean ====
section
/-!
DEFINITION. The owner's mailbox and its commands (R441-R445, R450, R457, R461), stores to device registers without an event of
their own (R5), slot rotation (R427-R431).
-/

namespace Sys2Proof.Machine

/-! ### Commands and replies (R441, R442) -/

/-- The statuses of R442. -/
def mbOk : Nat := 0
def mbNone : Nat := 1
def mbLive : Nat := 2
def mbBusy : Nat := 3
def mbEntropy : Nat := 4
def mbFormat : Nat := 5

/-- A command as its 64 bytes give it. -/
structure Command where
  code   : Nat
  world  : Nat
  polder : Nat
  index  : Nat
  a      : Word
  b      : Word
  c      : Word
  deriving DecidableEq, Repr

def commandOf (d : List Byte) : Command :=
  { code := fieldAt d 0 1, world := fieldAt d 1 1, polder := fieldAt d 2 1, index := fieldAt d 3 1,
    a := BitVec.ofNat 64 (fieldAt d 8 8), b := BitVec.ofNat 64 (fieldAt d 16 8), c := BitVec.ofNat 64 (fieldAt d 24 8) }

/-- Whether a command has a zero field set. -/
def commandBad (d : List Byte) : Bool := decide (fieldAt d 4 4 ≠ 0) || !allZero (bytesAt d 32 32)

/-- The event of a command code. -/
def commandEvent (code : Nat) : Option Instr :=
  match code with
  | 1 => some .create
  | 2 => some .destroy
  | 3 => some .layout
  | 4 => some .rotate
  | 5 => some .bind
  | 6 => some .monitor
  | 7 => some .attach
  | 8 => some .handover
  | _ => none

/-- The reply of a command is written, and the mailbox is free (R441). -/
def State.writeReply (s : State) (status : Nat) : State :=
  let x := s.mint securitySource
  { x.2 with mboxStamp := x.1, mboxStatus := status, mboxBusy := false }

/-- A command starts, or has its FORMAT at once (R442). -/
def State.startCommand (s : State) (data : List Byte) : State :=
  match commandEvent (fieldAt data 0 1) with
  | none => s.writeReply mbFormat
  | some i => if commandBad data then s.writeReply mbFormat else { s with mboxBusy := true }.later i { data := data }

/-- While no command runs, the waiting write with the earliest stamp starts its command (R31, R441); a command that ends at once makes
way for the next. -/
def State.takeCommands (s : State) : Nat → State
  | 0 => s
  | n + 1 =>
    if s.mboxBusy then s
    else
      match earliestBy (fun (d : Due) => d.arg.stamp.getD s.mboxStamp) s.mboxWait with
      | none => s
      | some d => ({ s with mboxWait := s.mboxWait.erase d }.startCommand d.arg.data).takeCommands n

/-- A command ends: the reply is written, and the earliest waiting write starts its command (R441). -/
def State.mailReply (s : State) (status : Nat) : State := (s.writeReply status).takeCommands s.mboxWait.length

/-- A 64-byte write at mailbox offset 0 reaches the mailbox, with a stamp of its source; it waits while a command runs. -/
def State.mailWrite (s : State) (a : Args) : State :=
  let x := s.mint (match a.master with | some m => masterSource m | none => slotSource { core := a.core, slot := a.slot })
  let d : Due := { what := .deviceRegisterWrite, arg := { a with stamp := some (a.stamp.getD x.1) } }
  { x.2 with mboxWait := x.2.mboxWait ++ [d] }.takeCommands (s.mboxWait.length + 1)

/-- DEVICE_REGISTER_WRITE: a store to a device register without an event of its own (R5). The owner's 64-byte write at mailbox offset 0
is a command (R441); with argument `flag`, the owner master sets an entry of the world table, which the spec places nowhere (R44; log
entry 24): argument `n` is the world, `word` the address. Every other store is ignored. -/
def execDeviceRegisterWrite (s : State) : Host.Outcome State Fault Refusal :=
  let a := s.arg
  if a.flag then
    if a.master.isSome && s.ownerWrites a then .next { s with worldTable := tput s.worldTable (a.n % 256) a.word.toNat } else .next s
  else if devDie a.n = 0 ∧ devOff a.n = 0x30000 ∧ a.data.length = 64 ∧ s.ownerWrites a = true then .next (s.mailWrite a)
  else .next s

/-- The shape of a command that ends at once. -/
def command (s : State) (f : Command → State × Nat) : Host.Outcome State Fault Refusal :=
  let x := f (commandOf s.arg.data)
  .next (x.1.mailReply x.2)

/-- The shape of a command that ends in the step in which its accesses need not wait; `i` is its event. -/
def commandWhole (i : Instr) (s : State) (f : State → Command → State × Nat) : Host.Outcome State Fault Refusal :=
  .next (s.whole (fun s => let x := f s (commandOf s.arg.data); x.1.mailReply x.2) (fun s => s.later i s.arg))

/-! ### CREATE and DESTROY (R40, R41, R443-R445) -/

/-- Whether every base die has completed a patrol pass that began after a cycle (R41). -/
def State.patrolledSince (s : State) (tc : Nat) : Bool :=
  (List.range 16).all (fun d => match (tget Patrol.reset s.patrols d).lastDone with
    | some b => decide (tc < b)
    | none => false)

/-- CREATE: a new key for a world, its epoch advanced by 1 from 1 to 255 and back to 1 (R40, R443). -/
def execCreate (s : State) : Host.Outcome State Fault Refusal :=
  command s fun q =>
    let k := tget Key.none s.keys q.world
    if q.world = 0 then (s, mbFormat)
    else if k.live then (s, mbLive)
    else if k.epoch = 255 ∧ (match k.destroyed with | some t => !s.patrolledSince t | none => false) = true then (s, mbBusy)
    else
      let s1 : State := { s with seq := s.seq + 1 }
      if !Config.healthTest s.seq then (s1, mbEntropy)
      else
        let key : Key := { epoch := k.epoch % 255 + 1, live := true, key := Config.random s.seq, destroyed := none }
        ({ s1 with keys := tput s1.keys q.world key, scrubs := tdel s1.scrubs q.world }, mbOk)

/-- The 64 KiB frames of memory that the tables below an entry map, `n` levels down (R445). -/
def framesFrom (s : State) (world table : Nat) : Nat → Nat
  | 0 => 0
  | n + 1 =>
    ((List.range 512).map (fun i =>
      let e := leNat (s.rawRead world (table + 8 * i) 8)
      if s.entryBad world (4 - n) e then 0
      else if e / 2 % 2 = 1 then (if 2 ^ 40 ≤ e / 4096 % 2 ^ 29 * 4096 then 0 else 512 ^ n)
      else framesFrom s world (e / 4096 % 2 ^ 29 * 4096) n)).sum

/-- The frames that a world's tables map. -/
def State.mappedFrames (s : State) (world : Nat) : Nat :=
  let root := tget 0 s.worldTable world
  if root = 0 ∨ root % 4096 ≠ 0 ∨ 2 ^ 40 ≤ root then 0 else framesFrom s world root 4

/-- The cores of the module. -/
def coreCount : Nat := 131072

/-- Whether a live thread of another world stands in a polder on a core. -/
def State.otherIn (s : State) (c : CoreIx) (polder world : Nat) : Bool :=
  (s.polderThreads c polder).any (fun x => x.2.world ≠ world)

/-- Step 3 on one bank of a core: the bank and its scale granules are zero, its words full (R444). -/
def State.scrubBank (s : State) (r : SlotRef) : State :=
  let lo := 2048 * r.slot
  s.modCore r.core (fun k => { k with
    mem := cellsScrub k.mem lo (lo + 2048), scale := cellsScrub k.scale (256 * r.slot) (256 * r.slot + 256),
    emptyW := k.emptyW.filter (fun o => decide ¬(lo ≤ o ∧ o < lo + 2048)),
    scalePoison := k.scalePoison.filter (fun o => decide ¬(256 * r.slot ≤ o ∧ o < 256 * r.slot + 256)),
    poison := k.poison.filter (fun o => decide ¬(lo ≤ o ∧ o < lo + 2048)) })

/-- The banks that step 3 of DESTROY scrubs on the cores that hold anything (R444). -/
def State.destroyBanks (s : State) (world : Nat) : List SlotRef :=
  let u := tget Scrub.zero s.scrubs world
  (s.cores.map (fun p => p.1)).flatMap (fun c => u.polders.flatMap (fun p => if s.otherIn c p world then [] else
    ((s.polderSlots p).map (fun n => ({ core := c, slot := n } : SlotRef))).filter (fun r => !u.banks.contains (16 * r.core + r.slot))))

/-- How many banks step 3 scrubs: those, and the banks of the same polders on every other core, less those that a rotation
has scrubbed (R444). -/
def State.destroyCount (s : State) (world : Nat) : Nat :=
  let u := tget Scrub.zero s.scrubs world
  let done := u.banks.filter (fun b => u.polders.contains (s.polderOf (b % 16)) && !s.cores.any (fun p => p.1 = b / 16))
  (s.destroyBanks world).length + (coreCount - s.cores.length) * (u.polders.map (fun p => (s.polderSlots p).length)).sum - done.length

/-- The 49,984 bytes of a scrub receipt (R445). -/
def receiptBytes (world epoch : Nat) (begun erased : Stamp) (u : Scrub) (l1 l2 rdc frames : Nat) : List Byte :=
  let body := natLe 0x31534352535A4820 8 ++ natLe world 1 ++ natLe epoch 1 ++ List.replicate 6 0 ++ begun.bytes ++ erased.bytes
    ++ natLe u.regs 8 ++ natLe u.loc 8 ++ natLe u.tiles 8 ++ natLe l1 8 ++ natLe l2 8 ++ natLe rdc 8 ++ natLe frames 8 ++ List.replicate 24 0
  body ++ bytesAt (Config.slhDsaSign body) 0 49856

/-- Steps 2 to 5 of DESTROY, every region of the world complete (R444). -/
def State.eraseWorld (s : State) (world : Nat) (begun : Stamp) (va : Nat) : State :=
  let mineLine (line : Nat) : Bool := (tget [] s.slices (s.sliceNo line)).any (fun x => decide (x.pa = line ∧ x.world = world))
  let l1 := (s.cores.map (fun p => p.2.l1.countP mineLine)).sum
  let l2 := (s.slices.map (fun p => p.2.countP (fun x => x.world = world))).sum
  let rdc := s.rdcs.countP (fun x => x.world = world)
  let lines := s.slices.flatMap (fun p => (p.2.filter (fun x => x.world = world)).map (fun x => x.pa))
  let s1 : State := lines.foldl (fun s l => s.invalidateL1 l none) s
  let s2 : State := { s1 with slices := s1.slices.map (fun p => (p.1, p.2.filter (fun x => x.world ≠ world))),
                              rdcs := s1.rdcs.filter (fun x => x.world ≠ world) }
  let count := s2.destroyCount world
  let s3 : State := (s2.destroyBanks world).foldl State.scrubBank s2
  let u := tget Scrub.zero s3.scrubs world
  let frames := s3.mappedFrames world
  let x := s3.mint securitySource
  let k := tget Key.none s3.keys world
  let s4 : State := { x.2 with
    keys := tput s3.keys world { k with live := false, destroyed := some x.1.tc }, destroying := none,
    cacheSpoilt := s3.cacheSpoilt.filter (fun w => w ≠ world) }
  (s4.agentWrite securitySource 3 0 va
    (receiptBytes world k.epoch begun x.1 { u with loc := u.loc + 2304 * count } l1 l2 rdc frames)).1

/-- DESTROY: the regions of a world are terminated; once all are complete, caches, banks and keys are erased and the receipt is
written (R444, R445). Argument `flag` marks the look after a region's completion; `m` the virtual function for which VF Enable was
cleared, plus 1, or 0 for the mailbox (R459). -/
def execDestroy (s : State) : Host.Outcome State Fault Refusal :=
  if s.arg.flag then
    match s.destroying with
    | none => .next s
    | some (world, begun, va, origin) =>
      if s.regions.any (fun g => g.world = world) then .next s
      else
        .next (s.whole (fun s => let s1 : State := s.eraseWorld world begun va; if origin = 0 then s1.mailReply mbOk else s1)
          (fun s => s.later .destroy s.arg))
  else
    let q := commandOf s.arg.data
    let origin := s.arg.m
    let end_ (s : State) (st : Nat) : State := if origin = 0 then s.mailReply st else s
    if s.destroying.isSome then .next (s.later .destroy s.arg)
    else if q.world = 0 ∨ (origin = 0 ∧ (2 ^ 52 ≤ q.a.toNat ∨ q.a.toNat % 64 ≠ 0)) then .next (end_ s mbFormat)
    else if !(tget Key.none s.keys q.world).live then .next (end_ s mbNone)
    else
      let x := s.mint securitySource
      let s1 : State := { x.2 with destroying := some (q.world, x.1, q.a.toNat % 2 ^ 52, origin) }
      let s2 : State := (s1.regions.filter (fun g => g.world = q.world)).foldl (fun s g => terminateRegion s g.id) s1
      .next (s2.later .destroy { n := q.world, flag := true })

/-! ### LAYOUT (R103, R442, R452) -/

/-- The polder of each slot number that a layout word gives. -/
def layoutOf (a : Word) : Vector Nat 16 :=
  (List.range 16).foldl (fun (v : Vector Nat 16) k => v.set (k % 16) (bitsOf a (4 * k + 3) (4 * k)) (Nat.mod_lt _ (by decide)))
    (Vector.replicate 16 0)

/-- Whether every polder's slots are contiguous: a polder seen before a change of polder does not come again. -/
def contiguous : List Nat → Bool
  | x :: y :: r => (decide (x = y) || !(y :: r).contains x) && contiguous (y :: r)
  | _ => true

/-- Whether a die flushes when the layout is locked: it changes its mode, or takes the private one (R103). -/
def State.flushes (s : State) (die : Nat) : Bool :=
  let c := tget 0 s.l2ctl die
  decide (c.getLsbD 0 ≠ c.getLsbD 1) || c.getLsbD 0

/-- A die writes back its remote-data cache, as the first part of its flush. -/
def State.flushRemote (s : State) (die : Nat) : State :=
  (s.rdcs.filter (fun x => x.die = die)).foldl State.agentBack s

/-- A die writes back and invalidates its home slices, its L1s and its directory, and takes the next mode (R103). -/
def State.flushHome (s : State) (die : Nat) : State :=
  let mine (sl : Nat) : Bool := decide (sl / 64 = die)
  let lines := (s.slices.filter (fun p => mine p.1)).flatMap (fun p => p.2.map (fun x => (p.1, x)))
  let s1 : State := lines.foldl (fun s p => s.evict p.1 p.2) s
  { s1 with
    slices := s1.slices.filter (fun p => !mine p.1),
    dirs := s1.dirs.filter (fun p => decide (paDie p.1 ≠ die)),
    overs := s1.overs.filter (fun p => !mine p.1),
    cores := s1.cores.map (fun p => if dieOf p.1 = die then (p.1, { p.2 with l1 := [] }) else p),
    l2ctl := tput s1.l2ctl die (if (tget 0 s1.l2ctl die).getLsbD 0 then 3 else 0) }

/-- The flush at a lock of the layout (R103): every remote-data cache that flushes is written back, then every home slice, which a
write-back of another die can have filled. -/
def State.flush (s : State) : State :=
  let dies := (List.range 16).filter s.flushes
  dies.foldl State.flushHome (dies.foldl State.flushRemote s)

/-- Whether a world other than 0 has a live thread (R442). -/
def State.otherThread (s : State) : Bool :=
  s.threads.any (fun p => p.2.world ≠ 0) || s.regions.any (fun g => decide (g.world ≠ 0 ∧ 0 < s.liveThreads g.id))

/-- LAYOUT: locks the polder layout that a names, or unlocks it (R442). A lock extends measurement register 5 with a, and each die
flushes that changes its mode or takes the private one (R103, R452). -/
def execLayout (s : State) : Host.Outcome State Fault Refusal :=
  commandWhole .layout s fun s q =>
    if bitOf q.b 0 then
      if !contiguous ((List.range 16).map (fun k => bitsOf q.a (4 * k + 3) (4 * k))) then (s, mbFormat)
      else
        ({ s.flush with layout := layoutOf q.a, locked := true }.extend 5 (natLe q.a.toNat 8), mbOk)
    else if s.otherThread then (s, mbBusy)
    else ({ s with locked := false }, mbOk)

/-! ### BIND, MONITOR, ATTACH, HANDOVER (R421, R442, R449, R450, R457, R461) -/

/-- BIND: a virtual function is bound to a polder and a world. -/
def execBind (s : State) : Host.Outcome State Fault Refusal :=
  command s fun q =>
    let f := tget HostFn.reset s.fns q.index
    if q.index = 0 ∨ 16 < q.index ∨ 15 < q.polder then (s, mbFormat)
    else if f.enabled then (s, mbBusy)
    else ({ s with fns := tput s.fns q.index { f with bound := some (q.polder, q.world) } }, mbOk)

/-- Lines of a monitored range leave every L1 and remote-data cache (R449). -/
def State.clearRange (s : State) (base limit : Nat) : State :=
  let inside (line : Nat) : Bool := decide (base ≤ line ∧ line ≤ limit)
  let s1 : State := (s.rdcs.filter (fun x => inside x.pa)).foldl State.agentBack s
  ((s1.dirs.map (fun p => p.1)).filter inside).foldl (fun s l => s.invalidateL1 l none) s1

/-- MONITOR: a range monitor of a world: base, limit, the kinds it logs, its ring; no kinds disable it (R450). -/
def execMonitor (s : State) : Host.Outcome State Fault Refusal :=
  commandWhole .monitor s fun s q =>
    if 63 < q.index then (s, mbFormat)
    else if !(tget Key.none s.keys q.world).live then (s, mbNone)
    else
      let key := q.world * 64 + q.index
      let kinds : BitVec 4 := BitVec.ofNat 4 (bitsOf q.b 3 0)
      let limit := bitsOf q.b 40 6 * 64
      if kinds = 0 then ({ s with monitors := tdel s.monitors key }, mbOk)
      else
        let m : Monitor := { base := q.a.toNat % 2 ^ 41, limit := limit, kinds := kinds, ring := q.c.toNat % 2 ^ 52 }
        ({ s.clearRange m.base limit with monitors := tput s.monitors key m }, mbOk)

/-- ATTACH: the debugger master is attached to a region and its descendants, or detached (R421). -/
def execAttach (s : State) : Host.Outcome State Fault Refusal :=
  command s fun q =>
    match s.regionAt q.world (q.a.toNat % 2 ^ 52) with
    | none => (s, mbNone)
    | some g =>
      if bitOf q.b 0 then ({ s with attached := setAdd s.attached g.id }, mbOk)
      else ({ s with attached := s.attached.filter (fun k => k ≠ g.id) }, mbOk)

/-- The master of a number (R460). -/
def masterOf (n : Nat) : Option Master :=
  match n with
  | 0 => some .hostDriver
  | 1 => some .management
  | 2 => some .debugger
  | _ => none

/-- HANDOVER: the successor becomes owner at the reply's stamp (R461). -/
def execHandover (s : State) : Host.Outcome State Fault Refusal :=
  command s fun q =>
    match masterOf q.index with
    | none => (s, mbFormat)
    | some m => ({ s with owner := some m }, mbOk)

/-! ### Rotation (R427-R431) -/

/-- ROTATE: a rotation of a polder begins (R427). -/
def execRotate (s : State) : Host.Outcome State Fault Refusal :=
  command s fun q =>
    if 15 < q.polder then (s, mbFormat)
    else if s.rotations.any (fun k => k.polder = q.polder) then (s, mbBusy)
    else
      let left := (List.range coreCount).flatMap (fun c => (s.polderSlots q.polder).map (fun n => ({ core := c, slot := n } : SlotRef)))
      ({ s with rotations := s.rotations ++ [{ polder := q.polder, table := q.a.toNat % 2 ^ 52, left := left, begun := [] }] }, mbOk)

/-- The save areas of a slot: the address of the outgoing one; the world and address of the incoming one (log entry 25). -/
def State.saveAreas (s : State) (k : Rotation) (r : SlotRef) : State × Nat × Nat × Nat :=
  let slots := s.polderSlots k.polder
  let va := k.table + 16 * (r.core * slots.length + slots.idxOf r.slot)
  match s.agentRead securitySource 3 0 va 16 with
  | (s1, some b) => (s1, fieldAt b 0 8 % 2 ^ 52, fieldAt b 15 1, fieldAt b 8 8 % 2 ^ 52)
  | (s1, none) => (s1, 0, 0, 0)

/-- The bytes of a save area that was made of the fresh values from number `base` on (R427). -/
def State.areaBytes (s : State) (base : Nat) : List Byte := ({ s with seq := base }.freshBytes 16384 2048).1

/-- A thread as it is saved: what it waited for at a home or on a walk it asks for again (R286, R430). -/
def savedThread (s : State) (r : SlotRef) (t : Thread) : Thread :=
  let asked := s.held.any (fun h => h.slot = r) || s.lrws.any (fun p => p.2.any (fun q => decide (q.slot = r) && !q.loaded))
  { t with parked := match t.parked with
      | some (.walk _ _) => none
      | some (.record _ _) => none
      | some .held => if asked then none else t.parked
      | p => p }

/-- The polder's share of a core's arrival queue: saved with the first of the polder's slots that hands over on the core (R383, R430; log
entry 25). -/
def State.queueShare (s : State) (k : Rotation) (c : CoreIx) : List FlumeRec :=
  if (s.polderSlots k.polder).all (fun n => k.left.contains { core := c, slot := n }) then (s.core c).arrivals.filter (fun f => f.polder = k.polder)
  else []

/-- What a slot saves: the thread, its bank and scale granules, the queue share (R428). -/
def State.saveArea (s : State) (r : SlotRef) (t : Option Thread) (share : List FlumeRec) : SaveArea :=
  let c := s.core r.core
  let bank (o : Nat) : Bool := decide (2048 * r.slot ≤ o ∧ o < 2048 * r.slot + 2048)
  let granules (o : Nat) : Bool := decide (256 * r.slot ≤ o ∧ o < 256 * r.slot + 256)
  { world := match t with | some t => t.world | none => match share.head? with | some f => f.world | none => 0,
    thread := t.map (savedThread s r),
    bank := if t.isSome then c.mem.filter (fun p => bank p.1) else [], scale := if t.isSome then c.scale.filter (fun p => granules p.1) else [],
    emptyW := if t.isSome then c.emptyW.filter bank else [], poison := if t.isSome then c.poison.filter bank else [],
    scalePoison := if t.isSome then c.scalePoison.filter granules else [], queue := share, away := true }

/-- SAVE the slot (R428, steps 2-6): its gang aborts, its requests are withdrawn, thread, bank and scale granules go to the outgoing
area, with the polder's queue share; slot and bank are scrubbed. -/
def State.saveSlot (s : State) (k : Rotation) (r : SlotRef) (va : Nat) : State :=
  let s1 : State := s.leaveGang r
  let share := s1.queueShare k r.core
  let t := s1.thread? r
  if t.isNone && share.isEmpty then s1.scrubBank r
  else
    let area := s1.saveArea r t share
    let s2 : State := (s1.withdraw r).unparkRecords r
    let s3 : State := s2.modCore r.core (fun q => { q with arrivals := q.arrivals.filter (fun f => !share.contains f) })
    let bytes := s3.areaBytes s3.seq
    let s4 : State := { s3 with saves := s3.saves ++ [(s3.seq, area)], seq := s3.seq + 2048 }
    let s5 : State := (s4.agentWrite securitySource 3 area.world va bytes).1
    let s6 : State := (s5.clearSlot r).scrubBank r
    match t with
    | none => s6
    | some t =>
      { s6 with scrubs := tmod Scrub.zero s6.scrubs t.world (fun u =>
          { u with regs := u.regs + 1, loc := u.loc + 2304, tiles := u.tiles + t.tiles.length, banks := setAdd u.banks (16 * r.core + r.slot),
                   polders := setAdd u.polders t.polder }) }

/-- Cells put back into a memory. -/
def putCells (m l : List Host.Cell) : List Host.Cell := l.foldl (fun m p => cellPut m p.1 p.2) m

/-- RESTORE the slot from an incoming area (R427, R428 step 7): an area whose bytes are not those of a save gives an empty slot. -/
def State.restoreSlot (s : State) (r : SlotRef) (world va : Nat) : State :=
  if va = 0 then s
  else
    match s.agentRead securitySource 3 world va 16384 with
    | (s1, none) => s1
    | (s1, some b) =>
      match s1.saves.find? (fun p => decide (p.2.world = world) && decide (s1.areaBytes p.1 = b)) with
      | none => s1
      | some (base, a) =>
        let s2 : State := { s1 with saves := s1.saves.map (fun p => if p.1 = base then (p.1, { p.2 with away := false }) else p) }
        s2.modCore r.core (fun k =>
          let v := k.slot r.slot
          let k1 : Core := k.setSlot r.slot { v with thread := a.thread }
          { k1 with
            mem := putCells k1.mem a.bank, scale := putCells k1.scale a.scale,
            emptyW := a.emptyW.foldl setAdd k1.emptyW, poison := a.poison.foldl setAdd k1.poison,
            scalePoison := a.scalePoison.foldl setAdd k1.scalePoison,
            arrivals := k1.arrivals ++ a.queue })

/-- The hand-over of a slot, whose store-buffer entries have been performed: it saves, scrubs and restores (R428-R430). -/
def State.handOver (s : State) (k : Rotation) (r : SlotRef) : State :=
  let x := s.saveAreas k r
  let s1 : State := (x.1.saveSlot k r x.2.1).restoreSlot r x.2.2.1 x.2.2.2
  let k1 : Rotation := { k with left := k.left.erase r, begun := k.begun.erase r }
  let rest := s1.rotations.filter (fun q => q.polder ≠ k.polder)
  let s2 : State := { s1 with rotations := if k1.left.isEmpty then rest else rest ++ [k1] }
  (s2.slotFreed r.core).bankerTurn r.core

/-- SLOT_HANDOVER: at a slot's first turn after a rotation request its hand-over begins, and once its store-buffer entries have been
performed the slot saves, scrubs and restores (R428-R430). -/
def execSlotHandover (s : State) : Host.Outcome State Fault Refusal :=
  let r : SlotRef := { core := s.arg.core, slot := s.arg.slot }
  match s.rotations.find? (fun k => k.polder = s.arg.n) with
  | none => .next s
  | some k =>
    if !k.left.contains r then .next s
    else if (s.core r.core).buf.any (fun e => e.slot = r.slot) then
      .next { s with rotations := s.rotations.map (fun q => if q.polder = k.polder ∧ ¬ q.begun.contains r then { q with begun := q.begun ++ [r] } else q) }
    else
      .next (s.whole (fun s => s.handOver k r) (fun s => s))

end Sys2Proof.Machine
end

