-- ==== Sys2Proof/Machine/Host.lean ====
section
/-!
DEFINITION. What arrives from outside the module: accesses of host functions (R123, R455-R459), external ports (R108, R109), resets of
functions, and the requests of the SPDM responder (R454).
-/

namespace Sys2Proof.Machine

/-! ### Accesses by the host (R123, R455; log entry 26)

The arguments of a host access: `slot` is its number in the posted sub-stream (for a read, that of the first posted write after it),
`n` the function, `core` the space (0 module memory through the tables of the function's world, 1 BAR0, 2 BAR2 of function 0), `m` the
address or offset, and the data of a write or the number of bytes, in `word`, of a read. -/

/-- The world whose memory a function reaches: world 0 for physical function 0, the bound world for a virtual function. -/
def State.fnWorld (s : State) (k : Nat) : Option Nat :=
  if k = 0 then some 0
  else
    let f := tget HostFn.reset s.fns k
    match f.bound with
    | some b => if f.enabled then some b.2 else none
    | none => none

/-- The pending bits of a function as bytes (R455, R458). -/
def pendingByte (f : HostFn) (i : Nat) : Byte :=
  BitVec.ofNat 8 ((List.range 8).foldl (fun acc j => acc + if f.pending.any (fun p => p.1 = 8 * i + j) then 2 ^ j else 0) 0)

/-- Write bytes of the pending bit array: a paused function's bits are the hypervisor's to write (R458). -/
def State.writePending (s : State) (k off : Nat) (data : List Byte) : State :=
  let f := tget HostFn.reset s.fns k
  if f.state ≠ 2 then s
  else
    let inside (v : Nat) : Bool := decide (8 * off ≤ v ∧ v < 8 * (off + data.length))
    let set := (List.range (8 * data.length)).filter (fun i => (data.getD (i / 8) 0).getLsbD (i % 8))
    let kept := f.pending.filter (fun p => !inside p.1 || set.contains (p.1 - 8 * off))
    let new := (set.map (fun i => i + 8 * off)).filter (fun v => !f.pending.any (fun p => p.1 = v))
    let x := s.mint hostLinkSource
    { x.2 with fns := tput s.fns k { f with pending := kept ++ new.map (fun v => (v, x.1)) } }

/-- A write to BAR0 of a function: the headgate window, the MSI-X table, the pending bits, the receipt buffer's address
(R332, R455, R459). -/
def State.writeBar0 (s : State) (k off : Nat) (data : List Byte) : State :=
  let f := tget HostFn.reset s.fns k
  if off = 0 ∧ data.length = 64 then { s with urgent := s.urgent ++ [{ what := .hostLaunch, arg := { n := k, data := data } }] }
  else if 0x10000 ≤ off ∧ off + data.length ≤ 0x18000 then
    { s with fns := tput s.fns k { f with msix := cellsPut f.msix (off - 0x10000) data } }
  else if 0x20000 ≤ off ∧ off + data.length ≤ 0x20100 then s.writePending k (off - 0x20000) data
  else if off = 0x30000 ∧ data.length = 8 then { s with fns := tput s.fns k { f with receipt := leNat data } }
  else s

/-- HOST_POSTED_WRITE: a posted write of the host is performed, in the order of the posted sub-stream (R123). -/
def execHostPostedWrite (s : State) : Host.Outcome State Fault Refusal :=
  let a := s.arg
  if s.postedBefore a.slot then .next (s.later .hostPostedWrite a)
  else if a.core = 2 then
    if a.n ≠ 0 then .next s
    else
      let e : Due := { what := deviceEvent (2 ^ 40 + a.m) a.data,
                       arg := { n := if deviceEvent (2 ^ 40 + a.m) a.data = .measurementExtend then 6 + (a.m - 0x34400) / 64 else 2 ^ 40 + a.m,
                                data := a.data, master := some .hostDriver } }
      .next { s with urgent := s.urgent ++ [e] }
  else if a.core = 1 then .next (s.writeBar0 a.n a.m a.data)
  else
    match s.fnWorld a.n with
    | none => .next s
    | some w => .next (s.whole (fun s => (s.agentWrite hostLinkSource 4 w a.m a.data).1) (fun s => s.later .hostPostedWrite a))

/-- HOST_READ: a read by the host returns after every earlier posted write has been performed (R123). -/
def execHostRead (s : State) : Host.Outcome State Fault Refusal :=
  let a := s.arg
  let n := a.word.toNat
  let f := tget HostFn.reset s.fns a.n
  if s.postedBefore a.slot then .next (s.later .hostRead a)
  else if a.core = 2 then
    if a.n ≠ 0 then .next (s.emit (.hostFault a.n))
    else
      let x := s.deviceRead (2 ^ 40 + a.m) n
      .next (x.1.emit (.hostData 0 x.2))
  else if a.core = 1 then
    if 0x20000 ≤ a.m ∧ a.m + n ≤ 0x20100 then .next (s.emit (.hostData a.n ((List.range n).map (fun i => pendingByte f (a.m - 0x20000 + i)))))
    else if 0x10000 ≤ a.m ∧ a.m + n ≤ 0x18000 then .next (s.emit (.hostData a.n (cellsGet f.msix (a.m - 0x10000) n)))
    else
      let x := s.freshBytes n n
      .next (x.2.emit (.hostData a.n x.1))
  else
    match s.fnWorld a.n with
    | none => .next (s.emit (.hostFault a.n))
    | some w =>
      .next (s.whole (fun s => match s.agentRead hostLinkSource 4 w a.m n with
        | (s1, some b) => s1.emit (.hostData a.n b)
        | (s1, none) => s1.emit (.hostFault a.n)) (fun s => s.later .hostRead a))

/-- EXTERNAL_PORT_ACCESS: a far access of an agent behind an external port (R108, R109; log entry 26): `n` the port, `word` the world
that it acts for, `m` the global address; a read of `slot` bytes, or, with argument `flag`, a write of the data. -/
def execExternalPortAccess (s : State) : Host.Outcome State Fault Refusal :=
  let a := s.arg
  let src := sourceNo 4 0 (a.n + 1)
  let world := a.word.toNat % 256
  let access (s : State) : State :=
    if a.flag then
      match s.agentWrite src 4 world a.m a.data with
      | (s1, true) => s1
      | (s1, false) => s1.emit (.portFault a.n)
    else
      match s.agentRead src 4 world a.m a.slot with
      | (s1, some b) => s1.emit (.portData a.n b)
      | (s1, none) => s1.emit (.portFault a.n)
  .next (s.whole access (fun s => s.later .externalPortAccess a))

/-! ### Functions (R458, R459) -/

/-- Terminate the regions that a function launched, and their descendants. -/
def State.terminateFn (s : State) (k : Nat) : State :=
  (s.regions.filter (fun g => g.fn = k)).foldl (fun s g => terminateRegion s g.id) s

/-- FUNCTION_LEVEL_RESET: the function's regions are terminated; pending bits whose stamps precede the reset's are cleared (R458). -/
def execFunctionLevelReset (s : State) : Host.Outcome State Fault Refusal :=
  let k := s.arg.n
  let x := s.mint hostLinkSource
  let s1 : State := x.2.terminateFn k
  let f := tget HostFn.reset s1.fns k
  .next { s1 with fns := tput s1.fns k { f with pending := f.pending.filter (fun p => !p.2.before x.1) } }

/-- VF_ENABLE_SET: the virtual functions are enabled (R459). -/
def execVfEnableSet (s : State) : Host.Outcome State Fault Refusal :=
  .next ((List.range 16).foldl (fun s k => { s with fns := tmod HostFn.reset s.fns (k + 1) (fun f => { f with enabled := true }) }) s)

/-- One enabled virtual function loses VF Enable: its regions are terminated, its requests end with Completer Abort, its bound world is
destroyed with the receipt at the buffer address of its BAR0 (R459). -/
def State.disableFn (s : State) (k : Nat) : State :=
  let f := tget HostFn.reset s.fns k
  if !f.enabled then s
  else
    let s1 : State := (s.terminateFn k).emit (.completerAbort k)
    let s2 : State := { s1 with fns := tmod HostFn.reset s1.fns k (fun f => { f with enabled := false }) }
    match f.bound with
    | some b => s2.later .destroy { m := k + 1, data := [2, BitVec.ofNat 8 b.2, 0, 0, 0, 0, 0, 0] ++ natLe f.receipt 8 }
    | none => s2

/-- VF_ENABLE_CLEAR: for each enabled virtual function in ascending order (R459). -/
def execVfEnableClear (s : State) : Host.Outcome State Fault Refusal :=
  .next ((List.range 16).foldl (fun s k => s.disableFn (k + 1)) s)

/-! ### The SPDM responder (R454; log entry 6) -/

/-- What a request finds: the stage it must come at, the stage it leads to, the code that its content is asked for by. -/
structure SpdmForm where
  code  : Nat
  least : Nat
  most  : Nat
  next  : Nat
  signs : Bool
  deriving DecidableEq, Repr

/-- Answer a request, or refuse it with UnexpectedRequest and leave the transcript as it was (R454). -/
def spdmAnswer (s : State) (f : SpdmForm) : Host.Outcome State Fault Refusal :=
  let req := s.arg.data
  if s.spdmStage < f.least ∨ f.most < s.spdmStage then .next (s.emit (.spdmError 4))
  else
    let before := if f.next = 1 then [] else s.spdmTrans
    let regs := (List.range 16).flatMap (fun k => bytesAt (tget [] s.measures k) 0 64)
    let body := Config.spdmResponse f.code before (if f.code = 0xE0 then req ++ regs else req)
    let sig := if f.signs then Config.slhDsaSign (shake256 (before ++ req ++ body) 64) else []
    let s1 : State := { s with spdmStage := f.next, spdmTrans := before ++ req ++ body ++ sig }
    .next (s1.emit (.spdm (body ++ sig)))

/-- GET_VERSION: it restarts the transcript at any time. -/
def execGetVersion (s : State) : Host.Outcome State Fault Refusal :=
  spdmAnswer s { code := 0x84, least := 0, most := 3, next := 1, signs := false }

/-- GET_CAPABILITIES: after GET_VERSION. -/
def execGetCapabilities (s : State) : Host.Outcome State Fault Refusal :=
  spdmAnswer s { code := 0xE1, least := 1, most := 1, next := 2, signs := false }

/-- NEGOTIATE_ALGORITHMS: after GET_CAPABILITIES. -/
def execNegotiateAlgorithms (s : State) : Host.Outcome State Fault Refusal :=
  spdmAnswer s { code := 0xE3, least := 2, most := 2, next := 3, signs := false }

/-- GET_DIGESTS. -/
def execGetDigests (s : State) : Host.Outcome State Fault Refusal :=
  spdmAnswer s { code := 0x81, least := 3, most := 3, next := 3, signs := false }

/-- GET_CERTIFICATE. -/
def execGetCertificate (s : State) : Host.Outcome State Fault Refusal :=
  spdmAnswer s { code := 0x82, least := 3, most := 3, next := 3, signs := false }

/-- CHALLENGE: its answer is signed over the running transcript. -/
def execChallenge (s : State) : Host.Outcome State Fault Refusal :=
  spdmAnswer s { code := 0x83, least := 3, most := 3, next := 3, signs := true }

/-- GET_MEASUREMENTS: blocks 0-15, one for each register, signed over the running transcript. -/
def execGetMeasurements (s : State) : Host.Outcome State Fault Refusal :=
  spdmAnswer s { code := 0xE0, least := 3, most := 3, next := 3, signs := true }

end Sys2Proof.Machine
end

