-- ==== Sys2Proof/Machine/Integer.lean ====
section
/-!
DEFINITION. The integer register forms and the immediate forms (R217-R221).
-/

namespace Sys2Proof.Machine

/-! ### What the forms compute (R154, R217, R220) -/

/-- Bits 127:64 of the signed product. -/
def mulHigh (a b : Word) : Word := BitVec.ofInt 64 (a.toInt * b.toInt / 2 ^ 64)

/-- Bits 127:64 of the unsigned product. -/
def mulHighN (a b : Word) : Word := BitVec.ofNat 64 (a.toNat * b.toNat / 2 ^ 64)

/-- Signed quotient toward zero; all ones for a divisor of 0. -/
def divSigned (a b : Word) : Word := if b = 0 then BitVec.allOnes 64 else BitVec.ofInt 64 (a.toInt.tdiv b.toInt)

def divNatural (a b : Word) : Word := if b = 0 then BitVec.allOnes 64 else BitVec.ofNat 64 (a.toNat / b.toNat)

/-- Signed remainder with the sign of the dividend; the dividend for a divisor of 0. -/
def remSigned (a b : Word) : Word := if b = 0 then a else BitVec.ofInt 64 (a.toInt.tmod b.toInt)

def remNatural (a b : Word) : Word := if b = 0 then a else BitVec.ofNat 64 (a.toNat % b.toNat)

/-- Shifts by bits 5:0 of the count. -/
def shiftLeft (a b : Word) : Word := a <<< (b.toNat % 64)
def shiftRight (a b : Word) : Word := a >>> (b.toNat % 64)
def shiftArith (a b : Word) : Word := a.sshiftRight (b.toNat % 64)

def minSigned (a b : Word) : Word := if b.slt a then b else a
def maxSigned (a b : Word) : Word := if a.slt b then b else a
def minNatural (a b : Word) : Word := if b.ult a then b else a
def maxNatural (a b : Word) : Word := if a.ult b then b else a

def leadingZeros (a : Word) : Word := if a = 0 then 64 else BitVec.ofNat 64 (63 - topBit a.toNat)

def oneBits (a : Word) : Word := BitVec.ofNat 64 ((List.range 64).countP (fun i => a.getLsbD i))

/-- The number of bits a field length names: 0 stands for 64 (R220). -/
def fieldLen (len : BitVec 6) : Nat := if len = 0 then 64 else len.toNat

def fieldMask (len : BitVec 6) : Word := BitVec.ofNat 64 (2 ^ fieldLen len - 1)

def extractField (a : Word) (pos len : BitVec 6) : Word := (a >>> pos.toNat) &&& fieldMask len

def insertField (d a : Word) (pos len : BitVec 6) : Word :=
  (d &&& ~~~(fieldMask len <<< pos.toNat)) ||| ((a &&& fieldMask len) <<< pos.toNat)

/-- A form that writes a constant to d. -/
def constant (v : Word) (d : Reg) (len : Nat) (s : State) : Host.Outcome State Fault Refusal :=
  issueLen s len fun t => do
    checkDest s t d
    return retire s t [] [] (some (d, v)) len

/-- A form that reads a and d and writes d. -/
def updating (f : Word → Word → Word) (d a : Reg) (s : State) : Host.Outcome State Fault Refusal :=
  issue s fun t => do
    let x ← readReg s t [] a
    let y ← readReg s t [a] d
    checkDest s t d
    return retire s t [a, d] [] (some (d, f y x)) 4

/-! ### The forms -/

/-- ADD (R217). -/
def execAdd (d a b : Reg) (m : Marks) (s : State) : Host.Outcome State Fault Refusal :=
  binary (fun x y => x + y) d a b m s

/-- SUB (R217). -/
def execSub (d a b : Reg) (m : Marks) (s : State) : Host.Outcome State Fault Refusal :=
  binary (fun x y => x - y) d a b m s

/-- MUL: bits 63:0 of the product (R217). -/
def execMul (d a b : Reg) (m : Marks) (s : State) : Host.Outcome State Fault Refusal :=
  binary (fun x y => x * y) d a b m s

/-- MULH (R217). -/
def execMulh (d a b : Reg) (m : Marks) (s : State) : Host.Outcome State Fault Refusal :=
  binary (mulHigh) d a b m s

/-- MULHN (R217). -/
def execMulhn (d a b : Reg) (m : Marks) (s : State) : Host.Outcome State Fault Refusal :=
  binary (mulHighN) d a b m s

/-- DIV (R217). -/
def execDiv (d a b : Reg) (m : Marks) (s : State) : Host.Outcome State Fault Refusal :=
  binary (divSigned) d a b m s

/-- DIVN (R217). -/
def execDivn (d a b : Reg) (m : Marks) (s : State) : Host.Outcome State Fault Refusal :=
  binary (divNatural) d a b m s

/-- REM (R217). -/
def execRem (d a b : Reg) (m : Marks) (s : State) : Host.Outcome State Fault Refusal :=
  binary (remSigned) d a b m s

/-- REMN (R217). -/
def execRemn (d a b : Reg) (m : Marks) (s : State) : Host.Outcome State Fault Refusal :=
  binary (remNatural) d a b m s

/-- AND (R217). -/
def execAnd (d a b : Reg) (m : Marks) (s : State) : Host.Outcome State Fault Refusal :=
  binary (fun x y => x &&& y) d a b m s

/-- OR (R217). -/
def execOr (d a b : Reg) (m : Marks) (s : State) : Host.Outcome State Fault Refusal :=
  binary (fun x y => x ||| y) d a b m s

/-- XOR (R217). -/
def execXor (d a b : Reg) (m : Marks) (s : State) : Host.Outcome State Fault Refusal :=
  binary (fun x y => x ^^^ y) d a b m s

/-- SHL (R217). -/
def execShl (d a b : Reg) (m : Marks) (s : State) : Host.Outcome State Fault Refusal :=
  binary (shiftLeft) d a b m s

/-- SHR (R217). -/
def execShr (d a b : Reg) (m : Marks) (s : State) : Host.Outcome State Fault Refusal :=
  binary (shiftRight) d a b m s

/-- SAR (R217). -/
def execSar (d a b : Reg) (m : Marks) (s : State) : Host.Outcome State Fault Refusal :=
  binary (shiftArith) d a b m s

/-- ANDN (R217). -/
def execAndn (d a b : Reg) (m : Marks) (s : State) : Host.Outcome State Fault Refusal :=
  binary (fun x y => x &&& ~~~y) d a b m s

/-- MIN (R217). -/
def execMin (d a b : Reg) (m : Marks) (s : State) : Host.Outcome State Fault Refusal :=
  binary (minSigned) d a b m s

/-- MAX (R217). -/
def execMax (d a b : Reg) (m : Marks) (s : State) : Host.Outcome State Fault Refusal :=
  binary (maxSigned) d a b m s

/-- MINN (R217). -/
def execMinn (d a b : Reg) (m : Marks) (s : State) : Host.Outcome State Fault Refusal :=
  binary (minNatural) d a b m s

/-- MAXN (R217). -/
def execMaxn (d a b : Reg) (m : Marks) (s : State) : Host.Outcome State Fault Refusal :=
  binary (maxNatural) d a b m s

/-- CLZ (R217). -/
def execClz (d a : Reg) (ma : Bool) (s : State) : Host.Outcome State Fault Refusal :=
  unary leadingZeros d a ma s

/-- POPC (R217). -/
def execPopc (d a : Reg) (ma : Bool) (s : State) : Host.Outcome State Fault Refusal :=
  unary oneBits d a ma s

/-- MOV (R217). -/
def execMov (d a : Reg) (ma : Bool) (s : State) : Host.Outcome State Fault Refusal :=
  unary id d a ma s

/-- LEA with scale 2 (R217). -/
def execLeaX2 (d a b : Reg) (m : Marks) (s : State) : Host.Outcome State Fault Refusal :=
  binary (fun x y => x + y * 2) d a b m s

/-- LEA with scale 4 (R217). -/
def execLeaX4 (d a b : Reg) (m : Marks) (s : State) : Host.Outcome State Fault Refusal :=
  binary (fun x y => x + y * 4) d a b m s

/-- LEA with scale 8 (R217). -/
def execLeaX8 (d a b : Reg) (m : Marks) (s : State) : Host.Outcome State Fault Refusal :=
  binary (fun x y => x + y * 8) d a b m s

/-- VOID: the register is set empty; a pending one waits for its fill (R182, R217). -/
def execVoid (n : Fin 40) (s : State) : Host.Outcome State Fault Refusal :=
  issue s fun t => do
    checkDest s t (.g n)
    return retire s t [] [(true, .g n)] none 4

/-- ADDI (R219). -/
def execAddi (d a : Reg) (imm : BitVec 12) (s : State) : Host.Outcome State Fault Refusal :=
  unary (fun x => x + sx imm) d a false s

/-- ANDI (R219). -/
def execAndi (d a : Reg) (imm : BitVec 12) (s : State) : Host.Outcome State Fault Refusal :=
  unary (fun x => x &&& sx imm) d a false s

/-- ORI (R219). -/
def execOri (d a : Reg) (imm : BitVec 12) (s : State) : Host.Outcome State Fault Refusal :=
  unary (fun x => x ||| sx imm) d a false s

/-- XORI (R219). -/
def execXori (d a : Reg) (imm : BitVec 12) (s : State) : Host.Outcome State Fault Refusal :=
  unary (fun x => x ^^^ sx imm) d a false s

/-- SHLI (R219). -/
def execShli (d a : Reg) (n : BitVec 6) (s : State) : Host.Outcome State Fault Refusal :=
  unary (fun x => x <<< n.toNat) d a false s

/-- SHRI (R219). -/
def execShri (d a : Reg) (n : BitVec 6) (s : State) : Host.Outcome State Fault Refusal :=
  unary (fun x => x >>> n.toNat) d a false s

/-- SARI (R219). -/
def execSari (d a : Reg) (n : BitVec 6) (s : State) : Host.Outcome State Fault Refusal :=
  unary (fun x => x.sshiftRight n.toNat) d a false s

/-- MOVI (R219). -/
def execMovi (d : Reg) (imm : BitVec 18) (s : State) : Host.Outcome State Fault Refusal := constant (sx imm) d 4 s

/-- BEXT (R220). -/
def execBext (d a : Reg) (pos len : BitVec 6) (s : State) : Host.Outcome State Fault Refusal :=
  unary (fun x => extractField x pos len) d a false s

/-- BINS reads d as well (R220). -/
def execBins (d a : Reg) (pos len : BitVec 6) (s : State) : Host.Outcome State Fault Refusal :=
  updating (fun y x => insertField y x pos len) d a s

/-- MULI (R219). -/
def execMuli (d a : Reg) (imm : BitVec 12) (s : State) : Host.Outcome State Fault Refusal :=
  unary (fun x => x * sx imm) d a false s

/-- MOVL: one instruction of two words (R221). -/
def execMovl (d : Reg) (imm : BitVec 48) (s : State) : Host.Outcome State Fault Refusal := constant (sx imm) d 8 s

end Sys2Proof.Machine
end

