-- ==== Sys2Proof/Machine/Matrix.lean ====
section
/-!
DEFINITION. The joint array (R263-R281): tiles and their transfer, unfold records, and MMA with its gangs.
-/

namespace Sys2Proof.Machine

/-! ### Tiles (R265) -/

/-- An element of a tile: row `i`, column `n`. -/
def tileGet (tile : List (Nat × BitVec 32)) (i n : Nat) : BitVec 32 := tget 0 tile (16 * i + n)

/-- A tile with one element written; +0 is not listed. -/
def tilePut (tile : List (Nat × BitVec 32)) (i n : Nat) (v : BitVec 32) : List (Nat × BitVec 32) :=
  if v = 0 then tdel tile (16 * i + n) else tput tile (16 * i + n) v

/-- The tile a thread holds as tN; REGN where it holds none (R265). -/
def Thread.tile? (t : Thread) (n : Fin 8) : Except Stop (List (Nat × BitVec 32)) :=
  match t.tiles[n.val]? with
  | some v => .ok v
  | none => .error (.trap .regn 0)

/-- Replace a tile of a slot. -/
def State.setTile (s : State) (r : SlotRef) (n : Nat) (tile : List (Nat × BitVec 32)) : State :=
  s.modThread r (fun t => { t with tiles := t.tiles.set n tile })

/-- MZERO (R278). -/
def execMzero (t : Fin 8) (s : State) : Host.Outcome State Fault Refusal :=
  computeForm s (.mzero t) none none none false (fun u _ => do
    let _ ← liftE (u.tile? t)
    modifyS (fun s => s.setTile s.cur t.val [])
    return .done)

/-! ### Tile transfer (R279, R280) -/

/-- The memory operand of MLOAD and MSTORE: 16 by 16 elements in F32, global or W16. -/
def tileView (r : SlotRef) (t : Thread) (e : QEntry) (dest : Bool) (a : VOp) : Except Stop OpView := do
  let v ← viewOf r t e .a dest 0 0xF1 0 a
  need (match v.kind with
    | .shape _ => decide (v.extents = (16, 16, 1, 1))
    | _ => decide (256 ≤ v.streamLen.getD 0)) .win v.addr
  need (decide (v.code = 0xF1 ∨ v.code = 0xF2)) .win v.addr
  return v

/-- The walk of a 16 by 16 tile through a window. -/
def tileWalk (v : OpView) : Walk := { e0 := 16, e1 := 16, e2 := 1, e3 := 1, lanes := 64 / nibs v.code }

/-- A beat's end, after beat number `e.beats` of `n`. -/
def nextBeat (e : QEntry) (n : Nat) : BeatEnd :=
  if e.beats + 1 = n then .done else .more { e with beats := e.beats + 1, waited := true, ports := none }

/-- The bits of a tile element that a value of a window gives: F32 bits unchanged, W16 widened exactly with the canonical NaN, no flag
(R157, R279). -/
def tileBits (code : Nat) (x : EVal) : BitVec 32 := if code = 0xF1 then BitVec.ofNat 32 x.bits else (encodeF32 .rn x.val).1

/-- MLOAD: F32 bits unchanged, W16 widened exactly (R279). -/
def execMload (t : Fin 8) (a : VOp) (s : State) : Host.Outcome State Fault Refusal :=
  computeForm s (.mload t a) none (some a) none false (fun u e => do
    let r := s.cur
    let tile ← liftE (u.tile? t)
    let v ← liftE (tileView r u e false a)
    waitHandles r u e [(.a, false, a)] 0
    let lanes := (tileWalk v).beat e.beats
    let locs ← beatPlaces r u [(v, false, lanes)]
    let vals ← readOperand r u [] v (locs.headD [])
    let tile' := (lanes.zip vals).foldl (fun (m : List (Nat × BitVec 32)) p => tilePut m p.1.i1 p.1.i0 (tileBits v.code p.2)) tile
    modifyS (fun s => s.setTile r t.val tile')
    return nextBeat e (tileWalk v).beats)

/-- MSTORE: F32 bits unchanged, W16 to nearest even with flags (R279). -/
def execMstore (t : Fin 8) (a : VOp) (s : State) : Host.Outcome State Fault Refusal :=
  computeForm s (.mstore t a) none (some a) none false (fun u e => do
    let r := s.cur
    let tile ← liftE (u.tile? t)
    let v ← liftE (tileView r u e true a)
    waitHandles r u e [(.a, true, a)] 0
    let lanes := (tileWalk v).beat e.beats
    let locs ← beatPlaces r u [(v, true, lanes)]
    let outs := lanes.map (fun l =>
      let x := tileGet tile l.i1 l.i0
      if v.code = 0xF1 then (Out.bits x.toNat, (0 : FFlags)) else (Out.val (decodeF32 x), flagNV (decodeF32 x).isSnan))
    let fl ← writeOuts r u .rn v (locs.headD []) (outs.map (fun o => o.1))
    orFlagsR r (outs.foldl (fun g o => g ||| o.2) fl)
    return nextBeat e (tileWalk v).beats)

/-- The memory operand of MSAVE and MREST: at least 1,024 bytes in walk order, raw or global (R280). -/
def saveView (r : SlotRef) (t : Thread) (e : QEntry) (dest : Bool) (a : VOp) : Except Stop (OpView × Walk) := do
  let v ← viewOf r t e .a dest 0 0xF0 0 a
  let x := v.extents
  let walk : Walk := { e0 := x.1, e1 := x.2.1, e2 := x.2.2.1, e3 := x.2.2.2, lanes := 32 }
  need (decide (v.code = 0xF0 ∧ 1024 ≤ walk.size)) .win v.addr
  return (v, walk)

/-- The end of a beat of a walk of which the first 1,024 elements count. -/
def saveBeat (e : QEntry) (walk : Walk) : BeatEnd :=
  if e.beats + 1 = walk.beats then .done
  else match (walk.beat (e.beats + 1)).head? with
    | some l => if 1024 ≤ l.j then .done else .more { e with beats := e.beats + 1, waited := true, ports := none }
    | none => .done

/-- Byte `j` of a tile (R280). -/
def tileByte (tile : List (Nat × BitVec 32)) (j : Nat) : Nat := (tget 0 tile (j / 4)).toNat / 256 ^ (j % 4) % 256

/-- A tile with byte `j` replaced. -/
def tilePutByte (tile : List (Nat × BitVec 32)) (j b : Nat) : List (Nat × BitVec 32) :=
  let old := (tget 0 tile (j / 4)).toNat
  tilePut tile (j / 4 / 16) (j / 4 % 16) (BitVec.ofNat 32 (old - tileByte tile j * 256 ^ (j % 4) + b * 256 ^ (j % 4)))

/-- MSAVE: the bytes of a tile, unchanged (R280). -/
def execMsave (t : Fin 8) (a : VOp) (s : State) : Host.Outcome State Fault Refusal :=
  computeForm s (.msave t a) none (some a) none false (fun u e => do
    let r := s.cur
    let tile ← liftE (u.tile? t)
    let (v, walk) ← liftE (saveView r u e true a)
    waitHandles r u e [(.a, true, a)] 0
    let lanes := (walk.beat e.beats).filter (fun l => decide (l.j < 1024))
    let locs ← beatPlaces r u [(v, true, lanes)]
    let _ ← writeOuts r u .rn v (locs.headD []) (lanes.map (fun l => Out.bits (tileByte tile l.j)))
    return saveBeat e walk)

/-- MREST: bytes back into a tile, unchanged (R280). -/
def execMrest (t : Fin 8) (a : VOp) (s : State) : Host.Outcome State Fault Refusal :=
  computeForm s (.mrest t a) none (some a) none false (fun u e => do
    let r := s.cur
    let tile ← liftE (u.tile? t)
    let (v, walk) ← liftE (saveView r u e false a)
    waitHandles r u e [(.a, false, a)] 0
    let lanes := (walk.beat e.beats).filter (fun l => decide (l.j < 1024))
    let locs ← beatPlaces r u [(v, false, lanes)]
    let vals ← readOperand r u [] v (locs.headD [])
    let tile' := (lanes.zip vals).foldl (fun (m : List (Nat × BitVec 32)) p => tilePutByte m p.1.j p.2.bits) tile
    modifyS (fun s => s.setTile r t.val tile')
    return saveBeat e walk)

/-! ### Unfold records (R267-R269) -/

/-- K of an unfold descriptor. -/
def unfoldK (u : Shape) : Nat := bitsOf u.w2 15 8 * bitsOf u.w2 23 16 * bitsOf u.w1 15 0

/-- The first check of R268: the fields of a descriptor, its window, its core, its end. -/
def unfoldFits (r : SlotRef) (u : Shape) : Bool :=
  let c := bitsOf u.w1 15 0
  let m := bitsOf u.w3 36 32
  decide (windowOf u.w0 = 0xF2 ∨ windowOf u.w0 = 0xF3 ∨ windowOf u.w0 = 0xF4) && fieldsZero u.w0
    && decide (bitsOf u.w0 22 16 = inCluster r.core)
    && decide (bitsOf u.w2 63 56 = 0 ∧ bitsOf u.w2 7 0 = 0 ∧ bitsOf u.w3 63 37 = 0)
    && decide (1 ≤ bitsOf u.w1 63 48 ∧ 1 ≤ bitsOf u.w1 47 32 ∧ 1 ≤ bitsOf u.w1 31 16)
    && decide (c % 32 = 0 ∧ 32 ≤ c ∧ c ≤ 4096)
    && decide (1 ≤ bitsOf u.w2 39 32 ∧ 1 ≤ bitsOf u.w2 31 24 ∧ 1 ≤ bitsOf u.w2 23 16 ∧ 1 ≤ bitsOf u.w2 15 8)
    && decide (1 ≤ m ∧ m ≤ 16) && decide (unfoldK u ≤ 4096)
    && decide ((unfoldSpan u).1 + (unfoldSpan u).2 ≤ 32768)

/-- The alignment of a descriptor's base (R268). -/
def unfoldAligned (u : Shape) : Bool :=
  let n := if windowOf u.w0 = 0xF3 then 32 else if windowOf u.w0 = 0xF4 then 16 else 2
  decide (bitsOf u.w0 14 0 % n = 0)

/-- Whether the slot's dikes admit a descriptor's activation and its scale pairs (R268). -/
def unfoldDikes (s : State) (r : SlotRef) (world : Nat) (u : Shape) : Bool :=
  dikeFits s r.slot world (.loc r.core (unfoldSpan u).1) (unfoldSpan u).2

/-- UNF: check a descriptor and bind an unfold record (R268). -/
def execUnf (f : Fin 4) (sh : Fin 16) (s : State) : Host.Outcome State Fault Refusal :=
  computeForm s (.unf f sh) none none (some (.s sh)) false (fun t e => do
    let r := s.cur
    let u := e.opB.getD Shape.zero
    needR (unfoldFits r u) .win u.w0
    needR (unfoldAligned u) .align u.w0
    needR (unfoldDikes (← get) r t.world u) .dike u.w0
    modifyS (fun s => s.modThread r (fun t => { t with unfolds := t.unfolds.set f (some u) }))
    return .done)

/-- The element of the activation that is element (i, k) of A, none where A is +0 (R269). -/
def unfoldElem (u : Shape) (i k : Nat) : Option Nat :=
  if bitsOf u.w3 36 32 ≤ i then none
  else
    let c := bitsOf u.w1 15 0
    let w := bitsOf u.w1 31 16
    let h := bitsOf u.w1 47 32
    let ow := bitsOf u.w1 63 48
    let kw := bitsOf u.w2 23 16
    let p := bitsOf u.w3 31 0 + i
    let tap := k / c
    let y : Int := (p / ow : Nat) * (bitsOf u.w2 31 24 : Nat) + (tap / kw : Nat) - (bitsOf u.w2 47 40 : Nat)
    let x : Int := (p % ow : Nat) * (bitsOf u.w2 39 32 : Nat) + (tap % kw : Nat) - (bitsOf u.w2 55 48 : Nat)
    if 0 ≤ y ∧ y < h ∧ 0 ≤ x ∧ x < w then some ((y.toNat * w + x.toNat) * c + k % c) else none

/-! ### MMA operands (R270, R271) -/

/-- A view of an A or B operand of MMA: a global one is decoded as W16 (R270). -/
def mmaView (r : SlotRef) (t : Thread) (e : QEntry) (role : Role) (op : VOp) : Except Stop OpView := do
  let v ← viewOf r t e role false 0 0xF2 0 op
  need (decide (v.code = 0xF2) || isBx v.code) .win v.addr
  return v

/-- The elements that a stream operand of 16 rows may give each row. -/
def OpView.rowLen (v : OpView) : Nat :=
  match v.kind with
  | .shape sh => sh.ext 0
  | _ => v.streamLen.getD 0 / 16

/-- Whether K is one that a format allows (R270). -/
def kFits (code k : Nat) : Bool := decide (1 ≤ k ∧ k ≤ 4096) && (!isBx code || decide (k % 32 = 0))

/-- The rows that an operand itself supplies: the second extent of a shape, 16 of a handle. -/
def OpView.rowCount (v : OpView) : Nat :=
  match v.kind with
  | .shape sh => sh.ext 1
  | _ => 16

/-- Whether a stream operand can supply rows of K elements: a shape has exactly K, a handle enough. -/
def OpView.gives (v : OpView) (k : Nat) : Bool :=
  match v.kind with
  | .shape _ => decide (v.rowLen = k)
  | _ => decide (k ≤ v.rowLen)

/-- Element k of row n of an operand with rows of K elements. -/
def OpView.cell (v : OpView) (r : SlotRef) (kk n k : Nat) : Except Stop ELoc :=
  v.at r { i0 := k, i1 := n, i2 := 0, i3 := 0, j := n * kk + k, lane := 0 }

/-- The ends of the rows that an operand supplies, each in its window (R25, R245). -/
def rowEnds (r : SlotRef) (v : OpView) (kk : Nat) : Except Stop (List (ELoc × ELoc)) :=
  (List.range v.rowCount).mapM (fun n => do return (← v.cell r kk n 0, ← v.cell r kk n (kk - 1)))

/-- A row of blocks starts on a block boundary (R270). -/
def rowAlign (code : Nat) (e : ELoc × ELoc) : Except Stop Unit :=
  match e.1 with
  | .loc c o up => need (!isBx code || (!up && decide ((blockOf code o).1 = o))) .align (locAddr code c o)
  | _ => .ok ()

/-- The dikes admit the bytes of a row, and with them the pairs of its blocks (R135, R141). -/
def rowDike (s : State) (r : SlotRef) (t : Thread) (code : Nat) (e : ELoc × ELoc) : Except Stop Unit :=
  match e with
  | (.loc c o _, .loc _ z _) => need (dikeFits s r.slot t.world (.loc c o) (z + elemBytes code - o)) .dike (locAddr code c o)
  | _ => .ok ()

/-- The checks of R245 on operands with rows of K elements, over every byte that they supply: WIN, ALIGN, DIKE. -/
def ownCheck (s : State) (r : SlotRef) (t : Thread) (vs : List OpView) (kk : Nat) : Except Stop Unit := do
  let ls ← vs.mapM (fun v => rowEnds r v kk)
  alignAll vs
  (vs.zip ls).forM (fun p => p.2.forM (rowAlign p.1.code))
  (vs.zip ls).forM (fun p => p.2.forM (rowDike s r t p.1.code))

/-- The shape of an A operand (1-16 rows) or a B operand (16 rows), and K where the operand alone decides it. -/
def rowsFit (v : OpView) (a : Bool) : Bool :=
  match v.kind with
  | .shape sh => decide (sh.ext 2 = 1 ∧ sh.ext 3 = 1) && (if a then decide (1 ≤ sh.ext 1 ∧ sh.ext 1 ≤ 16) else decide (sh.ext 1 = 16))
  | _ => true

/-- Where the lead takes A from: its unfold record or a stream operand. -/
inductive ASource where
  | unfold (u : Shape)
  | view (v : OpView)
  deriving DecidableEq, Repr

def ASource.code : ASource → Nat
  | .unfold u => windowOf u.w0
  | .view v => v.code

/-- What an MMA names: its tile, its A operand as an unfold record or an operand, its B operand, its LEAD flag. -/
structure MmaForm where
  tile : Fin 8
  rec_ : Option (Fin 4)
  a    : Option VOp
  b    : VOp
  lead : Bool
  deriving DecidableEq, Repr

def mmaForm : Instr → Option MmaForm
  | .mmaUnfold t f b lead => some { tile := t, rec_ := some f, a := none, b := b, lead := lead }
  | .mmaShape t a b lead => some { tile := t, rec_ := none, a := some a, b := b, lead := lead }
  | _ => none

/-- The A operand of the lead: the bound record (WIN when it is not), or a stream operand of the form R270 asks. -/
def leadA (r : SlotRef) (t : Thread) (e : QEntry) (f : MmaForm) : Except Stop ASource :=
  match f.rec_, f.a with
  | some n, _ => match t.unfolds[n] with
    | some u => .ok (.unfold u)
    | none => .error (.trap .win 0)
  | none, some op => do
    let v ← mmaView r t e .a op
    need (rowsFit v true) .win v.addr
    return .view v
  | none, none => .error (.trap .win 0)

/-- K of a gang as its lead decides it: its record's, or its A shape's, or its B shape's, or what both handles supply (R270,
log entry 20). -/
def leadK (a : ASource) (b : OpView) : Nat :=
  match a with
  | .unfold u => unfoldK u
  | .view v =>
    match v.kind, b.kind with
    | .shape sh, _ => sh.ext 0
    | _, .shape sh => sh.ext 0
    | _, _ => min v.rowLen b.rowLen

/-- The B operand of a participant, with 16 rows of a length that its format allows (R270). -/
def gangB (r : SlotRef) (t : Thread) (e : QEntry) (f : MmaForm) : Except Stop OpView := do
  let b ← mmaView r t e .b f.b
  need (rowsFit b false && (match b.kind with | .shape sh => kFits b.code (sh.ext 0) | _ => true)) .win b.addr
  return b

/-- The K of which a participant's B alone is sure: a shape's, or the least that the format allows. -/
def OpView.sureK (b : OpView) : Nat :=
  match b.kind with
  | .shape sh => sh.ext 0
  | _ => if isBx b.code then 32 else 1

/-- Whether A's format and K are those of a B operand (R270, R272). -/
def kMatches (code k : Nat) (b : OpView) : Bool := decide (code = b.code) && kFits b.code k && b.gives k

/-- The lead's operands and K (R270). -/
def leadShape (r : SlotRef) (t : Thread) (e : QEntry) (f : MmaForm) : Except Stop (ASource × OpView × Nat) := do
  let b ← gangB r t e f
  let a ← leadA r t e f
  return (a, b, leadK a b)

/-- The checks of the lead at its arrival (R271): its own stream operands, then its record, bound and within the dikes. -/
def leadCheck (s : State) (r : SlotRef) (t : Thread) (e : QEntry) (f : MmaForm) : Except Stop (ASource × OpView × Nat) := do
  let b ← gangB r t e f
  match f.rec_ with
  | some _ => ownCheck s r t [b] b.sureK
  | none => .ok ()
  let a ← leadA r t e f
  let k := leadK a b
  need (kMatches a.code k b) .win b.addr
  match a with
  | .view v => do
    need (v.gives k) .win v.addr
    ownCheck s r t [v, b] k
  | .unfold u => do
    ownCheck s r t [b] k
    need (unfoldDikes s r t.world u) .dike u.w0
  return (a, b, k)

/-- The checks of another core's B operand at its arrival (R271): over every byte that it is sure to read before the lead has broadcast K. -/
def otherCheck (s : State) (r : SlotRef) (t : Thread) (e : QEntry) (f : MmaForm) : Except Stop OpView := do
  let b ← gangB r t e f
  ownCheck s r t [b] b.sureK
  return b

/-! ### Forming a gang (R271, R272) -/

/-- A participant's thread and the MMA at the head of its queue. -/
def State.gangHead (s : State) (r : SlotRef) : Option (Thread × QEntry × MmaForm) :=
  match s.thread? r with
  | some t => match t.cq with
    | e :: _ => (mmaForm e.instr).map (fun f => (t, e, f))
    | [] => none
  | none => none

/-- A participant's arrival is withdrawn and its instruction faults with its precision (R272, R274). -/
def State.gangFault (s : State) (r : SlotRef) (c : Cause) (addr : Word) : State :=
  match s.gangHead r with
  | none => s
  | some (_, e, _) =>
    let s1 : State := s.leaveGang r
    if e.serial then takeSerial s1 r c addr e else takeImprecise s1 r c addr e

/-- The fault of a check of one participant. -/
def faultOf {α : Type} (r : SlotRef) (x : Except Stop α) : Option (SlotRef × Cause × Word) :=
  match x with
  | .error (.trap c a) => some (r, c, a)
  | _ => none

/-- The K check on a participant other than the lead (R272). -/
def kFault (r : SlotRef) (u : Thread) (x : QEntry) (g : MmaForm) (code k : Nat) : Option (SlotRef × Cause × Word) :=
  faultOf r (do
    let b ← gangB r u x g
    need (kMatches code k b) .win b.addr)

/-- The dike check on a participant at formation, the lead's record among what it covers (R137, R272). -/
def dikeFault (s : State) (r : SlotRef) (u : Thread) (x : QEntry) (g : MmaForm) (k : Nat) : Option (SlotRef × Cause × Word) :=
  if g.lead then faultOf r (leadCheck s r u x g)
  else faultOf r (do
    let b ← gangB r u x g
    ownCheck s r u [b] k)

/-- The faults of the checks made when a gang forms, in their order: worlds; K and format; dikes, of every participant (R272). -/
def State.formFaults (s : State) (slots : List SlotRef) : List (SlotRef × Cause × Word) :=
  let worlds := slots.map (fun r => (s.thread? r).map (fun t => t.world))
  let heads := slots.filterMap (fun r => (s.gangHead r).map (fun h => (r, h)))
  if worlds.any (fun w => w ≠ worlds.headD none) then slots.map (fun r => (r, Cause.prot, 0))
  else match heads with
    | [] => []
    | (lead, t, e, f) :: rest =>
      match leadShape lead t e f with
      | .error st => (faultOf lead (Except.error st : Except Stop Unit)).toList
      | .ok (a, _, k) =>
        match rest.filterMap (fun p => kFault p.1 p.2.1 p.2.2.1 p.2.2.2 a.code k) with
        | [] => heads.filterMap (fun p => dikeFault s p.1 p.2.1 p.2.2.1 p.2.2.2 k)
        | faults => faults

/-- A participant has arrived: the gang forms once all sixteen have (R272). -/
def State.formGang (s : State) (row n : Nat) : State :=
  let g := tget GangRow.reset s.gangs row
  let slots := gangSlots row n
  if slots.all (fun r => g.arrived.contains (n, colOf r.core)) then
    match s.formFaults slots with
    | [] => ({ s with gangs := tput s.gangs row { g with formed := g.formed ++ [n] } }).laterOnce .gangStart { n := row }
    | faults => faults.foldl (fun s p => s.gangFault p.1 p.2.1 p.2.2) s
  else s

/-- An MMA: it enters the queue; at the head, with its handle waits met, it arrives at the gang weir (R270-R272). -/
def mmaExec (i : Instr) (f : MmaForm) (s : State) : Host.Outcome State Fault Refusal :=
  let lead := decide (colOf s.cur.core = 0)
  match s.pipe with
  | .address => enterQueue s i none (if lead then f.a else none) (some f.b) false
  | .compute =>
    match runBeat s (fun t e => do
      let r := s.cur
      let ops := (operandsAt r i).1
      waitHandles r t e ops 0
      let _ ← liftE (t.tile? f.tile)
      needR (decide (f.lead = lead)) .prot 0
      if lead then let _ ← liftE (leadCheck (← get) r t e f)
      else let _ ← liftE (otherCheck (← get) r t e f)
      let enter (g : GangRow) : GangRow := { g with arrived := g.arrived ++ [(r.slot, colOf r.core)] }
      modifyS (fun s => { s with gangs := tmod GangRow.reset s.gangs (rowOf r.core) enter })
      return .more { e with arrived := true, waited := true }) with
    | .next s1 =>
      if (tget GangRow.reset s1.gangs (rowOf s.cur.core)).arrived.contains (s.cur.slot, colOf s.cur.core) then
        .next (s1.formGang (rowOf s.cur.core) s.cur.slot)
      else .next s1
    | x => x

/-- MMA with A from the lead's unfold record. -/
def execMmaUnfold (t : Fin 8) (f : Fin 4) (b : VOp) (lead : Bool) (s : State) : Host.Outcome State Fault Refusal :=
  mmaExec (.mmaUnfold t f b lead) { tile := t, rec_ := some f, a := none, b := b, lead := lead } s

/-- MMA with A from a shape or handle of the lead. -/
def execMmaShape (t : Fin 8) (a b : VOp) (lead : Bool) (s : State) : Host.Outcome State Fault Refusal :=
  mmaExec (.mmaShape t a b lead) { tile := t, rec_ := none, a := some a, b := b, lead := lead } s

/-! ### Running a gang (R273-R277) -/

/-- Some bytes of local memory that an operand of a window reads: with the exponent pairs of its blocks (R140). -/
def localReads (code : Nat) (c : CoreIx) (o len : Nat) : List (Place × Nat) :=
  let n := (blockOf code o).2.1
  (.loc c o, len) :: (if isBx code then (List.range ((len + n - 1) / n)).map (fun i => (.scale c (blockOf code (o + n * i)).2.2, 2)) else [])

/-- Some bytes of global memory that a thread reads: those of each page. -/
def globalReads (s : State) (r : SlotRef) (t : Thread) (a : Word) (len : Nat) : List (Place × Nat) :=
  let k := min len (65536 - a.toNat % 65536)
  [(a, k), (a + BitVec.ofNat 64 k, len - k)].filterMap (fun x =>
    if x.2 = 0 then none
    else match translate s r t x.1 true false with
      | .ok pa => some (.glob pa, x.2)
      | .error _ => none)

/-- The bytes of a row as places. -/
def rowPlaces (s : State) (r : SlotRef) (t : Thread) (v : OpView) (kk n : Nat) : List (Place × Nat) :=
  match v.cell r kk n 0, v.cell r kk n (kk - 1) with
  | .ok (.loc c o _), .ok (.loc _ z _) => localReads v.code c o (z + elemBytes v.code - o)
  | .ok (.glob a), .ok (.glob z) => globalReads s r t a ((z - a).toNat + elemBytes v.code)
  | _, _ => []

/-- The bytes that the A operand reads: of an activation, the channels of each tap that lies inside it (R269). -/
def sourcePlaces (s : State) (r : SlotRef) (t : Thread) (a : ASource) (k : Nat) : List (Place × Nat) :=
  match a with
  | .unfold u =>
    let c := bitsOf u.w1 15 0
    let code := windowOf u.w0
    (List.range 16).flatMap (fun i => (List.range (k / max c 1)).flatMap (fun tap =>
      match unfoldElem u i (tap * c) with
      | some x => localReads code r.core (bitsOf u.w0 14 0 + x * nibs code / 2) (c * nibs code / 2)
      | none => []))
  | .view v => (List.range v.rowCount).flatMap (fun n => rowPlaces s r t v k n)

/-- What each participant reads: column 16 stands for the A operand. -/
def State.gangReads (s : State) (row n : Nat) : List (Nat × Place × Nat) :=
  let lead : SlotRef := { core := row * 16, slot := n }
  match s.gangHead lead with
  | none => []
  | some (t, e, f) =>
    match leadShape lead t e f with
    | .error _ => []
    | .ok (a, _, k) =>
      (sourcePlaces s lead t a k).map (fun p => (16, p))
        ++ (gangSlots row n).flatMap (fun r => match s.gangHead r with
          | none => []
          | some (u, x, g) => match mmaView r u x .b g.b with
            | .ok b => ((List.range 16).flatMap (fun c => rowPlaces s r u b k c)).map (fun p => (colOf r.core, p))
            | .error _ => [])

/-- Whether the tokens of the lead participant's region let its gang start (R276). -/
def State.gangMay (s : State) (row n : Nat) : Bool :=
  match s.thread? { core := row * 16, slot := n } with
  | some t => s.heavyRoom t.region
  | none => false

/-- The gang that a free array starts next (R275). -/
def State.gangPick (s : State) (row : Nat) : Option Nat :=
  let g := tget GangRow.reset s.gangs row
  ((List.range 16).map (fun k => (g.last + 1 + k) % 16)).find? (fun n => g.formed.contains n && s.gangMay row n)

/-- GANG_START: a free array starts a formed gang whose tokens allow it; each core's tile is copied into its shadow (R272,
R273, R275, R276). -/
def execGangStart (s : State) : Host.Outcome State Fault Refusal :=
  let row := s.arg.n
  let g := tget GangRow.reset s.gangs row
  if g.running.isSome then .next s
  else match s.gangPick row with
    | none => .next s
    | some n =>
      let s1 : State := (gangSlots row n).foldl (fun s r => match s.gangHead r with
        | some (t, _, f) => s.modCore r.core (fun k => { k with shadow := some (f.tile.val, t.tiles.getD f.tile.val []) })
        | none => s) s
      let g' : GangRow := { g with running := some n, last := n, reads := s.gangReads row n, spoiled := [] }
      .next (({ s1 with gangs := tput s1.gangs row g' }).laterOnce .gangRetire { n := row })

/-- Read some elements of an operand, once their homes can serve them (R57, R91). -/
def readCells (r : SlotRef) (t : Thread) (v : OpView) (locs : List ELoc) : Run (List FV) := do
  waitFor (beatMeet r t [(v, false, locs)])
  return (← locs.mapM (readElem r t v.code [])).map (fun x => x.val)

/-- Read row `i` of A (R269, R270): of an activation, or of a stream operand. -/
def readA (r : SlotRef) (t : Thread) (a : ASource) (k i : Nat) : Run (List FV) :=
  match a with
  | .unfold u =>
    let v : OpView := { kind := .shape { Shape.zero with w0 := u.w0 }, code := windowOf u.w0, glob := false }
    (List.range k).mapM (fun j => match unfoldElem u i j with
      | none => return FV.zero
      | some x => do
        let l ← liftE (v.locate r x 0)
        return (← readElem r t v.code [] l).val)
  | .view v =>
    if v.rowCount ≤ i then return List.replicate k FV.zero
    else do
      let locs ← liftE ((List.range k).mapM (fun j => v.cell r k i j))
      readCells r t v locs

/-- Read the 16 columns of a core's B. -/
def readB (r : SlotRef) (t : Thread) (b : OpView) (k : Nat) : Run (List (List FV)) :=
  (List.range 16).mapM (fun n => do
    let locs ← liftE ((List.range k).mapM (fun j => b.cell r k n j))
    readCells r t b locs)

/-- One element of a tile after an MMA: groups of 32 in ascending order (R164-R166, R273). -/
def mmaCell (acc : Word32) (ps : List (FV × FV)) : Nat → Word32 × FFlags
  | 0 => (acc, 0)
  | f + 1 =>
    match ps with
    | [] => (acc, 0)
    | _ =>
      let a := accGroup acc (ps.take 32)
      let r := mmaCell a.1 (ps.drop 32) f
      (r.1, a.2 ||| r.2)

/-- A whole tile after an MMA, and the flags. -/
def mmaTile (tile : List (Nat × BitVec 32)) (a b : List (List FV)) : List (Nat × BitVec 32) × FFlags :=
  (List.range 256).foldl (fun (acc : List (Nat × BitVec 32) × FFlags) x =>
    let r := mmaCell (tileGet tile (x / 16) (x % 16)) ((a.getD (x / 16) []).zip (b.getD (x % 16) [])) 128
    (tilePut acc.1 (x / 16) (x % 16) r.1, acc.2 ||| r.2)) (tile, 0)

/-- A tile of free values: an agent wrote a byte that the MMA read (R277). -/
def freeTile (s : State) : State × List (Nat × BitVec 32) :=
  (List.range 256).foldl (fun (acc : State × List (Nat × BitVec 32)) x =>
    let v := acc.1.fresh
    (v.2, tilePut acc.2 (x / 16) (x % 16) (v.1.setWidth 32))) (s, [])

/-- The results of the participants of a running gang, or the first of them whose reads stop. -/
def gangResults (a : List (List FV)) (k : Nat) (spoiled : List Nat) :
    List SlotRef → State → State × Except (SlotRef × Stop) (List (SlotRef × List (Nat × BitVec 32) × FFlags))
  | [], s => (s, .ok [])
  | r :: rest, s =>
    match s.gangHead r with
    | none => gangResults a k spoiled rest s
    | some (t, e, f) =>
      let body : Run (List (List FV)) := do
        let b ← liftE (mmaView r t e .b f.b)
        readB r t b k
      match body s with
      | (.error st, s1) => (s1, .error (r, st))
      | (.ok b, s1) =>
        let out : State × List (Nat × BitVec 32) × FFlags :=
          if spoiled.contains 16 || spoiled.contains (colOf r.core) then
            let z := freeTile s1
            let v := z.1.fresh
            (v.2, z.2, v.1.setWidth 5)
          else (s1, mmaTile (t.tiles.getD f.tile.val []) a b)
        match gangResults a k spoiled rest out.1 with
        | (s2, .ok l) => (s2, .ok ((r, out.2) :: l))
        | (s2, .error x) => (s2, .error x)

/-- A running gang ends: the array is free, and the next formed gang may start. -/
def State.freeArray (s : State) (row n : Nat) : State :=
  let g := tget GangRow.reset s.gangs row
  let g' : GangRow := { g with
    arrived := g.arrived.filter (fun a => a.1 ≠ n), formed := g.formed.filter (fun m => m ≠ n), running := none,
    reads := [], spoiled := [] }
  let s1 : State := { s with gangs := tput s.gangs row g' }
  if g'.formed.isEmpty then s1 else s1.laterOnce .gangStart { n := row }

/-- A participant whose read stops: the gang aborts in all sixteen cores, and the core raises its fault, or parks on the
walk or the record (R274). -/
def State.abortGang (s : State) (r : SlotRef) (st : Stop) : State :=
  match st with
  | .trap c a => s.gangFault r c a
  | .park (.walk w p) =>
    let s1 : State := s.leaveGang r
    match s1.thread? r with
    | some t => s1.parkOn r t (.walk w p)
    | none => s1
  | .park _ => s

/-- GANG_RETIRE: the running gang's sixteen participants retire together (R273, R274, R277). -/
def execGangRetire (s : State) : Host.Outcome State Fault Refusal :=
  let row := s.arg.n
  let g := tget GangRow.reset s.gangs row
  match g.running with
  | none => .next s
  | some n =>
    let lead : SlotRef := { core := row * 16, slot := n }
    match s.gangHead lead with
    | none => .next s
    | some (t, e, f) =>
      let s0 : State := { s with pipe := .compute }
      let body : Run (List (List FV) × Nat) := do
        let b ← liftE (mmaView lead t e .b f.b)
        let a ← liftE (leadA lead t e f)
        let k := leadK a b
        let rows ← (List.range 16).mapM (readA lead t a k)
        return (rows, k)
      match body s0 with
      | (.error st, s1) => .next (s1.abortGang lead st)
      | (.ok (rows, k), s1) =>
        match gangResults rows k g.spoiled (gangSlots row n) s1 with
        | (s2, .error (r, st)) => .next (s2.abortGang r st)
        | (s2, .ok outs) =>
          let s3 : State := outs.foldl (fun s p =>
            match s.gangHead p.1 with
            | none => s
            | some (_, _, h) =>
              let s1 : State := (s.setTile p.1 h.tile.val p.2.1).modThread p.1 (fun t => endBeat (t.orFlags p.2.2) .done)
              (s1.retireBefore p.1 .done).modCore p.1.core (fun c => { c with shadow := none })) s2
          .next (s3.freeArray row n)

end Sys2Proof.Machine
end

