-- ==== Sys2Proof/Machine/Reduction.lean ====
section
/-!
DEFINITION. Reduction servers (R301-R303) and the groups of words that enter a q6 (R416).
-/

namespace Sys2Proof.Machine

/-! ### The tree register (R301) -/

def treeFanin (w : Word) : Nat := bitsOf w 61 57
def treeChild (w : Word) : Nat := bitsOf w 56 52
def treeRoot (w : Word) : Bool := bitOf w 51
def treeExt (w : Word) : Bool := bitOf w 47
def treeParent (w : Word) : CoreIx := coreIx (bitsOf w 46 43) (bitsOf w 42 37) (bitsOf w 36 30)

/-- The header of a message with a child index (R302). -/
def redHeader (op tag child : Nat) : Word := BitVec.ofNat 64 (2 ^ 62 + op * 2 ^ 56 + tag * 2 ^ 48 + child * 2 ^ 32)

/-- Combine two values (R302, R303): F32 sums to nearest even, flags discarded. -/
def redCombine (op : Nat) (x y : Word) : Word :=
  if op = 0 then x + y
  else if op = 1 then ((f32Add (x.setWidth 32) (y.setWidth 32)).1).setWidth 64
  else if op = 2 then (if x.slt y then y else x)
  else ((f32Max (x.setWidth 32) (y.setWidth 32)).1).setWidth 64

/-- Whether a round has all its messages. -/
def Round.full (q : Round) : Bool := decide (treeFanin q.tree ≤ q.joined.length)

/-- The total of a round, in ascending child index from the lowest (R303). -/
def Round.total (q : Round) : Word :=
  match sortBy (fun (a b : Nat × Word) => decide (a.1 ≤ b.1)) q.joined with
  | [] => 0
  | p :: rest => rest.foldl (fun acc x => redCombine q.op acc x.2) p.2

/-- Whether the link into the parent of a full round still holds a message of this child: the total then keeps its buffer, and the slot's
later messages fill its q7 (R303; how many messages a link holds is the model's choice, log entry 18). -/
def State.linkHeld (s : State) (q : Round) : Bool :=
  (s.core (treeParent q.tree)).link.any (fun m => decide (m.slot = q.slot ∧ m.child = treeChild q.tree))

/-- Forward the total of a full round of a server that is not the root: through a port, or to the parent's server (R303). -/
def State.forwardRound (s : State) (c : CoreIx) (q : Round) : State :=
  let s1 : State := s.modCore c (fun k => { k with rounds := k.rounds.erase q })
  if treeExt q.tree then
    s1.emit (.portWrite (bitsOf q.tree 50 48) (redHeader q.op q.tag (treeChild q.tree)) (natLe q.total.toNat 8))
  else
    let m : RedMsg := { slot := q.slot, world := q.world, region := q.region, op := q.op, tag := q.tag, child := treeChild q.tree, value := q.total }
    (s1.modCore (treeParent q.tree) (fun k => { k with link := k.link ++ [m] })).laterOnce .reductionMessage { core := treeParent q.tree }

/-- Whether the total of a round can leave its server (R303). -/
def State.canForward (s : State) (q : Round) : Bool :=
  q.full && !treeRoot q.tree && (treeExt q.tree || !s.linkHeld q)

/-- A round is full: a root's total goes to q6 of the slot, where it waits for room and keeps its buffer; another's is forwarded as soon as
the link takes it (R303). -/
def State.closeRound (s : State) (c : CoreIx) (q : Round) : State :=
  if treeRoot q.tree then
    let x := s.mint (serverSource c)
    x.2.postQ6 { core := c, slot := q.slot } x.1 [redHeader q.op q.tag 0xFF, q.total] q.region false
  else if s.canForward q then s.forwardRound c q
  else s

/-- A message joins a round at a server, opens one, or is discarded (R303); none where it waits in its link: both buffers of its
tree are in use, or its slot has no tree. -/
def State.joinRound (s : State) (c : CoreIx) (m : RedMsg) : Option State :=
  let k := s.core c
  let mine := k.rounds.filter (fun q => q.slot = m.slot)
  match mine.find? (fun q => decide (q.tag = m.tag) && !q.full && !q.joined.any (fun p => p.1 = m.child)) with
  | some q =>
    if q.world ≠ m.world then some s
    else if q.op ≠ m.op then
      let x := s.mint (serverSource c)
      let words := faultWords Cause.trap.code 0xFFF 0 0 m.world m.region x.1 0 (BitVec.allOnes 64) 0 0xFFFFFFFF 0 0
      some (x.2.deliverMsg m.region 0 x.1 words false)
    else
      let q' : Round := { q with joined := q.joined ++ [(m.child, m.value)] }
      let s1 : State := s.modCore c (fun k => { k with rounds := k.rounds.map (fun x => if x = q then q' else x) })
      some (if q'.full then s1.closeRound c q' else s1)
  | none =>
    match s.thread? { core := c, slot := m.slot } with
    | none => none
    | some t =>
      if 2 ≤ mine.length ∨ treeFanin t.tree = 0 then none
      else
        let q : Round := { slot := m.slot, tag := m.tag, op := m.op, world := m.world, region := m.region, tree := t.tree,
                           joined := [(m.child, m.value)], order := k.rounds.length }
        let s1 : State := s.modCore c (fun k => { k with rounds := k.rounds ++ [q] })
        some (if q.full then s1.closeRound c q else s1)

/-- The message that a slot's own record is: child 0 of its own server (R302). -/
def messageOf (r : SlotRef) (t : Thread) (x : Record) : RedMsg :=
  let w0 := x.words.headD 0
  { slot := r.slot, world := t.world, region := t.region, op := bitsOf w0 61 56, tag := bitsOf w0 55 48, child := 0, value := x.words.getD 1 0 }

/-- The first message of a link that can move: a child's messages to a tree wait behind its own first one only, so that another child can
still join an open round (R303). -/
def linkMove (s : State) (c : CoreIx) (l : List RedMsg) (held : List (Nat × Nat)) : Option (RedMsg × State) :=
  match l with
  | [] => none
  | m :: rest =>
    if held.contains (m.slot, m.child) then linkMove s c rest held
    else match s.joinRound c m with
      | some s1 => some (m, s1)
      | none => linkMove s c rest ((m.slot, m.child) :: held)

/-- Move one message of a server: a total that its link can take, else one that came over the links, else the earliest record of a slot
of the core. -/
def reductionStep (s : State) (c : CoreIx) : Option State :=
  match (s.core c).rounds.find? s.canForward with
  | some q => some (s.forwardRound c q)
  | none =>
    match linkMove s c (s.core c).link [] with
    | some (m, s1) => some (s1.modCore c (fun k => { k with link := k.link.erase m }))
    | none =>
      (allRecords s c 7).findSome? (fun x => (s.joinRound c (messageOf x.1 x.2.1 x.2.2)).map (fun s1 =>
        s1.modThread x.1 (fun t => { t with sluices := { t.sluices with q7 := t.sluices.q7.take } })))

/-- REDUCTION_MESSAGE: one message of a core's server joins, opens or closes a round (R303). -/
def execReductionMessage (s : State) : Host.Outcome State Fault Refusal :=
  let c := s.arg.core
  match reductionStep s c with
  | none => .next s
  | some s1 => .next (s1.laterOnce .reductionMessage { core := c })

/-! ### q6 (R415, R416) -/

/-- The group that enters the q6 of a slot next: the earliest, if it has room. -/
def nextGroup (s : State) (r : SlotRef) : Option Q6Group :=
  earliestBy (fun g => g.stamp) ((s.core r.core).q6wait.filter (fun g => g.slot = r.slot))

/-- Q6_ENTRY: the earliest waiting group enters the q6 of a slot when there is room for all its words (R416). A total frees its
round buffer (R303); one whose world is not the slot's is discarded (log entry 18). -/
def execQ6Entry (s : State) : Host.Outcome State Fault Refusal :=
  let r : SlotRef := { core := s.arg.core, slot := s.arg.slot }
  match nextGroup s r with
  | none => .next s
  | some g =>
    let isTotal := decide (bitsOf (g.words.headD 0) 39 32 = 0xFF)
    let done (s : State) : State :=
      let s1 : State := s.modCore r.core (fun k => { k with q6wait := k.q6wait.erase g })
      let s2 : State := if isTotal then (s1.modCore r.core (fun k => { k with
          rounds := match k.rounds.find? (fun q => decide (q.slot = r.slot) && q.full) with
            | some q => k.rounds.erase q
            | none => k.rounds })).laterOnce .reductionMessage { core := r.core } else s1
      if (s2.core r.core).q6wait.any (fun x => x.slot = r.slot) then s2.laterOnce .q6Entry { core := r.core, slot := r.slot } else s2
    match s.thread? r with
    | none => .next (done s)
    | some t =>
      let foreign := isTotal && (match (s.core r.core).rounds.find? (fun q => decide (q.slot = r.slot) && q.full) with
        | some q => decide (q.world ≠ t.world)
        | none => false)
      if foreign then .next (done s)
      else if t.sluices.q6.length + g.words.length ≤ 32 then
        .next (done (s.setThread r { t with sluices := { t.sluices with q6 := t.sluices.q6 ++ g.words } }))
      else .next s

end Sys2Proof.Machine
end

