-- ==== Sys2Proof/Machine/ScalarFloat.lean ====
section
/-!
DEFINITION. The scalar float forms (R234-R236).
-/

namespace Sys2Proof.Machine

/-- Bits 31:0 of a register as an F32 (R234). -/
def f32Of (x : Word) : Word32 := x.setWidth 32

/-- An F32 result in a register: bits 63:32 zero. -/
def ofF32 (x : Word32) : Word := x.setWidth 64

/-- A form that reads a and b, writes an F32 to d and ORs its flags into fflags as it retires (R173, R234). -/
def floatBinary (f : Word32 → Word32 → Word32 × FFlags) (d a b : Reg) (m : Marks) (s : State) :
    Host.Outcome State Fault Refusal :=
  issue s fun t => do
    let (x, y) ← read2 s t a b
    checkDest s t d
    let r := f (f32Of x) (f32Of y)
    return retire s (t.orFlags r.2) [a, b] (markAB m a b) (some (d, ofF32 r.1)) 4

/-- A form that reads a and writes d, with flags. -/
def floatUnary (f : Word → Word × FFlags) (d a : Reg) (ma : Bool) (s : State) : Host.Outcome State Fault Refusal :=
  issue s fun t => do
    let x ← readReg s t [] a
    checkDest s t d
    let r := f x
    return retire s (t.orFlags r.2) [a] [(ma, a)] (some (d, r.1)) 4

/-- An F32 as a signed 64-bit integer, toward zero (R159, R235). -/
def f32ToInt (x : Word) : Word × FFlags :=
  let r := fvToInt .rz (-9223372036854775808) 9223372036854775807 (decodeF32 (f32Of x))
  (BitVec.ofInt 64 r.1, r.2)

/-- A signed 64-bit integer as F32, to nearest even (R235). -/
def intToF32 (x : Word) : Word × FFlags :=
  let r := encodeF32 .rn (FV.ofInt x.toInt)
  (ofF32 r.1, r.2)

/-- FADD (R234). -/
def execFadd (d a b : Reg) (m : Marks) (s : State) : Host.Outcome State Fault Refusal := floatBinary f32Add d a b m s

/-- FSUB (R234). -/
def execFsub (d a b : Reg) (m : Marks) (s : State) : Host.Outcome State Fault Refusal := floatBinary f32Sub d a b m s

/-- FMUL (R234). -/
def execFmul (d a b : Reg) (m : Marks) (s : State) : Host.Outcome State Fault Refusal := floatBinary f32Mul d a b m s

/-- FMIN (R234). -/
def execFmin (d a b : Reg) (m : Marks) (s : State) : Host.Outcome State Fault Refusal := floatBinary f32Min d a b m s

/-- FMAX (R234). -/
def execFmax (d a b : Reg) (m : Marks) (s : State) : Host.Outcome State Fault Refusal := floatBinary f32Max d a b m s

/-- FCVTI (R235). -/
def execFcvti (d a : Reg) (ma : Bool) (s : State) : Host.Outcome State Fault Refusal := floatUnary f32ToInt d a ma s

/-- FCVTF (R235). -/
def execFcvtf (d a : Reg) (ma : Bool) (s : State) : Host.Outcome State Fault Refusal := floatUnary intToF32 d a ma s

/-- FABS: bit 31 cleared; no flag (R234). -/
def execFabs (d a : Reg) (ma : Bool) (s : State) : Host.Outcome State Fault Refusal :=
  floatUnary (fun x => (ofF32 (f32Of x &&& 0x7FFFFFFF), 0)) d a ma s

/-- FNEG: bit 31 inverted; no flag (R234). -/
def execFneg (d a : Reg) (ma : Bool) (s : State) : Host.Outcome State Fault Refusal :=
  floatUnary (fun x => (ofF32 (f32Of x ^^^ 0x80000000), 0)) d a ma s

/-- a * b + d on F32, rounded once by a mode (R167, R236). -/
def f32Fma (rm : Rm) (x y z : Word32) : Word32 × FFlags :=
  let p := fvFma rm (decodeF32 x) (decodeF32 y) (decodeF32 z)
  let e := encodeF32 rm p.1
  (e.1, p.2 ||| e.2)

/-- FFMA: d is the addend (R236). -/
def execFfma (rm : Rm) (d a b : Reg) (m : Marks) (s : State) : Host.Outcome State Fault Refusal :=
  issue s fun t => do
    let (x, y, z) ← read3 s t a b d
    checkDest s t d
    let r := f32Fma rm (f32Of x) (f32Of y) (f32Of z)
    return retire s (t.orFlags r.2) [a, b, d] (markAB m a b) (some (d, ofF32 r.1)) 4

end Sys2Proof.Machine
end

