-- ==== Sys2Proof/Machine/Special.lean ====
section
/-!
DEFINITION. The special functions (R170, R171). The exact cases of R171 are computed; every other input takes the part's own value,
which is free (`Config.special`, log entry 3) within the bound of R170. The bound is held by enclosing the exact result between two
dyadic numbers, found in fixed-point integer arithmetic, whose distance is far below a unit in the last place.
-/

namespace Sys2Proof.Machine

/-! ### Fixed-point series -/

/-- The sum of up to `f` terms from term `k` on: `weigh` makes a summand of a term, `next` the term after it. -/
def sumSeries (next weigh : Nat → Int → Int) (k : Nat) (term : Int) : Nat → Int
  | 0 => 0
  | f + 1 => weigh k term + sumSeries next weigh (k + 1) (next k term) f

/-- The product of two fixed-point numbers of `p` fraction bits. -/
def fxMul (p : Nat) (a b : Int) : Int := a * b / 2 ^ p

/-- Fraction bits of the working precision, and of the reduction of an angle. -/
def fxBits : Nat := 400
def angleBits : Nat := 640

/-- More than the error that any of the series below collects. -/
def fxSlack : Int := 2 ^ 20

/-- The inverse hyperbolic tangent of z, |z| ≤ 1/3. -/
def fxAtanh (z : Int) : Int := sumSeries (fun _ t => fxMul fxBits t (fxMul fxBits z z)) (fun k t => t / (2 * k + 1)) 0 z 160

/-- The natural logarithm of 2. -/
def fxLn2 : Int := 2 * fxAtanh (2 ^ fxBits / 3)

/-- The arc tangent of 1/n, with `angleBits` fraction bits. -/
def fxAtanInv (n : Nat) : Int :=
  sumSeries (fun _ t => -(t / (n * n))) (fun k t => t / (2 * k + 1)) 0 (2 ^ angleBits / n) 160

/-- A quarter turn, with `angleBits` fraction bits. -/
def fxQuarter : Int := 8 * fxAtanInv 5 - 2 * fxAtanInv 239

/-- e^r for |r| ≤ 1. -/
def fxExp (r : Int) : Int := sumSeries (fun k t => fxMul fxBits t r / (k + 1)) (fun _ t => t) 0 (2 ^ fxBits) 100

/-- The sine and the cosine of r, |r| ≤ 1. -/
def fxSin (r : Int) : Int :=
  sumSeries (fun k t => -(fxMul fxBits t (fxMul fxBits r r) / ((2 * k + 2) * (2 * k + 3)))) (fun _ t => t) 0 r 60
def fxCos (r : Int) : Int :=
  sumSeries (fun k t => -(fxMul fxBits t (fxMul fxBits r r) / ((2 * k + 1) * (2 * k + 2)))) (fun _ t => t) 0 (2 ^ fxBits) 60

/-- The integer square root of n below 2^f, a bit at a time from bit f - 1 of the root, `r` being the root so far. -/
def rootFrom (n r : Nat) : Nat → Nat
  | 0 => r
  | f + 1 => let q := r + 2 ^ f; rootFrom n (if q * q ≤ n then q else r) f

/-- A magnitude m * 2^e in fixed point, rounded down. -/
def fxOf (p m : Nat) (e : Int) : Int := if 0 ≤ e + p then (m : Int) * 2 ^ (e + p).toNat else (m : Int) / 2 ^ (-(e + p)).toNat

/-! ### The exact results, enclosed -/

/-- The exact result lies from lo * 2^e to hi * 2^e. -/
structure Enclosure where
  lo : Int
  hi : Int
  e  : Int
  deriving DecidableEq, Repr

/-- Around a fixed-point approximation, raised by a power of two. -/
def around (v e : Int) : Enclosure := { lo := v - fxSlack, hi := v + fxSlack, e := e - fxBits }

/-- The other sign. -/
def Enclosure.neg (x : Enclosure) : Enclosure := { lo := -x.hi, hi := -x.lo, e := x.e }

/-- 2^x. -/
def encloseExp2 (neg : Bool) (m : Nat) (e : Int) : Enclosure :=
  let v := fxOf fxBits m e
  let x := if neg then -v else v
  let i := x / 2 ^ fxBits
  if 128 ≤ i then { lo := 1, hi := 1, e := 128 }
  else if i < -200 then { lo := 0, hi := 1, e := -200 }
  else around (fxExp (fxMul fxBits (x % 2 ^ fxBits) fxLn2)) i

/-- The base-2 logarithm of a positive number. -/
def encloseLog2 (m : Nat) (e : Int) : Enclosure :=
  let k := topBit m
  let one : Int := 2 ^ fxBits
  let t := fxOf fxBits m (-k)
  around ((e + k) * one + 2 * fxAtanh ((t - one) * one / (t + one)) * one / fxLn2) 0

/-- 1/x of a positive number. -/
def encloseRcp (m : Nat) (e : Int) : Enclosure :=
  let v : Int := (2 : Int) ^ fxBits / m
  { lo := v, hi := v + 1, e := -fxBits - e }

/-- 1/√x of a positive number. -/
def encloseRsq (m : Nat) (e : Int) : Enclosure :=
  let odd := decide (e % 2 = 1)
  let m2 := if odd then 2 * m else m
  let e2 := if odd then e - 1 else e
  let v : Int := rootFrom (2 ^ (2 * fxBits) / m2) 0 (fxBits + 1)
  { lo := v, hi := v + 1, e := -fxBits - e2 / 2 }

/-- e^-z of z ≥ 0. -/
def fxExpNeg (z : Int) : Int :=
  let k := z / fxLn2
  if fxBits < k then 0 else fxExp (-(z % fxLn2)) / 2 ^ k.toNat

/-- The hyperbolic tangent of a positive number. -/
def encloseTanh (m : Nat) (e : Int) : Enclosure :=
  let one : Int := 2 ^ fxBits
  let t := fxExpNeg (2 * fxOf fxBits m e)
  around ((one - t) * one / (one + t)) 0

/-- The error function of a positive number; from 6 on it is 1 but for less than 2^-50. -/
def encloseErf (m : Nat) (e : Int) : Enclosure :=
  let x := fxOf fxBits m e
  let one : Int := 2 ^ fxBits
  if 6 * one ≤ x then { lo := 2 ^ 50 - 1, hi := 2 ^ 50, e := -50 }
  else
    let sum := sumSeries (fun k t => -(fxMul fxBits t (fxMul fxBits x x) / (k + 1))) (fun k t => t / (2 * k + 1)) 0 x 400
    let root : Int := rootFrom (2 * fxQuarter * 2 ^ (2 * fxBits - angleBits)).toNat 0 (fxBits + 2)
    { lo := 2 * sum * one / root - 2 ^ 100, hi := 2 * sum * one / root + 2 ^ 100, e := -fxBits }

/-- The sine (`quarters` 0) or the cosine (1) of a positive number: the angle less a whole number of quarter turns. -/
def encloseTurn (quarters : Int) (m : Nat) (e : Int) : Enclosure :=
  let x := fxOf angleBits m e
  let n := (x + fxQuarter / 2) / fxQuarter
  let r := (x - n * fxQuarter) / 2 ^ (angleBits - fxBits)
  let q := (n + quarters) % 4
  let v := around (if q % 2 = 0 then fxSin r else fxCos r) 0
  if q < 2 then v else v.neg

/-- The exact result of a function for a finite input that is not 0. -/
def enclose (f : Config.SpecialFn) (n : Bool) (m : Nat) (e : Int) : Enclosure :=
  let odd (x : Enclosure) : Enclosure := if n then x.neg else x
  match f with
  | .exp2 => encloseExp2 n m e
  | .log2 => encloseLog2 m e
  | .rcp => odd (encloseRcp m e)
  | .rsq => encloseRsq m e
  | .tanh => odd (encloseTanh m e)
  | .erf => odd (encloseErf m e)
  | .sin => odd (encloseTurn 0 m e)
  | .cos => encloseTurn 1 m e

/-! ### The part's own value, within the bound (R170) -/

/-- The bound of a function in units in the last place. -/
def specialUlps : Config.SpecialFn → Int
  | .exp2 => 1
  | .log2 => 1
  | .rcp => 1
  | .rsq => 1
  | .tanh => 2
  | .erf => 2
  | .sin => 2
  | .cos => 2

/-- The bits of an F32 as a number that rises with its value. -/
def orderKey (w : Word32) : Int := if w.getLsbD 31 then -((w.toNat % 2 ^ 31 : Nat) : Int) else w.toNat

/-- The F32 of a key, a zero with the sign of `z`. -/
def ofOrderKey (k : Int) (z : Bool) : Word32 :=
  BitVec.ofNat 32 (k.natAbs + if k < 0 ∨ (k = 0 ∧ z = true) then 2 ^ 31 else 0)

/-- The keys of the least and of the greatest F32 within the bound of an enclosed result: ulp(y) as R170 gives it. -/
def withinBound (f : Config.SpecialFn) (x : Enclosure) : Int × Int :=
  let top := max x.lo.natAbs x.hi.natAbs
  let u : Int := (if top = 0 then -149 else max (x.e + topBit top) (-126) - 23)
  let p := min u x.e
  let d := specialUlps f * 2 ^ (u - p).toNat
  let dyadic (v : Int) : FV := .fin (decide (v < 0)) v.natAbs p
  let scale : Int := 2 ^ (x.e - p).toNat
  (orderKey (encodeF32 .ru (dyadic (x.lo * scale - d))).1, orderKey (encodeF32 .rd (dyadic (x.hi * scale + d))).1)

/-- The flags of a result that is not exact: overflow or underflow with inexact, or inexact (R171, R174). -/
def specialFlags (r : Word32) : FFlags :=
  let ex := bitsOf r 30 23
  if ex = 255 then flagOF else if ex = 0 then flagUF else flagNX true

/-- The part's own value for an input outside R171's exact cases: infinity from 2^128 on, else some F32 within the bound, which
one the part's free value says. -/
def specialOwn (f : Config.SpecialFn) (x : Word32) (n : Bool) (m : Nat) (e : Int) : Word32 × FFlags :=
  let y := enclose f n m e
  let free := Config.special f x
  let huge (v : Int) : Bool := decide (0 ≤ y.e + topBit v.natAbs - 128 ∧ v ≠ 0)
  let r : Word32 :=
    if huge y.lo && huge y.hi then (encodeF32 .rn (.inf (decide (y.hi < 0)))).1
    else
      let b := withinBound f y
      ofOrderKey (b.1 + (free.toNat : Int) % (b.2 - b.1 + 1)) (free.getLsbD 31)
  (r, specialFlags r)

/-! ### The functions -/

/-- The exponent k when a finite magnitude is the power 2^k. -/
def pow2? (m : Nat) (e : Int) : Option Int := if m ≠ 0 ∧ m = 2 ^ topBit m then some (e + topBit m) else none

/-- The integer a finite value equals, if it is one. -/
def fvInt? (v : FV) : Option Int :=
  match v with
  | .fin n m e =>
    let (k, inx) := roundAt .rz n m e 0
    if inx then none else some (if n then -(k : Int) else k)
  | _ => none

/-- One special function on F32 (R170): the cases of R171 exactly, every other input the part's own value within its bound
(`specialOwn`, log entry 3), every result that is not exact flagged inexact. -/
def specialF32 (f : Config.SpecialFn) (x : Word32) : Word32 × FFlags :=
  let v := decodeF32 x
  let exact (r : FV) : Word32 × FFlags := encodeF32 .rn r
  match v with
  | .nan s => (nanF32, flagNV s)
  | .inf n =>
    match f with
    | .exp2 => if n then (0, 0) else exact (.inf false)
    | .log2 => if n then (nanF32, flagNV true) else exact (.inf false)
    | .rcp => exact (.fin n 0 0)
    | .rsq => if n then (nanF32, flagNV true) else (0, 0)
    | .tanh => exact (FV.ofInt (if n then -1 else 1))
    | .erf => exact (FV.ofInt (if n then -1 else 1))
    | .sin => (nanF32, flagNV true)
    | .cos => (nanF32, flagNV true)
  | .fin n m e =>
    if m = 0 then
      match f with
      | .exp2 => exact (FV.ofInt 1)
      | .log2 => ((encodeF32 .rn (.inf true)).1, flagDZ)
      | .rcp => ((encodeF32 .rn (.inf n)).1, flagDZ)
      | .rsq => ((encodeF32 .rn (.inf n)).1, flagDZ)
      | .tanh => (x, 0)
      | .erf => (x, 0)
      | .sin => (x, 0)
      | .cos => exact (FV.ofInt 1)
    else
      let own : Word32 × FFlags := specialOwn f x n m e
      match f with
      | .exp2 =>
        match fvInt? v with
        | some i => if -149 ≤ i ∧ i ≤ 127 then exact (.fin false 1 i) else own
        | none => own
      | .log2 =>
        if n then (nanF32, flagNV true)
        else match pow2? m e with
          | some k => exact (FV.ofInt k)
          | none => own
      | .rcp =>
        match pow2? m e with
        | some k => if -149 ≤ -k ∧ -k ≤ 127 then exact (.fin n 1 (-k)) else own
        | none => own
      | .rsq =>
        if n then (nanF32, flagNV true)
        else match pow2? m e with
          | some k =>
            if k % 2 = 0 ∧ own.1 = (exact (.fin false 1 (-k / 2))).1 then (own.1, 0) else own
          | none => own
      | .tanh => own
      | .erf => own
      | .sin => own
      | .cos => own

end Sys2Proof.Machine
end

