-- ==== Sys2Proof/Machine/Weirs.lean ====
section
/-!
DEFINITION. Wired weirs (R350-R352) and byte weirs (R353).
-/

namespace Sys2Proof.Machine

/-! ### Wired weirs -/

/-- The key of weir `n` of the cluster of a core. -/
def weirNo (c : CoreIx) (n : Nat) : Nat := clusterOf c * 64 + n

def State.weir? (s : State) (k : Nat) : Option Weir := (s.weirs.find? (fun p => p.1 = k)).map (fun p => p.2)

/-- The participants of a weir of a cluster (R351). -/
def Weir.participants (w : Weir) (cluster : Nat) : List SlotRef :=
  (List.range 128).flatMap (fun c => if w.coreLo ≤ c ∧ c ≤ w.coreHi then
    (List.range 16).filterMap (fun n => if w.slotLo ≤ n ∧ n ≤ w.slotHi then
      some ({ core := cluster * 128 + c, slot := n } : SlotRef) else none) else [])

def Weir.names (w : Weir) (r : SlotRef) : Bool :=
  decide (w.coreLo ≤ inCluster r.core ∧ inCluster r.core ≤ w.coreHi ∧ w.slotLo ≤ r.slot ∧ r.slot ≤ w.slotHi)

/-- Whether a binding word sets a zero field or has a lo above its hi (R351, R352). -/
def bindingWordBad (b : Word) : Bool :=
  decide (bitsOf b 63 40 ≠ 0 ∨ bitsOf b 31 23 ≠ 0 ∨ bitsOf b 15 7 ≠ 0 ∨ bitsOf b 39 36 < bitsOf b 35 32 ∨ bitsOf b 22 16 < bitsOf b 6 0)

/-- The weir that a binding word makes. -/
def boundWeir (t : Thread) (b : Word) : Weir :=
  { world := t.world, region := t.region, slotLo := bitsOf b 35 32, slotHi := bitsOf b 39 36, coreLo := bitsOf b 6 0,
    coreHi := bitsOf b 22 16, arrived := [], contrib := [], results := [] }

/-- A weir once a thread has arrived at it, and the arrivals of the phase that this ends, none while a participant is missing (R352). -/
def Weir.arrive (w : Weir) (cluster : Nat) (r : SlotRef) (tid : Nat) : Weir × Option (List (SlotRef × Nat)) :=
  let here := w.arrived ++ [(r, tid)]
  if (w.participants cluster).all (fun q => here.any (fun p => decide (p.1 = q))) then ({ w with arrived := [] }, some here)
  else ({ w with arrived := here }, none)

/-- Change threads by their ids, in their slots and in save areas (R352, R430). -/
def State.modThreads (s : State) (l : List (SlotRef × Nat)) (f : Thread → Thread) : State :=
  let touched (t : Thread) : Bool := l.any (fun p => decide (p.2 = t.id))
  let s1 : State := l.foldl (fun s p => s.modThread p.1 (fun t => if touched t then f t else t)) s
  { s1 with saves := s1.saves.map (fun p => (p.1, { p.2 with thread := p.2.thread.map (fun t => if touched t then f t else t) })) }

/-- WEIR (R350-R352): arrive, bind or unbind, as a selects. A thread whose phase has ended goes on, whatever has become of the weir. -/
def execWeir (a b : Reg) (m : Marks) (s : State) : Host.Outcome State Fault Refusal :=
  issueRun s 4 fun t => do
    let r := s.cur
    let x ← liftE (readReg s t [] a)
    let op := bitsOf x 63 62
    let n := bitsOf x 5 0
    let k := weirNo r.core n
    let y ← if op = 1 then liftE (readReg s t [a] b) else pure 0
    let reads := if op = 1 then [a, b] else [a]
    let marked := if op = 1 then markAB m a b else [(m.a, a)]
    if t.weirDone then retireR { t with weirDone := false } reads marked none
    else do
      needR (decide (op = 1) || (decide (b = .g 0) && !m.b)) .ill (s.wordHere r t)
      needR (decide (op = 0 ∨ op = 3) || s.privileged t) .priv 0
      needR (decide (op ≠ 3 ∧ bitsOf x 61 6 = 0)) .prot 0
      match s.weir? k with
      | none =>
        needR (decide (op = 1) && !bindingWordBad y) .prot 0
        modifyS (fun s => { s with weirs := tput s.weirs k (boundWeir t y) })
        retireR t reads marked none
      | some w =>
        needR (decide (op ≠ 1)) .prot 0
        if op = 2 then
          needR (w.arrived.isEmpty && w.contrib.isEmpty && w.results.isEmpty) .prot 0
          modifyS (fun s => { s with weirs := tdel s.weirs k })
          retireR t reads marked none
        else
          needR (decide (n < 48) && w.names r && decide (w.world = t.world)) .prot 0
          stopIf (w.arrived.contains (r, t.id)) (.park (.weir k))
          releaseR r t false
          let w1 := w.arrive (clusterOf r.core) r t.id
          modifyS (fun s => { s with weirs := tput s.weirs k w1.1 })
          match w1.2 with
          | some here =>
            modifyS (fun s => s.modThreads (here.filter (fun p => p.2 ≠ t.id)) (fun u => { u with weirDone := true }))
            retireR t reads marked none
          | none => throw (.park (.weir k))

/-! ### Byte weirs (R353) -/

/-- The phase that a WBYTE or WWAIT names, as its table key: weir in bits 2:0, phase in bit 3. -/
def phaseNo (x : Word) : Nat := weirKey (bitsOf x 2 0) (bitsOf x 3 3)

def State.phase (s : State) (c : CoreIx) (k : Nat) : ByteWeir := tget ByteWeir.reset (s.core c).weirs k

def State.setPhase (s : State) (c : CoreIx) (k : Nat) (w : ByteWeir) : State :=
  s.modCore c (fun q => { q with weirs := tput q.weirs k w })

/-- Whether a phase belongs to another world. -/
def ByteWeir.foreign (w : ByteWeir) (world : Nat) : Bool := decide (w.world ≠ none ∧ w.world ≠ some world)

/-- WBYTE: it adds b to the counter and posts the phase (R353). A b beyond 2^32 - 1, for which no rule states what is
added, adds a free value (log entry 17). -/
def execWbyte (a b : Reg) (m : Marks) (s : State) : Host.Outcome State Fault Refusal :=
  issueRun s 4 fun t => do
    let r := s.cur
    let x ← liftE (read2 s t a b)
    let k := phaseNo x.1
    let w := s.phase r.core k
    needR (!w.foreign t.world && !w.posted) .prot 0
    let v ← if x.2.toNat < 2 ^ 32 then pure x.2.toNat else do
      let f := s.fresh
      set f.2
      pure (f.1.toNat % 2 ^ 32)
    modifyS (fun s => s.setPhase r.core k { w.add v with posted := true, world := some t.world })
    retireR t [a, b] (markAB m a b) none

/-- WWAIT: it parks until the phase is posted and its counter is 0, then clears the phase (R353). -/
def execWwait (a : Reg) (ma : Bool) (s : State) : Host.Outcome State Fault Refusal :=
  issueRun s 4 fun t => do
    let r := s.cur
    let x ← liftE (readReg s t [] a)
    let k := phaseNo x
    let w := s.phase r.core k
    needR (!w.foreign t.world) .prot 0
    if w.sat then
      stopIf (!t.cq.isEmpty) (.park .computeQueue)
      modifyS (fun s => s.setPhase r.core k ByteWeir.reset)
      throw (.trap .prot 0)
    stopIf (!(w.posted && decide (w.counter = 0))) (.park (.byteWeir k))
    modifyS (fun s => s.setPhase r.core k ByteWeir.reset)
    retireR t [a] [(ma, a)] none

end Sys2Proof.Machine
end

