-- ==== Sys2Proof/Machine/Vector.lean ====
section
/-!
DEFINITION. The vector forms of the compute pipe (R238-R261): elementwise float and integer forms, comparison, reductions
and scans, special functions, the data-dependent helpers, quantisation and max-combining weirs.
-/

namespace Sys2Proof.Machine

/-! ### Windows that forms accept -/

/-- A numeric window: every one but raw (R161, R247). -/
def numWindow (v : OpView) : Bool := decide (v.code ≠ 0xF0)

/-- INT8, INT32 or NAT8 (R251). -/
def intWindow (v : OpView) : Bool := decide (v.code = 0xF5 ∨ v.code = 0xF6 ∨ v.code = 0xF7)

/-- INT8, INT32, NAT8 or raw (R249, R250). -/
def maskWindow (v : OpView) : Bool := intWindow v || decide (v.code = 0xF0)

/-- F32 or W16 (R258-R260). -/
def floatWindow (v : OpView) : Bool := decide (v.code = 0xF1 ∨ v.code = 0xF2)

def isPortView (v : OpView) : Bool :=
  match v.kind with
  | .port _ => true
  | _ => false

/-- Whether two operands lie in one window; the global window is one of its own, and a port takes the other's (R238, R248). -/
def sameWindow (v u : OpView) : Bool :=
  decide (v.code = u.code) && (isPortView v || isPortView u || decide (v.glob = u.glob))

/-- Elements pass from one window to another: unchanged within a window, else converted, which raw never is (R152, R161). -/
def movable (d a : OpView) : Bool := sameWindow d a || (numWindow d && numWindow a)

/-- One element moved to a destination's window (R152, R158): its bits within a window, else its value. -/
def movedTo (d a : OpView) (x : EVal) : Out × FFlags :=
  if sameWindow d a then (.bits x.bits, 0) else (.val x.val, flagNV x.val.isSnan)

/-! ### Elementwise float forms (R247-R249) -/

/-- A form of two sources that computes exactly and rounds once into d (R247). -/
def floatTwo (i : Instr) (f : FV → FV → FV × FFlags) (d a b : VOp) (w : Fin 8) (rm : Rm) (s : State) :
    Host.Outcome State Fault Refusal :=
  computeForm s i (some d) (some a) (some b) false (fun t e =>
    elementwise s.cur t e d [(.a, a), (.b, b)] w.val rm false (fun vd vs => numWindow vd && vs.all numWindow)
      (fun _ _ vals => match vals with
        | [x, y] => (x.zip y).map (fun p => let r := f p.1.val p.2.val; (Out.val r.1, r.2))
        | _ => []))

/-- VADD (R247). -/
def execVadd (d a b : VOp) (w : Fin 8) (rm : Rm) (s : State) : Host.Outcome State Fault Refusal :=
  floatTwo (.vadd d a b w rm) (fvAdd rm) d a b w rm s

/-- VSUB (R247). -/
def execVsub (d a b : VOp) (w : Fin 8) (rm : Rm) (s : State) : Host.Outcome State Fault Refusal :=
  floatTwo (.vsub d a b w rm) (fun x y => fvAdd rm x y.neg) d a b w rm s

/-- VMUL (R247). -/
def execVmul (d a b : VOp) (w : Fin 8) (rm : Rm) (s : State) : Host.Outcome State Fault Refusal :=
  floatTwo (.vmul d a b w rm) fvMul d a b w rm s

/-- VMIN (R169, R247). -/
def execVmin (d a b : VOp) (w : Fin 8) (rm : Rm) (s : State) : Host.Outcome State Fault Refusal :=
  floatTwo (.vmin d a b w rm) fvMin d a b w rm s

/-- VMAX (R169, R247). -/
def execVmax (d a b : VOp) (w : Fin 8) (rm : Rm) (s : State) : Host.Outcome State Fault Refusal :=
  floatTwo (.vmax d a b w rm) fvMax d a b w rm s

/-- The sign bit of an element of a window (R248). -/
def signBit (code : Nat) : Nat :=
  if code = 0xF1 then 31 else if code = 0xF2 then 15 else if code = 0xF3 then 6 else 2

def signWindow (v : OpView) : Bool := decide (v.code = 0xF1 ∨ v.code = 0xF2 ∨ v.code = 0xF3 ∨ v.code = 0xF4)

/-- A form that changes only the sign bit (R152, R248): cleared, or inverted. -/
def signForm (i : Instr) (invert : Bool) (d a : VOp) (w : Fin 8) (s : State) : Host.Outcome State Fault Refusal :=
  computeForm s i (some d) (some a) none false (fun t e =>
    elementwise s.cur t e d [(.a, a)] w.val .rn false (fun vd vs => signWindow vd && vs.all (fun v => sameWindow vd v))
      (fun vd _ vals => (vals.headD []).map (fun x =>
        let m := 2 ^ signBit vd.code
        let neg := x.bits / m % 2 = 1
        (Out.bits (if neg then x.bits - m else if invert then x.bits + m else x.bits), 0))))

/-- VABS (R248). -/
def execVabs (d a : VOp) (w : Fin 8) (rm : Rm) (s : State) : Host.Outcome State Fault Refusal :=
  signForm (.vabs d a w rm) false d a w s

/-- VNEG (R248). -/
def execVneg (d a : VOp) (w : Fin 8) (rm : Rm) (s : State) : Host.Outcome State Fault Refusal :=
  signForm (.vneg d a w rm) true d a w s

/-- VMOV (R152, R248). -/
def execVmov (d a : VOp) (w : Fin 8) (rm : Rm) (s : State) : Host.Outcome State Fault Refusal :=
  computeForm s (.vmov d a w rm) (some d) (some a) none false (fun t e =>
    elementwise s.cur t e d [(.a, a)] w.val rm false (fun vd vs => vs.all (movable vd))
      (fun vd vs vals => match vs, vals with
        | [va], [x] => x.map (movedTo vd va)
        | _, _ => []))

/-- VSEL: lanes whose mask is zero stay unwritten (R249). -/
def execVsel (d a b : VOp) (w : Fin 8) (rm : Rm) (s : State) : Host.Outcome State Fault Refusal :=
  computeForm s (.vsel d a b w rm) (some d) (some a) (some b) false (fun t e =>
    elementwise s.cur t e d [(.a, a), (.b, b)] w.val rm false
      (fun vd vs => match vs with | [va, vb] => movable vd va && maskWindow vb | _ => false)
      (fun vd vs vals => match vs, vals with
        | [va, _], [x, y] => (x.zip y).map (fun p => if p.2.bits = 0 then (Out.skip, 0) else movedTo vd va p.1)
        | _, _ => []))

/-- VFMA: d is the addend, read in its own window before it is written (R167, R247). -/
def execVfma (d a b : VOp) (w : Fin 8) (rm : Rm) (s : State) : Host.Outcome State Fault Refusal :=
  computeForm s (.vfma d a b w rm) (some d) (some a) (some b) false (fun t e =>
    elementwise s.cur t e d [(.a, a), (.b, b)] w.val rm true (fun vd vs => numWindow vd && vs.all numWindow)
      (fun _ _ vals => match vals with
        | [x, y, z] => ((x.zip y).zip z).map (fun p => let r := fvFma rm p.1.1.val p.1.2.val p.2.val; (Out.val r.1, r.2))
        | _ => []))

/-! ### Comparison (R250) -/

/-- Whether a condition holds of two exact values, and the invalid flag. -/
def vcmpHolds (c : VCond) (x y : FV) : Bool × FFlags :=
  let nan := x.isNan || y.isNan
  let snan := x.isSnan || y.isSnan
  match c with
  | .eq => (decide (fvCmp x y = some .eq), flagNV snan)
  | .ne => (decide (fvCmp x y ≠ some .eq), flagNV snan)
  | .lt => (decide (fvCmp x y = some .lt), flagNV nan)
  | .ge => (decide (fvCmp x y = some .gt ∨ fvCmp x y = some .eq), flagNV nan)
  | .fun_ => (nan, flagNV snan)

/-- VCMP (R250). -/
def execVcmp (c : VCond) (d a b : VOp) (w : Fin 8) (s : State) : Host.Outcome State Fault Refusal :=
  computeForm s (.vcmp c d a b w) (some d) (some a) (some b) false (fun t e =>
    elementwise s.cur t e d [(.a, a), (.b, b)] w.val .rn false (fun vd vs => maskWindow vd && vs.all numWindow)
      (fun _ _ vals => match vals with
        | [x, y] => (x.zip y).map (fun p => let r := vcmpHolds c p.1.val p.2.val; (Out.bits (if r.1 then 1 else 0), r.2))
        | _ => []))

/-! ### Integer forms (R251) -/

/-- An integer form: 32-bit values, of which d takes the low bits; `raw` admits three raw operands. -/
def intTwo (i : Instr) (raw : Bool) (f : BitVec 32 → BitVec 32 → BitVec 32) (d a b : VOp) (w : Fin 8) (s : State) :
    Host.Outcome State Fault Refusal :=
  computeForm s i (some d) (some a) (some b) false (fun t e =>
    elementwise s.cur t e d [(.a, a), (.b, b)] w.val .rn false
      (fun vd vs => (vd :: vs).all intWindow || (raw && (vd :: vs).all (fun v => decide (v.code = 0xF0))))
      (fun vd _ vals => match vals with
        | [x, y] => (x.zip y).map (fun p =>
            let g (v : EVal) : BitVec 32 := if vd.code = 0xF0 then BitVec.ofNat 32 v.bits else BitVec.ofInt 32 v.int
            let n := 4 * nibs vd.code
            (Out.bits ((f (g p.1) (g p.2)).toNat % 2 ^ n), 0))
        | _ => []))

/-- The integer that decodeElem gives a NAT8 element: its bits (R153). -/
def natWindow (v : OpView) : Bool := decide (v.code = 0xF7)

/-- VIADD (R251). -/
def execViadd (d a b : VOp) (w : Fin 8) (s : State) : Host.Outcome State Fault Refusal :=
  intTwo (.viadd d a b w) false (fun x y => x + y) d a b w s

/-- VISUB (R251). -/
def execVisub (d a b : VOp) (w : Fin 8) (s : State) : Host.Outcome State Fault Refusal :=
  intTwo (.visub d a b w) false (fun x y => x - y) d a b w s

/-- VIMUL (R251). -/
def execVimul (d a b : VOp) (w : Fin 8) (s : State) : Host.Outcome State Fault Refusal :=
  intTwo (.vimul d a b w) false (fun x y => x * y) d a b w s

/-- VAND (R251). -/
def execVand (d a b : VOp) (w : Fin 8) (s : State) : Host.Outcome State Fault Refusal :=
  intTwo (.vand d a b w) true (fun x y => x &&& y) d a b w s

/-- VOR (R251). -/
def execVor (d a b : VOp) (w : Fin 8) (s : State) : Host.Outcome State Fault Refusal :=
  intTwo (.vor d a b w) true (fun x y => x ||| y) d a b w s

/-- VXOR (R251). -/
def execVxor (d a b : VOp) (w : Fin 8) (s : State) : Host.Outcome State Fault Refusal :=
  intTwo (.vxor d a b w) true (fun x y => x ^^^ y) d a b w s

/-- VSHL (R251). -/
def execVshl (d a b : VOp) (w : Fin 8) (s : State) : Host.Outcome State Fault Refusal :=
  intTwo (.vshl d a b w) false (fun x y => x <<< (y.toNat % 32)) d a b w s

/-- VSHR (R251). -/
def execVshr (d a b : VOp) (w : Fin 8) (s : State) : Host.Outcome State Fault Refusal :=
  intTwo (.vshr d a b w) false (fun x y => x >>> (y.toNat % 32)) d a b w s

/-- VSAR (R251). -/
def execVsar (d a b : VOp) (w : Fin 8) (s : State) : Host.Outcome State Fault Refusal :=
  intTwo (.vsar d a b w) false (fun x y => x.sshiftRight (y.toNat % 32)) d a b w s

/-! ### Special functions (R254) -/

/-- One special function on an element: converted to F32 to nearest even first (R254). -/
def specialElem (f : Config.SpecialFn) (x : FV) : Out × FFlags :=
  let a := encodeF32 .rn x
  let r := specialF32 f a.1
  (.val (decodeF32 r.1), a.2 ||| r.2 ||| flagNV x.isSnan)

def specialForm (i : Instr) (f : Config.SpecialFn) (d a : VOp) (w : Fin 8) (s : State) : Host.Outcome State Fault Refusal :=
  computeForm s i (some d) (some a) none true (fun t e =>
    elementwise s.cur t e d [(.a, a)] w.val .rn false (fun vd vs => numWindow vd && vs.all numWindow)
      (fun _ _ vals => (vals.headD []).map (fun x => specialElem f x.val)))

/-- VEXP2 (R170, R254). -/
def execVexp2 (d a : VOp) (w : Fin 8) (s : State) : Host.Outcome State Fault Refusal := specialForm (.vexp2 d a w) .exp2 d a w s

/-- VLOG2 (R170, R254). -/
def execVlog2 (d a : VOp) (w : Fin 8) (s : State) : Host.Outcome State Fault Refusal := specialForm (.vlog2 d a w) .log2 d a w s

/-- VRCP (R170, R254). -/
def execVrcp (d a : VOp) (w : Fin 8) (s : State) : Host.Outcome State Fault Refusal := specialForm (.vrcp d a w) .rcp d a w s

/-- VRSQ (R170, R254). -/
def execVrsq (d a : VOp) (w : Fin 8) (s : State) : Host.Outcome State Fault Refusal := specialForm (.vrsq d a w) .rsq d a w s

/-- VTANH (R170, R254). -/
def execVtanh (d a : VOp) (w : Fin 8) (s : State) : Host.Outcome State Fault Refusal := specialForm (.vtanh d a w) .tanh d a w s

/-- VERF (R170, R254). -/
def execVerf (d a : VOp) (w : Fin 8) (s : State) : Host.Outcome State Fault Refusal := specialForm (.verf d a w) .erf d a w s

/-- VSIN (R170, R254). -/
def execVsin (d a : VOp) (w : Fin 8) (s : State) : Host.Outcome State Fault Refusal := specialForm (.vsin d a w) .sin d a w s

/-- VCOS (R170, R254). -/
def execVcos (d a : VOp) (w : Fin 8) (s : State) : Host.Outcome State Fault Refusal := specialForm (.vcos d a w) .cos d a w s

/-! ### Conflicts and scans (R253, R255) -/

/-- VMATCH: for each lane, the lower unmasked lanes of its beat that hold the same value (R255). -/
def execVmatch (d a : VOp) (w : Fin 8) (s : State) : Host.Outcome State Fault Refusal :=
  computeForm s (.vmatch d a w) (some d) (some a) none false (fun t e =>
    elementwise s.cur t e d [(.a, a)] w.val .rn false
      (fun vd vs => decide (vd.code = 0xF6) && vs.all intWindow)
      (fun _ _ vals =>
        let x := vals.headD []
        (List.range x.length).map (fun k =>
          let v := (x[k]?).map (fun q => q.int)
          (Out.bits ((List.range k).foldl (fun m j => if (x[j]?).map (fun q => q.int) = v then m + 2 ^ j else m) 0), 0))))

/-- A running sum over lanes, restarted at index 0 of dimension 0 (R253). -/
def scanLanes (int : Bool) : List (Lane × EVal) → Word → List (Out × FFlags) → List (Out × FFlags) × Word
  | [], c, acc => (acc.reverse, c)
  | (l, x) :: rest, c, acc =>
    if int then
      let v : BitVec 32 := BitVec.ofInt 32 x.int
      let sum : BitVec 32 := if l.i0 = 0 then v else c.setWidth 32 + v
      scanLanes int rest (sum.setWidth 64) ((.val (FV.ofInt sum.toInt), 0) :: acc)
    else
      let v := (encodeF32 .rn x.val).1
      let r : Word32 × FFlags := if l.i0 = 0 then (v, 0) else f32Add (c.setWidth 32) v
      scanLanes int rest (r.1.setWidth 64) ((.val (decodeF32 r.1), r.2 ||| flagNV x.val.isSnan) :: acc)

/-- The prefix sums of NAT8 elements read as unsigned values (R252's reading, log entry 19). -/
def unsignedOut (o : Out × FFlags) : Out × FFlags :=
  match o.1 with
  | .val (.fin n m e) => (.val (if n then .fin false (2 ^ 32 - m) e else .fin n m e), o.2)
  | _ => o

/-- VSCAN (R253). -/
def execVscan (d a : VOp) (w : Fin 8) (rm : Rm) (s : State) : Host.Outcome State Fault Refusal :=
  computeForm s (.vscan d a w rm) (some d) (some a) none false (fun t e =>
    walking s.cur t e d [(.a, a)] w.val rm false (fun vd vs => numWindow vd && vs.all numWindow)
      (fun _ vs lanes vals =>
        let int := vs.all intWindow
        let r := scanLanes int (lanes.zip (vals.headD [])) e.carry []
        (if vs.all natWindow then r.1.map unsignedOut else r.1, r.2)))

/-! ### Reductions (R252) -/

/-- The value that an element brings to a reduction, as the 32 bits that the running value holds (R168, R169, R252). -/
def redIn (op : RedOp) (int : Bool) (x : EVal) : BitVec 32 × FFlags :=
  if int then
    (match op with
      | .maxabs => BitVec.ofNat 32 x.int.natAbs
      | _ => BitVec.ofInt 32 x.int, 0)
  else
    let v := (encodeF32 .rn x.val).1
    (match op with
      | .maxabs => if x.val.isNan then v else v &&& 0x7FFFFFFF
      | _ => v, flagNV x.val.isSnan)

/-- Two running values combined (R168, R169, R252). -/
def redTwo (op : RedOp) (int nat : Bool) (x y : BitVec 32) : BitVec 32 × FFlags :=
  if int then
    (match op with
      | .sum => x + y
      | .maxr => if nat then (if x.toNat < y.toNat then y else x) else (if x.slt y then y else x)
      | .minr => if nat then (if y.toNat < x.toNat then y else x) else (if y.slt x then y else x)
      | .maxabs => if x.toNat < y.toNat then y else x, 0)
  else
    match op with
    | .sum => f32Add x y
    | .maxr => f32Max x y
    | .minr => f32Min x y
    | .maxabs => f32Max x y

/-- A finished running value as the value that is converted into d (R252). -/
def redOut (op : RedOp) (int nat : Bool) (x : BitVec 32) : FV :=
  if int then
    (match op with
      | .sum => if nat then FV.ofInt x.toNat else FV.ofInt x.toInt
      | .maxabs => FV.ofInt x.toNat
      | _ => FV.ofInt x.toInt)
  else decodeF32 x

/-- The lanes of one beat of a dimension-0 reduction, joined to the carry (R168, R252): a float sum takes groups of eight
lanes by the fixed tree. `first` says that the run begins here. -/
def redRun (op : RedOp) (int nat first : Bool) (carry : BitVec 32) (xs : List (BitVec 32)) : BitVec 32 × FFlags :=
  let parts : List (BitVec 32 × FFlags) :=
    if !int && decide (op = .sum) then
      (List.range ((xs.length + 7) / 8)).filterMap (fun g =>
        let s := treeSum (fun i => xs[8 * g + i]?)
        s.1.map (fun v => (v, s.2)))
    else xs.map (fun x => (x, 0))
  let join (acc : Option (BitVec 32) × FFlags) (p : BitVec 32 × FFlags) : Option (BitVec 32) × FFlags :=
    match acc.1 with
    | none => (some p.1, acc.2 ||| p.2)
    | some v => let r := redTwo op int nat v p.1; (some r.1, acc.2 ||| p.2 ||| r.2)
  let r := parts.foldl join (if first then none else some carry, 0)
  (r.1.getD 0, r.2)

/-- The extents of a reduction's destination: 1 along the reduced dimension (R252). -/
def redExt (dim : Nat) (x : Nat × Nat × Nat × Nat) : Nat × Nat × Nat × Nat :=
  (if dim = 0 then 1 else x.1, if dim = 1 then 1 else x.2.1, if dim = 2 then 1 else x.2.2.1, if dim = 3 then 1 else x.2.2.2)

/-- The destination's index for an index of the source, and its number in the destination's walk. -/
def redLane (dim : Nat) (x : Nat × Nat × Nat × Nat) (l : Lane) (lane : Nat) : Lane :=
  let y := redExt dim x
  let i0 := if dim = 0 then 0 else l.i0
  let i1 := if dim = 1 then 0 else l.i1
  let i2 := if dim = 2 then 0 else l.i2
  let i3 := if dim = 3 then 0 else l.i3
  { i0 := i0, i1 := i1, i2 := i2, i3 := i3, j := i0 + y.1 * (i1 + y.2.1 * (i2 + y.2.2.1 * i3)), lane := lane }

/-- The coordinate along a dimension. -/
def Lane.coord (l : Lane) (dim : Nat) : Nat := if dim = 0 then l.i0 else if dim = 1 then l.i1 else if dim = 2 then l.i2 else l.i3

def extAlong (x : Nat × Nat × Nat × Nat) (dim : Nat) : Nat :=
  if dim = 0 then x.1 else if dim = 1 then x.2.1 else if dim = 2 then x.2.2.1 else x.2.2.2

/-- Where a group's running value stands among those open at once (dimensions 1-3). -/
def redSeat (x : Nat × Nat × Nat × Nat) (dim : Nat) (l : Lane) : Nat :=
  if dim = 1 then l.i0 else if dim = 2 then l.i0 + x.1 * l.i1 else l.i0 + x.1 * (l.i1 + x.2.1 * l.i2)

/-- The running values of a reduction along dimension 1-3 after one element. -/
def redKeep (op : RedOp) (int nat : Bool) (dim : Nat) (x : Nat × Nat × Nat × Nat) (acc : List Nat × FFlags)
    (p : Lane × BitVec 32) : List Nat × FFlags :=
  let k := redSeat x dim p.1
  let kept := if k < acc.1.length then acc.1 else acc.1 ++ List.replicate (k + 1 - acc.1.length) 0
  if p.1.coord dim = 0 then (kept.set k p.2.toNat, acc.2)
  else
    let r := redTwo op int nat (BitVec.ofNat 32 (kept.getD k 0)) p.2
    (kept.set k r.1.toNat, acc.2 ||| r.2)

/-- What a beat of a reduction gives: the elements of d that it finishes, the carry and the running values it leaves, flags. -/
structure RedBeat where
  done  : List (Lane × BitVec 32)
  carry : Word
  kept  : List Nat
  flags : FFlags
  deriving DecidableEq, Repr

def redBeat (op : RedOp) (dim : Nat) (int nat : Bool) (x : Nat × Nat × Nat × Nat) (e : QEntry) (lanes : List Lane)
    (vals : List EVal) : RedBeat :=
  let ins := vals.map (redIn op int)
  let fin := ins.foldl (fun f p => f ||| p.2) (0 : FFlags)
  let xs := ins.map (fun p => p.1)
  let last (l : Lane) : Bool := decide (l.coord dim + 1 = extAlong x dim)
  if dim = 0 then
    let first := (lanes.head?.map (fun l => decide (l.i0 = 0))).getD true
    let r := redRun op int nat first (e.carry.setWidth 32) xs
    { done := (lanes.filter last).map (fun l => (l, r.1)), carry := r.1.setWidth 64, kept := [], flags := fin ||| r.2 }
  else
    let r := (lanes.zip xs).foldl (redKeep op int nat dim x) (e.kept, 0)
    { done := (lanes.filter last).map (fun l => (l, BitVec.ofNat 32 (r.1.getD (redSeat x dim l) 0))), carry := 0,
      kept := r.1, flags := fin ||| r.2 }

/-- One beat of VRED. -/
def redBody (op : RedOp) (dim : Nat) (d a : VOp) (w : Nat) (rm : Rm) (r : SlotRef) (t : Thread) (e : QEntry) : Run BeatEnd := do
  let ops : List (Role × Bool × VOp) := [(.d, true, d), (.a, false, a)]
  needR a.isShape .win 0
  let va ← liftE (viewOf r t e .a false w 0xF1 0 a)
  let vd ← liftE (viewOf r t e .d true w 0xF1 va.code d)
  let x := va.extents
  needR (vd.fits (redExt dim x)) .win va.addr
  needR (numWindow va && numWindow vd) .win va.addr
  let walk : Walk := { e0 := x.1, e1 := x.2.1, e2 := x.2.2.1, e3 := x.2.2.2, lanes := 64 / max (nibs va.code) (nibs vd.code) }
  if walk.beats = 0 then
    liftE (alignAll [vd, va])
    return .done
  waitHandles r t e ops w
  let int := intWindow va
  let nat := natWindow va
  let lanes := walk.beat e.beats
  let ends := lanes.filter (fun l => decide (l.coord dim + 1 = extAlong x dim))
  let outLanes := (ends.zip (List.range ends.length)).map (fun p => redLane dim x p.1 p.2)
  let ls ← beatPlaces r t [(vd, true, outLanes), (va, false, lanes)]
  waitPorts r e (if outLanes.isEmpty then none else some vd) [] outLanes.length
  let vals ← readOperand r t [] va (ls.getD 1 [])
  let b := redBeat op dim int nat x e lanes vals
  let fl ← if outLanes.isEmpty then pure 0 else
    writeOuts r t rm vd (ls.headD []) (b.done.map (fun p => Out.val (redOut op int nat p.2)))
  orFlagsR r (fl ||| b.flags)
  if e.beats + 1 = walk.beats then return .done
  else return .more { e with beats := e.beats + 1, waited := true, carry := b.carry, kept := b.kept, ports := none }

/-- VRED (R252). -/
def execVred (op : RedOp) (dim : Fin 4) (d a : VOp) (w : Fin 8) (rm : Rm) (s : State) : Host.Outcome State Fault Refusal :=
  computeForm s (.vred op dim d a w rm) (some d) (some a) none false (redBody op dim.val d a w.val rm s.cur)

/-! ### Gather and scatter (R256, R257) -/

/-- The element of a table that an index names, when it lies in the table. -/
def tableElem (v : OpView) (r : SlotRef) (x : Int) : Except Stop (Option ELoc) :=
  if 0 ≤ x ∧ x < v.extents.1 then do return some (← v.locate r x 0) else .ok none

/-- The elements of a table for the indices of a beat, checked in the order of R26 (R25, R135), and what they wait for at their homes. -/
def tableLocs (r : SlotRef) (t : Thread) (v : OpView) (wr : Bool) (xs : List Int) : Run (List (Option ELoc)) := do
  let s ← get
  let locs ← liftE (xs.mapM (tableElem v r))
  needR v.aligned .align v.addr
  liftE (locs.forM (fun o => match o with
    | some e => checkElem s r t v.code wr e
    | none => .ok ()))
  waitFor (beatMeet r t [(v, wr, locs.filterMap id)])
  return locs

/-- One beat of VGATH: d with b defines the walk. -/
def gatherBody (d a b : VOp) (w : Nat) (rm : Rm) (r : SlotRef) (t : Thread) (e : QEntry) : Run BeatEnd := do
  needR a.isShape .win 0
  let ops : List (Role × Bool × VOp) := [(.d, true, d), (.b, false, b)]
  let va ← liftE (viewOf r t e .a false w 0xF1 0 a)
  let plan ← liftE (planOf r t e ops w 0xF1 (fun vs => match vs with
    | [vd, vb] => movable vd va && intWindow vb
    | _ => false))
  match plan.views with
  | [vd, vb] =>
    let walk : Walk := { plan.walk with lanes := min plan.walk.lanes (64 / nibs va.code) }
    if walk.beats = 0 then
      liftE (alignAll [va])
      return .done
    waitHandles r t e ops w
    let lanes := walk.beat e.beats
    let ls ← beatPlaces r t [(vd, true, lanes), (vb, false, lanes)]
    waitPorts r e (some vd) [vb] lanes.length
    let xs ← readOperand r t [] vb (ls.getD 1 [])
    let la ← tableLocs r t va false (xs.map (fun x => x.int))
    let outs ← la.mapM (fun o => match o with
      | none => (pure (Out.val FV.zero, 0) : Run (Out × FFlags))
      | some l => do
        let x ← readElem r t va.code [] l
        return movedTo vd va x)
    let zeroed := outs.map (fun o => match o.1 with
      | .val v => if vd.code = 0xF0 then Out.bits 0 else .val v
      | x => x)
    let fl ← writeOuts r t rm vd (ls.headD []) zeroed
    takePortWords r [vb] lanes.length
    orFlagsR r (outs.foldl (fun g o => g ||| o.2) fl)
    if e.beats + 1 = walk.beats then return .done
    else return .more { e with beats := e.beats + 1, waited := true, ports := none }
  | _ => return .done

/-- VGATH (R256). -/
def execVgath (d a b : VOp) (w : Fin 8) (rm : Rm) (s : State) : Host.Outcome State Fault Refusal :=
  computeForm s (.vgath d a b w rm) (some d) (some a) (some b) false (gatherBody d a b w.val rm s.cur)

/-- The operand that defines the walk of VSCAT: a; where a is a port, which has no extents, b (R239, R257). -/
def scatterIteration (a b : VOp) : Role × Bool × VOp := if a.isShape || a.isHandle then (.a, false, a) else (.b, false, b)

/-- One beat of VSCAT. -/
def scatterBody (d a b : VOp) (w : Nat) (rm : Rm) (r : SlotRef) (t : Thread) (e : QEntry) : Run BeatEnd := do
  needR d.isShape .win 0
  let ops : List (Role × Bool × VOp) := [(.a, false, a), (.b, false, b)]
  let vd ← liftE (viewOf r t e .d true w 0xF1 0 d)
  let plan ← liftE (planBy (scatterIteration a b) r t e ops w 0xF1 (fun vs => match vs with
    | [va, vb] => movable vd va && intWindow vb
    | _ => false))
  match plan.views with
  | [va, vb] =>
    let walk : Walk := { plan.walk with lanes := min plan.walk.lanes (64 / nibs vd.code) }
    if walk.beats = 0 then
      liftE (alignAll [vd])
      return .done
    waitHandles r t e ops w
    let lanes := walk.beat e.beats
    let ls ← beatPlaces r t [(va, false, lanes), (vb, false, lanes)]
    waitPorts r e none [va, vb] lanes.length
    let vals ← readSources r t [] [(va, ls.headD []), (vb, ls.getD 1 [])]
    let ld ← tableLocs r t vd true ((vals.getD 1 []).map (fun x => x.int))
    let named := (ld.zip (vals.headD [])).filterMap (fun (p : Option ELoc × EVal) => p.1.map (fun l => (l, movedTo vd va p.2)))
    let fl ← writeOuts r t rm vd (named.map (fun p => p.1)) (named.map (fun p => p.2.1))
    takePortWords r [va, vb] lanes.length
    orFlagsR r (named.foldl (fun g p => g ||| p.2.2) fl)
    if e.beats + 1 = walk.beats then return .done
    else return .more { e with beats := e.beats + 1, waited := true, ports := none }
  | _ => return .done

/-- VSCAT (R257). -/
def execVscat (d a b : VOp) (w : Fin 8) (rm : Rm) (s : State) : Host.Outcome State Fault Refusal :=
  computeForm s (.vscat d a b w rm) (some d) (some a) (some b) false (scatterBody d a b w.val rm s.cur)

/-! ### Block maxima and quantisation (R258, R259) -/

/-- One beat of VBMAX: each aligned group of 32 elements of a run gives one element of d. -/
def bmaxBody (d a : VOp) (w : Nat) (rm : Rm) (r : SlotRef) (t : Thread) (e : QEntry) : Run BeatEnd := do
  let ops : List (Role × Bool × VOp) := [(.d, true, d), (.a, false, a)]
  let va ← liftE (viewOf r t e .a false w 0xF1 0 a)
  let vd ← liftE (viewOf r t e .d true w 0xF1 va.code d)
  let x := va.extents
  needR (floatWindow va && numWindow vd && decide (x.1 % 32 = 0)) .win va.addr
  needR (vd.fits (x.1 / 32, x.2.1, x.2.2.1, x.2.2.2)) .win va.addr
  let walk : Walk := { e0 := x.1, e1 := x.2.1, e2 := x.2.2.1, e3 := x.2.2.2,
                       lanes := min 32 (64 / max (nibs va.code) (nibs vd.code)) }
  if walk.beats = 0 then
    liftE (alignAll [vd, va])
    return .done
  waitHandles r t e ops w
  let lanes := walk.beat e.beats
  let ends := lanes.filter (fun l => decide (l.i0 % 32 = 31))
  let outLanes := ends.map (fun l => { l with i0 := l.i0 / 32, j := l.j / 32, lane := 0 })
  let ls ← beatPlaces r t [(vd, true, outLanes), (va, false, lanes)]
  waitPorts r e (if outLanes.isEmpty then none else some vd) [] outLanes.length
  let vals ← readOperand r t [] va (ls.getD 1 [])
  let ins := vals.map (redIn .maxabs false)
  let first := (lanes.head?.map (fun l => decide (l.i0 % 32 = 0))).getD true
  let m := redRun .maxabs false false first (e.carry.setWidth 32) (ins.map (fun p => p.1))
  let fl ← if outLanes.isEmpty then pure 0 else writeOuts r t rm vd (ls.headD []) (outLanes.map (fun _ => Out.val (decodeF32 m.1)))
  orFlagsR r (ins.foldl (fun f p => f ||| p.2) (fl ||| m.2))
  if e.beats + 1 = walk.beats then return .done
  else return .more { e with beats := e.beats + 1, waited := true, carry := m.1.setWidth 64, ports := none }

/-- VBMAX (R258). -/
def execVbmax (d a : VOp) (w : Fin 8) (rm : Rm) (s : State) : Host.Outcome State Fault Refusal :=
  computeForm s (.vbmax d a w rm) (some d) (some a) none false (bmaxBody d a w.val rm s.cur)

/-- The 32 lanes of the block to which a lane belongs (R140). -/
def blockLanes (l : Lane) : List Lane :=
  (List.range 32).map (fun k => { l with i0 := l.i0 / 32 * 32 + k, j := l.j / 32 * 32 + k, lane := k })

/-- ALIGN where a block of d does not start on a block boundary (R140, R259). -/
def blockStart (r : SlotRef) (vd : OpView) (block : List Lane) : Except Stop Unit :=
  match block.head?.map (vd.at r) with
  | some (.ok (.loc c off up)) => need (!up && decide (off % (blockOf vd.code off).2.1 = 0)) .align (locAddr vd.code c off)
  | _ => .ok ()

/-- Write the exponent pair of the block at a place (R132, R141). -/
def writePair (code : Nat) (x y : Nat) (e : ELoc) : Run Unit :=
  match e with
  | .loc c off _ => accessR (locAddr code c off) (fun s =>
      match s.scaleWrite c (blockOf code off).2.2 [BitVec.ofNat 8 x, BitVec.ofNat 8 y] with
      | (s1, none) => (s1, .ok ())
      | (s1, some k) => (s1, .error k))
  | _ => pure ()

/-- One beat of VQNT: the values of a block are kept until its last elements are in, then the block and its pair are
written, all or nothing (R244, R259). -/
def qntBody (d a : VOp) (dist : Nat) (r : SlotRef) (t : Thread) (e : QEntry) : Run BeatEnd := do
  let ops : List (Role × Bool × VOp) := [(.d, true, d), (.a, false, a)]
  let plan ← liftE (planOf r t e ops 0 0xF1 (fun vs => match vs with
    | [vd, va] => floatWindow va && isBx vd.code && !vd.glob
    | _ => false))
  match plan.views with
  | [vd, va] =>
    needR (decide (plan.walk.e0 % 32 = 0)) .win va.addr
    let walk : Walk := { plan.walk with lanes := min 32 plan.walk.lanes }
    if walk.beats = 0 then return .done
    waitHandles r t e ops 0
    let lanes := walk.beat e.beats
    let block := (lanes.head?.map blockLanes).getD []
    let last := decide (32 ≤ e.kept.length + lanes.length)
    let ls ← beatPlaces r t [(vd, true, if last then block else []), (va, false, lanes)] (blockStart r vd block)
    waitPorts r e none [va] lanes.length
    let vals ← readOperand r t [] va (ls.getD 1 [])
    let kept := e.kept ++ vals.map (fun v => v.bits)
    if !last then
      takePortWords r [va] lanes.length
      return .more { e with beats := e.beats + 1, waited := true, kept := kept, ports := none }
    else
      let ld := ls.headD []
      let q := quantise (decide (vd.code = 0xF3)) dist (kept.map (fun b => (decodeElem va.code b (0, 0)).val))
      wholeOrNone id ((ld.zip q.1).map (fun p => writeElem r t vd.code p.2 p.1)
        ++ (ld.head?.map (writePair vd.code q.2.1 q.2.2.1)).toList)
      takePortWords r [va] lanes.length
      orFlagsR r q.2.2.2
      if e.beats + 1 = walk.beats then return .done
      else return .more { e with beats := e.beats + 1, waited := true, kept := [], ports := none }
  | _ => return .done

/-- VQNT (R162, R163, R259). -/
def execVqnt (d a : VOp) (n : Fin 8) (s : State) : Host.Outcome State Fault Refusal :=
  computeForm s (.vqnt d a n) (some d) (some a) none false (qntBody d a n.val s.cur)

/-! ### Max-combining weirs (R260, R261) -/

/-- Element `j` of a phase's result: the maximum of the contributions, a shorter one counting as minus infinity. -/
def maxOf (l : List (SlotRef × Nat × List Word32 × Bool)) (j : Nat) : Word32 :=
  l.foldl (fun m p => (f32Max m (p.2.2.1.getD j 0xFF800000)).1) 0xFF800000

/-- A contribution enters the open phase; the last one ends the phase, and every participant's own count of elements is
held for it (R260, R261). The answer is the participants of the phase that ends, none while one is missing. -/
def Weir.contribute (w : Weir) (cluster : Nat) (r : SlotRef) (tid : Nat) (els : List Word32) (snan : Bool) :
    Weir × Option (List (SlotRef × Nat)) :=
  let here := w.contrib ++ [(r, tid, els, snan)]
  if (w.participants cluster).all (fun q => here.any (fun p => p.1 = q)) then
    let bad := here.any (fun p => p.2.2.2)
    ({ w with
        contrib := [],
        results := w.results ++ here.map (fun p => (p.1, p.2.1, (List.range p.2.2.1.length).map (maxOf here), bad)) },
      some (here.map (fun p => (p.1, p.2.1))))
  else ({ w with contrib := here }, none)

/-- A thread whose VWMAX waits at a weir looks again. -/
def Thread.lookAgain (t : Thread) : Thread :=
  match t.cq with
  | e :: rest => match e.instr with
    | .vwmax .. => { t with cq := { e with arrived := false } :: rest }
    | _ => t
  | [] => t

/-- One beat of VWMAX: first the contribution is read, then the result is written. -/
def wmaxBody (k : Nat) (d a : VOp) (w : Nat) (rm : Rm) (r : SlotRef) (t : Thread) (e : QEntry) : Run BeatEnd := do
  let s ← get
  let ops : List (Role × Bool × VOp) := [(.d, true, d), (.a, false, a)]
  let key := weirNo r.core (48 + k)
  let plan ← liftE (planOf r t e ops w 0xF1 (fun vs => match vs with
    | [vd, va] => floatWindow va && numWindow vd
    | _ => false))
  needR (decide (1 ≤ plan.walk.size ∧ plan.walk.size ≤ 64)) .win 0
  let n := plan.walk.beats
  match plan.views with
  | [vd, va] =>
    if e.beats < n then
      match s.weir? key with
      | none => throw (.trap .prot 0)
      | some q =>
        needR (q.names r && decide (q.world = t.world)) .prot 0
        waitHandles r t e ops w
        let lanes := plan.walk.beat e.beats
        let ls ← beatPlaces r t [(va, false, lanes)]
        waitPorts r e none [va] lanes.length
        let vals ← readOperand r t [] va (ls.headD [])
        takePortWords r [va] lanes.length
        let kept := e.kept ++ vals.map (fun v => (encodeF32 .rn v.val).1.toNat)
        let sn := vals.any (fun v => v.val.isSnan)
        let carry : Word := if sn then 1 else e.carry
        let e' : QEntry := { e with beats := e.beats + 1, waited := true, kept := kept, carry := carry, ports := none }
        if e.beats + 1 < n then return .more e'
        else
          let q' := q.contribute (clusterOf r.core) r t.id (kept.map (BitVec.ofNat 32)) (decide (carry = 1))
          modifyS (fun s => { s with weirs := tput s.weirs key q'.1 })
          match q'.2 with
          | some here => modifyS (fun s => s.modThreads here Thread.lookAgain)
          | none => pure ()
          return .more { e' with kept := [], arrived := q'.2.isNone }
    else
      match (s.weir? key).bind (fun q => q.results.find? (fun p => p.2.1 = t.id)) with
      | none => return .more { e with arrived := true }
      | some res =>
        let lanes := plan.walk.beat (e.beats - n)
        let ls ← beatPlaces r t [(vd, true, lanes)]
        waitPorts r e (some vd) [] lanes.length
        let fl ← writeOuts r t rm vd (ls.headD []) (lanes.map (fun l => Out.val (decodeF32 (res.2.2.1.getD l.j 0))))
        orFlagsR r (fl ||| flagNV res.2.2.2)
        if e.beats + 1 = 2 * n then
          modifyS (fun s => { s with weirs := s.weirs.map (fun (p : Nat × Weir) =>
            if p.1 = key then (p.1, { p.2 with results := p.2.results.erase res }) else p) })
          return .done
        else return .more { e with beats := e.beats + 1, ports := none }
  | _ => return .done

/-- VWMAX (R260, R261). -/
def execVwmax (k : Fin 16) (d a : VOp) (w : Fin 8) (rm : Rm) (s : State) : Host.Outcome State Fault Refusal :=
  computeForm s (.vwmax k d a w rm) (some d) (some a) none false (wmaxBody k.val d a w.val rm s.cur)

end Sys2Proof.Machine
end

