-- ==== Sys2Proof/Machine/Dispatch.lean ====
section
/-!
DEFINITION. The dispatch: one arm for each constructor of `Instr`, one direct call of its meaning each.
-/

namespace Sys2Proof.Machine

/-- EXECUTE an instruction of the current slot and pipe, or take an event with the arguments in `State.arg`. -/
def exec (i : Instr) (s : State) : Host.Outcome State Fault Refusal :=
  match i with
  | .add d a b m => Sys2Proof.Machine.execAdd d a b m s
  | .sub d a b m => Sys2Proof.Machine.execSub d a b m s
  | .mul d a b m => Sys2Proof.Machine.execMul d a b m s
  | .mulh d a b m => Sys2Proof.Machine.execMulh d a b m s
  | .mulhn d a b m => Sys2Proof.Machine.execMulhn d a b m s
  | .div d a b m => Sys2Proof.Machine.execDiv d a b m s
  | .divn d a b m => Sys2Proof.Machine.execDivn d a b m s
  | .rem d a b m => Sys2Proof.Machine.execRem d a b m s
  | .remn d a b m => Sys2Proof.Machine.execRemn d a b m s
  | .and d a b m => Sys2Proof.Machine.execAnd d a b m s
  | .or d a b m => Sys2Proof.Machine.execOr d a b m s
  | .xor d a b m => Sys2Proof.Machine.execXor d a b m s
  | .shl d a b m => Sys2Proof.Machine.execShl d a b m s
  | .shr d a b m => Sys2Proof.Machine.execShr d a b m s
  | .sar d a b m => Sys2Proof.Machine.execSar d a b m s
  | .andn d a b m => Sys2Proof.Machine.execAndn d a b m s
  | .min d a b m => Sys2Proof.Machine.execMin d a b m s
  | .max d a b m => Sys2Proof.Machine.execMax d a b m s
  | .minn d a b m => Sys2Proof.Machine.execMinn d a b m s
  | .maxn d a b m => Sys2Proof.Machine.execMaxn d a b m s
  | .clz d a ma => Sys2Proof.Machine.execClz d a ma s
  | .popc d a ma => Sys2Proof.Machine.execPopc d a ma s
  | .mov d a ma => Sys2Proof.Machine.execMov d a ma s
  | .leaX2 d a b m => Sys2Proof.Machine.execLeaX2 d a b m s
  | .leaX4 d a b m => Sys2Proof.Machine.execLeaX4 d a b m s
  | .leaX8 d a b m => Sys2Proof.Machine.execLeaX8 d a b m s
  | .void n => Sys2Proof.Machine.execVoid n s
  | .addi d a imm => Sys2Proof.Machine.execAddi d a imm s
  | .andi d a imm => Sys2Proof.Machine.execAndi d a imm s
  | .ori d a imm => Sys2Proof.Machine.execOri d a imm s
  | .xori d a imm => Sys2Proof.Machine.execXori d a imm s
  | .shli d a n => Sys2Proof.Machine.execShli d a n s
  | .shri d a n => Sys2Proof.Machine.execShri d a n s
  | .sari d a n => Sys2Proof.Machine.execSari d a n s
  | .movi d imm => Sys2Proof.Machine.execMovi d imm s
  | .bext d a pos len => Sys2Proof.Machine.execBext d a pos len s
  | .bins d a pos len => Sys2Proof.Machine.execBins d a pos len s
  | .muli d a imm => Sys2Proof.Machine.execMuli d a imm s
  | .csk n c a b => Sys2Proof.Machine.execCsk n c a b s
  | .cski n c a imm => Sys2Proof.Machine.execCski n c a imm s
  | .br off => Sys2Proof.Machine.execBr off s
  | .brl off => Sys2Proof.Machine.execBrl off s
  | .jmp a ma => Sys2Proof.Machine.execJmp a ma s
  | .jmpl a ma => Sys2Proof.Machine.execJmpl a ma s
  | .ret => Sys2Proof.Machine.execRet s
  | .ld d b sz disp => Sys2Proof.Machine.execLd d b sz disp s
  | .lds d b sz disp => Sys2Proof.Machine.execLds d b sz disp s
  | .st d b sz disp => Sys2Proof.Machine.execSt d b sz disp s
  | .lda d b sz disp => Sys2Proof.Machine.execLda d b sz disp s
  | .stl d b sz disp => Sys2Proof.Machine.execStl d b sz disp s
  | .ldx d a b sz m => Sys2Proof.Machine.execLdx d a b sz m s
  | .ldxS d a b sz m => Sys2Proof.Machine.execLdxS d a b sz m s
  | .stx d a b sz m => Sys2Proof.Machine.execStx d a b sz m s
  | .mpeek d b disp => Sys2Proof.Machine.execMpeek d b disp s
  | .mtake d b disp => Sys2Proof.Machine.execMtake d b disp s
  | .mput d b disp => Sys2Proof.Machine.execMput d b disp s
  | .mfill d b disp => Sys2Proof.Machine.execMfill d b disp s
  | .mdrain b disp => Sys2Proof.Machine.execMdrain b disp s
  | .mstate d b disp => Sys2Proof.Machine.execMstate d b disp s
  | .lrw d b disp => Sys2Proof.Machine.execLrw d b disp s
  | .sch d a b m => Sys2Proof.Machine.execSch d a b m s
  | .amoAdd d a b m => Sys2Proof.Machine.execAmoAdd d a b m s
  | .amoMin d a b m => Sys2Proof.Machine.execAmoMin d a b m s
  | .amoMax d a b m => Sys2Proof.Machine.execAmoMax d a b m s
  | .amoMinn d a b m => Sys2Proof.Machine.execAmoMinn d a b m s
  | .amoMaxn d a b m => Sys2Proof.Machine.execAmoMaxn d a b m s
  | .amoAnd d a b m => Sys2Proof.Machine.execAmoAnd d a b m s
  | .amoOr d a b m => Sys2Proof.Machine.execAmoOr d a b m s
  | .amoXor d a b m => Sys2Proof.Machine.execAmoXor d a b m s
  | .amoSwap d a b m => Sys2Proof.Machine.execAmoSwap d a b m s
  | .amoFadd d a b m => Sys2Proof.Machine.execAmoFadd d a b m s
  | .cas d a b m => Sys2Proof.Machine.execCas d a b m s
  | .rupd op a b m => Sys2Proof.Machine.execRupd op a b m s
  | .fenceAcq sc => Sys2Proof.Machine.execFenceAcq sc s
  | .fenceRel sc => Sys2Proof.Machine.execFenceRel sc s
  | .fenceFull sc => Sys2Proof.Machine.execFenceFull sc s
  | .push g q => Sys2Proof.Machine.execPush g q s
  | .pop g q => Sys2Proof.Machine.execPop g q s
  | .cpy d a b m => Sys2Proof.Machine.execCpy d a b m s
  | .cpyHdl d a b m => Sys2Proof.Machine.execCpyHdl d a b m s
  | .cpyTag d a b m => Sys2Proof.Machine.execCpyTag d a b m s
  | .waitt a ma => Sys2Proof.Machine.execWaitt a ma s
  | .psub d a b m => Sys2Proof.Machine.execPsub d a b m s
  | .pret d a b m => Sys2Proof.Machine.execPret d a b m s
  | .pcan d a ma => Sys2Proof.Machine.execPcan d a ma s
  | .hset h a ma => Sys2Proof.Machine.execHset h a ma s
  | .hadv h a ma => Sys2Proof.Machine.execHadv h a ma s
  | .hcom h a ma => Sys2Proof.Machine.execHcom h a ma s
  | .hwait h a ma => Sys2Proof.Machine.execHwait h a ma s
  | .hroom h a ma => Sys2Proof.Machine.execHroom h a ma s
  | .hget d h k => Sys2Proof.Machine.execHget d h k s
  | .sld sh a b m => Sys2Proof.Machine.execSld sh a b m s
  | .sst sh a b m => Sys2Proof.Machine.execSst sh a b m s
  | .sbase sh a ma => Sys2Proof.Machine.execSbase sh a ma s
  | .soff sh a ma => Sys2Proof.Machine.execSoff sh a ma s
  | .spawn d a b m => Sys2Proof.Machine.execSpawn d a b m s
  | .spawnq d a b m => Sys2Proof.Machine.execSpawnq d a b m s
  | .quit => Sys2Proof.Machine.execQuit s
  | .yield => Sys2Proof.Machine.execYield s
  | .park d a ma => Sys2Proof.Machine.execPark d a ma s
  | .wake d a ma => Sys2Proof.Machine.execWake d a ma s
  | .cancel d a ma => Sys2Proof.Machine.execCancel d a ma s
  | .poke a b m => Sys2Proof.Machine.execPoke a b m s
  | .claim a ma => Sys2Proof.Machine.execClaim a ma s
  | .acq a ma => Sys2Proof.Machine.execAcq a ma s
  | .acqt d a ma => Sys2Proof.Machine.execAcqt d a ma s
  | .rel a ma => Sys2Proof.Machine.execRel a ma s
  | .weir a b m => Sys2Proof.Machine.execWeir a b m s
  | .wbyte a b m => Sys2Proof.Machine.execWbyte a b m s
  | .wwait a ma => Sys2Proof.Machine.execWwait a ma s
  | .nest a ma => Sys2Proof.Machine.execNest a ma s
  | .next off => Sys2Proof.Machine.execNext off s
  | .trnew a b m => Sys2Proof.Machine.execTrnew a b m s
  | .trdsc a b m => Sys2Proof.Machine.execTrdsc a b m s
  | .trxpd d a sh ma => Sys2Proof.Machine.execTrxpd d a sh ma s
  | .trbck d a b m => Sys2Proof.Machine.execTrbck d a b m s
  | .trpik a b m => Sys2Proof.Machine.execTrpik a b m s
  | .trrrt a b m => Sys2Proof.Machine.execTrrrt a b m s
  | .trfre a ma => Sys2Proof.Machine.execTrfre a ma s
  | .trnewF a b m => Sys2Proof.Machine.execTrnewF a b m s
  | .trdscF a b m => Sys2Proof.Machine.execTrdscF a b m s
  | .trxpdF d a sh ma => Sys2Proof.Machine.execTrxpdF d a sh ma s
  | .trbckF d a b m => Sys2Proof.Machine.execTrbckF d a b m s
  | .trpikF a b m => Sys2Proof.Machine.execTrpikF a b m s
  | .trrrtF a b m => Sys2Proof.Machine.execTrrrtF a b m s
  | .trfreF a ma => Sys2Proof.Machine.execTrfreF a ma s
  | .csrr d c => Sys2Proof.Machine.execCsrr d c s
  | .csrw c a ma => Sys2Proof.Machine.execCsrw c a ma s
  | .trap n => Sys2Proof.Machine.execTrap n s
  | .eret d a ma => Sys2Proof.Machine.execEret d a ma s
  | .emwin d a b m => Sys2Proof.Machine.execEmwin d a b m s
  | .launch d a ma => Sys2Proof.Machine.execLaunch d a ma s
  | .pwrd d a ma => Sys2Proof.Machine.execPwrd d a ma s
  | .brk => Sys2Proof.Machine.execBrk s
  | .errinj d a b m => Sys2Proof.Machine.execErrinj d a b m s
  | .segrep d a b m => Sys2Proof.Machine.execSegrep d a b m s
  | .fadd d a b m => Sys2Proof.Machine.execFadd d a b m s
  | .fsub d a b m => Sys2Proof.Machine.execFsub d a b m s
  | .fmul d a b m => Sys2Proof.Machine.execFmul d a b m s
  | .fmin d a b m => Sys2Proof.Machine.execFmin d a b m s
  | .fmax d a b m => Sys2Proof.Machine.execFmax d a b m s
  | .fcvti d a ma => Sys2Proof.Machine.execFcvti d a ma s
  | .fcvtf d a ma => Sys2Proof.Machine.execFcvtf d a ma s
  | .fabs d a ma => Sys2Proof.Machine.execFabs d a ma s
  | .fneg d a ma => Sys2Proof.Machine.execFneg d a ma s
  | .ffma rm d a b m => Sys2Proof.Machine.execFfma rm d a b m s
  | .movl d imm => Sys2Proof.Machine.execMovl d imm s
  | .tbr live off => Sys2Proof.Machine.execTbr live off s
  | .brf link off => Sys2Proof.Machine.execBrf link off s
  | .vadd d a b w rm => Sys2Proof.Machine.execVadd d a b w rm s
  | .vsub d a b w rm => Sys2Proof.Machine.execVsub d a b w rm s
  | .vmul d a b w rm => Sys2Proof.Machine.execVmul d a b w rm s
  | .vmin d a b w rm => Sys2Proof.Machine.execVmin d a b w rm s
  | .vmax d a b w rm => Sys2Proof.Machine.execVmax d a b w rm s
  | .vabs d a w rm => Sys2Proof.Machine.execVabs d a w rm s
  | .vneg d a w rm => Sys2Proof.Machine.execVneg d a w rm s
  | .vmov d a w rm => Sys2Proof.Machine.execVmov d a w rm s
  | .vsel d a b w rm => Sys2Proof.Machine.execVsel d a b w rm s
  | .vfma d a b w rm => Sys2Proof.Machine.execVfma d a b w rm s
  | .vcmp c d a b w => Sys2Proof.Machine.execVcmp c d a b w s
  | .vred op dim d a w rm => Sys2Proof.Machine.execVred op dim d a w rm s
  | .viadd d a b w => Sys2Proof.Machine.execViadd d a b w s
  | .visub d a b w => Sys2Proof.Machine.execVisub d a b w s
  | .vimul d a b w => Sys2Proof.Machine.execVimul d a b w s
  | .vand d a b w => Sys2Proof.Machine.execVand d a b w s
  | .vor d a b w => Sys2Proof.Machine.execVor d a b w s
  | .vxor d a b w => Sys2Proof.Machine.execVxor d a b w s
  | .vshl d a b w => Sys2Proof.Machine.execVshl d a b w s
  | .vshr d a b w => Sys2Proof.Machine.execVshr d a b w s
  | .vsar d a b w => Sys2Proof.Machine.execVsar d a b w s
  | .vexp2 d a w => Sys2Proof.Machine.execVexp2 d a w s
  | .vlog2 d a w => Sys2Proof.Machine.execVlog2 d a w s
  | .vrcp d a w => Sys2Proof.Machine.execVrcp d a w s
  | .vrsq d a w => Sys2Proof.Machine.execVrsq d a w s
  | .vtanh d a w => Sys2Proof.Machine.execVtanh d a w s
  | .verf d a w => Sys2Proof.Machine.execVerf d a w s
  | .vsin d a w => Sys2Proof.Machine.execVsin d a w s
  | .vcos d a w => Sys2Proof.Machine.execVcos d a w s
  | .vmatch d a w => Sys2Proof.Machine.execVmatch d a w s
  | .vscan d a w rm => Sys2Proof.Machine.execVscan d a w rm s
  | .vgath d a b w rm => Sys2Proof.Machine.execVgath d a b w rm s
  | .vscat d a b w rm => Sys2Proof.Machine.execVscat d a b w rm s
  | .vbmax d a w rm => Sys2Proof.Machine.execVbmax d a w rm s
  | .vqnt d a n => Sys2Proof.Machine.execVqnt d a n s
  | .vwmax k d a w rm => Sys2Proof.Machine.execVwmax k d a w rm s
  | .mmaUnfold t f b lead => Sys2Proof.Machine.execMmaUnfold t f b lead s
  | .mmaShape t a b lead => Sys2Proof.Machine.execMmaShape t a b lead s
  | .mzero t => Sys2Proof.Machine.execMzero t s
  | .mload t a => Sys2Proof.Machine.execMload t a s
  | .mstore t a => Sys2Proof.Machine.execMstore t a s
  | .msave t a => Sys2Proof.Machine.execMsave t a s
  | .mrest t a => Sys2Proof.Machine.execMrest t a s
  | .unf f sh => Sys2Proof.Machine.execUnf f sh s
  | .esnenLi d imm => Sys2Proof.Machine.execEsnenLi d imm s
  | .esnenLih d imm => Sys2Proof.Machine.execEsnenLih d imm s
  | .esnenAdd d a b => Sys2Proof.Machine.execEsnenAdd d a b s
  | .esnenAddi d a imm => Sys2Proof.Machine.execEsnenAddi d a imm s
  | .esnenSub d a b => Sys2Proof.Machine.execEsnenSub d a b s
  | .esnenAnd d a b => Sys2Proof.Machine.execEsnenAnd d a b s
  | .esnenOr d a b => Sys2Proof.Machine.execEsnenOr d a b s
  | .esnenXor d a b => Sys2Proof.Machine.execEsnenXor d a b s
  | .esnenShli d a n => Sys2Proof.Machine.execEsnenShli d a n s
  | .esnenShri d a n => Sys2Proof.Machine.execEsnenShri d a n s
  | .esnenLdb d a imm => Sys2Proof.Machine.execEsnenLdb d a imm s
  | .esnenLdh d a imm => Sys2Proof.Machine.execEsnenLdh d a imm s
  | .esnenLdw d a imm => Sys2Proof.Machine.execEsnenLdw d a imm s
  | .esnenStb a b imm => Sys2Proof.Machine.execEsnenStb a b imm s
  | .esnenStw a b imm => Sys2Proof.Machine.execEsnenStw a b imm s
  | .esnenBeq a b imm => Sys2Proof.Machine.execEsnenBeq a b imm s
  | .esnenBne a b imm => Sys2Proof.Machine.execEsnenBne a b imm s
  | .esnenBlt a b imm => Sys2Proof.Machine.execEsnenBlt a b imm s
  | .esnenJal d imm => Sys2Proof.Machine.execEsnenJal d imm s
  | .esnenJr a => Sys2Proof.Machine.execEsnenJr a s
  | .esnenEmit a => Sys2Proof.Machine.execEsnenEmit a s
  | .esnenMark a => Sys2Proof.Machine.execEsnenMark a s
  | .esnenTlook d a => Sys2Proof.Machine.execEsnenTlook d a s
  | .esnenDone a => Sys2Proof.Machine.execEsnenDone a s
  | .esnenFail imm => Sys2Proof.Machine.execEsnenFail imm s
  | .meterExhausted => Sys2Proof.Machine.execMeterExhausted s
  | .moduleReset => Sys2Proof.Machine.execModuleReset s
  | .stackReady => Sys2Proof.Machine.execStackReady s
  | .patrolPass => Sys2Proof.Machine.execPatrolPass s
  | .hostLinkReset => Sys2Proof.Machine.execHostLinkReset s
  | .clusterGate => Sys2Proof.Machine.execClusterGate s
  | .clusterWake => Sys2Proof.Machine.execClusterWake s
  | .linkFrame => Sys2Proof.Machine.execLinkFrame s
  | .channelRekey => Sys2Proof.Machine.execChannelRekey s
  | .linkRetrain => Sys2Proof.Machine.execLinkRetrain s
  | .invalidation => Sys2Proof.Machine.execInvalidation s
  | .groupModeWrite => Sys2Proof.Machine.execGroupModeWrite s
  | .l2ControlWrite => Sys2Proof.Machine.execL2ControlWrite s
  | .ownerClaim => Sys2Proof.Machine.execOwnerClaim s
  | .measurementExtend => Sys2Proof.Machine.execMeasurementExtend s
  | .stateRegisterWrite => Sys2Proof.Machine.execStateRegisterWrite s
  | .functionLevelReset => Sys2Proof.Machine.execFunctionLevelReset s
  | .vfEnableClear => Sys2Proof.Machine.execVfEnableClear s
  | .deviceRegisterWrite => Sys2Proof.Machine.execDeviceRegisterWrite s
  | .hostPostedWrite => Sys2Proof.Machine.execHostPostedWrite s
  | .hostRead => Sys2Proof.Machine.execHostRead s
  | .hostLaunch => Sys2Proof.Machine.execHostLaunch s
  | .create => Sys2Proof.Machine.execCreate s
  | .destroy => Sys2Proof.Machine.execDestroy s
  | .layout => Sys2Proof.Machine.execLayout s
  | .rotate => Sys2Proof.Machine.execRotate s
  | .bind => Sys2Proof.Machine.execBind s
  | .monitor => Sys2Proof.Machine.execMonitor s
  | .attach => Sys2Proof.Machine.execAttach s
  | .handover => Sys2Proof.Machine.execHandover s
  | .getVersion => Sys2Proof.Machine.execGetVersion s
  | .getCapabilities => Sys2Proof.Machine.execGetCapabilities s
  | .negotiateAlgorithms => Sys2Proof.Machine.execNegotiateAlgorithms s
  | .getDigests => Sys2Proof.Machine.execGetDigests s
  | .getCertificate => Sys2Proof.Machine.execGetCertificate s
  | .challenge => Sys2Proof.Machine.execChallenge s
  | .getMeasurements => Sys2Proof.Machine.execGetMeasurements s
  | .launchAdmission => Sys2Proof.Machine.execLaunchAdmission s
  | .bootTreeForward => Sys2Proof.Machine.execBootTreeForward s
  | .initialThreadStart => Sys2Proof.Machine.execInitialThreadStart s
  | .regionCompletion => Sys2Proof.Machine.execRegionCompletion s
  | .handlerSpawn => Sys2Proof.Machine.execHandlerSpawn s
  | .tlbWalk => Sys2Proof.Machine.execTlbWalk s
  | .storePerformed => Sys2Proof.Machine.execStorePerformed s
  | .spillwayOverflow => Sys2Proof.Machine.execSpillwayOverflow s
  | .spillwayInvalidation => Sys2Proof.Machine.execSpillwayInvalidation s
  | .visit => Sys2Proof.Machine.execVisit s
  | .remoteUpdate => Sys2Proof.Machine.execRemoteUpdate s
  | .remoteFill => Sys2Proof.Machine.execRemoteFill s
  | .heldRequestService => Sys2Proof.Machine.execHeldRequestService s
  | .mputClaimGrant => Sys2Proof.Machine.execMputClaimGrant s
  | .lrwHead => Sys2Proof.Machine.execLrwHead s
  | .leaseEnd => Sys2Proof.Machine.execLeaseEnd s
  | .parkDeadline => Sys2Proof.Machine.execParkDeadline s
  | .promiseTime => Sys2Proof.Machine.execPromiseTime s
  | .watchdogExpiry => Sys2Proof.Machine.execWatchdogExpiry s
  | .yieldExpiry => Sys2Proof.Machine.execYieldExpiry s
  | .copyAccept => Sys2Proof.Machine.execCopyAccept s
  | .copyChunk => Sys2Proof.Machine.execCopyChunk s
  | .q1CompletionEntry => Sys2Proof.Machine.execQ1CompletionEntry s
  | .loaderSubscription => Sys2Proof.Machine.execLoaderSubscription s
  | .storerSubscription => Sys2Proof.Machine.execStorerSubscription s
  | .cancelRecord => Sys2Proof.Machine.execCancelRecord s
  | .loaderTile => Sys2Proof.Machine.execLoaderTile s
  | .storerTile => Sys2Proof.Machine.execStorerTile s
  | .treeCmdNew => Sys2Proof.Machine.execTreeCmdNew s
  | .treeCmdDescent => Sys2Proof.Machine.execTreeCmdDescent s
  | .treeCmdExpand => Sys2Proof.Machine.execTreeCmdExpand s
  | .treeCmdBackup => Sys2Proof.Machine.execTreeCmdBackup s
  | .treeCmdPick => Sys2Proof.Machine.execTreeCmdPick s
  | .treeCmdReroot => Sys2Proof.Machine.execTreeCmdReroot s
  | .treeCmdFree => Sys2Proof.Machine.execTreeCmdFree s
  | .backgroundFreeing => Sys2Proof.Machine.execBackgroundFreeing s
  | .reductionMessage => Sys2Proof.Machine.execReductionMessage s
  | .q6Entry => Sys2Proof.Machine.execQ6Entry s
  | .containmentNotice => Sys2Proof.Machine.execContainmentNotice s
  | .frameRemap => Sys2Proof.Machine.execFrameRemap s
  | .taskInsert => Sys2Proof.Machine.execTaskInsert s
  | .dispatch => Sys2Proof.Machine.execDispatch s
  | .arrival => Sys2Proof.Machine.execArrival s
  | .arrivalPlacement => Sys2Proof.Machine.execArrivalPlacement s
  | .occupancySample => Sys2Proof.Machine.execOccupancySample s
  | .slotHandover => Sys2Proof.Machine.execSlotHandover s
  | .gangStart => Sys2Proof.Machine.execGangStart s
  | .gangRetire => Sys2Proof.Machine.execGangRetire s
  | .debuggerResume => Sys2Proof.Machine.execDebuggerResume s
  | .clockThrottle => Sys2Proof.Machine.execClockThrottle s
  | .externalPortAccess => Sys2Proof.Machine.execExternalPortAccess s
  | .vfEnableSet => Sys2Proof.Machine.execVfEnableSet s

end Sys2Proof.Machine
end

