-- ==== Sys2Proof/Machine/Turns.lean ====
section
/-!
DEFINITION. Whose turn comes next in a cycle: the translator (R396), then the pipes of the cores in order (R185, R187); and
the end of a cycle (R6), where the work that has become possible is called.
-/

namespace Sys2Proof.Machine

/-! ### Turns -/

/-- Whether a thread that has issued nothing in a travelling region stands at an instruction held elsewhere (R369). -/
def State.startsAway (s : State) (t : Thread) (c : Cause) : Bool :=
  decide (c = .prot) && t.unissued && s.isTrav t.region

/-- What the slot that takes an address-pipe turn does: its next instruction is fetched, and runs, ships its thread, or raises the fetch's
exception (R194, R369). -/
def addressTurn (s : State) (r : SlotRef) (t : Thread) : Turn :=
  let s1 : State := { s.setThread r t.roused with cur := r, pipe := .address }
  match fetch s1 r t with
  | .ok (i, _) => .run i s1
  | .error (k, a, len) => if s1.startsAway t k then .idle (shipFirst s1 r t) else .idle (takeFault s1 k a 0 len)

/-- What the slot that takes a compute-pipe turn does: a beat of the head of its queue (R187). -/
def computeTurn (s : State) (r : SlotRef) (t : Thread) : Turn :=
  match t.cq with
  | [] => .idle s
  | e :: _ => .run e.instr { s with cur := r, pipe := .compute }

/-- The turn of one pipe of one core (R185, R187, R194). The core's spillway takes an address-pipe turn before any thread, for work billed to
the turn's slot number (R95, R186); a turn in which its owner's instruction is annulled is donated (R222, R224). -/
def pipeTurn (s : State) (p : Pipe) (c : CoreIx) : Turn :=
  let n := s.tc % 16
  match (match p with | .address => spillwayTurn s c n | .compute => none) with
  | some i => .run i { s with arg := { core := c, slot := n } }
  | none =>
    let x : State × Bool := match p with
      | .address => annulTurn s c n
      | .compute => (s, false)
    match turnOf x.1 p c n x.2 with
    | none => .idle x.1
    | some r =>
      match x.1.thread? r with
      | none => .idle x.1
      | some t => match p with
        | .address => addressTurn x.1 r t
        | .compute => computeTurn x.1 r t

/-- The position in a cycle after a pipe of a core; position 0 is the translator's. -/
def afterPipe (c : CoreIx) : Pipe → Nat
  | .address => 2 * c + 2
  | .compute => 2 * c + 3

/-- Search the cores from a position in the cycle for a turn that runs something (R185, R187). -/
def scan (s : State) : List CoreIx → Turn
  | [] => .idle s
  | c :: rest =>
    let x : Turn := if s.cursor ≤ 2 * c + 1 then pipeTurn s .address c else .idle s
    match x with
    | .run i s1 => .run i { s1 with cursor := afterPipe c .address }
    | .idle s1 =>
      let y : Turn := if s1.cursor ≤ 2 * c + 2 then pipeTurn { s1 with cursor := max s1.cursor (2 * c + 2) } .compute c else .idle s1
      match y with
      | .run i s2 => .run i { s2 with cursor := afterPipe c .compute }
      | .idle s2 => scan s2 rest

/-- The next turn of the cycle. -/
def nextTurn (s : State) : Turn :=
  let ids := s.cores.map (fun p => p.1)
  if s.cursor = 0 then
    match s.translator with
    | some k =>
      if k.running then
        match translatorTurn s k with
        | .run i s1 => .run i { s1 with cursor := 1 }
        | .idle s1 => scan { s1 with cursor := 1 } ids
      else scan { s with cursor := 1 } ids
    | none => scan { s with cursor := 1 } ids
  else scan s ids

/-! ### Work that has become possible -/

/-- A piece of work, when a condition holds. -/
def dueIf (b : Bool) (i : Instr) (a : Args) : List Due := if b then [{ what := i, arg := a }] else []

/-- The event that takes the earliest of some records. -/
def firstRecord (l : List (SlotRef × Thread × Record)) (ev : Word → Instr) (c : CoreIx) : List Due :=
  match l with
  | x :: _ => [{ what := ev (x.2.2.words.headD 0), arg := { core := c } }]
  | [] => []

/-- What a core's own units, and the engines at it, can take up. -/
def State.coreWork (s : State) (c : CoreIx) (k : Core) : List Due :=
  let a : Args := { core := c }
  dueIf (s.headReady c || k.releases.any (fun x => s.releaseReady { core := c, slot := x.slot } (x.who c) x.stamp x.wide)) .storePerformed a
  ++ dueIf (k.fills.any (s.fillReady c)) .remoteFill a
  ++ dueIf (!(activeRecords s c 0).isEmpty) .copyAccept a
  ++ dueIf (!(runningCopies k).isEmpty) .copyChunk a
  ++ dueIf (!(endedCopies k).isEmpty) .q1CompletionEntry a
  ++ firstRecord (activeRecords s c 2) pumpEvent c
  ++ (k.q6wait.map (fun g => ({ what := .q6Entry, arg := { core := c, slot := g.slot } } : Due)))
  ++ dueIf ((reductionStep s c).isSome) .reductionMessage a
  ++ dueIf (!k.arrivals.isEmpty || (match k.pin.bind (fun p => s.region? p.region) with
      | some g => decide (0 < s.ringHas g c)
      | none => false)) .arrivalPlacement a

/-- What a row's gang unit and its array can take up (R272, R273). -/
def State.rowWork (s : State) (row : Nat) (g : GangRow) : List Due :=
  match g.running with
  | some _ => [{ what := .gangRetire, arg := { n := row } }]
  | none => dueIf ((s.gangPick row).isSome) .gangStart { n := row }

/-- What a dispatcher can take up (R343, R348). -/
def State.dispatchWork (s : State) (cluster : Nat) (d : Dispatcher) : List Due :=
  dueIf (!d.arriving.isEmpty || canUnspill s d) .taskInsert { n := cluster }
  ++ dueIf ((List.range 16).any (fun b => (startable s cluster d b).isSome)) .dispatch { n := cluster }

/-- What the headgate can take up for a region (R334-R336, R417). -/
def State.regionWork (s : State) (g : Region) : List Due :=
  let a : Args := { n := g.id }
  dueIf (!g.msgs.isEmpty) .handlerSpawn a
  ++ dueIf (!g.forward.isEmpty) .bootTreeForward a
  ++ dueIf (s.regionIdle g.id) .regionCompletion a

/-- What a tree engine can take up (R315, R325). -/
def poolWork (h : CoreIx) (l : List Pool) : List Due :=
  dueIf (l.any (fun p => p.freeing.isSome)) .backgroundFreeing { core := h }

/-- The home cores of the tree commands that stand in outlets. -/
def State.treeHomes (s : State) : List CoreIx :=
  (s.cores.flatMap (fun p => activeRecords s p.1 4)).map (fun x => x.2.2.home)

/-- The work that stands waiting somewhere in the module and is possible now. -/
def State.possible (s : State) : List Due :=
  s.cores.flatMap (fun p => s.coreWork p.1 p.2)
  ++ s.treeHomes.flatMap (fun h => firstRecord (treePresent s h) treeEvent h)
  ++ s.pools.flatMap (fun p => poolWork p.1 p.2)
  ++ s.gangs.flatMap (fun p => s.rowWork p.1 p.2)
  ++ s.dispatchers.flatMap (fun p => s.dispatchWork p.1 p.2)
  ++ s.regions.flatMap s.regionWork
  ++ dueIf s.nextHeld.isSome .heldRequestService {}
  ++ dueIf (s.subs.any (fun u => u.loader && (u.ended.isSome || s.subReady u))) .loaderTile { n := Config.enginePick s.seq % 3, flag := Config.sideBandSlip s.seq }
  ++ dueIf (s.subs.any (fun u => !u.loader && (u.ended.isSome || s.subReady u))) .storerTile {}
  ++ s.flights.map (fun x => ({ what := .arrival, arg := { core := x.1 } } : Due))
  ++ s.walks.map (fun w => ({ what := .tlbWalk, arg := { n := w.die } } : Due))
  ++ s.lost.map (fun l => ({ what := .containmentNotice, arg := { n := l.die } } : Due))
  ++ s.retire.map (fun p => ({ what := .frameRemap, arg := { n := p.1 } } : Due))
  ++ dueIf (match s.admitting with
      | some _ => match s.translator with | some k => k.ended.isSome | none => true
      | none => !s.launches.isEmpty) .launchAdmission {}
  ++ (match s.destroying with
      | some d => dueIf (!s.regions.any (fun g => g.world = d.1)) .destroy { n := d.1, flag := true }
      | none => [])
  ++ s.patrols.flatMap (fun p => dueIf (p.2.running && decide (s.tc % 2 ^ 20 = p.1)) .patrolPass { n := p.1 })

/-- The agenda with the possible work that does not stand in it yet. -/
def addWork (agenda : List Due) : List Due → List Due
  | [] => agenda
  | d :: rest => if agenda.contains d then addWork agenda rest else addWork (agenda ++ [d]) rest

/-! ### The end of a cycle -/

/-- The events that a cycle makes due at once: deadlines, promises, yields, watchdogs, leases (R127), slots to hand over
(R428), the occupancy sample (R376), a patrol pass whose time is spent (R41). -/
def State.dueNow (s : State) (tc : Nat) : List Due :=
  let due := s.threads.flatMap (fun p => threadDue tc p.1 p.2)
  let leases := s.lrws.filterMap (fun p => match p.2.head? with
    | some q => match q.head with
      | some h => if h + 4096 = tc then some ({ what := .leaseEnd, arg := { n := p.1 } } : Due) else none
      | none => none
    | none => none)
  let hand := s.rotations.flatMap (fun k => (k.left.filter (fun r => decide (r.slot = tc % 16))).map (fun r =>
    ({ what := .slotHandover, arg := { core := r.core, slot := r.slot, n := k.polder } } : Due)))
  let sample := dueIf (decide (tc % 64 = 0) && s.cores.any (fun p => p.2.pin.isSome)) .occupancySample {}
  let patrol := s.patrols.flatMap (fun p => dueIf (p.2.running && decide (p.2.begun + 2 ^ 31 ≤ tc + 2)) .patrolPass { n := p.1 })
  due ++ leases ++ hand ++ sample ++ patrol

/-- The cycle ends (R6): tc advances, watchdogs fall, the state bytes of the regions' blocks are brought up to date (R329), what the new cycle
makes due is taken first, and the work that has become possible joins the agenda. -/
def tick (s : State) : State :=
  let tc := s.tc + 1
  let s1 : State := { s with
    tc := tc, cursor := 0,
    stamped := s.stamped.filter (fun p => decide (tc < p.2)),
    cores := s.cores.map (fun p => (p.1, p.2.countSlots 16)),
    urgent := s.urgent ++ s.dueNow tc }
  let s2 : State := s1.showCounts
  { s2 with agenda := addWork s2.agenda s2.possible }

end Sys2Proof.Machine
end

