-- ==== Sys2Proof/Machine/Step.lean ====
section
/-!
DEFINITION. One step of the module: a piece of waiting engine, host or controller work; else a turn of a pipe or of the
translator; else the end of the cycle. And the state in which the next step runs a given instruction.
-/

namespace Sys2Proof.Machine

/-- ONE STEP. -/
def step (s : State) : Host.Outcome State Fault Refusal :=
  match takeWork s with
  | some (d, s1) => exec d.what s1
  | none =>
    match nextTurn { s with hold := s.hold - 1 } with
    | .run i s1 => exec i s1
    | .idle s1 => .next (tick s1)

/-- The state with an instruction placed where the next step fetches it: what a launch does for a thread or a translation
(log entry 8). -/
def State.withFetchWord (s : State) (nbits w : Nat) : State := placeProgram s (tableWords nbits w)

end Sys2Proof.Machine
end

