-- ==== Sys2Proof/Safety.lean ====
section
/-!
DEFINITION. What counts as a safe run of the module: it never stops.
-/

namespace Sys2Proof.Safety

open Sys2Proof.Machine

/-- Whether a step of the state answers a next state. -/
def goesOn (s : State) : Prop := ∃ t, step s = .next t

/-- Whether `n` steps go through from a state. -/
def runs : Nat → State → Prop
  | 0, _ => True
  | n + 1, s => ∃ t, step s = .next t ∧ runs n t

/-- A SAFE run: it takes any number of steps. -/
def safe (s : State) : Prop := ∀ n, runs n s

end Sys2Proof.Safety
end

