-- ==== Sys2Proof/Certificates/Slice0/Obligations.lean ====
section
/-!
DEFINITION. The statements of this model, for the provers: what the rules of the spec say that the machine does.
Helpers stand in `Sys2Proof.Claims`. A statement about instructions has as its conclusion the state that the instruction
answers; `Acts s t` says that the slot whose turn it is holds thread `t`.
-/

namespace Sys2Proof.Claims

open Sys2Proof.Machine

/-! ### Vocabulary -/

/-- The slot whose turn it is holds a thread. -/
abbrev Acts (s : State) (t : Thread) : Prop := s.thread? s.cur = some t

/-- Every byte of memory reads in one state as in another: local memory and scale plane of every core, HBM4E. -/
def SameMemory (s u : State) : Prop :=
  (∀ c a, cellGet (u.core c).mem a = cellGet (s.core c).mem a) ∧
  (∀ c a, cellGet (u.core c).scale a = cellGet (s.core c).scale a) ∧
  (∀ a, cellGet u.hbm a = cellGet s.hbm a)

/-- Every other slot holds the thread that it held. -/
def OthersKeep (s u : State) : Prop := ∀ q, ¬sameSlot q s.cur → u.thread? q = s.thread? q

/-- An instruction answers a state in which its slot holds thread `t'`, every other slot holds what it held, every byte of
memory reads as before, and time, the turn and the agenda are as before: its whole effect is on its own thread (and on the
mesh ports it names). -/
def Leaves (i : Instr) (s : State) (t' : Thread) : Prop :=
  ∃ u, exec i s = .next u ∧ u.thread? s.cur = some t' ∧ OthersKeep s u ∧ SameMemory s u ∧ u.tc = s.tc ∧ u.cur = s.cur ∧
    u.agenda = s.agenda

/-- The thread after its last-read marks, its advance past `n` bytes, and the write of `v` to `d` (R180, R183, R214). -/
def afterForm (t : Thread) (marked : List (Bool × Reg)) (n : Nat) (d : Reg) (v : Word) : Thread :=
  ((marked.foldl (fun t p => t.mark p.1 p.2) t).advance n).write d v

/-- The thread after its marks and its advance. -/
def afterMarks (t : Thread) (marked : List (Bool × Reg)) (n : Nat) : Thread := (marked.foldl (fun t p => t.mark p.1 p.2) t).advance n

/-- Nothing in the module makes an access wait at its home: no frame is being remapped, no spillway work stands on a line, no line's sharers
have overflowed its directory entry (R57, R91, R94). -/
abbrev Calm (s : State) : Prop := s.calm = true

/-- A calm module in whose slices no uncorrectable error is planted: no fill of a line makes another access wait (R57, R105, R436). -/
abbrev Still (s : State) : Prop := Calm s ∧ s.slices.all (fun p => p.2.all (fun y => !y.ue)) = true

/-- Nothing waits: no urgent work, and the turns that pass before engine work is taken are not spent, or no work waits. -/
def NoWork (s : State) : Prop := s.urgent = [] ∧ (s.hold ≠ 0 ∨ s.agenda = [])

/-! ### The register forms and what they compute (R217, R219, R220) -/

/-- The forms that read a and b and write d, with the function that each computes. -/
def binaryForms : List ((Reg → Reg → Reg → Marks → Instr) × (Word → Word → Word)) :=
  [(.add, fun x y => x + y), (.sub, fun x y => x - y), (.mul, fun x y => x * y),
   (.mulh, fun x y => BitVec.ofInt 64 (x.toInt * y.toInt / 2 ^ 64)),
   (.mulhn, fun x y => BitVec.ofNat 64 (x.toNat * y.toNat / 2 ^ 64)),
   (.div, fun x y => if y = 0 then BitVec.allOnes 64 else BitVec.ofInt 64 (x.toInt.tdiv y.toInt)),
   (.divn, fun x y => if y = 0 then BitVec.allOnes 64 else BitVec.ofNat 64 (x.toNat / y.toNat)),
   (.rem, fun x y => if y = 0 then x else BitVec.ofInt 64 (x.toInt.tmod y.toInt)),
   (.remn, fun x y => if y = 0 then x else BitVec.ofNat 64 (x.toNat % y.toNat)),
   (.and, fun x y => x &&& y), (.or, fun x y => x ||| y), (.xor, fun x y => x ^^^ y), (.andn, fun x y => x &&& ~~~y),
   (.shl, fun x y => x <<< (y.toNat % 64)), (.shr, fun x y => x >>> (y.toNat % 64)),
   (.sar, fun x y => x.sshiftRight (y.toNat % 64)),
   (.min, fun x y => if y.toInt < x.toInt then y else x), (.max, fun x y => if x.toInt < y.toInt then y else x),
   (.minn, fun x y => if y.toNat < x.toNat then y else x), (.maxn, fun x y => if x.toNat < y.toNat then y else x),
   (.leaX2, fun x y => x + y * 2), (.leaX4, fun x y => x + y * 4), (.leaX8, fun x y => x + y * 8)]

/-- The forms that read a, with a last-read mark, and write d. -/
def unaryForms : List ((Reg → Reg → Bool → Instr) × (Word → Word)) :=
  [(.mov, fun x => x), (.clz, fun x => if x = 0 then 64 else BitVec.ofNat 64 (63 - Nat.log2 x.toNat)),
   (.popc, fun x => BitVec.ofNat 64 ((List.range 64).countP (fun i => x.getLsbD i)))]

/-- The forms with a 12-bit immediate, sign-extended. -/
def immediateForms : List ((Reg → Reg → BitVec 12 → Instr) × (Word → Word → Word)) :=
  [(.addi, fun x y => x + y), (.andi, fun x y => x &&& y), (.ori, fun x y => x ||| y), (.xori, fun x y => x ^^^ y),
   (.muli, fun x y => x * y)]

/-- The forms with a shift count. -/
def countForms : List ((Reg → Reg → BitVec 6 → Instr) × (Word → Nat → Word)) :=
  [(.shli, fun x n => x <<< n), (.shri, fun x n => x >>> n), (.sari, fun x n => x.sshiftRight n)]

/-- The length that a field of BEXT or BINS names: 0 stands for 64 (R220). -/
def fieldBits (len : BitVec 6) : Nat := if len = 0 then 64 else len.toNat

/-! ### The scalar float forms (R234-R236) -/

/-- The forms on two F32 operands: the result and the flags it sets. -/
def floatForms : List ((Reg → Reg → Reg → Marks → Instr) × (Word32 → Word32 → Word32 × FFlags)) :=
  [(.fadd, f32Add), (.fsub, f32Sub), (.fmul, f32Mul), (.fmin, f32Min), (.fmax, f32Max)]

/-- The forms on one operand: the register value and the flags. -/
def floatUnaryForms : List ((Reg → Reg → Bool → Instr) × (Word → Word × FFlags)) :=
  [(.fcvti, fun x => (BitVec.ofInt 64 (fvToInt .rz (-9223372036854775808) 9223372036854775807 (decodeF32 (x.setWidth 32))).1,
      (fvToInt .rz (-9223372036854775808) 9223372036854775807 (decodeF32 (x.setWidth 32))).2)),
   (.fcvtf, fun x => ((encodeF32 .rn (FV.ofInt x.toInt)).1.setWidth 64, (encodeF32 .rn (FV.ofInt x.toInt)).2)),
   (.fabs, fun x => (((x.setWidth 32 : Word32) &&& 0x7FFFFFFF).setWidth 64, 0)),
   (.fneg, fun x => (((x.setWidth 32 : Word32) ^^^ 0x80000000).setWidth 64, 0))]

/-! ### Conditions (R223) -/

/-- Whether a condition on two values holds; for the F conditions, on their F32 values. -/
def condTrue (c : Cond) (x y : Word) : Bool :=
  match c with
  | .eq => decide (x = y)
  | .ne => decide (x ≠ y)
  | .lt => decide (x.toInt < y.toInt)
  | .ge => decide (y.toInt ≤ x.toInt)
  | .ltn => decide (x.toNat < y.toNat)
  | .gen => decide (y.toNat ≤ x.toNat)
  | .bs => x.getLsbD (y.toNat % 64)
  | .bc => !x.getLsbD (y.toNat % 64)
  | .feq => decide (fvCmp (decodeF32 (x.setWidth 32)) (decodeF32 (y.setWidth 32)) = some .eq)
  | .fne => decide (fvCmp (decodeF32 (x.setWidth 32)) (decodeF32 (y.setWidth 32)) ≠ some .eq)
  | .flt => decide (fvCmp (decodeF32 (x.setWidth 32)) (decodeF32 (y.setWidth 32)) = some .lt)
  | .fge => decide (fvCmp (decodeF32 (x.setWidth 32)) (decodeF32 (y.setWidth 32)) = some .gt ∨
      fvCmp (decodeF32 (x.setWidth 32)) (decodeF32 (y.setWidth 32)) = some .eq)
  | .fun_ => (decodeF32 (x.setWidth 32)).isNan || (decodeF32 (y.setWidth 32)).isNan
  | .full => false
  | .empty => false

/-- The flags that a compare sets: invalid for a signalling NaN, and for any NaN under FLT and FGE. -/
def condFlags (c : Cond) (x y : Word) : FFlags :=
  let fx := decodeF32 (x.setWidth 32)
  let fy := decodeF32 (y.setWidth 32)
  match c with
  | .feq | .fne | .fun_ => flagNV (fx.isSnan || fy.isSnan)
  | .flt | .fge => flagNV (fx.isNan || fy.isNan)
  | _ => 0

/-- The conditions that compare two values. -/
def comparing (c : Cond) : Prop := c ≠ .full ∧ c ≠ .empty

/-- The immediate operand of CSKI: an F32 for the F conditions, else sign-extended. -/
def skipImmediate (c : Cond) (imm : BitVec 12) : Word :=
  match c with
  | .feq | .fne | .flt | .fge | .fun_ => ((encodeF32 .rn (FV.ofInt imm.toInt)).1).setWidth 64
  | _ => imm.signExtend 64

/-! ### Control transfer -/

/-- An address is that of an instruction of the image that the slot's thread runs (R226). -/
def InCode (s : State) (t : Thread) (pc : Word) : Prop :=
  pc.toNat % 4 = 0 ∧ ∃ m, (s.core s.cur.core).imageOf t.region t.role = some m ∧ m.start ≤ pc.toNat ∧
    pc.toNat < m.start + 4 * m.words.length

/-- The thread after a transfer: its marks, the link register, the pc, one more instruction beyond each unretired compute instruction (R183,
R187, R225). -/
def afterJump (t : Thread) (marked : List (Bool × Reg)) (lk pc : Word) : Thread :=
  let u : Thread := marked.foldl (fun t p => t.mark p.1 p.2) { t with lk := lk }
  { u.issued with pc := pc, parked := none, unissued := false }

/-! ### Local memory -/

/-- `n` bytes of local memory of a core as a number, least significant first (R4). -/
def localValue (s : State) (k : CoreIx) (o n : Nat) : Nat := leNat ((List.range n).map (fun i => cellGet (s.core k).mem (o + i)))

/-- The shape record in 32 bytes of local memory (R147). -/
def localShape (s : State) (k : CoreIx) (o : Nat) : Shape :=
  { w0 := BitVec.ofNat 64 (localValue s k o 8), w1 := BitVec.ofNat 64 (localValue s k (o + 8) 8),
    w2 := BitVec.ofNat 64 (localValue s k (o + 16) 8), w3 := BitVec.ofNat 64 (localValue s k (o + 24) 8) }

/-- An address names `n` bytes at offset `o` of core `k` of the slot's cluster, aligned, within the dikes of the thread in the slot of
the same number there, which is of the same world (R22, R25, R26, R135). -/
def LocalAt (s : State) (t : Thread) (a : Word) (n : Nat) (k : CoreIx) (o : Nat) : Prop :=
  0xF0 ≤ windowOf a ∧ windowOf a ≤ 0xF7 ∧ bitsOf a 55 23 = 0 ∧ bitsOf a 15 15 = 0 ∧ a.toNat % n = 0 ∧
    k = s.cur.core / 128 * 128 + bitsOf a 22 16 ∧ o = bitsOf a 14 0 ∧
    ∃ u, s.thread? { core := k, slot := s.cur.slot } = some u ∧ u.world = t.world ∧ u.dikelo.toNat ≤ o ∧ o + n ≤ u.dikehi.toNat

/-- No word of the bytes is poisoned or bears a planted error (R132, R436). -/
def Sound (s : State) (k : CoreIx) (o n : Nat) : Prop :=
  ∀ i < n, (∀ p ∈ s.locErr, p.1 ≠ locWord k (o + i)) ∧ (o + i) / 8 * 8 ∉ (s.core k).poison

/-- No older compute instruction of the slot, and no store of it that waits in the buffer, names one of the bytes (R112, R115). -/
def Unnamed (s : State) (t : Thread) (p : Place) (n : Nat) : Prop :=
  (∀ e ∈ t.cq, entryNames s.cur t e false p n = false ∧ entryNames s.cur t e true p n = false) ∧ s.buffered s.cur p n = false

/-- An address names `n` bytes of local memory that a load of the thread can read as they stand. -/
def LoadableAt (s : State) (t : Thread) (a : Word) (n : Nat) (k : CoreIx) (o : Nat) : Prop :=
  LocalAt s t a n k o ∧ Sound s k o n ∧ Unnamed s t (.loc k o) n

/-- An address names `n` aligned bytes of global memory that a TLB of the slot translates with the rights asked for, to physical address
`pa`, outside device space, in a frame that is not being remapped (R21, R26, R47, R48, R57). -/
def GlobalAt (s : State) (t : Thread) (a : Word) (n : Nat) (rd wr : Bool) (pa : Nat) : Prop :=
  windowOf a = 0 ∧ bitsOf a 55 52 = 0 ∧ a.toNat % n = 0 ∧ pa < 2 ^ 40 ∧ s.remapping (.glob pa) = none ∧
    ∃ e, s.tlb s.cur.core t.world (a.toNat / 65536) = some e ∧ (rd = true → e.r = true) ∧ (wr = true → e.w = true) ∧
      pa = e.pa + a.toNat % 65536

/-- An address names `n` bytes at a place of local or global memory. -/
def Reaches (s : State) (t : Thread) (a : Word) (n : Nat) (rd wr : Bool) (p : Place) : Prop :=
  (∃ k o, p = .loc k o ∧ LocalAt s t a n k o) ∨ (∃ pa, p = .glob pa ∧ GlobalAt s t a n rd wr pa)

/-- Nothing stops a write of `n` bytes at a place before it enters the buffer: no older compute instruction names the bytes, no part of a
poisoned word or line is written, the line is not another world's (R40, R58, R132, R228, R433). -/
def Writable (s : State) (t : Thread) (p : Place) (n : Nat) : Prop :=
  (∀ e ∈ t.cq, entryNames s.cur t e false p n = false) ∧
    match p with
    | .loc k o => n < 8 → Sound s k o n
    | .glob pa => s.lineCase t.world (lineOf pa) ≠ .other ∧
        (s.lineCase t.world (lineOf pa) = .own → (s.tag (lineOf pa)).poison = false)
    | .scale _ _ => False

/-- The entry that a store of the thread makes in its core's buffer: the place and bytes named, what it does, how many compute instructions
it follows, its stamp (R29, R111, R115). -/
def entryOf (s : State) (t : Thread) (p : Place) (a : Word) (n : Nat) (op : StoreOp) : BufEntry :=
  { slot := s.cur.slot, tid := t.id, world := t.world, region := t.region, place := p, va := a, n := n, op := op, older := t.cq.length,
    stamp := s.stamp }

/-- An instruction answers a state in which one entry has joined its core's store buffer and is to be performed; its slot holds thread `t'`,
every other slot what it held; every byte of memory reads as before (R111). -/
def Buffers (i : Instr) (s : State) (t' : Thread) (e : BufEntry) : Prop :=
  ∃ u, exec i s = .next u ∧ u.thread? s.cur = some t' ∧ OthersKeep s u ∧ SameMemory s u ∧ u.tc = s.tc ∧
    (u.core s.cur.core).buf = (s.core s.cur.core).buf ++ [e] ∧ ({ what := .storePerformed, arg := { core := s.cur.core } } : Due) ∈ u.agenda

/-! ### Exceptions -/

/-- The message that a precise fault of the slot's thread sends (R415): cause and trap number, skip count, world and region, the stamp, the
thread and its slot, the word's address, the faulting address, the private-form offset. -/
def faultMessage (s : State) (t : Thread) (c : Cause) (no : Nat) (addr : Word) : List Word :=
  [BitVec.ofNat 64 (c.code * 2 ^ 56 + no * 2 ^ 44 + t.skip * 2 ^ 42 + 0 * 2 ^ 40 + 0xFC * 2 ^ 32 + t.world * 2 ^ 24 + t.region), BitVec.ofNat 64 s.stamp.tc,
   BitVec.ofNat 64 (t.id * 2 ^ 24 + slotSource s.cur), t.pc, addr, BitVec.ofNat 64 (s.privOf s.cur t t.pc), 0, 0]

/-- A thread halted by a fault (R188, R413-R415): its place, the skip state with which it goes on, and the three fault registers. -/
def haltedAt (s : State) (t : Thread) (h : Halt) (addr pc : Word) (skip : Nat) : Thread :=
  { t with halted := some h, pc := pc, skip := skip, parked := none, acq := none, fcause := BitVec.ofNat 64 h.cause.code, faddr := addr,
           fpriv := BitVec.ofNat 64 (s.privOf s.cur t t.pc) }

/-- A thread that its own handler takes up (R418). -/
def handledAt (s : State) (t : Thread) (c : Cause) (addr lk : Word) : Thread :=
  { t with parked := none, treeWait := none, fcause := BitVec.ofNat 64 c.code, faddr := addr,
           fpriv := BitVec.ofNat 64 (s.privOf s.cur t t.pc), pc := t.fvec, lk := lk }

/-! ### Replies that an engine sends to a register -/

/-- A thread that has retired an instruction whose result comes later: a g destination is empty and pending, another holds the slot
(R182, R216). -/
def pendingForm (t : Thread) (marked : List (Bool × Reg)) (d : Reg) : Thread :=
  match d with
  | .g n => (afterMarks t marked 4).pendG n
  | .x _ => { afterMarks t marked 4 with parked := some .held }
  | .lk => { afterMarks t marked 4 with parked := some .held }
  | .port _ => { afterMarks t marked 4 with parked := some .held }
  | _ => afterMarks t marked 4

/-- A result on its way to a register of the slot's thread stands at its core, and is to be written (R182). -/
def Sent (s u : State) (t : Thread) (d : Reg) (v : Word) : Prop :=
  ({ slot := s.cur.slot, tid := t.id, reg := d, value := v, flags := 0, poke := false, stamp := s.stamp, after := none } : Fill) ∈ (u.core s.cur.core).fills ∧
    ({ what := .remoteFill, arg := { core := s.cur.core } } : Due) ∈ u.agenda

/-- The instruction retires with its destination pending, and the answer `v` is on its way; no byte of memory and no other thread
changes. `more` says what else holds of the state it answers. -/
def Replies (i : Instr) (s : State) (t : Thread) (marked : List (Bool × Reg)) (d : Reg) (v : Word) (more : State → Prop) : Prop :=
  ∃ u, exec i s = .next u ∧ u.thread? s.cur = some (pendingForm t marked d) ∧ OthersKeep s u ∧ SameMemory s u ∧ u.tc = s.tc ∧
    Sent s u t d v ∧ more u

/-- A reply word: its status in bits 63:56 (R339, R424). -/
def statusWord (st : Nat) : Word := BitVec.ofNat 64 (st * 2 ^ 56)

/-! ### Emulation windows (R422, R423) -/

/-- A word that asks for an operation on an index of a window on a thread. -/
def AsksWindow (x : Word) (op k id : Nat) : Prop := bitsOf x 61 46 = 0 ∧ bitsOf x 63 62 = op ∧ bitsOf x 45 40 = k ∧ bitsOf x 39 0 = id

/-- A live thread in another slot, by its id. -/
def Other (s : State) (id : Nat) (q : SlotRef) (u : Thread) : Prop := s.threadById id = some (q, u) ∧ ¬sameSlot q s.cur

/-- The instruction writes d and leaves the other slot with a thread; nothing else changes. -/
def LeavesBoth (i : Instr) (s : State) (t' : Thread) (q : SlotRef) (u' : Thread) : Prop :=
  ∃ v, exec i s = .next v ∧ v.thread? s.cur = some t' ∧ v.thread? q = some u' ∧ SameMemory s v ∧ v.tc = s.tc ∧
    ∀ p, ¬sameSlot p s.cur → ¬sameSlot p q → v.thread? p = s.thread? p

/-! ### Nested loops (R354, R355) -/

/-- The index registers that index `l` of a nest leaves: mixed radix over the extents. -/
def indexRegs (k : Nest) (l : Nat) : Vector Word 4 :=
  #v[BitVec.ofNat 64 (l % k.e0), BitVec.ofNat 64 (l / k.e0 % k.e1), BitVec.ofNat 64 (l / (k.e0 * k.e1) % k.e2),
     BitVec.ofNat 64 (l / (k.e0 * k.e1 * k.e2))]

/-- The nest binding in 32 bytes of local memory (R354). -/
def localNest (s : State) (c : CoreIx) (o : Nat) : Nest :=
  { counter := BitVec.ofNat 64 (localValue s c o 8), e0 := localValue s c (o + 8) 2, e1 := localValue s c (o + 10) 2,
    e2 := localValue s c (o + 12) 2, e3 := localValue s c (o + 14) 2, parts := localValue s c (o + 16) 4,
    minc := localValue s c (o + 20) 4, cur := 0, lim := 0 }

/-! ### Word forms (R282) -/

/-- The address of a full/empty form or LRW: its displacement counts in eights (R197). -/
abbrev wordAddr (x : Word) (disp : BitVec 10) : Word := x + disp.signExtend 64 * 8

/-- What the word forms ask of their address: an aligned word in memory, readable and writable, that no older compute instruction of
the slot writes, in a line that no other live world owns (R40, R282, R433). -/
def WordAt (s : State) (t : Thread) (a : Word) (n : Nat) (p : Place) : Prop :=
  Reaches s t a n true true p ∧ (∀ e ∈ t.cq, entryNames s.cur t e false p n = false) ∧
    ∀ pa, p = .glob pa → s.lineCase t.world (lineOf pa) ≠ .other

/-- Nothing stops a store of a whole word at a place before it enters the buffer (R40, R58, R228). -/
def WordStorable (s : State) (t : Thread) (p : Place) : Prop :=
  ∀ pa, p = .glob pa → s.lineCase t.world (lineOf pa) = .own → (s.tag (lineOf pa)).poison = false

/-- A request that a slot's thread sends to the home of a word, with the stamp of its attempt (R126). -/
def requestOf (s : State) (t : Thread) (p : Place) (a : Word) (kind : HeldKind) (d : Reg) : HeldReq :=
  { place := p, kind := kind, slot := s.cur, tid := t.id, d := d, world := t.world, region := t.region, va := a, stamp := s.stamp }

/-- The instruction sends a request to the home of its word and parks; nothing else changes (R126, R285). -/
def Asks (i : Instr) (s : State) (t : Thread) (h : HeldReq) (service : Instr) : Prop :=
  ∃ u, exec i s = .next u ∧ u.thread? s.cur = some { t with parked := some .held } ∧ OthersKeep s u ∧ SameMemory s u ∧
    u.held = s.held ++ [h] ∧ ({ what := service, arg := {} } : Due) ∈ u.agenda

/-- Every byte of local memory reads as before but the `data.length` bytes at `o` of core `k`, which read as `data`; HBM4E and every
scale plane read as before. -/
def WroteLocal (s u : State) (k : CoreIx) (o : Nat) (data : List Byte) : Prop :=
  (∀ c a, cellGet (u.core c).mem a = if c = k ∧ o ≤ a ∧ a < o + data.length then data.getD (a - o) 0 else cellGet (s.core c).mem a) ∧
    (∀ c a, cellGet (u.core c).scale a = cellGet (s.core c).scale a) ∧ u.hbm = s.hbm

/-- The entry at the head of a core's store buffer, with no compute instruction of its slot older; no release of the core is under way
(R111, R115, R118). -/
def AtHead (s : State) (c : CoreIx) (e : BufEntry) (rest : List BufEntry) : Prop :=
  (s.core c).buf = e :: rest ∧ e.older = 0 ∧ (s.core c).releases = []

/-! ### Visits (R289) -/

/-- What each visit makes of the old word and its operand; FADD on the low 32 bits. -/
def visitOps : List ((Reg → Reg → Reg → Marks → Instr) × AmoOp × (Word → Word → Word)) :=
  [(.amoAdd, .add, fun w b => w + b), (.amoMin, .min, fun w b => if b.toInt < w.toInt then b else w),
   (.amoMax, .max, fun w b => if w.toInt < b.toInt then b else w), (.amoMinn, .minn, fun w b => if b.toNat < w.toNat then b else w),
   (.amoMaxn, .maxn, fun w b => if w.toNat < b.toNat then b else w), (.amoAnd, .and, fun w b => w &&& b), (.amoOr, .or, fun w b => w ||| b),
   (.amoXor, .xor, fun w b => w ^^^ b), (.amoSwap, .swap, fun _ b => b)]

/-- A result on its way to a register of the thread with id `tid` in slot `n` of core `c`. -/
def Filling (u : State) (c : CoreIx) (n tid : Nat) (d : Reg) (v : Word) : Prop :=
  (∃ f ∈ (u.core c).fills, f.slot = n ∧ f.tid = tid ∧ f.reg = d ∧ f.value = v ∧ f.poke = false) ∧
    ({ what := .remoteFill, arg := { core := c } } : Due) ∈ u.agenda

/-- A line bears no planted error, in its slice or at rest, and its tag field matches its data (R42, R107, R436). -/
def Intact (s : State) (line : Nat) : Prop :=
  (∀ y ∈ tget [] s.slices (s.sliceNo line), y.pa = line → y.ue = false) ∧ line ∉ s.dramErr ∧ (s.tag line).sound = true

/-- A line that a thread of `world` reads at its home as it stands: its world's, not poisoned, without a planted error, under no monitor
(R40, R58, R449). -/
def Readable (s : State) (world line : Nat) : Prop :=
  s.monitors = [] ∧ s.lineCase world line = .own ∧ (s.tag line).poison = false ∧ Intact s line

/-! ### Handles, records and engines -/

/-- The thread with handle `h` holding `k`. -/
def withHandle (t : Thread) (h : Fin 8) (k : Handle) : Thread := { t with handles := t.handles.set h k }

/-- A ring's fields (R142, R143): slots, filled slots, and the indices P and C, modulo 2^32. -/
def ringCount (k : Handle) : Nat := bitsOf k.w0 39 32
def ringProd (k : Handle) : Nat := bitsOf k.w1 63 32
def ringCons (k : Handle) : Nat := bitsOf k.w1 31 0
def ringFilled (k : Handle) : Nat := (ringProd k + 4294967296 - ringCons k) % 4294967296

/-- The handle with its indices. -/
def ringAt (k : Handle) (prod cons : Nat) : Handle := { k with w1 := BitVec.ofNat 64 (prod % 4294967296 * 4294967296 + cons % 4294967296) }

/-- A binding that HSET takes (R142, R143). -/
def BindingGood (x : Word) : Prop :=
  bitsOf x 28 15 = 0 ∧ 0xF0 ≤ bitsOf x 63 56 ∧ bitsOf x 63 56 ≤ 0xF7 ∧ bitsOf x 55 40 % 16 = 0 ∧
    (bitsOf x 39 32 = 0 ∨ bitsOf x 55 40 ≠ 0) ∧ bitsOf x 14 0 + bitsOf x 39 32 * bitsOf x 55 40 ≤ 32768

/-- No subscription stands on a handle of the slot. -/
def Unsubscribed (s : State) (h : Fin 8) : Prop := ∀ u ∈ s.subs, ¬(u.target = s.cur.core ∧ u.slot.slot = s.cur.slot ∧ u.handle = h)

/-- The slot's stores have been performed, its queue is empty, its remote updates and device stores are acknowledged (R118); and
its die's remote-data cache holds nothing, so that a release or an acquire writes back and drops nothing (R98). -/
def Released (s : State) (t : Thread) : Prop := releaseMet s s.cur t = true ∧ s.rdcs = []

/-- The instruction seals a record of `words` into outlet `q`, stamped now (R62), and calls the outlet's engine; its thread is what `done`
makes of it; nothing else changes. -/
def Seals (i : Instr) (s : State) (t : Thread) (q : Fin 8) (words : List Word) (d : Option Reg) (done : Thread → Thread) (ev : Instr) : Prop :=
  ∃ u x, exec i s = .next u ∧ x.words = words ∧ x.sealed = some s.stamp ∧ x.d = d ∧
    u.thread? s.cur = some (done { t with sluices := t.sluices.setOutlet q ((t.sluices.outlet q).put x) }) ∧ OthersKeep s u ∧ SameMemory s u ∧
    u.tc = s.tc ∧ ∃ a, ({ what := ev, arg := a } : Due) ∈ u.agenda

/-- The header of a copy record (R65): code 0 an address copy, 1 a handle copy, 2 a tagged copy with its weir and phase. -/
def copyHeader (code weir phase n : Nat) : Word := BitVec.ofNat 64 (2 * 2 ^ 62 + code * 2 ^ 56 + weir * 2 ^ 49 + phase * 2 ^ 48 + n)

/-- An outlet takes a record of a form that builds one: its shadow holds nothing (R61, R294). -/
def OutletFree (t : Thread) (q : Fin 8) : Prop := (t.sluices.outlet q).shadow = none

/-- An address names `n` bytes in one line of the local memory of core `k` of the cluster of core `c`, within the dikes of slot number
`slot` there, whose thread is of world `w` (R66, R69, R135). -/
def EngineLocal (s : State) (c : CoreIx) (slot w : Nat) (a : Word) (n : Nat) (k : CoreIx) (o : Nat) : Prop :=
  0xF0 ≤ windowOf a ∧ windowOf a ≤ 0xF7 ∧ bitsOf a 55 23 = 0 ∧ bitsOf a 15 15 = 0 ∧ 0 < n ∧ a.toNat % 64 + n ≤ 64 ∧
    k = c / 128 * 128 + bitsOf a 22 16 ∧ o = bitsOf a 14 0 ∧
    ∃ u, s.thread? { core := k, slot := slot } = some u ∧ u.world = w ∧ u.dikelo.toNat ≤ o ∧ o + n ≤ u.dikehi.toNat

/-- A thread whose active record of q0 has been taken, and to whose q1 words have been added. -/
def tookCopy (t : Thread) (words : List Word) : Thread :=
  { t with sluices := { t.sluices.post 1 words false with q0 := t.sluices.q0.take } }

/-- A completion word (R70): token, status, bytes moved. -/
def completionWord (token status moved : Nat) : Word := BitVec.ofNat 64 (token * 2 ^ 56 + status * 2 ^ 48 + moved)

/-- The token of a core. -/
def tokenAt (s : State) (c : CoreIx) (i : Nat) : Token := tget Token.free (s.core c).tokens i

/-- The active record of one slot is the only one of a core's outlets `q`. -/
def OnlyRecord (s : State) (c : CoreIx) (q : Fin 8) (r : SlotRef) (t : Thread) (x : Record) : Prop :=
  activeRecords s c q = [(r, t, x)] ∧ s.thread? r = some t ∧ r.core = c

/-- The subscription with its next tile counted. -/
def nextTile (u : Subscription) : Subscription := { u with moved := u.moved + 1 }

/-- The only subscription of the module, live, with tiles to move and nothing fetched ahead, on a bound handle `k` of a thread of its world (R77,
R81, R84). -/
def LiveSub (s : State) (u : Subscription) (k : Handle) : Prop :=
  s.subs = [u] ∧ u.ended = none ∧ u.cancel = false ∧ u.data = [] ∧ u.scales = [] ∧ u.moved < u.count ∧ ringCount k ≠ 0 ∧
    ∃ t, s.thread? u.at = some t ∧ t.world = u.world ∧ k = t.handles[u.handle]

/-- The offset of ring position `i` of a handle (R143). -/
def ringOffset (k : Handle) (i : Nat) : Nat := bitsOf k.w0 14 0 + i % ringCount k * bitsOf k.w0 55 40

/-- A record of q2 that is the only one waiting at the pumps of its cluster's number (R79), with its three words. -/
def OnlySubRecord (s : State) (r : SlotRef) (t : Thread) (x : Record) (w0 w1 w2 : Word) : Prop :=
  pumpRecords s (clusterOf s.arg.core % 64) = [(r, t, x)] ∧ s.thread? r = some t ∧ x.words = [w0, w1, w2] ∧ subRecordBad x.words = false

/-! ### Threads, tasks, storage, weirs -/

/-- The faulting thread of a slot halted with its message of eight words placed for the q6 of a supervisor (R415, R416). -/
def HaltsWithMessage (s u : State) (r : SlotRef) (t : Thread) (c : Cause) (sup : SlotRef) (g : Region) : Prop :=
  u.thread? r = some (haltedAt { s with cur := r } t { cause := c, imprecise := false, debugger := false, page := none } 0 t.pc t.skip) ∧
  ({ slot := sup.slot, stamp := s.stampOf (slotSource r), words := faultMessage { s with cur := r } t c 0 0, region := g.id,
     notice := false } : Q6Group) ∈ (u.core sup.core).q6wait ∧
  ({ what := .q6Entry, arg := { core := sup.core, slot := sup.slot } } : Due) ∈ u.agenda ∧ SameMemory s u

/-- What a SPAWN's target word names, with every other bit 0 (R340). -/
def SpawnTarget (x : Word) (c : CoreIx) : Prop :=
  bitsOf x 63 56 = 0 ∧ bitsOf x 45 23 = 0 ∧ bitsOf x 15 0 = 0 ∧ c = coreIx (bitsOf x 55 52) (bitsOf x 51 46) (bitsOf x 22 16)

/-- Whether a core lies in the region's placement and holds an image of a role, or the region travels (R342, R343). -/
def Hosts (s : State) (g : Region) (role : Nat) (c : CoreIx) : Prop :=
  g.places c = true ∧ (g.travelling = true ∨ ((s.core c).imageOf g.id role).isSome)

/-- The next value of a dispatcher's generator (R347). -/
def nextDraw (x : Word) : Word :=
  let x1 := x ^^^ (x <<< 13)
  let x2 := x1 ^^^ (x1 >>> 7)
  x2 ^^^ (x2 <<< 17)

/-- The bank that a polder's generator chooses next (R347). -/
def drawnBank (s : State) (d : Dispatcher) (p : Nat) : Nat :=
  (s.polderSlots p).getD ((nextDraw (tget 0 d.gen p)).toNat % max 1 (s.polderSlots p).length) 0

/-- A dispatcher's state, with the task it has taken in gone from those on their way, its number used, its generator moved on. -/
def tookTask (d : Dispatcher) (p : Nat) : Dispatcher :=
  { d with arriving := [], nextNo := (d.nextNo + 1) % 2 ^ 32, gen := tput d.gen p (nextDraw (tget 0 d.gen p)) }

/-- No thread of a polder on a core waits for the banker. -/
def NoRequests (s : State) (c : CoreIx) (p : Nat) : Prop := ∀ x ∈ s.polderThreads c p, x.2.acq = none

/-- A thread to which a request is granted: its blocks zero and empty, its run at the page, its tiles zero (R182, R359). -/
def grantedThread (t : Thread) (w : Word) (page : Nat) : Thread :=
  { t.clearBlocks (bitsOf w 2 0) with
    blocks := t.blocks ||| BitVec.ofNat 3 (bitsOf w 2 0), granted := true, acq := none, pages := if bitsOf w 15 8 = 0 then t.pages else bitsOf w 15 8,
    pageBase := if bitsOf w 15 8 = 0 then t.pageBase else page * 256, tiles := t.tiles ++ List.replicate (bitsOf w 39 32) [] }

/-- A thread that has released what a request word names (R358, R360); results still under way to its registers are to be discarded (R184). -/
def releasedThread (t : Thread) (w : Word) : Thread :=
  { t.clearBlocks (bitsOf w 2 0) with
    stale := t.stale ++ t.underWay (bitsOf w 2 0), blocks := t.blocks &&& ~~~(BitVec.ofNat 3 (bitsOf w 2 0)), tiles := t.tiles.take (t.tiles.length - bitsOf w 39 32),
    pages := if bitsOf w 15 8 = 0 then t.pages else 0, pageBase := if bitsOf w 15 8 = 0 then t.pageBase else 0 }

/-- Local memory reads as before but for `n` bytes of a core from `lo` up, which read as zero. -/
def Scrubs (s u : State) (c : CoreIx) (lo n : Nat) : Prop :=
  (∀ d a, cellGet (u.core d).mem a = if d = c ∧ lo ≤ a ∧ a < lo + n then 0 else cellGet (s.core d).mem a) ∧
    (∀ d a, cellGet (u.core d).scale a = cellGet (s.core d).scale a) ∧ ∀ a, cellGet u.hbm a = cellGet s.hbm a

/-- The weir that a binding word makes for a thread (R351). -/
def weirOf (t : Thread) (y : Word) : Weir :=
  { world := t.world, region := t.region, slotLo := bitsOf y 35 32, slotHi := bitsOf y 39 36, coreLo := bitsOf y 6 0, coreHi := bitsOf y 22 16,
    arrived := [], contrib := [], results := [] }

/-- A binding word that R351 allows. -/
def BindingWord (y : Word) : Prop :=
  bitsOf y 63 40 = 0 ∧ bitsOf y 31 23 = 0 ∧ bitsOf y 15 7 = 0 ∧ bitsOf y 35 32 ≤ bitsOf y 39 36 ∧ bitsOf y 6 0 ≤ bitsOf y 22 16

/-- A byte weir's phase of a core. -/
def phaseAt (s : State) (c : CoreIx) (k : Nat) : ByteWeir := tget ByteWeir.reset (s.core c).weirs k

/-! ### The tree engine -/

/-- The tree forms with a pool base and one more register: the trapping and the failing form, the command's code, and the event that takes it
(R310). -/
def treeForms : List ((Reg → Reg → Marks → Instr) × (Reg → Reg → Marks → Instr) × Nat × Instr) :=
  [(.trnew, .trnewF, 0, .treeCmdNew), (.trdsc, .trdscF, 1, .treeCmdDescent), (.trpik, .trpikF, 4, .treeCmdPick), (.trrrt, .trrrtF, 5, .treeCmdReroot)]

/-- The first word of a command record (R311): the words that follow, the code, the argument. -/
def treeHead (n code arg : Nat) : Word := BitVec.ofNat 64 (n * 2 ^ 62 + code * 2 ^ 56 + arg)

/-- An address that the checks of R312 let pass as a pool base, by what the slot's TLBs hold. -/
def PoolBase (s : State) (t : Thread) (x : Word) : Prop :=
  windowOf x = 0 ∧ bitsOf x 55 52 = 0 ∧ bitsOf x 15 0 = 0 ∧
    ∃ e, s.tlb s.cur.core t.world (x.toNat / 65536) = some e ∧ e.r = true ∧ e.w = true ∧ e.pa + x.toNat % 65536 < 2 ^ 40

/-- A trapping form seals its record as a failing form does, and parks until its `n` result words are in q5 (R313). -/
def SealsAndWaits (i : Instr) (s : State) (t : Thread) (words : List Word) (base : Word) (n : Nat) (ev : Instr) : Prop :=
  ∃ u x wide, exec i s = .next u ∧ x.words = words ∧ x.sealed = some s.stamp ∧
    x.traps = true ∧
    u.thread? s.cur = some { t with sluices := t.sluices.setOutlet 4 ((t.sluices.outlet 4).put x), treeWait := some { base := base, error := false, left := n, wide := wide }, parked := some .tree, unissued := false } ∧
    OthersKeep s u ∧ SameMemory s u ∧ u.tc = s.tc ∧ ∃ a, ({ what := ev, arg := a } : Due) ∈ u.agenda

/-- Memory without planted errors and monitors, in its canonical form (R42, R436). -/
def CleanMemory (s : State) : Prop :=
  s.monitors = [] ∧ s.dramErr = [] ∧ (∀ k, ∀ y ∈ tget [] s.slices k, y.ue = false) ∧ Memory.wf s.hbm = true

/-- The lines of a pool's nodes: distinct, its world's, none poisoned (R305). -/
def PoolLines (s : State) (p : Pool) : Prop :=
  (∀ i < 1024 * p.pages, s.lineCase p.world (p.line i) = .own ∧ (s.tag (p.line i)).poison = false ∧ (s.tag (p.line i)).sound = true ∧ p.line i % 64 = 0) ∧
    ∀ i < 1024 * p.pages, ∀ j < 1024 * p.pages, p.line i = p.line j → i = j

/-- The 64 bytes of a node. -/
def nodeAt (s : State) (p : Pool) (i : Nat) : List Byte := (List.range 64).map (fun j => cellGet s.hbm (p.line i + j))

/-- A node that R309 calls valid. -/
def Valid (s : State) (p : Pool) (i : Nat) : Prop :=
  1 ≤ i ∧ i < 1024 * p.pages ∧ i < fieldAt (nodeAt s p 0) 20 4 ∧ flagOn (nodeAt s p i) 15 = true

/-- The only command present at the engine of home core `h`: the record of the thread of slot `r`, in a calm module whose remote-data caches hold
nothing. -/
def OnlyCommand (s : State) (h : CoreIx) (r : SlotRef) (t : Thread) (x : Record) : Prop :=
  s.arg.core = h ∧ treePresent s h = [(r, t, x)] ∧ s.thread? r = some t ∧ x.fail = 0 ∧ Calm s ∧ s.rdcs = []

/-- Every page of a pool still maps to the frame that it had at TRNEW, and no program has stored to what the engine keeps (R305, R317). -/
def Trusted (s : State) (p : Pool) : Prop := p.spoilt = false ∧ s.poolMapped p = true

/-- The only command, on pool `p` of at most 4096 pages (R305), registered for its world, whose lines can be read and whose contents are defined. -/
def OnPool (s : State) (h : CoreIx) (r : SlotRef) (t : Thread) (x : Record) (p : Pool) : Prop :=
  OnlyCommand s h r t x ∧ s.findPool h t.world (x.words.getD 1 0) = some p ∧ p.world = t.world ∧ 0 < p.pages ∧ p.pages ≤ 4096 ∧ CleanMemory s ∧ PoolLines s p ∧ Trusted s p

/-- A command's one result word has entered the q5 of its thread, whose next record is active, with the mark of a pool on another die (R121); the
trapping form that sealed the record learns how it ended (R313-R315). -/
def tookTree (t : Thread) (r : SlotRef) (x : Record) (w : Word) : Thread :=
  { t with sluices := { t.sluices with q4 := t.sluices.q4.take }.post 5 [w] (decide (dieOf x.home ≠ dieOf r.core)),
           treeWait := if x.traps then t.treeWait.map (fun v => { v with left := 0, error := v.error || decide (3 ≤ bitsOf w 63 56) }) else t.treeWait }

/-- Memory is as before but for the lines of some nodes of a pool. -/
def OnlyNodes (s u : State) (p : Pool) (l : List Nat) : Prop :=
  (∀ a, (∀ i ∈ l, ¬(p.line i ≤ a ∧ a < p.line i + 64)) → cellGet u.hbm a = cellGet s.hbm a) ∧
    ∀ c a, cellGet (u.core c).mem a = cellGet (s.core c).mem a

/-- The children of a node are the nodes from `first` on, `count` of them, all within the pool (R308, R465). -/
def Children (s : State) (p : Pool) (n first count : Nat) : Prop :=
  flagOn (nodeAt s p n) 0 = true ∧ nodeFirst (nodeAt s p n) = first ∧ nodeCount (nodeAt s p n) = count ∧ 0 < count ∧ 1 ≤ first ∧
    first + count ≤ 1024 * p.pages

/-- A child's score under its parent (R319). -/
def scoreOf (s : State) (p : Pool) (n c : Nat) : Word32 :=
  childScore p (f32Sqrt (f32OfNat (nodeN (nodeAt s p n) + nodeVL (nodeAt s p n)))) (nodeAt s p c)

/-! ### The compute pipe -/

/-- The forms of the compute pipe with their operands d, a, b and whether they count as heavy (R187, R361); an MMA outside the lead core
does not use its a field (R270). -/
def computeForms (lead0 : Bool) (d a b : VOp) (w : Fin 8) (rm : Rm) (c : VCond) (op : RedOp) (dim : Fin 4) (k : Fin 16) (tl : Fin 8) (f : Fin 4) (sh : Fin 16)
    (lead : Bool) : List (Instr × Option VOp × Option VOp × Option VOp × Bool) :=
  ([.vadd d a b w rm, .vsub d a b w rm, .vmul d a b w rm, .vmin d a b w rm, .vmax d a b w rm, .vsel d a b w rm, .vfma d a b w rm, .vcmp c d a b w,
    .viadd d a b w, .visub d a b w, .vimul d a b w, .vand d a b w, .vor d a b w, .vxor d a b w, .vshl d a b w, .vshr d a b w, .vsar d a b w,
    .vgath d a b w rm, .vscat d a b w rm] : List Instr).map (fun i => (i, some d, some a, some b, false)) ++
  ([.vabs d a w rm, .vneg d a w rm, .vmov d a w rm, .vmatch d a w, .vscan d a w rm, .vred op dim d a w rm, .vbmax d a w rm, .vqnt d a w,
    .vwmax k d a w rm] : List Instr).map (fun i => (i, some d, some a, none, false)) ++
  ([.vexp2 d a w, .vlog2 d a w, .vrcp d a w, .vrsq d a w, .vtanh d a w, .verf d a w, .vsin d a w, .vcos d a w] : List Instr).map
    (fun i => (i, some d, some a, none, true)) ++
  [(.mzero tl, none, none, none, false), (.mload tl a, none, some a, none, false), (.mstore tl a, none, some a, none, false),
   (.msave tl a, none, some a, none, false), (.mrest tl a, none, some a, none, false), (.unf f sh, none, none, some (.s sh), false),
   (.mmaUnfold tl f b lead, none, none, some b, false), (.mmaShape tl a b lead, none, if lead0 then some a else none, some b, false)]

/-- The entry that a compute instruction makes in its slot's queue: copies of the shapes and handles that it names, whether one of its bases
lies in the global window, and the stamp of its issue (R187). -/
def entered (s : State) (t : Thread) (i : Instr) (d a b : Option VOp) (heavy : Bool) : QEntry :=
  { instr := i, pc := t.pc, opD := shapeAt t d, opA := shapeAt t a, opB := shapeAt t b,
    hands := (d.toList ++ a.toList ++ b.toList).filterMap (fun o => match o with | .h n => some (n.val, t.handles[n]) | _ => none),
    serial := (match i with | .unf .. => false | _ => (d.toList ++ a.toList ++ b.toList).any (serialOp t)), beats := 0, carry := 0, waited := false,
    arrived := false, heavy := heavy, kept := [], stamp := s.stamp, since := 0, ports := none }

/-- A turn of the compute pipe of the slot of a thread, with an instruction at the head of its queue. -/
def BeatOf (s : State) (t : Thread) (i : Instr) (e : QEntry) (rest : List QEntry) : Prop :=
  Acts s t ∧ s.pipe = .compute ∧ t.cq = e :: rest ∧ e.instr = i

/-- A shape over `n` elements, one dimension, in a local window of the slot's cluster: they lie at offset `o` of core `k`, within the dikes, in words
without an error, none of them in the slot's store buffer (R22, R135, R139, R147, R148). -/
def Vec (s : State) (t : Thread) (sh : Shape) (code n : Nat) (k : CoreIx) (o : Nat) : Prop :=
  windowOf sh.w0 = code ∧ fieldsZero sh.w0 = true ∧ bitsOf sh.w3 31 0 = 0 ∧ sh.ext 0 = n ∧ sh.ext 1 = 1 ∧ sh.ext 2 = 1 ∧ sh.ext 3 = 1 ∧
    sh.w0.toNat % elemBytes code = 0 ∧ k = s.cur.core / 128 * 128 + bitsOf sh.w0 22 16 ∧ o = bitsOf sh.w0 14 0 ∧ o + n * elemBytes code ≤ 32768 ∧
    (∃ v, s.thread? { core := k, slot := s.cur.slot } = some v ∧ v.world = t.world ∧ v.dikelo.toNat ≤ o ∧ o + n * elemBytes code ≤ v.dikehi.toNat) ∧
    Sound s k o (n * elemBytes code) ∧ ∀ i < n, s.buffered s.cur (.loc k (o + elemBytes code * i)) (elemBytes code) = false

/-- Element `i` of 32 bits of a vector in local memory. -/
def elem32 (s : State) (k : CoreIx) (o i : Nat) : Word32 := BitVec.ofNat 32 (localValue s k (o + 4 * i) 4)

/-- The or of flags. -/
def orAll (l : List FFlags) : FFlags := l.foldl (fun f g => f ||| g) 0

/-- A beat answers a state in which the thread waits at no home, its queue holds `q`, its flags have `fl` joined, and the bytes at `o` of core `k`
are `data`; nothing else of memory and no other thread changes. -/
def BeatLeaves (i : Instr) (s : State) (t : Thread) (q : List QEntry) (fl : FFlags) (k : CoreIx) (o : Nat) (data : List Byte) : Prop :=
  ∃ u, exec i s = .next u ∧ u.thread? s.cur = some { t.waitOver with cq := q, fflags := t.fflags ||| fl } ∧ WroteLocal s u k o data ∧ OthersKeep s u ∧ u.tc = s.tc

/-- The float forms of two sources (R247). -/
def vectorFloatForms : List ((VOp → VOp → VOp → Fin 8 → Rm → Instr) × (Rm → FV → FV → FV × FFlags)) :=
  [(.vadd, fvAdd), (.vsub, fun rm x y => fvAdd rm x y.neg), (.vmul, fun _ => fvMul), (.vmin, fun _ => fvMin), (.vmax, fun _ => fvMax)]

/-- The integer forms (R251). -/
def vectorIntForms : List ((VOp → VOp → VOp → Fin 8 → Instr) × (Word32 → Word32 → Word32)) :=
  [(.viadd, fun x y => x + y), (.visub, fun x y => x - y), (.vimul, fun x y => x * y), (.vand, fun x y => x &&& y), (.vor, fun x y => x ||| y),
   (.vxor, fun x y => x ^^^ y), (.vshl, fun x y => x <<< (y.toNat % 32)), (.vshr, fun x y => x >>> (y.toNat % 32)),
   (.vsar, fun x y => x.sshiftRight (y.toNat % 32))]

/-- The special functions (R254). -/
def vectorSpecialForms : List ((VOp → VOp → Fin 8 → Instr) × Config.SpecialFn) :=
  [(.vexp2, .exp2), (.vlog2, .log2), (.vrcp, .rcp), (.vrsq, .rsq), (.vtanh, .tanh), (.verf, .erf), (.vsin, .sin), (.vcos, .cos)]

/-- The bytes of `n` elements of 32 bits. -/
def bytes32 (n : Nat) (f : Nat → Word32) : List Byte := (List.range n).flatMap (fun i => natLe (f i).toNat 4)

/-- The absolute value of an F32, a NaN as it is (R252, R258). -/
def absF32 (x : Word32) : Word32 :=
  if (decodeF32 x).isNan then (encodeF32 .rn (decodeF32 x)).1 else (encodeF32 .rn (decodeF32 x)).1 &&& 0x7FFFFFFF

/-- A tile as a function of row and column: element (i, n) of the result is `f i n` for the listed places, else what it was. -/
def TileIs (new old : List (Nat × BitVec 32)) (f : Nat → Nat → Option (BitVec 32)) : Prop :=
  ∀ i < 16, ∀ n < 16, tileGet new i n = (f i n).getD (tileGet old i n)

/-- A contiguous tile operand in a local window: 16 rows of 16 elements, or 1,024 bytes (R279, R280). -/
def TileAt (s : State) (t : Thread) (sh : Shape) (code x0 x1 : Nat) (k : CoreIx) (o : Nat) : Prop :=
  windowOf sh.w0 = code ∧ fieldsZero sh.w0 = true ∧ bitsOf sh.w3 31 0 = 0 ∧ sh.ext 0 = x0 ∧ sh.ext 1 = x1 ∧ sh.ext 2 = 1 ∧ sh.ext 3 = 1 ∧ sh.stride 1 = x0 ∧
    sh.w0.toNat % elemBytes code = 0 ∧ k = s.cur.core / 128 * 128 + bitsOf sh.w0 22 16 ∧ o = bitsOf sh.w0 14 0 ∧ o + 1024 ≤ 32768 ∧
    (∃ v, s.thread? { core := k, slot := s.cur.slot } = some v ∧ v.world = t.world ∧ v.dikelo.toNat ≤ o ∧ o + 1024 ≤ v.dikehi.toNat) ∧
    Sound s k o 1024 ∧ ∀ i < 1024, s.buffered s.cur (.loc k (o + i)) (elemBytes code) = false

/-- The queue after beat `b` of `n`: the entry with its progress, or without it. -/
def afterBeat (e : QEntry) (rest : List QEntry) (n : Nat) : List QEntry :=
  if e.beats + 1 = n then rest else { e with beats := e.beats + 1, waited := true, ports := none } :: rest

/-! ### Translators -/

/-- The register of a translation that an operand names; e0 reads zero (R387). -/
def esReg (k : Translator) (n : Fin 16) : Word32 := if n = 0 then 0 else k.e[n]

/-- A translation one instruction further: the meter is down by 1, the instruction's pc is its last (R392, R396). -/
def esStep (k : Translator) : Translator := { k with meter := k.meter - 1, lastPc := k.pc }

/-- A translation with a register written; a write of e0 is discarded (R387). -/
def esSet (k : Translator) (d : Fin 16) (v : Word32) : Translator := { k with e := if d = 0 then k.e else k.e.set d v }

/-- An offset at which the translator can fetch (R390). -/
def Fetches (k : Translator) (pc : Word32) : Prop := pc.toNat % 4 = 0 ∧ pc.toNat / 4 < k.code.length

/-- The translation goes on, as `k'`, at `pc`; nothing else changes. -/
def GoesOn (i : Instr) (s : State) (k' : Translator) (pc : Word32) : Prop := exec i s = .next { s with translator := some { k' with pc := pc } }

/-- The translation ends with a cause and a detail (R396), and the launch that waits for it may go on; no thread changes. This is said
of a calm module in which nothing makes an access wait. -/
def Stops (i : Instr) (s : State) (k' : Translator) (cause detail : Nat) : Prop :=
  Calm s → s.stall = none → ∃ u, exec i s = .next u ∧ u.translator = some { k' with ended := some (cause, detail) } ∧ ({ what := .launchAdmission, arg := {} } : Due) ∈ u.agenda ∧
    ∀ r, u.thread? r = s.thread? r

/-- What `n` bytes at an address read as in the P, T and S windows of a translation (R390). -/
def WindowReads (k : Translator) (a n v : Nat) : Prop :=
  (a + n ≤ k.priv.length ∧ v = leNat (bytesAt k.priv a n)) ∨
  (k.priv.length < a + n ∧ 0x40000000 ≤ a ∧ a + n ≤ 0x40000000 + nativeLength ∧ v = leNat ((List.range n).map (fun i => nativeByte (a - 0x40000000 + i)))) ∨
  (k.priv.length < a + n ∧ 0x60000000 ≤ a ∧ a + n ≤ 0x60010000 ∧ v = leNat ((List.range n).map (fun i => cellGet k.scratch (a - 0x60000000 + i))))

/-- An access that lies wholly inside no window (R390). -/
def NoWindow (k : Translator) (a n : Nat) : Prop :=
  k.priv.length < a + n ∧ ¬(0x40000000 ≤ a ∧ a + n ≤ 0x40000000 + nativeLength) ∧ ¬(0x60000000 ≤ a ∧ a + n ≤ 0x60010000)

/-! ### Memory, links, device registers -/

/-- Tables in the order of their keys, memory in its canonical form. -/
def Ordered (s : State) : Prop := (s.lines.map (fun p => p.1)).Pairwise (· < ·) ∧ Memory.wf s.hbm = true

/-- The threads of every slot are as before, and every byte of memory reads as before. -/
def Quiet (s u : State) : Prop := (∀ r, u.thread? r = s.thread? r) ∧ SameMemory s u

/-- The lines of a die for which `dead` holds read as erased lines: 64 zero bytes, epoch 0, all words full, not poisoned; every other line of
the module is as before; no thread changes (R38, R41). -/
def Erases (s u : State) (die : Nat) (dead : Nat → Prop) : Prop :=
  (∀ a, paDie (lineOf a) = die → dead (lineOf a) → cellGet u.hbm a = 0 ∧ u.tag (lineOf a) = LineTag.erased) ∧
    (∀ a, ¬(paDie (lineOf a) = die ∧ dead (lineOf a)) → cellGet u.hbm a = cellGet s.hbm a ∧ u.tag (lineOf a) = s.tag (lineOf a)) ∧
    ∀ r, u.thread? r = s.thread? r

/-- The words of a message wait for room in the q6 of a slot, for a region (R416). -/
def Waits (u : State) (r : SlotRef) (words : List Word) (region : Nat) (notice : Bool) : Prop :=
  (∃ w ∈ (u.core r.core).q6wait, w.slot = r.slot ∧ w.words = words ∧ w.region = region ∧ w.notice = notice) ∧
    ({ what := .q6Entry, arg := { core := r.core, slot := r.slot } } : Due) ∈ u.agenda

/-- The maker of a walk's reads of the tables. -/
def walkWho (q : WalkReq) : Who := { src := slotSource q.slot, world := q.world, region := 0xFFFFFF, slot := q.slot.slot, kind := 5, va := none }

/-- A request that is the only one, of an address-pipe access of a thread with no older compute instruction, parked on its walk, for which no line
of a table has to be waited for (R49); the slot is one that the module has. -/
def OnlyWalk (s : State) (q : WalkReq) (t : Thread) (va : Nat) : Prop :=
  s.walks = [q] ∧ s.walkMeet (walkWho q) q.page = none ∧ s.arg.n = q.die ∧ q.pipe = .address ∧ s.thread? q.slot = some t ∧ t.cq = [] ∧ t.parked = some (.walk q.world va) ∧ t.world = q.world ∧
    q.slot.core < 131072 ∧ q.slot.slot < 16

/-- A host function (R455). -/
def fnAt (s : State) (k : Nat) : HostFn := tget HostFn.reset s.fns k

/-- The master that owns the module writes, or a thread of world 0 while the module has an owner (R462). -/
def OwnerWrites (s : State) : Prop := (∃ m, s.arg.master = some m ∧ s.owner = some m) ∨ (s.arg.master = none ∧ s.owner ≠ none ∧ s.arg.m = 0)

/-! ### The mailbox and the host -/

/-- A command has ended: its reply bears the status, stamped now, and the mailbox is free (R441, R442). -/
def Ended (s u : State) (status : Nat) : Prop := u.mboxStatus = status ∧ u.mboxStamp = s.stampOf securitySource ∧ u.mboxBusy = false

/-- A command has ended with a status and has changed nothing but the mailbox (R442). -/
def Declined (s u : State) (status : Nat) : Prop :=
  Ended s u status ∧ Quiet s u ∧ u.keys = s.keys ∧ u.layout = s.layout ∧ u.locked = s.locked ∧ u.fns = s.fns ∧
    u.monitors = s.monitors ∧ u.owner = s.owner ∧ u.attached = s.attached ∧ u.rotations = s.rotations ∧ u.destroying = s.destroying

/-- A command ends with a status and changes nothing but the mailbox (R442). -/
def Declines (i : Instr) (s : State) (status : Nat) : Prop := ∃ u, exec i s = .next u ∧ Declined s u status

/-- The source number of the master or the slot whose write the event's arguments describe (R28). -/
def writer (a : Args) : Nat :=
  match a.master with
  | some m => masterSource m
  | none => slotSource { core := a.core, slot := a.slot }

/-- The key of a world. -/
def keyOf (s : State) (w : Nat) : Key := tget Key.none s.keys w

/-- No posted write of the host waits that comes before the access (R123). -/
def InOrder (s : State) : Prop :=
  ∀ d ∈ s.agenda, (d.what = .hostPostedWrite ∨ d.what = .hostLaunch) → s.arg.slot ≤ d.arg.slot

/-- The regions that a function launched are terminated: those that live are marked, and no slot holds a thread of them (R458). -/
def EndsRegions (s u : State) (k : Nat) : Prop :=
  (∀ g ∈ u.regions, g.fn = k → g.terminated = true) ∧ ∀ g ∈ s.regions, g.fn = k → ∀ r t, u.thread? r = some t → t.region ≠ g.id

/-- The requests of SPDM: the stages at which each is in order, the stage it leads to, its code, whether its answer is signed
(R454). -/
def spdmForms : List (Instr × Nat × Nat × Nat × Nat × Bool) :=
  [(.getVersion, 0, 3, 1, 0x84, false), (.getCapabilities, 1, 1, 2, 0xE1, false), (.negotiateAlgorithms, 2, 2, 3, 0xE3, false),
   (.getDigests, 3, 3, 3, 0x81, false), (.getCertificate, 3, 3, 3, 0x82, false), (.challenge, 3, 3, 3, 0x83, true),
   (.getMeasurements, 3, 3, 3, 0xE0, true)]

/-- The next owner that HANDOVER names (R460, R461). -/
def masters : List (Nat × Master) := [(0, .hostDriver), (1, .management), (2, .debugger)]

/-! ### Launches -/

/-- A launch that is alone at the headgate, no other being admitted (R333). -/
def OnlyLaunch (s : State) (q : LaunchReq) : Prop := s.launches = [q] ∧ s.admitting = none

/-- The answer to LAUNCH: its status goes to the register that waits (R339). -/
def Answered (u : State) (q : LaunchReq) (status : Nat) : Prop :=
  ∀ r d, q.slot = some (r, d) → Filling u r.core r.slot q.tid d (BitVec.ofNat 64 status)

/-- A launch record that step 1 takes (R332, R333). -/
def RecordGood (b : List Byte) : Prop :=
  b.length = 64 ∧ fieldAt b 9 7 = 0 ∧ fieldAt b 56 8 = 0 ∧ fieldAt b 0 8 % 256 = 0

/-- The headgate, in state `s`, reads the block and the container of a record, both well-formed, which leaves `s2` (R329, R402). -/
def ReadsLaunch (s s2 : State) (q : LaunchReq) (blk blob : List Byte) (p : Option Region) (g : Region) : Prop :=
  ∃ s1 dark, s.headRead (fieldAt q.record 8 1) (fieldAt q.record 0 8) 256 = (s1, some blk) ∧
    p = (if fieldAt blk 8 8 = 0 then none else s1.regionAt (fieldAt q.record 8 1) (fieldAt blk 8 8)) ∧ g = resolveBlock blk q.record p q.from_ ∧
    blockBad blk = false ∧ fieldAt blk 16 1 = fieldAt q.record 8 1 ∧ ¬(fieldAt blk 8 8 = 0 ∧ blockInherits blk = true) ∧
    s1.readContainer (fieldAt q.record 8 1) g.container = (s2, some (blob, dark)) ∧ containerBad blob dark = false

/-- The steps that a launch passes (R333). -/
def Passes (s : State) (q : LaunchReq) (blk blob : List Byte) (p : Option Region) (g : Region) : Prop :=
  step2 s q blk p = .ok () ∧ step3 s g p = .ok () ∧ step4 s g blob = .ok ()

/-- A container made for every machine, or for this one (R402, R405). -/
def Portable (blob : List Byte) : Prop := allZero (bytesAt blob 8 16) = true ∨ bytesAt blob 8 16 = nativeIdentity

/-- A region is admitted in state `s`, for a container's placement and the images found (R331, R333): it is the newest of the live regions, of
which the others stay as they are, but for what their blocks show; its initial threads are still to start, its supervisor is named, its images
start down the boot tree, and LAUNCH answers 0. -/
def Admits (s u : State) (q : LaunchReq) (g : Region) (blob : List Byte) : Prop :=
  ∃ l g', u.regions = l ++ [g'] ∧ l.map (fun p => { p with shown := (0, 0, 0) }) = s.regions.map (fun p => { p with shown := (0, 0, 0) }) ∧ g'.id = s.freeRegionId ∧ g'.rcb = g.rcb ∧ g'.world = g.world ∧ g'.polder = g.polder ∧ g'.parent = g.parent ∧
    g'.args = g.args ∧ g'.tag = g.tag ∧ g'.starting = (placeTable blob).flatMap (fun e => e.slots) ∧
    (g.supervisor ≠ 0 → g'.supervisor = g.supervisor) ∧ (g.supervisor = 0 → ∀ r, g'.firstSlot = some r → g'.supervisor = s.nextId r) ∧
    (g'.forward ≠ [] → ({ what := .bootTreeForward, arg := { n := g'.id } } : Due) ∈ u.agenda) ∧ Answered u q 0

/-- A launch is refused: LAUNCH answers the status, and no region is admitted (R333). -/
def Refuses (s u : State) (q : LaunchReq) (status : Nat) : Prop := u.regions = s.regions ∧ u.admitting = none ∧ Answered u q status

/-- Steps 5 to 7 from what step 5 finds (R333, R405): a refusal with XLATE, a translator that starts, or step 6's verdict and step 7. -/
def Goes (s : State) (x : State × Found) (q : LaunchReq) (g : Region) (blob : List Byte) (u : State) : Prop :=
  (x.2 = .refuse → Refuses s u q 9) ∧
  (x.2 = .running → u = x.1 ∧ ∃ k adm, u.translator = some k ∧ k.pc = 0 ∧ k.ended = none ∧ k.e[2] = BitVec.ofNat 32 nativeLength ∧ u.admitting = some adm ∧ adm.req = q) ∧
  ∀ l, x.2 = .images l → (∀ st, step6 x.1 q g blob l = .error st → Refuses s u q st) ∧ (step6 x.1 q g blob l = .ok () → Admits x.1 u q g blob)

/-- The roles of a container, in the order in which step 5 takes them (R405). -/
def rolesOf (blob : List Byte) : List Nat := (roleRecords blob).map (fun k => k.role)

/-- The segment of a region that a core is to hold for a role (R367). -/
def segmentOn (g : Region) (c : CoreIx) (role : Nat) : Option (Segment × Nat) :=
  (g.segs.zip (List.range g.segs.length)).find? (fun p => decide (p.1.role = role) && (p.1.home :: p.1.reps).contains c)

/-- Every slot holds what it held, but that a thread which waits for the banker looks again (R359). -/
def Relooks (s u : State) : Prop :=
  ∀ r, u.thread? r = s.thread? r ∨ ∃ t, s.thread? r = some t ∧ t.acq ≠ none ∧ t.parked = some .held ∧ u.thread? r = some { t with parked := none }

/-- A thread has begun in a slot for a region (R179, R335): its id, its region and role, where it starts, its claim. -/
def Begun (s u : State) (r : SlotRef) (g : Region) (role : Nat) (pc claim : Word) : Prop :=
  ∃ t, u.thread? r = some t ∧ t.id = s.nextId r ∧ t.world = g.world ∧ t.polder = g.polder ∧ t.region = g.id ∧ t.role = role ∧ t.pc = pc ∧
    t.claim = claim ∧ t.cq = [] ∧ t.halted = none ∧ t.skip = 0 ∧ ∀ n : Fin 40, 4 ≤ n → t.g[n] = (if n < 16 then GReg.zeroFull else GReg.zeroEmpty)

/-! ### The machine as a whole -/

/-- The state of a turn of the address pipe that runs an instruction for slot `r` of core `c`: its park is over, but that at a mesh port, the
turn is its own, the next position of the cycle is the compute pipe's. -/
def turnState (s : State) (c : CoreIx) (r : SlotRef) (t : Thread) : State :=
  { s.setThread r t.roused with cur := r, pipe := .address, cursor := 2 * c + 2 }

/-- The A-class short majors without a form (R202). -/
def noMajorA : List Nat :=
  [0x0D, 0x0E, 0x0F, 0x12, 0x13, 0x17, 0x1F, 0x2F, 0x37, 0x3B, 0x3C, 0x3D, 0x3E, 0x3F]

/-- THE INVARIANT OF MEMORY AND KEYS: HBM4E, and the local memory and the scale plane of every core, are in their canonical form, and the lines'
tags in the order of their lines; a live key's epoch is 1 to 255 (R40, R41); the key of world 0 is live and is not being destroyed (R443, R444);
between two steps no agent's work is left half done. -/
def Inv (s : State) : Prop :=
  Memory.wf s.hbm = true ∧ (∀ c, Memory.wf (s.core c).mem = true ∧ Memory.wf (s.core c).scale = true) ∧
    (s.lines.map (fun p => p.1)).Pairwise (· < ·) ∧ (∀ w, (tget Key.none s.keys w).live = true → 1 ≤ (tget Key.none s.keys w).epoch ∧ (tget Key.none s.keys w).epoch ≤ 255) ∧
    (tget Key.none s.keys 0).live = true ∧ (∀ d, s.destroying = some d → d.1 ≠ 0) ∧ s.stall = none

end Sys2Proof.Claims

open Sys2Proof Sys2Proof.Machine Sys2Proof.Claims

/-! ### Registers and their access -/

/-- READING A REGISTER (R180-R184): z reads 0, tc the cycle count, id the source number of the slot, x and lk their words; a g
register of a held block reads its value when full and parks the slot when empty; one of an unheld block raises REGN; a port at the
cluster's edge raises REGN, another gives the oldest word of its FIFO, unless a contender with an earlier stamp waits for it, or parks. -/
def Obligations.RegisterReadOutcomes : Prop :=
  ∀ (s : State) (t : Thread),
    readReg s t [] .z = .ok 0 ∧ readReg s t [] .lk = .ok t.lk ∧ (∀ n, readReg s t [] (.x n) = .ok t.x[n]) ∧
    readReg s t [] .tc = .ok (BitVec.ofNat 64 s.tc) ∧ readReg s t [] .id = .ok (BitVec.ofNat 64 (slotSource s.cur)) ∧
    (∀ n : Fin 40, t.holds n = false → readReg s t [] (.g n) = .error (.trap .regn 0)) ∧
    (∀ n : Fin 40, t.holds n = true → (t.g[n]).full = true → readReg s t [] (.g n) = .ok (t.g[n]).val) ∧
    (∀ n : Fin 40, t.holds n = true → (t.g[n]).full = false → readReg s t [] (.g n) = .error (.park (.reg n))) ∧
    (∀ p, neighbour s.cur.core p = none → readReg s t [] (.port p) = .error (.trap .regn 0)) ∧
    (∀ p w r, (neighbour s.cur.core p).isSome → s.portIn s.cur.core p = w :: r →
      readReg s t [] (.port p) = if s.portTurn s.cur.core p false (s.portStamp t) then .ok w else .error (.park (.portIn p (s.portStamp t)))) ∧
    (∀ p, (neighbour s.cur.core p).isSome → s.portIn s.cur.core p = [] → readReg s t [] (.port p) = .error (.park (.portIn p (s.portStamp t))))

/-- WRITING A REGISTER (R180, R182, R183): what a form leaves in its thread. A g destination holds the result, full, also when the
form marked that register; a marked g register that is not the destination is empty with its value kept; every other g register is
as before; x and lk hold a result that names them; a result for z, tc, id or a port changes no register. The pc has moved on, and each
unretired compute instruction has one more instruction beyond it (R187); every other part of the thread is as before, but that it is parked
no more. -/
def Obligations.FormWritesItsDestination : Prop :=
  ∀ (t : Thread) (marked : List (Bool × Reg)) (len : Nat) (d : Reg) (v : Word),
    let u := afterForm t marked len d v
    u.pc = t.pc + BitVec.ofNat 64 len ∧
    (∀ n, d = .g n → u.g[n] = { val := v, full := true, pending := false }) ∧
    (∀ n : Fin 40, d ≠ .g n → (true, Reg.g n) ∈ marked → u.g[n] = { t.g[n] with full := false }) ∧
    (∀ n : Fin 40, d ≠ .g n → (true, Reg.g n) ∉ marked → u.g[n] = t.g[n]) ∧
    (∀ n, u.x[n] = if d = .x n then v else t.x[n]) ∧ u.lk = (if d = .lk then v else t.lk) ∧
    u.cq = t.cq.map (fun e => { e with since := e.since + 1 }) ∧
    { u with pc := t.pc, g := t.g, x := t.x, lk := t.lk, cq := t.cq, parked := t.parked, unissued := t.unissued } = t

/-- THE MESH PORTS (R181, R214): MOV from a port to a port, when no earlier-stamped contender waits for either, takes the oldest word of the
one and appends it to the neighbour's FIFO on the other side; a port with four words waiting, and one for which an earlier contender waits,
parks the writer with the stamp since which it waits; one at the cluster's edge raises REGN. -/
def Obligations.PortWordsMoveToTheNeighbour : Prop :=
  ∀ (s : State) (t : Thread) (p q : Port) (w : Word) (r : List Word), Acts s t → s.portIn s.cur.core q = w :: r → (neighbour s.cur.core q).isSome →
    s.portTurn s.cur.core q false (s.portStamp t) = true →
    (∀ n, neighbour s.cur.core p = some n →
      ((s.portIn n (portOpp p)).length < 4 → s.portTurn s.cur.core p true (s.portStamp t) = true →
        ∃ u, exec (.mov (.port p) (.port q) false) s = .next u ∧ u.portIn n (portOpp p) = s.portIn n (portOpp p) ++ [w] ∧
          u.portIn s.cur.core q = r) ∧
      (4 ≤ (s.portIn n (portOpp p)).length ∨ s.portTurn s.cur.core p true (s.portStamp t) = false →
        exec (.mov (.port p) (.port q) false) s = .next (s.parkOn s.cur t (.portOut p (s.portStamp t))))) ∧
    (neighbour s.cur.core p = none → exec (.mov (.port p) (.port q) false) s = .next (takeFault s .regn 0 0 4))

/-! ### Integer forms -/

/-- THE INTEGER FORMS ON TWO REGISTERS (R217, R218): each writes d with its function of a and b; nothing but its thread changes.
MOV, CLZ, POPC AND THE IMMEDIATE FORMS (R217, R219, R220): each writes d with its function of a, the immediate sign-extended;
BINS inserts into the old d; MOVI and MOVL write their immediate, sign-extended, MOVL as one instruction of 8 bytes; VOID leaves its
register empty. -/
def Obligations.IntegerFormsWriteTheirResults : Prop :=
  (∀ f ∈ binaryForms, ∀ (s : State) (t : Thread) (d a b : Reg) (m : Marks) (x y : Word), Acts s t →
     readReg s t [] a = .ok x → readReg s t [a] b = .ok y → checkDest s t d = .ok () →
     Leaves (f.1 d a b m) s (afterForm t [(m.a, a), (m.b, b)] 4 d (f.2 x y))) ∧
  (∀ (s : State) (t : Thread) (d a : Reg) (x : Word), Acts s t → readReg s t [] a = .ok x → checkDest s t d = .ok () →
     (∀ f ∈ unaryForms, ∀ ma, Leaves (f.1 d a ma) s (afterForm t [(ma, a)] 4 d (f.2 x))) ∧
     (∀ f ∈ immediateForms, ∀ imm, Leaves (f.1 d a imm) s (afterForm t [] 4 d (f.2 x (imm.signExtend 64)))) ∧
     (∀ f ∈ countForms, ∀ n, Leaves (f.1 d a n) s (afterForm t [] 4 d (f.2 x n.toNat))) ∧
     (∀ pos len, Leaves (.bext d a pos len) s (afterForm t [] 4 d (BitVec.ofNat 64 (x.toNat / 2 ^ pos.toNat % 2 ^ fieldBits len)))) ∧
     (∀ pos len y, readReg s t [a] d = .ok y → ∃ v : Word, Leaves (.bins d a pos len) s (afterForm t [] 4 d v) ∧
       ∀ i, v.getLsbD i = if pos.toNat ≤ i ∧ i < pos.toNat + fieldBits len then decide (i < 64) && x.getLsbD (i - pos.toNat) else y.getLsbD i) ∧
     (∀ imm, Leaves (.movi d imm) s (afterForm t [] 4 d (imm.signExtend 64))) ∧
     (∀ imm, Leaves (.movl d imm) s (afterForm t [] 8 d (imm.signExtend 64))) ∧
     (∀ n, checkDest s t (.g n) = .ok () → Leaves (.void n) s ((t.emptyG n).advance 4)))


/-! ### Scalar float forms -/

/-- THE SCALAR FLOAT FORMS (R234-R236, R173): the result in bits 31:0 of d with bits 63:32 zero (FCVTI a 64-bit integer), the flags
ORed into fflags; nothing else but the thread changes. FFMA adds the old d, rounded once by its mode. -/
def Obligations.FloatFormsWriteTheirResults : Prop :=
  ∀ (s : State) (t : Thread) (d a b : Reg) (m : Marks) (x y : Word), Acts s t →
    readReg s t [] a = .ok x → checkDest s t d = .ok () →
    (readReg s t [a] b = .ok y → ∀ f ∈ floatForms,
      Leaves (f.1 d a b m) s (afterForm (t.orFlags (f.2 (x.setWidth 32) (y.setWidth 32)).2) [(m.a, a), (m.b, b)] 4 d
        ((f.2 (x.setWidth 32) (y.setWidth 32)).1.setWidth 64))) ∧
    (∀ f ∈ floatUnaryForms, ∀ ma, Leaves (f.1 d a ma) s (afterForm (t.orFlags (f.2 x).2) [(ma, a)] 4 d (f.2 x).1)) ∧
    (∀ rm z, readReg s t [a] b = .ok y → readReg s t [a, b] d = .ok z →
      let p := fvFma rm (decodeF32 (x.setWidth 32)) (decodeF32 (y.setWidth 32)) (decodeF32 (z.setWidth 32))
      let e := encodeF32 rm p.1
      Leaves (.ffma rm d a b m) s (afterForm (t.orFlags (p.2 ||| e.2)) [(m.a, a), (m.b, b)] 4 d (e.1.setWidth 64)))

/-! ### Compare-skip -/

/-- COMPARE-SKIP (R222, R223): when the condition is false, the next n instructions are annulled; when it is true, none. CSK compares
two registers, or tests whether a held register is full or empty without waiting; CSKI compares with its immediate. Only the skip
count and the flags of an F condition change.
AN ANNULLED INSTRUCTION (R185, R222, R224): it takes its slot's turn, which is donated, has no effect but one less to annul, and the pc
passes it by its length. -/
def Obligations.CompareSkipAnnulsTheNext : Prop :=
  (∀ (s : State) (t : Thread) (n : Fin 4) (c : Cond) (a b : Reg), Acts s t →
    (∀ x y, comparing c → readReg s t [] a = .ok x → readReg s t [a] b = .ok y →
      Leaves (.csk n c a b) s (afterMarks { t.orFlags (condFlags c x y) with skip := if condTrue c x y then 0 else n.val } [] 4)) ∧
    (∀ x imm, comparing c → readReg s t [] a = .ok x →
      Leaves (.cski n c a imm) s (afterMarks { t.orFlags (condFlags c x (skipImmediate c imm)) with
        skip := if condTrue c x (skipImmediate c imm) then 0 else n.val } [] 4)) ∧
    (∀ k : Fin 40, t.holds k = true →
      Leaves (.csk n .full (.g k) b) s (afterMarks { t with skip := if (t.g[k]).full then 0 else n.val } [] 4) ∧
      Leaves (.csk n .empty (.g k) b) s (afterMarks { t with skip := if (t.g[k]).full then n.val else 0 } [] 4))) ∧
  (∀ (s : State) (c : CoreIx) (n : Nat) (t : Thread) (i : Instr) (len : Nat), s.thread? { core := c, slot := n } = some t →
    addressFree s { core := c, slot := n } t = true → 0 < t.skip → fetch s { core := c, slot := n } t = .ok (i, len) →
    let u := (annulTurn s c n).1
    (annulTurn s c n).2 = true ∧ u.thread? { core := c, slot := n } = some { t with skip := t.skip - 1, pc := t.pc + BitVec.ofNat 64 len, parked := none } ∧
      (∀ q, ¬sameSlot q { core := c, slot := n } → u.thread? q = s.thread? q) ∧ SameMemory s u)

/-! ### Control transfer (R225, R226) -/

/-- CONTROL TRANSFERS (R225): a target that is an instruction of the image that the thread runs becomes the pc; BRL, JMPL and BRF.L leave
the address after themselves in lk, JMPL after reading its register. A last-read mark is applied; nothing else changes.
BAD TARGETS (R225, R226): JMP or JMPL to an address that is no multiple of 4 takes ALIGN, and JMP or BR out of the image takes PROT
unless its region travels; TBR with a mask that names a register of an unheld block takes REGN. -/
def Obligations.TransfersGoToTheirTargets : Prop :=
  (∀ (s : State) (t : Thread), Acts s t →
     (∀ off : BitVec 24, InCode s t (t.pc + off.signExtend 64 * 4) →
       Leaves (.br off) s (afterJump t [] t.lk (t.pc + off.signExtend 64 * 4)) ∧
       Leaves (.brl off) s (afterJump t [] (t.pc + 4) (t.pc + off.signExtend 64 * 4))) ∧
     (∀ (off : BitVec 53), InCode s t (t.pc + off.signExtend 64 * 4) →
       Leaves (.brf false off) s (afterJump t [] t.lk (t.pc + off.signExtend 64 * 4)) ∧
       Leaves (.brf true off) s (afterJump t [] (t.pc + 8) (t.pc + off.signExtend 64 * 4))) ∧
     (∀ (live : BitVec 32) (off : BitVec 22), InCode s t (t.pc + off.signExtend 64 * 4) →
       (∀ k, live.getLsbD k = true → t.holds k = true) →
       Leaves (.tbr live off) s (afterJump t [] t.lk (t.pc + off.signExtend 64 * 4))) ∧
     (∀ (a : Reg) (x : Word) (ma : Bool), readReg s t [] a = .ok x → InCode s t x →
       Leaves (.jmp a ma) s (afterJump t [(ma, a)] t.lk x) ∧ Leaves (.jmpl a ma) s (afterJump t [(ma, a)] (t.pc + 4) x)) ∧
     (InCode s t t.lk → Leaves .ret s (afterJump t [] t.lk t.lk))) ∧
  (∀ (s : State) (t : Thread) (off : BitVec 24) (a : Reg) (x : Word) (ma : Bool), Acts s t → readReg s t [] a = .ok x →
     (x.toNat % 4 ≠ 0 → exec (.jmp a ma) s = .next (takeFault s .align x 0 4) ∧ exec (.jmpl a ma) s = .next (takeFault s .align x 0 4)) ∧
     (x.toNat % 4 = 0 → ¬InCode s t x → (∀ g, s.region? t.region = some g → g.travelling = false) →
       exec (.jmp a ma) s = .next (takeFault s .prot x 0 4)) ∧
     (t.pc.toNat % 4 = 0 → ¬InCode s t (t.pc + off.signExtend 64 * 4) → (∀ g, s.region? t.region = some g → g.travelling = false) →
       exec (.br off) s = .next (takeFault s .prot (t.pc + off.signExtend 64 * 4) 0 4)) ∧
     (∀ (live : BitVec 32) (o : BitVec 22) (k : Nat), live.getLsbD k = true → t.holds k = false →
       exec (.tbr live o) s = .next (takeFault s .regn 0 0 8)))

/-! ### Local memory as the address pipe reaches it (R22, R26, R132, R135) -/

/-- LOCAL LOADS (R227, R229-R231): LD, LDA and LDX write the bytes at their address, least significant first, zero-extended; LDS and LDX.S
sign-extended; SLD fills a shape record. Nothing but the thread changes, and memory reads as before.
LOADS IN GENERAL (R25-R28, R40, R227): whatever its address, LD delivers what its place answers; the checks come in the order
window, alignment, dikes or translation: an address of a reserved window takes WIN, a misaligned one ALIGN, one outside the dikes DIKE;
a page that no TLB holds parks the slot on a walk of its tables; a page without read permission takes PROT. -/
def Obligations.LoadsReadTheirBytes : Prop :=
  (∀ (s : State) (t : Thread) (d a b : Reg) (m : Marks) (x y : Word) (k : CoreIx) (o : Nat), Acts s t →
     readReg s t [] a = .ok x →
     (∀ (sz : Size) (disp : BitVec 10), checkDest s t d = .ok () → LoadableAt s t (x + disp.signExtend 64 * BitVec.ofNat 64 (sizeBytes sz)) (sizeBytes sz) k o →
       Leaves (.ld d a sz disp) s (afterForm t [] 4 d (BitVec.ofNat 64 (localValue s k o (sizeBytes sz)))) ∧
       Leaves (.lda d a sz disp) s (afterForm t [] 4 d (BitVec.ofNat 64 (localValue s k o (sizeBytes sz)))) ∧
       Leaves (.lds d a sz disp) s (afterForm t [] 4 d
         ((BitVec.ofNat (8 * sizeBytes sz) (localValue s k o (sizeBytes sz))).signExtend 64))) ∧
     (∀ sz : Size, readReg s t [a] b = .ok y → checkDest s t d = .ok () → LoadableAt s t (x + y) (sizeBytes sz) k o →
       Leaves (.ldx d a b sz m) s (afterForm t [(m.a, a), (m.b, b)] 4 d (BitVec.ofNat 64 (localValue s k o (sizeBytes sz)))) ∧
       Leaves (.ldxS d a b sz m) s (afterForm t [(m.a, a), (m.b, b)] 4 d
         ((BitVec.ofNat (8 * sizeBytes sz) (localValue s k o (sizeBytes sz))).signExtend 64))) ∧
     (∀ n : Fin 16, readReg s t [a] b = .ok y → LoadableAt s t (x + y) 32 k o →
       Leaves (.sld n a b m) s (afterMarks { t with shapes := t.shapes.set n (localShape s k o) } [(m.a, a), (m.b, b)] 4))) ∧
  (∀ (s : State) (t : Thread) (d b : Reg) (sz : Size) (disp : BitVec 10) (x : Word), Acts s t →
     readReg s t [] b = .ok x → checkDest s t d = .ok () →
     let a := x + disp.signExtend 64 * BitVec.ofNat 64 (sizeBytes sz)
     (∀ v p s1, (loadChecked s.cur t a (sizeBytes sz)) s = (.ok (v, p), s1) →
       exec (.ld d b sz disp) s = .next (retire s1 t [b] [] (some (d, BitVec.ofNat 64 (leNat v))) 4)) ∧
     (wellFormed a (sizeBytes sz) = false → exec (.ld d b sz disp) s = .next (takeFault s .win a 0 4)) ∧
     (wellFormed a (sizeBytes sz) = true → a.toNat % sizeBytes sz ≠ 0 → exec (.ld d b sz disp) s = .next (takeFault s .align a 0 4)) ∧
     (wellFormed a (sizeBytes sz) = true → a.toNat % sizeBytes sz = 0 → windowOf a ≠ 0 →
       dikeFits s s.cur.slot t.world (localPlace s.cur.core a) (sizeBytes sz) = false →
       exec (.ld d b sz disp) s = .next (takeFault s .dike a 0 4)) ∧
     (wellFormed a (sizeBytes sz) = true → a.toNat % sizeBytes sz = 0 → windowOf a = 0 →
       s.tlb s.cur.core t.world (a.toNat / 65536) = none →
       exec (.ld d b sz disp) s = .next (s.parkOn s.cur t (.walk t.world a.toNat))) ∧
     (∀ e, wellFormed a (sizeBytes sz) = true → a.toNat % sizeBytes sz = 0 → windowOf a = 0 →
       s.tlb s.cur.core t.world (a.toNat / 65536) = some e → e.r = false →
       exec (.ld d b sz disp) s = .next (takeFault s .prot a 0 4)))

/-- STORES (R111, R227-R231): ST, STL, STX and SST put one entry into the store buffer of their core, with the place of their address and
their bytes, least significant first; no byte of memory changes until the entry is performed. STL waits for the conditions of a release
first.
A STORE IS PERFORMED (R88, R111, R132): the entry at the head of a core's buffer, once no older compute instruction of its slot is
unretired, leaves the buffer and writes its bytes, and no other byte of the module; no thread changes. -/
def Obligations.StoresEnterTheBufferAndAreWritten : Prop :=
  (∀ (s : State) (t : Thread) (d a b : Reg) (m : Marks) (x y v : Word) (p : Place) (sz : Size), Acts s t →
     (s.core s.cur.core).buf.length < 32 → s.rdcs = [] → readReg s t [] a = .ok x →
     (∀ disp : BitVec 10, readReg s t [a] d = .ok v →
       let ea := x + disp.signExtend 64 * BitVec.ofNat 64 (sizeBytes sz)
       Reaches s t ea (sizeBytes sz) false true p → Writable s t p (sizeBytes sz) →
       Buffers (.st d a sz disp) s (afterMarks t [] 4) (entryOf s t p ea (sizeBytes sz) (.bytes (natLe v.toNat (sizeBytes sz)))) ∧
       (releaseMet s s.cur t = true →
         Buffers (.stl d a sz disp) s (afterMarks t [] 4) (entryOf s t p ea (sizeBytes sz) (.bytes (natLe v.toNat (sizeBytes sz)))))) ∧
     (readReg s t [a] b = .ok y → readReg s t [a, b] d = .ok v →
       Reaches s t (x + y) (sizeBytes sz) false true p → Writable s t p (sizeBytes sz) →
       Buffers (.stx d a b sz m) s (afterMarks t [(m.a, a), (m.b, b)] 4)
         (entryOf s t p (x + y) (sizeBytes sz) (.bytes (natLe v.toNat (sizeBytes sz))))) ∧
     (∀ n : Fin 16, readReg s t [a] b = .ok y → Reaches s t (x + y) 32 false true p → Writable s t p 32 →
       Buffers (.sst n a b m) s (afterMarks t [(m.a, a), (m.b, b)] 4) (entryOf s t p (x + y) 32 (.bytes
         (natLe (t.shapes[n]).w0.toNat 8 ++ natLe (t.shapes[n]).w1.toNat 8 ++ natLe (t.shapes[n]).w2.toNat 8 ++
           natLe (t.shapes[n]).w3.toNat 8))))) ∧
  (∀ (s : State) (e : BufEntry) (rest : List BufEntry) (data : List Byte) (k : CoreIx) (o : Nat),
     AtHead s s.arg.core e rest → e.op = .bytes data → e.place = .loc k o → Sound s k o data.length →
     data ≠ [] → Memory.wf (s.core k).mem = true →
     ∃ u, exec .storePerformed s = .next u ∧ (u.core s.arg.core).buf = rest ∧ (∀ q, u.thread? q = s.thread? q) ∧
       (∀ c a, cellGet (u.core c).mem a =
         if c = k ∧ o ≤ a ∧ a < o + data.length then data.getD (a - o) 0 else cellGet (s.core c).mem a) ∧
       (∀ c a, cellGet (u.core c).scale a = cellGet (s.core c).scale a) ∧ u.hbm = s.hbm)


/-- SHAPE BASES (R231, R232): SBASE replaces word 0 of a shape record; SOFF adds to its base, in a local or scale window only within the
16 bits of the offset. -/
def Obligations.ShapeBasesMove : Prop :=
  ∀ (s : State) (t : Thread) (n : Fin 16) (a : Reg) (ma : Bool) (x : Word), Acts s t → readReg s t [] a = .ok x →
    Leaves (.sbase n a ma) s (afterMarks { t with shapes := t.shapes.set n { t.shapes[n] with w0 := x } } [(ma, a)] 4) ∧
    (windowOf (t.shapes[n]).w0 < 0xF0 ∨ 0xF8 < windowOf (t.shapes[n]).w0 →
      Leaves (.soff n a ma) s (afterMarks { t with shapes := t.shapes.set n { t.shapes[n] with w0 := (t.shapes[n]).w0 + x } } [(ma, a)] 4)) ∧
    (0xF0 ≤ windowOf (t.shapes[n]).w0 → windowOf (t.shapes[n]).w0 ≤ 0xF8 →
      ∃ w : Word, Leaves (.soff n a ma) s (afterMarks { t with shapes := t.shapes.set n { t.shapes[n] with w0 := w } } [(ma, a)] 4) ∧
        bitsOf w 63 16 = bitsOf (t.shapes[n]).w0 63 16 ∧ bitsOf w 15 0 = (bitsOf (t.shapes[n]).w0 15 0 + bitsOf x 15 0) % 65536)

/-! ### Exceptions (R188, R413-R418) -/

/-- TAKING AN EXCEPTION (R188, R224, R413-R418): with no compute instruction of the slot older, a precise cause that does not go to the
thread's own handler halts the thread: fcause, faddr and fpriv are written; it is to resume at its word, or after it for TRAP and POOL,
and for ILL or MID of an annulled word after it with the skip count less one. Its message, of eight words, is placed for the q6 of the
supervisor of its region, under a policy that names no termination. PROMISE and POOL go to fvec when it is not 0, with lk the
address to return to. While a compute instruction is older, the instruction waits without effect. No other thread and no byte of memory
changes.
TRAPS AND BREAKPOINTS (R420, R421): TRAP takes its exception with its number; BRK outside the debugger's attachment takes TRAP with
number 0xFFE; under it, the thread halts for the debugger with its message sent outside, and goes on after the BRK when the debugger
resumes it.
The model's choice, where a clause rests on it: log entry 36. -/
def Obligations.ExceptionsHaltOrTransfer : Prop :=
  (∀ (s : State) (t : Thread) (c : Cause) (addr : Word) (no len : Nat), Acts s t →
     (t.cq ≠ [] → takeFault s c addr no len = s.setThread s.cur { t with parked := some .computeQueue }) ∧
     (t.cq = [] → t.fvec ≠ 0 → c = .promise → takeFault s c addr no len = s.setThread s.cur (handledAt s t c addr t.pc)) ∧
     (t.cq = [] → t.fvec ≠ 0 → c = .pool →
       takeFault s c addr no len = s.setThread s.cur (handledAt s t c addr (t.pc + BitVec.ofNat 64 len))) ∧
     (∀ g sup v, t.cq = [] → (t.fvec = 0 ∨ (c ≠ .promise ∧ c ≠ .pool)) → s.region? t.region = some g → g.policy ≤ 1 →
       (∀ r ∈ s.regions, r.supervisor ≠ t.id) → s.threadById g.supervisor = some (sup, v) → ¬sameSlot sup s.cur →
       let u := takeFault s c addr no len
       u.thread? s.cur = some (haltedAt s t { cause := c, imprecise := false, debugger := false, page := none } addr
         (if 0 < t.skip ∧ (c = .ill ∨ c = .mid) ∨ c = .trap ∨ c = .pool then t.pc + BitVec.ofNat 64 len else t.pc)
         (if c = .ill ∨ c = .mid then t.skip - 1 else t.skip)) ∧
       ({ slot := sup.slot, stamp := s.stamp, words := faultMessage s t c no addr, region := g.id,
          notice := false } : Q6Group) ∈ (u.core sup.core).q6wait ∧
       ({ what := .q6Entry, arg := { core := sup.core, slot := sup.slot } } : Due) ∈ u.agenda ∧
       OthersKeep s u ∧ SameMemory s u ∧ u.tc = s.tc)) ∧
  ((∀ (s : State) (t : Thread), Acts s t →
     (∀ n : BitVec 12, exec (.trap n) s = .next (takeFault s .trap 0 n.toNat 4)) ∧
     (s.underDebug t.region = false → exec .brk s = .next (takeFault s .trap 0 0xFFE 4)) ∧
     (s.underDebug t.region = true → t.cq = [] →
       ∃ u, exec .brk s = .next u ∧ u.thread? s.cur = some (haltedAt s t { cause := .trap, imprecise := false, debugger := true, page := none }
           0 (t.pc + 4) t.skip) ∧
         u.out = s.out ++ [.debugMessage (faultMessage s t .trap 0xFFE 0)] ∧ OthersKeep s u ∧ SameMemory s u ∧ u.tc = s.tc)) ∧
   (∀ (s : State) (t : Thread) (h : Halt), s.thread? { core := s.arg.core, slot := s.arg.slot } = some t → t.halted = some h →
     exec .debuggerResume s = .next (if h.debugger then s.setThread { core := s.arg.core, slot := s.arg.slot } { t with halted := none, parked := none } else s.setThread { core := s.arg.core, slot := s.arg.slot } t)))


/-- CONTROL REGISTERS (R175, R189, R190, R419): CSRR writes d with the register that its number names, fflags once the compute
queue is empty; CSRW writes dikelo, dikehi, fvec and fflags, and tree from a supervisor or world 0, within the bounds the register sets;
any other number raises PRIV, a value out of bounds PROT. -/
def Obligations.ControlRegistersReadAndWrite : Prop :=
  ∀ (s : State) (t : Thread) (d a : Reg) (ma : Bool) (x : Word), Acts s t →
    (checkDest s t d = .ok () →
      Leaves (.csrr d 1) s (afterForm t [] 4 d (BitVec.ofNat 64 t.world)) ∧ Leaves (.csrr d 2) s (afterForm t [] 4 d (BitVec.ofNat 64 t.polder)) ∧
      Leaves (.csrr d 3) s (afterForm t [] 4 d (BitVec.ofNat 64 t.id)) ∧ Leaves (.csrr d 4) s (afterForm t [] 4 d t.dikelo) ∧
      Leaves (.csrr d 5) s (afterForm t [] 4 d t.dikehi) ∧ Leaves (.csrr d 6) s (afterForm t [] 4 d t.fvec) ∧
      Leaves (.csrr d 7) s (afterForm t [] 4 d t.fcause) ∧ Leaves (.csrr d 8) s (afterForm t [] 4 d t.faddr) ∧
      Leaves (.csrr d 9) s (afterForm t [] 4 d t.fpriv) ∧ Leaves (.csrr d 10) s (afterForm t [] 4 d t.meter) ∧
      Leaves (.csrr d 11) s (afterForm t [] 4 d (BitVec.ofNat 64 t.wdog)) ∧ Leaves (.csrr d 12) s (afterForm t [] 4 d t.tree) ∧
      Leaves (.csrr d 16) s (afterForm t [] 4 d t.claim) ∧
      (t.cq = [] → Leaves (.csrr d 18) s (afterForm t [] 4 d (t.fflags.setWidth 64))) ∧
      (∀ c : Fin 19, c ≠ 18 ∨ t.cq = [] → ∃ v, Leaves (.csrr d c) s (afterForm t [] 4 d v))) ∧
    (readReg s t [] a = .ok x →
      (bitsOf x 63 15 = 0 → s.polderLo t.polder ≤ x.toNat → Leaves (.csrw 4 a ma) s (afterMarks { t with dikelo := x } [(ma, a)] 4)) ∧
      (bitsOf x 63 16 = 0 → x.toNat ≤ s.polderHi t.polder → Leaves (.csrw 5 a ma) s (afterMarks { t with dikehi := x } [(ma, a)] 4)) ∧
      (bitsOf x 1 0 = 0 → Leaves (.csrw 6 a ma) s (afterMarks { t with fvec := x } [(ma, a)] 4)) ∧
      (¬(bitsOf x 63 15 = 0 ∧ s.polderLo t.polder ≤ x.toNat) → exec (.csrw 4 a ma) s = .next (takeFault s .prot 0 0 4)) ∧
      (¬(bitsOf x 63 16 = 0 ∧ x.toNat ≤ s.polderHi t.polder) → exec (.csrw 5 a ma) s = .next (takeFault s .prot 0 0 4)) ∧
      (bitsOf x 1 0 ≠ 0 → exec (.csrw 6 a ma) s = .next (takeFault s .prot 0 0 4)) ∧
      (¬(bitsOf x 63 62 = 0 ∧ bitsOf x 29 0 = 0) → s.privileged t = true → exec (.csrw 12 a ma) s = .next (takeFault s .prot 0 0 4)) ∧
      (bitsOf x 63 5 ≠ 0 → exec (.csrw 18 a ma) s = .next (takeFault s .prot 0 0 4)) ∧
      (bitsOf x 63 62 = 0 → bitsOf x 29 0 = 0 → s.privileged t = true → Leaves (.csrw 12 a ma) s (afterMarks { t with tree := x } [(ma, a)] 4)) ∧
      (bitsOf x 63 5 = 0 → t.cq = [] → Leaves (.csrw 18 a ma) s (afterMarks { t with fflags := x.setWidth 5 } [(ma, a)] 4)) ∧
      (∀ c : Fin 19, c ≠ 4 → c ≠ 5 → c ≠ 6 → c ≠ 18 → (c = 12 → s.privileged t = false) →
        exec (.csrw c a ma) s = .next (takeFault s .priv 0 0 4)))

/-- EMULATION WINDOWS (R422, R423): EMWIN of a supervisor opens a window on a halted thread of its region or a descendant; through the
window it reads and writes the g registers of held blocks, x0-x3, lk, pc, the skip count, the full/empty bits and fflags, and closes
it. A form without privilege raises PRIV, one on a thread on which the slot holds no window PROT.
RETURN FROM AN EXCEPTION (R424, R426): ERET lets a halted thread of its region or a descendant, halted precisely, go on at its pc
with its skip state: its window closes, its watchdog is reloaded. Where no such thread is halted the reply is 5. It waits for the
conditions of a release.
The model's choice, where a clause rests on it: log entry 36. -/
def Obligations.HaltedThreadsAreReadWrittenAndResumed : Prop :=
  (∀ (s : State) (t u : Thread) (d a b : Reg) (m : Marks) (x y : Word) (q : SlotRef) (op k id : Nat), Acts s t →
    readReg s t [] a = .ok x → readReg s t [a] b = .ok y → checkDest s t d = .ok () → AsksWindow x op k id →
    let done (v : Word) : Thread := afterForm t [(m.a, a), (m.b, b)] 4 d v
    (s.privileged t = false → exec (.emwin d a b m) s = .next (takeFault s .priv 0 0 4)) ∧
    (s.privileged t = true → Other s id q u →
      (op = 0 → u.halted.isSome → u.world = t.world → s.isWithin u.region t.region = true → (u.emwBy = none ∨ u.emwBy = some s.cur) →
        LeavesBoth (.emwin d a b m) s (done (statusWord 0)) q { u with emwBy := some s.cur }) ∧
      (op = 0 → u.halted = none → Leaves (.emwin d a b m) s (done (statusWord 5))) ∧
      (op ≠ 0 → u.emwBy ≠ some s.cur → exec (.emwin d a b m) s = .next (takeFault s .prot 0 0 4)) ∧
      (u.emwBy = some s.cur →
        (∀ n : Fin 40, op = 1 → k = n → u.holds n = true → Leaves (.emwin d a b m) s (done (u.g[n]).val)) ∧
        (∀ n : Fin 4, op = 1 → k = 44 + n → Leaves (.emwin d a b m) s (done u.x[n])) ∧
        (op = 1 → k = 51 → Leaves (.emwin d a b m) s (done u.lk)) ∧ (op = 1 → k = 52 → Leaves (.emwin d a b m) s (done u.pc)) ∧
        (op = 1 → k = 53 → Leaves (.emwin d a b m) s (done (BitVec.ofNat 64 u.skip))) ∧
        (op = 1 → k = 55 → Leaves (.emwin d a b m) s (done (u.fflags.setWidth 64))) ∧
        (op = 1 → k = 54 → ∃ v, Leaves (.emwin d a b m) s (done v) ∧ ∀ n < 64, v.getLsbD n = (decide (n < 40) && (u.gAt n).full)) ∧
        (op = 2 → k = 54 → ∃ w, LeavesBoth (.emwin d a b m) s (done 0) q { u with g := w } ∧ ∀ n : Fin 40, (w[n]).val = (u.g[n]).val ∧
          (w[n]).full = if u.holds n then y.getLsbD n else (u.g[n]).full) ∧
        (∀ n : Fin 40, op = 2 → k = n → u.holds n = true → LeavesBoth (.emwin d a b m) s (done 0) q (u.setG n y)) ∧
        (∀ n : Fin 4, op = 2 → k = 44 + n → LeavesBoth (.emwin d a b m) s (done 0) q { u with x := u.x.set n y }) ∧
        (op = 2 → k = 51 → LeavesBoth (.emwin d a b m) s (done 0) q { u with lk := y }) ∧
        (op = 2 → k = 52 → y.toNat % 4 = 0 → LeavesBoth (.emwin d a b m) s (done 0) q { u with pc := y }) ∧
        (op = 2 → k = 53 → y.toNat ≤ 3 → LeavesBoth (.emwin d a b m) s (done 0) q { u with skip := y.toNat }) ∧
        (op = 2 → k = 55 → y.toNat < 32 → LeavesBoth (.emwin d a b m) s (done 0) q { u with fflags := y.setWidth 5 }) ∧
        (op = 3 → LeavesBoth (.emwin d a b m) s (done (statusWord 0)) q { u with emwBy := none })))) ∧
  (∀ (s : State) (t u : Thread) (d a : Reg) (ma : Bool) (x : Word) (q : SlotRef) (h : Halt) (g : Region), Acts s t → s.rdcs = [] →
    readReg s t [] a = .ok x → checkDest s t d = .ok () → bitsOf x 63 40 = 0 →
    (releaseMet s s.cur t = false → exec (.eret d a ma) s = .next (s.parkOn s.cur t .release)) ∧
    (releaseMet s s.cur t = true → Other s x.toNat q u → u.halted = none →
      Leaves (.eret d a ma) s (afterForm t [(ma, a)] 4 d (statusWord 5))) ∧
    (releaseMet s s.cur t = true → Other s x.toNat q u → u.halted = some h → h.imprecise = false → h.page = none → u.world = t.world →
      s.isWithin u.region t.region = true → s.region? u.region = some g → (u.emwBy = none ∨ u.emwBy = some s.cur) →
      (∀ p, d ≠ .port p) →
      LeavesBoth (.eret d a ma) s (afterForm t [(ma, a)] 4 d (statusWord 0)) q
        { u with halted := none, parked := none, emwBy := none, wdog := g.wdog }))

/-- POWER DECLARATIONS (R362): PWRD re-declares its crew's peak when it is at most 65,535 and the sum fits the region's tokens less those that
its children hold, with 0 in d; else it keeps the old declaration, with 1. No running unit is stopped, and nothing else changes. -/
def Obligations.PowerIsRedeclaredWithinTheTokens : Prop :=
  decode [0x38144018] = .ok (.pwrd (.g 5) (.g 4) false, 4) ∧
  (∀ (s : State) (t : Thread) (d a : Reg) (ma : Bool) (x : Word) (g : Region), Acts s t → readReg s t [] a = .ok x → checkDest s t d = .ok () →
      s.region? t.region = some g →
      let sum := (g.roles.map (fun k => if k.role = t.role then x.toNat else k.power)).sum
      let room := g.tokens - ((s.regions.filter (fun k => k.parent = some g.id)).map (fun k => k.tokens)).sum
      (x.toNat ≤ 65535 → sum ≤ room →
        ∃ u, exec (.pwrd d a ma) s = .next u ∧ u.thread? s.cur = some (afterForm t [(ma, a)] 4 d 0) ∧ OthersKeep s u ∧ SameMemory s u ∧
          u.tc = s.tc ∧ u.subs = s.subs ∧ u.gangs = s.gangs ∧
          u.regions = s.regions.map (fun r => if r.id = g.id then
            { r with roles := r.roles.map (fun k => if k.role = t.role then { k with power := x.toNat } else k) } else r)) ∧
      (65535 < x.toNat ∨ room < sum → Leaves (.pwrd d a ma) s (afterForm t [(ma, a)] 4 d 1)))

/-- PLANTED ERRORS, REPLICAS (R382, R436): ERRINJ of world 0 plants an error in a word of local memory, of another world raises PRIV; SEGREP of a
supervisor or world 0 reads how many records a core holding the segment has received, or answers 5 where it holds none.
The model's choice, where a clause rests on it: log entry 36. -/
def Obligations.ErrorsArePlantedAndReplicasCounted : Prop :=
  ∀ (s : State) (t : Thread) (d a b : Reg) (m : Marks) (x y : Word), Acts s t → readReg s t [] a = .ok x → checkDest s t d = .ok () → readReg s t [a] b = .ok y →
    (t.world ≠ 0 → exec (.errinj d a b m) s = .next (takeFault s .priv 0 0 4)) ∧
    (∀ c o, t.world = 0 → bitsOf y 63 9 = 0 → bitsOf y 7 0 = 3 → fabricPlace x = some (c, o) → x.toNat % 8 = 0 →
      ∃ u, exec (.errinj d a b m) s = .next u ∧ u.thread? s.cur = some (afterForm t [(m.a, a), (m.b, b)] 4 d 0) ∧ OthersKeep s u ∧
        SameMemory s u ∧ (locWord c o, if y.getLsbD 8 then 1 else 0) ∈ u.locErr) ∧
    (s.privileged t = false → exec (.segrep d a b m) s = .next (takeFault s .priv 0 0 4)) ∧
    (∀ g k, s.privileged t = true → s.region? t.region = some g → g.segs[bitsOf x 15 0]? = some k → bitsOf x 61 16 = 0 → bitsOf x 63 62 = 0 →
      bitsOf y 63 56 = 0 → bitsOf y 45 23 = 0 → bitsOf y 15 0 = 0 →
      let c := coreIx (bitsOf y 55 52) (bitsOf y 51 46) (bitsOf y 22 16)
      (∀ p, (s.core c).pin = some p → p.region = g.id → p.seg = bitsOf x 15 0 →
        Replies (.segrep d a b m) s t [(m.a, a), (m.b, b)] d (BitVec.ofNat 64 (s.core c).arrived.toNat) (fun _ => True)) ∧
      ((s.core c).pin = none → Replies (.segrep d a b m) s t [(m.a, a), (m.b, b)] d (statusWord 5) (fun _ => True)))

/-- LAUNCH (R118, R339): it reads its record of 64 bytes with the faults of a load, waits for the conditions of a release, and hands
the record to the headgate with its stamp; d is pending until the headgate answers. An address outside global memory raises WIN. -/
def Obligations.LaunchHandsItsRecordToTheHeadgate : Prop :=
  ∀ (s s1 : State) (t : Thread) (d a : Reg) (ma : Bool) (x : Word) (rec0 : List Byte) (p : Place), Acts s t → readReg s t [] a = .ok x →
    checkDest s t d = .ok () →
    (windowOf x ≠ 0 → exec (.launch d a ma) s = .next (takeFault s .win x 0 4)) ∧
    (windowOf x = 0 → (loadChecked s.cur t x 64) s = (.ok (rec0, p), s1) → s1.cur = s.cur → releaseMet s1 s.cur t = true → s1.rdcs = [] →
      ∃ u, exec (.launch d a ma) s = .next u ∧ u.thread? s.cur = some (pendingForm t [(ma, a)] d) ∧
        ∃ q : LaunchReq, u.launches = s1.launches ++ [q] ∧ q.record = rec0 ∧ q.slot = some (s.cur, d) ∧ q.tid = t.id ∧ q.world = t.world ∧
          q.region = t.region ∧ q.stamp = s1.stamp ∧ ({ what := .launchAdmission, arg := {} } : Due) ∈ u.agenda)

/-- NESTED LOOPS (R354, R355): NEST binds the record that it reads. NEXT takes the next index of its chunk, and leaves the index
registers at its target; when the chunk is spent it claims another at the counter: the larger of the minimum and an equal part of what is
left, at most what is left, added to the counter in one visit; when nothing is left it goes on after itself.
The model's choice, where a clause rests on it: log entry 34. -/
def Obligations.NestedLoopsClaimChunks : Prop :=
  ∀ (s : State) (t : Thread), Acts s t →
    (∀ (a : Reg) (ma : Bool) (x : Word) (c : CoreIx) (o : Nat), readReg s t [] a = .ok x → LoadableAt s t x 32 c o →
      localValue s c (o + 16) 4 ≠ 0 → localValue s c (o + 20) 4 ≠ 0 → localValue s c (o + 24) 8 = 0 →
      Leaves (.nest a ma) s (afterMarks { t with nest := some (localNest s c o) } [(ma, a)] 4)) ∧
    (∀ (off : BitVec 24) (k : Nest), t.nest = some k → InCode s t (t.pc + off.signExtend 64 * 4) →
      (k.cur < k.lim → Leaves (.next off) s (afterJump { t with nest := some { k with cur := k.cur + 1 }, x := indexRegs k k.cur } [] t.lk
        (t.pc + off.signExtend 64 * 4))) ∧
      (∀ (c : CoreIx) (o : Nat), k.lim ≤ k.cur → LoadableAt s t k.counter 8 c o → Memory.wf (s.core c).mem = true →
        let old := localValue s c o 8
        let left := k.e0 * k.e1 * k.e2 * k.e3 - old
        let n := min left (max k.minc ((left + k.parts - 1) / k.parts))
        (left = 0 → Leaves (.next off) s (afterMarks t [] 4)) ∧
        (left ≠ 0 → ∃ u, exec (.next off) s = .next u ∧
          u.thread? s.cur = some (afterJump { t with nest := some { k with cur := old + 1, lim := old + n }, x := indexRegs k old } [] t.lk
            (t.pc + off.signExtend 64 * 4)) ∧ OthersKeep s u ∧ u.hbm = s.hbm ∧
          localValue u c o 8 = (old + n) % 2 ^ 64 ∧
          ∀ d a, ¬(d = c ∧ o ≤ a ∧ a < o + 8) → cellGet (u.core d).mem a = cellGet (s.core d).mem a))) ∧
    (∀ off : BitVec 24, t.nest = none → exec (.next off) s = .next (takeFault s .prot 0 0 4))

/-! ### Full/empty words, reservations, visits, fences (R118-R127, R282-R292) -/

/-- MPEEK AND MTAKE (R126, R284-R286): each sends a request to the home of its word, with the stamp of its attempt, and parks. The
earliest request whose word is full is served: the thread retires with the word in its register; MTAKE leaves the word empty; no byte
changes. -/
def Obligations.FullEmptyReadsAreServedAtTheHome : Prop :=
  (∀ (s : State) (t : Thread) (d b : Reg) (disp : BitVec 10) (x : Word) (p : Place), Acts s t → s.rdcs = [] → readReg s t [] b = .ok x →
    checkDest s t d = .ok () → WordAt s t (wordAddr x disp) 8 p → s.buffered s.cur p 8 = false →
    Asks (.mpeek d b disp) s t (requestOf s t p (wordAddr x disp) .peek d) .heldRequestService ∧
    Asks (.mtake d b disp) s t (requestOf s t p (wordAddr x disp) .take d) .heldRequestService) ∧
  (∀ (s : State) (h : HeldReq) (t : Thread) (k : CoreIx) (o : Nat), s.nextHeld = some h → h.kind ≠ .claim → s.thread? h.slot = some t →
    t.id = h.tid → h.place = .loc k o → o % 8 = 0 → Sound s k o 8 →
    ∃ u, exec .heldRequestService s = .next u ∧
      u.thread? h.slot = some (afterForm t [] 4 h.d (BitVec.ofNat 64 (localValue s k o 8))) ∧
      (∀ q, ¬sameSlot q h.slot → u.thread? q = s.thread? q) ∧ SameMemory s u ∧ u.held = s.held.erase h ∧
      u.wordFull h.world h.place = (if h.kind = .take then false else s.wordFull h.world h.place))

/-- MPUT, MFILL, MDRAIN, MSTATE (R118, R284, R285): MPUT without its claim sends for one, which the home grants to the earliest request
whose word is empty and unclaimed; with it, MPUT enters the store buffer as a release, as MFILL does without a claim; MDRAIN enters it; MSTATE
reads the bit. Performed, MPUT and MFILL write the word and fill it, and MDRAIN empties it with its bytes unchanged. -/
def Obligations.FullEmptyStoresFillAndDrain : Prop :=
  (∀ (s : State) (t : Thread) (d b : Reg) (disp : BitVec 10) (x v : Word) (p : Place), Acts s t → s.rdcs = [] → readReg s t [] b = .ok x →
    WordAt s t (wordAddr x disp) 8 p →
    (checkDest s t d = .ok () → s.buffered s.cur p 8 = false → Calm s →
      Leaves (.mstate d b disp) s (afterForm t [] 4 d (if s.wordFull t.world p then 1 else 0))) ∧
    (WordStorable s t p → (s.core s.cur.core).buf.length < 32 → (∀ k o, p = .loc k o → Sound s k o 8) →
      Buffers (.mdrain b disp) s (afterMarks t [] 4) (entryOf s t p (wordAddr x disp) 8 .drain)) ∧
    (WordStorable s t p → readReg s t [b] d = .ok v →
      ((∀ c ∈ s.claims, c.place ≠ p) →
        Asks (.mput d b disp) s t (requestOf s t p (wordAddr x disp) .claim .z) .mputClaimGrant) ∧
      ((s.core s.cur.core).buf.length < 32 → releaseMet s s.cur t = true →
        Buffers (.mfill d b disp) s (afterMarks t [] 4) (entryOf s t p (wordAddr x disp) 8 (.fill v)) ∧
        (({ place := p, slot := s.cur, tid := t.id, used := false } : Claim) ∈ s.claims →
          Buffers (.mput d b disp) s (afterMarks t [] 4) (entryOf s t p (wordAddr x disp) 8 (.put v)))))) ∧
  (∀ (s : State) (h : HeldReq) (t : Thread), s.nextHeld = some h → h.kind = .claim → s.thread? h.slot = some t → t.id = h.tid →
    ∃ u, exec .mputClaimGrant s = .next u ∧ u.claims = s.claims ++ [{ place := h.place, slot := h.slot, tid := h.tid, used := false }] ∧
      u.held = s.held.erase h ∧ u.thread? h.slot = some { t with parked := none } ∧ SameMemory s u) ∧
  (∀ (s : State) (e : BufEntry) (rest : List BufEntry) (k : CoreIx) (o : Nat) (v : Word), AtHead s s.arg.core e rest → e.place = .loc k o →
    o % 8 = 0 → Sound s k o 8 → Memory.wf (s.core k).mem = true → (e.op = .put v ∨ e.op = .fill v ∨ e.op = .drain) →
    ∃ u, exec .storePerformed s = .next u ∧ (u.core s.arg.core).buf = rest ∧
      (e.op = .put v ∨ e.op = .fill v → WroteLocal s u k o (natLe v.toNat 8) ∧ u.wordFull e.world e.place = true) ∧
      (e.op = .drain → SameMemory s u ∧ u.wordFull e.world e.place = false))

/-- READS AND WRITES AT THE HOME OF A LINE (R40, R58, R88). Read: a line of the reader's world that is not poisoned gives its bytes; one whose
world has no live key of its epoch gives zero bytes; one of another live world raises PROT; a poisoned one raises LOST.
Written: bytes of one line of the writer's world take the written values, and no other byte of the module does; a line whose world has no
live key of its epoch becomes the writer's, its other bytes zero; a line of another live world raises PROT, and part of a poisoned line
LOST, with no byte written.
The model's choice, where a clause rests on it: log entry 28. -/
def Obligations.LinesAnswerByTheirWorld : Prop :=
  (∀ (s : State) (w : Who) (pa n : Nat), s.monitors = [] →
    (s.lineCase w.world (lineOf pa) = .other → s.homeRead w pa n = (s, .error .prot)) ∧
    (s.lineCase w.world (lineOf pa) = .fresh → (s.homeRead w pa n).2 = .ok (List.replicate n 0)) ∧
    (s.lineCase w.world (lineOf pa) = .own → (s.tag (lineOf pa)).poison = true → s.homeRead w pa n = (s, .error .lost)) ∧
    (s.lineCase w.world (lineOf pa) = .own → (s.tag (lineOf pa)).poison = false → (s.touchLine (lineOf pa) w.slot false).2 = false →
      (s.homeRead w pa n).2 = .ok (cellsGet s.hbm pa n)) ∧
    (s.lineCase w.world (lineOf pa) = .own → (s.tag (lineOf pa)).poison = false → (s.touchLine (lineOf pa) w.slot false).2 = true →
      (s.homeRead w pa n).2 = .error .lost)) ∧
  (∀ (s : State) (w : Who) (keep : Option CoreIx) (pa : Nat) (data : List Byte), s.monitors = [] → pa % 64 + data.length ≤ 64 →
    Memory.wf s.hbm = true →
    (s.lineCase w.world (lineOf pa) = .other → s.homeWrite w keep pa data = (s, some .prot)) ∧
    (s.lineCase w.world (lineOf pa) = .own → (s.tag (lineOf pa)).poison = true → data.length < 64 →
      (s.homeWrite w keep pa data).2 = some .lost ∧ SameMemory s (s.homeWrite w keep pa data).1) ∧
    (Readable s w.world (lineOf pa) →
      (s.homeWrite w keep pa data).2 = none ∧ (s.homeWrite w keep pa data).1.lineCase w.world (lineOf pa) = .own ∧
      (∀ c a, cellGet ((s.homeWrite w keep pa data).1.core c).mem a = cellGet (s.core c).mem a) ∧
      ∀ a, cellGet (s.homeWrite w keep pa data).1.hbm a = if pa ≤ a ∧ a < pa + data.length then data.getD (a - pa) 0 else cellGet s.hbm a) ∧
    (s.lineCase w.world (lineOf pa) = .fresh → (tget Key.none s.keys w.world).live = true →
      (s.homeWrite w keep pa data).2 = none ∧ (s.homeWrite w keep pa data).1.lineCase w.world (lineOf pa) = .own ∧
      (∀ c a, cellGet ((s.homeWrite w keep pa data).1.core c).mem a = cellGet (s.core c).mem a) ∧
      ∀ a, cellGet (s.homeWrite w keep pa data).1.hbm a = if pa ≤ a ∧ a < pa + data.length then data.getD (a - pa) 0
        else if lineOf pa ≤ a ∧ a < lineOf pa + 64 then 0 else cellGet s.hbm a))

/-- RESERVATIONS (R127, R287, R288): LRW takes a place in the queue of its word's line and parks; its lease starts as it becomes the head of the
queue, and its load is performed there. SCH enters the store buffer as a release, d pending; performed without the reservation it answers 1 and writes
nothing, with it it writes its word, answers 0 and gives the place up. A lease that has run 4,096 cycles ends, unless an SCH stamped in time is under way, and the next place is the head.
The model's choice, where a clause rests on it: log entry 40. -/
def Obligations.ReservationsQueueAtTheirLine : Prop :=
  (∀ (s : State) (t : Thread) (d b : Reg) (disp : BitVec 10) (x : Word) (pa : Nat), Acts s t → readReg s t [] b = .ok x →
    checkDest s t d = .ok () → WordAt s t (wordAddr x disp) 8 (.glob pa) → s.buffered s.cur (.glob pa) 8 = false →
    (∀ p ∈ s.lrws, ∀ q ∈ p.2, q.tid ≠ t.id) → s.lrwPlaces (s.sliceNo (lineOf pa)) < 1024 →
    ∃ u, exec (.lrw d b disp) s = .next u ∧ u.thread? s.cur = some { t with parked := some .held } ∧ OthersKeep s u ∧ SameMemory s u ∧
      ({ slot := s.cur, tid := t.id, va := wordAddr x disp, pa := pa, d := d, stamp := s.stamp,
         head := if tget [] s.lrws (lineOf pa) = [] then some s.tc else none, loaded := false } : LrwPlace) ∈ tget [] u.lrws (lineOf pa)) ∧
  (∀ (s : State) (t : Thread) (d b : Reg) (disp : BitVec 10) (x : Word), Acts s t → readReg s t [] b = .ok x → checkDest s t d = .ok () →
    windowOf (wordAddr x disp) ≠ 0 → exec (.lrw d b disp) s = .next (takeFault s .win (wordAddr x disp) 0 4)) ∧
  (∀ (s : State) (t : Thread) (x : LrwPlace) (rest : List LrwPlace), s.arg.n < 2 ^ 42 → tget [] s.lrws s.arg.n = x :: rest → x.loaded = false →
    s.thread? x.slot = some t → t.id = x.tid → checkDest { s with cur := x.slot } t x.d = .ok () → Calm s →
    s.rdcs = [] → Readable s t.world (lineOf x.pa) → lineOf x.pa = s.arg.n →
    ∃ u, exec .lrwHead s = .next u ∧ u.thread? x.slot = some (afterForm t [] 4 x.d (BitVec.ofNat 64 (leNat (cellsGet s.hbm x.pa 8)))) ∧
      tget [] u.lrws s.arg.n = { x with head := some (x.head.getD s.tc), loaded := true } :: rest ∧ SameMemory s u) ∧
  (∀ (s : State) (t : Thread) (d a b : Reg) (m : Marks) (x y : Word) (p : Place), Acts s t → s.rdcs = [] → readReg s t [] a = .ok x →
    readReg s t [a] b = .ok y → checkDest s t d = .ok () → windowOf x = 0 → WordAt s t x 8 p → WordStorable s t p →
    (s.core s.cur.core).buf.length < 32 → releaseMet s s.cur t = true →
    Buffers (.sch d a b m) s (pendingForm t [(m.a, a), (m.b, b)] d) (entryOf s t p x 8 (.sch y d))) ∧
  (∀ (s : State) (e : BufEntry) (rest : List BufEntry) (pa : Nat) (v : Word) (d : Reg), AtHead s s.arg.core e rest → e.place = .glob pa →
    Calm s → e.op = .sch v d → s.holdsLine e.tid (lineOf pa) e.stamp = false →
    ∃ u, exec .storePerformed s = .next u ∧ SameMemory s u ∧ Filling u s.arg.core e.slot e.tid d 1) ∧
  (∀ (s : State) (e : BufEntry) (rest : List BufEntry) (pa : Nat) (v : Word) (d : Reg), AtHead s s.arg.core e rest → e.place = .glob pa →
    Calm s → e.op = .sch v d → pa % 64 ≤ 56 → s.rdcs = [] → Memory.wf s.hbm = true →
    Readable s e.world (lineOf pa) → s.holdsLine e.tid (lineOf pa) e.stamp = true →
    ∃ u, exec .storePerformed s = .next u ∧ Filling u s.arg.core e.slot e.tid d 0 ∧
      tget [] u.lrws (lineOf pa) = startLease s.tc (tget [] s.lrws (lineOf pa)).tail ∧
      ∀ a, cellGet u.hbm a = if pa ≤ a ∧ a < pa + 8 then (natLe v.toNat 8).getD (a - pa) 0 else cellGet s.hbm a) ∧
  (∀ (s : State) (q : LrwPlace) (rest : List LrwPlace) (h : Nat), tget [] s.lrws s.arg.n = q :: rest → q.head = some h →
    (h + 4096 ≤ s.tc → s.schUnderWay s.arg.n q = false →
      ∃ u, exec .leaseEnd s = .next u ∧ tget [] u.lrws s.arg.n = startLease s.tc rest ∧ SameMemory s u) ∧
    (s.tc < h + 4096 ∨ s.schUnderWay s.arg.n q = true → exec .leaseEnd s = .next s))

/-- VISITS (R124, R289-R291): each AMO and CAS enters the store buffer with its operands, d pending; RUPD leaves the slot with a thread of its
own, which the spillway of its home core performs on a turn of the slot number it was issued from. At the word's home, one visit reads the word,
writes what its operation makes of it, and sends the old word to d; CAS writes only where the old word equals its comparand. A result that
comes to a register that awaits it fills it; one whose block was released first is discarded (R184).
The model's choice, where a clause rests on it: log entries 2, 40. -/
def Obligations.VisitsUpdateTheirWord : Prop :=
  (∀ (s : State) (t : Thread) (d a b : Reg) (m : Marks) (x y z : Word) (p : Place), Acts s t → readReg s t [] a = .ok x →
    readReg s t [a] b = .ok y → (s.core s.cur.core).buf.length < 32 →
    (checkDest s t d = .ok () →
      (∀ f ∈ visitOps, WordAt s t x 8 p →
        Buffers (f.1 d a b m) s (pendingForm t [(m.a, a), (m.b, b)] d) (entryOf s t p x 8 (.amo f.2.1 y d))) ∧
      (WordAt s t x 4 p → Buffers (.amoFadd d a b m) s (pendingForm t [(m.a, a), (m.b, b)] d) (entryOf s t p x 4 (.amo .fadd y d))) ∧
      (readReg s t [a, b] d = .ok z → WordAt s t x 8 p →
        Buffers (.cas d a b m) s (pendingForm t [(m.a, a), (m.b, b)] d) (entryOf s t p x 8 (.cas z y d)))) ∧
    (∀ op, s.rdcs = [] → WordAt s t x (if op = .fadd then 4 else 8) p →
      ∃ u, exec (.rupd op a b m) s = .next u ∧ u.thread? s.cur = some (afterMarks t [(m.a, a), (m.b, b)] 4) ∧ OthersKeep s u ∧ SameMemory s u ∧
        u.rupds = s.rupds ++ [
          { slot := s.cur, tid := t.id, world := t.world, region := t.region, place := p, va := x, op := op, value := y, stamp := s.stamp,
            due := s.tc + Config.engineDelay s.seq }])) ∧
  (∀ (s : State) (e : BufEntry) (rest : List BufEntry) (k : CoreIx) (o : Nat) (d : Reg) (v z : Word), AtHead s s.arg.core e rest →
    e.place = .loc k o → Sound s k o 8 → Memory.wf (s.core k).mem = true → e.n = 8 →
    let old := BitVec.ofNat 64 (localValue s k o 8)
    (∀ f ∈ visitOps, e.op = .amo f.2.1 v d →
      ∃ u, exec .visit s = .next u ∧ WroteLocal s u k o (natLe (f.2.2 old v).toNat 8) ∧ Filling u s.arg.core e.slot e.tid d old) ∧
    (e.op = .cas z v d →
      ∃ u, exec .visit s = .next u ∧ (if old = z then WroteLocal s u k o (natLe v.toNat 8) else SameMemory s u) ∧
        Filling u s.arg.core e.slot e.tid d old)) ∧
  (∀ (s : State) (r : Rupd) (k : CoreIx) (o : Nat), s.rupds = [r] → r.place = .loc k o → k = s.arg.core →
    r.slot.slot % 16 = s.arg.slot % 16 → r.due ≤ s.tc → Sound s k o 8 → Memory.wf (s.core k).mem = true →
    ∀ f ∈ visitOps, r.op = f.2.1 →
      ∃ u, exec .remoteUpdate s = .next u ∧ u.rupds = [] ∧
        WroteLocal s u k o (natLe (f.2.2 (BitVec.ofNat 64 (localValue s k o 8)) r.value).toNat 8)) ∧
  (∀ (s : State) (t : Thread) (f : Fill) (n : Fin 40), (s.core s.arg.core).fills = [f] →
    s.thread? { core := s.arg.core, slot := f.slot } = some t → t.id = f.tid → f.reg = .g n → f.poke = false → f.after = none →
    (n.val ∉ t.stale → t.holds n = true → (t.g[n]).pending = true →
      ∃ u, exec .remoteFill s = .next u ∧ u.thread? { core := s.arg.core, slot := f.slot } = some ((t.setG n f.value).orFlags f.flags) ∧
        (u.core s.arg.core).fills = [] ∧ SameMemory s u) ∧
    (n.val ∈ t.stale → ∃ u, exec .remoteFill s = .next u ∧
      u.thread? { core := s.arg.core, slot := f.slot } = some ({ t with stale := t.stale.erase n.val }.orFlags f.flags) ∧
      (u.core s.arg.core).fills = [] ∧ SameMemory s u))

/-- FENCES (R115, R118, R119, R292): every fence waits for the slot's compute queue, FENCE.ACQ for its older visits, FENCE.FULL for the conditions
of a release; then it retires. FENCE.REL retires at once and does not hold back younger accesses: its release stands beside the slot, an access
of its thread that bears a later stamp is not performed before the conditions hold, and then the release is over.
The model's choice, where a clause rests on it: log entry 56. -/
def Obligations.FencesWaitForTheirConditions : Prop :=
  (∀ (s : State) (t : Thread) (sc : Scope), Acts s t → s.rdcs = [] →
    (t.cq ≠ [] → ∀ f ∈ [Instr.fenceAcq sc, Instr.fenceRel sc, Instr.fenceFull sc], exec f s = .next (s.parkOn s.cur t .computeQueue)) ∧
    (t.cq = [] → (∀ e ∈ (s.core s.cur.core).buf, e.slot = s.cur.slot → e.isVisit = false) → Leaves (.fenceAcq sc) s (afterMarks t [] 4)) ∧
    (t.cq = [] → (∃ e ∈ (s.core s.cur.core).buf, e.slot = s.cur.slot ∧ e.isVisit = true) →
      exec (.fenceAcq sc) s = .next (s.parkOn s.cur t .visits)) ∧
    (t.cq = [] → ∃ u, exec (.fenceRel sc) s = .next u ∧ u.thread? s.cur = some (afterMarks t [] 4) ∧ OthersKeep s u ∧ SameMemory s u ∧
      (u.core s.cur.core).releases = (s.core s.cur.core).releases ++
        [{ slot := s.cur.slot, tid := t.id, world := t.world, region := t.region, wide := Scope.wide sc, stamp := s.stamp }]) ∧
    (t.cq = [] → releaseMet s s.cur t = true → Leaves (.fenceFull sc) s (afterMarks t [] 4)) ∧
    (t.cq = [] → releaseMet s s.cur t = false → exec (.fenceFull sc) s = .next (s.parkOn s.cur t .release))) ∧
  (∀ (s : State) (x : Release), (s.core s.arg.core).releases = [x] → s.rdcs = [] →
    (s.olderDone { core := s.arg.core, slot := x.slot } x.stamp = true → (s.core s.arg.core).buf = [] →
      ∃ u, exec .storePerformed s = .next u ∧ (u.core s.arg.core).releases = [] ∧ SameMemory s u ∧ ∀ q, u.thread? q = s.thread? q) ∧
    (∀ e rest, s.olderDone { core := s.arg.core, slot := x.slot } x.stamp = false → (s.core s.arg.core).buf = e :: rest → e.tid = x.tid →
      x.stamp.before e.stamp = true → exec .storePerformed s = .next s))

/-! ### Handles and sluices -/

/-- HANDLES (R142-R144, R298-R300): HSET binds word 0 and sets both indices to 0, or raises WIN; HADV moves C on by the count, HCOM P, as a
release; more than the ring allows raises PROT and moves no index; HWAIT and HROOM go on when the filled or free slots suffice, else park; HGET reads
a word.
The model's choice, where a clause rests on it: log entry 41. -/
def Obligations.HandlesMoveByTheirForms : Prop :=
  ∀ (s : State) (t : Thread) (h : Fin 8) (d a : Reg) (ma : Bool) (x : Word), Acts s t → (∀ e ∈ t.cq, e.names h = false) → readReg s t [] a = .ok x →
    let k := t.handles[h]
    (BindingGood x → Unsubscribed s h →
      Leaves (.hset h a ma) s (afterMarks { withHandle t h { w0 := x &&& 0xFFFFFFFF1FFFFFFF, w1 := 0 } with
        farHandles := t.farHandles &&& ~~~(BitVec.ofNat 8 (2 ^ h.val)) } [(ma, a)] 4)) ∧
    (¬BindingGood x → exec (.hset h a ma) s = .next (takeFault s .win x 0 4)) ∧
    (ringCount k ≠ 0 →
      (bitOf k.w0 29 = false → x.toNat ≤ ringFilled k →
        Leaves (.hadv h a ma) s (afterMarks (withHandle t h (ringAt k (ringProd k) (ringCons k + x.toNat))) [(ma, a)] 4)) ∧
      (bitOf k.w0 29 = false → ringFilled k < x.toNat → exec (.hadv h a ma) s = .next (takeFault s .prot k.w0 0 4)) ∧
      (bitOf k.w0 30 = false → x.toNat ≤ ringCount k - ringFilled k → Released s t →
        Leaves (.hcom h a ma) s (afterMarks (withHandle t h (ringAt k (ringProd k + x.toNat) (ringCons k))) [(ma, a)] 4)) ∧
      (bitOf k.w0 30 = false → ringCount k - ringFilled k < x.toNat → exec (.hcom h a ma) s = .next (takeFault s .prot k.w0 0 4)) ∧
      (bitOf k.w0 31 = false → x.toNat ≤ ringCount k →
        (x.toNat ≤ ringFilled k → s.rdcs = [] → Leaves (.hwait h a ma) s (afterMarks t [(ma, a)] 4)) ∧
        (ringFilled k < x.toNat → exec (.hwait h a ma) s = .next (s.setThread s.cur { t with parked := some (.handleFilled h x.toNat) }))) ∧
      (x.toNat ≤ ringCount k →
        (x.toNat ≤ ringCount k - ringFilled k → Leaves (.hroom h a ma) s (afterMarks t [(ma, a)] 4)) ∧
        (ringCount k - ringFilled k < x.toNat → exec (.hroom h a ma) s = .next (s.setThread s.cur { t with parked := some (.handleRoom h x.toNat) })))) ∧
    (ringCount k = 0 → exec (.hadv h a ma) s = .next (takeFault s .win k.w0 0 4) ∧ exec (.hcom h a ma) s = .next (takeFault s .win k.w0 0 4) ∧
      exec (.hwait h a ma) s = .next (takeFault s .win k.w0 0 4) ∧ exec (.hroom h a ma) s = .next (takeFault s .win k.w0 0 4)) ∧
    (checkDest s t d = .ok () → Leaves (.hget d h 0) s (afterForm t [] 4 d k.w0) ∧ Leaves (.hget d h 1) s (afterForm t [] 4 d k.w1))

/-- SLUICES (R60-R62, R120, R293, R295): POP takes the oldest word of an inbound sluice, and its register is empty until the word comes (R182), or parks; PUSH adds a word to the record that its outlet assembles, and
with the record's last word seals it, as a release. WAITT goes on when its promise is past and its copy has ended, sleeps until it is past, and
raises PROMISE where the copy has not ended then; PROMISE_TIME wakes it.
The model's choice, where a clause rests on it: log entries 39, 56. -/
def Obligations.SluicesMoveTheirWords : Prop :=
  (∀ (s : State) (t : Thread) (g : Fin 40) (q : Fin 8), Acts s t → s.rdcs = [] → q ∈ [1, 3, 5, 6] → checkDest s t (.g g) = .ok () →
    (∀ w rest, t.sluices.inbound q = w :: rest →
      Replies (.pop g q) s { t with sluices := t.sluices.pop q } [] (.g g) w (fun _ => (t.sluices.pop q).inbound q = rest)) ∧
    (t.sluices.inbound q = [] → exec (.pop g q) s = .next (s.setThread s.cur { t with parked := some (.sluiceEmpty q) }))) ∧
  (∀ (s : State) (t : Thread) (g : Fin 40) (q : Fin 8) (v : Word) (before : List Word), Acts s t → q ∈ [0, 2, 4, 7] → readReg s t [] (.g g) = .ok v →
    (t.sluices.outlet q).full = false → before = (match (t.sluices.outlet q).shadow with | some x => x.words | none => []) →
    let words := before ++ [v]
    (words.length ≠ bitsOf (words.headD 0) 63 62 + 1 →
      Leaves (.push g q) s (afterMarks { t with sluices := t.sluices.setOutlet q { t.sluices.outlet q with shadow := some { words := words, sealed := none } } } [] 4)) ∧
    (words.length = bitsOf (words.headD 0) 63 62 + 1 → (q = 7 → messageBad t (words.headD 0) = false) → (q = 4 → Still s) →
      ∃ ev, Seals (.push g q) s t q words none (fun t => afterMarks t [] 4) ev)) ∧
  (∀ (s : State) (t : Thread) (a : Reg) (ma : Bool) (x : Word) (i p : Nat), Acts s t → s.rdcs = [] → readReg s t [] a = .ok x → bitsOf x 63 56 = i →
    bitsOf x 55 0 = p → (i = 0xFF ∨ i < 64 ∧ i / 4 ∈ s.polderSlots t.polder) →
    (s.tc < p → exec (.waitt a ma) s = .next (s.setThread s.cur { t with parked := some (.promise p) })) ∧
    (p ≤ s.tc → (i = 0xFF ∨ ∀ j, (tokenAt s s.cur.core i).job = some j → j.promise = p → j.ended.isSome) → Leaves (.waitt a ma) s (afterMarks t [(ma, a)] 4)) ∧
    (∀ j, p ≤ s.tc → i ≠ 0xFF → (tokenAt s s.cur.core i).job = some j → j.promise = p → j.ended = none →
      exec (.waitt a ma) s = .next (takeFault s .promise 0 0 4))) ∧
  (∀ (s : State) (t : Thread) (r : SlotRef) (a : Reg) (ma : Bool) (x : Word) (n len : Nat), r = { core := s.arg.core, slot := s.arg.slot } →
    s.thread? r = some t → t.parked = some (.promise n) → fetch s r t = .ok (.waitt a ma, len) → (∀ p, a ≠ .port p) → a ≠ .tc → a ≠ .id →
    readReg s t [] a = .ok x → bitsOf x 63 56 = 0xFF → bitsOf x 55 0 ≤ s.tc → s.rdcs = [] →
    ∃ u, exec .promiseTime s = .next u ∧ u.thread? r = some (afterMarks t [(ma, a)] 4) ∧ SameMemory s u)

/-- FORMS THAT SEAL A COMMAND RECORD (R62, R65, R77, R118, R121, R294, R296): CPY, CPY.HDL and CPY.TAG put a copy record into q0, with d to await the
promise; PSUB, PRET and PCAN put a subscription record into q2; each record bears the stamp of its seal, by which its engine waits for what the
slot did before (R76).
The model's choice, where a clause rests on it: log entry 56. -/
def Obligations.CommandFormsSealTheirRecords : Prop :=
  ∀ (s : State) (t : Thread) (d a b : Reg) (m : Marks) (ma : Bool) (x y z : Word), Acts s t → readReg s t [] a = .ok x →
    (readReg s t [a] b = .ok y → readReg s t [a, b] d = .ok z → checkDest s t d = .ok () → OutletFree t 0 →
      let done (t : Thread) : Thread := pendingForm t [(m.a, a), (m.b, b)] d
      (bitsOf z 63 32 = 0 →
        Seals (.cpy d a b m) s t 0 [copyHeader 0 0 0 (bitsOf z 31 0), x, y] (some d) done .copyAccept ∧
        Seals (.cpyHdl d a b m) s t 0 [copyHeader 1 0 0 (bitsOf z 31 0), x, y] (some d) done .copyAccept) ∧
      (bitsOf z 63 36 = 0 →
        Seals (.cpyTag d a b m) s t 0 [copyHeader 2 (bitsOf z 34 32) (bitsOf z 35 35) (bitsOf z 31 0), x, y] (some d) done .copyAccept)) ∧
    (bitsOf x 63 56 = 0 → OutletFree t 2 →
      (readReg s t [a] b = .ok y → readReg s t [a, b] d = .ok z →
        let done (t : Thread) : Thread := afterMarks t [(m.a, a), (m.b, b)] 4
        Seals (.psub d a b m) s t 2 [x ||| 0x8000000000000000, y, z] none done .loaderSubscription ∧
        Seals (.pret d a b m) s t 2 [x ||| 0x8100000000000000, y, z] none done .storerSubscription) ∧
      (readReg s t [a] d = .ok z →
        Seals (.pcan d a ma) s t 2 [x ||| 0x8200000000000000, 0, z] none (fun t => afterMarks t [(ma, a)] 4) .cancelRecord))

/-! ### Copies -/

/-- THE COPY ENGINE (R65, R67, R69-R74): a record with a zero field set is refused with status 2 in q1; an address copy with both ends in local memory of the
cluster takes the polder's lowest free token, the horizon moves on by its share of the wheel, and the promise is 24 cycles later; a chunk of a running copy
moves its bytes, and the last one ends the copy with status 0; the completion of an ended copy enters q1 and frees the token.
The model's choice, where a clause rests on it: log entries 14, 15, 39, 53. -/
def Obligations.TheCopyEngineMovesBytes : Prop :=
  (∀ (s : State) (c : CoreIx) (r : SlotRef) (t : Thread) (x : Record), s.arg.core = c → OnlyRecord s c 0 r t x → x.refused = none → t.sluices.q1.length < 16 →
    copyHeaderBad (x.words.headD 0) = true →
    ∃ u, exec .copyAccept s = .next u ∧ u.thread? r = some (tookCopy t [completionWord 0xFF 2 0]) ∧ SameMemory s u) ∧
  (∀ (s : State) (c : CoreIx) (r : SlotRef) (t : Thread) (x : Record) (w1 w2 : Word) (n i k1 o1 k2 o2 : Nat), s.arg.core = c → OnlyRecord s c 0 r t x → x.refused = none →
    x.words = [copyHeader 0 0 0 n, w1, w2] → 0 < n → n < 2 ^ 32 → EngineLocal s c r.slot t.world w1 1 k1 o1 → EngineLocal s c r.slot t.world w2 1 k2 o2 →
    s.freeToken c t.polder = some i →
    let k := (s.polderSlots t.polder).length
    let h := max (s.tc + 4) (tget 0 (s.core c).horizon t.polder) + (n + 4 * k - 1) / (4 * k)
    ∃ u j, exec .copyAccept s = .next u ∧ u.thread? r = some (tookCopy t []) ∧ SameMemory s u ∧
      tokenAt u c i = { taken := true, promise := h + 24, job := some j, past := (tokenAt s c i).history } ∧ tget 0 (u.core c).horizon t.polder = h ∧
      j.dst = w1 ∧ j.src = w2 ∧ j.length = n ∧ j.moved = 0 ∧ j.ended = none ∧ j.tid = t.id ∧ j.promise = h + 24 ∧
      ({ what := .copyChunk, arg := { core := c } } : Due) ∈ u.agenda ∧
      ∀ d, x.d = some d → Filling u c r.slot t.id d (BitVec.ofNat 64 (i * 2 ^ 56 + (h + 24) % 2 ^ 56))) ∧
  (∀ (s : State) (c : CoreIx) (i : Nat) (j : CopyJob) (n k1 o1 k2 o2 : Nat), s.arg.core = c → runningCopies (s.core c) = [(i, j)] →
    (tokenAt s c i).taken = true → (tokenAt s c i).job = some j → j.code = 0 → j.ended = none → j.moved < j.length → n = min 4096 (j.length - j.moved) →
    EngineLocal s c j.slot j.world (j.src + BitVec.ofNat 64 j.moved) n k1 o1 → EngineLocal s c j.slot j.world (j.dst + BitVec.ofNat 64 j.moved) n k2 o2 →
    Sound s k1 o1 n → Sound s k2 o2 n → Memory.wf (s.core k2).mem = true →
    ∃ u j', exec .copyChunk s = .next u ∧ WroteLocal s u k2 o2 ((List.range n).map (fun b => cellGet (s.core k1).mem (o1 + b))) ∧
      tokenAt u c i = { tokenAt s c i with job := some j' } ∧ j'.moved = j.moved + n ∧ j'.length = j.length ∧
      j'.ended = (if j.moved + n = j.length then some 0 else none) ∧ ∀ q, u.thread? q = s.thread? q) ∧
  (∀ (s : State) (c : CoreIx) (i st : Nat) (j : CopyJob) (t : Thread), s.arg.core = c → endedCopies (s.core c) = [(i, j, st)] →
    s.thread? { core := c, slot := j.slot } = some t → t.id = j.tid → t.sluices.q1.length < 16 →
    ∃ u, exec .q1CompletionEntry s = .next u ∧ SameMemory s u ∧ (tokenAt u c i).taken = false ∧
      u.thread? { core := c, slot := j.slot } = some { t with sluices := t.sluices.post 1 [completionWord i st j.moved] j.wide })

/-! ### Pumps and reduction servers -/

/-- THE PUMPS (R77-R84, R296, R297): a subscription record whose descriptor is good, on a bound handle of a thread of its world whose tile size it matches, becomes
a live subscription with the descriptor's fields and sets the handle's flag; a cancel record stops a live one; a loader tile places its bytes in the ring's next free
slot and advances P; a storer tile writes the ring's oldest slot to its rows and advances C.
The model's choice, where a clause rests on it: log entries 14, 39, 50, 53. -/
def Obligations.PumpsMoveTheirTiles : Prop :=
  (∀ (s s1 s2 : State) (r : SlotRef) (t tt : Thread) (x : Record) (w0 w1 w2 : Word) (target : CoreIx) (l : List (Place × Nat)) (b : List Byte) (u : Subscription),
    OnlySubRecord s r t x w0 w1 w2 → Still s → s.rdcs = [] → bitsOf w0 61 56 < 2 → fabricPlace w2 = some (target, 0) → windowOf w1 = 0 → w1.toNat % 16 = 0 →
    s.engineSpan r.core r.slot t.world w1 48 true false = (s1, .ok l) → (∀ p ∈ l, isDevice p.1 = false) →
    s1.engineRead (engineWho (sourceNo 1 (coreIx (dieOf r.core) (clusterOf r.core % 64) 127) 3) t.world t.region r.slot w1) l = (s2, .ok b) →
    descriptorBad b = false → s2.thread? r = some t → s2.thread? { core := target, slot := r.slot } = some tt → tt.world = t.world →
    u = { subOf r t x.words target b with wide := s.subWide r t x.words } →
    shapeBad u tt.handles[u.handle] = false → (∀ v ∈ s.subs, ¬(v.target = target ∧ v.slot.slot = r.slot ∧ v.handle = u.handle)) → s2.heavyRoom t.region = true →
    ∃ v t1 t2, exec (if bitsOf w0 61 56 = 0 then .loaderSubscription else .storerSubscription) s = .next v ∧ v.subs = s2.subs ++ [u] ∧
      v.thread? r = some t1 ∧ t1.sluices.q2 = t.sluices.q2.take ∧ v.thread? { core := target, slot := r.slot } = some t2 ∧
      (t2.handles[u.handle]).w0 = (tt.handles[u.handle]).w0 ||| (if bitsOf w0 61 56 = 0 then 0x40000000 else 0x20000000) ∧
      ({ what := if bitsOf w0 61 56 = 0 then .loaderTile else .storerTile, arg := {} } : Due) ∈ v.agenda) ∧
  (∀ (s : State) (r : SlotRef) (t : Thread) (x : Record) (w0 w1 w2 : Word) (target : CoreIx) (u : Subscription), OnlySubRecord s r t x w0 w1 w2 → s.rdcs = [] →
    bitsOf w0 61 56 = 2 →
    fabricPlace w2 = some (target, 0) → s.subs = [u] → u.target = target → u.slot.slot = r.slot → u.handle.val = bitsOf w0 50 48 → u.ended = none →
    ∃ v, exec .cancelRecord s = .next v ∧ v.subs = [{ u with cancel := true }] ∧ v.thread? r = some { t with sluices := { t.sluices with q2 := t.sluices.q2.take } }) ∧
  (∀ (s s1 s2 : State) (u : Subscription) (k : Handle) (l : List (Place × Nat)) (b : List Byte), LiveSub s u k → u.loader = true → u.format = 0 →
    s.arg.n = 0 → Still s → ringFilled k < ringCount k → tileDike s u (ringOffset k u.moved) = true → 0 < u.rbytes * u.rows →
    partSpans { s with seq := s.seq + 1 } u (u.parts u.moved true false) true false = (s1, .ok l) →
    s1.engineRead (u.who s1) l = (s2, .ok b) → b.length = u.rbytes * u.rows → tileDike s2 u (ringOffset k u.moved) = true →
    Sound s2 u.target (ringOffset k u.moved) (u.rbytes * u.rows) → Memory.wf (s2.core u.target).mem = true → u.moved + 1 < u.count →
    ∃ v, exec .loaderTile s = .next v ∧ WroteLocal s2 v u.target (ringOffset k u.moved) b ∧
      v.thread? u.at = (s2.thread? u.at).map (fun t => withHandle t u.handle (ringAt t.handles[u.handle] (ringProd t.handles[u.handle] + 1) (ringCons t.handles[u.handle]))) ∧
      v.subs = s2.subs.map (fun v => if v = u then nextTile u else v)) ∧
  (∀ (s s1 s3 : State) (u : Subscription) (k : Handle) (l : List (Place × Nat)), LiveSub s u k → u.loader = false → u.format = 0 →
    Still s → 0 < ringFilled k → tileDike s u (ringOffset k (ringCons k)) = true → 0 < u.rbytes * u.rows →
    partSpans { s with seq := s.seq + 1 } u (u.parts u.moved true false) false true = (s1, .ok l) →
    Sound s1 u.target (ringOffset k (ringCons k)) (u.rbytes * u.rows) →
    (s1.rouse u.target).engineWrite (u.who (s1.rouse u.target)) u.slot.core u.slot.slot u.tid l
      ((List.range (u.rbytes * u.rows)).map (fun i => cellGet (s1.core u.target).mem (ringOffset k (ringCons k) + i))) = (s3, none) → u.moved + 1 < u.count →
    ∃ v, exec .storerTile s = .next v ∧ SameMemory s3 v ∧
      v.thread? u.at = (s3.thread? u.at).map (fun t => withHandle t u.handle (ringAt t.handles[u.handle] (ringProd t.handles[u.handle]) (ringCons t.handles[u.handle] + 1))) ∧
      v.subs = s3.subs.map (fun v => if v = u then nextTile u else v))

/-- REDUCTION SERVERS AND q6 (R301-R303, R416): a message for a tree of the slot opens a round with its fan-in, or joins the open one; the last child's message at the root
closes the round, whose total, in the order of the children, waits for q6 under child index 0xFF. A group of words enters q6 when there is room for all of them.
The model's choice, where a clause rests on it: log entries 18, 32. -/
def Obligations.RoundsCloseWithTheirTotal : Prop :=
  (∀ (s : State) (c : CoreIx) (m : RedMsg) (t : Thread), s.arg.core = c → (s.core c).link = [m] → (∀ q ∈ (s.core c).rounds, q.slot ≠ m.slot ∧ s.canForward q = false) →
    s.thread? { core := c, slot := m.slot } = some t → 2 ≤ bitsOf t.tree 61 57 →
    ∃ u q, exec .reductionMessage s = .next u ∧ (u.core c).link = [] ∧ (u.core c).rounds = (s.core c).rounds ++ [q] ∧ q.slot = m.slot ∧ q.tag = m.tag ∧ q.op = m.op ∧
      q.tree = t.tree ∧ q.joined = [(m.child, m.value)] ∧ SameMemory s u ∧ ∀ r, u.thread? r = s.thread? r) ∧
  (∀ (s : State) (c : CoreIx) (m : RedMsg) (q : Round), s.arg.core = c → (s.core c).link = [m] → (s.core c).rounds = [q] → q.slot = m.slot → q.tag = m.tag → q.op = m.op →
    q.world = m.world → (∀ p ∈ q.joined, p.1 ≠ m.child) → q.joined.length + 1 = bitsOf q.tree 61 57 → bitOf q.tree 51 = true →
    ∃ u g, exec .reductionMessage s = .next u ∧ (u.core c).link = [] ∧ g ∈ (u.core c).q6wait ∧ g.slot = m.slot ∧
      g.words = [redHeader q.op q.tag 0xFF, ({ q with joined := q.joined ++ [(m.child, m.value)] } : Round).total] ∧
      ({ what := .q6Entry, arg := { core := c, slot := m.slot } } : Due) ∈ u.agenda) ∧
  (∀ (s : State) (r : SlotRef) (t : Thread) (g : Q6Group), r = { core := s.arg.core, slot := s.arg.slot } → (s.core r.core).q6wait = [g] → g.slot = r.slot →
    s.thread? r = some t → bitsOf (g.words.headD 0) 39 32 ≠ 0xFF → t.sluices.q6.length + g.words.length ≤ 32 →
    ∃ u, exec .q6Entry s = .next u ∧ u.thread? r = some { t with sluices := { t.sluices with q6 := t.sluices.q6 ++ g.words } } ∧ (u.core r.core).q6wait = [] ∧
      SameMemory s u ∧ ∀ p, ¬sameSlot p r → u.thread? p = s.thread? p)

/-! ### Threads, tasks, storage, weirs (R340-R353, R356-R360) -/

/-- SPAWN AND TASKS (R340-R343, R346-R348): SPAWN sends its record to the target core, which holds g4-g7, the entry and who waits for the reply, and
counts as a live thread; or its d gets PLACE, BUDGET or FULL and nothing else changes. SPAWNQ sends a task to the dispatcher of the named cluster, or
gets PLACE. A task enters the bank that the generator chooses; where that is full, the spill area; where that is full too, it gets FULL. A
dispatcher with one task that can start starts it, as a spawned thread, in a free slot of its polder.
The model's choice, where a clause rests on it: log entries 18, 33, 54. -/
def Obligations.SpawnsAndTasksStartThreads : Prop :=
  (∀ (s : State) (t : Thread) (g : Region) (k : RoleInfo) (d a b : Reg) (m : Marks) (x y v4 v5 v6 v7 : Word), Acts s t → Released s t →
    readReg s t [] a = .ok x → readReg s t [a] b = .ok y → readReg s t [] (.g 4) = .ok v4 → readReg s t [] (.g 5) = .ok v5 →
    readReg s t [] (.g 6) = .ok v6 → readReg s t [] (.g 7) = .ok v7 → checkDest s t d = .ok () → s.region? t.region = some g →
    g.role? t.role = some k →
    (∀ c, ¬(SpawnTarget x c ∧ Hosts s g t.role c ∧ y.toNat % 4 = 0 ∧ y.toNat < k.len) → c = coreIx (bitsOf x 55 52) (bitsOf x 51 46) (bitsOf x 22 16) →
      Replies (.spawn d a b m) s t [(m.a, a), (m.b, b)] d (statusWord 2) (fun _ => True)) ∧
    (∀ c, SpawnTarget x c → Hosts s g t.role c → y.toNat % 4 = 0 → y.toNat < k.len →
      (s.slotsOf g ≤ s.liveThreads g.id → Replies (.spawn d a b m) s t [(m.a, a), (m.b, b)] d (statusWord 1) (fun _ => True)) ∧
      (s.liveThreads g.id < s.slotsOf g → s.canSend g c t.polder = false →
        Replies (.spawn d a b m) s t [(m.a, a), (m.b, b)] d (statusWord 3) (fun _ => True)) ∧
      (s.liveThreads g.id < s.slotsOf g → s.canSend g c t.polder = true →
        ∃ u, exec (.spawn d a b m) s = .next u ∧ u.thread? s.cur = some (pendingForm t [(m.a, a), (m.b, b)] d) ∧ OthersKeep s u ∧ SameMemory s u ∧
          u.flights = s.flights ++ [(c,
            { spawn := true, tid := t.id, world := t.world, polder := t.polder, region := t.region, role := t.role, skip := 0, blocks := 0, pc := y,
              lk := 0, live := 0xF, full := 0xF, vals := [v4, v5, v6, v7], claim := k.claim, wdog := 0, fflags := 0, stamp := s.stamp,
              origin := s.cur.core, reply := some (s.cur, t.id, d) })] ∧
          (u.region? g.id).map (fun q => q.flight) = some (g.flight + 1) ∧
          ({ what := .arrival, arg := { core := c } } : Due) ∈ u.agenda)) ∧
    (let cl := bitsOf x 55 52 * 64 + bitsOf x 51 46
     (¬(bitsOf x 63 56 = 0 ∧ bitsOf x 45 4 = 0 ∧ ∃ i < 128, Hosts s g t.role (cl * 128 + i)) →
       Replies (.spawnq d a b m) s t [(m.a, a), (m.b, b)] d (statusWord 2) (fun _ => True)) ∧
     (bitsOf x 63 56 = 0 → bitsOf x 45 4 = 0 → (∃ i < 128, Hosts s g t.role (cl * 128 + i)) →
       ∃ u, exec (.spawnq d a b m) s = .next u ∧ u.thread? s.cur = some (pendingForm t [(m.a, a), (m.b, b)] d) ∧ OthersKeep s u ∧ SameMemory s u ∧
         (u.dispatcher cl).arriving = (s.dispatcher cl).arriving ++ [
            { no := 0, region := t.region, role := t.role, entry := y, args := [v4, v5, v6, v7], priority := bitsOf x 3 0, tc := 0, stamp := s.stamp,
              polder := t.polder, reply := some (s.cur, t.id, d), origin := s.cur.core }] ∧
         ({ what := .taskInsert, arg := { n := cl } } : Due) ∈ u.agenda))) ∧
  (∀ (s : State) (cl : Nat) (d : Dispatcher) (k : Task) (g : Region) (q : SlotRef) (tid : Nat) (r : Reg), s.arg.n = cl → s.dispatcher cl = d → d.arriving = [k] →
    k.reply = some (q, tid, r) → s.region? k.region = some g → canUnspill s d = false →
    let b := drawnBank s d k.polder
    let bank := tget [] d.banks b
    (bank.length < 64 ∨ g.spillsz / 64 ≤ s.spilledOf k.region ∨ Still s) →
    let k' : Task := { k with no := d.nextNo, tc := s.tc }
    ∃ u, exec .taskInsert s = .next u ∧ (∀ p, u.thread? p = s.thread? p) ∧
      (bank.length < 64 ∨ g.spillsz / 64 ≤ s.spilledOf k.region → SameMemory s u) ∧
      (bank.length < 64 → u.dispatcher cl = { tookTask d k.polder with banks := tput d.banks b (bank ++ [k']) } ∧
        Filling u q.core q.slot tid r (BitVec.ofNat 64 (taskId cl d.nextNo)) ∧ ({ what := .dispatch, arg := { n := cl } } : Due) ∈ u.agenda) ∧
      ((∀ n ∈ s.polderSlots k.polder, 64 ≤ (tget [] d.banks n).length) → 64 ≤ bank.length → s.spilledOf k.region < g.spillsz / 64 → u.dispatcher cl = { tookTask d k.polder with spilled := d.spilled ++ [k'] } ∧
        Filling u q.core q.slot tid r (BitVec.ofNat 64 (taskId cl d.nextNo))) ∧
      (64 ≤ bank.length → g.spillsz / 64 ≤ s.spilledOf k.region → u.dispatcher cl = { tookTask d k.polder with nextNo := d.nextNo } ∧
        Filling u q.core q.slot tid r (statusWord 3))) ∧
  (∀ (s : State) (cl b : Nat) (d : Dispatcher) (k : Task) (g : Region) (q : RoleInfo) (r : SlotRef), s.arg.n = cl → s.dispatcher cl = d → d.banks = [(b, [k])] →
    d.spilled = [] → b < 16 → k.polder = s.polderOf b → k.polder < 16 → s.region? k.region = some g → g.role? k.role = some q → s.taskSlot cl k = some r →
    s.rdcs = [] → k.args.length = 4 → k.entry &&& 3 = 0 →
    ∃ u t, exec .dispatch s = .next u ∧ u.thread? r = some t ∧ t.id = s.nextId r ∧ t.world = g.world ∧ t.polder = k.polder ∧ t.region = k.region ∧
      t.role = k.role ∧ t.pc = k.entry ∧ t.claim = q.claim ∧ t.cq = [] ∧ t.halted = none ∧
      (∀ n : Fin 40, n < 4 → t.g[n] = { val := k.args.getD n 0, full := true, pending := false }) ∧
      tget [] (u.dispatcher cl).banks b = [] ∧ (k.no, s.nextId r) ∈ (u.dispatcher cl).started ∧ SameMemory s u ∧
      ∀ p, ¬sameSlot p r → u.thread? p = s.thread? p)

/-- THREAD CONTROL (R344, R345, R425, R426): QUIT waits for the compute queue, releases, and empties its slot, its page run scrubbed (R360); YIELD keeps its slot from the address pipe for 16
cycles; PARK ends by the wake bit with 0, by its deadline with 1, else waits; WAKE sets the wake bit of a live thread of its world; CANCEL removes a waiting task,
names the thread that a started one became, or ends a thread of its region; POKE sends its value to a register of a thread in its cluster, to
come after its release. An expired watchdog
halts its thread with WDOG.
The model's choice, where a clause rests on it: log entries 33, 36. -/
def Obligations.ThreadsEndYieldParkAndWake : Prop :=
  (∀ (s : State) (t : Thread), Acts s t →
    (t.cq ≠ [] → exec .quit s = .next (s.setThread s.cur { t with parked := some .computeQueue })) ∧
    (t.cq = [] → releaseMet s s.cur t = false → exec .quit s = .next (s.setThread s.cur { t with parked := some .release })) ∧
    (t.cq = [] → Released s t → Memory.wf (s.core s.cur.core).mem = true → ∃ u, exec .quit s = .next u ∧ u.thread? s.cur = none ∧ Scrubs s u s.cur.core t.pageBase (256 * t.pages) ∧
      ((u.core s.cur.core).slot s.cur.slot).gen = ((s.core s.cur.core).slot s.cur.slot).gen) ∧
    Leaves .yield s (afterMarks { t with yieldTo := s.tc + 17 } [] 4) ∧
    (∀ (d a : Reg) (ma : Bool) (x : Word), readReg s t [] a = .ok x → checkDest s t d = .ok () →
      (t.wakeBit = true → Leaves (.park d a ma) s (afterForm { t with wakeBit := false } [(ma, a)] 4 d 0)) ∧
      (t.wakeBit = false → x ≠ 0 → x.toNat ≤ s.tc → Leaves (.park d a ma) s (afterForm t [(ma, a)] 4 d 1)) ∧
      (t.wakeBit = false → (x = 0 ∨ s.tc < x.toNat) → exec (.park d a ma) s = .next (s.setThread s.cur { t with parked := some (.wake x.toNat) })) ∧
      (∀ q u, s.threadById (bitsOf x 39 0) = some (q, u) → u.world = t.world →
        ∃ w, exec (.wake d a ma) s = .next w ∧ Sent s w t d 0 ∧ SameMemory s w ∧
          (sameSlot q s.cur → w.thread? s.cur = some { pendingForm t [(ma, a)] d with wakeBit := true }) ∧
          (¬sameSlot q s.cur → w.thread? s.cur = some (pendingForm t [(ma, a)] d) ∧ w.thread? q = some { u with wakeBit := true })) ∧
      ((s.threadById (bitsOf x 39 0) = none ∨ ∃ q u, s.threadById (bitsOf x 39 0) = some (q, u) ∧ u.world ≠ t.world) →
        Replies (.wake d a ma) s t [(ma, a)] d (statusWord 5) (fun _ => True)) ∧
      (∀ q u, bitOf x 63 = true → Other s (bitsOf x 39 0) q u → bitsOf x 39 0 ≠ t.id → s.isWithin u.region t.region = true → Memory.wf (s.core q.core).mem = true →
        ∃ w, exec (.cancel d a ma) s = .next w ∧ w.thread? q = none ∧ Sent s w t d 0 ∧ Scrubs s w q.core u.pageBase (256 * u.pages) ∧
          ∃ t', w.thread? s.cur = some t' ∧ t'.pc = t.pc + 4 ∧ t'.g = (pendingForm t [(ma, a)] d).g) ∧
      (bitOf x 63 = true → (s.threadById (bitsOf x 39 0) = none ∨ ∃ q u, s.threadById (bitsOf x 39 0) = some (q, u) ∧ s.isWithin u.region t.region = false) →
        Replies (.cancel d a ma) s t [(ma, a)] d (statusWord 5) (fun _ => True)) ∧
      (let cl := bitsOf x 55 52 * 64 + bitsOf x 51 46
       let dd := s.dispatcher cl
       let waiting := (dd.banks.flatMap (fun b => b.2)) ++ dd.spilled
       bitOf x 63 = false → bitsOf x 63 56 = 0 → bitsOf x 45 32 = 0 →
       ((∃ k ∈ waiting, k.no = bitsOf x 31 0) → Replies (.cancel d a ma) s t [(ma, a)] d (statusWord 0) (fun w =>
         ∀ k ∈ ((w.dispatcher cl).banks.flatMap (fun b => b.2)) ++ (w.dispatcher cl).spilled, k.no ≠ bitsOf x 31 0 ∧ k ∈ waiting)) ∧
       ((∀ k ∈ waiting, k.no ≠ bitsOf x 31 0) → ∀ p, dd.started.find? (fun p => p.1 = bitsOf x 31 0) = some p →
         Replies (.cancel d a ma) s t [(ma, a)] d (BitVec.ofNat 64 (4 * 2 ^ 56 + p.2)) (fun _ => True)) ∧
       ((∀ k ∈ waiting, k.no ≠ bitsOf x 31 0) → (∀ p ∈ dd.started, p.1 ≠ bitsOf x 31 0) →
         Replies (.cancel d a ma) s t [(ma, a)] d (statusWord 5) (fun _ => True)))) ∧
    (∀ (a b : Reg) (m : Marks) (x y : Word) (n : Fin 40), readReg s t [] a = .ok x → readReg s t [a] b = .ok y →
      (40 ≤ bitsOf x 45 40 ∨ clusterOf (idSlot (bitsOf x 39 0)).core ≠ clusterOf s.cur.core → exec (.poke a b m) s = .next (takeFault s .prot 0 0 4)) ∧
      (bitsOf x 45 40 = n → clusterOf (idSlot (bitsOf x 39 0)).core = clusterOf s.cur.core →
        (∀ q u, s.threadById (bitsOf x 39 0) = some (q, u) → u.world = t.world →
          ∃ w, exec (.poke a b m) s = .next w ∧ w.thread? s.cur = some (afterMarks t [(m.a, a), (m.b, b)] 4) ∧ OthersKeep s w ∧ SameMemory s w ∧
            ({ slot := q.slot, tid := bitsOf x 39 0, reg := .g n, value := y, flags := 0, poke := true, stamp := s.stamp,
               after := some (s.cur, false) } : Fill) ∈ (w.core q.core).fills ∧
            ({ what := .remoteFill, arg := { core := q.core } } : Due) ∈ w.agenda) ∧
        (s.threadById (bitsOf x 39 0) = none → Leaves (.poke a b m) s (afterMarks t [(m.a, a), (m.b, b)] 4)) ∧
        (∀ q u, s.threadById (bitsOf x 39 0) = some (q, u) → u.world ≠ t.world →
          Leaves (.poke a b m) s (afterMarks t [(m.a, a), (m.b, b)] 4))))) ∧
  (∀ (s : State) (r : SlotRef) (t : Thread), r = { core := s.arg.core, slot := s.arg.slot } → s.thread? r = some t →
    (t.yieldTo ≤ s.tc → exec .yieldExpiry s = .next (s.setThread r { t with yieldTo := 0 })) ∧
    (∀ n len d a ma x, t.parked = some (.wake n) → n ≠ 0 → n ≤ s.tc → fetch s r t = .ok (.park d a ma, len) → t.wakeBit = false →
      readReg { s with cur := r } t [] a = .ok x → x ≠ 0 → x.toNat ≤ s.tc → checkDest { s with cur := r } t d = .ok () →
      ∃ u, exec .parkDeadline s = .next u ∧ u.thread? r = some (afterForm t [(ma, a)] 4 d 1) ∧ SameMemory s u) ∧
    (t.halted = none → t.cq ≠ [] → exec .watchdogExpiry s = .next (s.later .watchdogExpiry s.arg)) ∧
    (∀ g sup v, t.halted = none → t.cq = [] → s.region? t.region = some g → g.policy ≤ 1 → (∀ p ∈ s.regions, p.supervisor ≠ t.id) →
      s.threadById g.supervisor = some (sup, v) → ¬sameSlot sup r → ∃ u, exec .watchdogExpiry s = .next u ∧ HaltsWithMessage s u r t .wdog sup g))

/-- STORAGE (R356-R360): CLAIM sets the claim of a thread that has been granted nothing, within its polder's pool; ACQ is granted when the pool has what it asks and
the check is safe, and parks otherwise; ACQT answers 0, 1 or 2 at once; a grant gives zero registers, pages and tiles; REL gives back what it names. A request
beyond the claim, or a release of what is not held, raises BANKER. -/
def Obligations.StorageIsClaimedGrantedAndReleased : Prop :=
  ∀ (s : State) (t : Thread) (d a : Reg) (ma : Bool) (x : Word), Acts s t → s.cur.slot < 16 → readReg s t [] a = .ok x → checkDest s t d = .ok () →
    Memory.wf (s.core s.cur.core).mem = true →
    (bitsOf x 63 40 ≠ 0 ∨ bitsOf x 31 16 ≠ 0 ∨ bitsOf x 7 3 ≠ 0 → exec (.claim a ma) s = .next (takeFault s .prot 0 0 4) ∧
      exec (.acq a ma) s = .next (takeFault s .prot 0 0 4) ∧ exec (.acqt d a ma) s = .next (takeFault s .prot 0 0 4) ∧
      exec (.rel a ma) s = .next (takeFault s .prot 0 0 4)) ∧
    (bitsOf x 63 40 = 0 → bitsOf x 31 16 = 0 → bitsOf x 7 2 = 0 →
      let total := s.poolTotal s.cur.core t.polder
      (t.granted = false → bitsOf x 1 0 ≤ total.blocks → bitsOf x 15 8 ≤ total.pages → bitsOf x 39 32 ≤ total.tiles →
        Leaves (.claim a ma) s (afterMarks { t with claim := x } [(ma, a)] 4)) ∧
      (¬(t.granted = false ∧ bitsOf x 1 0 ≤ total.blocks ∧ bitsOf x 15 8 ≤ total.pages ∧ bitsOf x 39 32 ≤ total.tiles) →
        exec (.claim a ma) s = .next (takeFault s .banker 0 0 4))) ∧
    (bitsOf x 63 40 = 0 → bitsOf x 31 16 = 0 → bitsOf x 7 3 = 0 → NoRequests s s.cur.core t.polder → t.halted = none →
      (requestBanned (s.isTrav t.region) t x = true → exec (.acq a ma) s = .next (takeFault s .banker 0 0 4) ∧
        exec (.acqt d a ma) s = .next (takeFault s .banker 0 0 4)) ∧
      (∀ page, requestBanned (s.isTrav t.region) t x = false → s.judgeThread s.cur t x = .grant page →
        (∃ u, exec (.acq a ma) s = .next u ∧ u.thread? s.cur = some (afterMarks (grantedThread t x page) [(ma, a)] 4) ∧ OthersKeep s u ∧
          Scrubs s u s.cur.core (page * 256) (256 * bitsOf x 15 8)) ∧
        (∃ u, exec (.acqt d a ma) s = .next u ∧ u.thread? s.cur = some (afterForm (grantedThread t x page) [(ma, a)] 4 d 0) ∧ OthersKeep s u ∧
          Scrubs s u s.cur.core (page * 256) (256 * bitsOf x 15 8))) ∧
      (requestBanned (s.isTrav t.region) t x = false → s.judgeThread s.cur t x = .unavailable →
        exec (.acq a ma) s = .next ((s.spend s.stamp).setThread s.cur { t with acq := some { request := x, stamp := s.stamp, reg := a, mark := ma }, parked := some .held }) ∧
        Leaves (.acqt d a ma) s (afterForm t [(ma, a)] 4 d 1)) ∧
      (requestBanned (s.isTrav t.region) t x = false → s.judgeThread s.cur t x = .notSafe →
        exec (.acq a ma) s = .next ((s.spend s.stamp).setThread s.cur { t with acq := some { request := x, stamp := s.stamp, reg := a, mark := ma }, parked := some .held }) ∧
        Leaves (.acqt d a ma) s (afterForm t [(ma, a)] 4 d 2)) ∧
      (releaseBanned t x = true → exec (.rel a ma) s = .next (takeFault s .banker 0 0 4)) ∧
      (releaseBanned t x = false → t.cq ≠ [] → exec (.rel a ma) s = .next (s.setThread s.cur { t with parked := some .computeQueue })) ∧
      (releaseBanned t x = false → t.cq = [] →
        ∃ u, exec (.rel a ma) s = .next u ∧ u.thread? s.cur = some ((releasedThread (t.mark ma a) x).advance 4) ∧ OthersKeep s u ∧
          Scrubs s u s.cur.core t.pageBase (256 * bitsOf x 15 8)))

/-- WEIRS (R350-R353): a weir is bound and unbound by a supervisor or world 0; an arrival is a release, and parks until every participant has
arrived, when all go on. WBYTE adds to the counter of a phase and posts it; WWAIT goes on, clearing the phase, when it is posted and its counter is
0; a phase whose counter went beyond its range is cleared, with PROT.
The model's choice, where a clause rests on it: log entries 17, 37, 56, 57. -/
def Obligations.WeirsHoldAndReleaseTheirParticipants : Prop :=
  (∀ (s : State) (t : Thread) (a b : Reg) (m : Marks) (x y : Word) (k : Nat), Acts s t → t.weirDone = false → readReg s t [] a = .ok x →
    readReg s t [a] b = .ok y → bitsOf x 63 62 = 1 → bitsOf x 61 6 = 0 → k = clusterOf s.cur.core * 64 + bitsOf x 5 0 →
    (s.privileged t = true → s.weir? k = none → BindingWord y →
      ∃ u, exec (.weir a b m) s = .next u ∧ u.weir? k = some (weirOf t y) ∧ u.thread? s.cur = some (afterMarks t [(m.a, a), (m.b, b)] 4) ∧
        OthersKeep s u ∧ SameMemory s u) ∧
    (s.privileged t = false → exec (.weir a b m) s = .next (takeFault s .priv 0 0 4)) ∧
    (s.privileged t = true → (s.weir? k ≠ none ∨ ¬BindingWord y) → exec (.weir a b m) s = .next (takeFault s .prot 0 0 4))) ∧
  (∀ (s : State) (t : Thread) (a : Reg) (m : Marks) (x : Word) (k : Nat), Acts s t → t.weirDone = false → m.b = false → readReg s t [] a = .ok x →
    bitsOf x 63 62 = 2 → bitsOf x 61 6 = 0 → k = clusterOf s.cur.core * 64 + bitsOf x 5 0 →
    (∀ w, s.privileged t = true → s.weir? k = some w → w.arrived = [] → w.contrib = [] → w.results = [] →
      ∃ u, exec (.weir a (.g 0) m) s = .next u ∧ u.weir? k = none ∧ u.thread? s.cur = some (afterMarks t [(m.a, a)] 4) ∧ OthersKeep s u ∧
        SameMemory s u) ∧
    (s.privileged t = false → exec (.weir a (.g 0) m) s = .next (takeFault s .priv 0 0 4)) ∧
    (s.privileged t = true → (s.weir? k = none ∨ ∃ w, s.weir? k = some w ∧ w.arrived ≠ []) →
      exec (.weir a (.g 0) m) s = .next (takeFault s .prot 0 0 4))) ∧
  (∀ (s : State) (t : Thread) (a : Reg) (m : Marks) (x : Word) (k : Nat) (w : Weir), Acts s t → t.weirDone = false → m.b = false →
    readReg s t [] a = .ok x → bitsOf x 63 62 = 0 → bitsOf x 61 6 = 0 → k = clusterOf s.cur.core * 64 + bitsOf x 5 0 → s.weir? k = some w →
    (48 ≤ bitsOf x 5 0 ∨ w.names s.cur = false ∨ w.world ≠ t.world → exec (.weir a (.g 0) m) s = .next (takeFault s .prot 0 0 4)) ∧
    (bitsOf x 5 0 < 48 → w.names s.cur = true → w.world = t.world → (s.cur, t.id) ∉ w.arrived → releaseMet s s.cur t = false →
      exec (.weir a (.g 0) m) s = .next (s.parkOn s.cur t .release)) ∧
    (bitsOf x 5 0 < 48 → w.names s.cur = true → w.world = t.world → (s.cur, t.id) ∉ w.arrived → releaseMet s s.cur t = true →
      (∃ q ∈ w.participants (clusterOf s.cur.core), q ≠ s.cur ∧ ∀ p ∈ w.arrived, p.1 ≠ q) →
      ∃ u, exec (.weir a (.g 0) m) s = .next u ∧ u.weir? k = some { w with arrived := w.arrived ++ [(s.cur, t.id)] } ∧
        u.thread? s.cur = some { t with parked := some (.weir k) } ∧ OthersKeep s u ∧ SameMemory s u) ∧
    (bitsOf x 5 0 < 48 → w.names s.cur = true → w.world = t.world → (s.cur, t.id) ∉ w.arrived → releaseMet s s.cur t = true →
      (∀ q ∈ w.participants (clusterOf s.cur.core), q ≠ s.cur → ∃ p ∈ w.arrived, p.1 = q) →
      ∃ u, exec (.weir a (.g 0) m) s = .next u ∧ u.weir? k = some { w with arrived := [] } ∧
        u.thread? s.cur = some (afterMarks t [(m.a, a)] 4) ∧ SameMemory s u ∧
        (∀ p ∈ w.arrived, ∀ v, p.2 ≠ t.id → ¬sameSlot p.1 s.cur → s.thread? p.1 = some v → v.id = p.2 →
          u.thread? p.1 = some { v with weirDone := true }) ∧
        ∀ q v, ¬sameSlot q s.cur → s.thread? q = some v → (∀ p ∈ w.arrived, p.2 ≠ v.id) → u.thread? q = some v)) ∧
  (∀ (s : State) (t : Thread) (a : Reg) (m : Marks) (x : Word), Acts s t → t.weirDone = false → m.b = false → readReg s t [] a = .ok x →
    (bitsOf x 63 62 = 3 ∨ (bitsOf x 63 62 = 0 ∧ s.weir? (clusterOf s.cur.core * 64 + bitsOf x 5 0) = none)) →
    exec (.weir a (.g 0) m) s = .next (takeFault s .prot 0 0 4)) ∧
  (∀ (s : State) (t : Thread) (a : Reg) (m : Marks) (x : Word), Acts s t → t.weirDone = true → readReg s t [] a = .ok x → bitsOf x 63 62 = 0 →
    Leaves (.weir a (.g 0) m) s (afterMarks { t with weirDone := false } [(m.a, a)] 4)) ∧
  (∀ (s : State) (t : Thread) (a b : Reg) (m : Marks) (x y : Word) (k : Nat) (w : ByteWeir), Acts s t → readReg s t [] a = .ok x →
    readReg s t [a] b = .ok y → k = weirKey (bitsOf x 2 0) (bitsOf x 3 3) → w = phaseAt s s.cur.core k →
    ((w.world = none ∨ w.world = some t.world) → w.posted = false →
      ∃ u v, exec (.wbyte a b m) s = .next u ∧ v < 2 ^ 32 ∧ (y.toNat < 2 ^ 32 → v = y.toNat) ∧
        phaseAt u s.cur.core k = { w.add v with posted := true, world := some t.world } ∧
        u.thread? s.cur = some (afterMarks t [(m.a, a), (m.b, b)] 4) ∧ OthersKeep s u ∧ SameMemory s u) ∧
    (w.posted = true ∨ (w.world ≠ none ∧ w.world ≠ some t.world) → exec (.wbyte a b m) s = .next (takeFault s .prot 0 0 4))) ∧
  (∀ (s : State) (t : Thread) (a : Reg) (ma : Bool) (x : Word) (k : Nat) (w : ByteWeir), Acts s t → readReg s t [] a = .ok x →
    k = weirKey (bitsOf x 2 0) (bitsOf x 3 3) → w = phaseAt s s.cur.core k → (w.world = none ∨ w.world = some t.world) →
    (w.sat = false → w.posted = true → w.counter = 0 →
      ∃ u, exec (.wwait a ma) s = .next u ∧ phaseAt u s.cur.core k = ByteWeir.reset ∧ u.thread? s.cur = some (afterMarks t [(ma, a)] 4) ∧
        OthersKeep s u ∧ SameMemory s u) ∧
    (w.sat = false → (w.posted = false ∨ w.counter ≠ 0) → exec (.wwait a ma) s = .next (s.setThread s.cur { t with parked := some (.byteWeir k) })) ∧
    (w.sat = true → t.cq ≠ [] → exec (.wwait a ma) s = .next (s.setThread s.cur { t with parked := some .computeQueue })) ∧
    (w.sat = true → t.cq = [] →
      exec (.wwait a ma) s = .next (takeFault (s.modCore s.cur.core (fun c => { c with weirs := tput c.weirs k ByteWeir.reset })) .prot 0 0 4)))

/-! ### Travelling (R376-R379, R382) -/

/-- RECORDS ARRIVE AND LAND (R374-R379, R381): a record on its way enters its polder's share of the target core, or, where the share is full or the ring of
the core holds a record, the tail of the ring; the head of a share that a free slot and the banker allow becomes a thread that begins with what the record carries,
and a spawn's issuer gets its id; each period's samples become the occupancies that the next period's choices follow.
The model's choice, where a clause rests on it: log entries 16, 33, 57. -/
def Obligations.RecordsArriveAndLand : Prop :=
  (∀ (s : State) (c : CoreIx) (f : FlumeRec) (g : Region), s.arg.core = c → s.flights = [(c, f)] → s.region? f.region = some g →
    ((g.travelling = false ∨ g.ringAt c = none ∨ ((s.core c).arrivals.countP (fun y => y.polder = f.polder) < 2 * (s.polderSlots f.polder).length ∧ s.ringHas g c = 0)) →
      ∃ u, exec .arrival s = .next u ∧ u.flights = [] ∧ (u.core c).arrivals = (s.core c).arrivals ++ [f] ∧ SameMemory s u ∧ (∀ p, u.thread? p = s.thread? p) ∧
        ({ what := .arrivalPlacement, arg := { core := c } } : Due) ∈ u.agenda) ∧
    (∀ a, g.travelling = true → g.ringAt c = some a → s.ringTailMeet g c f = none →
      (2 * (s.polderSlots f.polder).length ≤ (s.core c).arrivals.countP (fun y => y.polder = f.polder) ∨ 0 < s.ringHas g c) →
      ∃ u s1, exec .arrival s = .next u ∧ s1 = { s with flights := [], gated := s.gated.filter (fun k => k ≠ clusterOf c) } ∧
        u.hbm = (s1.ringWrite g c f).hbm ∧ u.flights = [] ∧ (u.core c).arrivals = (s.core c).arrivals)) ∧
  (∀ (s : State) (c : CoreIx) (f : FlumeRec) (rest : List FlumeRec) (r : SlotRef) (page : Nat), s.arg.core = c → (s.core c).arrivals = f :: rest → s.rdcs = [] →
    s.freeSlot c f.polder = some r → s.judge c f.polder none f.claim { blocks := 0, pages := 0, tiles := 0 } [] { blocks := popCount f.blocks.toNat 3, pages := 0, tiles := 0 } = .grant page →
    (s.core c).pin = none →
    ∃ u t, exec .arrivalPlacement s = .next u ∧ u.thread? r = some t ∧ t.id = s.nextId r ∧ t.world = f.world ∧ t.polder = f.polder ∧ t.region = f.region ∧
      t.role = f.role ∧ t.pc = f.pc &&& ~~~3 ∧ t.lk = f.lk ∧ t.skip = f.skip ∧ t.blocks = f.blocks ∧ t.claim = f.claim ∧ t.fflags = f.fflags ∧
      (f.spawn = false → t.wdog = f.wdog) ∧
      (∀ (k : Fin 40) v, ((maskRegs f.live).zip f.vals).find? (fun p => p.1 = k.val) = some (k.val, v) → t.g[k] = { val := v, full := f.full.getLsbD k, pending := false }) ∧
      (u.core c).arrivals = rest ∧ SameMemory s u ∧ (∀ p, ¬sameSlot p r → u.thread? p = s.thread? p) ∧
      (∀ q tid d, f.reply = some (q, tid, d) → Filling u q.core q.slot tid d (BitVec.ofNat 64 t.id)) ∧
      ∀ g, s.region? f.region = some g → (u.region? f.region).map (fun q => q.flight) = some (g.flight - 1)) ∧
  (∀ (s s1 : State) (c : CoreIx), s.arg.core = c → (s.core c).arrivals = [] → s.ringRead c = some s1 →
    exec .arrivalPlacement s = .next (s1.laterOnce .arrivalPlacement { core := c })) ∧
  (∀ s : State, ∃ u, exec .occupancySample s = .next u ∧ u.occupancy = s.sampled ∧ u.sampled = s.samples ∧ SameMemory s u ∧ (∀ p, u.thread? p = s.thread? p) ∧
    u.regions = s.regions.map (fun g => { g with segs := g.segs.map (fun k => { k with choice := k.home :: k.reps }) }))

/-! ### The tree engine (R305-R327, R465) -/

/-- TREE INSTRUCTIONS (R310-R313): a tree form seals its command record into q4, as a release; a failing form retires, a trapping form parks until its
command's result words are in q5, then retires, or, where a word carries an error, raises POOL with the pool base. -/
def Obligations.TreeFormsSealTheirCommands : Prop :=
  (∀ (s : State) (t : Thread) (a b d : Reg) (m : Marks) (ma : Bool) (n : Fin 16) (x y z : Word), Acts s t → t.treeWait = none → OutletFree t 4 →
    readReg s t [] a = .ok x → PoolBase s t x →
    (readReg s t [a] b = .ok y →
      (∀ f ∈ treeForms,
        Seals (f.2.1 a b m) s t 4 [treeHead 1 f.2.2.1 (bitsOf y 31 0), x] none (fun t => afterMarks t [(m.a, a), (m.b, b)] 4) f.2.2.2 ∧
        SealsAndWaits (f.1 a b m) s t [treeHead 1 f.2.2.1 (bitsOf y 31 0), x] x
          (if f.2.2.1 = 1 ∧ 1 ≤ bitsOf y 31 0 ∧ bitsOf y 31 0 ≤ 16 then bitsOf y 31 0 else 1) f.2.2.2) ∧
      (readReg s t [a, b] d = .ok z →
        Seals (.trbckF d a b m) s t 4 [treeHead 2 3 (bitsOf y 31 0), x, BitVec.ofNat 64 (bitsOf z 31 0)] none
          (fun t => afterMarks t [(m.a, a), (m.b, b)] 4) .treeCmdBackup ∧
        SealsAndWaits (.trbck d a b m) s t [treeHead 2 3 (bitsOf y 31 0), x, BitVec.ofNat 64 (bitsOf z 31 0)] x 1 .treeCmdBackup)) ∧
    (let sh := t.shapes[n]
     readReg s t [a] d = .ok z → windowOf sh.w0 = 0 → bitsOf sh.w0 55 52 = 0 → bitsOf sh.w0 1 0 = 0 → sh.ext 1 = 1 → sh.ext 2 = 1 → sh.ext 3 = 1 → sh.ext 0 ≤ 4096 →
      let words := [treeHead 3 2 (bitsOf z 31 0), x, sh.w0, BitVec.ofNat 64 (bitsOf z 63 32 * 2 ^ 32 + sh.ext 0)]
      Seals (.trxpdF d a n ma) s t 4 words none (fun t => afterMarks t [(ma, a)] 4) .treeCmdExpand ∧
      SealsAndWaits (.trxpd d a n ma) s t words x 1 .treeCmdExpand) ∧
    Seals (.trfreF a ma) s t 4 [treeHead 1 6 0, x] none (fun t => afterMarks t [(ma, a)] 4) .treeCmdFree ∧
    SealsAndWaits (.trfre a ma) s t [treeHead 1 6 0, x] x 1 .treeCmdFree) ∧
  (∀ (s : State) (t : Thread) (a : Reg) (ma : Bool) (x : Word), Acts s t → t.treeWait = none → readReg s t [] a = .ok x →
    (windowOf x ≠ 0 ∨ bitsOf x 55 52 ≠ 0 → exec (.trfre a ma) s = .next (takeFault s .win x 0 4)) ∧
    (windowOf x = 0 → bitsOf x 55 52 = 0 → bitsOf x 15 0 ≠ 0 → exec (.trfre a ma) s = .next (takeFault s .align x 0 4))) ∧
  (∀ (s : State) (t : Thread) (w : TreeWait) (d a b : Reg) (m : Marks) (ma : Bool) (n : Fin 16), Acts s t → t.treeWait = some w →
    let forms : List (Instr × List (Bool × Reg)) :=
      [(.trnew a b m, [(m.a, a), (m.b, b)]), (.trdsc a b m, [(m.a, a), (m.b, b)]), (.trpik a b m, [(m.a, a), (m.b, b)]), (.trrrt a b m, [(m.a, a), (m.b, b)]),
       (.trbck d a b m, [(m.a, a), (m.b, b)]), (.trxpd d a n ma, [(ma, a)]), (.trfre a ma, [(ma, a)])]
    ∀ f ∈ forms,
      (w.left ≠ 0 → exec f.1 s = .next (s.setThread s.cur { t with parked := some .tree })) ∧
      (w.left = 0 → w.error = false → s.rdcs = [] → Leaves f.1 s (afterMarks { t with treeWait := none } f.2 4)) ∧
      (w.left = 0 → w.error = true → t.cq ≠ [] → exec f.1 s = .next (s.setThread s.cur { t with parked := some .computeQueue })) ∧
      (w.left = 0 → w.error = true → t.cq = [] → ∃ r u, exec f.1 s = .next (takeFault u .pool w.base 0 4) ∧
        u = (s.setThread s.cur (f.2.foldl (fun t p => t.mark p.1 p.2) { t with treeWait := none })).takePorts s.cur.core r))

/-- SEARCH COMMANDS OF THE TREE ENGINE (R309, R314, R316, R319, R320, R323): the engine serves the command present: a descent marks its leaf in
batch and counts virtual loss below the root; TRBCK adds its value from a leaf to the root, and answers the root of the pool. A command on no registered pool gets NOPOOL.
The model's choice, where a clause rests on it: log entry 35. -/
def Obligations.TreeSearchesCountVisitsAndValues : Prop :=
  (∀ (s : State) (h : CoreIx) (r : SlotRef) (t : Thread) (x : Record) (base : Word) (arg : Nat), OnlyCommand s h r t x → x.words = [treeHead 1 4 arg, base] →
    arg < 2 ^ 32 → s.findPool h t.world base = none →
    ∃ u, exec .treeCmdPick s = .next u ∧ u.thread? r = some (tookTree t r x (statusWord 6)) ∧ SameMemory s u) ∧
  (∀ (s : State) (h : CoreIx) (r : SlotRef) (t : Thread) (x : Record) (p : Pool) (base : Word) (root : Nat), OnPool s h r t x p → x.words = [treeHead 1 1 1, base] →
    fieldAt (nodeAt s p 0) 28 4 = root → 1 ≤ root → root < 1024 * p.pages →
    (flagOn (nodeAt s p root) 0 = false →
      (flagOn (nodeAt s p root) 2 = true → ∃ u, exec .treeCmdDescent s = .next u ∧ u.thread? r = some (tookTree t r x (BitVec.ofNat 64 (2 ^ 56 + root))) ∧ SameMemory s u) ∧
      (flagOn (nodeAt s p root) 2 = false → ∃ u, exec .treeCmdDescent s = .next u ∧
        u.thread? r = some (tookTree t r x (BitVec.ofNat 64 ((if flagOn (nodeAt s p root) 1 then 2 else 0) * 2 ^ 56 + root))) ∧ OnlyNodes s u p [root] ∧
        nodeAt u p root = (nodeAt s p root).take 14 ++ natLe (nodeFlags (nodeAt s p root) + 4) 2 ++ (nodeAt s p root).drop 16)) ∧
    (∀ first count c, Children s p root first count → first ≤ c → c < first + count →
      (∀ d, first ≤ d → d < c → f32Greater (scoreOf s p root c) (scoreOf s p root d) = true) →
      (∀ d, c < d → d < first + count → f32Greater (scoreOf s p root d) (scoreOf s p root c) = false) →
      flagOn (nodeAt s p c) 0 = false → c ≠ root →
      (flagOn (nodeAt s p c) 2 = true → ∃ u, exec .treeCmdDescent s = .next u ∧ u.thread? r = some (tookTree t r x (BitVec.ofNat 64 (2 ^ 56 + 2 ^ 32 + c))) ∧ SameMemory s u) ∧
      (flagOn (nodeAt s p c) 2 = false → nodeVL (nodeAt s p c) < 65535 → ∃ u, exec .treeCmdDescent s = .next u ∧
        u.thread? r = some (tookTree t r x (BitVec.ofNat 64 ((if flagOn (nodeAt s p c) 1 then 2 else 0) * 2 ^ 56 + 2 ^ 32 + c))) ∧ OnlyNodes s u p [c] ∧
        nodeAt u p c = (nodeAt s p c).take 12 ++ natLe (nodeVL (nodeAt s p c) + 1) 2 ++ natLe (nodeFlags (nodeAt s p c) + 4) 2 ++ (nodeAt s p c).drop 16))) ∧
  (∀ (s : State) (h : CoreIx) (r : SlotRef) (t : Thread) (x : Record) (p : Pool) (base : Word) (leaf root : Nat) (v : Word32), OnPool s h r t x p →
    x.words = [treeHead 2 3 leaf, base, BitVec.ofNat 64 v.toNat] → leaf < 2 ^ 32 → Valid s p leaf → flagOn (nodeAt s p leaf) 2 = true → nodeParent (nodeAt s p leaf) = root →
    root ≠ leaf → 1 ≤ root → root < 1024 * p.pages → root < 0xFFFFFFFF → nodeParent (nodeAt s p root) = 0xFFFFFFFF →
    ∃ u, exec .treeCmdBackup s = .next u ∧ u.thread? r = some (tookTree t r x (BitVec.ofNat 64 (fieldAt (nodeAt s p 0) 28 4))) ∧ OnlyNodes s u p [leaf, root] ∧
      nodeAt u p leaf = natLe (min (nodeN (nodeAt s p leaf) + 1) 0xFFFFFFFF) 4 ++ natLe (f32Add (nodeW (nodeAt s p leaf)) v).1.toNat 4 ++ ((nodeAt s p leaf).drop 8).take 4 ++
        natLe (nodeVL (nodeAt s p leaf) - 1) 2 ++ natLe (nodeFlags (nodeAt s p leaf) - 4) 2 ++ (nodeAt s p leaf).drop 16 ∧
      nodeAt u p root = natLe (min (nodeN (nodeAt s p root) + 1) 0xFFFFFFFF) 4 ++
        natLe (f32Add (nodeW (nodeAt s p root)) (if p.alternate then v ^^^ 0x80000000 else v)).1.toNat 4 ++ (nodeAt s p root).drop 8)

/-- TRPIK (R324): of the children of its node, the engine posts the action and the index of the one with the largest N, the lowest index of
those that tie; a node that is not valid gets NODE, an unexpanded one STATE; nothing is written. -/
def Obligations.TheMostVisitedChildIsPicked : Prop :=
  (∀ (s : State) (h : CoreIx) (r : SlotRef) (t : Thread) (x : Record) (p : Pool) (base : Word) (n first count c : Nat), OnPool s h r t x p →
    x.words = [treeHead 1 4 n, base] → n < 2 ^ 32 → Valid s p n → Children s p n first count → first ≤ c → c < first + count →
    (∀ d, first ≤ d → d < c → nodeN (nodeAt s p d) < nodeN (nodeAt s p c)) → (∀ d, c < d → d < first + count → nodeN (nodeAt s p d) ≤ nodeN (nodeAt s p c)) →
    ∃ u, exec .treeCmdPick s = .next u ∧ u.thread? r = some (tookTree t r x (BitVec.ofNat 64 (nodeAction (nodeAt s p c) * 2 ^ 32 + c))) ∧ SameMemory s u) ∧
  (∀ (s : State) (h : CoreIx) (r : SlotRef) (t : Thread) (x : Record) (p : Pool) (base : Word) (n : Nat), OnPool s h r t x p → x.words = [treeHead 1 4 n, base] → n < 2 ^ 32 →
    (¬Valid s p n → ∃ u, exec .treeCmdPick s = .next u ∧ u.thread? r = some (tookTree t r x (statusWord 4)) ∧ SameMemory s u) ∧
    (Valid s p n → flagOn (nodeAt s p n) 0 = false → ∃ u, exec .treeCmdPick s = .next u ∧ u.thread? r = some (tookTree t r x (statusWord 5)) ∧ SameMemory s u))

/-- POOL COMMANDS OF THE TREE ENGINE (R306, R316, R321, R322, R325-R327): TRNEW writes the header and the root and registers the pool; TRXPD makes a leaf terminal, or gives it
fresh children with their priors; TRRRT makes a child the root, and the freeing of the rest follows; TRFRE unregisters the pool.
The model's choice, where a clause rests on it: log entry 35. -/
def Obligations.TreePoolsAreMadeGrownAndFreed : Prop :=
  (∀ (s s1 : State) (h : CoreIx) (r : SlotRef) (t : Thread) (x : Record) (base : Word) (pages : Nat) (frames : List Nat) (p : Pool) (g : Region), OnlyCommand s h r t x →
    x.words = [treeHead 1 0 pages, base] → 1 ≤ pages → pages ≤ 4096 → (∀ q ∈ s.poolList h, ¬(q.base = base.toNat ∧ q.world = t.world)) → s.region? t.region = some g →
    (s.poolList h).length < 64 → s.poolsUsed t.region < s.poolsOf g → poolFrames (treeWho h t r.slot) r.core h base pages s = (s1, .ok frames) →
    p = { base := base.toNat, pages := pages, frames := frames, world := t.world, region := t.region,
          cpuct := BitVec.ofNat 32 (fieldAt (nodeAt s1 p 0) 0 4), vloss := BitVec.ofNat 32 (fieldAt (nodeAt s1 p 0) 4 4),
          fpu := BitVec.ofNat 32 (fieldAt (nodeAt s1 p 0) 8 4), alternate := decide (fieldAt (nodeAt s1 p 0) 12 2 = 1), freeing := none, spoilt := false } →
    fieldAt (nodeAt s1 p 0) 12 2 < 2 → fieldAt (nodeAt s1 p 0) 14 2 = 0 → SameMemory s s1 → Calm s1 → CleanMemory s1 → PoolLines s1 p →
    ∃ u, exec .treeCmdNew s = .next u ∧ u.thread? r = some (tookTree t r x (BitVec.ofNat 64 (pages * 2 ^ 32 + 1))) ∧ u.poolList h = s1.poolList h ++ [p] ∧
      OnlyNodes s u p [0, 1] ∧
      nodeAt u p 0 = (nodeAt s1 p 0).take 16 ++ natLe pages 4 ++ natLe 2 4 ++ natLe 0xFFFFFFFF 4 ++ natLe 1 4 ++ (nodeAt s1 p 0).drop 32 ∧
      nodeAt u p 1 = natLe 0 14 ++ natLe 0x8000 2 ++ natLe 0xFFFFFFFF 4 ++ natLe 0 44) ∧
  (∀ (s : State) (h : CoreIx) (r : SlotRef) (t : Thread) (x : Record) (p : Pool) (base extra v : Word) (leaf : Nat), OnPool s h r t x p →
    x.words = [treeHead 3 2 leaf, base, extra, BitVec.ofNat 64 (v.toNat % 2 ^ 32 * 2 ^ 32)] → leaf < 2 ^ 32 → Valid s p leaf → flagOn (nodeAt s p leaf) 0 = false →
    flagOn (nodeAt s p leaf) 1 = false →
    ∃ u, exec .treeCmdExpand s = .next u ∧ u.thread? r = some (tookTree t r x (BitVec.ofNat 64 leaf)) ∧ OnlyNodes s u p [leaf] ∧
      nodeAt u p leaf = (nodeAt s p leaf).take 14 ++ natLe (nodeFlags (nodeAt s p leaf) + 2) 2 ++ ((nodeAt s p leaf).drop 16).take 12 ++ natLe (v.toNat % 2 ^ 32) 4 ++
        (nodeAt s p leaf).drop 32) ∧
  (∀ (s : State) (h : CoreIx) (r : SlotRef) (t : Thread) (x : Record) (p : Pool) (base extra : Word) (leaf n bump v : Nat) (priors : List Word32) (c1 c2 : TreeRun), OnPool s h r t x p →
    x.words = [treeHead 3 2 leaf, base, extra, BitVec.ofNat 64 (v * 2 ^ 32 + n)] → leaf < 2 ^ 32 → v < 2 ^ 32 → 0 < n → n ≤ 4096 → Valid s p leaf →
    flagOn (nodeAt s p leaf) 0 = false → flagOn (nodeAt s p leaf) 1 = false → fieldAt (nodeAt s p 0) 24 4 = 0xFFFFFFFF → fieldAt (nodeAt s p 0) 20 4 = bump →
    leaf < bump → bump + n ≤ 1024 * p.pages →
    (validNode { pool := p, who := treeWho h t r.slot } leaf) { s := s, lines := [], dirty := [] } = (.ok true, c1) →
    (readPriors { pool := p, who := treeWho h t r.slot } r.core extra n) c1 = (.ok priors, c2) → priors.length = n → c2.lines = c1.lines → c2.dirty = [] →
    SameMemory s c2.s → Calm c2.s → CleanMemory c2.s → PoolLines c2.s p → c2.s.thread? r = some t →
    ∃ u, exec .treeCmdExpand s = .next u ∧ u.thread? r = some (tookTree t r x (BitVec.ofNat 64 (n * 2 ^ 32 + bump))) ∧
      OnlyNodes s u p (0 :: leaf :: (List.range n).map (fun j => bump + j)) ∧ fieldAt (nodeAt u p 0) 20 4 = bump + n ∧
      (∀ j < n, nodeAt u p (bump + j) = natLe 0 8 ++ natLe (priors.getD j 0).toNat 4 ++ natLe 0 2 ++ natLe 0x8000 2 ++ natLe leaf 4 ++ natLe 0 6 ++ natLe j 2 ++ natLe 0 36) ∧
      nodeAt u p leaf = (nodeAt s p leaf).take 14 ++ natLe (nodeFlags (nodeAt s p leaf) + 1) 2 ++ ((nodeAt s p leaf).drop 16).take 4 ++ natLe bump 4 ++ natLe n 2 ++
        ((nodeAt s p leaf).drop 26).take 2 ++ natLe v 4 ++ (nodeAt s p leaf).drop 32) ∧
  (∀ (s : State) (h : CoreIx) (r : SlotRef) (t : Thread) (x : Record) (p : Pool) (base : Word) (n : Nat), OnPool s h r t x p → x.words = [treeHead 1 5 n, base] →
    n < 2 ^ 32 → Valid s p n → nodeParent (nodeAt s p n) = fieldAt (nodeAt s p 0) 28 4 →
    ∃ u, exec .treeCmdReroot s = .next u ∧ u.thread? r = some (tookTree t r x (BitVec.ofNat 64 n)) ∧ OnlyNodes s u p [0, n] ∧
      nodeAt u p 0 = (nodeAt s p 0).take 28 ++ natLe n 4 ++ (nodeAt s p 0).drop 32 ∧
      nodeAt u p n = (nodeAt s p n).take 12 ++ natLe 0 2 ++ ((nodeAt s p n).drop 14).take 2 ++ natLe 0xFFFFFFFF 4 ++ (nodeAt s p n).drop 20 ∧
      u.poolList h = (s.poolList h).map (fun q => if q = p then { p with freeing := some (n, fieldAt (nodeAt s p 0) 28 4, t.region) } else q) ∧
      ({ what := .backgroundFreeing, arg := { core := h } } : Due) ∈ u.agenda) ∧
  (∀ (s : State) (h : CoreIx) (r : SlotRef) (t : Thread) (x : Record) (p : Pool) (base : Word), OnPool s h r t x p → x.words = [treeHead 1 6 0, base] →
    ∃ u, exec .treeCmdFree s = .next u ∧ u.thread? r = some (tookTree t r x 0) ∧ u.poolList h = (s.poolList h).erase p ∧ OnlyNodes s u p [0] ∧
      nodeAt u p 0 = (nodeAt s p 0).take 16 ++ natLe 0 16 ++ (nodeAt s p 0).drop 32) ∧
  (∀ (s : State) (h : CoreIx) (p : Pool) (region : Nat), s.arg.core = h → s.poolList h = [p] → p.freeing = some (2, 1, region) → Calm s → Trusted s p → CleanMemory s → PoolLines s p → 0 < p.pages →
    fieldAt (nodeAt s p 0) 20 4 = 3 → fieldAt (nodeAt s p 0) 24 4 = 0xFFFFFFFF → flagOn (nodeAt s p 1) 15 = true → flagOn (nodeAt s p 2) 15 = true →
    ∃ u, exec .backgroundFreeing s = .next u ∧ u.poolList h = [{ p with freeing := none }] ∧ OnlyNodes s u p [0, 1] ∧
      nodeAt u p 0 = (nodeAt s p 0).take 24 ++ natLe 1 4 ++ (nodeAt s p 0).drop 28 ∧ (nodeAt u p 1).take 8 = natLe 1 4 ++ natLe 0xFFFFFFFF 4 ∧
      nodeFlags (nodeAt u p 1) = 0)

/-! ### The compute pipe (R187, R238-R261, R264-R280) -/

/-- COMPUTE INSTRUCTIONS ENTER THEIR QUEUE (R187): on the address pipe, a V or X instruction takes a place at the tail of its slot's queue, with copies of the
shapes and handles that it names, and the slot goes on; a full queue holds the slot. -/
def Obligations.ComputeFormsEnterTheirQueue : Prop :=
  ∀ (s : State) (t : Thread) (d a b : VOp) (w : Fin 8) (rm : Rm) (c : VCond) (op : RedOp) (dim : Fin 4) (k : Fin 16) (tl : Fin 8) (f : Fin 4) (sh : Fin 16)
    (lead : Bool), Acts s t → s.pipe = .address → ∀ x ∈ computeForms (decide (s.cur.core % 16 = 0)) d a b w rm c op dim k tl f sh lead,
    (t.cq.length < 16 → Leaves x.1 s { afterMarks t [] 4 with cq := (afterMarks t [] 4).cq ++ [entered s t x.1 x.2.1 x.2.2.1 x.2.2.2.1 x.2.2.2.2] }) ∧
    (16 ≤ t.cq.length → exec x.1 s = .next (s.setThread s.cur { t with parked := some .computeRoom }))

/-- ELEMENTWISE FORMS (R152, R158, R167, R169, R173, R240, R247-R251, R254): one beat over up to eight elements of 32 bits writes each element of d with what its form
gives for the same elements of the sources, each rounded once, and joins the flags; VSEL leaves an element whose mask is 0.
The model's choice, where a clause rests on it: log entries 3, 12. -/
def Obligations.ElementwiseFormsWriteTheirLanes : Prop :=
  ∀ (s : State) (t : Thread) (e : QEntry) (rest : List QEntry) (id ia ib : Fin 16) (w : Fin 8) (rm : Rm) (shd sha shb : Shape) (n : Nat) (kd ka kb : CoreIx)
    (od oa ob : Nat), e.beats = 0 → e.opD = some shd → e.opA = some sha → e.opB = some shb → 0 < n → n ≤ 8 → Memory.wf (s.core kd).mem = true →
    let X := elem32 s ka oa
    let Y := elem32 s kb ob
    let Z := elem32 s kd od
    let fx (i : Nat) : FV := decodeF32 (X i)
    let fy (i : Nat) : FV := decodeF32 (Y i)
    let fz (i : Nat) : FV := decodeF32 (Z i)
    let flags (g h : Nat → FFlags) : FFlags := orAll ((List.range n).map h ++ (List.range n).map g)
    (Vec s t shd 0xF1 n kd od → Vec s t sha 0xF1 n ka oa →
      (Vec s t shb 0xF1 n kb ob →
        (∀ f ∈ vectorFloatForms, BeatOf s t (f.1 (.s id) (.s ia) (.s ib) w rm) e rest →
          BeatLeaves (f.1 (.s id) (.s ia) (.s ib) w rm) s t rest (flags (fun i => (f.2 rm (fx i) (fy i)).2) (fun i => (encodeF32 rm (f.2 rm (fx i) (fy i)).1).2)) kd od
            (bytes32 n (fun i => (encodeF32 rm (f.2 rm (fx i) (fy i)).1).1))) ∧
        (BeatOf s t (.vfma (.s id) (.s ia) (.s ib) w rm) e rest →
          BeatLeaves (.vfma (.s id) (.s ia) (.s ib) w rm) s t rest
            (flags (fun i => (fvFma rm (fx i) (fy i) (fz i)).2) (fun i => (encodeF32 rm (fvFma rm (fx i) (fy i) (fz i)).1).2)) kd od
            (bytes32 n (fun i => (encodeF32 rm (fvFma rm (fx i) (fy i) (fz i)).1).1)))) ∧
      (BeatOf s t (.vabs (.s id) (.s ia) w rm) e rest → BeatLeaves (.vabs (.s id) (.s ia) w rm) s t rest 0 kd od (bytes32 n (fun i => X i &&& 0x7FFFFFFF))) ∧
      (BeatOf s t (.vneg (.s id) (.s ia) w rm) e rest → BeatLeaves (.vneg (.s id) (.s ia) w rm) s t rest 0 kd od (bytes32 n (fun i => X i ^^^ 0x80000000))) ∧
      (BeatOf s t (.vmov (.s id) (.s ia) w rm) e rest → BeatLeaves (.vmov (.s id) (.s ia) w rm) s t rest 0 kd od (bytes32 n X)) ∧
      (BeatOf s t (.vsel (.s id) (.s ia) (.s ib) w rm) e rest → Vec s t shb 0xF6 n kb ob →
        BeatLeaves (.vsel (.s id) (.s ia) (.s ib) w rm) s t rest 0 kd od (bytes32 n (fun i => if Y i = 0 then Z i else X i))) ∧
      (∀ f ∈ vectorSpecialForms, BeatOf s t (f.1 (.s id) (.s ia) w) e rest →
        let r (i : Nat) : Word32 × FFlags := specialF32 f.2 (encodeF32 .rn (fx i)).1
        BeatLeaves (f.1 (.s id) (.s ia) w) s t rest
          (flags (fun i => (encodeF32 .rn (fx i)).2 ||| (r i).2 ||| flagNV (fx i).isSnan) (fun i => (encodeF32 .rn (decodeF32 (r i).1)).2)) kd od
          (bytes32 n (fun i => (encodeF32 .rn (decodeF32 (r i).1)).1)))) ∧
    (Vec s t shd 0xF6 n kd od → Vec s t sha 0xF1 n ka oa → Vec s t shb 0xF1 n kb ob →
      let verdict (c : VCond) (i : Nat) : Bool × Bool :=
        match c with
        | .eq => (decide (fvCmp (fx i) (fy i) = some .eq), (fx i).isSnan || (fy i).isSnan)
        | .ne => (decide (fvCmp (fx i) (fy i) ≠ some .eq), (fx i).isSnan || (fy i).isSnan)
        | .lt => (decide (fvCmp (fx i) (fy i) = some .lt), (fx i).isNan || (fy i).isNan)
        | .ge => (decide (fvCmp (fx i) (fy i) = some .gt ∨ fvCmp (fx i) (fy i) = some .eq), (fx i).isNan || (fy i).isNan)
        | .fun_ => ((fx i).isNan || (fy i).isNan, (fx i).isSnan || (fy i).isSnan)
      ∀ c, BeatOf s t (.vcmp c (.s id) (.s ia) (.s ib) w) e rest →
        BeatLeaves (.vcmp c (.s id) (.s ia) (.s ib) w) s t rest (orAll ((List.range n).map (fun i => flagNV (verdict c i).2))) kd od
          (bytes32 n (fun i => if (verdict c i).1 then 1 else 0))) ∧
    (Vec s t shd 0xF6 n kd od → Vec s t sha 0xF6 n ka oa →
      (Vec s t shb 0xF6 n kb ob → ∀ f ∈ vectorIntForms, BeatOf s t (f.1 (.s id) (.s ia) (.s ib) w) e rest →
        BeatLeaves (f.1 (.s id) (.s ia) (.s ib) w) s t rest 0 kd od (bytes32 n (fun i => f.2 (X i) (Y i)))) ∧
      (BeatOf s t (.vmatch (.s id) (.s ia) w) e rest → BeatLeaves (.vmatch (.s id) (.s ia) w) s t rest 0 kd od
        (bytes32 n (fun i => BitVec.ofNat 32 (((List.range i).filter (fun j => X j = X i)).map (fun j => 2 ^ j)).sum))))

/-- FORMS ACROSS LANES (R252, R253, R255-R261): prefix sums; a reduction of one run to one element, integer or by the fixed float tree; gathering by index, +0 outside
the table; scattering by index; the running block maximum and its last beat; a block quantised with its exponent pair; a contribution to a max-combining weir and the
taking of its result.
The model's choice, where a clause rests on it: log entries 19, 30, 57. -/
def Obligations.LaneCrossingFormsWriteTheirResults : Prop :=
  ∀ (s : State) (t : Thread) (e : QEntry) (rest : List QEntry) (id ia ib : Fin 16) (w : Fin 8) (rm : Rm) (shd sha shb : Shape) (n m : Nat) (kd ka kb : CoreIx)
    (od oa ob : Nat), e.opD = some shd → e.opA = some sha → e.opB = some shb → 0 < n → n ≤ 8 → Memory.wf (s.core kd).mem = true →
    let X := elem32 s ka oa
    let Y := elem32 s kb ob
    (e.beats = 0 → Vec s t shd 0xF6 n kd od → Vec s t sha 0xF6 n ka oa → BeatOf s t (.vscan (.s id) (.s ia) w rm) e rest →
      BeatLeaves (.vscan (.s id) (.s ia) w rm) s t rest 0 kd od (bytes32 n (fun i => (List.range (i + 1)).foldl (fun v j => v + X j) 0))) ∧
    (e.beats = 0 → Vec s t shd 0xF6 1 kd od → Vec s t sha 0xF6 n ka oa → ∀ f ∈ ([(.sum, fun x y => x + y), (.maxr, fun x y => if x.toInt < y.toInt then y else x),
        (.minr, fun x y => if y.toInt < x.toInt then y else x)] : List (RedOp × (Word32 → Word32 → Word32))),
      BeatOf s t (.vred f.1 0 (.s id) (.s ia) w rm) e rest →
      BeatLeaves (.vred f.1 0 (.s id) (.s ia) w rm) s t rest 0 kd od (natLe ((List.range (n - 1)).foldl (fun v j => f.2 v (X (j + 1))) (X 0)).toNat 4)) ∧
    (e.beats = 0 → Vec s t shd 0xF1 1 kd od → Vec s t sha 0xF1 n ka oa → BeatOf s t (.vred .sum 0 (.s id) (.s ia) w rm) e rest →
      ∀ v, (treeSum (fun i => if i < n then some (encodeF32 .rn (decodeF32 (X i))).1 else none)).1 = some v →
        ∃ fl, BeatLeaves (.vred .sum 0 (.s id) (.s ia) w rm) s t rest fl kd od (natLe (encodeF32 rm (decodeF32 v)).1.toNat 4)) ∧
    (e.beats = 0 → Vec s t shd 0xF1 n kd od → Vec s t sha 0xF1 m ka oa → Vec s t shb 0xF6 n kb ob → BeatOf s t (.vgath (.s id) (.s ia) (.s ib) w rm) e rest →
      BeatLeaves (.vgath (.s id) (.s ia) (.s ib) w rm) s t rest 0 kd od (bytes32 n (fun i => if 0 ≤ (Y i).toInt ∧ (Y i).toInt < m then X (Y i).toInt.toNat else 0))) ∧
    (e.beats = 0 → Vec s t shd 0xF1 m kd od → Vec s t sha 0xF1 n ka oa → Vec s t shb 0xF6 n kb ob → (∀ i < n, 0 ≤ (Y i).toInt ∧ (Y i).toInt < m) →
      (∀ i < n, ∀ j < n, Y i = Y j → i = j) → BeatOf s t (.vscat (.s id) (.s ia) (.s ib) w rm) e rest →
      ∃ u, exec (.vscat (.s id) (.s ia) (.s ib) w rm) s = .next u ∧ u.thread? s.cur = some { t.waitOver with cq := rest } ∧ OthersKeep s u ∧ u.hbm = s.hbm ∧
        (∀ i < n, elem32 u kd od (Y i).toInt.toNat = X i) ∧
        ∀ c x, (∀ i < n, ¬(c = kd ∧ od + 4 * (Y i).toInt.toNat ≤ x ∧ x < od + 4 * (Y i).toInt.toNat + 4)) → cellGet (u.core c).mem x = cellGet (s.core c).mem x) ∧
    (Vec s t shd 0xF1 1 kd od → Vec s t sha 0xF1 32 ka oa → BeatOf s t (.vbmax (.s id) (.s ia) w rm) e rest →
      let run (b : Nat) (v0 : Option Word32) : Word32 :=
        ((List.range 8).foldl (fun (v : Option Word32) j => match v with
          | none => some (absF32 (X (8 * b + j)))
          | some y => some (f32Max y (absF32 (X (8 * b + j)))).1) v0).getD 0
      (e.beats < 3 → ∃ u fl, exec (.vbmax (.s id) (.s ia) w rm) s = .next u ∧ SameMemory s u ∧ OthersKeep s u ∧
        u.thread? s.cur = some { t.waitOver with
          cq := { e with beats := e.beats + 1, waited := true, carry := (run e.beats (if e.beats = 0 then none else some (e.carry.setWidth 32))).setWidth 64,
                         ports := none } :: rest
          fflags := t.fflags ||| fl }) ∧
      (e.beats = 3 → ∃ fl, BeatLeaves (.vbmax (.s id) (.s ia) w rm) s t rest fl kd od
        (natLe (encodeF32 rm (decodeF32 (run 3 (some (e.carry.setWidth 32))))).1.toNat 4))) ∧
    (Vec s t shd 0xF3 32 kd od → od % 32 = 0 → Vec s t sha 0xF1 32 ka oa → Memory.wf (s.core kd).scale = true → s.scaleBad kd (od / 16 * 2) 2 = false → BeatOf s t (.vqnt (.s id) (.s ia) w) e rest →
      (e.beats < 3 → e.kept.length = 8 * e.beats → ∃ u, exec (.vqnt (.s id) (.s ia) w) s = .next u ∧ SameMemory s u ∧ OthersKeep s u ∧
        u.thread? s.cur = some { t.waitOver with cq := { e with beats := e.beats + 1, waited := true, kept := e.kept ++ (List.range 8).map (fun j => (X (8 * e.beats + j)).toNat), ports := none } :: rest }) ∧
      (e.beats = 3 → e.kept.length = 24 →
        let q := quantise true w.val ((e.kept ++ (List.range 8).map (fun j => (X (24 + j)).toNat)).map (fun b => decodeF32 (BitVec.ofNat 32 b)))
        ∃ u, exec (.vqnt (.s id) (.s ia) w) s = .next u ∧ u.thread? s.cur = some { t.waitOver with cq := rest, fflags := t.fflags ||| q.2.2.2 } ∧ OthersKeep s u ∧
          (∀ c x, cellGet (u.core c).mem x = if c = kd ∧ od ≤ x ∧ x < od + 32 then BitVec.ofNat 8 (q.1.getD (x - od) 0) else cellGet (s.core c).mem x) ∧
          (∀ c x, cellGet (u.core c).scale x = if c = kd ∧ x = od / 16 * 2 then BitVec.ofNat 8 q.2.1 else if c = kd ∧ x = od / 16 * 2 + 1 then BitVec.ofNat 8 q.2.2.1
            else cellGet (s.core c).scale x))) ∧
    (∀ (kw : Fin 16) (q : Weir), Vec s t shd 0xF1 n kd od → Vec s t sha 0xF1 n ka oa → BeatOf s t (.vwmax kw (.s id) (.s ia) w rm) e rest →
      s.weir? (clusterOf s.cur.core * 64 + (48 + kw.val)) = some q → q.names s.cur = true → q.world = t.world →
      let mine := (List.range n).map (fun i => (encodeF32 .rn (decodeF32 (X i))).1)
      let snan := (List.range n).any (fun i => (decodeF32 (X i)).isSnan)
      (e.beats = 0 → e.kept = [] → e.carry = 0 → (∃ p ∈ q.participants (clusterOf s.cur.core), p ≠ s.cur ∧ ∀ c ∈ q.contrib, c.1 ≠ p) →
        ∃ u, exec (.vwmax kw (.s id) (.s ia) w rm) s = .next u ∧ SameMemory s u ∧
          u.weir? (clusterOf s.cur.core * 64 + (48 + kw.val)) = some { q with contrib := q.contrib ++ [(s.cur, t.id, mine, snan)] } ∧
          u.thread? s.cur = some { t.waitOver with cq := { e with beats := 1, waited := true, kept := [], carry := if snan then 1 else 0, arrived := true, ports := none } :: rest }) ∧
      (e.beats = 0 → e.kept = [] → e.carry = 0 → q.results = [] → (∀ p ∈ q.participants (clusterOf s.cur.core), p = s.cur ∨ ∃ c ∈ q.contrib, c.1 = p) →
        ∃ u q', exec (.vwmax kw (.s id) (.s ia) w rm) s = .next u ∧ SameMemory s u ∧
          u.weir? (clusterOf s.cur.core * 64 + (48 + kw.val)) = some q' ∧ q'.contrib = [] ∧
          ∀ c ∈ q.contrib ++ [(s.cur, t.id, mine, snan)], (c.1, c.2.1, (List.range c.2.2.1.length).map (fun j =>
            (q.contrib ++ [(s.cur, t.id, mine, snan)]).foldl (fun v p => (f32Max v (p.2.2.1.getD j 0xFF800000)).1) 0xFF800000),
            (q.contrib ++ [(s.cur, t.id, mine, snan)]).any (fun p => p.2.2.2)) ∈ q'.results) ∧
      (∀ at_ els bad, e.beats = 1 → q.results.find? (fun p => p.2.1 = t.id) = some (at_, t.id, els, bad) → els.length = n →
        ∃ fl, BeatLeaves (.vwmax kw (.s id) (.s ia) w rm) s t rest fl kd od (bytes32 n (fun i => (encodeF32 rm (decodeF32 (els.getD i 0))).1))))

/-- THE JOINT ARRAY (R265-R280): MZERO clears a tile; MLOAD and MSTORE move it through a window, MSAVE and MREST its bytes, beat by beat; UNF binds a descriptor. An
MMA arrives at its row's gang weir; the sixteenth arrival forms the gang; a free array starts it, and its sixteen participants retire together, each with its tile.
The model's choice, where a clause rests on it: log entries 20, 31. -/
def Obligations.TheJointArrayUpdatesItsTiles : Prop :=
  (∀ (s : State) (t : Thread) (e : QEntry) (rest : List QEntry) (tl : Fin 8) (tile : List (Nat × BitVec 32)), BeatOf s t (.mzero tl) e rest → t.tiles[tl.val]? = some tile →
    ∃ u, exec (.mzero tl) s = .next u ∧ u.thread? s.cur = some { t.waitOver with cq := rest, tiles := t.tiles.set tl.val [] } ∧ SameMemory s u ∧ OthersKeep s u) ∧
  (∀ (s : State) (t : Thread) (e : QEntry) (rest : List QEntry) (tl : Fin 8) (ia : Fin 16) (sh : Shape) (tile : List (Nat × BitVec 32)) (k : CoreIx) (o : Nat),
    t.tiles[tl.val]? = some tile → keysRise tile = true → e.opA = some sh →
    (e.beats < 32 → TileAt s t sh 0xF1 16 16 k o →
      (BeatOf s t (.mload tl (.s ia)) e rest → ∃ u new, exec (.mload tl (.s ia)) s = .next u ∧
        u.thread? s.cur = some { t.waitOver with cq := afterBeat e rest 32, tiles := t.tiles.set tl.val new } ∧ SameMemory s u ∧ OthersKeep s u ∧
        TileIs new tile (fun i n => if 16 * i + n < 8 * e.beats ∨ 8 * e.beats + 8 ≤ 16 * i + n then none else some (elem32 s k o (16 * i + n)))) ∧
      (BeatOf s t (.mstore tl (.s ia)) e rest → Memory.wf (s.core k).mem = true →
        BeatLeaves (.mstore tl (.s ia)) s t (afterBeat e rest 32) 0 k (o + 32 * e.beats)
          (bytes32 8 (fun j => tileGet tile ((8 * e.beats + j) / 16) ((8 * e.beats + j) % 16))))) ∧
    (e.beats < 32 → TileAt s t sh 0xF0 1024 1 k o →
      (BeatOf s t (.mrest tl (.s ia)) e rest → ∃ u new, exec (.mrest tl (.s ia)) s = .next u ∧
        u.thread? s.cur = some { t.waitOver with cq := afterBeat e rest 32, tiles := t.tiles.set tl.val new } ∧ SameMemory s u ∧ OthersKeep s u ∧
        TileIs new tile (fun i n => if 16 * i + n < 8 * e.beats ∨ 8 * e.beats + 8 ≤ 16 * i + n then none else some (elem32 s k o (16 * i + n)))) ∧
      (BeatOf s t (.msave tl (.s ia)) e rest → Memory.wf (s.core k).mem = true →
        BeatLeaves (.msave tl (.s ia)) s t (afterBeat e rest 32) 0 k (o + 32 * e.beats)
          (bytes32 8 (fun j => tileGet tile ((8 * e.beats + j) / 16) ((8 * e.beats + j) % 16)))))) ∧
  (∀ (s : State) (t : Thread) (e : QEntry) (rest : List QEntry) (f : Fin 4) (sh : Fin 16) (u0 : Shape), BeatOf s t (.unf f sh) e rest → e.opB = some u0 → e.serial = false →
    unfoldFits s.cur u0 = true → unfoldAligned u0 = true → unfoldDikes s s.cur t.world u0 = true →
    ∃ u, exec (.unf f sh) s = .next u ∧ u.thread? s.cur = some { t.waitOver with cq := rest, unfolds := t.unfolds.set f (some u0) } ∧ SameMemory s u ∧ OthersKeep s u) ∧
  (∀ (s : State) (t : Thread) (e : QEntry) (rest : List QEntry) (i : Instr) (fm : MmaForm) (tl : Fin 8) (f : Fin 4) (a b : VOp) (lead : Bool),
    i = .mmaUnfold tl f b lead ∨ i = .mmaShape tl a b lead → BeatOf s t i e rest → mmaForm i = some fm → s.cur.slot < 16 →
    (e.waited = true ∨ waitsMet t (operandsAt s.cur i).1 0 = true) → s.rdcs = [] → (∃ tile, t.tiles[fm.tile.val]? = some tile) → fm.lead = decide (colOf s.cur.core = 0) →
    (if colOf s.cur.core = 0 then ∃ x, leadCheck s s.cur t e fm = .ok x else ∃ x, otherCheck s s.cur t e fm = .ok x) →
    let row := rowOf s.cur.core
    let g := tget GangRow.reset s.gangs row
    (∃ c < 16, c ≠ colOf s.cur.core ∧ (s.cur.slot, c) ∉ g.arrived) →
    ∃ u, exec i s = .next u ∧ u.thread? s.cur = some { t.waitOver with cq := { e with arrived := true, waited := true } :: rest } ∧ OthersKeep s u ∧ SameMemory s u ∧
      tget GangRow.reset u.gangs row = { g with arrived := g.arrived ++ [(s.cur.slot, colOf s.cur.core)] }) ∧
  (∀ (s : State) (row n : Nat), s.arg.n = row → (tget GangRow.reset s.gangs row).running = none → s.gangPick row = some n →
    ∃ u, exec .gangStart s = .next u ∧ (tget GangRow.reset u.gangs row).running = some n ∧ (tget GangRow.reset u.gangs row).last = n ∧ SameMemory s u ∧
      (∀ r, u.thread? r = s.thread? r) ∧ ({ what := .gangRetire, arg := { n := row } } : Due) ∈ u.agenda ∧
      ∀ r ∈ gangSlots row n, ∀ t e f, s.gangHead r = some (t, e, f) → (u.core r.core).shadow = some (f.tile.val, t.tiles.getD f.tile.val [])) ∧
  (∀ (s s1 s2 : State) (row n : Nat) (t : Thread) (e : QEntry) (f : MmaForm) (a : ASource) (b : OpView) (rows : List (List FV))
    (outs : List (SlotRef × List (Nat × BitVec 32) × FFlags)), s.arg.n = row → (tget GangRow.reset s.gangs row).running = some n → n < 16 →
    let lead : SlotRef := { core := row * 16, slot := n }
    s.gangHead lead = some (t, e, f) → mmaView lead t e .b f.b = .ok b → leadA lead t e f = .ok a → ((List.range 16).mapM (readA lead t a (leadK a b)) : Run (List (List FV))) { s with pipe := .compute } = (.ok rows, s1) →
    gangResults rows (leadK a b) (tget GangRow.reset s.gangs row).spoiled (gangSlots row n) s1 = (s2, .ok outs) →
    ∃ u, exec .gangRetire s = .next u ∧ (tget GangRow.reset u.gangs row).running = none ∧ SameMemory s2 u ∧
      ∀ p ∈ outs, ∀ t' e' f', s2.gangHead p.1 = some (t', e', f') →
        u.thread? p.1 = some { t' with cq := t'.cq.tail, tiles := t'.tiles.set f'.tile.val p.2.1, fflags := t'.fflags ||| p.2.2 }) ∧
  (∀ (tile : List (Nat × BitVec 32)) (a b : List (List FV)), keysRise tile = true →
    TileIs (mmaTile tile a b).1 tile (fun i n => some (mmaCell (tileGet tile i n) ((a.getD i []).zip (b.getD n [])) 128).1))

/-! ### Translators (R386-R396, R401) -/

/-- THE ESNEN SET (R387, R388, R390, R392, R394-R396, R401): with a translation running and its meter not 0, each instruction costs one unit of the meter and writes
its register, or loads, stores, branches, emits, marks, looks up, or ends the translation, as R388 defines; a next offset that cannot be fetched and an access outside
the windows end it with CONFINE, a full output with EMIT; with a meter of 0 it ends with METER. Where it ends, nothing in the module makes the report's write wait. -/
def Obligations.EsnenInstructionsRunAndEnd : Prop :=
  ∀ (s : State) (k : Translator) (d a b : Fin 16) (imm : BitVec 15) (imm17 : BitVec 17) (n5 : BitVec 5), s.translator = some k → k.ended = none →
    (k.meter = 0 → Stops .meterExhausted s { k with lastPc := k.pc } 0x40 0) ∧
    (k.meter ≠ 0 →
      let x := esReg k a
      let y := esReg k b
      let ea := x + imm.signExtend 32
      let target := k.pc + 4 * imm.signExtend 32
      (∀ p ∈ ([(.esnenLi d imm, imm.signExtend 32), (.esnenLih d imm17, (imm17.setWidth 32 <<< 15) ||| (esReg k d &&& 0x7FFF)), (.esnenAdd d a b, x + y),
          (.esnenAddi d a imm, ea), (.esnenSub d a b, x - y), (.esnenAnd d a b, x &&& y), (.esnenOr d a b, x ||| y), (.esnenXor d a b, x ^^^ y),
          (.esnenShli d a n5, x <<< n5.toNat), (.esnenShri d a n5, x >>> n5.toNat), (.esnenTlook d a, BitVec.ofNat 32 (nativeLookup x.toNat))] : List (Instr × Word32)),
        (Fetches k (k.pc + 4) → GoesOn p.1 s (esSet (esStep k) d p.2) (k.pc + 4)) ∧
        (¬Fetches k (k.pc + 4) → Stops p.1 s (esSet (esStep k) d p.2) 0x41 (k.pc + 4).toNat)) ∧
      (∀ p ∈ ([(.esnenLdb d a imm, 1), (.esnenLdh d a imm, 2), (.esnenLdw d a imm, 4)] : List (Instr × Nat)),
        (∀ v, WindowReads k ea.toNat p.2 v → Fetches k (k.pc + 4) → GoesOn p.1 s (esSet (esStep k) d (BitVec.ofNat 32 v)) (k.pc + 4)) ∧
        (NoWindow k ea.toNat p.2 → Stops p.1 s (esStep k) 0x41 ea.toNat)) ∧
      (∀ p ∈ ([(.esnenStb a b imm, 1), (.esnenStw a b imm, 4)] : List (Instr × Nat)),
        (0x60000000 ≤ ea.toNat → ea.toNat + p.2 ≤ 0x60010000 → Fetches k (k.pc + 4) →
          GoesOn p.1 s { esStep k with scratch := cellsPut k.scratch (ea.toNat - 0x60000000) (natLe y.toNat p.2) } (k.pc + 4)) ∧
        (¬(0x60000000 ≤ ea.toNat ∧ ea.toNat + p.2 ≤ 0x60010000) → Stops p.1 s (esStep k) 0x41 ea.toNat)) ∧
      (∀ p ∈ ([(.esnenBeq a b imm, decide (x = y)), (.esnenBne a b imm, decide (x ≠ y)), (.esnenBlt a b imm, decide (x.toInt < y.toInt))] : List (Instr × Bool)),
        let pc := if p.2 then target else k.pc + 4
        (Fetches k pc → GoesOn p.1 s (esStep k) pc) ∧ (¬Fetches k pc → Stops p.1 s (esStep k) 0x41 pc.toNat)) ∧
      (Fetches k target → GoesOn (.esnenJal d imm) s (esSet (esStep k) d (k.pc + 4)) target) ∧
      (¬Fetches k target → Stops (.esnenJal d imm) s (esSet (esStep k) d (k.pc + 4)) 0x41 target.toNat) ∧
      (Fetches k x → GoesOn (.esnenJr a) s (esStep k) x) ∧ (¬Fetches k x → Stops (.esnenJr a) s (esStep k) 0x41 x.toNat) ∧
      (k.out.length < k.outcap → Fetches k (k.pc + 4) → GoesOn (.esnenEmit a) s { esStep k with out := k.out ++ [x] } (k.pc + 4)) ∧
      (k.outcap ≤ k.out.length → Stops (.esnenEmit a) s (esStep k) 0x42 0) ∧
      (let others := k.marks.filter (fun p => p.1 ≠ 4 * k.out.length)
       (others.length < k.markcap → Fetches k (k.pc + 4) → GoesOn (.esnenMark a) s { esStep k with marks := others ++ [(4 * k.out.length, x.toNat)] } (k.pc + 4)) ∧
       (k.markcap ≤ others.length → Stops (.esnenMark a) s (esStep k) 0x42 0)) ∧
      (x.toNat % 4 = 0 → x.toNat < 4 * k.out.length → Stops (.esnenDone a) s { esStep k with entry := x.toNat } 0 0) ∧
      (¬(x.toNat % 4 = 0 ∧ x.toNat < 4 * k.out.length) → Stops (.esnenDone a) s (esStep k) 0x42 0) ∧
      Stops (.esnenFail imm) s (esStep k) 0x50 imm.toNat)

/-! ### Memory, links, power, device registers -/

/-- MEMORY AND ITS CONTROLLERS (R32, R41, R49-R51, R57, R59, R92-R94, R434): module reset gives every piece of state its reset value; a walk that succeeds puts its
leaf into the TLBs and lets its thread go on, and wakes the threads of a resolved record; one that fails makes the fault record and halts its thread with
XLAT, or parks it on the record; a base die erases its stack before the stack is ready, and a patrol pass erases the lines whose key is not live; a retired frame takes a
spare, or is poisoned; a lost line's notice goes to its owner's supervisor; the spillway, on a turn of the slot number that
pays, records a fifth reader, and drops the copies of a line.
The model's choice, where a clause rests on it: log entries 28, 29, 46, 52. -/
def Obligations.MemoryControllersKeepTheirRules : Prop :=
  (∀ s : State, exec .moduleReset s = .next State.reset) ∧
  (∀ (s s1 : State) (q : WalkReq) (t : Thread) (va : Nat), OnlyWalk s q t va →
    (∀ e, ({ s with walks := [] } : State).walk q.world q.page q.slot.slot = (s1, some e) →
      ∃ u, exec .tlbWalk s = .next u ∧ u.walks = [] ∧ e ∈ tget [] u.ctlbs (clusterOf q.slot.core) ∧ e.piece q.page ∈ (u.core q.slot.core).utlb ∧
        u.thread? q.slot = some { t with parked := none } ∧
        ∀ f, s.record? q.world q.page = some f → f.tid = t.id → u.record? q.world q.page = none ∧
          ∀ p ∈ f.parked, ∀ v, s.thread? p.1 = some v → ∃ w, u.thread? p.1 = some w ∧ w.parked = none) ∧
    (({ s with walks := [] } : State).walk q.world q.page q.slot.slot = (s1, none) →
      (∀ f, s.record? q.world q.page = some f → f.tid ≠ t.id → ∃ u, exec .tlbWalk s = .next u ∧ u.thread? q.slot = some { t with parked := some (.record q.world va) } ∧
        u.record? q.world q.page = some { f with parked := f.parked ++ [(q.slot, q.stamp, q.pipe)] }) ∧
      (∀ g sup v, s.region? t.region = some g → g.policy ≤ 1 → (∀ p ∈ s.regions, p.supervisor ≠ t.id) → s.threadById g.supervisor = some (sup, v) → ¬sameSlot sup q.slot →
        (∀ f, s.record? q.world q.page = some f → f.tid = t.id) →
        ∃ u f, exec .tlbWalk s = .next u ∧ u.record? q.world q.page = some f ∧ f.tid = t.id ∧
          (s.record? q.world q.page = none → f.thread = q.slot ∧ f.parked = []) ∧ (∀ f', s.record? q.world q.page = some f' → f = f') ∧
          u.thread? q.slot = some (haltedAt { s with cur := q.slot } t { cause := .xlat, imprecise := false, debugger := false, page := some va } (BitVec.ofNat 64 va) t.pc t.skip) ∧
          Waits u sup (faultMessage { s with cur := q.slot } t .xlat 0 (BitVec.ofNat 64 va)) g.id false))) ∧
  (∀ (s : State) (d : Nat), Ordered s → d < 16 → s.arg.n = d → s.ready.getLsbD (16 + d) = false → ∃ u, exec .stackReady s = .next u ∧ Erases s u d (fun _ => True) ∧
    (∀ i < 64, u.ready.getLsbD i = (s.ready.getLsbD i || decide (i = 16 + d))) ∧ tget Patrol.reset u.patrols d = { running := true, begun := s.tc, lastDone := none }) ∧
  (∀ (s : State) (d : Nat), Ordered s → s.arg.n = d → (tget Patrol.reset s.patrols d).running = true →
    ∃ u, exec .patrolPass s = .next u ∧ Erases s u d (fun l => ¬((keyOf s (s.tag l).world).live = true ∧ (keyOf s (s.tag l).world).epoch = (s.tag l).epoch)) ∧
      tget Patrol.reset u.patrols d = { running := true, begun := s.tc + 1, lastDone := some (tget Patrol.reset s.patrols d).begun }) ∧
  (∀ (s : State) (frame line taken : Nat), s.arg.n = frame → s.retire = [(frame, line)] → taken = tget 0 s.spares (s.sliceNo line) →
    (taken < 16 → ∃ u, exec .frameRemap s = .next u ∧ Quiet s u ∧ u.retire = [] ∧ tget 0 u.spares (s.sliceNo line) = taken + 1 ∧ u.lines = s.lines) ∧
    (16 ≤ taken → ∃ u, exec .frameRemap s = .next u ∧ Quiet s u ∧ u.retire = [] ∧ (∀ i < 1024, u.tag (frame * 65536 + 64 * i) = { s.tag (frame * 65536 + 64 * i) with poison := true }) ∧
      (∀ l, (∀ i < 1024, l ≠ frame * 65536 + 64 * i) → u.tag l = s.tag l) ∧ (∃ x, .powerLog 1 frame x ∈ u.out) ∧
      (∃ l ∈ u.lost, l.die = paDie line ∧ l.pa = frame * 65536 ∧ l.world = (s.tag line).world) ∧ ({ what := .containmentNotice, arg := { n := paDie line } } : Due) ∈ u.agenda)) ∧
  (∀ (s : State) (l : LostLine) (id : Nat) (g : Region) (sup : SlotRef) (v : Thread), s.lost = [l] → s.arg.n = l.die → l.stamp.src = containmentSource l.die → l.region = some id → id < 0xFFFFFF → s.region? id = some g →
    g.policy ≤ 1 → s.threadById g.supervisor = some (sup, v) → ∃ u, exec .containmentNotice s = .next u ∧ u.lost = [] ∧ Quiet s u ∧
      Waits u sup [BitVec.ofNat 64 (0x15 * 2 ^ 56 + 2 * 2 ^ 40 + 0xFC * 2 ^ 32 + l.world * 2 ^ 24 + id), BitVec.ofNat 64 l.stamp.tc, BitVec.ofNat 64 (containmentSource l.die), BitVec.allOnes 64,
        (match l.va with | some a => BitVec.ofNat 64 a | none => BitVec.allOnes 64), BitVec.ofNat 64 0xFFFFFFFF, BitVec.ofNat 64 l.pa, 0] g.id true) ∧
  (∀ (s : State) (j : SpillJob) (e : DirEntry), s.spillFills = [j] → s.arg.core = j.home → s.arg.slot % 16 = j.slot % 16 →
    (∃ y ∈ tget [] s.slices (s.sliceNo j.line), y.pa = j.line) → e = tget DirEntry.zero s.dirs j.line → e.state ≠ 0 →
    ∃ u, exec .spillwayOverflow s = .next u ∧ u.spillFills = [] ∧ Quiet s u ∧ tget DirEntry.zero u.dirs j.line = { state := 2, ptrs := [] } ∧ j.line ∈ (u.core j.core).l1 ∧
      (u.overMask j.line).getLsbD (clusterOf j.core % 64) = true ∧
      ∀ p ∈ e.ptrs, (u.overMask j.line).getLsbD (clusterOf (pointerCore (paDie j.line) p) % 64) = true) ∧
  (∀ (s : State) (j : SpillJob), s.spillInvs = [j] → s.arg.core = j.home → s.arg.slot % 16 = j.slot % 16 → (tget DirEntry.zero s.dirs j.line).state = 2 →
    ∃ u, exec .spillwayInvalidation s = .next u ∧ u.spillInvs = [] ∧ Quiet s u ∧ tget DirEntry.zero u.dirs j.line = DirEntry.zero ∧ u.overMask j.line = 0 ∧
      (∀ c, dieOf c = paDie j.line → (s.overMask j.line).getLsbD (clusterOf c % 64) = true → j.line ∉ (u.core c).l1) ∧
      ((s.core j.core).buf ≠ [] → ({ what := .storePerformed, arg := { core := j.core } } : Due) ∈ u.agenda))

/-- LINKS, POWER, DEVICE REGISTERS (R33, R37, R41, R53-R55, R101, R441, R446-R448, R452, R458, R460-R462, R464): a frame passes once the channels have
their keys and advances its channel's counter, and eight failures in a row retrain the link; a channel rekeys at 2^32 frames; clusters are gated and wake; an invalidation removes its entries from every TLB of the module;
the owner's registers take the owner's writes, and no others, under their conditions.
A claim bears a stamp, and is decided, once its cycle is over, when no claim with an earlier stamp stands before the register.
The model's choice, where a clause rests on it: log entries 4, 6, 24, 27, 44, 45, 57. -/
def Obligations.LinksPowerAndDeviceRegisters : Prop :=
  (∀ (s : State) (n : Nat) (c : Channel), s.arg.n = n → s.channel n = c →
    (s.ready.getLsbD 63 = false → exec .linkFrame s = .next s) ∧
    (s.ready.getLsbD 63 = true → c.retrain = false → ∃ u c', exec .linkFrame s = .next u ∧ u.channel n = c' ∧ c'.key = c.key ∧ c'.phase = c.phase ∧ c'.counter = c.counter + 1 ∧
      c'.failures = (if s.arg.flag then 0 else c.failures + 1) ∧ (c'.retrain = true ↔ 8 ≤ c'.failures) ∧ (∀ k, k ≠ n → u.channel k = s.channel k) ∧
      (8 ≤ c'.failures → ({ what := .linkRetrain, arg := { n := n } } : Due) ∈ u.agenda) ∧
      (2 ^ 32 ≤ c'.counter → ({ what := .channelRekey, arg := { n := n } } : Due) ∈ u.urgent) ∧ Quiet s u) ∧
    (s.ready.getLsbD 63 = true → c.retrain = true → exec .linkFrame s = .next (s.later .linkFrame s.arg)) ∧
    (2 ^ 32 ≤ c.counter → ∃ u, exec .channelRekey s = .next u ∧ u.channel n = { c with key := shake256 (c.key ++ natLe c.counter 8) 32, counter := 0, phase := !c.phase } ∧
      (∀ k, k ≠ n → u.channel k = s.channel k) ∧ Quiet s u) ∧
    (c.retrain = true → ∃ u, exec .linkRetrain s = .next u ∧ u.channel n = { c with retrain := false, failures := 0 } ∧ (∃ x, .powerLog 2 n x ∈ u.out) ∧
      (∀ k, k ≠ n → u.channel k = s.channel k) ∧ Quiet s u)) ∧
  (∀ (s : State) (k : Nat), s.arg.n = k →
    (s.clusterIdle k = true → ∃ u, exec .clusterGate s = .next u ∧ k ∈ u.gated ∧ (∀ j, j ≠ k → (j ∈ u.gated ↔ j ∈ s.gated)) ∧ Quiet s u) ∧
    (s.clusterIdle k = false → exec .clusterGate s = .next s) ∧
    (∃ u, exec .clusterWake s = .next u ∧ k ∉ u.gated ∧ (∀ j, j ≠ k → (j ∈ u.gated ↔ j ∈ s.gated)) ∧ Quiet s u)) ∧
  (∀ s : State, exec .clockThrottle s = .next { s with throttled := s.arg.flag } ∧
    (s.owner = some .hostDriver → exec .hostLinkReset s = .next { s with owner := none }) ∧ (s.owner ≠ some .hostDriver → exec .hostLinkReset s = .next s)) ∧
  (∀ (s : State) (v : Word), v = BitVec.ofNat 64 (leNat s.arg.data) →
    let hit (e : TlbEntry) : Prop := e.world = s.arg.m ∧ (bitOf v 0 = true ∨ (bitOf v 1 = true ∧ e.page / 512 = bitsOf v 51 16 / 512) ∨
      (bitOf v 1 = false ∧ e.large = false ∧ e.page = bitsOf v 51 16))
    Calm s → ∃ u, exec .invalidation s = .next u ∧ (∀ k e, e ∈ tget [] u.ctlbs k → ¬hit e) ∧ (∀ c e, e ∈ (u.core c).utlb → ¬hit e) ∧
      (s.rdcs = [] → Quiet s u ∧ (∀ k e, e ∈ tget [] s.ctlbs k → ¬hit e → e ∈ tget [] u.ctlbs k) ∧ ∀ c e, e ∈ (s.core c).utlb → ¬hit e → e ∈ (u.core c).utlb)) ∧
  (∀ (s : State) (d off : Nat), s.arg.n = d * 2 ^ 36 + off → d < 16 → 0x20000 ≤ off → off + s.arg.data.length ≤ 0x20800 →
    (OwnerWrites s → s.locked = false → (∀ p ∈ s.keys, p.1 ≠ 0 → p.2.live = false) → ∃ u, exec .groupModeWrite s = .next u ∧ Quiet s u ∧
      (∀ i < s.arg.data.length, ∀ j < 8, d * 16384 + 8 * (off - 0x20000 + i) + j ∈ u.pinned ↔ (s.arg.data.getD i 0).getLsbD j = true) ∧
      ∀ g, ¬(d * 16384 + 8 * (off - 0x20000) ≤ g ∧ g < d * 16384 + 8 * (off - 0x20000 + s.arg.data.length)) → (g ∈ u.pinned ↔ g ∈ s.pinned)) ∧
    (¬OwnerWrites s ∨ s.locked = true ∨ (∃ p ∈ s.keys, p.1 ≠ 0 ∧ p.2.live = true) → exec .groupModeWrite s = .next s)) ∧
  (∀ (s : State) (d : Nat) (v : Word), d = devDie s.arg.n → v = BitVec.ofNat 64 (leNat s.arg.data) →
    (OwnerWrites s → s.locked = false → bitsOf v 63 2 = 0 → ∃ u, exec .l2ControlWrite s = .next u ∧ Quiet s u ∧
      tget 0 u.l2ctl d = (tget 0 s.l2ctl d &&& 2) ||| (v.setWidth 2 &&& 1) ∧ ∀ k, k ≠ d → tget 0 u.l2ctl k = tget 0 s.l2ctl k) ∧
    (¬OwnerWrites s ∨ s.locked = true ∨ bitsOf v 63 2 ≠ 0 → exec .l2ControlWrite s = .next s)) ∧
  (∀ (s : State) (m : Master), s.arg.master = some m →
    (s.arg.stamp = none → exec .ownerClaim s =
      .next ((s.spend (s.stampOf (masterSource m))).later .ownerClaim { s.arg with stamp := some (s.stampOf (masterSource m)) })) ∧
    (∀ st, s.arg.stamp = some st →
      let earlier := ∃ d ∈ s.agenda, d.what = .ownerClaim ∧ ∃ x, d.arg.stamp = some x ∧ x.before st = true
      (s.tc ≤ st.tc ∨ earlier → exec .ownerClaim s = .next (s.later .ownerClaim s.arg)) ∧
      (st.tc < s.tc → ¬earlier →
        (s.owner = none → leNat s.arg.data = m.number → exec .ownerClaim s = .next { s with owner := some m }) ∧
        (s.owner ≠ none ∨ leNat s.arg.data ≠ m.number → exec .ownerClaim s = .next s)))) ∧
  (∀ (s : State) (k : Nat) (d : List Byte), s.arg.n = k →
    (k < 4 ∧ d = Config.firmwareMeasurement k ∨ k = 4 ∧ d = nativeIdentity ∨ 6 ≤ k ∧ k ≤ 15 ∧ d = s.arg.data ∧ d.length = 64 ∧ OwnerWrites s) →
    ∃ u, exec .measurementExtend s = .next u ∧ Quiet s u ∧ tget [] u.measures k = shake256 (bytesAt (tget [] s.measures k) 0 64 ++ d) 64 ∧
      ∀ j, j ≠ k → tget [] u.measures j = tget [] s.measures j) ∧
  (∀ s : State, OwnerWrites s → ∃ u, exec .stateRegisterWrite s = .next u ∧ Quiet s u ∧ ∀ k < 16,
    let x := leNat s.arg.data / 4 ^ k % 4
    (x = 3 → fnAt u (k + 1) = fnAt s (k + 1)) ∧ (x = 1 ∨ x = 2 → fnAt u (k + 1) = { fnAt s (k + 1) with state := BitVec.ofNat 2 x }) ∧
    (x = 0 → fnAt u (k + 1) = { fnAt s (k + 1) with state := 0, pending := [] } ∧ ∀ p ∈ (fnAt s (k + 1)).pending, .interrupt (k + 1) p.1 p.2 ∈ u.out)) ∧
  (∀ s : State, ¬OwnerWrites s → exec .stateRegisterWrite s = .next s) ∧
  (∀ s : State,
    (∀ m, s.arg.flag = true → s.arg.master = some m → s.owner = some m → ∃ u, exec .deviceRegisterWrite s = .next u ∧ Quiet s u ∧
      tget 0 u.worldTable (s.arg.n % 256) = s.arg.word.toNat ∧ ∀ w, w ≠ s.arg.n % 256 → tget 0 u.worldTable w = tget 0 s.worldTable w) ∧
    (∀ s1, s.arg.flag = false → s.arg.n = 0x30000 → s.arg.data.length = 64 → OwnerWrites s → s.arg.stamp = none → s1 = s.spend (s.stampOf (writer s.arg)) →
      (s.mboxBusy = true → exec .deviceRegisterWrite s =
        .next { s1 with mboxWait := s.mboxWait ++ [{ what := .deviceRegisterWrite, arg := { s.arg with stamp := some (s.stampOf (writer s.arg)) } }] }) ∧
      (∀ i, s.mboxBusy = false → s.mboxWait = [] → commandEvent (fieldAt s.arg.data 0 1) = some i → commandBad s.arg.data = false →
        exec .deviceRegisterWrite s = .next ({ s1 with mboxBusy := true }.later i { data := s.arg.data })) ∧
      (s.mboxBusy = false → s.mboxWait = [] → (commandEvent (fieldAt s.arg.data 0 1) = none ∨ commandBad s.arg.data = true) →
        ∃ u, exec .deviceRegisterWrite s = .next u ∧ Declined s1 u 5)) ∧
    (s.arg.flag = false → (¬OwnerWrites s ∨ ¬(devDie s.arg.n = 0 ∧ devOff s.arg.n = 0x30000 ∧ s.arg.data.length = 64)) → exec .deviceRegisterWrite s = .next s))

/-- HOST AND PORTS (R108, R109, R123, R332, R455-R459): accesses of the host are performed in the order of its posted writes, and those of the external ports, through
the tables of their world; BAR0 gives the MSI-X table, the pending bits, the receipt's address and the headgate window, BAR2 the device registers; a function that is
reset or disabled loses its regions, its pending bits, its world.
The model's choice, where a clause rests on it: log entries 13, 26, 44. -/
def Obligations.HostAccessesAndFunctionsAnswer : Prop :=
  (∀ (s : State), ¬InOrder s → exec .hostPostedWrite s = .next (s.later .hostPostedWrite s.arg) ∧ exec .hostRead s = .next (s.later .hostRead s.arg) ∧
    exec .hostLaunch s = .next (s.later .hostLaunch s.arg)) ∧
  (∀ (s : State) (f : HostFn), InOrder s → f = fnAt s s.arg.n →
    (∀ w s1 ok, s.arg.core = 0 → s.fnWorld s.arg.n = some w → s.agentWrite hostLinkSource 4 w s.arg.m s.arg.data = (s1, ok) → s1.stall = none → exec .hostPostedWrite s = .next s1) ∧
    (s.arg.core = 1 →
      (s.arg.m = 0 → s.arg.data.length = 64 → exec .hostPostedWrite s = .next { s with urgent := s.urgent ++ [{ what := .hostLaunch, arg := { n := s.arg.n, data := s.arg.data } }] }) ∧
      (0x10000 ≤ s.arg.m → s.arg.m + s.arg.data.length ≤ 0x18000 → ∃ u, exec .hostPostedWrite s = .next u ∧ Quiet s u ∧
        fnAt u s.arg.n = { f with msix := cellsPut f.msix (s.arg.m - 0x10000) s.arg.data }) ∧
      (s.arg.m = 0x30000 → s.arg.data.length = 8 → ∃ u, exec .hostPostedWrite s = .next u ∧ Quiet s u ∧ fnAt u s.arg.n = { f with receipt := leNat s.arg.data }) ∧
      (0x20000 ≤ s.arg.m → s.arg.m + s.arg.data.length ≤ 0x20100 →
        (f.state ≠ 2 → exec .hostPostedWrite s = .next s) ∧
        (f.state = 2 → ∃ u, exec .hostPostedWrite s = .next u ∧ Quiet s u ∧ ∀ v, (∃ st, (v, st) ∈ (fnAt u s.arg.n).pending) ↔
          (if 8 * (s.arg.m - 0x20000) ≤ v ∧ v < 8 * (s.arg.m - 0x20000 + s.arg.data.length) then
            (s.arg.data.getD ((v - 8 * (s.arg.m - 0x20000)) / 8) 0).getLsbD (v % 8) = true else ∃ st, (v, st) ∈ f.pending)))) ∧
    (∀ w s1 b, s.arg.core = 0 → s.fnWorld s.arg.n = some w → s.agentRead hostLinkSource 4 w s.arg.m s.arg.word.toNat = (s1, some b) → s1.stall = none →
      exec .hostRead s = .next (s1.emit (.hostData s.arg.n b))) ∧
    (∀ w s1, s.arg.core = 0 → s.fnWorld s.arg.n = some w → s.agentRead hostLinkSource 4 w s.arg.m s.arg.word.toNat = (s1, none) → s1.stall = none →
      exec .hostRead s = .next (s1.emit (.hostFault s.arg.n))) ∧
    (s.arg.core = 2 → s.arg.n = 0 → ∃ u, exec .hostRead s = .next u ∧ Quiet s u ∧ ∃ b, .hostData 0 b ∈ u.out ∧ b.length = s.arg.word.toNat ∧
      ∀ i < s.arg.word.toNat, ∀ v, s.deviceByte (devDie (2 ^ 40 + s.arg.m)) (devOff (2 ^ 40 + s.arg.m) + i) = some v → b.getD i 0 = v)) ∧
  (∀ (s s1 : State), s1.stall = none →
    (∀ ok, s.arg.flag = true → s.agentWrite (sourceNo 4 0 (s.arg.n + 1)) 4 (s.arg.word.toNat % 256) s.arg.m s.arg.data = (s1, ok) →
      exec .externalPortAccess s = .next (if ok then s1 else s1.emit (.portFault s.arg.n))) ∧
    (∀ b, s.arg.flag = false → s.agentRead (sourceNo 4 0 (s.arg.n + 1)) 4 (s.arg.word.toNat % 256) s.arg.m s.arg.slot = (s1, b) →
      exec .externalPortAccess s = .next (s1.emit (match b with | some b => .portData s.arg.n b | none => .portFault s.arg.n)))) ∧
  (∀ s : State, ∃ u, exec .functionLevelReset s = .next u ∧ EndsRegions s u s.arg.n ∧
    (fnAt u s.arg.n).pending = (fnAt s s.arg.n).pending.filter (fun p => !p.2.before (s.stampOf hostLinkSource))) ∧
  (∀ s : State, ∃ u, exec .vfEnableSet s = .next u ∧ Quiet s u ∧ fnAt u 0 = fnAt s 0 ∧ ∀ k < 16, fnAt u (k + 1) = { fnAt s (k + 1) with enabled := true }) ∧
  (∀ s : State, ∃ u, exec .vfEnableClear s = .next u ∧ ∀ k < 16, fnAt u (k + 1) = { fnAt s (k + 1) with enabled := false } ∧
    ((fnAt s (k + 1)).enabled = true → EndsRegions s u (k + 1) ∧ .completerAbort (k + 1) ∈ u.out ∧ ∀ b, (fnAt s (k + 1)).bound = some b →
      ({ what := .destroy, arg := { m := k + 2, data := [2, BitVec.ofNat 8 b.2, 0, 0, 0, 0, 0, 0] ++ natLe (fnAt s (k + 1)).receipt 8 } } : Due) ∈ u.agenda)) ∧
  (∀ s : State, InOrder s → s.arg.data.length = 64 → s.arg.n ≤ 16 →
    (s.arg.n ≠ 0 → (fnAt s s.arg.n).enabled = false → exec .hostLaunch s = .next (s.emit (.discardedLaunch s.arg.n))) ∧
    (∀ w, (s.arg.n = 0 ∧ w = 0 ∨ s.arg.n ≠ 0 ∧ (fnAt s s.arg.n).enabled = true ∧ ∃ p, (fnAt s s.arg.n).bound = some (p, w)) →
      ∃ u, exec .hostLaunch s = .next u ∧ Quiet s u ∧ ({ what := .launchAdmission, arg := {} } : Due) ∈ u.agenda ∧
        u.launches = s.launches ++ [{ record := s.arg.data, stamp := s.stampOf hostLinkSource, slot := none, tid := 0, world := w, region := 0,
                                      fn := some s.arg.n, from_ := s.arg.n }]))

/-- FUNCTIONS THAT ARE NOT BOUND (R457): a write of 64 bytes to the headgate window of such a function is discarded: no launch comes to wait, and
nothing else changes. -/
def Obligations.UnboundFunctionsLaunchNothing : Prop :=
  ∀ s : State, InOrder s → s.arg.n ≠ 0 → s.arg.n ≤ 16 → (fnAt s s.arg.n).bound = none → s.arg.data.length = 64 →
    (s.arg.core = 1 → s.arg.m = 0 → exec .hostPostedWrite s = .next { s with urgent := s.urgent ++ [{ what := .hostLaunch, arg := { n := s.arg.n, data := s.arg.data } }] }) ∧
    exec .hostLaunch s = .next (s.emit (.discardedLaunch s.arg.n)) ∧ (s.emit (.discardedLaunch s.arg.n)).launches = s.launches ∧
    { s.emit (.discardedLaunch s.arg.n) with out := s.out } = s


/-- MAILBOX COMMANDS (R41, R103, R421, R427, R441-R445, R449, R450, R452, R461): each command ends with the status of the first condition that it fails, or with
its effect and status 0; DESTROY terminates the regions of its world, and when all are complete erases caches and key. The reply makes way for the
earliest write that waits.
The model's choice, where a clause rests on it: log entries 5, 44. -/
def Obligations.MailboxCommandsEndWithTheirEffect : Prop :=
  (∀ (s : State) (d : Due) (i : Instr) (status : Nat), earliestBy (fun (d : Due) => d.arg.stamp.getD (s.stampOf securitySource)) s.mboxWait = some d →
    commandEvent (fieldAt d.arg.data 0 1) = some i → commandBad d.arg.data = false →
    s.mailReply status = ({ s.writeReply status with mboxWait := s.mboxWait.erase d, mboxBusy := true }.later i { data := d.arg.data })) ∧
  (∀ (s : State) (q : Command), q = commandOf s.arg.data → s.mboxWait = [] → s.stall = none →
    (let k := keyOf s q.world
     let busy := k.epoch = 255 ∧ ∃ t, k.destroyed = some t ∧ s.patrolledSince t = false
     (q.world = 0 → Declines .create s 5) ∧ (q.world ≠ 0 → k.live = true → Declines .create s 2) ∧ (q.world ≠ 0 → k.live = false → busy → Declines .create s 3) ∧
     (q.world ≠ 0 → k.live = false → ¬busy →
       (Config.healthTest s.seq = false → Declines .create s 4) ∧
       (Config.healthTest s.seq = true → ∃ u, exec .create s = .next u ∧ Ended s u 0 ∧ Quiet s u ∧
         keyOf u q.world = { epoch := k.epoch % 255 + 1, live := true, key := Config.random s.seq, destroyed := none } ∧ ∀ w, w ≠ q.world → keyOf u w = keyOf s w))) ∧
    (let pol (n : Nat) : Nat := bitsOf q.a (4 * n + 3) (4 * n)
     (bitOf q.b 0 = true → contiguous ((List.range 16).map pol) = false → Declines .layout s 5) ∧
     (bitOf q.b 0 = true → contiguous ((List.range 16).map pol) = true → s.flush.stall = none → ∃ u, exec .layout s = .next u ∧ Ended s u 0 ∧ u.locked = true ∧
       (∀ n : Fin 16, u.layout[n] = pol n) ∧ tget [] u.measures 5 = shake256 (bytesAt (tget [] s.measures 5) 0 64 ++ natLe q.a.toNat 8) 64 ∧
       ∀ d < 16, (tget 0 u.l2ctl d).getLsbD 1 = (tget 0 s.l2ctl d).getLsbD 0) ∧
     (bitOf q.b 0 = false → s.otherThread = true → Declines .layout s 3) ∧
     (bitOf q.b 0 = false → s.otherThread = false → ∃ u, exec .layout s = .next u ∧ Ended s u 0 ∧ Quiet s u ∧ u.locked = false ∧ u.layout = s.layout)) ∧
    ((q.index = 0 ∨ 16 < q.index ∨ 15 < q.polder → Declines .bind s 5) ∧
     (q.index ≠ 0 → q.index ≤ 16 → q.polder ≤ 15 →
       ((fnAt s q.index).enabled = true → Declines .bind s 3) ∧
       ((fnAt s q.index).enabled = false → ∃ u, exec .bind s = .next u ∧ Ended s u 0 ∧ Quiet s u ∧
         fnAt u q.index = { fnAt s q.index with bound := some (q.polder, q.world) } ∧ ∀ k, k ≠ q.index → fnAt u k = fnAt s k))) ∧
    ((63 < q.index → Declines .monitor s 5) ∧ (q.index ≤ 63 → (keyOf s q.world).live = false → Declines .monitor s 1) ∧
     (q.index ≤ 63 → (keyOf s q.world).live = true →
       (bitsOf q.b 3 0 = 0 → ∃ u, exec .monitor s = .next u ∧ Ended s u 0 ∧ Quiet s u ∧ ∀ p, p ∈ u.monitors ↔ p ∈ s.monitors ∧ p.1 ≠ q.world * 64 + q.index) ∧
       (bitsOf q.b 3 0 ≠ 0 → (s.clearRange (q.a.toNat % 2 ^ 41) (bitsOf q.b 40 6 * 64)).stall = none → ∃ u, exec .monitor s = .next u ∧ Ended s u 0 ∧ (∀ r, u.thread? r = s.thread? r) ∧ (s.rdcs = [] → Quiet s u) ∧ (q.world * 64 + q.index,
         ({ base := q.a.toNat % 2 ^ 41, limit := bitsOf q.b 40 6 * 64, kinds := BitVec.ofNat 4 (bitsOf q.b 3 0), ring := q.c.toNat % 2 ^ 52 } : Monitor)) ∈ u.monitors))) ∧
    ((s.regionAt q.world (q.a.toNat % 2 ^ 52) = none → Declines .attach s 1) ∧
     (∀ g, s.regionAt q.world (q.a.toNat % 2 ^ 52) = some g → ∃ u, exec .attach s = .next u ∧ Ended s u 0 ∧ Quiet s u ∧ (g.id ∈ u.attached ↔ bitOf q.b 0 = true) ∧
       ∀ k, k ≠ g.id → (k ∈ u.attached ↔ k ∈ s.attached))) ∧
    ((∀ p ∈ masters, q.index ≠ p.1) → Declines .handover s 5) ∧
    (∀ p ∈ masters, q.index = p.1 → ∃ u, exec .handover s = .next u ∧ Ended s u 0 ∧ Quiet s u ∧ u.owner = some p.2) ∧
    (15 < q.polder → Declines .rotate s 5) ∧
    (q.polder ≤ 15 → (∃ k ∈ s.rotations, k.polder = q.polder) → Declines .rotate s 3) ∧
    (q.polder ≤ 15 → (∀ k ∈ s.rotations, k.polder ≠ q.polder) → ∃ u k, exec .rotate s = .next u ∧ Ended s u 0 ∧ Quiet s u ∧ u.rotations = s.rotations ++ [k] ∧ k.polder = q.polder ∧
      k.table = q.a.toNat % 2 ^ 52 ∧ k.begun = [] ∧ ∀ r, r ∈ k.left ↔ r.core < 131072 ∧ r.slot ∈ s.polderSlots q.polder) ∧
    (s.arg.flag = false → s.arg.m = 0 → s.destroying = none →
      (q.world = 0 ∨ 2 ^ 52 ≤ q.a.toNat ∨ q.a.toNat % 64 ≠ 0 → Declines .destroy s 5) ∧
      (q.world ≠ 0 → q.a.toNat < 2 ^ 52 → q.a.toNat % 64 = 0 → (keyOf s q.world).live = false → Declines .destroy s 1) ∧
      (q.world ≠ 0 → q.a.toNat < 2 ^ 52 → q.a.toNat % 64 = 0 → (keyOf s q.world).live = true → ∃ u, exec .destroy s = .next u ∧
        u.destroying = some (q.world, s.stampOf securitySource, q.a.toNat, 0) ∧ (∀ g ∈ u.regions, g.world = q.world → g.terminated = true) ∧
        (∀ g ∈ s.regions, g.world = q.world → ∀ r t, u.thread? r = some t → t.region ≠ g.id) ∧
        ({ what := .destroy, arg := { n := q.world, flag := true } } : Due) ∈ u.agenda))) ∧
  (∀ (s : State) (w va : Nat) (st : Stamp), s.arg.flag = true → s.destroying = some (w, st, va, 0) → w ≠ 0 →
    ((∃ g ∈ s.regions, g.world = w) → exec .destroy s = .next s) ∧
    ((∀ g ∈ s.regions, g.world ≠ w) → s.mboxWait = [] → (s.eraseWorld w st va).stall = none → ∃ u, exec .destroy s = .next u ∧
      u.mboxStatus = 0 ∧ u.mboxBusy = false ∧ u.mboxStamp.src = securitySource ∧ s.tc < u.mboxStamp.tc ∧ u.destroying = none ∧ (keyOf u w).live = false ∧
      (keyOf u w).destroyed = some (s.stampOf securitySource).tc ∧
      (keyOf u w).epoch = (keyOf s w).epoch ∧ (∀ k, ∀ x ∈ tget [] u.slices k, x.world = w → x.dirty = false) ∧ (∀ x ∈ u.rdcs, x.world ≠ w)))

/-- ATTESTATION AND ROTATION (R427-R430, R454): the responder answers requests in their order and refuses the others; a slot of a rotating polder hands over once its
stores are performed: its thread is saved, its bank scrubbed, and the thread of its incoming area goes on.
The model's choice, where a clause rests on it: log entries 4, 6, 25. -/
def Obligations.AttestationAnswersAndSlotsHandOver : Prop :=
  (∀ p ∈ spdmForms, ∀ s : State,
    (s.spdmStage < p.2.1 ∨ p.2.2.1 < s.spdmStage → exec p.1 s = .next (s.emit (.spdmError 4))) ∧
    (p.2.1 ≤ s.spdmStage → s.spdmStage ≤ p.2.2.1 → ∃ u before body sig, exec p.1 s = .next u ∧ Quiet s u ∧ u.spdmStage = p.2.2.2.1 ∧
      before = (if p.1 = .getVersion then [] else s.spdmTrans) ∧
      body = Config.spdmResponse p.2.2.2.2.1 before (if p.1 = .getMeasurements then s.arg.data ++ (List.range 16).flatMap (fun k => bytesAt (tget [] s.measures k) 0 64) else s.arg.data) ∧
      sig = (if p.2.2.2.2.2 then Config.slhDsaSign (shake256 (before ++ s.arg.data ++ body) 64) else []) ∧
      u.spdmTrans = before ++ s.arg.data ++ body ++ sig ∧ .spdm (body ++ sig) ∈ u.out)) ∧
  (∀ (s : State) (r : SlotRef) (k : Rotation) (t : Thread), r = { core := s.arg.core, slot := s.arg.slot } → s.rotations = [k] → k.polder = s.arg.n → r ∈ k.left → k.left.Nodup → s.thread? r = some t →
    (∀ e, e ∈ (s.core r.core).buf → e.slot = r.slot → ∃ u k', exec .slotHandover s = .next u ∧ Quiet s u ∧ u.rotations = [k'] ∧ k'.left = k.left ∧ r ∈ k'.begun) ∧
    (∀ va w, (∀ e ∈ (s.core r.core).buf, e.slot ≠ r.slot) → ∀ s0, s.saveAreas k r = (s0, va, w, 0) → (s.handOver k r).stall = none → ∃ u base area t', exec .slotHandover s = .next u ∧ u.thread? r = none ∧
      (base, area) ∈ u.saves ∧ area.world = t.world ∧ area.away = true ∧ area.thread = some t' ∧ t'.id = t.id ∧ t'.pc = t.pc ∧ t'.g = t.g ∧ t'.skip = t.skip ∧ t'.handles = t.handles ∧
      (∀ a, 2048 * r.slot ≤ a → a < 2048 * r.slot + 2048 → cellGet (u.core r.core).mem a = 0) ∧ ∀ q ∈ u.rotations, r ∉ q.left)) ∧
  (∀ (s s0 s1 s2 : State) (r : SlotRef) (k : Rotation) (o w va base : Nat) (b : List Byte) (a : SaveArea) (t : Thread), r = { core := s.arg.core, slot := s.arg.slot } →
    s.rotations = [k] → k.polder = s.arg.n → r ∈ k.left → (∀ e ∈ (s.core r.core).buf, e.slot ≠ r.slot) → s.saveAreas k r = (s0, o, w, va) → va ≠ 0 →
    (s.handOver k r).stall = none → s1 = s0.saveSlot k r o → s1.agentRead securitySource 3 w va 16384 = (s2, some b) →
    s2.saves.find? (fun p => decide (p.2.world = w) && decide (s2.areaBytes p.1 = b)) = some (base, a) → a.thread = some t → t.acq = none →
    ∃ u, exec .slotHandover s = .next u ∧ u.thread? r = some t)

/-- LAUNCHES (R331, R333-R339, R405, R416, R417): the headgate admits the one launch that waits, or refuses it with the first failing step's status; images go down the boot tree
into their cores, an initial thread begins at its role's entry with the launch's arguments, and a region whose conditions hold completes: its pools, weirs and images
go, its record is written, its notification raised; a handler thread begins where messages wait and no supervisor lives.
The model's choice, where a clause rests on it: log entries 21, 22, 23, 54, 55. -/
def Obligations.RegionsAreAdmittedBegunAndCompleted : Prop :=
  (∀ (s s0 : State) (q : LaunchReq), OnlyLaunch s q → s0 = { s with launches := [] } →
    (∀ x, (s0.admitLaunch q).stall = some x → ∃ u, exec .launchAdmission s = .next u ∧ u.launches = [q] ∧ u.regions = s.regions ∧
      ({ what := .launchAdmission, arg := {} } : Due) ∈ u.agenda) ∧
    ((s0.admitLaunch q).stall = none →
    (¬RecordGood q.record → ∃ u, exec .launchAdmission s = .next u ∧ u.launches = [] ∧ Refuses s u q 0x0B) ∧
    (∀ s2 blk blob p g, RecordGood q.record → ReadsLaunch s0 s2 q blk blob p g →
      (∀ st, (step2 s2 q blk p = .error st ∨ (step2 s2 q blk p = .ok () ∧ step3 s2 g p = .error st) ∨
          (step2 s2 q blk p = .ok () ∧ step3 s2 g p = .ok () ∧ step4 s2 g blob = .error st)) → ∃ u, exec .launchAdmission s = .next u ∧ Refuses s u q st) ∧
      (Passes s2 q blk blob p g →
        (Portable blob → ∃ u, exec .launchAdmission s = .next u ∧ Goes s (step5 s2 q g blob) q g blob u) ∧
        (¬Portable blob → ∃ u, exec .launchAdmission s = .next u ∧ Refuses s u q 9))))) ∧
  (∀ (s s1 : State) (q : LaunchReq) (g : Region) (blob : List Byte),
    (s.cacheMapped g.world = (s1, false) → step5 s q g blob = (s1, .refuse)) ∧
    (s.cacheMapped g.world = (s1, true) → step5 s q g blob = findImages s1 q g blob [] (rolesOf blob))) ∧
  (∀ (s : State) (adm : Admission) (k : Translator), s.admitting = some adm → s.translator = some k → (s.endLaunch adm).stall = none →
    (k.ended = none → exec .launchAdmission s = .next s) ∧
    (∀ c d, k.ended = some (c, d) → c ≠ 0 → ∃ u, exec .launchAdmission s = .next u ∧ u.translator = none ∧ Refuses s u adm.req 9) ∧
    (∀ d s2 ok, k.ended = some (0, d) → ({ s with translator := none } : State).cacheTranslation k = (s2, ok) →
      let m := foundImage k.role k.out k.entry (BitVec.ofNat 64 k.meter) k.marks
      (ok = true → coversMap adm.blob m = true → ∃ u, exec .launchAdmission s = .next u ∧
        Goes s (findImages s2 adm.req adm.region adm.blob (adm.images ++ [m]) adm.left) adm.req adm.region adm.blob u) ∧
      (ok = false ∨ coversMap adm.blob m = false → ∃ u, exec .launchAdmission s = .next u ∧ Refuses s u adm.req 9))) ∧
  (∀ (s : State) (g : Region) (j : Nat) (m : Image) (b : List Byte) (c : CoreIx), s.region? s.arg.n = some g → g.forward = [(j, m, b)] → g.cores[j]? = some c →
    Sound s c m.localLo b.length → m.localLo % 8 = 0 → Memory.wf (s.core c).mem = true →
    ∃ u, exec .bootTreeForward s = .next u ∧ (u.core c).images = (s.core c).images ++ [m] ∧ WroteLocal s u c m.localLo b ∧
      (u.region? g.id).map (fun q => q.forward) = some [] ∧ (∀ r, u.thread? r = s.thread? r) ∧
      (segmentOn g c m.role = none → (u.core c).pin = (s.core c).pin) ∧
      (∀ k i, segmentOn g c m.role = some (k, i) → (u.core c).pin = some { region := g.id, role := m.role, seg := i, start := k.start, drop := false }) ∧
      ∀ r ∈ g.starting, r.core = c → ({ what := .initialThreadStart, arg := { core := r.core, slot := r.slot, n := g.id } } : Due) ∈ u.agenda) ∧
  (∀ (s : State) (g : Region) (r : SlotRef) (k : RoleInfo), r = { core := s.arg.core, slot := s.arg.slot } → s.region? s.arg.n = some g → g.roleAt r = some k → r ∈ g.starting →
    (∀ f ∈ g.forward, g.cores[f.1]? ≠ some r.core) → g.args.length = 4 → s.rdcs = [] →
    ∃ u t, exec .initialThreadStart s = .next u ∧ Begun s u r g k.role (alignedPc (BitVec.ofNat 64 k.entry)) k.claim ∧ u.thread? r = some t ∧
      (∀ n : Fin 40, n < 4 → t.g[n] = { val := g.args.getD n 0, full := true, pending := false }) ∧ SameMemory s u ∧ (∀ p, ¬sameSlot p r → u.thread? p = s.thread? p) ∧
      (u.region? g.id).map (fun q => q.starting) = some (g.starting.filter (fun x => x ≠ r))) ∧
  (∀ (s : State) (g : Region) (status addr : Nat), s.region? s.arg.n = some g → status = (if g.terminated then 0x10 else 0) → addr = g.completion.toNat % 2 ^ 52 →
    (s.regionIdle g.id = false → exec .regionCompletion s = .next s) ∧
    (s.regionIdle g.id = true → (s.freePools g.id).regionPools g.id = [] → (s.completeRegion g).stall = none →
      (∀ p ∈ s.cores, ∀ w ∈ p.2.q6wait, w.region ≠ g.id) → g.msgs = [] → g.ndeps = 0 →
      ∃ u, exec .regionCompletion s = .next u ∧ u.region? g.id = none ∧ (∀ p ∈ u.weirs, p.2.region ≠ g.id) ∧ (∀ h, ∀ p ∈ u.poolList h, p.region ≠ g.id) ∧
        (∀ c, ∀ m ∈ (u.core c).images, m.region ≠ g.id) ∧ (∀ c x, (u.core c).pin = some x → x.region ≠ g.id) ∧ Relooks s u ∧
        (g.parent = none → bitOf g.completion 63 = false → s.pools = [] → ∃ s0 : State, s0.hbm = s.hbm ∧ s0.lines = s.lines ∧ s0.keys = s.keys ∧ s0.worldTable = s.worldTable ∧ s0.slices = s.slices ∧
          u.hbm = ((s0.headWrite g.world addr (completionBytes (s.stampOf headSource) g.id status g.tag)).1.headWrite g.world (g.rcb + 128) (List.replicate 64 0)).1.hbm) ∧
        (bitOf g.completion 63 = true → ∃ st : Stamp, st.src = headSource ∧ s.tc ≤ st.tc ∧ (s.rdcs = [] → st = s.stampOf headSource) ∧
          (g.fn = 0 ∨ (fnAt s g.fn).state = 0 → .interrupt g.fn (bitsOf g.completion 62 52) st ∈ u.out) ∧
          (g.fn ≠ 0 → (fnAt s g.fn).state ≠ 0 → (bitsOf g.completion 62 52, st) ∈ (fnAt u g.fn).pending)) ∧
        (∀ p pr sup v, bitOf g.completion 63 = false → g.parent = some p → s.region? p = some pr → pr.id ≠ g.id → s.threadById pr.supervisor = some (sup, v) →
          Waits u sup [BitVec.ofNat 64 (g.id * 2 ^ 40 + 0xFE * 2 ^ 32 + status), BitVec.ofNat 64 addr] pr.id false))) ∧
  (∀ (s : State) (g : Region), s.region? s.arg.n = some g → (s.superviseRegion g).stall = none →
    (g.msgs = [] → ∃ u, exec .handlerSpawn s = .next u ∧ ∀ r, u.thread? r = s.thread? r) ∧
    (∀ r v, g.msgs ≠ [] → s.threadById g.supervisor = some (r, v) → ∃ u, exec .handlerSpawn s = .next u ∧ (∀ r, u.thread? r = s.thread? r) ∧
      (u.region? g.id).map (fun q => q.msgs) = some [] ∧ ∀ m ∈ g.msgs, Waits u r m.2.1 g.id m.2.2) ∧
    (∀ r c rr k, g.msgs ≠ [] → s.threadById g.supervisor = none → g.cores.head? = some c → g.firstPlaced = some rr → g.roleAt rr = some k → s.rdcs = [] →
      s.freeSlot c g.polder = some r → s.liveThreads g.id < s.slotsOf g →
      ∃ u, exec .handlerSpawn s = .next u ∧ Begun s u r g k.role (alignedPc (BitVec.ofNat 64 g.handler)) k.claim ∧ (u.region? g.id).map (fun q => q.supervisor) = some (s.nextId r) ∧
        (u.region? g.id).map (fun q => q.msgs) = some [] ∧ (∀ p, ¬sameSlot p r → u.thread? p = s.thread? p) ∧ ∀ m ∈ g.msgs, Waits u r m.2.1 g.id m.2.2))

/-! ### The machine as a whole -/

/-- A STEP RUNS THE DECODED INSTRUCTION (R185, R187, R191): no work waits, the turns of the cycle before core `c`'s address pipe are past, its
spillway takes none of that turn, the turn falls to slot `r`, and the words at its thread's program counter, in the image that it executes, decode to `i`: the step is `i` executed
for that slot.
The model's choice, where a clause rests on it: log entry 2. -/
def Obligations.StepRunsTheDecodedInstruction : Prop :=
  ∀ (s : State) (before after : List (Nat × Core)) (c : CoreIx) (k : Core) (r : SlotRef) (t : Thread) (m : Image) (w : Word32) (i : Instr) (len : Nat),
    takeWork s = none → 0 < s.cursor → s.cores = before ++ (c, k) :: after → (∀ p ∈ before, 2 * p.1 + 2 < s.cursor) → s.cursor ≤ 2 * c + 1 →
    spillwayTurn { s with hold := s.hold - 1 } c (s.tc % 16) = none →
    let x := annulTurn { s with hold := s.hold - 1 } c (s.tc % 16)
    let s0 := x.1
    turnOf s0 .address c (s.tc % 16) x.2 = some r → s0.thread? r = some t → (s0.core r.core).imageOf t.region t.role = some m →
    m.word t.pc.toNat = some w → decode (w :: (m.word (t.pc.toNat + 4)).toList) = .ok (i, len) →
    step s = exec i (turnState s0 c r t)

/-- THE OTHER STEPS (R6, R95, R185, R187, R396): urgent work comes first; then one piece of the agenda when its delay is spent; a core's spillway
takes an address-pipe turn before any thread; a turn of the compute pipe runs the head of its slot's queue; the translator executes one
instruction at the start of a cycle; when no turn is left, the cycle ends, tc advances by 1, and the blocks of the regions come up to date.
The model's choice, where a clause rests on it: log entries 2, 55. -/
def Obligations.WorkTurnsAndTheEndOfACycle : Prop :=
  ∀ s : State,
    (∀ d rest, s.urgent = d :: rest → step s = exec d.what { s with urgent := rest, arg := d.arg }) ∧
    (∀ d, s.urgent = [] → s.hold = 0 → s.agenda = [d] →
      step s = exec d.what { s with agenda := [], arg := d.arg, hold := Config.engineDelay s.seq, seq := s.seq + 1 }) ∧
    (∀ before after c k i, NoWork s → 0 < s.cursor → s.cores = before ++ (c, k) :: after → (∀ p ∈ before, 2 * p.1 + 2 < s.cursor) → s.cursor ≤ 2 * c + 1 →
      spillwayTurn { s with hold := s.hold - 1 } c (s.tc % 16) = some i →
      step s = exec i { s with hold := s.hold - 1, arg := { core := c, slot := s.tc % 16 }, cursor := 2 * c + 2 }) ∧
    (∀ before after c k r t e q, NoWork s → s.cores = before ++ (c, k) :: after → (∀ p ∈ before, 2 * p.1 + 2 < s.cursor) → s.cursor = 2 * c + 2 →
      turnOf { s with hold := s.hold - 1 } .compute c (s.tc % 16) false = some r → s.thread? r = some t → t.cq = e :: q →
      step s = exec e.instr { s with hold := s.hold - 1, cur := r, pipe := .compute, cursor := 2 * c + 3 }) ∧
    (∀ k w i, NoWork s → s.cursor = 0 → s.translator = some k → k.ended = none → k.meter ≠ 0 → k.fetchable k.pc = true →
      k.code[k.pc.toNat / 4]? = some w → decodeEsnen w = some i → step s = exec i { s with hold := s.hold - 1, cursor := 1 }) ∧
    (NoWork s → s.cursor ≠ 0 → (∀ p ∈ s.cores, 2 * p.1 + 2 < s.cursor) →
      ∃ u, step s = .next u ∧ u.tc = s.tc + 1 ∧ u.cursor = 0 ∧ (∀ c a, cellGet (u.core c).mem a = cellGet (s.core c).mem a) ∧
        (∀ c a, cellGet (u.core c).scale a = cellGet (s.core c).scale a) ∧ ((∀ g ∈ s.regions, g.shown = s.counts g.id) → SameMemory s u) ∧
        ∀ r t, s.thread? r = some t → t.wdog = 0 → u.thread? r = some t)

/-- WORDS OF THE SPEC (R191-R203, R388): words that the spec writes out, or whose fields its tables give, decode to the instructions that they
stand for. -/
def Obligations.WordsOfTheSpecDecode : Prop :=
  decode [0x020C1FFB] = .ok (.addi (.g 3) (.g 1) (-5), 4) ∧
  decode [0x10884140] = .ok (.csk 2 .lt (.g 4) (.g 5), 4) ∧
  decode [0x18182804] = .ok (.ld (.g 6) (.g 2) .w 4, 4) ∧
  decode [0x1A142FFF] = .ok (.st (.g 5) (.g 2) .d (-1), 4) ∧
  decode [0x14FFFFFD] = .ok (.br (-3), 4) ∧
  decode [0x270C0004] = .ok (.fenceRel .module, 4) ∧
  decode [0x28250000] = .ok (.push 9 2, 4) ∧
  decode [0x29258000] = .ok (.pop 9 3, 4) ∧
  decode [0x00C30C00] = .ok (.add .z .z .z { a := false, b := false }, 4) ∧
  decode [0x4008A605] = .ok (.vadd (.s 1) (.s 2) (.h 3) 1 .rz, 4) ∧
  decode [0x484C1508] = .ok (.mmaUnfold 2 1 (.h 5) true, 4) ∧
  decode [0x00000000] = .ok (.add (.g 0) (.g 0) (.g 0) { a := false, b := false }, 4) ∧
  decodeEsnen 0x11898000 = some (.esnenAdd 3 1 3)

/-- ILLEGAL ENCODINGS (R193, R194, R202-R204, R226): a continuation word at an instruction boundary is MID; an unlisted major, a first word with
no continuation word after it, and an unlisted long major are ILL; a program counter outside the image, or not a multiple of 4, raises PROT, as a
long instruction's missing second word does. -/
def Obligations.IllegalWordsRaiseTheirCauses : Prop :=
  (∀ (w : Word32) rest, kindOf w.toNat = 3 → decode (w :: rest) = .error .mid) ∧
  (∀ (w : Word32) rest, kindOf w.toNat = 0 → fld w.toNat 24 6 ∈ noMajorA → decode (w :: rest) = .error .ill) ∧
  (∀ (w : Word32) rest, kindOf w.toNat = 1 → 0x0A ≤ fld w.toNat 24 6 → decode (w :: rest) = .error .ill) ∧
  (∀ (w c : Word32) rest, kindOf w.toNat = 2 → kindOf c.toNat ≠ 3 → decode (w :: c :: rest) = .error .ill) ∧
  (∀ (w c : Word32) rest, kindOf w.toNat = 2 → 3 ≤ fld w.toNat 24 6 → decode (w :: c :: rest) = .error .ill) ∧
  (∀ (s : State) (r : SlotRef) (t : Thread) (m : Image), (s.core r.core).imageOf t.region t.role = some m →
    (∀ w i len, m.word t.pc.toNat = some w → decode (w :: (m.word (t.pc.toNat + 4)).toList) = .ok (i, len) → fetch s r t = .ok (i, len)) ∧
    (t.pc.toNat % 4 ≠ 0 ∨ t.pc.toNat < m.start ∨ m.start + 4 * m.words.length ≤ t.pc.toNat → fetch s r t = .error (.prot, t.pc, 4)) ∧
    (∀ w, m.word t.pc.toNat = some w → kindOf w.toNat = 3 → fetch s r t = .error (.mid, w.setWidth 64, 4)) ∧
    (∀ w, m.word t.pc.toNat = some w → kindOf w.toNat = 0 → fld w.toNat 24 6 ∈ noMajorA → fetch s r t = .error (.ill, w.setWidth 64, 4)) ∧
    (∀ w, m.word t.pc.toNat = some w → kindOf w.toNat = 2 → t.pc.toNat + 4 = m.start + 4 * m.words.length →
      fetch s r t = .error (.prot, t.pc + 4, 4)))

/-- DECODING UNDOES ENCODING (R191-R204, R388): the words of every well-formed instruction, whatever words follow them, decode to it and to its
length; a word of the Esnen set decodes to it by that set's decoder. -/
def Obligations.DecodingUndoesEncoding : Prop :=
  ∀ i : Instr, i.wf = true →
    (i.isEsnen = false → encode i ≠ [] → ∀ rest, decode (encode i ++ rest) = .ok (i, 4 * (encode i).length)) ∧
    (i.isEsnen = true → ∃ w, encode i = [w] ∧ decodeEsnen w = some i)

/-- ONE WORD, ONE MEANING (R196-R204, R388): what decodes to an instruction is a well-formed instruction's own words: no bit of a word is
ignored. -/
def Obligations.DecodedWordsAreTheEncoding : Prop :=
  (∀ (ws : List Word32) (i : Instr) (len : Nat), decode ws = .ok (i, len) →
    i.wf = true ∧ len = 4 * (encode i).length ∧ ws.take (len / 4) = encode i) ∧
  (∀ (w : Word32) (i : Instr), decodeEsnen w = some i → i.wf = true ∧ encode i = [w])

/-- AFTER MODULE RESET (R32, R41, R132, R178, R443, R446, R453, R463): tc is 0; every slot is empty with generation count 0; every byte of local memory, of the scale
plane and of HBM4E is zero, every word full and unpoisoned; only world 0 has a live key; no stack is ready yet, and a die
is ready only where the boot draw has passed and its firmware's signature holds.
The model's choice, where a clause rests on it: log entries 7, 9, 49. -/
def Obligations.ResetLeavesTheModuleEmpty : Prop :=
  State.reset.tc = 0 ∧
  (∀ r, State.reset.thread? r = none ∧ ((State.reset.core r.core).slot r.slot).gen = 0) ∧
  (∀ c a, cellGet (State.reset.core c).mem a = 0 ∧ cellGet (State.reset.core c).scale a = 0 ∧ cellGet State.reset.hbm a = 0) ∧
  (∀ c, (State.reset.core c).emptyW = [] ∧ (State.reset.core c).poison = [] ∧ (State.reset.core c).scalePoison = [] ∧ (State.reset.core c).images = [] ∧ (State.reset.core c).buf = []) ∧
  (∀ l, State.reset.tag l = { world := 0, epoch := 0, fe := 0xFF, sound := true, poison := false }) ∧
  (∀ w e, State.reset.keyLive w e = true ↔ w = 0 ∧ e = 1) ∧
  (∀ w l, State.reset.lineCase w l = .fresh) ∧ State.reset.regions = [] ∧ State.reset.owner = none ∧ State.reset.locked = false ∧
  (∀ d < 16, ({ what := .stackReady, arg := { n := d } } : Due) ∈ State.reset.agenda ∧ State.reset.ready.getLsbD (16 + d) = false ∧
    State.reset.ready.getLsbD d = (Config.bootDraw && Config.firmwareSound d)) ∧ State.reset.ready.getLsbD 63 = Config.bootDraw

/-- EVERY INSTRUCTION ANSWERS: no instruction and no event is refused; each answers a next state, or, for an instruction of a slot, the fault
that says its slot holds no thread (R177), which no turn brings about.
The model's choice, where a clause rests on it: log entry 48. -/
def Obligations.EveryInstructionAnswers : Prop :=
  ∀ (i : Instr) (s : State), (∃ u, exec i s = .next u) ∨ (exec i s = .fault .emptySlot ∧ s.thread? s.cur = none)

/-- THE INVARIANT HOLDS AFTER MODULE RESET (R40, R41, R443). -/
def Obligations.TheInvariantHoldsAtReset : Prop := Inv State.reset

/-- EVERY STEP KEEPS THE INVARIANT (R40, R41, R443, R444): from every state, whatever the step does, memory stays in its canonical form, live keys keep
an epoch from 1 to 255, world 0 keeps its key, and no agent's work is left half done.
The model's choice, where a clause rests on it: log entry 52. -/
def Obligations.EveryStepKeepsTheInvariant : Prop := ∀ s u : State, Inv s → step s = .next u → Inv u
end

