-- ==== Sys2Proof/Laws/Memory.lean ====
section
/-!
SUPPORT. Sparse tables and byte memories: reading what was written, leaving the rest alone, keeping the canonical form.
-/

namespace Sys2Proof.Machine

/-! ### Tables -/

theorem tget_tput_same {α : Type} (d : α) (m : List (Nat × α)) (x : Nat) (w : α) : tget d (tput m x w) x = w := by
  induction m with
  | nil => simp [tput, tget]
  | cons p r ih =>
    obtain ⟨k, v⟩ := p
    unfold tput
    split
    · next h => simp [tget, h]
    · next h => split <;> simp_all [tget]

theorem tget_tput_other {α : Type} (d : α) (m : List (Nat × α)) (x y : Nat) (w : α) (h : y ≠ x) :
    tget d (tput m x w) y = tget d m y := by
  induction m with
  | nil => simp [tput, tget, h]
  | cons p r ih =>
    obtain ⟨k, v⟩ := p
    unfold tput
    split
    · next hk => subst hk; simp [tget, h]
    · next hk =>
      split
      · next hlt =>
        by_cases hy : y < x
        · have h1 : y ≠ k := by omega
          have h2 : y < k := by omega
          simp [tget, h, hy, h1, h2]
        · simp [tget, h, hy]
      · simp [tget, ih]

/-- One table operation on the other keys and on its own. -/
theorem tget_tput {α : Type} (d : α) (m : List (Nat × α)) (x y : Nat) (w : α) :
    tget d (tput m x w) y = if y = x then w else tget d m y := by
  split
  · next h => subst h; exact tget_tput_same d m y w
  · next h => exact tget_tput_other d m x y w h

/-- The keys of a list all lie above a number. -/
def keysAbove {α : Type} (x : Nat) (m : List (Nat × α)) : Prop := ∀ p ∈ m, x < p.1

theorem keysRise_cons {α : Type} (k : Nat) (v : α) (r : List (Nat × α)) :
    keysRise ((k, v) :: r) = true ↔ keysAbove k r ∧ keysRise r = true := by
  induction r generalizing k v with
  | nil => simp [keysRise, keysAbove]
  | cons p r ih =>
    obtain ⟨k', v'⟩ := p
    have hu : keysRise ((k, v) :: (k', v') :: r) = (decide (k < k') && keysRise ((k', v') :: r)) := rfl
    rw [hu, Bool.and_eq_true, decide_eq_true_iff]
    constructor
    · rintro ⟨hlt, hr⟩
      refine ⟨?_, hr⟩
      intro q hq
      rcases List.mem_cons.mp hq with rfl | hq
      · exact hlt
      · have := ((ih k' v').mp hr).1 q hq
        omega
    · rintro ⟨ha, hr⟩
      exact ⟨ha (k', v') (by simp), hr⟩

theorem tget_keysAbove {α : Type} (d : α) (x : Nat) (m : List (Nat × α)) (h : keysAbove x m) : tget d m x = d := by
  cases m with
  | nil => rfl
  | cons p r =>
    obtain ⟨k, v⟩ := p
    have : x < k := h (k, v) (by simp)
    have h2 : x ≠ k := by omega
    simp [tget, this, h2]

theorem keysAbove_tput {α : Type} (m : List (Nat × α)) (y x : Nat) (w : α) (h : keysAbove y m) (hx : y < x) :
    keysAbove y (tput m x w) := by
  induction m with
  | nil => intro p hp; simp [tput] at hp; subst hp; exact hx
  | cons p r ih =>
    obtain ⟨k, v⟩ := p
    have hk : y < k := h (k, v) (by simp)
    have hr : keysAbove y r := fun q hq => h q (by simp [hq])
    intro q hq
    unfold tput at hq
    split at hq
    · next hxk =>
      rcases List.mem_cons.mp hq with rfl | hq
      · exact hk
      · exact hr q hq
    · split at hq
      · rcases List.mem_cons.mp hq with rfl | hq
        · exact hx
        · exact h q hq
      · rcases List.mem_cons.mp hq with rfl | hq
        · exact hk
        · exact ih hr q hq

/-- Storing in a table keeps its keys in order. -/
theorem keysRise_tput {α : Type} (m : List (Nat × α)) (x : Nat) (w : α) (h : keysRise m = true) :
    keysRise (tput m x w) = true := by
  induction m with
  | nil => simp [tput, keysRise]
  | cons p r ih =>
    obtain ⟨k, v⟩ := p
    have hk := (keysRise_cons k v r).mp h
    unfold tput
    split
    · exact (keysRise_cons k w r).mpr hk
    · split
      · next hlt =>
        refine (keysRise_cons x w _).mpr ⟨?_, h⟩
        intro q hq
        rcases List.mem_cons.mp hq with rfl | hq
        · exact hlt
        · have := hk.1 q hq
          omega
      · next h1 h2 =>
        exact (keysRise_cons k v _).mpr ⟨keysAbove_tput r k x w hk.1 (by omega), ih hk.2⟩

/-! ### Byte memories -/

theorem Memory.wf_iff (m : List Host.Cell) : Memory.wf m = true ↔ keysRise m = true ∧ ∀ p ∈ m, p.2 ≠ unwritten := by
  simp [Memory.wf]

theorem Memory.wf_nil : Memory.wf [] = true := by decide

theorem keysAbove_cellPut (m : List Host.Cell) (y x : Nat) (w : Byte) (h : keysAbove y m) (hx : y < x) :
    keysAbove y (cellPut m x w) := by
  induction m with
  | nil =>
    intro p hp
    unfold cellPut at hp
    split at hp
    · simp at hp
    · simp at hp; subst hp; exact hx
  | cons p r ih =>
    obtain ⟨k, v⟩ := p
    have hk : y < k := h (k, v) (by simp)
    have hr : keysAbove y r := fun q hq => h q (by simp [hq])
    intro q hq
    unfold cellPut at hq
    split at hq
    · split at hq
      · exact hr q hq
      · rcases List.mem_cons.mp hq with rfl | hq
        · exact hk
        · exact hr q hq
    · split at hq
      · split at hq
        · exact h q hq
        · rcases List.mem_cons.mp hq with rfl | hq
          · exact hx
          · exact h q hq
      · rcases List.mem_cons.mp hq with rfl | hq
        · exact hk
        · exact ih hr q hq

/-- A byte stored keeps a memory in canonical form. -/
theorem Memory.wf_cellPut (m : List Host.Cell) (x : Nat) (w : Byte) (h : Memory.wf m = true) :
    Memory.wf (cellPut m x w) = true := by
  rw [Memory.wf_iff] at h ⊢
  obtain ⟨hk, hv⟩ := h
  induction m with
  | nil =>
    unfold cellPut
    split
    · exact ⟨rfl, by simp⟩
    · next hw => exact ⟨rfl, by simpa using hw⟩
  | cons p r ih =>
    obtain ⟨k, v⟩ := p
    obtain ⟨ha, hr⟩ := (keysRise_cons k v r).mp hk
    have hvr : ∀ q ∈ r, q.2 ≠ unwritten := fun q hq => hv q (by simp [hq])
    have hv0 : v ≠ unwritten := hv (k, v) (by simp)
    unfold cellPut
    split
    · split
      · exact ⟨hr, hvr⟩
      · next hw =>
        refine ⟨(keysRise_cons k w r).mpr ⟨ha, hr⟩, ?_⟩
        intro q hq
        rcases List.mem_cons.mp hq with rfl | hq
        · exact hw
        · exact hvr q hq
    · split
      · next hlt =>
        split
        · exact ⟨hk, hv⟩
        · next hw =>
          refine ⟨(keysRise_cons x w _).mpr ⟨?_, hk⟩, ?_⟩
          · intro q hq
            rcases List.mem_cons.mp hq with rfl | hq
            · exact hlt
            · have := ha q hq
              omega
          · intro q hq
            rcases List.mem_cons.mp hq with rfl | hq
            · exact hw
            · exact hv q hq
      · next h1 h2 =>
        obtain ⟨i1, i2⟩ := ih hr hvr
        refine ⟨(keysRise_cons k v _).mpr ⟨keysAbove_cellPut r k x w ha (by omega), i1⟩, ?_⟩
        intro q hq
        rcases List.mem_cons.mp hq with rfl | hq
        · exact hv0
        · exact i2 q hq

/-- A byte stored is what its address reads as, in a memory in canonical form; every other address reads as before. -/
theorem cellGet_cellPut (m : List Host.Cell) (x y : Nat) (w : Byte) (h : Memory.wf m = true) :
    cellGet (cellPut m x w) y = if y = x then w else cellGet m y := by
  obtain ⟨hk, -⟩ := (Memory.wf_iff m).mp h
  clear h
  unfold cellGet
  induction m with
  | nil =>
    unfold cellPut
    split
    · next hw => subst hw; simp [tget]
    · by_cases hy : y = x <;> simp [tget, hy]
  | cons p r ih =>
    obtain ⟨k, v⟩ := p
    obtain ⟨ha, hr⟩ := (keysRise_cons k v r).mp hk
    unfold cellPut
    split
    · next hxk =>
      subst hxk
      split
      · next hw =>
        subst hw
        by_cases hy : y = x
        · subst hy; simpa using tget_keysAbove unwritten y r ha
        · by_cases hlt : y < x
          · have : keysAbove y r := fun q hq => by have := ha q hq; omega
            simp [tget, hy, hlt, tget_keysAbove unwritten y r this]
          · simp [tget, hy, hlt]
      · by_cases hy : y = x <;> simp [tget, hy]
    · next hxk =>
      split
      · next hlt =>
        split
        · next hw =>
          subst hw
          by_cases hy : y = x
          · subst hy
            have : keysAbove y ((k, v) :: r) := by
              intro q hq
              rcases List.mem_cons.mp hq with rfl | hq
              · exact hlt
              · have := ha q hq; omega
            simpa using tget_keysAbove unwritten y _ this
          · simp [hy]
        · by_cases hy : y = x
          · simp [tget, hy]
          · by_cases hyx : y < x
            · have h1 : y ≠ k := by omega
              have h2 : y < k := by omega
              simp [tget, hy, hyx, h1, h2]
            · simp [tget, hy, hyx]
      · by_cases hyk : y = k
        · have : y ≠ x := by omega
          subst hyk
          simp [tget, this]
        · simp only [tget, hyk, if_false, ih hr]
          by_cases hlt : y < k
          · have : y ≠ x := by omega
            simp [hlt, this]
          · simp [hlt]

/-- Bytes stored keep a memory in canonical form. -/
theorem Memory.wf_cellsPut (l : List Byte) (m : List Host.Cell) (a : Nat) (h : Memory.wf m = true) :
    Memory.wf (cellsPut m a l) = true := by
  induction l generalizing m a with
  | nil => exact h
  | cons b r ih => exact ih _ _ (Memory.wf_cellPut m a b h)

/-- Bytes scrubbed keep a memory in canonical form. -/
theorem Memory.wf_filter (m : List Host.Cell) (p : Host.Cell → Bool) (h : Memory.wf m = true) : Memory.wf (m.filter p) = true := by
  rw [Memory.wf_iff] at h ⊢
  obtain ⟨hk, hv⟩ := h
  refine ⟨?_, fun q hq => hv q (List.mem_filter.mp hq).1⟩
  clear hv
  induction m with
  | nil => rfl
  | cons q r ih =>
    obtain ⟨k, v⟩ := q
    obtain ⟨ha, hr⟩ := (keysRise_cons k v r).mp hk
    by_cases hp : p (k, v)
    · rw [List.filter_cons_of_pos hp]
      exact (keysRise_cons k v _).mpr ⟨fun q hq => ha q (List.mem_filter.mp hq).1, ih hr⟩
    · rw [List.filter_cons_of_neg hp]
      exact ih hr

theorem Memory.wf_cellsScrub (m : List Host.Cell) (lo hi : Nat) (h : Memory.wf m = true) :
    Memory.wf (cellsScrub m lo hi) = true := Memory.wf_filter m _ h

/-- What bytes stored from an address up read as. -/
theorem cellGet_cellsPut (l : List Byte) (m : List Host.Cell) (a y : Nat) (h : Memory.wf m = true) :
    cellGet (cellsPut m a l) y = if a ≤ y ∧ y < a + l.length then l.getD (y - a) 0 else cellGet m y := by
  induction l generalizing m a with
  | nil =>
    have : ¬(a ≤ y ∧ y < a + 0) := by omega
    simp [cellsPut, this]
  | cons b r ih =>
    unfold cellsPut
    rw [ih _ _ (Memory.wf_cellPut m a b h), cellGet_cellPut m a y b h]
    simp only [List.length_cons]
    by_cases hy : y = a
    · subst hy
      have : ¬(y + 1 ≤ y) := by omega
      simp [this]
    · by_cases hin : a + 1 ≤ y ∧ y < a + 1 + r.length
      · have h2 : a ≤ y ∧ y < a + (r.length + 1) := by omega
        obtain ⟨n, hn⟩ : ∃ n, y - a = n + 1 := ⟨y - a - 1, by omega⟩
        have h3 : y - (a + 1) = n := by omega
        simp [hin, h2, h3, hn]
      · have h2 : ¬(a ≤ y ∧ y < a + (r.length + 1)) := by omega
        rw [if_neg hin, if_neg h2, if_neg hy]

theorem cellsGet_length (m : List Host.Cell) (n a : Nat) : (cellsGet m a n).length = n := by
  induction n generalizing a with
  | zero => rfl
  | succ n ih => simp [cellsGet, ih]

theorem cellsGet_getD (m : List Host.Cell) (n a i : Nat) (h : i < n) : (cellsGet m a n).getD i 0 = cellGet m (a + i) := by
  induction n generalizing a i with
  | zero => omega
  | succ n ih =>
    cases i with
    | zero => simp [cellsGet]
    | succ i =>
      have := ih (a + 1) i (by omega)
      simp only [cellsGet, List.getD_cons_succ, this]
      congr 1
      omega

/-- Bytes read back from where they were stored. -/
theorem cellsGet_cellsPut (l : List Byte) (m : List Host.Cell) (a : Nat) (h : Memory.wf m = true) :
    cellsGet (cellsPut m a l) a l.length = l := by
  apply List.ext_getElem
  · exact cellsGet_length _ _ _
  · intro i h1 h2
    have e := cellsGet_getD (cellsPut m a l) l.length a i h2
    rw [cellGet_cellsPut l m a _ h] at e
    have hin : a ≤ a + i ∧ a + i < a + l.length := by omega
    rw [if_pos hin] at e
    have hs : a + i - a = i := by omega
    rw [hs] at e
    rw [List.getD_eq_getElem _ _ h1, List.getD_eq_getElem _ _ h2] at e
    exact e

theorem natLe_length (v n : Nat) : (natLe v n).length = n := by
  induction n generalizing v with
  | zero => rfl
  | succ n ih => simp [natLe, ih]

/-- A number written as bytes and read again. -/
theorem leNat_natLe (v n : Nat) : leNat (natLe v n) = v % 256 ^ n := by
  induction n generalizing v with
  | zero => simp [natLe, leNat, Nat.mod_one]
  | succ n ih =>
    simp only [natLe, leNat, ih, BitVec.toNat_ofNat]
    have h8 : (2 : Nat) ^ 8 = 256 := by norm_num
    rw [h8, pow_succ, Nat.mul_comm (256 ^ n) 256, Nat.mod_mul]

end Sys2Proof.Machine
end

