-- ==== Sys2Proof/Laws/State.lean ====
section
/-!
SUPPORT. What the named updates of a state, a thread and a core leave alone: one lemma per field per update.
-/

namespace Sys2Proof.Machine

/-! ### State.setCore, modCore, setThread, clearSlot: they change the cores -/

@[simp] theorem State.setCore_tc (s : State) (c : CoreIx) (k : Core) : (s.setCore c k).tc = s.tc := rfl
@[simp] theorem State.setCore_seq (s : State) (c : CoreIx) (k : Core) : (s.setCore c k).seq = s.seq := rfl
@[simp] theorem State.setCore_hold (s : State) (c : CoreIx) (k : Core) : (s.setCore c k).hold = s.hold := rfl
@[simp] theorem State.setCore_cursor (s : State) (c : CoreIx) (k : Core) : (s.setCore c k).cursor = s.cursor := rfl
@[simp] theorem State.setCore_cur (s : State) (c : CoreIx) (k : Core) : (s.setCore c k).cur = s.cur := rfl
@[simp] theorem State.setCore_pipe (s : State) (c : CoreIx) (k : Core) : (s.setCore c k).pipe = s.pipe := rfl
@[simp] theorem State.setCore_arg (s : State) (c : CoreIx) (k : Core) : (s.setCore c k).arg = s.arg := rfl
@[simp] theorem State.setCore_stall (s : State) (c : CoreIx) (k : Core) : (s.setCore c k).stall = s.stall := rfl
@[simp] theorem State.setCore_urgent (s : State) (c : CoreIx) (k : Core) : (s.setCore c k).urgent = s.urgent := rfl
@[simp] theorem State.setCore_agenda (s : State) (c : CoreIx) (k : Core) : (s.setCore c k).agenda = s.agenda := rfl
@[simp] theorem State.setCore_hbm (s : State) (c : CoreIx) (k : Core) : (s.setCore c k).hbm = s.hbm := rfl
@[simp] theorem State.setCore_lines (s : State) (c : CoreIx) (k : Core) : (s.setCore c k).lines = s.lines := rfl
@[simp] theorem State.setCore_spares (s : State) (c : CoreIx) (k : Core) : (s.setCore c k).spares = s.spares := rfl
@[simp] theorem State.setCore_keys (s : State) (c : CoreIx) (k : Core) : (s.setCore c k).keys = s.keys := rfl
@[simp] theorem State.setCore_worldTable (s : State) (c : CoreIx) (k : Core) : (s.setCore c k).worldTable = s.worldTable := rfl
@[simp] theorem State.setCore_pinned (s : State) (c : CoreIx) (k : Core) : (s.setCore c k).pinned = s.pinned := rfl
@[simp] theorem State.setCore_walks (s : State) (c : CoreIx) (k : Core) : (s.setCore c k).walks = s.walks := rfl
@[simp] theorem State.setCore_ctlbs (s : State) (c : CoreIx) (k : Core) : (s.setCore c k).ctlbs = s.ctlbs := rfl
@[simp] theorem State.setCore_records (s : State) (c : CoreIx) (k : Core) : (s.setCore c k).records = s.records := rfl
@[simp] theorem State.setCore_patrols (s : State) (c : CoreIx) (k : Core) : (s.setCore c k).patrols = s.patrols := rfl
@[simp] theorem State.setCore_retire (s : State) (c : CoreIx) (k : Core) : (s.setCore c k).retire = s.retire := rfl
@[simp] theorem State.setCore_slices (s : State) (c : CoreIx) (k : Core) : (s.setCore c k).slices = s.slices := rfl
@[simp] theorem State.setCore_dirs (s : State) (c : CoreIx) (k : Core) : (s.setCore c k).dirs = s.dirs := rfl
@[simp] theorem State.setCore_overs (s : State) (c : CoreIx) (k : Core) : (s.setCore c k).overs = s.overs := rfl
@[simp] theorem State.setCore_spillFills (s : State) (c : CoreIx) (k : Core) : (s.setCore c k).spillFills = s.spillFills := rfl
@[simp] theorem State.setCore_spillInvs (s : State) (c : CoreIx) (k : Core) : (s.setCore c k).spillInvs = s.spillInvs := rfl
@[simp] theorem State.setCore_rdcs (s : State) (c : CoreIx) (k : Core) : (s.setCore c k).rdcs = s.rdcs := rfl
@[simp] theorem State.setCore_l2ctl (s : State) (c : CoreIx) (k : Core) : (s.setCore c k).l2ctl = s.l2ctl := rfl
@[simp] theorem State.setCore_quars (s : State) (c : CoreIx) (k : Core) : (s.setCore c k).quars = s.quars := rfl
@[simp] theorem State.setCore_rdcQuars (s : State) (c : CoreIx) (k : Core) : (s.setCore c k).rdcQuars = s.rdcQuars := rfl
@[simp] theorem State.setCore_wayErrs (s : State) (c : CoreIx) (k : Core) : (s.setCore c k).wayErrs = s.wayErrs := rfl
@[simp] theorem State.setCore_dramErr (s : State) (c : CoreIx) (k : Core) : (s.setCore c k).dramErr = s.dramErr := rfl
@[simp] theorem State.setCore_locErr (s : State) (c : CoreIx) (k : Core) : (s.setCore c k).locErr = s.locErr := rfl
@[simp] theorem State.setCore_held (s : State) (c : CoreIx) (k : Core) : (s.setCore c k).held = s.held := rfl
@[simp] theorem State.setCore_claims (s : State) (c : CoreIx) (k : Core) : (s.setCore c k).claims = s.claims := rfl
@[simp] theorem State.setCore_lrws (s : State) (c : CoreIx) (k : Core) : (s.setCore c k).lrws = s.lrws := rfl
@[simp] theorem State.setCore_rupds (s : State) (c : CoreIx) (k : Core) : (s.setCore c k).rupds = s.rupds := rfl
@[simp] theorem State.setCore_layout (s : State) (c : CoreIx) (k : Core) : (s.setCore c k).layout = s.layout := rfl
@[simp] theorem State.setCore_locked (s : State) (c : CoreIx) (k : Core) : (s.setCore c k).locked = s.locked := rfl
@[simp] theorem State.setCore_scrubs (s : State) (c : CoreIx) (k : Core) : (s.setCore c k).scrubs = s.scrubs := rfl
@[simp] theorem State.setCore_destroying (s : State) (c : CoreIx) (k : Core) : (s.setCore c k).destroying = s.destroying := rfl
@[simp] theorem State.setCore_regions (s : State) (c : CoreIx) (k : Core) : (s.setCore c k).regions = s.regions := rfl
@[simp] theorem State.setCore_nextRegion (s : State) (c : CoreIx) (k : Core) : (s.setCore c k).nextRegion = s.nextRegion := rfl
@[simp] theorem State.setCore_ancestry (s : State) (c : CoreIx) (k : Core) : (s.setCore c k).ancestry = s.ancestry := rfl
@[simp] theorem State.setCore_launches (s : State) (c : CoreIx) (k : Core) : (s.setCore c k).launches = s.launches := rfl
@[simp] theorem State.setCore_translator (s : State) (c : CoreIx) (k : Core) : (s.setCore c k).translator = s.translator := rfl
@[simp] theorem State.setCore_admitting (s : State) (c : CoreIx) (k : Core) : (s.setCore c k).admitting = s.admitting := rfl
@[simp] theorem State.setCore_cacheSpoilt (s : State) (c : CoreIx) (k : Core) : (s.setCore c k).cacheSpoilt = s.cacheSpoilt := rfl
@[simp] theorem State.setCore_dispatchers (s : State) (c : CoreIx) (k : Core) : (s.setCore c k).dispatchers = s.dispatchers := rfl
@[simp] theorem State.setCore_weirs (s : State) (c : CoreIx) (k : Core) : (s.setCore c k).weirs = s.weirs := rfl
@[simp] theorem State.setCore_gangs (s : State) (c : CoreIx) (k : Core) : (s.setCore c k).gangs = s.gangs := rfl
@[simp] theorem State.setCore_flights (s : State) (c : CoreIx) (k : Core) : (s.setCore c k).flights = s.flights := rfl
@[simp] theorem State.setCore_occupancy (s : State) (c : CoreIx) (k : Core) : (s.setCore c k).occupancy = s.occupancy := rfl
@[simp] theorem State.setCore_sampled (s : State) (c : CoreIx) (k : Core) : (s.setCore c k).sampled = s.sampled := rfl
@[simp] theorem State.setCore_pools (s : State) (c : CoreIx) (k : Core) : (s.setCore c k).pools = s.pools := rfl
@[simp] theorem State.setCore_subs (s : State) (c : CoreIx) (k : Core) : (s.setCore c k).subs = s.subs := rfl
@[simp] theorem State.setCore_lost (s : State) (c : CoreIx) (k : Core) : (s.setCore c k).lost = s.lost := rfl
@[simp] theorem State.setCore_rotations (s : State) (c : CoreIx) (k : Core) : (s.setCore c k).rotations = s.rotations := rfl
@[simp] theorem State.setCore_saves (s : State) (c : CoreIx) (k : Core) : (s.setCore c k).saves = s.saves := rfl
@[simp] theorem State.setCore_owner (s : State) (c : CoreIx) (k : Core) : (s.setCore c k).owner = s.owner := rfl
@[simp] theorem State.setCore_ready (s : State) (c : CoreIx) (k : Core) : (s.setCore c k).ready = s.ready := rfl
@[simp] theorem State.setCore_mboxStamp (s : State) (c : CoreIx) (k : Core) : (s.setCore c k).mboxStamp = s.mboxStamp := rfl
@[simp] theorem State.setCore_mboxStatus (s : State) (c : CoreIx) (k : Core) : (s.setCore c k).mboxStatus = s.mboxStatus := rfl
@[simp] theorem State.setCore_mboxBusy (s : State) (c : CoreIx) (k : Core) : (s.setCore c k).mboxBusy = s.mboxBusy := rfl
@[simp] theorem State.setCore_mboxWait (s : State) (c : CoreIx) (k : Core) : (s.setCore c k).mboxWait = s.mboxWait := rfl
@[simp] theorem State.setCore_fns (s : State) (c : CoreIx) (k : Core) : (s.setCore c k).fns = s.fns := rfl
@[simp] theorem State.setCore_attached (s : State) (c : CoreIx) (k : Core) : (s.setCore c k).attached = s.attached := rfl
@[simp] theorem State.setCore_monitors (s : State) (c : CoreIx) (k : Core) : (s.setCore c k).monitors = s.monitors := rfl
@[simp] theorem State.setCore_measures (s : State) (c : CoreIx) (k : Core) : (s.setCore c k).measures = s.measures := rfl
@[simp] theorem State.setCore_channels (s : State) (c : CoreIx) (k : Core) : (s.setCore c k).channels = s.channels := rfl
@[simp] theorem State.setCore_spdmStage (s : State) (c : CoreIx) (k : Core) : (s.setCore c k).spdmStage = s.spdmStage := rfl
@[simp] theorem State.setCore_spdmTrans (s : State) (c : CoreIx) (k : Core) : (s.setCore c k).spdmTrans = s.spdmTrans := rfl
@[simp] theorem State.setCore_gated (s : State) (c : CoreIx) (k : Core) : (s.setCore c k).gated = s.gated := rfl
@[simp] theorem State.setCore_stamped (s : State) (c : CoreIx) (k : Core) : (s.setCore c k).stamped = s.stamped := rfl
@[simp] theorem State.setCore_throttled (s : State) (c : CoreIx) (k : Core) : (s.setCore c k).throttled = s.throttled := rfl
@[simp] theorem State.setCore_out (s : State) (c : CoreIx) (k : Core) : (s.setCore c k).out = s.out := rfl
@[simp] theorem State.modCore_tc (s : State) (c : CoreIx) (f : Core → Core) : (s.modCore c f).tc = s.tc := rfl
@[simp] theorem State.modCore_seq (s : State) (c : CoreIx) (f : Core → Core) : (s.modCore c f).seq = s.seq := rfl
@[simp] theorem State.modCore_hold (s : State) (c : CoreIx) (f : Core → Core) : (s.modCore c f).hold = s.hold := rfl
@[simp] theorem State.modCore_cursor (s : State) (c : CoreIx) (f : Core → Core) : (s.modCore c f).cursor = s.cursor := rfl
@[simp] theorem State.modCore_cur (s : State) (c : CoreIx) (f : Core → Core) : (s.modCore c f).cur = s.cur := rfl
@[simp] theorem State.modCore_pipe (s : State) (c : CoreIx) (f : Core → Core) : (s.modCore c f).pipe = s.pipe := rfl
@[simp] theorem State.modCore_arg (s : State) (c : CoreIx) (f : Core → Core) : (s.modCore c f).arg = s.arg := rfl
@[simp] theorem State.modCore_stall (s : State) (c : CoreIx) (f : Core → Core) : (s.modCore c f).stall = s.stall := rfl
@[simp] theorem State.modCore_urgent (s : State) (c : CoreIx) (f : Core → Core) : (s.modCore c f).urgent = s.urgent := rfl
@[simp] theorem State.modCore_agenda (s : State) (c : CoreIx) (f : Core → Core) : (s.modCore c f).agenda = s.agenda := rfl
@[simp] theorem State.modCore_hbm (s : State) (c : CoreIx) (f : Core → Core) : (s.modCore c f).hbm = s.hbm := rfl
@[simp] theorem State.modCore_lines (s : State) (c : CoreIx) (f : Core → Core) : (s.modCore c f).lines = s.lines := rfl
@[simp] theorem State.modCore_spares (s : State) (c : CoreIx) (f : Core → Core) : (s.modCore c f).spares = s.spares := rfl
@[simp] theorem State.modCore_keys (s : State) (c : CoreIx) (f : Core → Core) : (s.modCore c f).keys = s.keys := rfl
@[simp] theorem State.modCore_worldTable (s : State) (c : CoreIx) (f : Core → Core) : (s.modCore c f).worldTable = s.worldTable := rfl
@[simp] theorem State.modCore_pinned (s : State) (c : CoreIx) (f : Core → Core) : (s.modCore c f).pinned = s.pinned := rfl
@[simp] theorem State.modCore_walks (s : State) (c : CoreIx) (f : Core → Core) : (s.modCore c f).walks = s.walks := rfl
@[simp] theorem State.modCore_ctlbs (s : State) (c : CoreIx) (f : Core → Core) : (s.modCore c f).ctlbs = s.ctlbs := rfl
@[simp] theorem State.modCore_records (s : State) (c : CoreIx) (f : Core → Core) : (s.modCore c f).records = s.records := rfl
@[simp] theorem State.modCore_patrols (s : State) (c : CoreIx) (f : Core → Core) : (s.modCore c f).patrols = s.patrols := rfl
@[simp] theorem State.modCore_retire (s : State) (c : CoreIx) (f : Core → Core) : (s.modCore c f).retire = s.retire := rfl
@[simp] theorem State.modCore_slices (s : State) (c : CoreIx) (f : Core → Core) : (s.modCore c f).slices = s.slices := rfl
@[simp] theorem State.modCore_dirs (s : State) (c : CoreIx) (f : Core → Core) : (s.modCore c f).dirs = s.dirs := rfl
@[simp] theorem State.modCore_overs (s : State) (c : CoreIx) (f : Core → Core) : (s.modCore c f).overs = s.overs := rfl
@[simp] theorem State.modCore_spillFills (s : State) (c : CoreIx) (f : Core → Core) : (s.modCore c f).spillFills = s.spillFills := rfl
@[simp] theorem State.modCore_spillInvs (s : State) (c : CoreIx) (f : Core → Core) : (s.modCore c f).spillInvs = s.spillInvs := rfl
@[simp] theorem State.modCore_rdcs (s : State) (c : CoreIx) (f : Core → Core) : (s.modCore c f).rdcs = s.rdcs := rfl
@[simp] theorem State.modCore_l2ctl (s : State) (c : CoreIx) (f : Core → Core) : (s.modCore c f).l2ctl = s.l2ctl := rfl
@[simp] theorem State.modCore_quars (s : State) (c : CoreIx) (f : Core → Core) : (s.modCore c f).quars = s.quars := rfl
@[simp] theorem State.modCore_rdcQuars (s : State) (c : CoreIx) (f : Core → Core) : (s.modCore c f).rdcQuars = s.rdcQuars := rfl
@[simp] theorem State.modCore_wayErrs (s : State) (c : CoreIx) (f : Core → Core) : (s.modCore c f).wayErrs = s.wayErrs := rfl
@[simp] theorem State.modCore_dramErr (s : State) (c : CoreIx) (f : Core → Core) : (s.modCore c f).dramErr = s.dramErr := rfl
@[simp] theorem State.modCore_locErr (s : State) (c : CoreIx) (f : Core → Core) : (s.modCore c f).locErr = s.locErr := rfl
@[simp] theorem State.modCore_held (s : State) (c : CoreIx) (f : Core → Core) : (s.modCore c f).held = s.held := rfl
@[simp] theorem State.modCore_claims (s : State) (c : CoreIx) (f : Core → Core) : (s.modCore c f).claims = s.claims := rfl
@[simp] theorem State.modCore_lrws (s : State) (c : CoreIx) (f : Core → Core) : (s.modCore c f).lrws = s.lrws := rfl
@[simp] theorem State.modCore_rupds (s : State) (c : CoreIx) (f : Core → Core) : (s.modCore c f).rupds = s.rupds := rfl
@[simp] theorem State.modCore_layout (s : State) (c : CoreIx) (f : Core → Core) : (s.modCore c f).layout = s.layout := rfl
@[simp] theorem State.modCore_locked (s : State) (c : CoreIx) (f : Core → Core) : (s.modCore c f).locked = s.locked := rfl
@[simp] theorem State.modCore_scrubs (s : State) (c : CoreIx) (f : Core → Core) : (s.modCore c f).scrubs = s.scrubs := rfl
@[simp] theorem State.modCore_destroying (s : State) (c : CoreIx) (f : Core → Core) : (s.modCore c f).destroying = s.destroying := rfl
@[simp] theorem State.modCore_regions (s : State) (c : CoreIx) (f : Core → Core) : (s.modCore c f).regions = s.regions := rfl
@[simp] theorem State.modCore_nextRegion (s : State) (c : CoreIx) (f : Core → Core) : (s.modCore c f).nextRegion = s.nextRegion := rfl
@[simp] theorem State.modCore_ancestry (s : State) (c : CoreIx) (f : Core → Core) : (s.modCore c f).ancestry = s.ancestry := rfl
@[simp] theorem State.modCore_launches (s : State) (c : CoreIx) (f : Core → Core) : (s.modCore c f).launches = s.launches := rfl
@[simp] theorem State.modCore_translator (s : State) (c : CoreIx) (f : Core → Core) : (s.modCore c f).translator = s.translator := rfl
@[simp] theorem State.modCore_admitting (s : State) (c : CoreIx) (f : Core → Core) : (s.modCore c f).admitting = s.admitting := rfl
@[simp] theorem State.modCore_cacheSpoilt (s : State) (c : CoreIx) (f : Core → Core) : (s.modCore c f).cacheSpoilt = s.cacheSpoilt := rfl
@[simp] theorem State.modCore_dispatchers (s : State) (c : CoreIx) (f : Core → Core) : (s.modCore c f).dispatchers = s.dispatchers := rfl
@[simp] theorem State.modCore_weirs (s : State) (c : CoreIx) (f : Core → Core) : (s.modCore c f).weirs = s.weirs := rfl
@[simp] theorem State.modCore_gangs (s : State) (c : CoreIx) (f : Core → Core) : (s.modCore c f).gangs = s.gangs := rfl
@[simp] theorem State.modCore_flights (s : State) (c : CoreIx) (f : Core → Core) : (s.modCore c f).flights = s.flights := rfl
@[simp] theorem State.modCore_occupancy (s : State) (c : CoreIx) (f : Core → Core) : (s.modCore c f).occupancy = s.occupancy := rfl
@[simp] theorem State.modCore_sampled (s : State) (c : CoreIx) (f : Core → Core) : (s.modCore c f).sampled = s.sampled := rfl
@[simp] theorem State.modCore_pools (s : State) (c : CoreIx) (f : Core → Core) : (s.modCore c f).pools = s.pools := rfl
@[simp] theorem State.modCore_subs (s : State) (c : CoreIx) (f : Core → Core) : (s.modCore c f).subs = s.subs := rfl
@[simp] theorem State.modCore_lost (s : State) (c : CoreIx) (f : Core → Core) : (s.modCore c f).lost = s.lost := rfl
@[simp] theorem State.modCore_rotations (s : State) (c : CoreIx) (f : Core → Core) : (s.modCore c f).rotations = s.rotations := rfl
@[simp] theorem State.modCore_saves (s : State) (c : CoreIx) (f : Core → Core) : (s.modCore c f).saves = s.saves := rfl
@[simp] theorem State.modCore_owner (s : State) (c : CoreIx) (f : Core → Core) : (s.modCore c f).owner = s.owner := rfl
@[simp] theorem State.modCore_ready (s : State) (c : CoreIx) (f : Core → Core) : (s.modCore c f).ready = s.ready := rfl
@[simp] theorem State.modCore_mboxStamp (s : State) (c : CoreIx) (f : Core → Core) : (s.modCore c f).mboxStamp = s.mboxStamp := rfl
@[simp] theorem State.modCore_mboxStatus (s : State) (c : CoreIx) (f : Core → Core) : (s.modCore c f).mboxStatus = s.mboxStatus := rfl
@[simp] theorem State.modCore_mboxBusy (s : State) (c : CoreIx) (f : Core → Core) : (s.modCore c f).mboxBusy = s.mboxBusy := rfl
@[simp] theorem State.modCore_mboxWait (s : State) (c : CoreIx) (f : Core → Core) : (s.modCore c f).mboxWait = s.mboxWait := rfl
@[simp] theorem State.modCore_fns (s : State) (c : CoreIx) (f : Core → Core) : (s.modCore c f).fns = s.fns := rfl
@[simp] theorem State.modCore_attached (s : State) (c : CoreIx) (f : Core → Core) : (s.modCore c f).attached = s.attached := rfl
@[simp] theorem State.modCore_monitors (s : State) (c : CoreIx) (f : Core → Core) : (s.modCore c f).monitors = s.monitors := rfl
@[simp] theorem State.modCore_measures (s : State) (c : CoreIx) (f : Core → Core) : (s.modCore c f).measures = s.measures := rfl
@[simp] theorem State.modCore_channels (s : State) (c : CoreIx) (f : Core → Core) : (s.modCore c f).channels = s.channels := rfl
@[simp] theorem State.modCore_spdmStage (s : State) (c : CoreIx) (f : Core → Core) : (s.modCore c f).spdmStage = s.spdmStage := rfl
@[simp] theorem State.modCore_spdmTrans (s : State) (c : CoreIx) (f : Core → Core) : (s.modCore c f).spdmTrans = s.spdmTrans := rfl
@[simp] theorem State.modCore_gated (s : State) (c : CoreIx) (f : Core → Core) : (s.modCore c f).gated = s.gated := rfl
@[simp] theorem State.modCore_stamped (s : State) (c : CoreIx) (f : Core → Core) : (s.modCore c f).stamped = s.stamped := rfl
@[simp] theorem State.modCore_throttled (s : State) (c : CoreIx) (f : Core → Core) : (s.modCore c f).throttled = s.throttled := rfl
@[simp] theorem State.modCore_out (s : State) (c : CoreIx) (f : Core → Core) : (s.modCore c f).out = s.out := rfl
@[simp] theorem State.setThread_tc (s : State) (r : SlotRef) (t : Thread) : (s.setThread r t).tc = s.tc := rfl
@[simp] theorem State.setThread_seq (s : State) (r : SlotRef) (t : Thread) : (s.setThread r t).seq = s.seq := rfl
@[simp] theorem State.setThread_hold (s : State) (r : SlotRef) (t : Thread) : (s.setThread r t).hold = s.hold := rfl
@[simp] theorem State.setThread_cursor (s : State) (r : SlotRef) (t : Thread) : (s.setThread r t).cursor = s.cursor := rfl
@[simp] theorem State.setThread_cur (s : State) (r : SlotRef) (t : Thread) : (s.setThread r t).cur = s.cur := rfl
@[simp] theorem State.setThread_pipe (s : State) (r : SlotRef) (t : Thread) : (s.setThread r t).pipe = s.pipe := rfl
@[simp] theorem State.setThread_arg (s : State) (r : SlotRef) (t : Thread) : (s.setThread r t).arg = s.arg := rfl
@[simp] theorem State.setThread_stall (s : State) (r : SlotRef) (t : Thread) : (s.setThread r t).stall = s.stall := rfl
@[simp] theorem State.setThread_urgent (s : State) (r : SlotRef) (t : Thread) : (s.setThread r t).urgent = s.urgent := rfl
@[simp] theorem State.setThread_agenda (s : State) (r : SlotRef) (t : Thread) : (s.setThread r t).agenda = s.agenda := rfl
@[simp] theorem State.setThread_hbm (s : State) (r : SlotRef) (t : Thread) : (s.setThread r t).hbm = s.hbm := rfl
@[simp] theorem State.setThread_lines (s : State) (r : SlotRef) (t : Thread) : (s.setThread r t).lines = s.lines := rfl
@[simp] theorem State.setThread_spares (s : State) (r : SlotRef) (t : Thread) : (s.setThread r t).spares = s.spares := rfl
@[simp] theorem State.setThread_keys (s : State) (r : SlotRef) (t : Thread) : (s.setThread r t).keys = s.keys := rfl
@[simp] theorem State.setThread_worldTable (s : State) (r : SlotRef) (t : Thread) : (s.setThread r t).worldTable = s.worldTable := rfl
@[simp] theorem State.setThread_pinned (s : State) (r : SlotRef) (t : Thread) : (s.setThread r t).pinned = s.pinned := rfl
@[simp] theorem State.setThread_walks (s : State) (r : SlotRef) (t : Thread) : (s.setThread r t).walks = s.walks := rfl
@[simp] theorem State.setThread_ctlbs (s : State) (r : SlotRef) (t : Thread) : (s.setThread r t).ctlbs = s.ctlbs := rfl
@[simp] theorem State.setThread_records (s : State) (r : SlotRef) (t : Thread) : (s.setThread r t).records = s.records := rfl
@[simp] theorem State.setThread_patrols (s : State) (r : SlotRef) (t : Thread) : (s.setThread r t).patrols = s.patrols := rfl
@[simp] theorem State.setThread_retire (s : State) (r : SlotRef) (t : Thread) : (s.setThread r t).retire = s.retire := rfl
@[simp] theorem State.setThread_slices (s : State) (r : SlotRef) (t : Thread) : (s.setThread r t).slices = s.slices := rfl
@[simp] theorem State.setThread_dirs (s : State) (r : SlotRef) (t : Thread) : (s.setThread r t).dirs = s.dirs := rfl
@[simp] theorem State.setThread_overs (s : State) (r : SlotRef) (t : Thread) : (s.setThread r t).overs = s.overs := rfl
@[simp] theorem State.setThread_spillFills (s : State) (r : SlotRef) (t : Thread) : (s.setThread r t).spillFills = s.spillFills := rfl
@[simp] theorem State.setThread_spillInvs (s : State) (r : SlotRef) (t : Thread) : (s.setThread r t).spillInvs = s.spillInvs := rfl
@[simp] theorem State.setThread_rdcs (s : State) (r : SlotRef) (t : Thread) : (s.setThread r t).rdcs = s.rdcs := rfl
@[simp] theorem State.setThread_l2ctl (s : State) (r : SlotRef) (t : Thread) : (s.setThread r t).l2ctl = s.l2ctl := rfl
@[simp] theorem State.setThread_quars (s : State) (r : SlotRef) (t : Thread) : (s.setThread r t).quars = s.quars := rfl
@[simp] theorem State.setThread_rdcQuars (s : State) (r : SlotRef) (t : Thread) : (s.setThread r t).rdcQuars = s.rdcQuars := rfl
@[simp] theorem State.setThread_wayErrs (s : State) (r : SlotRef) (t : Thread) : (s.setThread r t).wayErrs = s.wayErrs := rfl
@[simp] theorem State.setThread_dramErr (s : State) (r : SlotRef) (t : Thread) : (s.setThread r t).dramErr = s.dramErr := rfl
@[simp] theorem State.setThread_locErr (s : State) (r : SlotRef) (t : Thread) : (s.setThread r t).locErr = s.locErr := rfl
@[simp] theorem State.setThread_held (s : State) (r : SlotRef) (t : Thread) : (s.setThread r t).held = s.held := rfl
@[simp] theorem State.setThread_claims (s : State) (r : SlotRef) (t : Thread) : (s.setThread r t).claims = s.claims := rfl
@[simp] theorem State.setThread_lrws (s : State) (r : SlotRef) (t : Thread) : (s.setThread r t).lrws = s.lrws := rfl
@[simp] theorem State.setThread_rupds (s : State) (r : SlotRef) (t : Thread) : (s.setThread r t).rupds = s.rupds := rfl
@[simp] theorem State.setThread_layout (s : State) (r : SlotRef) (t : Thread) : (s.setThread r t).layout = s.layout := rfl
@[simp] theorem State.setThread_locked (s : State) (r : SlotRef) (t : Thread) : (s.setThread r t).locked = s.locked := rfl
@[simp] theorem State.setThread_scrubs (s : State) (r : SlotRef) (t : Thread) : (s.setThread r t).scrubs = s.scrubs := rfl
@[simp] theorem State.setThread_destroying (s : State) (r : SlotRef) (t : Thread) : (s.setThread r t).destroying = s.destroying := rfl
@[simp] theorem State.setThread_regions (s : State) (r : SlotRef) (t : Thread) : (s.setThread r t).regions = s.regions := rfl
@[simp] theorem State.setThread_nextRegion (s : State) (r : SlotRef) (t : Thread) : (s.setThread r t).nextRegion = s.nextRegion := rfl
@[simp] theorem State.setThread_ancestry (s : State) (r : SlotRef) (t : Thread) : (s.setThread r t).ancestry = s.ancestry := rfl
@[simp] theorem State.setThread_launches (s : State) (r : SlotRef) (t : Thread) : (s.setThread r t).launches = s.launches := rfl
@[simp] theorem State.setThread_translator (s : State) (r : SlotRef) (t : Thread) : (s.setThread r t).translator = s.translator := rfl
@[simp] theorem State.setThread_admitting (s : State) (r : SlotRef) (t : Thread) : (s.setThread r t).admitting = s.admitting := rfl
@[simp] theorem State.setThread_cacheSpoilt (s : State) (r : SlotRef) (t : Thread) : (s.setThread r t).cacheSpoilt = s.cacheSpoilt := rfl
@[simp] theorem State.setThread_dispatchers (s : State) (r : SlotRef) (t : Thread) : (s.setThread r t).dispatchers = s.dispatchers := rfl
@[simp] theorem State.setThread_weirs (s : State) (r : SlotRef) (t : Thread) : (s.setThread r t).weirs = s.weirs := rfl
@[simp] theorem State.setThread_gangs (s : State) (r : SlotRef) (t : Thread) : (s.setThread r t).gangs = s.gangs := rfl
@[simp] theorem State.setThread_flights (s : State) (r : SlotRef) (t : Thread) : (s.setThread r t).flights = s.flights := rfl
@[simp] theorem State.setThread_occupancy (s : State) (r : SlotRef) (t : Thread) : (s.setThread r t).occupancy = s.occupancy := rfl
@[simp] theorem State.setThread_sampled (s : State) (r : SlotRef) (t : Thread) : (s.setThread r t).sampled = s.sampled := rfl
@[simp] theorem State.setThread_pools (s : State) (r : SlotRef) (t : Thread) : (s.setThread r t).pools = s.pools := rfl
@[simp] theorem State.setThread_subs (s : State) (r : SlotRef) (t : Thread) : (s.setThread r t).subs = s.subs := rfl
@[simp] theorem State.setThread_lost (s : State) (r : SlotRef) (t : Thread) : (s.setThread r t).lost = s.lost := rfl
@[simp] theorem State.setThread_rotations (s : State) (r : SlotRef) (t : Thread) : (s.setThread r t).rotations = s.rotations := rfl
@[simp] theorem State.setThread_saves (s : State) (r : SlotRef) (t : Thread) : (s.setThread r t).saves = s.saves := rfl
@[simp] theorem State.setThread_owner (s : State) (r : SlotRef) (t : Thread) : (s.setThread r t).owner = s.owner := rfl
@[simp] theorem State.setThread_ready (s : State) (r : SlotRef) (t : Thread) : (s.setThread r t).ready = s.ready := rfl
@[simp] theorem State.setThread_mboxStamp (s : State) (r : SlotRef) (t : Thread) : (s.setThread r t).mboxStamp = s.mboxStamp := rfl
@[simp] theorem State.setThread_mboxStatus (s : State) (r : SlotRef) (t : Thread) : (s.setThread r t).mboxStatus = s.mboxStatus := rfl
@[simp] theorem State.setThread_mboxBusy (s : State) (r : SlotRef) (t : Thread) : (s.setThread r t).mboxBusy = s.mboxBusy := rfl
@[simp] theorem State.setThread_mboxWait (s : State) (r : SlotRef) (t : Thread) : (s.setThread r t).mboxWait = s.mboxWait := rfl
@[simp] theorem State.setThread_fns (s : State) (r : SlotRef) (t : Thread) : (s.setThread r t).fns = s.fns := rfl
@[simp] theorem State.setThread_attached (s : State) (r : SlotRef) (t : Thread) : (s.setThread r t).attached = s.attached := rfl
@[simp] theorem State.setThread_monitors (s : State) (r : SlotRef) (t : Thread) : (s.setThread r t).monitors = s.monitors := rfl
@[simp] theorem State.setThread_measures (s : State) (r : SlotRef) (t : Thread) : (s.setThread r t).measures = s.measures := rfl
@[simp] theorem State.setThread_channels (s : State) (r : SlotRef) (t : Thread) : (s.setThread r t).channels = s.channels := rfl
@[simp] theorem State.setThread_spdmStage (s : State) (r : SlotRef) (t : Thread) : (s.setThread r t).spdmStage = s.spdmStage := rfl
@[simp] theorem State.setThread_spdmTrans (s : State) (r : SlotRef) (t : Thread) : (s.setThread r t).spdmTrans = s.spdmTrans := rfl
@[simp] theorem State.setThread_gated (s : State) (r : SlotRef) (t : Thread) : (s.setThread r t).gated = s.gated := rfl
@[simp] theorem State.setThread_stamped (s : State) (r : SlotRef) (t : Thread) : (s.setThread r t).stamped = s.stamped := rfl
@[simp] theorem State.setThread_throttled (s : State) (r : SlotRef) (t : Thread) : (s.setThread r t).throttled = s.throttled := rfl
@[simp] theorem State.setThread_out (s : State) (r : SlotRef) (t : Thread) : (s.setThread r t).out = s.out := rfl
@[simp] theorem State.clearSlot_tc (s : State) (r : SlotRef) : (s.clearSlot r).tc = s.tc := rfl
@[simp] theorem State.clearSlot_seq (s : State) (r : SlotRef) : (s.clearSlot r).seq = s.seq := rfl
@[simp] theorem State.clearSlot_hold (s : State) (r : SlotRef) : (s.clearSlot r).hold = s.hold := rfl
@[simp] theorem State.clearSlot_cursor (s : State) (r : SlotRef) : (s.clearSlot r).cursor = s.cursor := rfl
@[simp] theorem State.clearSlot_cur (s : State) (r : SlotRef) : (s.clearSlot r).cur = s.cur := rfl
@[simp] theorem State.clearSlot_pipe (s : State) (r : SlotRef) : (s.clearSlot r).pipe = s.pipe := rfl
@[simp] theorem State.clearSlot_arg (s : State) (r : SlotRef) : (s.clearSlot r).arg = s.arg := rfl
@[simp] theorem State.clearSlot_stall (s : State) (r : SlotRef) : (s.clearSlot r).stall = s.stall := rfl
@[simp] theorem State.clearSlot_urgent (s : State) (r : SlotRef) : (s.clearSlot r).urgent = s.urgent := rfl
@[simp] theorem State.clearSlot_agenda (s : State) (r : SlotRef) : (s.clearSlot r).agenda = s.agenda := rfl
@[simp] theorem State.clearSlot_hbm (s : State) (r : SlotRef) : (s.clearSlot r).hbm = s.hbm := rfl
@[simp] theorem State.clearSlot_lines (s : State) (r : SlotRef) : (s.clearSlot r).lines = s.lines := rfl
@[simp] theorem State.clearSlot_spares (s : State) (r : SlotRef) : (s.clearSlot r).spares = s.spares := rfl
@[simp] theorem State.clearSlot_keys (s : State) (r : SlotRef) : (s.clearSlot r).keys = s.keys := rfl
@[simp] theorem State.clearSlot_worldTable (s : State) (r : SlotRef) : (s.clearSlot r).worldTable = s.worldTable := rfl
@[simp] theorem State.clearSlot_pinned (s : State) (r : SlotRef) : (s.clearSlot r).pinned = s.pinned := rfl
@[simp] theorem State.clearSlot_walks (s : State) (r : SlotRef) : (s.clearSlot r).walks = s.walks := rfl
@[simp] theorem State.clearSlot_ctlbs (s : State) (r : SlotRef) : (s.clearSlot r).ctlbs = s.ctlbs := rfl
@[simp] theorem State.clearSlot_records (s : State) (r : SlotRef) : (s.clearSlot r).records = s.records := rfl
@[simp] theorem State.clearSlot_patrols (s : State) (r : SlotRef) : (s.clearSlot r).patrols = s.patrols := rfl
@[simp] theorem State.clearSlot_retire (s : State) (r : SlotRef) : (s.clearSlot r).retire = s.retire := rfl
@[simp] theorem State.clearSlot_slices (s : State) (r : SlotRef) : (s.clearSlot r).slices = s.slices := rfl
@[simp] theorem State.clearSlot_dirs (s : State) (r : SlotRef) : (s.clearSlot r).dirs = s.dirs := rfl
@[simp] theorem State.clearSlot_overs (s : State) (r : SlotRef) : (s.clearSlot r).overs = s.overs := rfl
@[simp] theorem State.clearSlot_spillFills (s : State) (r : SlotRef) : (s.clearSlot r).spillFills = s.spillFills := rfl
@[simp] theorem State.clearSlot_spillInvs (s : State) (r : SlotRef) : (s.clearSlot r).spillInvs = s.spillInvs := rfl
@[simp] theorem State.clearSlot_rdcs (s : State) (r : SlotRef) : (s.clearSlot r).rdcs = s.rdcs := rfl
@[simp] theorem State.clearSlot_l2ctl (s : State) (r : SlotRef) : (s.clearSlot r).l2ctl = s.l2ctl := rfl
@[simp] theorem State.clearSlot_quars (s : State) (r : SlotRef) : (s.clearSlot r).quars = s.quars := rfl
@[simp] theorem State.clearSlot_rdcQuars (s : State) (r : SlotRef) : (s.clearSlot r).rdcQuars = s.rdcQuars := rfl
@[simp] theorem State.clearSlot_wayErrs (s : State) (r : SlotRef) : (s.clearSlot r).wayErrs = s.wayErrs := rfl
@[simp] theorem State.clearSlot_dramErr (s : State) (r : SlotRef) : (s.clearSlot r).dramErr = s.dramErr := rfl
@[simp] theorem State.clearSlot_locErr (s : State) (r : SlotRef) : (s.clearSlot r).locErr = s.locErr := rfl
@[simp] theorem State.clearSlot_held (s : State) (r : SlotRef) : (s.clearSlot r).held = s.held := rfl
@[simp] theorem State.clearSlot_claims (s : State) (r : SlotRef) : (s.clearSlot r).claims = s.claims := rfl
@[simp] theorem State.clearSlot_lrws (s : State) (r : SlotRef) : (s.clearSlot r).lrws = s.lrws := rfl
@[simp] theorem State.clearSlot_rupds (s : State) (r : SlotRef) : (s.clearSlot r).rupds = s.rupds := rfl
@[simp] theorem State.clearSlot_layout (s : State) (r : SlotRef) : (s.clearSlot r).layout = s.layout := rfl
@[simp] theorem State.clearSlot_locked (s : State) (r : SlotRef) : (s.clearSlot r).locked = s.locked := rfl
@[simp] theorem State.clearSlot_scrubs (s : State) (r : SlotRef) : (s.clearSlot r).scrubs = s.scrubs := rfl
@[simp] theorem State.clearSlot_destroying (s : State) (r : SlotRef) : (s.clearSlot r).destroying = s.destroying := rfl
@[simp] theorem State.clearSlot_regions (s : State) (r : SlotRef) : (s.clearSlot r).regions = s.regions := rfl
@[simp] theorem State.clearSlot_nextRegion (s : State) (r : SlotRef) : (s.clearSlot r).nextRegion = s.nextRegion := rfl
@[simp] theorem State.clearSlot_ancestry (s : State) (r : SlotRef) : (s.clearSlot r).ancestry = s.ancestry := rfl
@[simp] theorem State.clearSlot_launches (s : State) (r : SlotRef) : (s.clearSlot r).launches = s.launches := rfl
@[simp] theorem State.clearSlot_translator (s : State) (r : SlotRef) : (s.clearSlot r).translator = s.translator := rfl
@[simp] theorem State.clearSlot_admitting (s : State) (r : SlotRef) : (s.clearSlot r).admitting = s.admitting := rfl
@[simp] theorem State.clearSlot_cacheSpoilt (s : State) (r : SlotRef) : (s.clearSlot r).cacheSpoilt = s.cacheSpoilt := rfl
@[simp] theorem State.clearSlot_dispatchers (s : State) (r : SlotRef) : (s.clearSlot r).dispatchers = s.dispatchers := rfl
@[simp] theorem State.clearSlot_weirs (s : State) (r : SlotRef) : (s.clearSlot r).weirs = s.weirs := rfl
@[simp] theorem State.clearSlot_gangs (s : State) (r : SlotRef) : (s.clearSlot r).gangs = s.gangs := rfl
@[simp] theorem State.clearSlot_flights (s : State) (r : SlotRef) : (s.clearSlot r).flights = s.flights := rfl
@[simp] theorem State.clearSlot_occupancy (s : State) (r : SlotRef) : (s.clearSlot r).occupancy = s.occupancy := rfl
@[simp] theorem State.clearSlot_sampled (s : State) (r : SlotRef) : (s.clearSlot r).sampled = s.sampled := rfl
@[simp] theorem State.clearSlot_pools (s : State) (r : SlotRef) : (s.clearSlot r).pools = s.pools := rfl
@[simp] theorem State.clearSlot_subs (s : State) (r : SlotRef) : (s.clearSlot r).subs = s.subs := rfl
@[simp] theorem State.clearSlot_lost (s : State) (r : SlotRef) : (s.clearSlot r).lost = s.lost := rfl
@[simp] theorem State.clearSlot_rotations (s : State) (r : SlotRef) : (s.clearSlot r).rotations = s.rotations := rfl
@[simp] theorem State.clearSlot_saves (s : State) (r : SlotRef) : (s.clearSlot r).saves = s.saves := rfl
@[simp] theorem State.clearSlot_owner (s : State) (r : SlotRef) : (s.clearSlot r).owner = s.owner := rfl
@[simp] theorem State.clearSlot_ready (s : State) (r : SlotRef) : (s.clearSlot r).ready = s.ready := rfl
@[simp] theorem State.clearSlot_mboxStamp (s : State) (r : SlotRef) : (s.clearSlot r).mboxStamp = s.mboxStamp := rfl
@[simp] theorem State.clearSlot_mboxStatus (s : State) (r : SlotRef) : (s.clearSlot r).mboxStatus = s.mboxStatus := rfl
@[simp] theorem State.clearSlot_mboxBusy (s : State) (r : SlotRef) : (s.clearSlot r).mboxBusy = s.mboxBusy := rfl
@[simp] theorem State.clearSlot_mboxWait (s : State) (r : SlotRef) : (s.clearSlot r).mboxWait = s.mboxWait := rfl
@[simp] theorem State.clearSlot_fns (s : State) (r : SlotRef) : (s.clearSlot r).fns = s.fns := rfl
@[simp] theorem State.clearSlot_attached (s : State) (r : SlotRef) : (s.clearSlot r).attached = s.attached := rfl
@[simp] theorem State.clearSlot_monitors (s : State) (r : SlotRef) : (s.clearSlot r).monitors = s.monitors := rfl
@[simp] theorem State.clearSlot_measures (s : State) (r : SlotRef) : (s.clearSlot r).measures = s.measures := rfl
@[simp] theorem State.clearSlot_channels (s : State) (r : SlotRef) : (s.clearSlot r).channels = s.channels := rfl
@[simp] theorem State.clearSlot_spdmStage (s : State) (r : SlotRef) : (s.clearSlot r).spdmStage = s.spdmStage := rfl
@[simp] theorem State.clearSlot_spdmTrans (s : State) (r : SlotRef) : (s.clearSlot r).spdmTrans = s.spdmTrans := rfl
@[simp] theorem State.clearSlot_gated (s : State) (r : SlotRef) : (s.clearSlot r).gated = s.gated := rfl
@[simp] theorem State.clearSlot_stamped (s : State) (r : SlotRef) : (s.clearSlot r).stamped = s.stamped := rfl
@[simp] theorem State.clearSlot_throttled (s : State) (r : SlotRef) : (s.clearSlot r).throttled = s.throttled := rfl
@[simp] theorem State.clearSlot_out (s : State) (r : SlotRef) : (s.clearSlot r).out = s.out := rfl
@[simp] theorem State.setCore_cores (s : State) (c : CoreIx) (k : Core) : (s.setCore c k).cores = tput s.cores c k := rfl

/-! ### State.later and State.emit -/

@[simp] theorem State.later_tc (s : State) (i : Instr) (a : Args) : (s.later i a).tc = s.tc := rfl
@[simp] theorem State.later_seq (s : State) (i : Instr) (a : Args) : (s.later i a).seq = s.seq := rfl
@[simp] theorem State.later_hold (s : State) (i : Instr) (a : Args) : (s.later i a).hold = s.hold := rfl
@[simp] theorem State.later_cursor (s : State) (i : Instr) (a : Args) : (s.later i a).cursor = s.cursor := rfl
@[simp] theorem State.later_cur (s : State) (i : Instr) (a : Args) : (s.later i a).cur = s.cur := rfl
@[simp] theorem State.later_pipe (s : State) (i : Instr) (a : Args) : (s.later i a).pipe = s.pipe := rfl
@[simp] theorem State.later_arg (s : State) (i : Instr) (a : Args) : (s.later i a).arg = s.arg := rfl
@[simp] theorem State.later_stall (s : State) (i : Instr) (a : Args) : (s.later i a).stall = s.stall := rfl
@[simp] theorem State.later_urgent (s : State) (i : Instr) (a : Args) : (s.later i a).urgent = s.urgent := rfl
@[simp] theorem State.later_cores (s : State) (i : Instr) (a : Args) : (s.later i a).cores = s.cores := rfl
@[simp] theorem State.later_hbm (s : State) (i : Instr) (a : Args) : (s.later i a).hbm = s.hbm := rfl
@[simp] theorem State.later_lines (s : State) (i : Instr) (a : Args) : (s.later i a).lines = s.lines := rfl
@[simp] theorem State.later_spares (s : State) (i : Instr) (a : Args) : (s.later i a).spares = s.spares := rfl
@[simp] theorem State.later_keys (s : State) (i : Instr) (a : Args) : (s.later i a).keys = s.keys := rfl
@[simp] theorem State.later_worldTable (s : State) (i : Instr) (a : Args) : (s.later i a).worldTable = s.worldTable := rfl
@[simp] theorem State.later_pinned (s : State) (i : Instr) (a : Args) : (s.later i a).pinned = s.pinned := rfl
@[simp] theorem State.later_walks (s : State) (i : Instr) (a : Args) : (s.later i a).walks = s.walks := rfl
@[simp] theorem State.later_ctlbs (s : State) (i : Instr) (a : Args) : (s.later i a).ctlbs = s.ctlbs := rfl
@[simp] theorem State.later_records (s : State) (i : Instr) (a : Args) : (s.later i a).records = s.records := rfl
@[simp] theorem State.later_patrols (s : State) (i : Instr) (a : Args) : (s.later i a).patrols = s.patrols := rfl
@[simp] theorem State.later_retire (s : State) (i : Instr) (a : Args) : (s.later i a).retire = s.retire := rfl
@[simp] theorem State.later_slices (s : State) (i : Instr) (a : Args) : (s.later i a).slices = s.slices := rfl
@[simp] theorem State.later_dirs (s : State) (i : Instr) (a : Args) : (s.later i a).dirs = s.dirs := rfl
@[simp] theorem State.later_overs (s : State) (i : Instr) (a : Args) : (s.later i a).overs = s.overs := rfl
@[simp] theorem State.later_spillFills (s : State) (i : Instr) (a : Args) : (s.later i a).spillFills = s.spillFills := rfl
@[simp] theorem State.later_spillInvs (s : State) (i : Instr) (a : Args) : (s.later i a).spillInvs = s.spillInvs := rfl
@[simp] theorem State.later_rdcs (s : State) (i : Instr) (a : Args) : (s.later i a).rdcs = s.rdcs := rfl
@[simp] theorem State.later_l2ctl (s : State) (i : Instr) (a : Args) : (s.later i a).l2ctl = s.l2ctl := rfl
@[simp] theorem State.later_quars (s : State) (i : Instr) (a : Args) : (s.later i a).quars = s.quars := rfl
@[simp] theorem State.later_rdcQuars (s : State) (i : Instr) (a : Args) : (s.later i a).rdcQuars = s.rdcQuars := rfl
@[simp] theorem State.later_wayErrs (s : State) (i : Instr) (a : Args) : (s.later i a).wayErrs = s.wayErrs := rfl
@[simp] theorem State.later_dramErr (s : State) (i : Instr) (a : Args) : (s.later i a).dramErr = s.dramErr := rfl
@[simp] theorem State.later_locErr (s : State) (i : Instr) (a : Args) : (s.later i a).locErr = s.locErr := rfl
@[simp] theorem State.later_held (s : State) (i : Instr) (a : Args) : (s.later i a).held = s.held := rfl
@[simp] theorem State.later_claims (s : State) (i : Instr) (a : Args) : (s.later i a).claims = s.claims := rfl
@[simp] theorem State.later_lrws (s : State) (i : Instr) (a : Args) : (s.later i a).lrws = s.lrws := rfl
@[simp] theorem State.later_rupds (s : State) (i : Instr) (a : Args) : (s.later i a).rupds = s.rupds := rfl
@[simp] theorem State.later_layout (s : State) (i : Instr) (a : Args) : (s.later i a).layout = s.layout := rfl
@[simp] theorem State.later_locked (s : State) (i : Instr) (a : Args) : (s.later i a).locked = s.locked := rfl
@[simp] theorem State.later_scrubs (s : State) (i : Instr) (a : Args) : (s.later i a).scrubs = s.scrubs := rfl
@[simp] theorem State.later_destroying (s : State) (i : Instr) (a : Args) : (s.later i a).destroying = s.destroying := rfl
@[simp] theorem State.later_regions (s : State) (i : Instr) (a : Args) : (s.later i a).regions = s.regions := rfl
@[simp] theorem State.later_nextRegion (s : State) (i : Instr) (a : Args) : (s.later i a).nextRegion = s.nextRegion := rfl
@[simp] theorem State.later_ancestry (s : State) (i : Instr) (a : Args) : (s.later i a).ancestry = s.ancestry := rfl
@[simp] theorem State.later_launches (s : State) (i : Instr) (a : Args) : (s.later i a).launches = s.launches := rfl
@[simp] theorem State.later_translator (s : State) (i : Instr) (a : Args) : (s.later i a).translator = s.translator := rfl
@[simp] theorem State.later_admitting (s : State) (i : Instr) (a : Args) : (s.later i a).admitting = s.admitting := rfl
@[simp] theorem State.later_cacheSpoilt (s : State) (i : Instr) (a : Args) : (s.later i a).cacheSpoilt = s.cacheSpoilt := rfl
@[simp] theorem State.later_dispatchers (s : State) (i : Instr) (a : Args) : (s.later i a).dispatchers = s.dispatchers := rfl
@[simp] theorem State.later_weirs (s : State) (i : Instr) (a : Args) : (s.later i a).weirs = s.weirs := rfl
@[simp] theorem State.later_gangs (s : State) (i : Instr) (a : Args) : (s.later i a).gangs = s.gangs := rfl
@[simp] theorem State.later_flights (s : State) (i : Instr) (a : Args) : (s.later i a).flights = s.flights := rfl
@[simp] theorem State.later_occupancy (s : State) (i : Instr) (a : Args) : (s.later i a).occupancy = s.occupancy := rfl
@[simp] theorem State.later_sampled (s : State) (i : Instr) (a : Args) : (s.later i a).sampled = s.sampled := rfl
@[simp] theorem State.later_pools (s : State) (i : Instr) (a : Args) : (s.later i a).pools = s.pools := rfl
@[simp] theorem State.later_subs (s : State) (i : Instr) (a : Args) : (s.later i a).subs = s.subs := rfl
@[simp] theorem State.later_lost (s : State) (i : Instr) (a : Args) : (s.later i a).lost = s.lost := rfl
@[simp] theorem State.later_rotations (s : State) (i : Instr) (a : Args) : (s.later i a).rotations = s.rotations := rfl
@[simp] theorem State.later_saves (s : State) (i : Instr) (a : Args) : (s.later i a).saves = s.saves := rfl
@[simp] theorem State.later_owner (s : State) (i : Instr) (a : Args) : (s.later i a).owner = s.owner := rfl
@[simp] theorem State.later_ready (s : State) (i : Instr) (a : Args) : (s.later i a).ready = s.ready := rfl
@[simp] theorem State.later_mboxStamp (s : State) (i : Instr) (a : Args) : (s.later i a).mboxStamp = s.mboxStamp := rfl
@[simp] theorem State.later_mboxStatus (s : State) (i : Instr) (a : Args) : (s.later i a).mboxStatus = s.mboxStatus := rfl
@[simp] theorem State.later_mboxBusy (s : State) (i : Instr) (a : Args) : (s.later i a).mboxBusy = s.mboxBusy := rfl
@[simp] theorem State.later_mboxWait (s : State) (i : Instr) (a : Args) : (s.later i a).mboxWait = s.mboxWait := rfl
@[simp] theorem State.later_fns (s : State) (i : Instr) (a : Args) : (s.later i a).fns = s.fns := rfl
@[simp] theorem State.later_attached (s : State) (i : Instr) (a : Args) : (s.later i a).attached = s.attached := rfl
@[simp] theorem State.later_monitors (s : State) (i : Instr) (a : Args) : (s.later i a).monitors = s.monitors := rfl
@[simp] theorem State.later_measures (s : State) (i : Instr) (a : Args) : (s.later i a).measures = s.measures := rfl
@[simp] theorem State.later_channels (s : State) (i : Instr) (a : Args) : (s.later i a).channels = s.channels := rfl
@[simp] theorem State.later_spdmStage (s : State) (i : Instr) (a : Args) : (s.later i a).spdmStage = s.spdmStage := rfl
@[simp] theorem State.later_spdmTrans (s : State) (i : Instr) (a : Args) : (s.later i a).spdmTrans = s.spdmTrans := rfl
@[simp] theorem State.later_gated (s : State) (i : Instr) (a : Args) : (s.later i a).gated = s.gated := rfl
@[simp] theorem State.later_stamped (s : State) (i : Instr) (a : Args) : (s.later i a).stamped = s.stamped := rfl
@[simp] theorem State.later_throttled (s : State) (i : Instr) (a : Args) : (s.later i a).throttled = s.throttled := rfl
@[simp] theorem State.later_out (s : State) (i : Instr) (a : Args) : (s.later i a).out = s.out := rfl
@[simp] theorem State.emit_tc (s : State) (e : OutEvent) : (s.emit e).tc = s.tc := rfl
@[simp] theorem State.emit_seq (s : State) (e : OutEvent) : (s.emit e).seq = s.seq := rfl
@[simp] theorem State.emit_hold (s : State) (e : OutEvent) : (s.emit e).hold = s.hold := rfl
@[simp] theorem State.emit_cursor (s : State) (e : OutEvent) : (s.emit e).cursor = s.cursor := rfl
@[simp] theorem State.emit_cur (s : State) (e : OutEvent) : (s.emit e).cur = s.cur := rfl
@[simp] theorem State.emit_pipe (s : State) (e : OutEvent) : (s.emit e).pipe = s.pipe := rfl
@[simp] theorem State.emit_arg (s : State) (e : OutEvent) : (s.emit e).arg = s.arg := rfl
@[simp] theorem State.emit_stall (s : State) (e : OutEvent) : (s.emit e).stall = s.stall := rfl
@[simp] theorem State.emit_urgent (s : State) (e : OutEvent) : (s.emit e).urgent = s.urgent := rfl
@[simp] theorem State.emit_agenda (s : State) (e : OutEvent) : (s.emit e).agenda = s.agenda := rfl
@[simp] theorem State.emit_cores (s : State) (e : OutEvent) : (s.emit e).cores = s.cores := rfl
@[simp] theorem State.emit_hbm (s : State) (e : OutEvent) : (s.emit e).hbm = s.hbm := rfl
@[simp] theorem State.emit_lines (s : State) (e : OutEvent) : (s.emit e).lines = s.lines := rfl
@[simp] theorem State.emit_spares (s : State) (e : OutEvent) : (s.emit e).spares = s.spares := rfl
@[simp] theorem State.emit_keys (s : State) (e : OutEvent) : (s.emit e).keys = s.keys := rfl
@[simp] theorem State.emit_worldTable (s : State) (e : OutEvent) : (s.emit e).worldTable = s.worldTable := rfl
@[simp] theorem State.emit_pinned (s : State) (e : OutEvent) : (s.emit e).pinned = s.pinned := rfl
@[simp] theorem State.emit_walks (s : State) (e : OutEvent) : (s.emit e).walks = s.walks := rfl
@[simp] theorem State.emit_ctlbs (s : State) (e : OutEvent) : (s.emit e).ctlbs = s.ctlbs := rfl
@[simp] theorem State.emit_records (s : State) (e : OutEvent) : (s.emit e).records = s.records := rfl
@[simp] theorem State.emit_patrols (s : State) (e : OutEvent) : (s.emit e).patrols = s.patrols := rfl
@[simp] theorem State.emit_retire (s : State) (e : OutEvent) : (s.emit e).retire = s.retire := rfl
@[simp] theorem State.emit_slices (s : State) (e : OutEvent) : (s.emit e).slices = s.slices := rfl
@[simp] theorem State.emit_dirs (s : State) (e : OutEvent) : (s.emit e).dirs = s.dirs := rfl
@[simp] theorem State.emit_overs (s : State) (e : OutEvent) : (s.emit e).overs = s.overs := rfl
@[simp] theorem State.emit_spillFills (s : State) (e : OutEvent) : (s.emit e).spillFills = s.spillFills := rfl
@[simp] theorem State.emit_spillInvs (s : State) (e : OutEvent) : (s.emit e).spillInvs = s.spillInvs := rfl
@[simp] theorem State.emit_rdcs (s : State) (e : OutEvent) : (s.emit e).rdcs = s.rdcs := rfl
@[simp] theorem State.emit_l2ctl (s : State) (e : OutEvent) : (s.emit e).l2ctl = s.l2ctl := rfl
@[simp] theorem State.emit_quars (s : State) (e : OutEvent) : (s.emit e).quars = s.quars := rfl
@[simp] theorem State.emit_rdcQuars (s : State) (e : OutEvent) : (s.emit e).rdcQuars = s.rdcQuars := rfl
@[simp] theorem State.emit_wayErrs (s : State) (e : OutEvent) : (s.emit e).wayErrs = s.wayErrs := rfl
@[simp] theorem State.emit_dramErr (s : State) (e : OutEvent) : (s.emit e).dramErr = s.dramErr := rfl
@[simp] theorem State.emit_locErr (s : State) (e : OutEvent) : (s.emit e).locErr = s.locErr := rfl
@[simp] theorem State.emit_held (s : State) (e : OutEvent) : (s.emit e).held = s.held := rfl
@[simp] theorem State.emit_claims (s : State) (e : OutEvent) : (s.emit e).claims = s.claims := rfl
@[simp] theorem State.emit_lrws (s : State) (e : OutEvent) : (s.emit e).lrws = s.lrws := rfl
@[simp] theorem State.emit_rupds (s : State) (e : OutEvent) : (s.emit e).rupds = s.rupds := rfl
@[simp] theorem State.emit_layout (s : State) (e : OutEvent) : (s.emit e).layout = s.layout := rfl
@[simp] theorem State.emit_locked (s : State) (e : OutEvent) : (s.emit e).locked = s.locked := rfl
@[simp] theorem State.emit_scrubs (s : State) (e : OutEvent) : (s.emit e).scrubs = s.scrubs := rfl
@[simp] theorem State.emit_destroying (s : State) (e : OutEvent) : (s.emit e).destroying = s.destroying := rfl
@[simp] theorem State.emit_regions (s : State) (e : OutEvent) : (s.emit e).regions = s.regions := rfl
@[simp] theorem State.emit_nextRegion (s : State) (e : OutEvent) : (s.emit e).nextRegion = s.nextRegion := rfl
@[simp] theorem State.emit_ancestry (s : State) (e : OutEvent) : (s.emit e).ancestry = s.ancestry := rfl
@[simp] theorem State.emit_launches (s : State) (e : OutEvent) : (s.emit e).launches = s.launches := rfl
@[simp] theorem State.emit_translator (s : State) (e : OutEvent) : (s.emit e).translator = s.translator := rfl
@[simp] theorem State.emit_admitting (s : State) (e : OutEvent) : (s.emit e).admitting = s.admitting := rfl
@[simp] theorem State.emit_cacheSpoilt (s : State) (e : OutEvent) : (s.emit e).cacheSpoilt = s.cacheSpoilt := rfl
@[simp] theorem State.emit_dispatchers (s : State) (e : OutEvent) : (s.emit e).dispatchers = s.dispatchers := rfl
@[simp] theorem State.emit_weirs (s : State) (e : OutEvent) : (s.emit e).weirs = s.weirs := rfl
@[simp] theorem State.emit_gangs (s : State) (e : OutEvent) : (s.emit e).gangs = s.gangs := rfl
@[simp] theorem State.emit_flights (s : State) (e : OutEvent) : (s.emit e).flights = s.flights := rfl
@[simp] theorem State.emit_occupancy (s : State) (e : OutEvent) : (s.emit e).occupancy = s.occupancy := rfl
@[simp] theorem State.emit_sampled (s : State) (e : OutEvent) : (s.emit e).sampled = s.sampled := rfl
@[simp] theorem State.emit_pools (s : State) (e : OutEvent) : (s.emit e).pools = s.pools := rfl
@[simp] theorem State.emit_subs (s : State) (e : OutEvent) : (s.emit e).subs = s.subs := rfl
@[simp] theorem State.emit_lost (s : State) (e : OutEvent) : (s.emit e).lost = s.lost := rfl
@[simp] theorem State.emit_rotations (s : State) (e : OutEvent) : (s.emit e).rotations = s.rotations := rfl
@[simp] theorem State.emit_saves (s : State) (e : OutEvent) : (s.emit e).saves = s.saves := rfl
@[simp] theorem State.emit_owner (s : State) (e : OutEvent) : (s.emit e).owner = s.owner := rfl
@[simp] theorem State.emit_ready (s : State) (e : OutEvent) : (s.emit e).ready = s.ready := rfl
@[simp] theorem State.emit_mboxStamp (s : State) (e : OutEvent) : (s.emit e).mboxStamp = s.mboxStamp := rfl
@[simp] theorem State.emit_mboxStatus (s : State) (e : OutEvent) : (s.emit e).mboxStatus = s.mboxStatus := rfl
@[simp] theorem State.emit_mboxBusy (s : State) (e : OutEvent) : (s.emit e).mboxBusy = s.mboxBusy := rfl
@[simp] theorem State.emit_mboxWait (s : State) (e : OutEvent) : (s.emit e).mboxWait = s.mboxWait := rfl
@[simp] theorem State.emit_fns (s : State) (e : OutEvent) : (s.emit e).fns = s.fns := rfl
@[simp] theorem State.emit_attached (s : State) (e : OutEvent) : (s.emit e).attached = s.attached := rfl
@[simp] theorem State.emit_monitors (s : State) (e : OutEvent) : (s.emit e).monitors = s.monitors := rfl
@[simp] theorem State.emit_measures (s : State) (e : OutEvent) : (s.emit e).measures = s.measures := rfl
@[simp] theorem State.emit_channels (s : State) (e : OutEvent) : (s.emit e).channels = s.channels := rfl
@[simp] theorem State.emit_spdmStage (s : State) (e : OutEvent) : (s.emit e).spdmStage = s.spdmStage := rfl
@[simp] theorem State.emit_spdmTrans (s : State) (e : OutEvent) : (s.emit e).spdmTrans = s.spdmTrans := rfl
@[simp] theorem State.emit_gated (s : State) (e : OutEvent) : (s.emit e).gated = s.gated := rfl
@[simp] theorem State.emit_stamped (s : State) (e : OutEvent) : (s.emit e).stamped = s.stamped := rfl
@[simp] theorem State.emit_throttled (s : State) (e : OutEvent) : (s.emit e).throttled = s.throttled := rfl
@[simp] theorem State.later_agenda (s : State) (i : Instr) (a : Args) : (s.later i a).agenda = s.agenda ++ [{ what := i, arg := a }] := rfl
@[simp] theorem State.emit_out (s : State) (e : OutEvent) : (s.emit e).out = s.out ++ [e] := rfl

/-! ### State.laterOnce -/

@[simp] theorem State.laterOnce_tc (s : State) (i : Instr) (a : Args) : (s.laterOnce i a).tc = s.tc := by unfold State.laterOnce; split <;> rfl
@[simp] theorem State.laterOnce_seq (s : State) (i : Instr) (a : Args) : (s.laterOnce i a).seq = s.seq := by unfold State.laterOnce; split <;> rfl
@[simp] theorem State.laterOnce_hold (s : State) (i : Instr) (a : Args) : (s.laterOnce i a).hold = s.hold := by unfold State.laterOnce; split <;> rfl
@[simp] theorem State.laterOnce_cursor (s : State) (i : Instr) (a : Args) : (s.laterOnce i a).cursor = s.cursor := by unfold State.laterOnce; split <;> rfl
@[simp] theorem State.laterOnce_cur (s : State) (i : Instr) (a : Args) : (s.laterOnce i a).cur = s.cur := by unfold State.laterOnce; split <;> rfl
@[simp] theorem State.laterOnce_pipe (s : State) (i : Instr) (a : Args) : (s.laterOnce i a).pipe = s.pipe := by unfold State.laterOnce; split <;> rfl
@[simp] theorem State.laterOnce_arg (s : State) (i : Instr) (a : Args) : (s.laterOnce i a).arg = s.arg := by unfold State.laterOnce; split <;> rfl
@[simp] theorem State.laterOnce_stall (s : State) (i : Instr) (a : Args) : (s.laterOnce i a).stall = s.stall := by unfold State.laterOnce; split <;> rfl
@[simp] theorem State.laterOnce_urgent (s : State) (i : Instr) (a : Args) : (s.laterOnce i a).urgent = s.urgent := by unfold State.laterOnce; split <;> rfl
@[simp] theorem State.laterOnce_cores (s : State) (i : Instr) (a : Args) : (s.laterOnce i a).cores = s.cores := by unfold State.laterOnce; split <;> rfl
@[simp] theorem State.laterOnce_hbm (s : State) (i : Instr) (a : Args) : (s.laterOnce i a).hbm = s.hbm := by unfold State.laterOnce; split <;> rfl
@[simp] theorem State.laterOnce_lines (s : State) (i : Instr) (a : Args) : (s.laterOnce i a).lines = s.lines := by unfold State.laterOnce; split <;> rfl
@[simp] theorem State.laterOnce_spares (s : State) (i : Instr) (a : Args) : (s.laterOnce i a).spares = s.spares := by unfold State.laterOnce; split <;> rfl
@[simp] theorem State.laterOnce_keys (s : State) (i : Instr) (a : Args) : (s.laterOnce i a).keys = s.keys := by unfold State.laterOnce; split <;> rfl
@[simp] theorem State.laterOnce_worldTable (s : State) (i : Instr) (a : Args) : (s.laterOnce i a).worldTable = s.worldTable := by unfold State.laterOnce; split <;> rfl
@[simp] theorem State.laterOnce_pinned (s : State) (i : Instr) (a : Args) : (s.laterOnce i a).pinned = s.pinned := by unfold State.laterOnce; split <;> rfl
@[simp] theorem State.laterOnce_walks (s : State) (i : Instr) (a : Args) : (s.laterOnce i a).walks = s.walks := by unfold State.laterOnce; split <;> rfl
@[simp] theorem State.laterOnce_ctlbs (s : State) (i : Instr) (a : Args) : (s.laterOnce i a).ctlbs = s.ctlbs := by unfold State.laterOnce; split <;> rfl
@[simp] theorem State.laterOnce_records (s : State) (i : Instr) (a : Args) : (s.laterOnce i a).records = s.records := by unfold State.laterOnce; split <;> rfl
@[simp] theorem State.laterOnce_patrols (s : State) (i : Instr) (a : Args) : (s.laterOnce i a).patrols = s.patrols := by unfold State.laterOnce; split <;> rfl
@[simp] theorem State.laterOnce_retire (s : State) (i : Instr) (a : Args) : (s.laterOnce i a).retire = s.retire := by unfold State.laterOnce; split <;> rfl
@[simp] theorem State.laterOnce_slices (s : State) (i : Instr) (a : Args) : (s.laterOnce i a).slices = s.slices := by unfold State.laterOnce; split <;> rfl
@[simp] theorem State.laterOnce_dirs (s : State) (i : Instr) (a : Args) : (s.laterOnce i a).dirs = s.dirs := by unfold State.laterOnce; split <;> rfl
@[simp] theorem State.laterOnce_overs (s : State) (i : Instr) (a : Args) : (s.laterOnce i a).overs = s.overs := by unfold State.laterOnce; split <;> rfl
@[simp] theorem State.laterOnce_spillFills (s : State) (i : Instr) (a : Args) : (s.laterOnce i a).spillFills = s.spillFills := by unfold State.laterOnce; split <;> rfl
@[simp] theorem State.laterOnce_spillInvs (s : State) (i : Instr) (a : Args) : (s.laterOnce i a).spillInvs = s.spillInvs := by unfold State.laterOnce; split <;> rfl
@[simp] theorem State.laterOnce_rdcs (s : State) (i : Instr) (a : Args) : (s.laterOnce i a).rdcs = s.rdcs := by unfold State.laterOnce; split <;> rfl
@[simp] theorem State.laterOnce_l2ctl (s : State) (i : Instr) (a : Args) : (s.laterOnce i a).l2ctl = s.l2ctl := by unfold State.laterOnce; split <;> rfl
@[simp] theorem State.laterOnce_quars (s : State) (i : Instr) (a : Args) : (s.laterOnce i a).quars = s.quars := by unfold State.laterOnce; split <;> rfl
@[simp] theorem State.laterOnce_rdcQuars (s : State) (i : Instr) (a : Args) : (s.laterOnce i a).rdcQuars = s.rdcQuars := by unfold State.laterOnce; split <;> rfl
@[simp] theorem State.laterOnce_wayErrs (s : State) (i : Instr) (a : Args) : (s.laterOnce i a).wayErrs = s.wayErrs := by unfold State.laterOnce; split <;> rfl
@[simp] theorem State.laterOnce_dramErr (s : State) (i : Instr) (a : Args) : (s.laterOnce i a).dramErr = s.dramErr := by unfold State.laterOnce; split <;> rfl
@[simp] theorem State.laterOnce_locErr (s : State) (i : Instr) (a : Args) : (s.laterOnce i a).locErr = s.locErr := by unfold State.laterOnce; split <;> rfl
@[simp] theorem State.laterOnce_held (s : State) (i : Instr) (a : Args) : (s.laterOnce i a).held = s.held := by unfold State.laterOnce; split <;> rfl
@[simp] theorem State.laterOnce_claims (s : State) (i : Instr) (a : Args) : (s.laterOnce i a).claims = s.claims := by unfold State.laterOnce; split <;> rfl
@[simp] theorem State.laterOnce_lrws (s : State) (i : Instr) (a : Args) : (s.laterOnce i a).lrws = s.lrws := by unfold State.laterOnce; split <;> rfl
@[simp] theorem State.laterOnce_rupds (s : State) (i : Instr) (a : Args) : (s.laterOnce i a).rupds = s.rupds := by unfold State.laterOnce; split <;> rfl
@[simp] theorem State.laterOnce_layout (s : State) (i : Instr) (a : Args) : (s.laterOnce i a).layout = s.layout := by unfold State.laterOnce; split <;> rfl
@[simp] theorem State.laterOnce_locked (s : State) (i : Instr) (a : Args) : (s.laterOnce i a).locked = s.locked := by unfold State.laterOnce; split <;> rfl
@[simp] theorem State.laterOnce_scrubs (s : State) (i : Instr) (a : Args) : (s.laterOnce i a).scrubs = s.scrubs := by unfold State.laterOnce; split <;> rfl
@[simp] theorem State.laterOnce_destroying (s : State) (i : Instr) (a : Args) : (s.laterOnce i a).destroying = s.destroying := by unfold State.laterOnce; split <;> rfl
@[simp] theorem State.laterOnce_regions (s : State) (i : Instr) (a : Args) : (s.laterOnce i a).regions = s.regions := by unfold State.laterOnce; split <;> rfl
@[simp] theorem State.laterOnce_nextRegion (s : State) (i : Instr) (a : Args) : (s.laterOnce i a).nextRegion = s.nextRegion := by unfold State.laterOnce; split <;> rfl
@[simp] theorem State.laterOnce_ancestry (s : State) (i : Instr) (a : Args) : (s.laterOnce i a).ancestry = s.ancestry := by unfold State.laterOnce; split <;> rfl
@[simp] theorem State.laterOnce_launches (s : State) (i : Instr) (a : Args) : (s.laterOnce i a).launches = s.launches := by unfold State.laterOnce; split <;> rfl
@[simp] theorem State.laterOnce_translator (s : State) (i : Instr) (a : Args) : (s.laterOnce i a).translator = s.translator := by unfold State.laterOnce; split <;> rfl
@[simp] theorem State.laterOnce_admitting (s : State) (i : Instr) (a : Args) : (s.laterOnce i a).admitting = s.admitting := by unfold State.laterOnce; split <;> rfl
@[simp] theorem State.laterOnce_cacheSpoilt (s : State) (i : Instr) (a : Args) : (s.laterOnce i a).cacheSpoilt = s.cacheSpoilt := by unfold State.laterOnce; split <;> rfl
@[simp] theorem State.laterOnce_dispatchers (s : State) (i : Instr) (a : Args) : (s.laterOnce i a).dispatchers = s.dispatchers := by unfold State.laterOnce; split <;> rfl
@[simp] theorem State.laterOnce_weirs (s : State) (i : Instr) (a : Args) : (s.laterOnce i a).weirs = s.weirs := by unfold State.laterOnce; split <;> rfl
@[simp] theorem State.laterOnce_gangs (s : State) (i : Instr) (a : Args) : (s.laterOnce i a).gangs = s.gangs := by unfold State.laterOnce; split <;> rfl
@[simp] theorem State.laterOnce_flights (s : State) (i : Instr) (a : Args) : (s.laterOnce i a).flights = s.flights := by unfold State.laterOnce; split <;> rfl
@[simp] theorem State.laterOnce_occupancy (s : State) (i : Instr) (a : Args) : (s.laterOnce i a).occupancy = s.occupancy := by unfold State.laterOnce; split <;> rfl
@[simp] theorem State.laterOnce_sampled (s : State) (i : Instr) (a : Args) : (s.laterOnce i a).sampled = s.sampled := by unfold State.laterOnce; split <;> rfl
@[simp] theorem State.laterOnce_pools (s : State) (i : Instr) (a : Args) : (s.laterOnce i a).pools = s.pools := by unfold State.laterOnce; split <;> rfl
@[simp] theorem State.laterOnce_subs (s : State) (i : Instr) (a : Args) : (s.laterOnce i a).subs = s.subs := by unfold State.laterOnce; split <;> rfl
@[simp] theorem State.laterOnce_lost (s : State) (i : Instr) (a : Args) : (s.laterOnce i a).lost = s.lost := by unfold State.laterOnce; split <;> rfl
@[simp] theorem State.laterOnce_rotations (s : State) (i : Instr) (a : Args) : (s.laterOnce i a).rotations = s.rotations := by unfold State.laterOnce; split <;> rfl
@[simp] theorem State.laterOnce_saves (s : State) (i : Instr) (a : Args) : (s.laterOnce i a).saves = s.saves := by unfold State.laterOnce; split <;> rfl
@[simp] theorem State.laterOnce_owner (s : State) (i : Instr) (a : Args) : (s.laterOnce i a).owner = s.owner := by unfold State.laterOnce; split <;> rfl
@[simp] theorem State.laterOnce_ready (s : State) (i : Instr) (a : Args) : (s.laterOnce i a).ready = s.ready := by unfold State.laterOnce; split <;> rfl
@[simp] theorem State.laterOnce_mboxStamp (s : State) (i : Instr) (a : Args) : (s.laterOnce i a).mboxStamp = s.mboxStamp := by unfold State.laterOnce; split <;> rfl
@[simp] theorem State.laterOnce_mboxStatus (s : State) (i : Instr) (a : Args) : (s.laterOnce i a).mboxStatus = s.mboxStatus := by unfold State.laterOnce; split <;> rfl
@[simp] theorem State.laterOnce_mboxBusy (s : State) (i : Instr) (a : Args) : (s.laterOnce i a).mboxBusy = s.mboxBusy := by unfold State.laterOnce; split <;> rfl
@[simp] theorem State.laterOnce_mboxWait (s : State) (i : Instr) (a : Args) : (s.laterOnce i a).mboxWait = s.mboxWait := by unfold State.laterOnce; split <;> rfl
@[simp] theorem State.laterOnce_fns (s : State) (i : Instr) (a : Args) : (s.laterOnce i a).fns = s.fns := by unfold State.laterOnce; split <;> rfl
@[simp] theorem State.laterOnce_attached (s : State) (i : Instr) (a : Args) : (s.laterOnce i a).attached = s.attached := by unfold State.laterOnce; split <;> rfl
@[simp] theorem State.laterOnce_monitors (s : State) (i : Instr) (a : Args) : (s.laterOnce i a).monitors = s.monitors := by unfold State.laterOnce; split <;> rfl
@[simp] theorem State.laterOnce_measures (s : State) (i : Instr) (a : Args) : (s.laterOnce i a).measures = s.measures := by unfold State.laterOnce; split <;> rfl
@[simp] theorem State.laterOnce_channels (s : State) (i : Instr) (a : Args) : (s.laterOnce i a).channels = s.channels := by unfold State.laterOnce; split <;> rfl
@[simp] theorem State.laterOnce_spdmStage (s : State) (i : Instr) (a : Args) : (s.laterOnce i a).spdmStage = s.spdmStage := by unfold State.laterOnce; split <;> rfl
@[simp] theorem State.laterOnce_spdmTrans (s : State) (i : Instr) (a : Args) : (s.laterOnce i a).spdmTrans = s.spdmTrans := by unfold State.laterOnce; split <;> rfl
@[simp] theorem State.laterOnce_gated (s : State) (i : Instr) (a : Args) : (s.laterOnce i a).gated = s.gated := by unfold State.laterOnce; split <;> rfl
@[simp] theorem State.laterOnce_stamped (s : State) (i : Instr) (a : Args) : (s.laterOnce i a).stamped = s.stamped := by unfold State.laterOnce; split <;> rfl
@[simp] theorem State.laterOnce_throttled (s : State) (i : Instr) (a : Args) : (s.laterOnce i a).throttled = s.throttled := by unfold State.laterOnce; split <;> rfl
@[simp] theorem State.laterOnce_out (s : State) (i : Instr) (a : Args) : (s.laterOnce i a).out = s.out := by unfold State.laterOnce; split <;> rfl

/-! ### State.modThread -/

@[simp] theorem State.modThread_tc (s : State) (r : SlotRef) (f : Thread → Thread) : (s.modThread r f).tc = s.tc := by unfold State.modThread; split <;> rfl
@[simp] theorem State.modThread_seq (s : State) (r : SlotRef) (f : Thread → Thread) : (s.modThread r f).seq = s.seq := by unfold State.modThread; split <;> rfl
@[simp] theorem State.modThread_hold (s : State) (r : SlotRef) (f : Thread → Thread) : (s.modThread r f).hold = s.hold := by unfold State.modThread; split <;> rfl
@[simp] theorem State.modThread_cursor (s : State) (r : SlotRef) (f : Thread → Thread) : (s.modThread r f).cursor = s.cursor := by unfold State.modThread; split <;> rfl
@[simp] theorem State.modThread_cur (s : State) (r : SlotRef) (f : Thread → Thread) : (s.modThread r f).cur = s.cur := by unfold State.modThread; split <;> rfl
@[simp] theorem State.modThread_pipe (s : State) (r : SlotRef) (f : Thread → Thread) : (s.modThread r f).pipe = s.pipe := by unfold State.modThread; split <;> rfl
@[simp] theorem State.modThread_arg (s : State) (r : SlotRef) (f : Thread → Thread) : (s.modThread r f).arg = s.arg := by unfold State.modThread; split <;> rfl
@[simp] theorem State.modThread_stall (s : State) (r : SlotRef) (f : Thread → Thread) : (s.modThread r f).stall = s.stall := by unfold State.modThread; split <;> rfl
@[simp] theorem State.modThread_urgent (s : State) (r : SlotRef) (f : Thread → Thread) : (s.modThread r f).urgent = s.urgent := by unfold State.modThread; split <;> rfl
@[simp] theorem State.modThread_agenda (s : State) (r : SlotRef) (f : Thread → Thread) : (s.modThread r f).agenda = s.agenda := by unfold State.modThread; split <;> rfl
@[simp] theorem State.modThread_hbm (s : State) (r : SlotRef) (f : Thread → Thread) : (s.modThread r f).hbm = s.hbm := by unfold State.modThread; split <;> rfl
@[simp] theorem State.modThread_lines (s : State) (r : SlotRef) (f : Thread → Thread) : (s.modThread r f).lines = s.lines := by unfold State.modThread; split <;> rfl
@[simp] theorem State.modThread_spares (s : State) (r : SlotRef) (f : Thread → Thread) : (s.modThread r f).spares = s.spares := by unfold State.modThread; split <;> rfl
@[simp] theorem State.modThread_keys (s : State) (r : SlotRef) (f : Thread → Thread) : (s.modThread r f).keys = s.keys := by unfold State.modThread; split <;> rfl
@[simp] theorem State.modThread_worldTable (s : State) (r : SlotRef) (f : Thread → Thread) : (s.modThread r f).worldTable = s.worldTable := by unfold State.modThread; split <;> rfl
@[simp] theorem State.modThread_pinned (s : State) (r : SlotRef) (f : Thread → Thread) : (s.modThread r f).pinned = s.pinned := by unfold State.modThread; split <;> rfl
@[simp] theorem State.modThread_walks (s : State) (r : SlotRef) (f : Thread → Thread) : (s.modThread r f).walks = s.walks := by unfold State.modThread; split <;> rfl
@[simp] theorem State.modThread_ctlbs (s : State) (r : SlotRef) (f : Thread → Thread) : (s.modThread r f).ctlbs = s.ctlbs := by unfold State.modThread; split <;> rfl
@[simp] theorem State.modThread_records (s : State) (r : SlotRef) (f : Thread → Thread) : (s.modThread r f).records = s.records := by unfold State.modThread; split <;> rfl
@[simp] theorem State.modThread_patrols (s : State) (r : SlotRef) (f : Thread → Thread) : (s.modThread r f).patrols = s.patrols := by unfold State.modThread; split <;> rfl
@[simp] theorem State.modThread_retire (s : State) (r : SlotRef) (f : Thread → Thread) : (s.modThread r f).retire = s.retire := by unfold State.modThread; split <;> rfl
@[simp] theorem State.modThread_slices (s : State) (r : SlotRef) (f : Thread → Thread) : (s.modThread r f).slices = s.slices := by unfold State.modThread; split <;> rfl
@[simp] theorem State.modThread_dirs (s : State) (r : SlotRef) (f : Thread → Thread) : (s.modThread r f).dirs = s.dirs := by unfold State.modThread; split <;> rfl
@[simp] theorem State.modThread_overs (s : State) (r : SlotRef) (f : Thread → Thread) : (s.modThread r f).overs = s.overs := by unfold State.modThread; split <;> rfl
@[simp] theorem State.modThread_spillFills (s : State) (r : SlotRef) (f : Thread → Thread) : (s.modThread r f).spillFills = s.spillFills := by unfold State.modThread; split <;> rfl
@[simp] theorem State.modThread_spillInvs (s : State) (r : SlotRef) (f : Thread → Thread) : (s.modThread r f).spillInvs = s.spillInvs := by unfold State.modThread; split <;> rfl
@[simp] theorem State.modThread_rdcs (s : State) (r : SlotRef) (f : Thread → Thread) : (s.modThread r f).rdcs = s.rdcs := by unfold State.modThread; split <;> rfl
@[simp] theorem State.modThread_l2ctl (s : State) (r : SlotRef) (f : Thread → Thread) : (s.modThread r f).l2ctl = s.l2ctl := by unfold State.modThread; split <;> rfl
@[simp] theorem State.modThread_quars (s : State) (r : SlotRef) (f : Thread → Thread) : (s.modThread r f).quars = s.quars := by unfold State.modThread; split <;> rfl
@[simp] theorem State.modThread_rdcQuars (s : State) (r : SlotRef) (f : Thread → Thread) : (s.modThread r f).rdcQuars = s.rdcQuars := by unfold State.modThread; split <;> rfl
@[simp] theorem State.modThread_wayErrs (s : State) (r : SlotRef) (f : Thread → Thread) : (s.modThread r f).wayErrs = s.wayErrs := by unfold State.modThread; split <;> rfl
@[simp] theorem State.modThread_dramErr (s : State) (r : SlotRef) (f : Thread → Thread) : (s.modThread r f).dramErr = s.dramErr := by unfold State.modThread; split <;> rfl
@[simp] theorem State.modThread_locErr (s : State) (r : SlotRef) (f : Thread → Thread) : (s.modThread r f).locErr = s.locErr := by unfold State.modThread; split <;> rfl
@[simp] theorem State.modThread_held (s : State) (r : SlotRef) (f : Thread → Thread) : (s.modThread r f).held = s.held := by unfold State.modThread; split <;> rfl
@[simp] theorem State.modThread_claims (s : State) (r : SlotRef) (f : Thread → Thread) : (s.modThread r f).claims = s.claims := by unfold State.modThread; split <;> rfl
@[simp] theorem State.modThread_lrws (s : State) (r : SlotRef) (f : Thread → Thread) : (s.modThread r f).lrws = s.lrws := by unfold State.modThread; split <;> rfl
@[simp] theorem State.modThread_rupds (s : State) (r : SlotRef) (f : Thread → Thread) : (s.modThread r f).rupds = s.rupds := by unfold State.modThread; split <;> rfl
@[simp] theorem State.modThread_layout (s : State) (r : SlotRef) (f : Thread → Thread) : (s.modThread r f).layout = s.layout := by unfold State.modThread; split <;> rfl
@[simp] theorem State.modThread_locked (s : State) (r : SlotRef) (f : Thread → Thread) : (s.modThread r f).locked = s.locked := by unfold State.modThread; split <;> rfl
@[simp] theorem State.modThread_scrubs (s : State) (r : SlotRef) (f : Thread → Thread) : (s.modThread r f).scrubs = s.scrubs := by unfold State.modThread; split <;> rfl
@[simp] theorem State.modThread_destroying (s : State) (r : SlotRef) (f : Thread → Thread) : (s.modThread r f).destroying = s.destroying := by unfold State.modThread; split <;> rfl
@[simp] theorem State.modThread_regions (s : State) (r : SlotRef) (f : Thread → Thread) : (s.modThread r f).regions = s.regions := by unfold State.modThread; split <;> rfl
@[simp] theorem State.modThread_nextRegion (s : State) (r : SlotRef) (f : Thread → Thread) : (s.modThread r f).nextRegion = s.nextRegion := by unfold State.modThread; split <;> rfl
@[simp] theorem State.modThread_ancestry (s : State) (r : SlotRef) (f : Thread → Thread) : (s.modThread r f).ancestry = s.ancestry := by unfold State.modThread; split <;> rfl
@[simp] theorem State.modThread_launches (s : State) (r : SlotRef) (f : Thread → Thread) : (s.modThread r f).launches = s.launches := by unfold State.modThread; split <;> rfl
@[simp] theorem State.modThread_translator (s : State) (r : SlotRef) (f : Thread → Thread) : (s.modThread r f).translator = s.translator := by unfold State.modThread; split <;> rfl
@[simp] theorem State.modThread_admitting (s : State) (r : SlotRef) (f : Thread → Thread) : (s.modThread r f).admitting = s.admitting := by unfold State.modThread; split <;> rfl
@[simp] theorem State.modThread_cacheSpoilt (s : State) (r : SlotRef) (f : Thread → Thread) : (s.modThread r f).cacheSpoilt = s.cacheSpoilt := by unfold State.modThread; split <;> rfl
@[simp] theorem State.modThread_dispatchers (s : State) (r : SlotRef) (f : Thread → Thread) : (s.modThread r f).dispatchers = s.dispatchers := by unfold State.modThread; split <;> rfl
@[simp] theorem State.modThread_weirs (s : State) (r : SlotRef) (f : Thread → Thread) : (s.modThread r f).weirs = s.weirs := by unfold State.modThread; split <;> rfl
@[simp] theorem State.modThread_gangs (s : State) (r : SlotRef) (f : Thread → Thread) : (s.modThread r f).gangs = s.gangs := by unfold State.modThread; split <;> rfl
@[simp] theorem State.modThread_flights (s : State) (r : SlotRef) (f : Thread → Thread) : (s.modThread r f).flights = s.flights := by unfold State.modThread; split <;> rfl
@[simp] theorem State.modThread_occupancy (s : State) (r : SlotRef) (f : Thread → Thread) : (s.modThread r f).occupancy = s.occupancy := by unfold State.modThread; split <;> rfl
@[simp] theorem State.modThread_sampled (s : State) (r : SlotRef) (f : Thread → Thread) : (s.modThread r f).sampled = s.sampled := by unfold State.modThread; split <;> rfl
@[simp] theorem State.modThread_pools (s : State) (r : SlotRef) (f : Thread → Thread) : (s.modThread r f).pools = s.pools := by unfold State.modThread; split <;> rfl
@[simp] theorem State.modThread_subs (s : State) (r : SlotRef) (f : Thread → Thread) : (s.modThread r f).subs = s.subs := by unfold State.modThread; split <;> rfl
@[simp] theorem State.modThread_lost (s : State) (r : SlotRef) (f : Thread → Thread) : (s.modThread r f).lost = s.lost := by unfold State.modThread; split <;> rfl
@[simp] theorem State.modThread_rotations (s : State) (r : SlotRef) (f : Thread → Thread) : (s.modThread r f).rotations = s.rotations := by unfold State.modThread; split <;> rfl
@[simp] theorem State.modThread_saves (s : State) (r : SlotRef) (f : Thread → Thread) : (s.modThread r f).saves = s.saves := by unfold State.modThread; split <;> rfl
@[simp] theorem State.modThread_owner (s : State) (r : SlotRef) (f : Thread → Thread) : (s.modThread r f).owner = s.owner := by unfold State.modThread; split <;> rfl
@[simp] theorem State.modThread_ready (s : State) (r : SlotRef) (f : Thread → Thread) : (s.modThread r f).ready = s.ready := by unfold State.modThread; split <;> rfl
@[simp] theorem State.modThread_mboxStamp (s : State) (r : SlotRef) (f : Thread → Thread) : (s.modThread r f).mboxStamp = s.mboxStamp := by unfold State.modThread; split <;> rfl
@[simp] theorem State.modThread_mboxStatus (s : State) (r : SlotRef) (f : Thread → Thread) : (s.modThread r f).mboxStatus = s.mboxStatus := by unfold State.modThread; split <;> rfl
@[simp] theorem State.modThread_mboxBusy (s : State) (r : SlotRef) (f : Thread → Thread) : (s.modThread r f).mboxBusy = s.mboxBusy := by unfold State.modThread; split <;> rfl
@[simp] theorem State.modThread_mboxWait (s : State) (r : SlotRef) (f : Thread → Thread) : (s.modThread r f).mboxWait = s.mboxWait := by unfold State.modThread; split <;> rfl
@[simp] theorem State.modThread_fns (s : State) (r : SlotRef) (f : Thread → Thread) : (s.modThread r f).fns = s.fns := by unfold State.modThread; split <;> rfl
@[simp] theorem State.modThread_attached (s : State) (r : SlotRef) (f : Thread → Thread) : (s.modThread r f).attached = s.attached := by unfold State.modThread; split <;> rfl
@[simp] theorem State.modThread_monitors (s : State) (r : SlotRef) (f : Thread → Thread) : (s.modThread r f).monitors = s.monitors := by unfold State.modThread; split <;> rfl
@[simp] theorem State.modThread_measures (s : State) (r : SlotRef) (f : Thread → Thread) : (s.modThread r f).measures = s.measures := by unfold State.modThread; split <;> rfl
@[simp] theorem State.modThread_channels (s : State) (r : SlotRef) (f : Thread → Thread) : (s.modThread r f).channels = s.channels := by unfold State.modThread; split <;> rfl
@[simp] theorem State.modThread_spdmStage (s : State) (r : SlotRef) (f : Thread → Thread) : (s.modThread r f).spdmStage = s.spdmStage := by unfold State.modThread; split <;> rfl
@[simp] theorem State.modThread_spdmTrans (s : State) (r : SlotRef) (f : Thread → Thread) : (s.modThread r f).spdmTrans = s.spdmTrans := by unfold State.modThread; split <;> rfl
@[simp] theorem State.modThread_gated (s : State) (r : SlotRef) (f : Thread → Thread) : (s.modThread r f).gated = s.gated := by unfold State.modThread; split <;> rfl
@[simp] theorem State.modThread_stamped (s : State) (r : SlotRef) (f : Thread → Thread) : (s.modThread r f).stamped = s.stamped := by unfold State.modThread; split <;> rfl
@[simp] theorem State.modThread_throttled (s : State) (r : SlotRef) (f : Thread → Thread) : (s.modThread r f).throttled = s.throttled := by unfold State.modThread; split <;> rfl
@[simp] theorem State.modThread_out (s : State) (r : SlotRef) (f : Thread → Thread) : (s.modThread r f).out = s.out := by unfold State.modThread; split <;> rfl

/-! ### State.modRegion and State.fresh -/

@[simp] theorem State.modRegion_tc (s : State) (g : Nat) (f : Region → Region) : (s.modRegion g f).tc = s.tc := rfl
@[simp] theorem State.modRegion_seq (s : State) (g : Nat) (f : Region → Region) : (s.modRegion g f).seq = s.seq := rfl
@[simp] theorem State.modRegion_hold (s : State) (g : Nat) (f : Region → Region) : (s.modRegion g f).hold = s.hold := rfl
@[simp] theorem State.modRegion_cursor (s : State) (g : Nat) (f : Region → Region) : (s.modRegion g f).cursor = s.cursor := rfl
@[simp] theorem State.modRegion_cur (s : State) (g : Nat) (f : Region → Region) : (s.modRegion g f).cur = s.cur := rfl
@[simp] theorem State.modRegion_pipe (s : State) (g : Nat) (f : Region → Region) : (s.modRegion g f).pipe = s.pipe := rfl
@[simp] theorem State.modRegion_arg (s : State) (g : Nat) (f : Region → Region) : (s.modRegion g f).arg = s.arg := rfl
@[simp] theorem State.modRegion_stall (s : State) (g : Nat) (f : Region → Region) : (s.modRegion g f).stall = s.stall := rfl
@[simp] theorem State.modRegion_urgent (s : State) (g : Nat) (f : Region → Region) : (s.modRegion g f).urgent = s.urgent := rfl
@[simp] theorem State.modRegion_agenda (s : State) (g : Nat) (f : Region → Region) : (s.modRegion g f).agenda = s.agenda := rfl
@[simp] theorem State.modRegion_cores (s : State) (g : Nat) (f : Region → Region) : (s.modRegion g f).cores = s.cores := rfl
@[simp] theorem State.modRegion_hbm (s : State) (g : Nat) (f : Region → Region) : (s.modRegion g f).hbm = s.hbm := rfl
@[simp] theorem State.modRegion_lines (s : State) (g : Nat) (f : Region → Region) : (s.modRegion g f).lines = s.lines := rfl
@[simp] theorem State.modRegion_spares (s : State) (g : Nat) (f : Region → Region) : (s.modRegion g f).spares = s.spares := rfl
@[simp] theorem State.modRegion_keys (s : State) (g : Nat) (f : Region → Region) : (s.modRegion g f).keys = s.keys := rfl
@[simp] theorem State.modRegion_worldTable (s : State) (g : Nat) (f : Region → Region) : (s.modRegion g f).worldTable = s.worldTable := rfl
@[simp] theorem State.modRegion_pinned (s : State) (g : Nat) (f : Region → Region) : (s.modRegion g f).pinned = s.pinned := rfl
@[simp] theorem State.modRegion_walks (s : State) (g : Nat) (f : Region → Region) : (s.modRegion g f).walks = s.walks := rfl
@[simp] theorem State.modRegion_ctlbs (s : State) (g : Nat) (f : Region → Region) : (s.modRegion g f).ctlbs = s.ctlbs := rfl
@[simp] theorem State.modRegion_records (s : State) (g : Nat) (f : Region → Region) : (s.modRegion g f).records = s.records := rfl
@[simp] theorem State.modRegion_patrols (s : State) (g : Nat) (f : Region → Region) : (s.modRegion g f).patrols = s.patrols := rfl
@[simp] theorem State.modRegion_retire (s : State) (g : Nat) (f : Region → Region) : (s.modRegion g f).retire = s.retire := rfl
@[simp] theorem State.modRegion_slices (s : State) (g : Nat) (f : Region → Region) : (s.modRegion g f).slices = s.slices := rfl
@[simp] theorem State.modRegion_dirs (s : State) (g : Nat) (f : Region → Region) : (s.modRegion g f).dirs = s.dirs := rfl
@[simp] theorem State.modRegion_overs (s : State) (g : Nat) (f : Region → Region) : (s.modRegion g f).overs = s.overs := rfl
@[simp] theorem State.modRegion_spillFills (s : State) (g : Nat) (f : Region → Region) : (s.modRegion g f).spillFills = s.spillFills := rfl
@[simp] theorem State.modRegion_spillInvs (s : State) (g : Nat) (f : Region → Region) : (s.modRegion g f).spillInvs = s.spillInvs := rfl
@[simp] theorem State.modRegion_rdcs (s : State) (g : Nat) (f : Region → Region) : (s.modRegion g f).rdcs = s.rdcs := rfl
@[simp] theorem State.modRegion_l2ctl (s : State) (g : Nat) (f : Region → Region) : (s.modRegion g f).l2ctl = s.l2ctl := rfl
@[simp] theorem State.modRegion_quars (s : State) (g : Nat) (f : Region → Region) : (s.modRegion g f).quars = s.quars := rfl
@[simp] theorem State.modRegion_rdcQuars (s : State) (g : Nat) (f : Region → Region) : (s.modRegion g f).rdcQuars = s.rdcQuars := rfl
@[simp] theorem State.modRegion_wayErrs (s : State) (g : Nat) (f : Region → Region) : (s.modRegion g f).wayErrs = s.wayErrs := rfl
@[simp] theorem State.modRegion_dramErr (s : State) (g : Nat) (f : Region → Region) : (s.modRegion g f).dramErr = s.dramErr := rfl
@[simp] theorem State.modRegion_locErr (s : State) (g : Nat) (f : Region → Region) : (s.modRegion g f).locErr = s.locErr := rfl
@[simp] theorem State.modRegion_held (s : State) (g : Nat) (f : Region → Region) : (s.modRegion g f).held = s.held := rfl
@[simp] theorem State.modRegion_claims (s : State) (g : Nat) (f : Region → Region) : (s.modRegion g f).claims = s.claims := rfl
@[simp] theorem State.modRegion_lrws (s : State) (g : Nat) (f : Region → Region) : (s.modRegion g f).lrws = s.lrws := rfl
@[simp] theorem State.modRegion_rupds (s : State) (g : Nat) (f : Region → Region) : (s.modRegion g f).rupds = s.rupds := rfl
@[simp] theorem State.modRegion_layout (s : State) (g : Nat) (f : Region → Region) : (s.modRegion g f).layout = s.layout := rfl
@[simp] theorem State.modRegion_locked (s : State) (g : Nat) (f : Region → Region) : (s.modRegion g f).locked = s.locked := rfl
@[simp] theorem State.modRegion_scrubs (s : State) (g : Nat) (f : Region → Region) : (s.modRegion g f).scrubs = s.scrubs := rfl
@[simp] theorem State.modRegion_destroying (s : State) (g : Nat) (f : Region → Region) : (s.modRegion g f).destroying = s.destroying := rfl
@[simp] theorem State.modRegion_nextRegion (s : State) (g : Nat) (f : Region → Region) : (s.modRegion g f).nextRegion = s.nextRegion := rfl
@[simp] theorem State.modRegion_ancestry (s : State) (g : Nat) (f : Region → Region) : (s.modRegion g f).ancestry = s.ancestry := rfl
@[simp] theorem State.modRegion_launches (s : State) (g : Nat) (f : Region → Region) : (s.modRegion g f).launches = s.launches := rfl
@[simp] theorem State.modRegion_translator (s : State) (g : Nat) (f : Region → Region) : (s.modRegion g f).translator = s.translator := rfl
@[simp] theorem State.modRegion_admitting (s : State) (g : Nat) (f : Region → Region) : (s.modRegion g f).admitting = s.admitting := rfl
@[simp] theorem State.modRegion_cacheSpoilt (s : State) (g : Nat) (f : Region → Region) : (s.modRegion g f).cacheSpoilt = s.cacheSpoilt := rfl
@[simp] theorem State.modRegion_dispatchers (s : State) (g : Nat) (f : Region → Region) : (s.modRegion g f).dispatchers = s.dispatchers := rfl
@[simp] theorem State.modRegion_weirs (s : State) (g : Nat) (f : Region → Region) : (s.modRegion g f).weirs = s.weirs := rfl
@[simp] theorem State.modRegion_gangs (s : State) (g : Nat) (f : Region → Region) : (s.modRegion g f).gangs = s.gangs := rfl
@[simp] theorem State.modRegion_flights (s : State) (g : Nat) (f : Region → Region) : (s.modRegion g f).flights = s.flights := rfl
@[simp] theorem State.modRegion_occupancy (s : State) (g : Nat) (f : Region → Region) : (s.modRegion g f).occupancy = s.occupancy := rfl
@[simp] theorem State.modRegion_sampled (s : State) (g : Nat) (f : Region → Region) : (s.modRegion g f).sampled = s.sampled := rfl
@[simp] theorem State.modRegion_pools (s : State) (g : Nat) (f : Region → Region) : (s.modRegion g f).pools = s.pools := rfl
@[simp] theorem State.modRegion_subs (s : State) (g : Nat) (f : Region → Region) : (s.modRegion g f).subs = s.subs := rfl
@[simp] theorem State.modRegion_lost (s : State) (g : Nat) (f : Region → Region) : (s.modRegion g f).lost = s.lost := rfl
@[simp] theorem State.modRegion_rotations (s : State) (g : Nat) (f : Region → Region) : (s.modRegion g f).rotations = s.rotations := rfl
@[simp] theorem State.modRegion_saves (s : State) (g : Nat) (f : Region → Region) : (s.modRegion g f).saves = s.saves := rfl
@[simp] theorem State.modRegion_owner (s : State) (g : Nat) (f : Region → Region) : (s.modRegion g f).owner = s.owner := rfl
@[simp] theorem State.modRegion_ready (s : State) (g : Nat) (f : Region → Region) : (s.modRegion g f).ready = s.ready := rfl
@[simp] theorem State.modRegion_mboxStamp (s : State) (g : Nat) (f : Region → Region) : (s.modRegion g f).mboxStamp = s.mboxStamp := rfl
@[simp] theorem State.modRegion_mboxStatus (s : State) (g : Nat) (f : Region → Region) : (s.modRegion g f).mboxStatus = s.mboxStatus := rfl
@[simp] theorem State.modRegion_mboxBusy (s : State) (g : Nat) (f : Region → Region) : (s.modRegion g f).mboxBusy = s.mboxBusy := rfl
@[simp] theorem State.modRegion_mboxWait (s : State) (g : Nat) (f : Region → Region) : (s.modRegion g f).mboxWait = s.mboxWait := rfl
@[simp] theorem State.modRegion_fns (s : State) (g : Nat) (f : Region → Region) : (s.modRegion g f).fns = s.fns := rfl
@[simp] theorem State.modRegion_attached (s : State) (g : Nat) (f : Region → Region) : (s.modRegion g f).attached = s.attached := rfl
@[simp] theorem State.modRegion_monitors (s : State) (g : Nat) (f : Region → Region) : (s.modRegion g f).monitors = s.monitors := rfl
@[simp] theorem State.modRegion_measures (s : State) (g : Nat) (f : Region → Region) : (s.modRegion g f).measures = s.measures := rfl
@[simp] theorem State.modRegion_channels (s : State) (g : Nat) (f : Region → Region) : (s.modRegion g f).channels = s.channels := rfl
@[simp] theorem State.modRegion_spdmStage (s : State) (g : Nat) (f : Region → Region) : (s.modRegion g f).spdmStage = s.spdmStage := rfl
@[simp] theorem State.modRegion_spdmTrans (s : State) (g : Nat) (f : Region → Region) : (s.modRegion g f).spdmTrans = s.spdmTrans := rfl
@[simp] theorem State.modRegion_gated (s : State) (g : Nat) (f : Region → Region) : (s.modRegion g f).gated = s.gated := rfl
@[simp] theorem State.modRegion_stamped (s : State) (g : Nat) (f : Region → Region) : (s.modRegion g f).stamped = s.stamped := rfl
@[simp] theorem State.modRegion_throttled (s : State) (g : Nat) (f : Region → Region) : (s.modRegion g f).throttled = s.throttled := rfl
@[simp] theorem State.modRegion_out (s : State) (g : Nat) (f : Region → Region) : (s.modRegion g f).out = s.out := rfl
@[simp] theorem State.fresh_tc (s : State) : s.fresh.2.tc = s.tc := rfl
@[simp] theorem State.fresh_hold (s : State) : s.fresh.2.hold = s.hold := rfl
@[simp] theorem State.fresh_cursor (s : State) : s.fresh.2.cursor = s.cursor := rfl
@[simp] theorem State.fresh_cur (s : State) : s.fresh.2.cur = s.cur := rfl
@[simp] theorem State.fresh_pipe (s : State) : s.fresh.2.pipe = s.pipe := rfl
@[simp] theorem State.fresh_arg (s : State) : s.fresh.2.arg = s.arg := rfl
@[simp] theorem State.fresh_stall (s : State) : s.fresh.2.stall = s.stall := rfl
@[simp] theorem State.fresh_urgent (s : State) : s.fresh.2.urgent = s.urgent := rfl
@[simp] theorem State.fresh_agenda (s : State) : s.fresh.2.agenda = s.agenda := rfl
@[simp] theorem State.fresh_cores (s : State) : s.fresh.2.cores = s.cores := rfl
@[simp] theorem State.fresh_hbm (s : State) : s.fresh.2.hbm = s.hbm := rfl
@[simp] theorem State.fresh_lines (s : State) : s.fresh.2.lines = s.lines := rfl
@[simp] theorem State.fresh_spares (s : State) : s.fresh.2.spares = s.spares := rfl
@[simp] theorem State.fresh_keys (s : State) : s.fresh.2.keys = s.keys := rfl
@[simp] theorem State.fresh_worldTable (s : State) : s.fresh.2.worldTable = s.worldTable := rfl
@[simp] theorem State.fresh_pinned (s : State) : s.fresh.2.pinned = s.pinned := rfl
@[simp] theorem State.fresh_walks (s : State) : s.fresh.2.walks = s.walks := rfl
@[simp] theorem State.fresh_ctlbs (s : State) : s.fresh.2.ctlbs = s.ctlbs := rfl
@[simp] theorem State.fresh_records (s : State) : s.fresh.2.records = s.records := rfl
@[simp] theorem State.fresh_patrols (s : State) : s.fresh.2.patrols = s.patrols := rfl
@[simp] theorem State.fresh_retire (s : State) : s.fresh.2.retire = s.retire := rfl
@[simp] theorem State.fresh_slices (s : State) : s.fresh.2.slices = s.slices := rfl
@[simp] theorem State.fresh_dirs (s : State) : s.fresh.2.dirs = s.dirs := rfl
@[simp] theorem State.fresh_overs (s : State) : s.fresh.2.overs = s.overs := rfl
@[simp] theorem State.fresh_spillFills (s : State) : s.fresh.2.spillFills = s.spillFills := rfl
@[simp] theorem State.fresh_spillInvs (s : State) : s.fresh.2.spillInvs = s.spillInvs := rfl
@[simp] theorem State.fresh_rdcs (s : State) : s.fresh.2.rdcs = s.rdcs := rfl
@[simp] theorem State.fresh_l2ctl (s : State) : s.fresh.2.l2ctl = s.l2ctl := rfl
@[simp] theorem State.fresh_quars (s : State) : s.fresh.2.quars = s.quars := rfl
@[simp] theorem State.fresh_rdcQuars (s : State) : s.fresh.2.rdcQuars = s.rdcQuars := rfl
@[simp] theorem State.fresh_wayErrs (s : State) : s.fresh.2.wayErrs = s.wayErrs := rfl
@[simp] theorem State.fresh_dramErr (s : State) : s.fresh.2.dramErr = s.dramErr := rfl
@[simp] theorem State.fresh_locErr (s : State) : s.fresh.2.locErr = s.locErr := rfl
@[simp] theorem State.fresh_held (s : State) : s.fresh.2.held = s.held := rfl
@[simp] theorem State.fresh_claims (s : State) : s.fresh.2.claims = s.claims := rfl
@[simp] theorem State.fresh_lrws (s : State) : s.fresh.2.lrws = s.lrws := rfl
@[simp] theorem State.fresh_rupds (s : State) : s.fresh.2.rupds = s.rupds := rfl
@[simp] theorem State.fresh_layout (s : State) : s.fresh.2.layout = s.layout := rfl
@[simp] theorem State.fresh_locked (s : State) : s.fresh.2.locked = s.locked := rfl
@[simp] theorem State.fresh_scrubs (s : State) : s.fresh.2.scrubs = s.scrubs := rfl
@[simp] theorem State.fresh_destroying (s : State) : s.fresh.2.destroying = s.destroying := rfl
@[simp] theorem State.fresh_regions (s : State) : s.fresh.2.regions = s.regions := rfl
@[simp] theorem State.fresh_nextRegion (s : State) : s.fresh.2.nextRegion = s.nextRegion := rfl
@[simp] theorem State.fresh_ancestry (s : State) : s.fresh.2.ancestry = s.ancestry := rfl
@[simp] theorem State.fresh_launches (s : State) : s.fresh.2.launches = s.launches := rfl
@[simp] theorem State.fresh_translator (s : State) : s.fresh.2.translator = s.translator := rfl
@[simp] theorem State.fresh_admitting (s : State) : s.fresh.2.admitting = s.admitting := rfl
@[simp] theorem State.fresh_cacheSpoilt (s : State) : s.fresh.2.cacheSpoilt = s.cacheSpoilt := rfl
@[simp] theorem State.fresh_dispatchers (s : State) : s.fresh.2.dispatchers = s.dispatchers := rfl
@[simp] theorem State.fresh_weirs (s : State) : s.fresh.2.weirs = s.weirs := rfl
@[simp] theorem State.fresh_gangs (s : State) : s.fresh.2.gangs = s.gangs := rfl
@[simp] theorem State.fresh_flights (s : State) : s.fresh.2.flights = s.flights := rfl
@[simp] theorem State.fresh_occupancy (s : State) : s.fresh.2.occupancy = s.occupancy := rfl
@[simp] theorem State.fresh_sampled (s : State) : s.fresh.2.sampled = s.sampled := rfl
@[simp] theorem State.fresh_pools (s : State) : s.fresh.2.pools = s.pools := rfl
@[simp] theorem State.fresh_subs (s : State) : s.fresh.2.subs = s.subs := rfl
@[simp] theorem State.fresh_lost (s : State) : s.fresh.2.lost = s.lost := rfl
@[simp] theorem State.fresh_rotations (s : State) : s.fresh.2.rotations = s.rotations := rfl
@[simp] theorem State.fresh_saves (s : State) : s.fresh.2.saves = s.saves := rfl
@[simp] theorem State.fresh_owner (s : State) : s.fresh.2.owner = s.owner := rfl
@[simp] theorem State.fresh_ready (s : State) : s.fresh.2.ready = s.ready := rfl
@[simp] theorem State.fresh_mboxStamp (s : State) : s.fresh.2.mboxStamp = s.mboxStamp := rfl
@[simp] theorem State.fresh_mboxStatus (s : State) : s.fresh.2.mboxStatus = s.mboxStatus := rfl
@[simp] theorem State.fresh_mboxBusy (s : State) : s.fresh.2.mboxBusy = s.mboxBusy := rfl
@[simp] theorem State.fresh_mboxWait (s : State) : s.fresh.2.mboxWait = s.mboxWait := rfl
@[simp] theorem State.fresh_fns (s : State) : s.fresh.2.fns = s.fns := rfl
@[simp] theorem State.fresh_attached (s : State) : s.fresh.2.attached = s.attached := rfl
@[simp] theorem State.fresh_monitors (s : State) : s.fresh.2.monitors = s.monitors := rfl
@[simp] theorem State.fresh_measures (s : State) : s.fresh.2.measures = s.measures := rfl
@[simp] theorem State.fresh_channels (s : State) : s.fresh.2.channels = s.channels := rfl
@[simp] theorem State.fresh_spdmStage (s : State) : s.fresh.2.spdmStage = s.spdmStage := rfl
@[simp] theorem State.fresh_spdmTrans (s : State) : s.fresh.2.spdmTrans = s.spdmTrans := rfl
@[simp] theorem State.fresh_gated (s : State) : s.fresh.2.gated = s.gated := rfl
@[simp] theorem State.fresh_stamped (s : State) : s.fresh.2.stamped = s.stamped := rfl
@[simp] theorem State.fresh_throttled (s : State) : s.fresh.2.throttled = s.throttled := rfl
@[simp] theorem State.fresh_out (s : State) : s.fresh.2.out = s.out := rfl
@[simp] theorem State.fresh_seq (s : State) : s.fresh.2.seq = s.seq + 1 := rfl

/-! ### State.givePort, takePorts, writeReg: they change the cores -/

@[simp] theorem State.givePort_tc (s : State) (c : CoreIx) (p : Port) (v : Word) : (s.givePort c p v).tc = s.tc := by unfold State.givePort; split <;> rfl
@[simp] theorem State.givePort_seq (s : State) (c : CoreIx) (p : Port) (v : Word) : (s.givePort c p v).seq = s.seq := by unfold State.givePort; split <;> rfl
@[simp] theorem State.givePort_hold (s : State) (c : CoreIx) (p : Port) (v : Word) : (s.givePort c p v).hold = s.hold := by unfold State.givePort; split <;> rfl
@[simp] theorem State.givePort_cursor (s : State) (c : CoreIx) (p : Port) (v : Word) : (s.givePort c p v).cursor = s.cursor := by unfold State.givePort; split <;> rfl
@[simp] theorem State.givePort_cur (s : State) (c : CoreIx) (p : Port) (v : Word) : (s.givePort c p v).cur = s.cur := by unfold State.givePort; split <;> rfl
@[simp] theorem State.givePort_pipe (s : State) (c : CoreIx) (p : Port) (v : Word) : (s.givePort c p v).pipe = s.pipe := by unfold State.givePort; split <;> rfl
@[simp] theorem State.givePort_arg (s : State) (c : CoreIx) (p : Port) (v : Word) : (s.givePort c p v).arg = s.arg := by unfold State.givePort; split <;> rfl
@[simp] theorem State.givePort_stall (s : State) (c : CoreIx) (p : Port) (v : Word) : (s.givePort c p v).stall = s.stall := by unfold State.givePort; split <;> rfl
@[simp] theorem State.givePort_urgent (s : State) (c : CoreIx) (p : Port) (v : Word) : (s.givePort c p v).urgent = s.urgent := by unfold State.givePort; split <;> rfl
@[simp] theorem State.givePort_agenda (s : State) (c : CoreIx) (p : Port) (v : Word) : (s.givePort c p v).agenda = s.agenda := by unfold State.givePort; split <;> rfl
@[simp] theorem State.givePort_hbm (s : State) (c : CoreIx) (p : Port) (v : Word) : (s.givePort c p v).hbm = s.hbm := by unfold State.givePort; split <;> rfl
@[simp] theorem State.givePort_lines (s : State) (c : CoreIx) (p : Port) (v : Word) : (s.givePort c p v).lines = s.lines := by unfold State.givePort; split <;> rfl
@[simp] theorem State.givePort_spares (s : State) (c : CoreIx) (p : Port) (v : Word) : (s.givePort c p v).spares = s.spares := by unfold State.givePort; split <;> rfl
@[simp] theorem State.givePort_keys (s : State) (c : CoreIx) (p : Port) (v : Word) : (s.givePort c p v).keys = s.keys := by unfold State.givePort; split <;> rfl
@[simp] theorem State.givePort_worldTable (s : State) (c : CoreIx) (p : Port) (v : Word) : (s.givePort c p v).worldTable = s.worldTable := by unfold State.givePort; split <;> rfl
@[simp] theorem State.givePort_pinned (s : State) (c : CoreIx) (p : Port) (v : Word) : (s.givePort c p v).pinned = s.pinned := by unfold State.givePort; split <;> rfl
@[simp] theorem State.givePort_walks (s : State) (c : CoreIx) (p : Port) (v : Word) : (s.givePort c p v).walks = s.walks := by unfold State.givePort; split <;> rfl
@[simp] theorem State.givePort_ctlbs (s : State) (c : CoreIx) (p : Port) (v : Word) : (s.givePort c p v).ctlbs = s.ctlbs := by unfold State.givePort; split <;> rfl
@[simp] theorem State.givePort_records (s : State) (c : CoreIx) (p : Port) (v : Word) : (s.givePort c p v).records = s.records := by unfold State.givePort; split <;> rfl
@[simp] theorem State.givePort_patrols (s : State) (c : CoreIx) (p : Port) (v : Word) : (s.givePort c p v).patrols = s.patrols := by unfold State.givePort; split <;> rfl
@[simp] theorem State.givePort_retire (s : State) (c : CoreIx) (p : Port) (v : Word) : (s.givePort c p v).retire = s.retire := by unfold State.givePort; split <;> rfl
@[simp] theorem State.givePort_slices (s : State) (c : CoreIx) (p : Port) (v : Word) : (s.givePort c p v).slices = s.slices := by unfold State.givePort; split <;> rfl
@[simp] theorem State.givePort_dirs (s : State) (c : CoreIx) (p : Port) (v : Word) : (s.givePort c p v).dirs = s.dirs := by unfold State.givePort; split <;> rfl
@[simp] theorem State.givePort_overs (s : State) (c : CoreIx) (p : Port) (v : Word) : (s.givePort c p v).overs = s.overs := by unfold State.givePort; split <;> rfl
@[simp] theorem State.givePort_spillFills (s : State) (c : CoreIx) (p : Port) (v : Word) : (s.givePort c p v).spillFills = s.spillFills := by unfold State.givePort; split <;> rfl
@[simp] theorem State.givePort_spillInvs (s : State) (c : CoreIx) (p : Port) (v : Word) : (s.givePort c p v).spillInvs = s.spillInvs := by unfold State.givePort; split <;> rfl
@[simp] theorem State.givePort_rdcs (s : State) (c : CoreIx) (p : Port) (v : Word) : (s.givePort c p v).rdcs = s.rdcs := by unfold State.givePort; split <;> rfl
@[simp] theorem State.givePort_l2ctl (s : State) (c : CoreIx) (p : Port) (v : Word) : (s.givePort c p v).l2ctl = s.l2ctl := by unfold State.givePort; split <;> rfl
@[simp] theorem State.givePort_quars (s : State) (c : CoreIx) (p : Port) (v : Word) : (s.givePort c p v).quars = s.quars := by unfold State.givePort; split <;> rfl
@[simp] theorem State.givePort_rdcQuars (s : State) (c : CoreIx) (p : Port) (v : Word) : (s.givePort c p v).rdcQuars = s.rdcQuars := by unfold State.givePort; split <;> rfl
@[simp] theorem State.givePort_wayErrs (s : State) (c : CoreIx) (p : Port) (v : Word) : (s.givePort c p v).wayErrs = s.wayErrs := by unfold State.givePort; split <;> rfl
@[simp] theorem State.givePort_dramErr (s : State) (c : CoreIx) (p : Port) (v : Word) : (s.givePort c p v).dramErr = s.dramErr := by unfold State.givePort; split <;> rfl
@[simp] theorem State.givePort_locErr (s : State) (c : CoreIx) (p : Port) (v : Word) : (s.givePort c p v).locErr = s.locErr := by unfold State.givePort; split <;> rfl
@[simp] theorem State.givePort_held (s : State) (c : CoreIx) (p : Port) (v : Word) : (s.givePort c p v).held = s.held := by unfold State.givePort; split <;> rfl
@[simp] theorem State.givePort_claims (s : State) (c : CoreIx) (p : Port) (v : Word) : (s.givePort c p v).claims = s.claims := by unfold State.givePort; split <;> rfl
@[simp] theorem State.givePort_lrws (s : State) (c : CoreIx) (p : Port) (v : Word) : (s.givePort c p v).lrws = s.lrws := by unfold State.givePort; split <;> rfl
@[simp] theorem State.givePort_rupds (s : State) (c : CoreIx) (p : Port) (v : Word) : (s.givePort c p v).rupds = s.rupds := by unfold State.givePort; split <;> rfl
@[simp] theorem State.givePort_layout (s : State) (c : CoreIx) (p : Port) (v : Word) : (s.givePort c p v).layout = s.layout := by unfold State.givePort; split <;> rfl
@[simp] theorem State.givePort_locked (s : State) (c : CoreIx) (p : Port) (v : Word) : (s.givePort c p v).locked = s.locked := by unfold State.givePort; split <;> rfl
@[simp] theorem State.givePort_scrubs (s : State) (c : CoreIx) (p : Port) (v : Word) : (s.givePort c p v).scrubs = s.scrubs := by unfold State.givePort; split <;> rfl
@[simp] theorem State.givePort_destroying (s : State) (c : CoreIx) (p : Port) (v : Word) : (s.givePort c p v).destroying = s.destroying := by unfold State.givePort; split <;> rfl
@[simp] theorem State.givePort_regions (s : State) (c : CoreIx) (p : Port) (v : Word) : (s.givePort c p v).regions = s.regions := by unfold State.givePort; split <;> rfl
@[simp] theorem State.givePort_nextRegion (s : State) (c : CoreIx) (p : Port) (v : Word) : (s.givePort c p v).nextRegion = s.nextRegion := by unfold State.givePort; split <;> rfl
@[simp] theorem State.givePort_ancestry (s : State) (c : CoreIx) (p : Port) (v : Word) : (s.givePort c p v).ancestry = s.ancestry := by unfold State.givePort; split <;> rfl
@[simp] theorem State.givePort_launches (s : State) (c : CoreIx) (p : Port) (v : Word) : (s.givePort c p v).launches = s.launches := by unfold State.givePort; split <;> rfl
@[simp] theorem State.givePort_translator (s : State) (c : CoreIx) (p : Port) (v : Word) : (s.givePort c p v).translator = s.translator := by unfold State.givePort; split <;> rfl
@[simp] theorem State.givePort_admitting (s : State) (c : CoreIx) (p : Port) (v : Word) : (s.givePort c p v).admitting = s.admitting := by unfold State.givePort; split <;> rfl
@[simp] theorem State.givePort_cacheSpoilt (s : State) (c : CoreIx) (p : Port) (v : Word) : (s.givePort c p v).cacheSpoilt = s.cacheSpoilt := by unfold State.givePort; split <;> rfl
@[simp] theorem State.givePort_dispatchers (s : State) (c : CoreIx) (p : Port) (v : Word) : (s.givePort c p v).dispatchers = s.dispatchers := by unfold State.givePort; split <;> rfl
@[simp] theorem State.givePort_weirs (s : State) (c : CoreIx) (p : Port) (v : Word) : (s.givePort c p v).weirs = s.weirs := by unfold State.givePort; split <;> rfl
@[simp] theorem State.givePort_gangs (s : State) (c : CoreIx) (p : Port) (v : Word) : (s.givePort c p v).gangs = s.gangs := by unfold State.givePort; split <;> rfl
@[simp] theorem State.givePort_flights (s : State) (c : CoreIx) (p : Port) (v : Word) : (s.givePort c p v).flights = s.flights := by unfold State.givePort; split <;> rfl
@[simp] theorem State.givePort_occupancy (s : State) (c : CoreIx) (p : Port) (v : Word) : (s.givePort c p v).occupancy = s.occupancy := by unfold State.givePort; split <;> rfl
@[simp] theorem State.givePort_sampled (s : State) (c : CoreIx) (p : Port) (v : Word) : (s.givePort c p v).sampled = s.sampled := by unfold State.givePort; split <;> rfl
@[simp] theorem State.givePort_pools (s : State) (c : CoreIx) (p : Port) (v : Word) : (s.givePort c p v).pools = s.pools := by unfold State.givePort; split <;> rfl
@[simp] theorem State.givePort_subs (s : State) (c : CoreIx) (p : Port) (v : Word) : (s.givePort c p v).subs = s.subs := by unfold State.givePort; split <;> rfl
@[simp] theorem State.givePort_lost (s : State) (c : CoreIx) (p : Port) (v : Word) : (s.givePort c p v).lost = s.lost := by unfold State.givePort; split <;> rfl
@[simp] theorem State.givePort_rotations (s : State) (c : CoreIx) (p : Port) (v : Word) : (s.givePort c p v).rotations = s.rotations := by unfold State.givePort; split <;> rfl
@[simp] theorem State.givePort_saves (s : State) (c : CoreIx) (p : Port) (v : Word) : (s.givePort c p v).saves = s.saves := by unfold State.givePort; split <;> rfl
@[simp] theorem State.givePort_owner (s : State) (c : CoreIx) (p : Port) (v : Word) : (s.givePort c p v).owner = s.owner := by unfold State.givePort; split <;> rfl
@[simp] theorem State.givePort_ready (s : State) (c : CoreIx) (p : Port) (v : Word) : (s.givePort c p v).ready = s.ready := by unfold State.givePort; split <;> rfl
@[simp] theorem State.givePort_mboxStamp (s : State) (c : CoreIx) (p : Port) (v : Word) : (s.givePort c p v).mboxStamp = s.mboxStamp := by unfold State.givePort; split <;> rfl
@[simp] theorem State.givePort_mboxStatus (s : State) (c : CoreIx) (p : Port) (v : Word) : (s.givePort c p v).mboxStatus = s.mboxStatus := by unfold State.givePort; split <;> rfl
@[simp] theorem State.givePort_mboxBusy (s : State) (c : CoreIx) (p : Port) (v : Word) : (s.givePort c p v).mboxBusy = s.mboxBusy := by unfold State.givePort; split <;> rfl
@[simp] theorem State.givePort_mboxWait (s : State) (c : CoreIx) (p : Port) (v : Word) : (s.givePort c p v).mboxWait = s.mboxWait := by unfold State.givePort; split <;> rfl
@[simp] theorem State.givePort_fns (s : State) (c : CoreIx) (p : Port) (v : Word) : (s.givePort c p v).fns = s.fns := by unfold State.givePort; split <;> rfl
@[simp] theorem State.givePort_attached (s : State) (c : CoreIx) (p : Port) (v : Word) : (s.givePort c p v).attached = s.attached := by unfold State.givePort; split <;> rfl
@[simp] theorem State.givePort_monitors (s : State) (c : CoreIx) (p : Port) (v : Word) : (s.givePort c p v).monitors = s.monitors := by unfold State.givePort; split <;> rfl
@[simp] theorem State.givePort_measures (s : State) (c : CoreIx) (p : Port) (v : Word) : (s.givePort c p v).measures = s.measures := by unfold State.givePort; split <;> rfl
@[simp] theorem State.givePort_channels (s : State) (c : CoreIx) (p : Port) (v : Word) : (s.givePort c p v).channels = s.channels := by unfold State.givePort; split <;> rfl
@[simp] theorem State.givePort_spdmStage (s : State) (c : CoreIx) (p : Port) (v : Word) : (s.givePort c p v).spdmStage = s.spdmStage := by unfold State.givePort; split <;> rfl
@[simp] theorem State.givePort_spdmTrans (s : State) (c : CoreIx) (p : Port) (v : Word) : (s.givePort c p v).spdmTrans = s.spdmTrans := by unfold State.givePort; split <;> rfl
@[simp] theorem State.givePort_gated (s : State) (c : CoreIx) (p : Port) (v : Word) : (s.givePort c p v).gated = s.gated := by unfold State.givePort; split <;> rfl
@[simp] theorem State.givePort_stamped (s : State) (c : CoreIx) (p : Port) (v : Word) : (s.givePort c p v).stamped = s.stamped := by unfold State.givePort; split <;> rfl
@[simp] theorem State.givePort_throttled (s : State) (c : CoreIx) (p : Port) (v : Word) : (s.givePort c p v).throttled = s.throttled := by unfold State.givePort; split <;> rfl
@[simp] theorem State.givePort_out (s : State) (c : CoreIx) (p : Port) (v : Word) : (s.givePort c p v).out = s.out := by unfold State.givePort; split <;> rfl
@[simp] theorem State.takePorts_tc (l : List Reg) (s : State) (c : CoreIx) : (s.takePorts c l).tc = s.tc := by
  induction l generalizing s with
  | nil => rfl
  | cons x r ih => cases x <;> simp [State.takePorts, ih]
@[simp] theorem State.takePorts_seq (l : List Reg) (s : State) (c : CoreIx) : (s.takePorts c l).seq = s.seq := by
  induction l generalizing s with
  | nil => rfl
  | cons x r ih => cases x <;> simp [State.takePorts, ih]
@[simp] theorem State.takePorts_hold (l : List Reg) (s : State) (c : CoreIx) : (s.takePorts c l).hold = s.hold := by
  induction l generalizing s with
  | nil => rfl
  | cons x r ih => cases x <;> simp [State.takePorts, ih]
@[simp] theorem State.takePorts_cursor (l : List Reg) (s : State) (c : CoreIx) : (s.takePorts c l).cursor = s.cursor := by
  induction l generalizing s with
  | nil => rfl
  | cons x r ih => cases x <;> simp [State.takePorts, ih]
@[simp] theorem State.takePorts_cur (l : List Reg) (s : State) (c : CoreIx) : (s.takePorts c l).cur = s.cur := by
  induction l generalizing s with
  | nil => rfl
  | cons x r ih => cases x <;> simp [State.takePorts, ih]
@[simp] theorem State.takePorts_pipe (l : List Reg) (s : State) (c : CoreIx) : (s.takePorts c l).pipe = s.pipe := by
  induction l generalizing s with
  | nil => rfl
  | cons x r ih => cases x <;> simp [State.takePorts, ih]
@[simp] theorem State.takePorts_arg (l : List Reg) (s : State) (c : CoreIx) : (s.takePorts c l).arg = s.arg := by
  induction l generalizing s with
  | nil => rfl
  | cons x r ih => cases x <;> simp [State.takePorts, ih]
@[simp] theorem State.takePorts_stall (l : List Reg) (s : State) (c : CoreIx) : (s.takePorts c l).stall = s.stall := by
  induction l generalizing s with
  | nil => rfl
  | cons x r ih => cases x <;> simp [State.takePorts, ih]
@[simp] theorem State.takePorts_urgent (l : List Reg) (s : State) (c : CoreIx) : (s.takePorts c l).urgent = s.urgent := by
  induction l generalizing s with
  | nil => rfl
  | cons x r ih => cases x <;> simp [State.takePorts, ih]
@[simp] theorem State.takePorts_agenda (l : List Reg) (s : State) (c : CoreIx) : (s.takePorts c l).agenda = s.agenda := by
  induction l generalizing s with
  | nil => rfl
  | cons x r ih => cases x <;> simp [State.takePorts, ih]
@[simp] theorem State.takePorts_hbm (l : List Reg) (s : State) (c : CoreIx) : (s.takePorts c l).hbm = s.hbm := by
  induction l generalizing s with
  | nil => rfl
  | cons x r ih => cases x <;> simp [State.takePorts, ih]
@[simp] theorem State.takePorts_lines (l : List Reg) (s : State) (c : CoreIx) : (s.takePorts c l).lines = s.lines := by
  induction l generalizing s with
  | nil => rfl
  | cons x r ih => cases x <;> simp [State.takePorts, ih]
@[simp] theorem State.takePorts_spares (l : List Reg) (s : State) (c : CoreIx) : (s.takePorts c l).spares = s.spares := by
  induction l generalizing s with
  | nil => rfl
  | cons x r ih => cases x <;> simp [State.takePorts, ih]
@[simp] theorem State.takePorts_keys (l : List Reg) (s : State) (c : CoreIx) : (s.takePorts c l).keys = s.keys := by
  induction l generalizing s with
  | nil => rfl
  | cons x r ih => cases x <;> simp [State.takePorts, ih]
@[simp] theorem State.takePorts_worldTable (l : List Reg) (s : State) (c : CoreIx) : (s.takePorts c l).worldTable = s.worldTable := by
  induction l generalizing s with
  | nil => rfl
  | cons x r ih => cases x <;> simp [State.takePorts, ih]
@[simp] theorem State.takePorts_pinned (l : List Reg) (s : State) (c : CoreIx) : (s.takePorts c l).pinned = s.pinned := by
  induction l generalizing s with
  | nil => rfl
  | cons x r ih => cases x <;> simp [State.takePorts, ih]
@[simp] theorem State.takePorts_walks (l : List Reg) (s : State) (c : CoreIx) : (s.takePorts c l).walks = s.walks := by
  induction l generalizing s with
  | nil => rfl
  | cons x r ih => cases x <;> simp [State.takePorts, ih]
@[simp] theorem State.takePorts_ctlbs (l : List Reg) (s : State) (c : CoreIx) : (s.takePorts c l).ctlbs = s.ctlbs := by
  induction l generalizing s with
  | nil => rfl
  | cons x r ih => cases x <;> simp [State.takePorts, ih]
@[simp] theorem State.takePorts_records (l : List Reg) (s : State) (c : CoreIx) : (s.takePorts c l).records = s.records := by
  induction l generalizing s with
  | nil => rfl
  | cons x r ih => cases x <;> simp [State.takePorts, ih]
@[simp] theorem State.takePorts_patrols (l : List Reg) (s : State) (c : CoreIx) : (s.takePorts c l).patrols = s.patrols := by
  induction l generalizing s with
  | nil => rfl
  | cons x r ih => cases x <;> simp [State.takePorts, ih]
@[simp] theorem State.takePorts_retire (l : List Reg) (s : State) (c : CoreIx) : (s.takePorts c l).retire = s.retire := by
  induction l generalizing s with
  | nil => rfl
  | cons x r ih => cases x <;> simp [State.takePorts, ih]
@[simp] theorem State.takePorts_slices (l : List Reg) (s : State) (c : CoreIx) : (s.takePorts c l).slices = s.slices := by
  induction l generalizing s with
  | nil => rfl
  | cons x r ih => cases x <;> simp [State.takePorts, ih]
@[simp] theorem State.takePorts_dirs (l : List Reg) (s : State) (c : CoreIx) : (s.takePorts c l).dirs = s.dirs := by
  induction l generalizing s with
  | nil => rfl
  | cons x r ih => cases x <;> simp [State.takePorts, ih]
@[simp] theorem State.takePorts_overs (l : List Reg) (s : State) (c : CoreIx) : (s.takePorts c l).overs = s.overs := by
  induction l generalizing s with
  | nil => rfl
  | cons x r ih => cases x <;> simp [State.takePorts, ih]
@[simp] theorem State.takePorts_spillFills (l : List Reg) (s : State) (c : CoreIx) : (s.takePorts c l).spillFills = s.spillFills := by
  induction l generalizing s with
  | nil => rfl
  | cons x r ih => cases x <;> simp [State.takePorts, ih]
@[simp] theorem State.takePorts_spillInvs (l : List Reg) (s : State) (c : CoreIx) : (s.takePorts c l).spillInvs = s.spillInvs := by
  induction l generalizing s with
  | nil => rfl
  | cons x r ih => cases x <;> simp [State.takePorts, ih]
@[simp] theorem State.takePorts_rdcs (l : List Reg) (s : State) (c : CoreIx) : (s.takePorts c l).rdcs = s.rdcs := by
  induction l generalizing s with
  | nil => rfl
  | cons x r ih => cases x <;> simp [State.takePorts, ih]
@[simp] theorem State.takePorts_l2ctl (l : List Reg) (s : State) (c : CoreIx) : (s.takePorts c l).l2ctl = s.l2ctl := by
  induction l generalizing s with
  | nil => rfl
  | cons x r ih => cases x <;> simp [State.takePorts, ih]
@[simp] theorem State.takePorts_quars (l : List Reg) (s : State) (c : CoreIx) : (s.takePorts c l).quars = s.quars := by
  induction l generalizing s with
  | nil => rfl
  | cons x r ih => cases x <;> simp [State.takePorts, ih]
@[simp] theorem State.takePorts_rdcQuars (l : List Reg) (s : State) (c : CoreIx) : (s.takePorts c l).rdcQuars = s.rdcQuars := by
  induction l generalizing s with
  | nil => rfl
  | cons x r ih => cases x <;> simp [State.takePorts, ih]
@[simp] theorem State.takePorts_wayErrs (l : List Reg) (s : State) (c : CoreIx) : (s.takePorts c l).wayErrs = s.wayErrs := by
  induction l generalizing s with
  | nil => rfl
  | cons x r ih => cases x <;> simp [State.takePorts, ih]
@[simp] theorem State.takePorts_dramErr (l : List Reg) (s : State) (c : CoreIx) : (s.takePorts c l).dramErr = s.dramErr := by
  induction l generalizing s with
  | nil => rfl
  | cons x r ih => cases x <;> simp [State.takePorts, ih]
@[simp] theorem State.takePorts_locErr (l : List Reg) (s : State) (c : CoreIx) : (s.takePorts c l).locErr = s.locErr := by
  induction l generalizing s with
  | nil => rfl
  | cons x r ih => cases x <;> simp [State.takePorts, ih]
@[simp] theorem State.takePorts_held (l : List Reg) (s : State) (c : CoreIx) : (s.takePorts c l).held = s.held := by
  induction l generalizing s with
  | nil => rfl
  | cons x r ih => cases x <;> simp [State.takePorts, ih]
@[simp] theorem State.takePorts_claims (l : List Reg) (s : State) (c : CoreIx) : (s.takePorts c l).claims = s.claims := by
  induction l generalizing s with
  | nil => rfl
  | cons x r ih => cases x <;> simp [State.takePorts, ih]
@[simp] theorem State.takePorts_lrws (l : List Reg) (s : State) (c : CoreIx) : (s.takePorts c l).lrws = s.lrws := by
  induction l generalizing s with
  | nil => rfl
  | cons x r ih => cases x <;> simp [State.takePorts, ih]
@[simp] theorem State.takePorts_rupds (l : List Reg) (s : State) (c : CoreIx) : (s.takePorts c l).rupds = s.rupds := by
  induction l generalizing s with
  | nil => rfl
  | cons x r ih => cases x <;> simp [State.takePorts, ih]
@[simp] theorem State.takePorts_layout (l : List Reg) (s : State) (c : CoreIx) : (s.takePorts c l).layout = s.layout := by
  induction l generalizing s with
  | nil => rfl
  | cons x r ih => cases x <;> simp [State.takePorts, ih]
@[simp] theorem State.takePorts_locked (l : List Reg) (s : State) (c : CoreIx) : (s.takePorts c l).locked = s.locked := by
  induction l generalizing s with
  | nil => rfl
  | cons x r ih => cases x <;> simp [State.takePorts, ih]
@[simp] theorem State.takePorts_scrubs (l : List Reg) (s : State) (c : CoreIx) : (s.takePorts c l).scrubs = s.scrubs := by
  induction l generalizing s with
  | nil => rfl
  | cons x r ih => cases x <;> simp [State.takePorts, ih]
@[simp] theorem State.takePorts_destroying (l : List Reg) (s : State) (c : CoreIx) : (s.takePorts c l).destroying = s.destroying := by
  induction l generalizing s with
  | nil => rfl
  | cons x r ih => cases x <;> simp [State.takePorts, ih]
@[simp] theorem State.takePorts_regions (l : List Reg) (s : State) (c : CoreIx) : (s.takePorts c l).regions = s.regions := by
  induction l generalizing s with
  | nil => rfl
  | cons x r ih => cases x <;> simp [State.takePorts, ih]
@[simp] theorem State.takePorts_nextRegion (l : List Reg) (s : State) (c : CoreIx) : (s.takePorts c l).nextRegion = s.nextRegion := by
  induction l generalizing s with
  | nil => rfl
  | cons x r ih => cases x <;> simp [State.takePorts, ih]
@[simp] theorem State.takePorts_ancestry (l : List Reg) (s : State) (c : CoreIx) : (s.takePorts c l).ancestry = s.ancestry := by
  induction l generalizing s with
  | nil => rfl
  | cons x r ih => cases x <;> simp [State.takePorts, ih]
@[simp] theorem State.takePorts_launches (l : List Reg) (s : State) (c : CoreIx) : (s.takePorts c l).launches = s.launches := by
  induction l generalizing s with
  | nil => rfl
  | cons x r ih => cases x <;> simp [State.takePorts, ih]
@[simp] theorem State.takePorts_translator (l : List Reg) (s : State) (c : CoreIx) : (s.takePorts c l).translator = s.translator := by
  induction l generalizing s with
  | nil => rfl
  | cons x r ih => cases x <;> simp [State.takePorts, ih]
@[simp] theorem State.takePorts_admitting (l : List Reg) (s : State) (c : CoreIx) : (s.takePorts c l).admitting = s.admitting := by
  induction l generalizing s with
  | nil => rfl
  | cons x r ih => cases x <;> simp [State.takePorts, ih]
@[simp] theorem State.takePorts_cacheSpoilt (l : List Reg) (s : State) (c : CoreIx) : (s.takePorts c l).cacheSpoilt = s.cacheSpoilt := by
  induction l generalizing s with
  | nil => rfl
  | cons x r ih => cases x <;> simp [State.takePorts, ih]
@[simp] theorem State.takePorts_dispatchers (l : List Reg) (s : State) (c : CoreIx) : (s.takePorts c l).dispatchers = s.dispatchers := by
  induction l generalizing s with
  | nil => rfl
  | cons x r ih => cases x <;> simp [State.takePorts, ih]
@[simp] theorem State.takePorts_weirs (l : List Reg) (s : State) (c : CoreIx) : (s.takePorts c l).weirs = s.weirs := by
  induction l generalizing s with
  | nil => rfl
  | cons x r ih => cases x <;> simp [State.takePorts, ih]
@[simp] theorem State.takePorts_gangs (l : List Reg) (s : State) (c : CoreIx) : (s.takePorts c l).gangs = s.gangs := by
  induction l generalizing s with
  | nil => rfl
  | cons x r ih => cases x <;> simp [State.takePorts, ih]
@[simp] theorem State.takePorts_flights (l : List Reg) (s : State) (c : CoreIx) : (s.takePorts c l).flights = s.flights := by
  induction l generalizing s with
  | nil => rfl
  | cons x r ih => cases x <;> simp [State.takePorts, ih]
@[simp] theorem State.takePorts_occupancy (l : List Reg) (s : State) (c : CoreIx) : (s.takePorts c l).occupancy = s.occupancy := by
  induction l generalizing s with
  | nil => rfl
  | cons x r ih => cases x <;> simp [State.takePorts, ih]
@[simp] theorem State.takePorts_sampled (l : List Reg) (s : State) (c : CoreIx) : (s.takePorts c l).sampled = s.sampled := by
  induction l generalizing s with
  | nil => rfl
  | cons x r ih => cases x <;> simp [State.takePorts, ih]
@[simp] theorem State.takePorts_pools (l : List Reg) (s : State) (c : CoreIx) : (s.takePorts c l).pools = s.pools := by
  induction l generalizing s with
  | nil => rfl
  | cons x r ih => cases x <;> simp [State.takePorts, ih]
@[simp] theorem State.takePorts_subs (l : List Reg) (s : State) (c : CoreIx) : (s.takePorts c l).subs = s.subs := by
  induction l generalizing s with
  | nil => rfl
  | cons x r ih => cases x <;> simp [State.takePorts, ih]
@[simp] theorem State.takePorts_lost (l : List Reg) (s : State) (c : CoreIx) : (s.takePorts c l).lost = s.lost := by
  induction l generalizing s with
  | nil => rfl
  | cons x r ih => cases x <;> simp [State.takePorts, ih]
@[simp] theorem State.takePorts_rotations (l : List Reg) (s : State) (c : CoreIx) : (s.takePorts c l).rotations = s.rotations := by
  induction l generalizing s with
  | nil => rfl
  | cons x r ih => cases x <;> simp [State.takePorts, ih]
@[simp] theorem State.takePorts_saves (l : List Reg) (s : State) (c : CoreIx) : (s.takePorts c l).saves = s.saves := by
  induction l generalizing s with
  | nil => rfl
  | cons x r ih => cases x <;> simp [State.takePorts, ih]
@[simp] theorem State.takePorts_owner (l : List Reg) (s : State) (c : CoreIx) : (s.takePorts c l).owner = s.owner := by
  induction l generalizing s with
  | nil => rfl
  | cons x r ih => cases x <;> simp [State.takePorts, ih]
@[simp] theorem State.takePorts_ready (l : List Reg) (s : State) (c : CoreIx) : (s.takePorts c l).ready = s.ready := by
  induction l generalizing s with
  | nil => rfl
  | cons x r ih => cases x <;> simp [State.takePorts, ih]
@[simp] theorem State.takePorts_mboxStamp (l : List Reg) (s : State) (c : CoreIx) : (s.takePorts c l).mboxStamp = s.mboxStamp := by
  induction l generalizing s with
  | nil => rfl
  | cons x r ih => cases x <;> simp [State.takePorts, ih]
@[simp] theorem State.takePorts_mboxStatus (l : List Reg) (s : State) (c : CoreIx) : (s.takePorts c l).mboxStatus = s.mboxStatus := by
  induction l generalizing s with
  | nil => rfl
  | cons x r ih => cases x <;> simp [State.takePorts, ih]
@[simp] theorem State.takePorts_mboxBusy (l : List Reg) (s : State) (c : CoreIx) : (s.takePorts c l).mboxBusy = s.mboxBusy := by
  induction l generalizing s with
  | nil => rfl
  | cons x r ih => cases x <;> simp [State.takePorts, ih]
@[simp] theorem State.takePorts_mboxWait (l : List Reg) (s : State) (c : CoreIx) : (s.takePorts c l).mboxWait = s.mboxWait := by
  induction l generalizing s with
  | nil => rfl
  | cons x r ih => cases x <;> simp [State.takePorts, ih]
@[simp] theorem State.takePorts_fns (l : List Reg) (s : State) (c : CoreIx) : (s.takePorts c l).fns = s.fns := by
  induction l generalizing s with
  | nil => rfl
  | cons x r ih => cases x <;> simp [State.takePorts, ih]
@[simp] theorem State.takePorts_attached (l : List Reg) (s : State) (c : CoreIx) : (s.takePorts c l).attached = s.attached := by
  induction l generalizing s with
  | nil => rfl
  | cons x r ih => cases x <;> simp [State.takePorts, ih]
@[simp] theorem State.takePorts_monitors (l : List Reg) (s : State) (c : CoreIx) : (s.takePorts c l).monitors = s.monitors := by
  induction l generalizing s with
  | nil => rfl
  | cons x r ih => cases x <;> simp [State.takePorts, ih]
@[simp] theorem State.takePorts_measures (l : List Reg) (s : State) (c : CoreIx) : (s.takePorts c l).measures = s.measures := by
  induction l generalizing s with
  | nil => rfl
  | cons x r ih => cases x <;> simp [State.takePorts, ih]
@[simp] theorem State.takePorts_channels (l : List Reg) (s : State) (c : CoreIx) : (s.takePorts c l).channels = s.channels := by
  induction l generalizing s with
  | nil => rfl
  | cons x r ih => cases x <;> simp [State.takePorts, ih]
@[simp] theorem State.takePorts_spdmStage (l : List Reg) (s : State) (c : CoreIx) : (s.takePorts c l).spdmStage = s.spdmStage := by
  induction l generalizing s with
  | nil => rfl
  | cons x r ih => cases x <;> simp [State.takePorts, ih]
@[simp] theorem State.takePorts_spdmTrans (l : List Reg) (s : State) (c : CoreIx) : (s.takePorts c l).spdmTrans = s.spdmTrans := by
  induction l generalizing s with
  | nil => rfl
  | cons x r ih => cases x <;> simp [State.takePorts, ih]
@[simp] theorem State.takePorts_gated (l : List Reg) (s : State) (c : CoreIx) : (s.takePorts c l).gated = s.gated := by
  induction l generalizing s with
  | nil => rfl
  | cons x r ih => cases x <;> simp [State.takePorts, ih]
@[simp] theorem State.takePorts_stamped (l : List Reg) (s : State) (c : CoreIx) : (s.takePorts c l).stamped = s.stamped := by
  induction l generalizing s with
  | nil => rfl
  | cons x r ih => cases x <;> simp [State.takePorts, ih]
@[simp] theorem State.takePorts_throttled (l : List Reg) (s : State) (c : CoreIx) : (s.takePorts c l).throttled = s.throttled := by
  induction l generalizing s with
  | nil => rfl
  | cons x r ih => cases x <;> simp [State.takePorts, ih]
@[simp] theorem State.takePorts_out (l : List Reg) (s : State) (c : CoreIx) : (s.takePorts c l).out = s.out := by
  induction l generalizing s with
  | nil => rfl
  | cons x r ih => cases x <;> simp [State.takePorts, ih]
@[simp] theorem State.writeReg_tc (s : State) (r : Reg) (v : Word) : (s.writeReg r v).tc = s.tc := by cases r <;> simp [State.writeReg]
@[simp] theorem State.writeReg_seq (s : State) (r : Reg) (v : Word) : (s.writeReg r v).seq = s.seq := by cases r <;> simp [State.writeReg]
@[simp] theorem State.writeReg_hold (s : State) (r : Reg) (v : Word) : (s.writeReg r v).hold = s.hold := by cases r <;> simp [State.writeReg]
@[simp] theorem State.writeReg_cursor (s : State) (r : Reg) (v : Word) : (s.writeReg r v).cursor = s.cursor := by cases r <;> simp [State.writeReg]
@[simp] theorem State.writeReg_cur (s : State) (r : Reg) (v : Word) : (s.writeReg r v).cur = s.cur := by cases r <;> simp [State.writeReg]
@[simp] theorem State.writeReg_pipe (s : State) (r : Reg) (v : Word) : (s.writeReg r v).pipe = s.pipe := by cases r <;> simp [State.writeReg]
@[simp] theorem State.writeReg_arg (s : State) (r : Reg) (v : Word) : (s.writeReg r v).arg = s.arg := by cases r <;> simp [State.writeReg]
@[simp] theorem State.writeReg_stall (s : State) (r : Reg) (v : Word) : (s.writeReg r v).stall = s.stall := by cases r <;> simp [State.writeReg]
@[simp] theorem State.writeReg_urgent (s : State) (r : Reg) (v : Word) : (s.writeReg r v).urgent = s.urgent := by cases r <;> simp [State.writeReg]
@[simp] theorem State.writeReg_agenda (s : State) (r : Reg) (v : Word) : (s.writeReg r v).agenda = s.agenda := by cases r <;> simp [State.writeReg]
@[simp] theorem State.writeReg_hbm (s : State) (r : Reg) (v : Word) : (s.writeReg r v).hbm = s.hbm := by cases r <;> simp [State.writeReg]
@[simp] theorem State.writeReg_lines (s : State) (r : Reg) (v : Word) : (s.writeReg r v).lines = s.lines := by cases r <;> simp [State.writeReg]
@[simp] theorem State.writeReg_spares (s : State) (r : Reg) (v : Word) : (s.writeReg r v).spares = s.spares := by cases r <;> simp [State.writeReg]
@[simp] theorem State.writeReg_keys (s : State) (r : Reg) (v : Word) : (s.writeReg r v).keys = s.keys := by cases r <;> simp [State.writeReg]
@[simp] theorem State.writeReg_worldTable (s : State) (r : Reg) (v : Word) : (s.writeReg r v).worldTable = s.worldTable := by cases r <;> simp [State.writeReg]
@[simp] theorem State.writeReg_pinned (s : State) (r : Reg) (v : Word) : (s.writeReg r v).pinned = s.pinned := by cases r <;> simp [State.writeReg]
@[simp] theorem State.writeReg_walks (s : State) (r : Reg) (v : Word) : (s.writeReg r v).walks = s.walks := by cases r <;> simp [State.writeReg]
@[simp] theorem State.writeReg_ctlbs (s : State) (r : Reg) (v : Word) : (s.writeReg r v).ctlbs = s.ctlbs := by cases r <;> simp [State.writeReg]
@[simp] theorem State.writeReg_records (s : State) (r : Reg) (v : Word) : (s.writeReg r v).records = s.records := by cases r <;> simp [State.writeReg]
@[simp] theorem State.writeReg_patrols (s : State) (r : Reg) (v : Word) : (s.writeReg r v).patrols = s.patrols := by cases r <;> simp [State.writeReg]
@[simp] theorem State.writeReg_retire (s : State) (r : Reg) (v : Word) : (s.writeReg r v).retire = s.retire := by cases r <;> simp [State.writeReg]
@[simp] theorem State.writeReg_slices (s : State) (r : Reg) (v : Word) : (s.writeReg r v).slices = s.slices := by cases r <;> simp [State.writeReg]
@[simp] theorem State.writeReg_dirs (s : State) (r : Reg) (v : Word) : (s.writeReg r v).dirs = s.dirs := by cases r <;> simp [State.writeReg]
@[simp] theorem State.writeReg_overs (s : State) (r : Reg) (v : Word) : (s.writeReg r v).overs = s.overs := by cases r <;> simp [State.writeReg]
@[simp] theorem State.writeReg_spillFills (s : State) (r : Reg) (v : Word) : (s.writeReg r v).spillFills = s.spillFills := by cases r <;> simp [State.writeReg]
@[simp] theorem State.writeReg_spillInvs (s : State) (r : Reg) (v : Word) : (s.writeReg r v).spillInvs = s.spillInvs := by cases r <;> simp [State.writeReg]
@[simp] theorem State.writeReg_rdcs (s : State) (r : Reg) (v : Word) : (s.writeReg r v).rdcs = s.rdcs := by cases r <;> simp [State.writeReg]
@[simp] theorem State.writeReg_l2ctl (s : State) (r : Reg) (v : Word) : (s.writeReg r v).l2ctl = s.l2ctl := by cases r <;> simp [State.writeReg]
@[simp] theorem State.writeReg_quars (s : State) (r : Reg) (v : Word) : (s.writeReg r v).quars = s.quars := by cases r <;> simp [State.writeReg]
@[simp] theorem State.writeReg_rdcQuars (s : State) (r : Reg) (v : Word) : (s.writeReg r v).rdcQuars = s.rdcQuars := by cases r <;> simp [State.writeReg]
@[simp] theorem State.writeReg_wayErrs (s : State) (r : Reg) (v : Word) : (s.writeReg r v).wayErrs = s.wayErrs := by cases r <;> simp [State.writeReg]
@[simp] theorem State.writeReg_dramErr (s : State) (r : Reg) (v : Word) : (s.writeReg r v).dramErr = s.dramErr := by cases r <;> simp [State.writeReg]
@[simp] theorem State.writeReg_locErr (s : State) (r : Reg) (v : Word) : (s.writeReg r v).locErr = s.locErr := by cases r <;> simp [State.writeReg]
@[simp] theorem State.writeReg_held (s : State) (r : Reg) (v : Word) : (s.writeReg r v).held = s.held := by cases r <;> simp [State.writeReg]
@[simp] theorem State.writeReg_claims (s : State) (r : Reg) (v : Word) : (s.writeReg r v).claims = s.claims := by cases r <;> simp [State.writeReg]
@[simp] theorem State.writeReg_lrws (s : State) (r : Reg) (v : Word) : (s.writeReg r v).lrws = s.lrws := by cases r <;> simp [State.writeReg]
@[simp] theorem State.writeReg_rupds (s : State) (r : Reg) (v : Word) : (s.writeReg r v).rupds = s.rupds := by cases r <;> simp [State.writeReg]
@[simp] theorem State.writeReg_layout (s : State) (r : Reg) (v : Word) : (s.writeReg r v).layout = s.layout := by cases r <;> simp [State.writeReg]
@[simp] theorem State.writeReg_locked (s : State) (r : Reg) (v : Word) : (s.writeReg r v).locked = s.locked := by cases r <;> simp [State.writeReg]
@[simp] theorem State.writeReg_scrubs (s : State) (r : Reg) (v : Word) : (s.writeReg r v).scrubs = s.scrubs := by cases r <;> simp [State.writeReg]
@[simp] theorem State.writeReg_destroying (s : State) (r : Reg) (v : Word) : (s.writeReg r v).destroying = s.destroying := by cases r <;> simp [State.writeReg]
@[simp] theorem State.writeReg_regions (s : State) (r : Reg) (v : Word) : (s.writeReg r v).regions = s.regions := by cases r <;> simp [State.writeReg]
@[simp] theorem State.writeReg_nextRegion (s : State) (r : Reg) (v : Word) : (s.writeReg r v).nextRegion = s.nextRegion := by cases r <;> simp [State.writeReg]
@[simp] theorem State.writeReg_ancestry (s : State) (r : Reg) (v : Word) : (s.writeReg r v).ancestry = s.ancestry := by cases r <;> simp [State.writeReg]
@[simp] theorem State.writeReg_launches (s : State) (r : Reg) (v : Word) : (s.writeReg r v).launches = s.launches := by cases r <;> simp [State.writeReg]
@[simp] theorem State.writeReg_translator (s : State) (r : Reg) (v : Word) : (s.writeReg r v).translator = s.translator := by cases r <;> simp [State.writeReg]
@[simp] theorem State.writeReg_admitting (s : State) (r : Reg) (v : Word) : (s.writeReg r v).admitting = s.admitting := by cases r <;> simp [State.writeReg]
@[simp] theorem State.writeReg_cacheSpoilt (s : State) (r : Reg) (v : Word) : (s.writeReg r v).cacheSpoilt = s.cacheSpoilt := by cases r <;> simp [State.writeReg]
@[simp] theorem State.writeReg_dispatchers (s : State) (r : Reg) (v : Word) : (s.writeReg r v).dispatchers = s.dispatchers := by cases r <;> simp [State.writeReg]
@[simp] theorem State.writeReg_weirs (s : State) (r : Reg) (v : Word) : (s.writeReg r v).weirs = s.weirs := by cases r <;> simp [State.writeReg]
@[simp] theorem State.writeReg_gangs (s : State) (r : Reg) (v : Word) : (s.writeReg r v).gangs = s.gangs := by cases r <;> simp [State.writeReg]
@[simp] theorem State.writeReg_flights (s : State) (r : Reg) (v : Word) : (s.writeReg r v).flights = s.flights := by cases r <;> simp [State.writeReg]
@[simp] theorem State.writeReg_occupancy (s : State) (r : Reg) (v : Word) : (s.writeReg r v).occupancy = s.occupancy := by cases r <;> simp [State.writeReg]
@[simp] theorem State.writeReg_sampled (s : State) (r : Reg) (v : Word) : (s.writeReg r v).sampled = s.sampled := by cases r <;> simp [State.writeReg]
@[simp] theorem State.writeReg_pools (s : State) (r : Reg) (v : Word) : (s.writeReg r v).pools = s.pools := by cases r <;> simp [State.writeReg]
@[simp] theorem State.writeReg_subs (s : State) (r : Reg) (v : Word) : (s.writeReg r v).subs = s.subs := by cases r <;> simp [State.writeReg]
@[simp] theorem State.writeReg_lost (s : State) (r : Reg) (v : Word) : (s.writeReg r v).lost = s.lost := by cases r <;> simp [State.writeReg]
@[simp] theorem State.writeReg_rotations (s : State) (r : Reg) (v : Word) : (s.writeReg r v).rotations = s.rotations := by cases r <;> simp [State.writeReg]
@[simp] theorem State.writeReg_saves (s : State) (r : Reg) (v : Word) : (s.writeReg r v).saves = s.saves := by cases r <;> simp [State.writeReg]
@[simp] theorem State.writeReg_owner (s : State) (r : Reg) (v : Word) : (s.writeReg r v).owner = s.owner := by cases r <;> simp [State.writeReg]
@[simp] theorem State.writeReg_ready (s : State) (r : Reg) (v : Word) : (s.writeReg r v).ready = s.ready := by cases r <;> simp [State.writeReg]
@[simp] theorem State.writeReg_mboxStamp (s : State) (r : Reg) (v : Word) : (s.writeReg r v).mboxStamp = s.mboxStamp := by cases r <;> simp [State.writeReg]
@[simp] theorem State.writeReg_mboxStatus (s : State) (r : Reg) (v : Word) : (s.writeReg r v).mboxStatus = s.mboxStatus := by cases r <;> simp [State.writeReg]
@[simp] theorem State.writeReg_mboxBusy (s : State) (r : Reg) (v : Word) : (s.writeReg r v).mboxBusy = s.mboxBusy := by cases r <;> simp [State.writeReg]
@[simp] theorem State.writeReg_mboxWait (s : State) (r : Reg) (v : Word) : (s.writeReg r v).mboxWait = s.mboxWait := by cases r <;> simp [State.writeReg]
@[simp] theorem State.writeReg_fns (s : State) (r : Reg) (v : Word) : (s.writeReg r v).fns = s.fns := by cases r <;> simp [State.writeReg]
@[simp] theorem State.writeReg_attached (s : State) (r : Reg) (v : Word) : (s.writeReg r v).attached = s.attached := by cases r <;> simp [State.writeReg]
@[simp] theorem State.writeReg_monitors (s : State) (r : Reg) (v : Word) : (s.writeReg r v).monitors = s.monitors := by cases r <;> simp [State.writeReg]
@[simp] theorem State.writeReg_measures (s : State) (r : Reg) (v : Word) : (s.writeReg r v).measures = s.measures := by cases r <;> simp [State.writeReg]
@[simp] theorem State.writeReg_channels (s : State) (r : Reg) (v : Word) : (s.writeReg r v).channels = s.channels := by cases r <;> simp [State.writeReg]
@[simp] theorem State.writeReg_spdmStage (s : State) (r : Reg) (v : Word) : (s.writeReg r v).spdmStage = s.spdmStage := by cases r <;> simp [State.writeReg]
@[simp] theorem State.writeReg_spdmTrans (s : State) (r : Reg) (v : Word) : (s.writeReg r v).spdmTrans = s.spdmTrans := by cases r <;> simp [State.writeReg]
@[simp] theorem State.writeReg_gated (s : State) (r : Reg) (v : Word) : (s.writeReg r v).gated = s.gated := by cases r <;> simp [State.writeReg]
@[simp] theorem State.writeReg_stamped (s : State) (r : Reg) (v : Word) : (s.writeReg r v).stamped = s.stamped := by cases r <;> simp [State.writeReg]
@[simp] theorem State.writeReg_throttled (s : State) (r : Reg) (v : Word) : (s.writeReg r v).throttled = s.throttled := by cases r <;> simp [State.writeReg]
@[simp] theorem State.writeReg_out (s : State) (r : Reg) (v : Word) : (s.writeReg r v).out = s.out := by cases r <;> simp [State.writeReg]

/-! ### State.spend, State.askWalk -/

@[simp] theorem State.spend_tc (s : State) (st : Stamp) : (s.spend st).tc = s.tc := rfl
@[simp] theorem State.mint_tc (s : State) (src : Nat) : (s.mint src).2.tc = s.tc := rfl
@[simp] theorem State.spend_seq (s : State) (st : Stamp) : (s.spend st).seq = s.seq := rfl
@[simp] theorem State.mint_seq (s : State) (src : Nat) : (s.mint src).2.seq = s.seq := rfl
@[simp] theorem State.spend_hold (s : State) (st : Stamp) : (s.spend st).hold = s.hold := rfl
@[simp] theorem State.mint_hold (s : State) (src : Nat) : (s.mint src).2.hold = s.hold := rfl
@[simp] theorem State.spend_cursor (s : State) (st : Stamp) : (s.spend st).cursor = s.cursor := rfl
@[simp] theorem State.mint_cursor (s : State) (src : Nat) : (s.mint src).2.cursor = s.cursor := rfl
@[simp] theorem State.spend_cur (s : State) (st : Stamp) : (s.spend st).cur = s.cur := rfl
@[simp] theorem State.mint_cur (s : State) (src : Nat) : (s.mint src).2.cur = s.cur := rfl
@[simp] theorem State.spend_pipe (s : State) (st : Stamp) : (s.spend st).pipe = s.pipe := rfl
@[simp] theorem State.mint_pipe (s : State) (src : Nat) : (s.mint src).2.pipe = s.pipe := rfl
@[simp] theorem State.spend_arg (s : State) (st : Stamp) : (s.spend st).arg = s.arg := rfl
@[simp] theorem State.mint_arg (s : State) (src : Nat) : (s.mint src).2.arg = s.arg := rfl
@[simp] theorem State.spend_stall (s : State) (st : Stamp) : (s.spend st).stall = s.stall := rfl
@[simp] theorem State.mint_stall (s : State) (src : Nat) : (s.mint src).2.stall = s.stall := rfl
@[simp] theorem State.spend_urgent (s : State) (st : Stamp) : (s.spend st).urgent = s.urgent := rfl
@[simp] theorem State.mint_urgent (s : State) (src : Nat) : (s.mint src).2.urgent = s.urgent := rfl
@[simp] theorem State.spend_agenda (s : State) (st : Stamp) : (s.spend st).agenda = s.agenda := rfl
@[simp] theorem State.mint_agenda (s : State) (src : Nat) : (s.mint src).2.agenda = s.agenda := rfl
@[simp] theorem State.spend_cores (s : State) (st : Stamp) : (s.spend st).cores = s.cores := rfl
@[simp] theorem State.mint_cores (s : State) (src : Nat) : (s.mint src).2.cores = s.cores := rfl
@[simp] theorem State.spend_hbm (s : State) (st : Stamp) : (s.spend st).hbm = s.hbm := rfl
@[simp] theorem State.mint_hbm (s : State) (src : Nat) : (s.mint src).2.hbm = s.hbm := rfl
@[simp] theorem State.spend_lines (s : State) (st : Stamp) : (s.spend st).lines = s.lines := rfl
@[simp] theorem State.mint_lines (s : State) (src : Nat) : (s.mint src).2.lines = s.lines := rfl
@[simp] theorem State.spend_spares (s : State) (st : Stamp) : (s.spend st).spares = s.spares := rfl
@[simp] theorem State.mint_spares (s : State) (src : Nat) : (s.mint src).2.spares = s.spares := rfl
@[simp] theorem State.spend_keys (s : State) (st : Stamp) : (s.spend st).keys = s.keys := rfl
@[simp] theorem State.mint_keys (s : State) (src : Nat) : (s.mint src).2.keys = s.keys := rfl
@[simp] theorem State.spend_worldTable (s : State) (st : Stamp) : (s.spend st).worldTable = s.worldTable := rfl
@[simp] theorem State.mint_worldTable (s : State) (src : Nat) : (s.mint src).2.worldTable = s.worldTable := rfl
@[simp] theorem State.spend_pinned (s : State) (st : Stamp) : (s.spend st).pinned = s.pinned := rfl
@[simp] theorem State.mint_pinned (s : State) (src : Nat) : (s.mint src).2.pinned = s.pinned := rfl
@[simp] theorem State.spend_walks (s : State) (st : Stamp) : (s.spend st).walks = s.walks := rfl
@[simp] theorem State.mint_walks (s : State) (src : Nat) : (s.mint src).2.walks = s.walks := rfl
@[simp] theorem State.spend_ctlbs (s : State) (st : Stamp) : (s.spend st).ctlbs = s.ctlbs := rfl
@[simp] theorem State.mint_ctlbs (s : State) (src : Nat) : (s.mint src).2.ctlbs = s.ctlbs := rfl
@[simp] theorem State.spend_records (s : State) (st : Stamp) : (s.spend st).records = s.records := rfl
@[simp] theorem State.mint_records (s : State) (src : Nat) : (s.mint src).2.records = s.records := rfl
@[simp] theorem State.spend_patrols (s : State) (st : Stamp) : (s.spend st).patrols = s.patrols := rfl
@[simp] theorem State.mint_patrols (s : State) (src : Nat) : (s.mint src).2.patrols = s.patrols := rfl
@[simp] theorem State.spend_retire (s : State) (st : Stamp) : (s.spend st).retire = s.retire := rfl
@[simp] theorem State.mint_retire (s : State) (src : Nat) : (s.mint src).2.retire = s.retire := rfl
@[simp] theorem State.spend_slices (s : State) (st : Stamp) : (s.spend st).slices = s.slices := rfl
@[simp] theorem State.mint_slices (s : State) (src : Nat) : (s.mint src).2.slices = s.slices := rfl
@[simp] theorem State.spend_dirs (s : State) (st : Stamp) : (s.spend st).dirs = s.dirs := rfl
@[simp] theorem State.mint_dirs (s : State) (src : Nat) : (s.mint src).2.dirs = s.dirs := rfl
@[simp] theorem State.spend_overs (s : State) (st : Stamp) : (s.spend st).overs = s.overs := rfl
@[simp] theorem State.mint_overs (s : State) (src : Nat) : (s.mint src).2.overs = s.overs := rfl
@[simp] theorem State.spend_spillFills (s : State) (st : Stamp) : (s.spend st).spillFills = s.spillFills := rfl
@[simp] theorem State.mint_spillFills (s : State) (src : Nat) : (s.mint src).2.spillFills = s.spillFills := rfl
@[simp] theorem State.spend_spillInvs (s : State) (st : Stamp) : (s.spend st).spillInvs = s.spillInvs := rfl
@[simp] theorem State.mint_spillInvs (s : State) (src : Nat) : (s.mint src).2.spillInvs = s.spillInvs := rfl
@[simp] theorem State.spend_rdcs (s : State) (st : Stamp) : (s.spend st).rdcs = s.rdcs := rfl
@[simp] theorem State.mint_rdcs (s : State) (src : Nat) : (s.mint src).2.rdcs = s.rdcs := rfl
@[simp] theorem State.spend_l2ctl (s : State) (st : Stamp) : (s.spend st).l2ctl = s.l2ctl := rfl
@[simp] theorem State.mint_l2ctl (s : State) (src : Nat) : (s.mint src).2.l2ctl = s.l2ctl := rfl
@[simp] theorem State.spend_quars (s : State) (st : Stamp) : (s.spend st).quars = s.quars := rfl
@[simp] theorem State.mint_quars (s : State) (src : Nat) : (s.mint src).2.quars = s.quars := rfl
@[simp] theorem State.spend_rdcQuars (s : State) (st : Stamp) : (s.spend st).rdcQuars = s.rdcQuars := rfl
@[simp] theorem State.mint_rdcQuars (s : State) (src : Nat) : (s.mint src).2.rdcQuars = s.rdcQuars := rfl
@[simp] theorem State.spend_wayErrs (s : State) (st : Stamp) : (s.spend st).wayErrs = s.wayErrs := rfl
@[simp] theorem State.mint_wayErrs (s : State) (src : Nat) : (s.mint src).2.wayErrs = s.wayErrs := rfl
@[simp] theorem State.spend_dramErr (s : State) (st : Stamp) : (s.spend st).dramErr = s.dramErr := rfl
@[simp] theorem State.mint_dramErr (s : State) (src : Nat) : (s.mint src).2.dramErr = s.dramErr := rfl
@[simp] theorem State.spend_locErr (s : State) (st : Stamp) : (s.spend st).locErr = s.locErr := rfl
@[simp] theorem State.mint_locErr (s : State) (src : Nat) : (s.mint src).2.locErr = s.locErr := rfl
@[simp] theorem State.spend_held (s : State) (st : Stamp) : (s.spend st).held = s.held := rfl
@[simp] theorem State.mint_held (s : State) (src : Nat) : (s.mint src).2.held = s.held := rfl
@[simp] theorem State.spend_claims (s : State) (st : Stamp) : (s.spend st).claims = s.claims := rfl
@[simp] theorem State.mint_claims (s : State) (src : Nat) : (s.mint src).2.claims = s.claims := rfl
@[simp] theorem State.spend_lrws (s : State) (st : Stamp) : (s.spend st).lrws = s.lrws := rfl
@[simp] theorem State.mint_lrws (s : State) (src : Nat) : (s.mint src).2.lrws = s.lrws := rfl
@[simp] theorem State.spend_rupds (s : State) (st : Stamp) : (s.spend st).rupds = s.rupds := rfl
@[simp] theorem State.mint_rupds (s : State) (src : Nat) : (s.mint src).2.rupds = s.rupds := rfl
@[simp] theorem State.spend_layout (s : State) (st : Stamp) : (s.spend st).layout = s.layout := rfl
@[simp] theorem State.mint_layout (s : State) (src : Nat) : (s.mint src).2.layout = s.layout := rfl
@[simp] theorem State.spend_locked (s : State) (st : Stamp) : (s.spend st).locked = s.locked := rfl
@[simp] theorem State.mint_locked (s : State) (src : Nat) : (s.mint src).2.locked = s.locked := rfl
@[simp] theorem State.spend_scrubs (s : State) (st : Stamp) : (s.spend st).scrubs = s.scrubs := rfl
@[simp] theorem State.mint_scrubs (s : State) (src : Nat) : (s.mint src).2.scrubs = s.scrubs := rfl
@[simp] theorem State.spend_destroying (s : State) (st : Stamp) : (s.spend st).destroying = s.destroying := rfl
@[simp] theorem State.mint_destroying (s : State) (src : Nat) : (s.mint src).2.destroying = s.destroying := rfl
@[simp] theorem State.spend_regions (s : State) (st : Stamp) : (s.spend st).regions = s.regions := rfl
@[simp] theorem State.mint_regions (s : State) (src : Nat) : (s.mint src).2.regions = s.regions := rfl
@[simp] theorem State.spend_nextRegion (s : State) (st : Stamp) : (s.spend st).nextRegion = s.nextRegion := rfl
@[simp] theorem State.mint_nextRegion (s : State) (src : Nat) : (s.mint src).2.nextRegion = s.nextRegion := rfl
@[simp] theorem State.spend_ancestry (s : State) (st : Stamp) : (s.spend st).ancestry = s.ancestry := rfl
@[simp] theorem State.mint_ancestry (s : State) (src : Nat) : (s.mint src).2.ancestry = s.ancestry := rfl
@[simp] theorem State.spend_launches (s : State) (st : Stamp) : (s.spend st).launches = s.launches := rfl
@[simp] theorem State.mint_launches (s : State) (src : Nat) : (s.mint src).2.launches = s.launches := rfl
@[simp] theorem State.spend_translator (s : State) (st : Stamp) : (s.spend st).translator = s.translator := rfl
@[simp] theorem State.mint_translator (s : State) (src : Nat) : (s.mint src).2.translator = s.translator := rfl
@[simp] theorem State.spend_admitting (s : State) (st : Stamp) : (s.spend st).admitting = s.admitting := rfl
@[simp] theorem State.mint_admitting (s : State) (src : Nat) : (s.mint src).2.admitting = s.admitting := rfl
@[simp] theorem State.spend_cacheSpoilt (s : State) (st : Stamp) : (s.spend st).cacheSpoilt = s.cacheSpoilt := rfl
@[simp] theorem State.mint_cacheSpoilt (s : State) (src : Nat) : (s.mint src).2.cacheSpoilt = s.cacheSpoilt := rfl
@[simp] theorem State.spend_dispatchers (s : State) (st : Stamp) : (s.spend st).dispatchers = s.dispatchers := rfl
@[simp] theorem State.mint_dispatchers (s : State) (src : Nat) : (s.mint src).2.dispatchers = s.dispatchers := rfl
@[simp] theorem State.spend_weirs (s : State) (st : Stamp) : (s.spend st).weirs = s.weirs := rfl
@[simp] theorem State.mint_weirs (s : State) (src : Nat) : (s.mint src).2.weirs = s.weirs := rfl
@[simp] theorem State.spend_gangs (s : State) (st : Stamp) : (s.spend st).gangs = s.gangs := rfl
@[simp] theorem State.mint_gangs (s : State) (src : Nat) : (s.mint src).2.gangs = s.gangs := rfl
@[simp] theorem State.spend_flights (s : State) (st : Stamp) : (s.spend st).flights = s.flights := rfl
@[simp] theorem State.mint_flights (s : State) (src : Nat) : (s.mint src).2.flights = s.flights := rfl
@[simp] theorem State.spend_occupancy (s : State) (st : Stamp) : (s.spend st).occupancy = s.occupancy := rfl
@[simp] theorem State.mint_occupancy (s : State) (src : Nat) : (s.mint src).2.occupancy = s.occupancy := rfl
@[simp] theorem State.spend_sampled (s : State) (st : Stamp) : (s.spend st).sampled = s.sampled := rfl
@[simp] theorem State.mint_sampled (s : State) (src : Nat) : (s.mint src).2.sampled = s.sampled := rfl
@[simp] theorem State.spend_pools (s : State) (st : Stamp) : (s.spend st).pools = s.pools := rfl
@[simp] theorem State.mint_pools (s : State) (src : Nat) : (s.mint src).2.pools = s.pools := rfl
@[simp] theorem State.spend_subs (s : State) (st : Stamp) : (s.spend st).subs = s.subs := rfl
@[simp] theorem State.mint_subs (s : State) (src : Nat) : (s.mint src).2.subs = s.subs := rfl
@[simp] theorem State.spend_lost (s : State) (st : Stamp) : (s.spend st).lost = s.lost := rfl
@[simp] theorem State.mint_lost (s : State) (src : Nat) : (s.mint src).2.lost = s.lost := rfl
@[simp] theorem State.spend_rotations (s : State) (st : Stamp) : (s.spend st).rotations = s.rotations := rfl
@[simp] theorem State.mint_rotations (s : State) (src : Nat) : (s.mint src).2.rotations = s.rotations := rfl
@[simp] theorem State.spend_saves (s : State) (st : Stamp) : (s.spend st).saves = s.saves := rfl
@[simp] theorem State.mint_saves (s : State) (src : Nat) : (s.mint src).2.saves = s.saves := rfl
@[simp] theorem State.spend_owner (s : State) (st : Stamp) : (s.spend st).owner = s.owner := rfl
@[simp] theorem State.mint_owner (s : State) (src : Nat) : (s.mint src).2.owner = s.owner := rfl
@[simp] theorem State.spend_ready (s : State) (st : Stamp) : (s.spend st).ready = s.ready := rfl
@[simp] theorem State.mint_ready (s : State) (src : Nat) : (s.mint src).2.ready = s.ready := rfl
@[simp] theorem State.spend_mboxStamp (s : State) (st : Stamp) : (s.spend st).mboxStamp = s.mboxStamp := rfl
@[simp] theorem State.mint_mboxStamp (s : State) (src : Nat) : (s.mint src).2.mboxStamp = s.mboxStamp := rfl
@[simp] theorem State.spend_mboxStatus (s : State) (st : Stamp) : (s.spend st).mboxStatus = s.mboxStatus := rfl
@[simp] theorem State.mint_mboxStatus (s : State) (src : Nat) : (s.mint src).2.mboxStatus = s.mboxStatus := rfl
@[simp] theorem State.spend_mboxBusy (s : State) (st : Stamp) : (s.spend st).mboxBusy = s.mboxBusy := rfl
@[simp] theorem State.mint_mboxBusy (s : State) (src : Nat) : (s.mint src).2.mboxBusy = s.mboxBusy := rfl
@[simp] theorem State.spend_mboxWait (s : State) (st : Stamp) : (s.spend st).mboxWait = s.mboxWait := rfl
@[simp] theorem State.mint_mboxWait (s : State) (src : Nat) : (s.mint src).2.mboxWait = s.mboxWait := rfl
@[simp] theorem State.spend_fns (s : State) (st : Stamp) : (s.spend st).fns = s.fns := rfl
@[simp] theorem State.mint_fns (s : State) (src : Nat) : (s.mint src).2.fns = s.fns := rfl
@[simp] theorem State.spend_attached (s : State) (st : Stamp) : (s.spend st).attached = s.attached := rfl
@[simp] theorem State.mint_attached (s : State) (src : Nat) : (s.mint src).2.attached = s.attached := rfl
@[simp] theorem State.spend_monitors (s : State) (st : Stamp) : (s.spend st).monitors = s.monitors := rfl
@[simp] theorem State.mint_monitors (s : State) (src : Nat) : (s.mint src).2.monitors = s.monitors := rfl
@[simp] theorem State.spend_measures (s : State) (st : Stamp) : (s.spend st).measures = s.measures := rfl
@[simp] theorem State.mint_measures (s : State) (src : Nat) : (s.mint src).2.measures = s.measures := rfl
@[simp] theorem State.spend_channels (s : State) (st : Stamp) : (s.spend st).channels = s.channels := rfl
@[simp] theorem State.mint_channels (s : State) (src : Nat) : (s.mint src).2.channels = s.channels := rfl
@[simp] theorem State.spend_spdmStage (s : State) (st : Stamp) : (s.spend st).spdmStage = s.spdmStage := rfl
@[simp] theorem State.mint_spdmStage (s : State) (src : Nat) : (s.mint src).2.spdmStage = s.spdmStage := rfl
@[simp] theorem State.spend_spdmTrans (s : State) (st : Stamp) : (s.spend st).spdmTrans = s.spdmTrans := rfl
@[simp] theorem State.mint_spdmTrans (s : State) (src : Nat) : (s.mint src).2.spdmTrans = s.spdmTrans := rfl
@[simp] theorem State.spend_gated (s : State) (st : Stamp) : (s.spend st).gated = s.gated := rfl
@[simp] theorem State.mint_gated (s : State) (src : Nat) : (s.mint src).2.gated = s.gated := rfl
@[simp] theorem State.spend_throttled (s : State) (st : Stamp) : (s.spend st).throttled = s.throttled := rfl
@[simp] theorem State.mint_throttled (s : State) (src : Nat) : (s.mint src).2.throttled = s.throttled := rfl
@[simp] theorem State.spend_out (s : State) (st : Stamp) : (s.spend st).out = s.out := rfl
@[simp] theorem State.mint_out (s : State) (src : Nat) : (s.mint src).2.out = s.out := rfl
@[simp] theorem State.askWalk_tc (s : State) (r : SlotRef) (p : Pipe) (world va : Nat) (st : Stamp) : (s.askWalk r p world va st).tc = s.tc := by simp [State.askWalk]
@[simp] theorem State.askWalk_seq (s : State) (r : SlotRef) (p : Pipe) (world va : Nat) (st : Stamp) : (s.askWalk r p world va st).seq = s.seq := by simp [State.askWalk]
@[simp] theorem State.askWalk_hold (s : State) (r : SlotRef) (p : Pipe) (world va : Nat) (st : Stamp) : (s.askWalk r p world va st).hold = s.hold := by simp [State.askWalk]
@[simp] theorem State.askWalk_cursor (s : State) (r : SlotRef) (p : Pipe) (world va : Nat) (st : Stamp) : (s.askWalk r p world va st).cursor = s.cursor := by simp [State.askWalk]
@[simp] theorem State.askWalk_cur (s : State) (r : SlotRef) (p : Pipe) (world va : Nat) (st : Stamp) : (s.askWalk r p world va st).cur = s.cur := by simp [State.askWalk]
@[simp] theorem State.askWalk_pipe (s : State) (r : SlotRef) (p : Pipe) (world va : Nat) (st : Stamp) : (s.askWalk r p world va st).pipe = s.pipe := by simp [State.askWalk]
@[simp] theorem State.askWalk_arg (s : State) (r : SlotRef) (p : Pipe) (world va : Nat) (st : Stamp) : (s.askWalk r p world va st).arg = s.arg := by simp [State.askWalk]
@[simp] theorem State.askWalk_stall (s : State) (r : SlotRef) (p : Pipe) (world va : Nat) (st : Stamp) : (s.askWalk r p world va st).stall = s.stall := by simp [State.askWalk]
@[simp] theorem State.askWalk_urgent (s : State) (r : SlotRef) (p : Pipe) (world va : Nat) (st : Stamp) : (s.askWalk r p world va st).urgent = s.urgent := by simp [State.askWalk]
@[simp] theorem State.askWalk_hbm (s : State) (r : SlotRef) (p : Pipe) (world va : Nat) (st : Stamp) : (s.askWalk r p world va st).hbm = s.hbm := by simp [State.askWalk]
@[simp] theorem State.askWalk_lines (s : State) (r : SlotRef) (p : Pipe) (world va : Nat) (st : Stamp) : (s.askWalk r p world va st).lines = s.lines := by simp [State.askWalk]
@[simp] theorem State.askWalk_spares (s : State) (r : SlotRef) (p : Pipe) (world va : Nat) (st : Stamp) : (s.askWalk r p world va st).spares = s.spares := by simp [State.askWalk]
@[simp] theorem State.askWalk_keys (s : State) (r : SlotRef) (p : Pipe) (world va : Nat) (st : Stamp) : (s.askWalk r p world va st).keys = s.keys := by simp [State.askWalk]
@[simp] theorem State.askWalk_worldTable (s : State) (r : SlotRef) (p : Pipe) (world va : Nat) (st : Stamp) : (s.askWalk r p world va st).worldTable = s.worldTable := by simp [State.askWalk]
@[simp] theorem State.askWalk_pinned (s : State) (r : SlotRef) (p : Pipe) (world va : Nat) (st : Stamp) : (s.askWalk r p world va st).pinned = s.pinned := by simp [State.askWalk]
@[simp] theorem State.askWalk_ctlbs (s : State) (r : SlotRef) (p : Pipe) (world va : Nat) (st : Stamp) : (s.askWalk r p world va st).ctlbs = s.ctlbs := by simp [State.askWalk]
@[simp] theorem State.askWalk_records (s : State) (r : SlotRef) (p : Pipe) (world va : Nat) (st : Stamp) : (s.askWalk r p world va st).records = s.records := by simp [State.askWalk]
@[simp] theorem State.askWalk_patrols (s : State) (r : SlotRef) (p : Pipe) (world va : Nat) (st : Stamp) : (s.askWalk r p world va st).patrols = s.patrols := by simp [State.askWalk]
@[simp] theorem State.askWalk_retire (s : State) (r : SlotRef) (p : Pipe) (world va : Nat) (st : Stamp) : (s.askWalk r p world va st).retire = s.retire := by simp [State.askWalk]
@[simp] theorem State.askWalk_slices (s : State) (r : SlotRef) (p : Pipe) (world va : Nat) (st : Stamp) : (s.askWalk r p world va st).slices = s.slices := by simp [State.askWalk]
@[simp] theorem State.askWalk_dirs (s : State) (r : SlotRef) (p : Pipe) (world va : Nat) (st : Stamp) : (s.askWalk r p world va st).dirs = s.dirs := by simp [State.askWalk]
@[simp] theorem State.askWalk_overs (s : State) (r : SlotRef) (p : Pipe) (world va : Nat) (st : Stamp) : (s.askWalk r p world va st).overs = s.overs := by simp [State.askWalk]
@[simp] theorem State.askWalk_spillFills (s : State) (r : SlotRef) (p : Pipe) (world va : Nat) (st : Stamp) : (s.askWalk r p world va st).spillFills = s.spillFills := by simp [State.askWalk]
@[simp] theorem State.askWalk_spillInvs (s : State) (r : SlotRef) (p : Pipe) (world va : Nat) (st : Stamp) : (s.askWalk r p world va st).spillInvs = s.spillInvs := by simp [State.askWalk]
@[simp] theorem State.askWalk_rdcs (s : State) (r : SlotRef) (p : Pipe) (world va : Nat) (st : Stamp) : (s.askWalk r p world va st).rdcs = s.rdcs := by simp [State.askWalk]
@[simp] theorem State.askWalk_l2ctl (s : State) (r : SlotRef) (p : Pipe) (world va : Nat) (st : Stamp) : (s.askWalk r p world va st).l2ctl = s.l2ctl := by simp [State.askWalk]
@[simp] theorem State.askWalk_quars (s : State) (r : SlotRef) (p : Pipe) (world va : Nat) (st : Stamp) : (s.askWalk r p world va st).quars = s.quars := by simp [State.askWalk]
@[simp] theorem State.askWalk_rdcQuars (s : State) (r : SlotRef) (p : Pipe) (world va : Nat) (st : Stamp) : (s.askWalk r p world va st).rdcQuars = s.rdcQuars := by simp [State.askWalk]
@[simp] theorem State.askWalk_wayErrs (s : State) (r : SlotRef) (p : Pipe) (world va : Nat) (st : Stamp) : (s.askWalk r p world va st).wayErrs = s.wayErrs := by simp [State.askWalk]
@[simp] theorem State.askWalk_dramErr (s : State) (r : SlotRef) (p : Pipe) (world va : Nat) (st : Stamp) : (s.askWalk r p world va st).dramErr = s.dramErr := by simp [State.askWalk]
@[simp] theorem State.askWalk_locErr (s : State) (r : SlotRef) (p : Pipe) (world va : Nat) (st : Stamp) : (s.askWalk r p world va st).locErr = s.locErr := by simp [State.askWalk]
@[simp] theorem State.askWalk_held (s : State) (r : SlotRef) (p : Pipe) (world va : Nat) (st : Stamp) : (s.askWalk r p world va st).held = s.held := by simp [State.askWalk]
@[simp] theorem State.askWalk_claims (s : State) (r : SlotRef) (p : Pipe) (world va : Nat) (st : Stamp) : (s.askWalk r p world va st).claims = s.claims := by simp [State.askWalk]
@[simp] theorem State.askWalk_lrws (s : State) (r : SlotRef) (p : Pipe) (world va : Nat) (st : Stamp) : (s.askWalk r p world va st).lrws = s.lrws := by simp [State.askWalk]
@[simp] theorem State.askWalk_rupds (s : State) (r : SlotRef) (p : Pipe) (world va : Nat) (st : Stamp) : (s.askWalk r p world va st).rupds = s.rupds := by simp [State.askWalk]
@[simp] theorem State.askWalk_layout (s : State) (r : SlotRef) (p : Pipe) (world va : Nat) (st : Stamp) : (s.askWalk r p world va st).layout = s.layout := by simp [State.askWalk]
@[simp] theorem State.askWalk_locked (s : State) (r : SlotRef) (p : Pipe) (world va : Nat) (st : Stamp) : (s.askWalk r p world va st).locked = s.locked := by simp [State.askWalk]
@[simp] theorem State.askWalk_scrubs (s : State) (r : SlotRef) (p : Pipe) (world va : Nat) (st : Stamp) : (s.askWalk r p world va st).scrubs = s.scrubs := by simp [State.askWalk]
@[simp] theorem State.askWalk_destroying (s : State) (r : SlotRef) (p : Pipe) (world va : Nat) (st : Stamp) : (s.askWalk r p world va st).destroying = s.destroying := by simp [State.askWalk]
@[simp] theorem State.askWalk_regions (s : State) (r : SlotRef) (p : Pipe) (world va : Nat) (st : Stamp) : (s.askWalk r p world va st).regions = s.regions := by simp [State.askWalk]
@[simp] theorem State.askWalk_nextRegion (s : State) (r : SlotRef) (p : Pipe) (world va : Nat) (st : Stamp) : (s.askWalk r p world va st).nextRegion = s.nextRegion := by simp [State.askWalk]
@[simp] theorem State.askWalk_ancestry (s : State) (r : SlotRef) (p : Pipe) (world va : Nat) (st : Stamp) : (s.askWalk r p world va st).ancestry = s.ancestry := by simp [State.askWalk]
@[simp] theorem State.askWalk_launches (s : State) (r : SlotRef) (p : Pipe) (world va : Nat) (st : Stamp) : (s.askWalk r p world va st).launches = s.launches := by simp [State.askWalk]
@[simp] theorem State.askWalk_translator (s : State) (r : SlotRef) (p : Pipe) (world va : Nat) (st : Stamp) : (s.askWalk r p world va st).translator = s.translator := by simp [State.askWalk]
@[simp] theorem State.askWalk_admitting (s : State) (r : SlotRef) (p : Pipe) (world va : Nat) (st : Stamp) : (s.askWalk r p world va st).admitting = s.admitting := by simp [State.askWalk]
@[simp] theorem State.askWalk_cacheSpoilt (s : State) (r : SlotRef) (p : Pipe) (world va : Nat) (st : Stamp) : (s.askWalk r p world va st).cacheSpoilt = s.cacheSpoilt := by simp [State.askWalk]
@[simp] theorem State.askWalk_dispatchers (s : State) (r : SlotRef) (p : Pipe) (world va : Nat) (st : Stamp) : (s.askWalk r p world va st).dispatchers = s.dispatchers := by simp [State.askWalk]
@[simp] theorem State.askWalk_weirs (s : State) (r : SlotRef) (p : Pipe) (world va : Nat) (st : Stamp) : (s.askWalk r p world va st).weirs = s.weirs := by simp [State.askWalk]
@[simp] theorem State.askWalk_gangs (s : State) (r : SlotRef) (p : Pipe) (world va : Nat) (st : Stamp) : (s.askWalk r p world va st).gangs = s.gangs := by simp [State.askWalk]
@[simp] theorem State.askWalk_flights (s : State) (r : SlotRef) (p : Pipe) (world va : Nat) (st : Stamp) : (s.askWalk r p world va st).flights = s.flights := by simp [State.askWalk]
@[simp] theorem State.askWalk_occupancy (s : State) (r : SlotRef) (p : Pipe) (world va : Nat) (st : Stamp) : (s.askWalk r p world va st).occupancy = s.occupancy := by simp [State.askWalk]
@[simp] theorem State.askWalk_sampled (s : State) (r : SlotRef) (p : Pipe) (world va : Nat) (st : Stamp) : (s.askWalk r p world va st).sampled = s.sampled := by simp [State.askWalk]
@[simp] theorem State.askWalk_pools (s : State) (r : SlotRef) (p : Pipe) (world va : Nat) (st : Stamp) : (s.askWalk r p world va st).pools = s.pools := by simp [State.askWalk]
@[simp] theorem State.askWalk_subs (s : State) (r : SlotRef) (p : Pipe) (world va : Nat) (st : Stamp) : (s.askWalk r p world va st).subs = s.subs := by simp [State.askWalk]
@[simp] theorem State.askWalk_lost (s : State) (r : SlotRef) (p : Pipe) (world va : Nat) (st : Stamp) : (s.askWalk r p world va st).lost = s.lost := by simp [State.askWalk]
@[simp] theorem State.askWalk_rotations (s : State) (r : SlotRef) (p : Pipe) (world va : Nat) (st : Stamp) : (s.askWalk r p world va st).rotations = s.rotations := by simp [State.askWalk]
@[simp] theorem State.askWalk_saves (s : State) (r : SlotRef) (p : Pipe) (world va : Nat) (st : Stamp) : (s.askWalk r p world va st).saves = s.saves := by simp [State.askWalk]
@[simp] theorem State.askWalk_owner (s : State) (r : SlotRef) (p : Pipe) (world va : Nat) (st : Stamp) : (s.askWalk r p world va st).owner = s.owner := by simp [State.askWalk]
@[simp] theorem State.askWalk_ready (s : State) (r : SlotRef) (p : Pipe) (world va : Nat) (st : Stamp) : (s.askWalk r p world va st).ready = s.ready := by simp [State.askWalk]
@[simp] theorem State.askWalk_mboxStamp (s : State) (r : SlotRef) (p : Pipe) (world va : Nat) (st : Stamp) : (s.askWalk r p world va st).mboxStamp = s.mboxStamp := by simp [State.askWalk]
@[simp] theorem State.askWalk_mboxStatus (s : State) (r : SlotRef) (p : Pipe) (world va : Nat) (st : Stamp) : (s.askWalk r p world va st).mboxStatus = s.mboxStatus := by simp [State.askWalk]
@[simp] theorem State.askWalk_mboxBusy (s : State) (r : SlotRef) (p : Pipe) (world va : Nat) (st : Stamp) : (s.askWalk r p world va st).mboxBusy = s.mboxBusy := by simp [State.askWalk]
@[simp] theorem State.askWalk_mboxWait (s : State) (r : SlotRef) (p : Pipe) (world va : Nat) (st : Stamp) : (s.askWalk r p world va st).mboxWait = s.mboxWait := by simp [State.askWalk]
@[simp] theorem State.askWalk_fns (s : State) (r : SlotRef) (p : Pipe) (world va : Nat) (st : Stamp) : (s.askWalk r p world va st).fns = s.fns := by simp [State.askWalk]
@[simp] theorem State.askWalk_attached (s : State) (r : SlotRef) (p : Pipe) (world va : Nat) (st : Stamp) : (s.askWalk r p world va st).attached = s.attached := by simp [State.askWalk]
@[simp] theorem State.askWalk_monitors (s : State) (r : SlotRef) (p : Pipe) (world va : Nat) (st : Stamp) : (s.askWalk r p world va st).monitors = s.monitors := by simp [State.askWalk]
@[simp] theorem State.askWalk_measures (s : State) (r : SlotRef) (p : Pipe) (world va : Nat) (st : Stamp) : (s.askWalk r p world va st).measures = s.measures := by simp [State.askWalk]
@[simp] theorem State.askWalk_channels (s : State) (r : SlotRef) (p : Pipe) (world va : Nat) (st : Stamp) : (s.askWalk r p world va st).channels = s.channels := by simp [State.askWalk]
@[simp] theorem State.askWalk_spdmStage (s : State) (r : SlotRef) (p : Pipe) (world va : Nat) (st : Stamp) : (s.askWalk r p world va st).spdmStage = s.spdmStage := by simp [State.askWalk]
@[simp] theorem State.askWalk_spdmTrans (s : State) (r : SlotRef) (p : Pipe) (world va : Nat) (st : Stamp) : (s.askWalk r p world va st).spdmTrans = s.spdmTrans := by simp [State.askWalk]
@[simp] theorem State.askWalk_gated (s : State) (r : SlotRef) (p : Pipe) (world va : Nat) (st : Stamp) : (s.askWalk r p world va st).gated = s.gated := by simp [State.askWalk]
@[simp] theorem State.askWalk_stamped (s : State) (r : SlotRef) (p : Pipe) (world va : Nat) (st : Stamp) : (s.askWalk r p world va st).stamped = s.stamped := by simp [State.askWalk]
@[simp] theorem State.askWalk_throttled (s : State) (r : SlotRef) (p : Pipe) (world va : Nat) (st : Stamp) : (s.askWalk r p world va st).throttled = s.throttled := by simp [State.askWalk]
@[simp] theorem State.askWalk_out (s : State) (r : SlotRef) (p : Pipe) (world va : Nat) (st : Stamp) : (s.askWalk r p world va st).out = s.out := by simp [State.askWalk]

/-! ### retire changes the cores only; resumeThread also what asks for a walk -/

@[simp] theorem retire_tc (s : State) (t : Thread) (l : List Reg) (m : List (Bool × Reg)) (d : Option (Reg × Word)) (n : Nat) : (retire s t l m d n).tc = s.tc := by
  rcases d with _ | ⟨r, v⟩ <;> simp [retire]
@[simp] theorem retire_seq (s : State) (t : Thread) (l : List Reg) (m : List (Bool × Reg)) (d : Option (Reg × Word)) (n : Nat) : (retire s t l m d n).seq = s.seq := by
  rcases d with _ | ⟨r, v⟩ <;> simp [retire]
@[simp] theorem retire_hold (s : State) (t : Thread) (l : List Reg) (m : List (Bool × Reg)) (d : Option (Reg × Word)) (n : Nat) : (retire s t l m d n).hold = s.hold := by
  rcases d with _ | ⟨r, v⟩ <;> simp [retire]
@[simp] theorem retire_cursor (s : State) (t : Thread) (l : List Reg) (m : List (Bool × Reg)) (d : Option (Reg × Word)) (n : Nat) : (retire s t l m d n).cursor = s.cursor := by
  rcases d with _ | ⟨r, v⟩ <;> simp [retire]
@[simp] theorem retire_cur (s : State) (t : Thread) (l : List Reg) (m : List (Bool × Reg)) (d : Option (Reg × Word)) (n : Nat) : (retire s t l m d n).cur = s.cur := by
  rcases d with _ | ⟨r, v⟩ <;> simp [retire]
@[simp] theorem retire_pipe (s : State) (t : Thread) (l : List Reg) (m : List (Bool × Reg)) (d : Option (Reg × Word)) (n : Nat) : (retire s t l m d n).pipe = s.pipe := by
  rcases d with _ | ⟨r, v⟩ <;> simp [retire]
@[simp] theorem retire_arg (s : State) (t : Thread) (l : List Reg) (m : List (Bool × Reg)) (d : Option (Reg × Word)) (n : Nat) : (retire s t l m d n).arg = s.arg := by
  rcases d with _ | ⟨r, v⟩ <;> simp [retire]
@[simp] theorem retire_stall (s : State) (t : Thread) (l : List Reg) (m : List (Bool × Reg)) (d : Option (Reg × Word)) (n : Nat) : (retire s t l m d n).stall = s.stall := by
  rcases d with _ | ⟨r, v⟩ <;> simp [retire]
@[simp] theorem retire_urgent (s : State) (t : Thread) (l : List Reg) (m : List (Bool × Reg)) (d : Option (Reg × Word)) (n : Nat) : (retire s t l m d n).urgent = s.urgent := by
  rcases d with _ | ⟨r, v⟩ <;> simp [retire]
@[simp] theorem retire_agenda (s : State) (t : Thread) (l : List Reg) (m : List (Bool × Reg)) (d : Option (Reg × Word)) (n : Nat) : (retire s t l m d n).agenda = s.agenda := by
  rcases d with _ | ⟨r, v⟩ <;> simp [retire]
@[simp] theorem retire_hbm (s : State) (t : Thread) (l : List Reg) (m : List (Bool × Reg)) (d : Option (Reg × Word)) (n : Nat) : (retire s t l m d n).hbm = s.hbm := by
  rcases d with _ | ⟨r, v⟩ <;> simp [retire]
@[simp] theorem retire_lines (s : State) (t : Thread) (l : List Reg) (m : List (Bool × Reg)) (d : Option (Reg × Word)) (n : Nat) : (retire s t l m d n).lines = s.lines := by
  rcases d with _ | ⟨r, v⟩ <;> simp [retire]
@[simp] theorem retire_spares (s : State) (t : Thread) (l : List Reg) (m : List (Bool × Reg)) (d : Option (Reg × Word)) (n : Nat) : (retire s t l m d n).spares = s.spares := by
  rcases d with _ | ⟨r, v⟩ <;> simp [retire]
@[simp] theorem retire_keys (s : State) (t : Thread) (l : List Reg) (m : List (Bool × Reg)) (d : Option (Reg × Word)) (n : Nat) : (retire s t l m d n).keys = s.keys := by
  rcases d with _ | ⟨r, v⟩ <;> simp [retire]
@[simp] theorem retire_worldTable (s : State) (t : Thread) (l : List Reg) (m : List (Bool × Reg)) (d : Option (Reg × Word)) (n : Nat) : (retire s t l m d n).worldTable = s.worldTable := by
  rcases d with _ | ⟨r, v⟩ <;> simp [retire]
@[simp] theorem retire_pinned (s : State) (t : Thread) (l : List Reg) (m : List (Bool × Reg)) (d : Option (Reg × Word)) (n : Nat) : (retire s t l m d n).pinned = s.pinned := by
  rcases d with _ | ⟨r, v⟩ <;> simp [retire]
@[simp] theorem retire_walks (s : State) (t : Thread) (l : List Reg) (m : List (Bool × Reg)) (d : Option (Reg × Word)) (n : Nat) : (retire s t l m d n).walks = s.walks := by
  rcases d with _ | ⟨r, v⟩ <;> simp [retire]
@[simp] theorem retire_ctlbs (s : State) (t : Thread) (l : List Reg) (m : List (Bool × Reg)) (d : Option (Reg × Word)) (n : Nat) : (retire s t l m d n).ctlbs = s.ctlbs := by
  rcases d with _ | ⟨r, v⟩ <;> simp [retire]
@[simp] theorem retire_records (s : State) (t : Thread) (l : List Reg) (m : List (Bool × Reg)) (d : Option (Reg × Word)) (n : Nat) : (retire s t l m d n).records = s.records := by
  rcases d with _ | ⟨r, v⟩ <;> simp [retire]
@[simp] theorem retire_patrols (s : State) (t : Thread) (l : List Reg) (m : List (Bool × Reg)) (d : Option (Reg × Word)) (n : Nat) : (retire s t l m d n).patrols = s.patrols := by
  rcases d with _ | ⟨r, v⟩ <;> simp [retire]
@[simp] theorem retire_retire (s : State) (t : Thread) (l : List Reg) (m : List (Bool × Reg)) (d : Option (Reg × Word)) (n : Nat) : (retire s t l m d n).retire = s.retire := by
  rcases d with _ | ⟨r, v⟩ <;> simp [retire]
@[simp] theorem retire_slices (s : State) (t : Thread) (l : List Reg) (m : List (Bool × Reg)) (d : Option (Reg × Word)) (n : Nat) : (retire s t l m d n).slices = s.slices := by
  rcases d with _ | ⟨r, v⟩ <;> simp [retire]
@[simp] theorem retire_dirs (s : State) (t : Thread) (l : List Reg) (m : List (Bool × Reg)) (d : Option (Reg × Word)) (n : Nat) : (retire s t l m d n).dirs = s.dirs := by
  rcases d with _ | ⟨r, v⟩ <;> simp [retire]
@[simp] theorem retire_overs (s : State) (t : Thread) (l : List Reg) (m : List (Bool × Reg)) (d : Option (Reg × Word)) (n : Nat) : (retire s t l m d n).overs = s.overs := by
  rcases d with _ | ⟨r, v⟩ <;> simp [retire]
@[simp] theorem retire_spillFills (s : State) (t : Thread) (l : List Reg) (m : List (Bool × Reg)) (d : Option (Reg × Word)) (n : Nat) : (retire s t l m d n).spillFills = s.spillFills := by
  rcases d with _ | ⟨r, v⟩ <;> simp [retire]
@[simp] theorem retire_spillInvs (s : State) (t : Thread) (l : List Reg) (m : List (Bool × Reg)) (d : Option (Reg × Word)) (n : Nat) : (retire s t l m d n).spillInvs = s.spillInvs := by
  rcases d with _ | ⟨r, v⟩ <;> simp [retire]
@[simp] theorem retire_rdcs (s : State) (t : Thread) (l : List Reg) (m : List (Bool × Reg)) (d : Option (Reg × Word)) (n : Nat) : (retire s t l m d n).rdcs = s.rdcs := by
  rcases d with _ | ⟨r, v⟩ <;> simp [retire]
@[simp] theorem retire_l2ctl (s : State) (t : Thread) (l : List Reg) (m : List (Bool × Reg)) (d : Option (Reg × Word)) (n : Nat) : (retire s t l m d n).l2ctl = s.l2ctl := by
  rcases d with _ | ⟨r, v⟩ <;> simp [retire]
@[simp] theorem retire_quars (s : State) (t : Thread) (l : List Reg) (m : List (Bool × Reg)) (d : Option (Reg × Word)) (n : Nat) : (retire s t l m d n).quars = s.quars := by
  rcases d with _ | ⟨r, v⟩ <;> simp [retire]
@[simp] theorem retire_rdcQuars (s : State) (t : Thread) (l : List Reg) (m : List (Bool × Reg)) (d : Option (Reg × Word)) (n : Nat) : (retire s t l m d n).rdcQuars = s.rdcQuars := by
  rcases d with _ | ⟨r, v⟩ <;> simp [retire]
@[simp] theorem retire_wayErrs (s : State) (t : Thread) (l : List Reg) (m : List (Bool × Reg)) (d : Option (Reg × Word)) (n : Nat) : (retire s t l m d n).wayErrs = s.wayErrs := by
  rcases d with _ | ⟨r, v⟩ <;> simp [retire]
@[simp] theorem retire_dramErr (s : State) (t : Thread) (l : List Reg) (m : List (Bool × Reg)) (d : Option (Reg × Word)) (n : Nat) : (retire s t l m d n).dramErr = s.dramErr := by
  rcases d with _ | ⟨r, v⟩ <;> simp [retire]
@[simp] theorem retire_locErr (s : State) (t : Thread) (l : List Reg) (m : List (Bool × Reg)) (d : Option (Reg × Word)) (n : Nat) : (retire s t l m d n).locErr = s.locErr := by
  rcases d with _ | ⟨r, v⟩ <;> simp [retire]
@[simp] theorem retire_held (s : State) (t : Thread) (l : List Reg) (m : List (Bool × Reg)) (d : Option (Reg × Word)) (n : Nat) : (retire s t l m d n).held = s.held := by
  rcases d with _ | ⟨r, v⟩ <;> simp [retire]
@[simp] theorem retire_claims (s : State) (t : Thread) (l : List Reg) (m : List (Bool × Reg)) (d : Option (Reg × Word)) (n : Nat) : (retire s t l m d n).claims = s.claims := by
  rcases d with _ | ⟨r, v⟩ <;> simp [retire]
@[simp] theorem retire_lrws (s : State) (t : Thread) (l : List Reg) (m : List (Bool × Reg)) (d : Option (Reg × Word)) (n : Nat) : (retire s t l m d n).lrws = s.lrws := by
  rcases d with _ | ⟨r, v⟩ <;> simp [retire]
@[simp] theorem retire_rupds (s : State) (t : Thread) (l : List Reg) (m : List (Bool × Reg)) (d : Option (Reg × Word)) (n : Nat) : (retire s t l m d n).rupds = s.rupds := by
  rcases d with _ | ⟨r, v⟩ <;> simp [retire]
@[simp] theorem retire_layout (s : State) (t : Thread) (l : List Reg) (m : List (Bool × Reg)) (d : Option (Reg × Word)) (n : Nat) : (retire s t l m d n).layout = s.layout := by
  rcases d with _ | ⟨r, v⟩ <;> simp [retire]
@[simp] theorem retire_locked (s : State) (t : Thread) (l : List Reg) (m : List (Bool × Reg)) (d : Option (Reg × Word)) (n : Nat) : (retire s t l m d n).locked = s.locked := by
  rcases d with _ | ⟨r, v⟩ <;> simp [retire]
@[simp] theorem retire_scrubs (s : State) (t : Thread) (l : List Reg) (m : List (Bool × Reg)) (d : Option (Reg × Word)) (n : Nat) : (retire s t l m d n).scrubs = s.scrubs := by
  rcases d with _ | ⟨r, v⟩ <;> simp [retire]
@[simp] theorem retire_destroying (s : State) (t : Thread) (l : List Reg) (m : List (Bool × Reg)) (d : Option (Reg × Word)) (n : Nat) : (retire s t l m d n).destroying = s.destroying := by
  rcases d with _ | ⟨r, v⟩ <;> simp [retire]
@[simp] theorem retire_regions (s : State) (t : Thread) (l : List Reg) (m : List (Bool × Reg)) (d : Option (Reg × Word)) (n : Nat) : (retire s t l m d n).regions = s.regions := by
  rcases d with _ | ⟨r, v⟩ <;> simp [retire]
@[simp] theorem retire_nextRegion (s : State) (t : Thread) (l : List Reg) (m : List (Bool × Reg)) (d : Option (Reg × Word)) (n : Nat) : (retire s t l m d n).nextRegion = s.nextRegion := by
  rcases d with _ | ⟨r, v⟩ <;> simp [retire]
@[simp] theorem retire_ancestry (s : State) (t : Thread) (l : List Reg) (m : List (Bool × Reg)) (d : Option (Reg × Word)) (n : Nat) : (retire s t l m d n).ancestry = s.ancestry := by
  rcases d with _ | ⟨r, v⟩ <;> simp [retire]
@[simp] theorem retire_launches (s : State) (t : Thread) (l : List Reg) (m : List (Bool × Reg)) (d : Option (Reg × Word)) (n : Nat) : (retire s t l m d n).launches = s.launches := by
  rcases d with _ | ⟨r, v⟩ <;> simp [retire]
@[simp] theorem retire_translator (s : State) (t : Thread) (l : List Reg) (m : List (Bool × Reg)) (d : Option (Reg × Word)) (n : Nat) : (retire s t l m d n).translator = s.translator := by
  rcases d with _ | ⟨r, v⟩ <;> simp [retire]
@[simp] theorem retire_admitting (s : State) (t : Thread) (l : List Reg) (m : List (Bool × Reg)) (d : Option (Reg × Word)) (n : Nat) : (retire s t l m d n).admitting = s.admitting := by
  rcases d with _ | ⟨r, v⟩ <;> simp [retire]
@[simp] theorem retire_cacheSpoilt (s : State) (t : Thread) (l : List Reg) (m : List (Bool × Reg)) (d : Option (Reg × Word)) (n : Nat) : (retire s t l m d n).cacheSpoilt = s.cacheSpoilt := by
  rcases d with _ | ⟨r, v⟩ <;> simp [retire]
@[simp] theorem retire_dispatchers (s : State) (t : Thread) (l : List Reg) (m : List (Bool × Reg)) (d : Option (Reg × Word)) (n : Nat) : (retire s t l m d n).dispatchers = s.dispatchers := by
  rcases d with _ | ⟨r, v⟩ <;> simp [retire]
@[simp] theorem retire_weirs (s : State) (t : Thread) (l : List Reg) (m : List (Bool × Reg)) (d : Option (Reg × Word)) (n : Nat) : (retire s t l m d n).weirs = s.weirs := by
  rcases d with _ | ⟨r, v⟩ <;> simp [retire]
@[simp] theorem retire_gangs (s : State) (t : Thread) (l : List Reg) (m : List (Bool × Reg)) (d : Option (Reg × Word)) (n : Nat) : (retire s t l m d n).gangs = s.gangs := by
  rcases d with _ | ⟨r, v⟩ <;> simp [retire]
@[simp] theorem retire_flights (s : State) (t : Thread) (l : List Reg) (m : List (Bool × Reg)) (d : Option (Reg × Word)) (n : Nat) : (retire s t l m d n).flights = s.flights := by
  rcases d with _ | ⟨r, v⟩ <;> simp [retire]
@[simp] theorem retire_occupancy (s : State) (t : Thread) (l : List Reg) (m : List (Bool × Reg)) (d : Option (Reg × Word)) (n : Nat) : (retire s t l m d n).occupancy = s.occupancy := by
  rcases d with _ | ⟨r, v⟩ <;> simp [retire]
@[simp] theorem retire_sampled (s : State) (t : Thread) (l : List Reg) (m : List (Bool × Reg)) (d : Option (Reg × Word)) (n : Nat) : (retire s t l m d n).sampled = s.sampled := by
  rcases d with _ | ⟨r, v⟩ <;> simp [retire]
@[simp] theorem retire_pools (s : State) (t : Thread) (l : List Reg) (m : List (Bool × Reg)) (d : Option (Reg × Word)) (n : Nat) : (retire s t l m d n).pools = s.pools := by
  rcases d with _ | ⟨r, v⟩ <;> simp [retire]
@[simp] theorem retire_subs (s : State) (t : Thread) (l : List Reg) (m : List (Bool × Reg)) (d : Option (Reg × Word)) (n : Nat) : (retire s t l m d n).subs = s.subs := by
  rcases d with _ | ⟨r, v⟩ <;> simp [retire]
@[simp] theorem retire_lost (s : State) (t : Thread) (l : List Reg) (m : List (Bool × Reg)) (d : Option (Reg × Word)) (n : Nat) : (retire s t l m d n).lost = s.lost := by
  rcases d with _ | ⟨r, v⟩ <;> simp [retire]
@[simp] theorem retire_rotations (s : State) (t : Thread) (l : List Reg) (m : List (Bool × Reg)) (d : Option (Reg × Word)) (n : Nat) : (retire s t l m d n).rotations = s.rotations := by
  rcases d with _ | ⟨r, v⟩ <;> simp [retire]
@[simp] theorem retire_saves (s : State) (t : Thread) (l : List Reg) (m : List (Bool × Reg)) (d : Option (Reg × Word)) (n : Nat) : (retire s t l m d n).saves = s.saves := by
  rcases d with _ | ⟨r, v⟩ <;> simp [retire]
@[simp] theorem retire_owner (s : State) (t : Thread) (l : List Reg) (m : List (Bool × Reg)) (d : Option (Reg × Word)) (n : Nat) : (retire s t l m d n).owner = s.owner := by
  rcases d with _ | ⟨r, v⟩ <;> simp [retire]
@[simp] theorem retire_ready (s : State) (t : Thread) (l : List Reg) (m : List (Bool × Reg)) (d : Option (Reg × Word)) (n : Nat) : (retire s t l m d n).ready = s.ready := by
  rcases d with _ | ⟨r, v⟩ <;> simp [retire]
@[simp] theorem retire_mboxStamp (s : State) (t : Thread) (l : List Reg) (m : List (Bool × Reg)) (d : Option (Reg × Word)) (n : Nat) : (retire s t l m d n).mboxStamp = s.mboxStamp := by
  rcases d with _ | ⟨r, v⟩ <;> simp [retire]
@[simp] theorem retire_mboxStatus (s : State) (t : Thread) (l : List Reg) (m : List (Bool × Reg)) (d : Option (Reg × Word)) (n : Nat) : (retire s t l m d n).mboxStatus = s.mboxStatus := by
  rcases d with _ | ⟨r, v⟩ <;> simp [retire]
@[simp] theorem retire_mboxBusy (s : State) (t : Thread) (l : List Reg) (m : List (Bool × Reg)) (d : Option (Reg × Word)) (n : Nat) : (retire s t l m d n).mboxBusy = s.mboxBusy := by
  rcases d with _ | ⟨r, v⟩ <;> simp [retire]
@[simp] theorem retire_mboxWait (s : State) (t : Thread) (l : List Reg) (m : List (Bool × Reg)) (d : Option (Reg × Word)) (n : Nat) : (retire s t l m d n).mboxWait = s.mboxWait := by
  rcases d with _ | ⟨r, v⟩ <;> simp [retire]
@[simp] theorem retire_fns (s : State) (t : Thread) (l : List Reg) (m : List (Bool × Reg)) (d : Option (Reg × Word)) (n : Nat) : (retire s t l m d n).fns = s.fns := by
  rcases d with _ | ⟨r, v⟩ <;> simp [retire]
@[simp] theorem retire_attached (s : State) (t : Thread) (l : List Reg) (m : List (Bool × Reg)) (d : Option (Reg × Word)) (n : Nat) : (retire s t l m d n).attached = s.attached := by
  rcases d with _ | ⟨r, v⟩ <;> simp [retire]
@[simp] theorem retire_monitors (s : State) (t : Thread) (l : List Reg) (m : List (Bool × Reg)) (d : Option (Reg × Word)) (n : Nat) : (retire s t l m d n).monitors = s.monitors := by
  rcases d with _ | ⟨r, v⟩ <;> simp [retire]
@[simp] theorem retire_measures (s : State) (t : Thread) (l : List Reg) (m : List (Bool × Reg)) (d : Option (Reg × Word)) (n : Nat) : (retire s t l m d n).measures = s.measures := by
  rcases d with _ | ⟨r, v⟩ <;> simp [retire]
@[simp] theorem retire_channels (s : State) (t : Thread) (l : List Reg) (m : List (Bool × Reg)) (d : Option (Reg × Word)) (n : Nat) : (retire s t l m d n).channels = s.channels := by
  rcases d with _ | ⟨r, v⟩ <;> simp [retire]
@[simp] theorem retire_spdmStage (s : State) (t : Thread) (l : List Reg) (m : List (Bool × Reg)) (d : Option (Reg × Word)) (n : Nat) : (retire s t l m d n).spdmStage = s.spdmStage := by
  rcases d with _ | ⟨r, v⟩ <;> simp [retire]
@[simp] theorem retire_spdmTrans (s : State) (t : Thread) (l : List Reg) (m : List (Bool × Reg)) (d : Option (Reg × Word)) (n : Nat) : (retire s t l m d n).spdmTrans = s.spdmTrans := by
  rcases d with _ | ⟨r, v⟩ <;> simp [retire]
@[simp] theorem retire_gated (s : State) (t : Thread) (l : List Reg) (m : List (Bool × Reg)) (d : Option (Reg × Word)) (n : Nat) : (retire s t l m d n).gated = s.gated := by
  rcases d with _ | ⟨r, v⟩ <;> simp [retire]
@[simp] theorem retire_stamped (s : State) (t : Thread) (l : List Reg) (m : List (Bool × Reg)) (d : Option (Reg × Word)) (n : Nat) : (retire s t l m d n).stamped = s.stamped := by
  rcases d with _ | ⟨r, v⟩ <;> simp [retire]
@[simp] theorem retire_throttled (s : State) (t : Thread) (l : List Reg) (m : List (Bool × Reg)) (d : Option (Reg × Word)) (n : Nat) : (retire s t l m d n).throttled = s.throttled := by
  rcases d with _ | ⟨r, v⟩ <;> simp [retire]
@[simp] theorem retire_out (s : State) (t : Thread) (l : List Reg) (m : List (Bool × Reg)) (d : Option (Reg × Word)) (n : Nat) : (retire s t l m d n).out = s.out := by
  rcases d with _ | ⟨r, v⟩ <;> simp [retire]
@[simp] theorem resumeThread_tc (s : State) (r : SlotRef) : (resumeThread s r).tc = s.tc := by
  simp only [resumeThread]
  split
  · split <;> simp
  · simp
@[simp] theorem resumeThread_seq (s : State) (r : SlotRef) : (resumeThread s r).seq = s.seq := by
  simp only [resumeThread]
  split
  · split <;> simp
  · simp
@[simp] theorem resumeThread_hold (s : State) (r : SlotRef) : (resumeThread s r).hold = s.hold := by
  simp only [resumeThread]
  split
  · split <;> simp
  · simp
@[simp] theorem resumeThread_cursor (s : State) (r : SlotRef) : (resumeThread s r).cursor = s.cursor := by
  simp only [resumeThread]
  split
  · split <;> simp
  · simp
@[simp] theorem resumeThread_cur (s : State) (r : SlotRef) : (resumeThread s r).cur = s.cur := by
  simp only [resumeThread]
  split
  · split <;> simp
  · simp
@[simp] theorem resumeThread_pipe (s : State) (r : SlotRef) : (resumeThread s r).pipe = s.pipe := by
  simp only [resumeThread]
  split
  · split <;> simp
  · simp
@[simp] theorem resumeThread_arg (s : State) (r : SlotRef) : (resumeThread s r).arg = s.arg := by
  simp only [resumeThread]
  split
  · split <;> simp
  · simp
@[simp] theorem resumeThread_stall (s : State) (r : SlotRef) : (resumeThread s r).stall = s.stall := by
  simp only [resumeThread]
  split
  · split <;> simp
  · simp
@[simp] theorem resumeThread_urgent (s : State) (r : SlotRef) : (resumeThread s r).urgent = s.urgent := by
  simp only [resumeThread]
  split
  · split <;> simp
  · simp
@[simp] theorem resumeThread_hbm (s : State) (r : SlotRef) : (resumeThread s r).hbm = s.hbm := by
  simp only [resumeThread]
  split
  · split <;> simp
  · simp
@[simp] theorem resumeThread_lines (s : State) (r : SlotRef) : (resumeThread s r).lines = s.lines := by
  simp only [resumeThread]
  split
  · split <;> simp
  · simp
@[simp] theorem resumeThread_spares (s : State) (r : SlotRef) : (resumeThread s r).spares = s.spares := by
  simp only [resumeThread]
  split
  · split <;> simp
  · simp
@[simp] theorem resumeThread_keys (s : State) (r : SlotRef) : (resumeThread s r).keys = s.keys := by
  simp only [resumeThread]
  split
  · split <;> simp
  · simp
@[simp] theorem resumeThread_worldTable (s : State) (r : SlotRef) : (resumeThread s r).worldTable = s.worldTable := by
  simp only [resumeThread]
  split
  · split <;> simp
  · simp
@[simp] theorem resumeThread_pinned (s : State) (r : SlotRef) : (resumeThread s r).pinned = s.pinned := by
  simp only [resumeThread]
  split
  · split <;> simp
  · simp
@[simp] theorem resumeThread_ctlbs (s : State) (r : SlotRef) : (resumeThread s r).ctlbs = s.ctlbs := by
  simp only [resumeThread]
  split
  · split <;> simp
  · simp
@[simp] theorem resumeThread_records (s : State) (r : SlotRef) : (resumeThread s r).records = s.records := by
  simp only [resumeThread]
  split
  · split <;> simp
  · simp
@[simp] theorem resumeThread_patrols (s : State) (r : SlotRef) : (resumeThread s r).patrols = s.patrols := by
  simp only [resumeThread]
  split
  · split <;> simp
  · simp
@[simp] theorem resumeThread_retire (s : State) (r : SlotRef) : (resumeThread s r).retire = s.retire := by
  simp only [resumeThread]
  split
  · split <;> simp
  · simp
@[simp] theorem resumeThread_slices (s : State) (r : SlotRef) : (resumeThread s r).slices = s.slices := by
  simp only [resumeThread]
  split
  · split <;> simp
  · simp
@[simp] theorem resumeThread_dirs (s : State) (r : SlotRef) : (resumeThread s r).dirs = s.dirs := by
  simp only [resumeThread]
  split
  · split <;> simp
  · simp
@[simp] theorem resumeThread_overs (s : State) (r : SlotRef) : (resumeThread s r).overs = s.overs := by
  simp only [resumeThread]
  split
  · split <;> simp
  · simp
@[simp] theorem resumeThread_spillFills (s : State) (r : SlotRef) : (resumeThread s r).spillFills = s.spillFills := by
  simp only [resumeThread]
  split
  · split <;> simp
  · simp
@[simp] theorem resumeThread_spillInvs (s : State) (r : SlotRef) : (resumeThread s r).spillInvs = s.spillInvs := by
  simp only [resumeThread]
  split
  · split <;> simp
  · simp
@[simp] theorem resumeThread_rdcs (s : State) (r : SlotRef) : (resumeThread s r).rdcs = s.rdcs := by
  simp only [resumeThread]
  split
  · split <;> simp
  · simp
@[simp] theorem resumeThread_l2ctl (s : State) (r : SlotRef) : (resumeThread s r).l2ctl = s.l2ctl := by
  simp only [resumeThread]
  split
  · split <;> simp
  · simp
@[simp] theorem resumeThread_quars (s : State) (r : SlotRef) : (resumeThread s r).quars = s.quars := by
  simp only [resumeThread]
  split
  · split <;> simp
  · simp
@[simp] theorem resumeThread_rdcQuars (s : State) (r : SlotRef) : (resumeThread s r).rdcQuars = s.rdcQuars := by
  simp only [resumeThread]
  split
  · split <;> simp
  · simp
@[simp] theorem resumeThread_wayErrs (s : State) (r : SlotRef) : (resumeThread s r).wayErrs = s.wayErrs := by
  simp only [resumeThread]
  split
  · split <;> simp
  · simp
@[simp] theorem resumeThread_dramErr (s : State) (r : SlotRef) : (resumeThread s r).dramErr = s.dramErr := by
  simp only [resumeThread]
  split
  · split <;> simp
  · simp
@[simp] theorem resumeThread_locErr (s : State) (r : SlotRef) : (resumeThread s r).locErr = s.locErr := by
  simp only [resumeThread]
  split
  · split <;> simp
  · simp
@[simp] theorem resumeThread_held (s : State) (r : SlotRef) : (resumeThread s r).held = s.held := by
  simp only [resumeThread]
  split
  · split <;> simp
  · simp
@[simp] theorem resumeThread_claims (s : State) (r : SlotRef) : (resumeThread s r).claims = s.claims := by
  simp only [resumeThread]
  split
  · split <;> simp
  · simp
@[simp] theorem resumeThread_lrws (s : State) (r : SlotRef) : (resumeThread s r).lrws = s.lrws := by
  simp only [resumeThread]
  split
  · split <;> simp
  · simp
@[simp] theorem resumeThread_rupds (s : State) (r : SlotRef) : (resumeThread s r).rupds = s.rupds := by
  simp only [resumeThread]
  split
  · split <;> simp
  · simp
@[simp] theorem resumeThread_layout (s : State) (r : SlotRef) : (resumeThread s r).layout = s.layout := by
  simp only [resumeThread]
  split
  · split <;> simp
  · simp
@[simp] theorem resumeThread_locked (s : State) (r : SlotRef) : (resumeThread s r).locked = s.locked := by
  simp only [resumeThread]
  split
  · split <;> simp
  · simp
@[simp] theorem resumeThread_scrubs (s : State) (r : SlotRef) : (resumeThread s r).scrubs = s.scrubs := by
  simp only [resumeThread]
  split
  · split <;> simp
  · simp
@[simp] theorem resumeThread_destroying (s : State) (r : SlotRef) : (resumeThread s r).destroying = s.destroying := by
  simp only [resumeThread]
  split
  · split <;> simp
  · simp
@[simp] theorem resumeThread_regions (s : State) (r : SlotRef) : (resumeThread s r).regions = s.regions := by
  simp only [resumeThread]
  split
  · split <;> simp
  · simp
@[simp] theorem resumeThread_nextRegion (s : State) (r : SlotRef) : (resumeThread s r).nextRegion = s.nextRegion := by
  simp only [resumeThread]
  split
  · split <;> simp
  · simp
@[simp] theorem resumeThread_ancestry (s : State) (r : SlotRef) : (resumeThread s r).ancestry = s.ancestry := by
  simp only [resumeThread]
  split
  · split <;> simp
  · simp
@[simp] theorem resumeThread_launches (s : State) (r : SlotRef) : (resumeThread s r).launches = s.launches := by
  simp only [resumeThread]
  split
  · split <;> simp
  · simp
@[simp] theorem resumeThread_translator (s : State) (r : SlotRef) : (resumeThread s r).translator = s.translator := by
  simp only [resumeThread]
  split
  · split <;> simp
  · simp
@[simp] theorem resumeThread_admitting (s : State) (r : SlotRef) : (resumeThread s r).admitting = s.admitting := by
  simp only [resumeThread]
  split
  · split <;> simp
  · simp
@[simp] theorem resumeThread_cacheSpoilt (s : State) (r : SlotRef) : (resumeThread s r).cacheSpoilt = s.cacheSpoilt := by
  simp only [resumeThread]
  split
  · split <;> simp
  · simp
@[simp] theorem resumeThread_dispatchers (s : State) (r : SlotRef) : (resumeThread s r).dispatchers = s.dispatchers := by
  simp only [resumeThread]
  split
  · split <;> simp
  · simp
@[simp] theorem resumeThread_weirs (s : State) (r : SlotRef) : (resumeThread s r).weirs = s.weirs := by
  simp only [resumeThread]
  split
  · split <;> simp
  · simp
@[simp] theorem resumeThread_gangs (s : State) (r : SlotRef) : (resumeThread s r).gangs = s.gangs := by
  simp only [resumeThread]
  split
  · split <;> simp
  · simp
@[simp] theorem resumeThread_flights (s : State) (r : SlotRef) : (resumeThread s r).flights = s.flights := by
  simp only [resumeThread]
  split
  · split <;> simp
  · simp
@[simp] theorem resumeThread_occupancy (s : State) (r : SlotRef) : (resumeThread s r).occupancy = s.occupancy := by
  simp only [resumeThread]
  split
  · split <;> simp
  · simp
@[simp] theorem resumeThread_sampled (s : State) (r : SlotRef) : (resumeThread s r).sampled = s.sampled := by
  simp only [resumeThread]
  split
  · split <;> simp
  · simp
@[simp] theorem resumeThread_pools (s : State) (r : SlotRef) : (resumeThread s r).pools = s.pools := by
  simp only [resumeThread]
  split
  · split <;> simp
  · simp
@[simp] theorem resumeThread_subs (s : State) (r : SlotRef) : (resumeThread s r).subs = s.subs := by
  simp only [resumeThread]
  split
  · split <;> simp
  · simp
@[simp] theorem resumeThread_lost (s : State) (r : SlotRef) : (resumeThread s r).lost = s.lost := by
  simp only [resumeThread]
  split
  · split <;> simp
  · simp
@[simp] theorem resumeThread_rotations (s : State) (r : SlotRef) : (resumeThread s r).rotations = s.rotations := by
  simp only [resumeThread]
  split
  · split <;> simp
  · simp
@[simp] theorem resumeThread_saves (s : State) (r : SlotRef) : (resumeThread s r).saves = s.saves := by
  simp only [resumeThread]
  split
  · split <;> simp
  · simp
@[simp] theorem resumeThread_owner (s : State) (r : SlotRef) : (resumeThread s r).owner = s.owner := by
  simp only [resumeThread]
  split
  · split <;> simp
  · simp
@[simp] theorem resumeThread_ready (s : State) (r : SlotRef) : (resumeThread s r).ready = s.ready := by
  simp only [resumeThread]
  split
  · split <;> simp
  · simp
@[simp] theorem resumeThread_mboxStamp (s : State) (r : SlotRef) : (resumeThread s r).mboxStamp = s.mboxStamp := by
  simp only [resumeThread]
  split
  · split <;> simp
  · simp
@[simp] theorem resumeThread_mboxStatus (s : State) (r : SlotRef) : (resumeThread s r).mboxStatus = s.mboxStatus := by
  simp only [resumeThread]
  split
  · split <;> simp
  · simp
@[simp] theorem resumeThread_mboxBusy (s : State) (r : SlotRef) : (resumeThread s r).mboxBusy = s.mboxBusy := by
  simp only [resumeThread]
  split
  · split <;> simp
  · simp
@[simp] theorem resumeThread_mboxWait (s : State) (r : SlotRef) : (resumeThread s r).mboxWait = s.mboxWait := by
  simp only [resumeThread]
  split
  · split <;> simp
  · simp
@[simp] theorem resumeThread_fns (s : State) (r : SlotRef) : (resumeThread s r).fns = s.fns := by
  simp only [resumeThread]
  split
  · split <;> simp
  · simp
@[simp] theorem resumeThread_attached (s : State) (r : SlotRef) : (resumeThread s r).attached = s.attached := by
  simp only [resumeThread]
  split
  · split <;> simp
  · simp
@[simp] theorem resumeThread_monitors (s : State) (r : SlotRef) : (resumeThread s r).monitors = s.monitors := by
  simp only [resumeThread]
  split
  · split <;> simp
  · simp
@[simp] theorem resumeThread_measures (s : State) (r : SlotRef) : (resumeThread s r).measures = s.measures := by
  simp only [resumeThread]
  split
  · split <;> simp
  · simp
@[simp] theorem resumeThread_channels (s : State) (r : SlotRef) : (resumeThread s r).channels = s.channels := by
  simp only [resumeThread]
  split
  · split <;> simp
  · simp
@[simp] theorem resumeThread_spdmStage (s : State) (r : SlotRef) : (resumeThread s r).spdmStage = s.spdmStage := by
  simp only [resumeThread]
  split
  · split <;> simp
  · simp
@[simp] theorem resumeThread_spdmTrans (s : State) (r : SlotRef) : (resumeThread s r).spdmTrans = s.spdmTrans := by
  simp only [resumeThread]
  split
  · split <;> simp
  · simp
@[simp] theorem resumeThread_gated (s : State) (r : SlotRef) : (resumeThread s r).gated = s.gated := by
  simp only [resumeThread]
  split
  · split <;> simp
  · simp
@[simp] theorem resumeThread_throttled (s : State) (r : SlotRef) : (resumeThread s r).throttled = s.throttled := by
  simp only [resumeThread]
  split
  · split <;> simp
  · simp
@[simp] theorem resumeThread_out (s : State) (r : SlotRef) : (resumeThread s r).out = s.out := by
  simp only [resumeThread]
  split
  · split <;> simp
  · simp

/-! ### Thread: writing, emptying and pending a g register -/

@[simp] theorem Thread.setG_id (t : Thread) (n : Fin 40) (v : Word) : (t.setG n v).id = t.id := rfl
@[simp] theorem Thread.setG_world (t : Thread) (n : Fin 40) (v : Word) : (t.setG n v).world = t.world := rfl
@[simp] theorem Thread.setG_polder (t : Thread) (n : Fin 40) (v : Word) : (t.setG n v).polder = t.polder := rfl
@[simp] theorem Thread.setG_region (t : Thread) (n : Fin 40) (v : Word) : (t.setG n v).region = t.region := rfl
@[simp] theorem Thread.setG_role (t : Thread) (n : Fin 40) (v : Word) : (t.setG n v).role = t.role := rfl
@[simp] theorem Thread.setG_pc (t : Thread) (n : Fin 40) (v : Word) : (t.setG n v).pc = t.pc := rfl
@[simp] theorem Thread.setG_skip (t : Thread) (n : Fin 40) (v : Word) : (t.setG n v).skip = t.skip := rfl
@[simp] theorem Thread.setG_x (t : Thread) (n : Fin 40) (v : Word) : (t.setG n v).x = t.x := rfl
@[simp] theorem Thread.setG_lk (t : Thread) (n : Fin 40) (v : Word) : (t.setG n v).lk = t.lk := rfl
@[simp] theorem Thread.setG_shapes (t : Thread) (n : Fin 40) (v : Word) : (t.setG n v).shapes = t.shapes := rfl
@[simp] theorem Thread.setG_handles (t : Thread) (n : Fin 40) (v : Word) : (t.setG n v).handles = t.handles := rfl
@[simp] theorem Thread.setG_unfolds (t : Thread) (n : Fin 40) (v : Word) : (t.setG n v).unfolds = t.unfolds := rfl
@[simp] theorem Thread.setG_sluices (t : Thread) (n : Fin 40) (v : Word) : (t.setG n v).sluices = t.sluices := rfl
@[simp] theorem Thread.setG_cq (t : Thread) (n : Fin 40) (v : Word) : (t.setG n v).cq = t.cq := rfl
@[simp] theorem Thread.setG_dikelo (t : Thread) (n : Fin 40) (v : Word) : (t.setG n v).dikelo = t.dikelo := rfl
@[simp] theorem Thread.setG_dikehi (t : Thread) (n : Fin 40) (v : Word) : (t.setG n v).dikehi = t.dikehi := rfl
@[simp] theorem Thread.setG_fvec (t : Thread) (n : Fin 40) (v : Word) : (t.setG n v).fvec = t.fvec := rfl
@[simp] theorem Thread.setG_fcause (t : Thread) (n : Fin 40) (v : Word) : (t.setG n v).fcause = t.fcause := rfl
@[simp] theorem Thread.setG_faddr (t : Thread) (n : Fin 40) (v : Word) : (t.setG n v).faddr = t.faddr := rfl
@[simp] theorem Thread.setG_fpriv (t : Thread) (n : Fin 40) (v : Word) : (t.setG n v).fpriv = t.fpriv := rfl
@[simp] theorem Thread.setG_meter (t : Thread) (n : Fin 40) (v : Word) : (t.setG n v).meter = t.meter := rfl
@[simp] theorem Thread.setG_wdog (t : Thread) (n : Fin 40) (v : Word) : (t.setG n v).wdog = t.wdog := rfl
@[simp] theorem Thread.setG_farHandles (t : Thread) (n : Fin 40) (v : Word) : (t.setG n v).farHandles = t.farHandles := rfl
@[simp] theorem Thread.setG_tree (t : Thread) (n : Fin 40) (v : Word) : (t.setG n v).tree = t.tree := rfl
@[simp] theorem Thread.setG_fflags (t : Thread) (n : Fin 40) (v : Word) : (t.setG n v).fflags = t.fflags := rfl
@[simp] theorem Thread.setG_claim (t : Thread) (n : Fin 40) (v : Word) : (t.setG n v).claim = t.claim := rfl
@[simp] theorem Thread.setG_blocks (t : Thread) (n : Fin 40) (v : Word) : (t.setG n v).blocks = t.blocks := rfl
@[simp] theorem Thread.setG_pageBase (t : Thread) (n : Fin 40) (v : Word) : (t.setG n v).pageBase = t.pageBase := rfl
@[simp] theorem Thread.setG_pages (t : Thread) (n : Fin 40) (v : Word) : (t.setG n v).pages = t.pages := rfl
@[simp] theorem Thread.setG_tiles (t : Thread) (n : Fin 40) (v : Word) : (t.setG n v).tiles = t.tiles := rfl
@[simp] theorem Thread.setG_granted (t : Thread) (n : Fin 40) (v : Word) : (t.setG n v).granted = t.granted := rfl
@[simp] theorem Thread.setG_acq (t : Thread) (n : Fin 40) (v : Word) : (t.setG n v).acq = t.acq := rfl
@[simp] theorem Thread.setG_wakeBit (t : Thread) (n : Fin 40) (v : Word) : (t.setG n v).wakeBit = t.wakeBit := rfl
@[simp] theorem Thread.setG_yieldTo (t : Thread) (n : Fin 40) (v : Word) : (t.setG n v).yieldTo = t.yieldTo := rfl
@[simp] theorem Thread.setG_nest (t : Thread) (n : Fin 40) (v : Word) : (t.setG n v).nest = t.nest := rfl
@[simp] theorem Thread.setG_parked (t : Thread) (n : Fin 40) (v : Word) : (t.setG n v).parked = t.parked := rfl
@[simp] theorem Thread.setG_halted (t : Thread) (n : Fin 40) (v : Word) : (t.setG n v).halted = t.halted := rfl
@[simp] theorem Thread.setG_emwBy (t : Thread) (n : Fin 40) (v : Word) : (t.setG n v).emwBy = t.emwBy := rfl
@[simp] theorem Thread.setG_stale (t : Thread) (n : Fin 40) (v : Word) : (t.setG n v).stale = t.stale := rfl
@[simp] theorem Thread.setG_treeWait (t : Thread) (n : Fin 40) (v : Word) : (t.setG n v).treeWait = t.treeWait := rfl
@[simp] theorem Thread.setG_weirDone (t : Thread) (n : Fin 40) (v : Word) : (t.setG n v).weirDone = t.weirDone := rfl
@[simp] theorem Thread.setG_unissued (t : Thread) (n : Fin 40) (v : Word) : (t.setG n v).unissued = t.unissued := rfl
@[simp] theorem Thread.emptyG_id (t : Thread) (n : Fin 40) : (t.emptyG n).id = t.id := rfl
@[simp] theorem Thread.emptyG_world (t : Thread) (n : Fin 40) : (t.emptyG n).world = t.world := rfl
@[simp] theorem Thread.emptyG_polder (t : Thread) (n : Fin 40) : (t.emptyG n).polder = t.polder := rfl
@[simp] theorem Thread.emptyG_region (t : Thread) (n : Fin 40) : (t.emptyG n).region = t.region := rfl
@[simp] theorem Thread.emptyG_role (t : Thread) (n : Fin 40) : (t.emptyG n).role = t.role := rfl
@[simp] theorem Thread.emptyG_pc (t : Thread) (n : Fin 40) : (t.emptyG n).pc = t.pc := rfl
@[simp] theorem Thread.emptyG_skip (t : Thread) (n : Fin 40) : (t.emptyG n).skip = t.skip := rfl
@[simp] theorem Thread.emptyG_x (t : Thread) (n : Fin 40) : (t.emptyG n).x = t.x := rfl
@[simp] theorem Thread.emptyG_lk (t : Thread) (n : Fin 40) : (t.emptyG n).lk = t.lk := rfl
@[simp] theorem Thread.emptyG_shapes (t : Thread) (n : Fin 40) : (t.emptyG n).shapes = t.shapes := rfl
@[simp] theorem Thread.emptyG_handles (t : Thread) (n : Fin 40) : (t.emptyG n).handles = t.handles := rfl
@[simp] theorem Thread.emptyG_unfolds (t : Thread) (n : Fin 40) : (t.emptyG n).unfolds = t.unfolds := rfl
@[simp] theorem Thread.emptyG_sluices (t : Thread) (n : Fin 40) : (t.emptyG n).sluices = t.sluices := rfl
@[simp] theorem Thread.emptyG_cq (t : Thread) (n : Fin 40) : (t.emptyG n).cq = t.cq := rfl
@[simp] theorem Thread.emptyG_dikelo (t : Thread) (n : Fin 40) : (t.emptyG n).dikelo = t.dikelo := rfl
@[simp] theorem Thread.emptyG_dikehi (t : Thread) (n : Fin 40) : (t.emptyG n).dikehi = t.dikehi := rfl
@[simp] theorem Thread.emptyG_fvec (t : Thread) (n : Fin 40) : (t.emptyG n).fvec = t.fvec := rfl
@[simp] theorem Thread.emptyG_fcause (t : Thread) (n : Fin 40) : (t.emptyG n).fcause = t.fcause := rfl
@[simp] theorem Thread.emptyG_faddr (t : Thread) (n : Fin 40) : (t.emptyG n).faddr = t.faddr := rfl
@[simp] theorem Thread.emptyG_fpriv (t : Thread) (n : Fin 40) : (t.emptyG n).fpriv = t.fpriv := rfl
@[simp] theorem Thread.emptyG_meter (t : Thread) (n : Fin 40) : (t.emptyG n).meter = t.meter := rfl
@[simp] theorem Thread.emptyG_wdog (t : Thread) (n : Fin 40) : (t.emptyG n).wdog = t.wdog := rfl
@[simp] theorem Thread.emptyG_farHandles (t : Thread) (n : Fin 40) : (t.emptyG n).farHandles = t.farHandles := rfl
@[simp] theorem Thread.emptyG_tree (t : Thread) (n : Fin 40) : (t.emptyG n).tree = t.tree := rfl
@[simp] theorem Thread.emptyG_fflags (t : Thread) (n : Fin 40) : (t.emptyG n).fflags = t.fflags := rfl
@[simp] theorem Thread.emptyG_claim (t : Thread) (n : Fin 40) : (t.emptyG n).claim = t.claim := rfl
@[simp] theorem Thread.emptyG_blocks (t : Thread) (n : Fin 40) : (t.emptyG n).blocks = t.blocks := rfl
@[simp] theorem Thread.emptyG_pageBase (t : Thread) (n : Fin 40) : (t.emptyG n).pageBase = t.pageBase := rfl
@[simp] theorem Thread.emptyG_pages (t : Thread) (n : Fin 40) : (t.emptyG n).pages = t.pages := rfl
@[simp] theorem Thread.emptyG_tiles (t : Thread) (n : Fin 40) : (t.emptyG n).tiles = t.tiles := rfl
@[simp] theorem Thread.emptyG_granted (t : Thread) (n : Fin 40) : (t.emptyG n).granted = t.granted := rfl
@[simp] theorem Thread.emptyG_acq (t : Thread) (n : Fin 40) : (t.emptyG n).acq = t.acq := rfl
@[simp] theorem Thread.emptyG_wakeBit (t : Thread) (n : Fin 40) : (t.emptyG n).wakeBit = t.wakeBit := rfl
@[simp] theorem Thread.emptyG_yieldTo (t : Thread) (n : Fin 40) : (t.emptyG n).yieldTo = t.yieldTo := rfl
@[simp] theorem Thread.emptyG_nest (t : Thread) (n : Fin 40) : (t.emptyG n).nest = t.nest := rfl
@[simp] theorem Thread.emptyG_parked (t : Thread) (n : Fin 40) : (t.emptyG n).parked = t.parked := rfl
@[simp] theorem Thread.emptyG_halted (t : Thread) (n : Fin 40) : (t.emptyG n).halted = t.halted := rfl
@[simp] theorem Thread.emptyG_emwBy (t : Thread) (n : Fin 40) : (t.emptyG n).emwBy = t.emwBy := rfl
@[simp] theorem Thread.emptyG_stale (t : Thread) (n : Fin 40) : (t.emptyG n).stale = t.stale := rfl
@[simp] theorem Thread.emptyG_treeWait (t : Thread) (n : Fin 40) : (t.emptyG n).treeWait = t.treeWait := rfl
@[simp] theorem Thread.emptyG_weirDone (t : Thread) (n : Fin 40) : (t.emptyG n).weirDone = t.weirDone := rfl
@[simp] theorem Thread.emptyG_unissued (t : Thread) (n : Fin 40) : (t.emptyG n).unissued = t.unissued := rfl
@[simp] theorem Thread.pendG_id (t : Thread) (n : Fin 40) : (t.pendG n).id = t.id := rfl
@[simp] theorem Thread.pendG_world (t : Thread) (n : Fin 40) : (t.pendG n).world = t.world := rfl
@[simp] theorem Thread.pendG_polder (t : Thread) (n : Fin 40) : (t.pendG n).polder = t.polder := rfl
@[simp] theorem Thread.pendG_region (t : Thread) (n : Fin 40) : (t.pendG n).region = t.region := rfl
@[simp] theorem Thread.pendG_role (t : Thread) (n : Fin 40) : (t.pendG n).role = t.role := rfl
@[simp] theorem Thread.pendG_pc (t : Thread) (n : Fin 40) : (t.pendG n).pc = t.pc := rfl
@[simp] theorem Thread.pendG_skip (t : Thread) (n : Fin 40) : (t.pendG n).skip = t.skip := rfl
@[simp] theorem Thread.pendG_x (t : Thread) (n : Fin 40) : (t.pendG n).x = t.x := rfl
@[simp] theorem Thread.pendG_lk (t : Thread) (n : Fin 40) : (t.pendG n).lk = t.lk := rfl
@[simp] theorem Thread.pendG_shapes (t : Thread) (n : Fin 40) : (t.pendG n).shapes = t.shapes := rfl
@[simp] theorem Thread.pendG_handles (t : Thread) (n : Fin 40) : (t.pendG n).handles = t.handles := rfl
@[simp] theorem Thread.pendG_unfolds (t : Thread) (n : Fin 40) : (t.pendG n).unfolds = t.unfolds := rfl
@[simp] theorem Thread.pendG_sluices (t : Thread) (n : Fin 40) : (t.pendG n).sluices = t.sluices := rfl
@[simp] theorem Thread.pendG_cq (t : Thread) (n : Fin 40) : (t.pendG n).cq = t.cq := rfl
@[simp] theorem Thread.pendG_dikelo (t : Thread) (n : Fin 40) : (t.pendG n).dikelo = t.dikelo := rfl
@[simp] theorem Thread.pendG_dikehi (t : Thread) (n : Fin 40) : (t.pendG n).dikehi = t.dikehi := rfl
@[simp] theorem Thread.pendG_fvec (t : Thread) (n : Fin 40) : (t.pendG n).fvec = t.fvec := rfl
@[simp] theorem Thread.pendG_fcause (t : Thread) (n : Fin 40) : (t.pendG n).fcause = t.fcause := rfl
@[simp] theorem Thread.pendG_faddr (t : Thread) (n : Fin 40) : (t.pendG n).faddr = t.faddr := rfl
@[simp] theorem Thread.pendG_fpriv (t : Thread) (n : Fin 40) : (t.pendG n).fpriv = t.fpriv := rfl
@[simp] theorem Thread.pendG_meter (t : Thread) (n : Fin 40) : (t.pendG n).meter = t.meter := rfl
@[simp] theorem Thread.pendG_wdog (t : Thread) (n : Fin 40) : (t.pendG n).wdog = t.wdog := rfl
@[simp] theorem Thread.pendG_farHandles (t : Thread) (n : Fin 40) : (t.pendG n).farHandles = t.farHandles := rfl
@[simp] theorem Thread.pendG_tree (t : Thread) (n : Fin 40) : (t.pendG n).tree = t.tree := rfl
@[simp] theorem Thread.pendG_fflags (t : Thread) (n : Fin 40) : (t.pendG n).fflags = t.fflags := rfl
@[simp] theorem Thread.pendG_claim (t : Thread) (n : Fin 40) : (t.pendG n).claim = t.claim := rfl
@[simp] theorem Thread.pendG_blocks (t : Thread) (n : Fin 40) : (t.pendG n).blocks = t.blocks := rfl
@[simp] theorem Thread.pendG_pageBase (t : Thread) (n : Fin 40) : (t.pendG n).pageBase = t.pageBase := rfl
@[simp] theorem Thread.pendG_pages (t : Thread) (n : Fin 40) : (t.pendG n).pages = t.pages := rfl
@[simp] theorem Thread.pendG_tiles (t : Thread) (n : Fin 40) : (t.pendG n).tiles = t.tiles := rfl
@[simp] theorem Thread.pendG_granted (t : Thread) (n : Fin 40) : (t.pendG n).granted = t.granted := rfl
@[simp] theorem Thread.pendG_acq (t : Thread) (n : Fin 40) : (t.pendG n).acq = t.acq := rfl
@[simp] theorem Thread.pendG_wakeBit (t : Thread) (n : Fin 40) : (t.pendG n).wakeBit = t.wakeBit := rfl
@[simp] theorem Thread.pendG_yieldTo (t : Thread) (n : Fin 40) : (t.pendG n).yieldTo = t.yieldTo := rfl
@[simp] theorem Thread.pendG_nest (t : Thread) (n : Fin 40) : (t.pendG n).nest = t.nest := rfl
@[simp] theorem Thread.pendG_parked (t : Thread) (n : Fin 40) : (t.pendG n).parked = t.parked := rfl
@[simp] theorem Thread.pendG_halted (t : Thread) (n : Fin 40) : (t.pendG n).halted = t.halted := rfl
@[simp] theorem Thread.pendG_emwBy (t : Thread) (n : Fin 40) : (t.pendG n).emwBy = t.emwBy := rfl
@[simp] theorem Thread.pendG_stale (t : Thread) (n : Fin 40) : (t.pendG n).stale = t.stale := rfl
@[simp] theorem Thread.pendG_treeWait (t : Thread) (n : Fin 40) : (t.pendG n).treeWait = t.treeWait := rfl
@[simp] theorem Thread.pendG_weirDone (t : Thread) (n : Fin 40) : (t.pendG n).weirDone = t.weirDone := rfl
@[simp] theorem Thread.pendG_unissued (t : Thread) (n : Fin 40) : (t.pendG n).unissued = t.unissued := rfl

/-! ### Thread.advance, orFlags -/

@[simp] theorem Thread.advance_id (t : Thread) (n : Nat) : (t.advance n).id = t.id := rfl
@[simp] theorem Thread.advance_world (t : Thread) (n : Nat) : (t.advance n).world = t.world := rfl
@[simp] theorem Thread.advance_polder (t : Thread) (n : Nat) : (t.advance n).polder = t.polder := rfl
@[simp] theorem Thread.advance_region (t : Thread) (n : Nat) : (t.advance n).region = t.region := rfl
@[simp] theorem Thread.advance_role (t : Thread) (n : Nat) : (t.advance n).role = t.role := rfl
@[simp] theorem Thread.advance_skip (t : Thread) (n : Nat) : (t.advance n).skip = t.skip := rfl
@[simp] theorem Thread.advance_g (t : Thread) (n : Nat) : (t.advance n).g = t.g := rfl
@[simp] theorem Thread.advance_x (t : Thread) (n : Nat) : (t.advance n).x = t.x := rfl
@[simp] theorem Thread.advance_lk (t : Thread) (n : Nat) : (t.advance n).lk = t.lk := rfl
@[simp] theorem Thread.advance_shapes (t : Thread) (n : Nat) : (t.advance n).shapes = t.shapes := rfl
@[simp] theorem Thread.advance_handles (t : Thread) (n : Nat) : (t.advance n).handles = t.handles := rfl
@[simp] theorem Thread.advance_unfolds (t : Thread) (n : Nat) : (t.advance n).unfolds = t.unfolds := rfl
@[simp] theorem Thread.advance_sluices (t : Thread) (n : Nat) : (t.advance n).sluices = t.sluices := rfl
@[simp] theorem Thread.advance_dikelo (t : Thread) (n : Nat) : (t.advance n).dikelo = t.dikelo := rfl
@[simp] theorem Thread.advance_dikehi (t : Thread) (n : Nat) : (t.advance n).dikehi = t.dikehi := rfl
@[simp] theorem Thread.advance_fvec (t : Thread) (n : Nat) : (t.advance n).fvec = t.fvec := rfl
@[simp] theorem Thread.advance_fcause (t : Thread) (n : Nat) : (t.advance n).fcause = t.fcause := rfl
@[simp] theorem Thread.advance_faddr (t : Thread) (n : Nat) : (t.advance n).faddr = t.faddr := rfl
@[simp] theorem Thread.advance_fpriv (t : Thread) (n : Nat) : (t.advance n).fpriv = t.fpriv := rfl
@[simp] theorem Thread.advance_meter (t : Thread) (n : Nat) : (t.advance n).meter = t.meter := rfl
@[simp] theorem Thread.advance_wdog (t : Thread) (n : Nat) : (t.advance n).wdog = t.wdog := rfl
@[simp] theorem Thread.advance_farHandles (t : Thread) (n : Nat) : (t.advance n).farHandles = t.farHandles := rfl
@[simp] theorem Thread.advance_tree (t : Thread) (n : Nat) : (t.advance n).tree = t.tree := rfl
@[simp] theorem Thread.advance_fflags (t : Thread) (n : Nat) : (t.advance n).fflags = t.fflags := rfl
@[simp] theorem Thread.advance_claim (t : Thread) (n : Nat) : (t.advance n).claim = t.claim := rfl
@[simp] theorem Thread.advance_blocks (t : Thread) (n : Nat) : (t.advance n).blocks = t.blocks := rfl
@[simp] theorem Thread.advance_pageBase (t : Thread) (n : Nat) : (t.advance n).pageBase = t.pageBase := rfl
@[simp] theorem Thread.advance_pages (t : Thread) (n : Nat) : (t.advance n).pages = t.pages := rfl
@[simp] theorem Thread.advance_tiles (t : Thread) (n : Nat) : (t.advance n).tiles = t.tiles := rfl
@[simp] theorem Thread.advance_granted (t : Thread) (n : Nat) : (t.advance n).granted = t.granted := rfl
@[simp] theorem Thread.advance_acq (t : Thread) (n : Nat) : (t.advance n).acq = t.acq := rfl
@[simp] theorem Thread.advance_wakeBit (t : Thread) (n : Nat) : (t.advance n).wakeBit = t.wakeBit := rfl
@[simp] theorem Thread.advance_yieldTo (t : Thread) (n : Nat) : (t.advance n).yieldTo = t.yieldTo := rfl
@[simp] theorem Thread.advance_nest (t : Thread) (n : Nat) : (t.advance n).nest = t.nest := rfl
@[simp] theorem Thread.advance_halted (t : Thread) (n : Nat) : (t.advance n).halted = t.halted := rfl
@[simp] theorem Thread.advance_emwBy (t : Thread) (n : Nat) : (t.advance n).emwBy = t.emwBy := rfl
@[simp] theorem Thread.advance_stale (t : Thread) (n : Nat) : (t.advance n).stale = t.stale := rfl
@[simp] theorem Thread.advance_treeWait (t : Thread) (n : Nat) : (t.advance n).treeWait = t.treeWait := rfl
@[simp] theorem Thread.advance_weirDone (t : Thread) (n : Nat) : (t.advance n).weirDone = t.weirDone := rfl
@[simp] theorem Thread.advance_cq (t : Thread) (n : Nat) : (t.advance n).cq = t.cq.map (fun e => { e with since := e.since + 1 }) := rfl
@[simp] theorem Thread.advance_pc (t : Thread) (n : Nat) : (t.advance n).pc = t.pc + BitVec.ofNat 64 n := rfl
@[simp] theorem Thread.advance_parked (t : Thread) (n : Nat) : (t.advance n).parked = none := rfl
@[simp] theorem Thread.advance_unissued (t : Thread) (n : Nat) : (t.advance n).unissued = false := rfl
@[simp] theorem Thread.orFlags_id (t : Thread) (f : FFlags) : (t.orFlags f).id = t.id := rfl
@[simp] theorem Thread.orFlags_world (t : Thread) (f : FFlags) : (t.orFlags f).world = t.world := rfl
@[simp] theorem Thread.orFlags_polder (t : Thread) (f : FFlags) : (t.orFlags f).polder = t.polder := rfl
@[simp] theorem Thread.orFlags_region (t : Thread) (f : FFlags) : (t.orFlags f).region = t.region := rfl
@[simp] theorem Thread.orFlags_role (t : Thread) (f : FFlags) : (t.orFlags f).role = t.role := rfl
@[simp] theorem Thread.orFlags_pc (t : Thread) (f : FFlags) : (t.orFlags f).pc = t.pc := rfl
@[simp] theorem Thread.orFlags_skip (t : Thread) (f : FFlags) : (t.orFlags f).skip = t.skip := rfl
@[simp] theorem Thread.orFlags_g (t : Thread) (f : FFlags) : (t.orFlags f).g = t.g := rfl
@[simp] theorem Thread.orFlags_x (t : Thread) (f : FFlags) : (t.orFlags f).x = t.x := rfl
@[simp] theorem Thread.orFlags_lk (t : Thread) (f : FFlags) : (t.orFlags f).lk = t.lk := rfl
@[simp] theorem Thread.orFlags_shapes (t : Thread) (f : FFlags) : (t.orFlags f).shapes = t.shapes := rfl
@[simp] theorem Thread.orFlags_handles (t : Thread) (f : FFlags) : (t.orFlags f).handles = t.handles := rfl
@[simp] theorem Thread.orFlags_unfolds (t : Thread) (f : FFlags) : (t.orFlags f).unfolds = t.unfolds := rfl
@[simp] theorem Thread.orFlags_sluices (t : Thread) (f : FFlags) : (t.orFlags f).sluices = t.sluices := rfl
@[simp] theorem Thread.orFlags_cq (t : Thread) (f : FFlags) : (t.orFlags f).cq = t.cq := rfl
@[simp] theorem Thread.orFlags_dikelo (t : Thread) (f : FFlags) : (t.orFlags f).dikelo = t.dikelo := rfl
@[simp] theorem Thread.orFlags_dikehi (t : Thread) (f : FFlags) : (t.orFlags f).dikehi = t.dikehi := rfl
@[simp] theorem Thread.orFlags_fvec (t : Thread) (f : FFlags) : (t.orFlags f).fvec = t.fvec := rfl
@[simp] theorem Thread.orFlags_fcause (t : Thread) (f : FFlags) : (t.orFlags f).fcause = t.fcause := rfl
@[simp] theorem Thread.orFlags_faddr (t : Thread) (f : FFlags) : (t.orFlags f).faddr = t.faddr := rfl
@[simp] theorem Thread.orFlags_fpriv (t : Thread) (f : FFlags) : (t.orFlags f).fpriv = t.fpriv := rfl
@[simp] theorem Thread.orFlags_meter (t : Thread) (f : FFlags) : (t.orFlags f).meter = t.meter := rfl
@[simp] theorem Thread.orFlags_wdog (t : Thread) (f : FFlags) : (t.orFlags f).wdog = t.wdog := rfl
@[simp] theorem Thread.orFlags_farHandles (t : Thread) (f : FFlags) : (t.orFlags f).farHandles = t.farHandles := rfl
@[simp] theorem Thread.orFlags_tree (t : Thread) (f : FFlags) : (t.orFlags f).tree = t.tree := rfl
@[simp] theorem Thread.orFlags_claim (t : Thread) (f : FFlags) : (t.orFlags f).claim = t.claim := rfl
@[simp] theorem Thread.orFlags_blocks (t : Thread) (f : FFlags) : (t.orFlags f).blocks = t.blocks := rfl
@[simp] theorem Thread.orFlags_pageBase (t : Thread) (f : FFlags) : (t.orFlags f).pageBase = t.pageBase := rfl
@[simp] theorem Thread.orFlags_pages (t : Thread) (f : FFlags) : (t.orFlags f).pages = t.pages := rfl
@[simp] theorem Thread.orFlags_tiles (t : Thread) (f : FFlags) : (t.orFlags f).tiles = t.tiles := rfl
@[simp] theorem Thread.orFlags_granted (t : Thread) (f : FFlags) : (t.orFlags f).granted = t.granted := rfl
@[simp] theorem Thread.orFlags_acq (t : Thread) (f : FFlags) : (t.orFlags f).acq = t.acq := rfl
@[simp] theorem Thread.orFlags_wakeBit (t : Thread) (f : FFlags) : (t.orFlags f).wakeBit = t.wakeBit := rfl
@[simp] theorem Thread.orFlags_yieldTo (t : Thread) (f : FFlags) : (t.orFlags f).yieldTo = t.yieldTo := rfl
@[simp] theorem Thread.orFlags_nest (t : Thread) (f : FFlags) : (t.orFlags f).nest = t.nest := rfl
@[simp] theorem Thread.orFlags_parked (t : Thread) (f : FFlags) : (t.orFlags f).parked = t.parked := rfl
@[simp] theorem Thread.orFlags_halted (t : Thread) (f : FFlags) : (t.orFlags f).halted = t.halted := rfl
@[simp] theorem Thread.orFlags_emwBy (t : Thread) (f : FFlags) : (t.orFlags f).emwBy = t.emwBy := rfl
@[simp] theorem Thread.orFlags_stale (t : Thread) (f : FFlags) : (t.orFlags f).stale = t.stale := rfl
@[simp] theorem Thread.orFlags_treeWait (t : Thread) (f : FFlags) : (t.orFlags f).treeWait = t.treeWait := rfl
@[simp] theorem Thread.orFlags_weirDone (t : Thread) (f : FFlags) : (t.orFlags f).weirDone = t.weirDone := rfl
@[simp] theorem Thread.orFlags_unissued (t : Thread) (f : FFlags) : (t.orFlags f).unissued = t.unissued := rfl
@[simp] theorem Thread.orFlags_fflags (t : Thread) (f : FFlags) : (t.orFlags f).fflags = t.fflags ||| f := rfl

/-! ### Thread.mark, write, pend -/

@[simp] theorem Thread.mark_id (t : Thread) (on : Bool) (r : Reg) : (t.mark on r).id = t.id := by cases r <;> cases on <;> rfl
@[simp] theorem Thread.mark_world (t : Thread) (on : Bool) (r : Reg) : (t.mark on r).world = t.world := by cases r <;> cases on <;> rfl
@[simp] theorem Thread.mark_polder (t : Thread) (on : Bool) (r : Reg) : (t.mark on r).polder = t.polder := by cases r <;> cases on <;> rfl
@[simp] theorem Thread.mark_region (t : Thread) (on : Bool) (r : Reg) : (t.mark on r).region = t.region := by cases r <;> cases on <;> rfl
@[simp] theorem Thread.mark_role (t : Thread) (on : Bool) (r : Reg) : (t.mark on r).role = t.role := by cases r <;> cases on <;> rfl
@[simp] theorem Thread.mark_pc (t : Thread) (on : Bool) (r : Reg) : (t.mark on r).pc = t.pc := by cases r <;> cases on <;> rfl
@[simp] theorem Thread.mark_skip (t : Thread) (on : Bool) (r : Reg) : (t.mark on r).skip = t.skip := by cases r <;> cases on <;> rfl
@[simp] theorem Thread.mark_x (t : Thread) (on : Bool) (r : Reg) : (t.mark on r).x = t.x := by cases r <;> cases on <;> rfl
@[simp] theorem Thread.mark_lk (t : Thread) (on : Bool) (r : Reg) : (t.mark on r).lk = t.lk := by cases r <;> cases on <;> rfl
@[simp] theorem Thread.mark_shapes (t : Thread) (on : Bool) (r : Reg) : (t.mark on r).shapes = t.shapes := by cases r <;> cases on <;> rfl
@[simp] theorem Thread.mark_handles (t : Thread) (on : Bool) (r : Reg) : (t.mark on r).handles = t.handles := by cases r <;> cases on <;> rfl
@[simp] theorem Thread.mark_unfolds (t : Thread) (on : Bool) (r : Reg) : (t.mark on r).unfolds = t.unfolds := by cases r <;> cases on <;> rfl
@[simp] theorem Thread.mark_sluices (t : Thread) (on : Bool) (r : Reg) : (t.mark on r).sluices = t.sluices := by cases r <;> cases on <;> rfl
@[simp] theorem Thread.mark_cq (t : Thread) (on : Bool) (r : Reg) : (t.mark on r).cq = t.cq := by cases r <;> cases on <;> rfl
@[simp] theorem Thread.mark_dikelo (t : Thread) (on : Bool) (r : Reg) : (t.mark on r).dikelo = t.dikelo := by cases r <;> cases on <;> rfl
@[simp] theorem Thread.mark_dikehi (t : Thread) (on : Bool) (r : Reg) : (t.mark on r).dikehi = t.dikehi := by cases r <;> cases on <;> rfl
@[simp] theorem Thread.mark_fvec (t : Thread) (on : Bool) (r : Reg) : (t.mark on r).fvec = t.fvec := by cases r <;> cases on <;> rfl
@[simp] theorem Thread.mark_fcause (t : Thread) (on : Bool) (r : Reg) : (t.mark on r).fcause = t.fcause := by cases r <;> cases on <;> rfl
@[simp] theorem Thread.mark_faddr (t : Thread) (on : Bool) (r : Reg) : (t.mark on r).faddr = t.faddr := by cases r <;> cases on <;> rfl
@[simp] theorem Thread.mark_fpriv (t : Thread) (on : Bool) (r : Reg) : (t.mark on r).fpriv = t.fpriv := by cases r <;> cases on <;> rfl
@[simp] theorem Thread.mark_meter (t : Thread) (on : Bool) (r : Reg) : (t.mark on r).meter = t.meter := by cases r <;> cases on <;> rfl
@[simp] theorem Thread.mark_wdog (t : Thread) (on : Bool) (r : Reg) : (t.mark on r).wdog = t.wdog := by cases r <;> cases on <;> rfl
@[simp] theorem Thread.mark_farHandles (t : Thread) (on : Bool) (r : Reg) : (t.mark on r).farHandles = t.farHandles := by cases r <;> cases on <;> rfl
@[simp] theorem Thread.mark_tree (t : Thread) (on : Bool) (r : Reg) : (t.mark on r).tree = t.tree := by cases r <;> cases on <;> rfl
@[simp] theorem Thread.mark_fflags (t : Thread) (on : Bool) (r : Reg) : (t.mark on r).fflags = t.fflags := by cases r <;> cases on <;> rfl
@[simp] theorem Thread.mark_claim (t : Thread) (on : Bool) (r : Reg) : (t.mark on r).claim = t.claim := by cases r <;> cases on <;> rfl
@[simp] theorem Thread.mark_blocks (t : Thread) (on : Bool) (r : Reg) : (t.mark on r).blocks = t.blocks := by cases r <;> cases on <;> rfl
@[simp] theorem Thread.mark_pageBase (t : Thread) (on : Bool) (r : Reg) : (t.mark on r).pageBase = t.pageBase := by cases r <;> cases on <;> rfl
@[simp] theorem Thread.mark_pages (t : Thread) (on : Bool) (r : Reg) : (t.mark on r).pages = t.pages := by cases r <;> cases on <;> rfl
@[simp] theorem Thread.mark_tiles (t : Thread) (on : Bool) (r : Reg) : (t.mark on r).tiles = t.tiles := by cases r <;> cases on <;> rfl
@[simp] theorem Thread.mark_granted (t : Thread) (on : Bool) (r : Reg) : (t.mark on r).granted = t.granted := by cases r <;> cases on <;> rfl
@[simp] theorem Thread.mark_acq (t : Thread) (on : Bool) (r : Reg) : (t.mark on r).acq = t.acq := by cases r <;> cases on <;> rfl
@[simp] theorem Thread.mark_wakeBit (t : Thread) (on : Bool) (r : Reg) : (t.mark on r).wakeBit = t.wakeBit := by cases r <;> cases on <;> rfl
@[simp] theorem Thread.mark_yieldTo (t : Thread) (on : Bool) (r : Reg) : (t.mark on r).yieldTo = t.yieldTo := by cases r <;> cases on <;> rfl
@[simp] theorem Thread.mark_nest (t : Thread) (on : Bool) (r : Reg) : (t.mark on r).nest = t.nest := by cases r <;> cases on <;> rfl
@[simp] theorem Thread.mark_parked (t : Thread) (on : Bool) (r : Reg) : (t.mark on r).parked = t.parked := by cases r <;> cases on <;> rfl
@[simp] theorem Thread.mark_halted (t : Thread) (on : Bool) (r : Reg) : (t.mark on r).halted = t.halted := by cases r <;> cases on <;> rfl
@[simp] theorem Thread.mark_emwBy (t : Thread) (on : Bool) (r : Reg) : (t.mark on r).emwBy = t.emwBy := by cases r <;> cases on <;> rfl
@[simp] theorem Thread.mark_stale (t : Thread) (on : Bool) (r : Reg) : (t.mark on r).stale = t.stale := by cases r <;> cases on <;> rfl
@[simp] theorem Thread.mark_treeWait (t : Thread) (on : Bool) (r : Reg) : (t.mark on r).treeWait = t.treeWait := by cases r <;> cases on <;> rfl
@[simp] theorem Thread.mark_weirDone (t : Thread) (on : Bool) (r : Reg) : (t.mark on r).weirDone = t.weirDone := by cases r <;> cases on <;> rfl
@[simp] theorem Thread.mark_unissued (t : Thread) (on : Bool) (r : Reg) : (t.mark on r).unissued = t.unissued := by cases r <;> cases on <;> rfl
@[simp] theorem Thread.write_id (t : Thread) (r : Reg) (v : Word) : (t.write r v).id = t.id := by cases r <;> rfl
@[simp] theorem Thread.write_world (t : Thread) (r : Reg) (v : Word) : (t.write r v).world = t.world := by cases r <;> rfl
@[simp] theorem Thread.write_polder (t : Thread) (r : Reg) (v : Word) : (t.write r v).polder = t.polder := by cases r <;> rfl
@[simp] theorem Thread.write_region (t : Thread) (r : Reg) (v : Word) : (t.write r v).region = t.region := by cases r <;> rfl
@[simp] theorem Thread.write_role (t : Thread) (r : Reg) (v : Word) : (t.write r v).role = t.role := by cases r <;> rfl
@[simp] theorem Thread.write_pc (t : Thread) (r : Reg) (v : Word) : (t.write r v).pc = t.pc := by cases r <;> rfl
@[simp] theorem Thread.write_skip (t : Thread) (r : Reg) (v : Word) : (t.write r v).skip = t.skip := by cases r <;> rfl
@[simp] theorem Thread.write_shapes (t : Thread) (r : Reg) (v : Word) : (t.write r v).shapes = t.shapes := by cases r <;> rfl
@[simp] theorem Thread.write_handles (t : Thread) (r : Reg) (v : Word) : (t.write r v).handles = t.handles := by cases r <;> rfl
@[simp] theorem Thread.write_unfolds (t : Thread) (r : Reg) (v : Word) : (t.write r v).unfolds = t.unfolds := by cases r <;> rfl
@[simp] theorem Thread.write_sluices (t : Thread) (r : Reg) (v : Word) : (t.write r v).sluices = t.sluices := by cases r <;> rfl
@[simp] theorem Thread.write_cq (t : Thread) (r : Reg) (v : Word) : (t.write r v).cq = t.cq := by cases r <;> rfl
@[simp] theorem Thread.write_dikelo (t : Thread) (r : Reg) (v : Word) : (t.write r v).dikelo = t.dikelo := by cases r <;> rfl
@[simp] theorem Thread.write_dikehi (t : Thread) (r : Reg) (v : Word) : (t.write r v).dikehi = t.dikehi := by cases r <;> rfl
@[simp] theorem Thread.write_fvec (t : Thread) (r : Reg) (v : Word) : (t.write r v).fvec = t.fvec := by cases r <;> rfl
@[simp] theorem Thread.write_fcause (t : Thread) (r : Reg) (v : Word) : (t.write r v).fcause = t.fcause := by cases r <;> rfl
@[simp] theorem Thread.write_faddr (t : Thread) (r : Reg) (v : Word) : (t.write r v).faddr = t.faddr := by cases r <;> rfl
@[simp] theorem Thread.write_fpriv (t : Thread) (r : Reg) (v : Word) : (t.write r v).fpriv = t.fpriv := by cases r <;> rfl
@[simp] theorem Thread.write_meter (t : Thread) (r : Reg) (v : Word) : (t.write r v).meter = t.meter := by cases r <;> rfl
@[simp] theorem Thread.write_wdog (t : Thread) (r : Reg) (v : Word) : (t.write r v).wdog = t.wdog := by cases r <;> rfl
@[simp] theorem Thread.write_farHandles (t : Thread) (r : Reg) (v : Word) : (t.write r v).farHandles = t.farHandles := by cases r <;> rfl
@[simp] theorem Thread.write_tree (t : Thread) (r : Reg) (v : Word) : (t.write r v).tree = t.tree := by cases r <;> rfl
@[simp] theorem Thread.write_fflags (t : Thread) (r : Reg) (v : Word) : (t.write r v).fflags = t.fflags := by cases r <;> rfl
@[simp] theorem Thread.write_claim (t : Thread) (r : Reg) (v : Word) : (t.write r v).claim = t.claim := by cases r <;> rfl
@[simp] theorem Thread.write_blocks (t : Thread) (r : Reg) (v : Word) : (t.write r v).blocks = t.blocks := by cases r <;> rfl
@[simp] theorem Thread.write_pageBase (t : Thread) (r : Reg) (v : Word) : (t.write r v).pageBase = t.pageBase := by cases r <;> rfl
@[simp] theorem Thread.write_pages (t : Thread) (r : Reg) (v : Word) : (t.write r v).pages = t.pages := by cases r <;> rfl
@[simp] theorem Thread.write_tiles (t : Thread) (r : Reg) (v : Word) : (t.write r v).tiles = t.tiles := by cases r <;> rfl
@[simp] theorem Thread.write_granted (t : Thread) (r : Reg) (v : Word) : (t.write r v).granted = t.granted := by cases r <;> rfl
@[simp] theorem Thread.write_acq (t : Thread) (r : Reg) (v : Word) : (t.write r v).acq = t.acq := by cases r <;> rfl
@[simp] theorem Thread.write_wakeBit (t : Thread) (r : Reg) (v : Word) : (t.write r v).wakeBit = t.wakeBit := by cases r <;> rfl
@[simp] theorem Thread.write_yieldTo (t : Thread) (r : Reg) (v : Word) : (t.write r v).yieldTo = t.yieldTo := by cases r <;> rfl
@[simp] theorem Thread.write_nest (t : Thread) (r : Reg) (v : Word) : (t.write r v).nest = t.nest := by cases r <;> rfl
@[simp] theorem Thread.write_parked (t : Thread) (r : Reg) (v : Word) : (t.write r v).parked = t.parked := by cases r <;> rfl
@[simp] theorem Thread.write_halted (t : Thread) (r : Reg) (v : Word) : (t.write r v).halted = t.halted := by cases r <;> rfl
@[simp] theorem Thread.write_emwBy (t : Thread) (r : Reg) (v : Word) : (t.write r v).emwBy = t.emwBy := by cases r <;> rfl
@[simp] theorem Thread.write_stale (t : Thread) (r : Reg) (v : Word) : (t.write r v).stale = t.stale := by cases r <;> rfl
@[simp] theorem Thread.write_treeWait (t : Thread) (r : Reg) (v : Word) : (t.write r v).treeWait = t.treeWait := by cases r <;> rfl
@[simp] theorem Thread.write_weirDone (t : Thread) (r : Reg) (v : Word) : (t.write r v).weirDone = t.weirDone := by cases r <;> rfl
@[simp] theorem Thread.write_unissued (t : Thread) (r : Reg) (v : Word) : (t.write r v).unissued = t.unissued := by cases r <;> rfl
@[simp] theorem Thread.pend_id (t : Thread) (r : Reg) : (t.pend r).id = t.id := by cases r <;> rfl
@[simp] theorem Thread.pend_world (t : Thread) (r : Reg) : (t.pend r).world = t.world := by cases r <;> rfl
@[simp] theorem Thread.pend_polder (t : Thread) (r : Reg) : (t.pend r).polder = t.polder := by cases r <;> rfl
@[simp] theorem Thread.pend_region (t : Thread) (r : Reg) : (t.pend r).region = t.region := by cases r <;> rfl
@[simp] theorem Thread.pend_role (t : Thread) (r : Reg) : (t.pend r).role = t.role := by cases r <;> rfl
@[simp] theorem Thread.pend_pc (t : Thread) (r : Reg) : (t.pend r).pc = t.pc := by cases r <;> rfl
@[simp] theorem Thread.pend_skip (t : Thread) (r : Reg) : (t.pend r).skip = t.skip := by cases r <;> rfl
@[simp] theorem Thread.pend_x (t : Thread) (r : Reg) : (t.pend r).x = t.x := by cases r <;> rfl
@[simp] theorem Thread.pend_lk (t : Thread) (r : Reg) : (t.pend r).lk = t.lk := by cases r <;> rfl
@[simp] theorem Thread.pend_shapes (t : Thread) (r : Reg) : (t.pend r).shapes = t.shapes := by cases r <;> rfl
@[simp] theorem Thread.pend_handles (t : Thread) (r : Reg) : (t.pend r).handles = t.handles := by cases r <;> rfl
@[simp] theorem Thread.pend_unfolds (t : Thread) (r : Reg) : (t.pend r).unfolds = t.unfolds := by cases r <;> rfl
@[simp] theorem Thread.pend_sluices (t : Thread) (r : Reg) : (t.pend r).sluices = t.sluices := by cases r <;> rfl
@[simp] theorem Thread.pend_cq (t : Thread) (r : Reg) : (t.pend r).cq = t.cq := by cases r <;> rfl
@[simp] theorem Thread.pend_dikelo (t : Thread) (r : Reg) : (t.pend r).dikelo = t.dikelo := by cases r <;> rfl
@[simp] theorem Thread.pend_dikehi (t : Thread) (r : Reg) : (t.pend r).dikehi = t.dikehi := by cases r <;> rfl
@[simp] theorem Thread.pend_fvec (t : Thread) (r : Reg) : (t.pend r).fvec = t.fvec := by cases r <;> rfl
@[simp] theorem Thread.pend_fcause (t : Thread) (r : Reg) : (t.pend r).fcause = t.fcause := by cases r <;> rfl
@[simp] theorem Thread.pend_faddr (t : Thread) (r : Reg) : (t.pend r).faddr = t.faddr := by cases r <;> rfl
@[simp] theorem Thread.pend_fpriv (t : Thread) (r : Reg) : (t.pend r).fpriv = t.fpriv := by cases r <;> rfl
@[simp] theorem Thread.pend_meter (t : Thread) (r : Reg) : (t.pend r).meter = t.meter := by cases r <;> rfl
@[simp] theorem Thread.pend_wdog (t : Thread) (r : Reg) : (t.pend r).wdog = t.wdog := by cases r <;> rfl
@[simp] theorem Thread.pend_farHandles (t : Thread) (r : Reg) : (t.pend r).farHandles = t.farHandles := by cases r <;> rfl
@[simp] theorem Thread.pend_tree (t : Thread) (r : Reg) : (t.pend r).tree = t.tree := by cases r <;> rfl
@[simp] theorem Thread.pend_fflags (t : Thread) (r : Reg) : (t.pend r).fflags = t.fflags := by cases r <;> rfl
@[simp] theorem Thread.pend_claim (t : Thread) (r : Reg) : (t.pend r).claim = t.claim := by cases r <;> rfl
@[simp] theorem Thread.pend_blocks (t : Thread) (r : Reg) : (t.pend r).blocks = t.blocks := by cases r <;> rfl
@[simp] theorem Thread.pend_pageBase (t : Thread) (r : Reg) : (t.pend r).pageBase = t.pageBase := by cases r <;> rfl
@[simp] theorem Thread.pend_pages (t : Thread) (r : Reg) : (t.pend r).pages = t.pages := by cases r <;> rfl
@[simp] theorem Thread.pend_tiles (t : Thread) (r : Reg) : (t.pend r).tiles = t.tiles := by cases r <;> rfl
@[simp] theorem Thread.pend_granted (t : Thread) (r : Reg) : (t.pend r).granted = t.granted := by cases r <;> rfl
@[simp] theorem Thread.pend_acq (t : Thread) (r : Reg) : (t.pend r).acq = t.acq := by cases r <;> rfl
@[simp] theorem Thread.pend_wakeBit (t : Thread) (r : Reg) : (t.pend r).wakeBit = t.wakeBit := by cases r <;> rfl
@[simp] theorem Thread.pend_yieldTo (t : Thread) (r : Reg) : (t.pend r).yieldTo = t.yieldTo := by cases r <;> rfl
@[simp] theorem Thread.pend_nest (t : Thread) (r : Reg) : (t.pend r).nest = t.nest := by cases r <;> rfl
@[simp] theorem Thread.pend_parked (t : Thread) (r : Reg) : (t.pend r).parked = t.parked := by cases r <;> rfl
@[simp] theorem Thread.pend_halted (t : Thread) (r : Reg) : (t.pend r).halted = t.halted := by cases r <;> rfl
@[simp] theorem Thread.pend_emwBy (t : Thread) (r : Reg) : (t.pend r).emwBy = t.emwBy := by cases r <;> rfl
@[simp] theorem Thread.pend_stale (t : Thread) (r : Reg) : (t.pend r).stale = t.stale := by cases r <;> rfl
@[simp] theorem Thread.pend_treeWait (t : Thread) (r : Reg) : (t.pend r).treeWait = t.treeWait := by cases r <;> rfl
@[simp] theorem Thread.pend_weirDone (t : Thread) (r : Reg) : (t.pend r).weirDone = t.weirDone := by cases r <;> rfl
@[simp] theorem Thread.pend_unissued (t : Thread) (r : Reg) : (t.pend r).unissued = t.unissued := by cases r <;> rfl

/-! ### Core.setSlot -/

@[simp] theorem Core.setSlot_service (k : Core) (n : Nat) (v : Slot) : (k.setSlot n v).service = k.service := rfl
@[simp] theorem Core.setSlot_mem (k : Core) (n : Nat) (v : Slot) : (k.setSlot n v).mem = k.mem := rfl
@[simp] theorem Core.setSlot_scale (k : Core) (n : Nat) (v : Slot) : (k.setSlot n v).scale = k.scale := rfl
@[simp] theorem Core.setSlot_emptyW (k : Core) (n : Nat) (v : Slot) : (k.setSlot n v).emptyW = k.emptyW := rfl
@[simp] theorem Core.setSlot_poison (k : Core) (n : Nat) (v : Slot) : (k.setSlot n v).poison = k.poison := rfl
@[simp] theorem Core.setSlot_scalePoison (k : Core) (n : Nat) (v : Slot) : (k.setSlot n v).scalePoison = k.scalePoison := rfl
@[simp] theorem Core.setSlot_releases (k : Core) (n : Nat) (v : Slot) : (k.setSlot n v).releases = k.releases := rfl
@[simp] theorem Core.setSlot_buf (k : Core) (n : Nat) (v : Slot) : (k.setSlot n v).buf = k.buf := rfl
@[simp] theorem Core.setSlot_portsIn (k : Core) (n : Nat) (v : Slot) : (k.setSlot n v).portsIn = k.portsIn := rfl
@[simp] theorem Core.setSlot_images (k : Core) (n : Nat) (v : Slot) : (k.setSlot n v).images = k.images := rfl
@[simp] theorem Core.setSlot_shadow (k : Core) (n : Nat) (v : Slot) : (k.setSlot n v).shadow = k.shadow := rfl
@[simp] theorem Core.setSlot_tokens (k : Core) (n : Nat) (v : Slot) : (k.setSlot n v).tokens = k.tokens := rfl
@[simp] theorem Core.setSlot_horizon (k : Core) (n : Nat) (v : Slot) : (k.setSlot n v).horizon = k.horizon := rfl
@[simp] theorem Core.setSlot_endNo (k : Core) (n : Nat) (v : Slot) : (k.setSlot n v).endNo = k.endNo := rfl
@[simp] theorem Core.setSlot_weirs (k : Core) (n : Nat) (v : Slot) : (k.setSlot n v).weirs = k.weirs := rfl
@[simp] theorem Core.setSlot_rounds (k : Core) (n : Nat) (v : Slot) : (k.setSlot n v).rounds = k.rounds := rfl
@[simp] theorem Core.setSlot_link (k : Core) (n : Nat) (v : Slot) : (k.setSlot n v).link = k.link := rfl
@[simp] theorem Core.setSlot_q6wait (k : Core) (n : Nat) (v : Slot) : (k.setSlot n v).q6wait = k.q6wait := rfl
@[simp] theorem Core.setSlot_fills (k : Core) (n : Nat) (v : Slot) : (k.setSlot n v).fills = k.fills := rfl
@[simp] theorem Core.setSlot_arrivals (k : Core) (n : Nat) (v : Slot) : (k.setSlot n v).arrivals = k.arrivals := rfl
@[simp] theorem Core.setSlot_arrived (k : Core) (n : Nat) (v : Slot) : (k.setSlot n v).arrived = k.arrived := rfl
@[simp] theorem Core.setSlot_pin (k : Core) (n : Nat) (v : Slot) : (k.setSlot n v).pin = k.pin := rfl
@[simp] theorem Core.setSlot_l1 (k : Core) (n : Nat) (v : Slot) : (k.setSlot n v).l1 = k.l1 := rfl
@[simp] theorem Core.setSlot_utlb (k : Core) (n : Nat) (v : Slot) : (k.setSlot n v).utlb = k.utlb := rfl

end Sys2Proof.Machine
end

