-- ==== Sys2Proof/Laws/Ops.lean ====
section
/-!
SUPPORT. What the shared operations over slots and registers can do, and the ways in which an instruction's shape can end.
-/

namespace Sys2Proof.Machine

/-! ### Cores and slots -/

theorem core_setCore_same (s : State) (c : CoreIx) (k : Core) : (s.setCore c k).core c = k := tget_tput_same _ _ _ _

theorem core_setCore_other (s : State) (c q : CoreIx) (k : Core) (h : q ≠ c) : (s.setCore c k).core q = s.core q :=
  tget_tput_other _ _ _ _ _ h

theorem core_setCore (s : State) (c q : CoreIx) (k : Core) : (s.setCore c k).core q = if q = c then k else s.core q :=
  tget_tput _ _ _ _ _

theorem core_modCore (s : State) (c q : CoreIx) (f : Core → Core) :
    (s.modCore c f).core q = if q = c then f (s.core c) else s.core q := core_setCore _ _ _ _

theorem slot_setSlot (k : Core) (n m : Nat) (v : Slot) : (k.setSlot n v).slot m = if m % 16 = n % 16 then v else k.slot m := by
  unfold Core.slot Core.setSlot
  by_cases h : m % 16 = n % 16
  · simp [h]
  · rw [if_neg h]
    simp only [Vector.getElem_set]
    rw [if_neg (by omega)]

theorem sameSlot_refl (r : SlotRef) : sameSlot r r := ⟨rfl, rfl⟩

theorem thread_modCore_slots (s : State) (c : CoreIx) (q : SlotRef) (f : Core → Core) (h : (f (s.core c)).slots = (s.core c).slots) :
    (s.modCore c f).thread? q = s.thread? q := by
  unfold State.thread?
  rw [core_modCore]
  split
  · next hq => subst hq; simp [Core.slot, h]
  · rfl

theorem thread_setThread_same (s : State) (r : SlotRef) (t : Thread) : (s.setThread r t).thread? r = some t := by
  simp [State.thread?, State.setThread, core_modCore, slot_setSlot]

theorem thread_setThread_other (s : State) (q r : SlotRef) (t : Thread) (h : ¬sameSlot q r) :
    (s.setThread r t).thread? q = s.thread? q := by
  unfold State.thread? State.setThread
  rw [core_modCore]
  split
  · next hq =>
    have : ¬(q.slot % 16 = r.slot % 16) := fun hs => h ⟨hq, hs⟩
    rw [slot_setSlot, if_neg this, hq]
  · rfl

theorem thread_modThread_other (s : State) (q r : SlotRef) (f : Thread → Thread) (h : ¬sameSlot q r) :
    (s.modThread r f).thread? q = s.thread? q := by
  unfold State.modThread
  split
  · exact thread_setThread_other _ _ _ _ h
  · rfl

theorem thread_modThread_same (s : State) (r : SlotRef) (f : Thread → Thread) :
    (s.modThread r f).thread? r = (s.thread? r).map f := by
  unfold State.modThread
  cases h : s.thread? r with
  | none => simp [h]
  | some t => simp [thread_setThread_same]

theorem core_setThread (s : State) (r : SlotRef) (t : Thread) (c : CoreIx) :
    (s.setThread r t).core c = if c = r.core then (s.core r.core).setSlot r.slot { (s.core r.core).slot r.slot with thread := some t }
      else s.core c := core_modCore _ _ _ _

/-! ### Ports -/

theorem thread_takePorts (l : List Reg) (s : State) (c : CoreIx) (q : SlotRef) : (s.takePorts c l).thread? q = s.thread? q := by
  induction l generalizing s with
  | nil => rfl
  | cons x r ih =>
    cases x <;> simp only [State.takePorts, ih]
    exact thread_modCore_slots _ _ _ _ rfl

theorem thread_givePort (s : State) (c : CoreIx) (p : Port) (v : Word) (q : SlotRef) :
    (s.givePort c p v).thread? q = s.thread? q := by
  unfold State.givePort
  split
  · rfl
  · exact thread_modCore_slots _ _ _ _ rfl

theorem mem_takePorts (l : List Reg) (s : State) (c d : CoreIx) : ((s.takePorts c l).core d).mem = (s.core d).mem := by
  induction l generalizing s with
  | nil => rfl
  | cons x r ih =>
    cases x <;> simp only [State.takePorts, ih]
    rw [core_modCore]
    split
    · next h => subst h; rfl
    · rfl

theorem scale_takePorts (l : List Reg) (s : State) (c d : CoreIx) : ((s.takePorts c l).core d).scale = (s.core d).scale := by
  induction l generalizing s with
  | nil => rfl
  | cons x r ih =>
    cases x <;> simp only [State.takePorts, ih]
    rw [core_modCore]
    split
    · next h => subst h; rfl
    · rfl

theorem mem_givePort (s : State) (c d : CoreIx) (p : Port) (v : Word) : ((s.givePort c p v).core d).mem = (s.core d).mem := by
  unfold State.givePort
  split
  · rfl
  · rw [core_modCore]
    split
    · next h => subst h; rfl
    · rfl

theorem scale_givePort (s : State) (c d : CoreIx) (p : Port) (v : Word) : ((s.givePort c p v).core d).scale = (s.core d).scale := by
  unfold State.givePort
  split
  · rfl
  · rw [core_modCore]
    split
    · next h => subst h; rfl
    · rfl

theorem mem_setThread (s : State) (r : SlotRef) (t : Thread) (c : CoreIx) : ((s.setThread r t).core c).mem = (s.core c).mem := by
  rw [core_setThread]
  split
  · next h => subst h; rfl
  · rfl

theorem scale_setThread (s : State) (r : SlotRef) (t : Thread) (c : CoreIx) : ((s.setThread r t).core c).scale = (s.core c).scale := by
  rw [core_setThread]
  split
  · next h => subst h; rfl
  · rfl

theorem mem_modThread (s : State) (r : SlotRef) (f : Thread → Thread) (c : CoreIx) :
    ((s.modThread r f).core c).mem = (s.core c).mem := by
  unfold State.modThread
  split
  · exact mem_setThread _ _ _ _
  · rfl

theorem scale_modThread (s : State) (r : SlotRef) (f : Thread → Thread) (c : CoreIx) :
    ((s.modThread r f).core c).scale = (s.core c).scale := by
  unfold State.modThread
  split
  · exact scale_setThread _ _ _ _
  · rfl

/-! ### Registers -/

theorem Thread.setG_same (t : Thread) (n : Fin 40) (v : Word) : (t.setG n v).g[n] = { val := v, full := true, pending := false } := by
  simp [Thread.setG]

theorem Thread.setG_other (t : Thread) (n k : Fin 40) (v : Word) (h : k ≠ n) : (t.setG n v).g[k] = t.g[k] := by
  have : n.val ≠ k.val := fun e => h (Fin.ext e.symm)
  simp [Thread.setG, this]

theorem Thread.emptyG_same (t : Thread) (n : Fin 40) : (t.emptyG n).g[n] = { t.g[n] with full := false } := by
  simp [Thread.emptyG]

theorem Thread.emptyG_other (t : Thread) (n k : Fin 40) (h : k ≠ n) : (t.emptyG n).g[k] = t.g[k] := by
  have : n.val ≠ k.val := fun e => h (Fin.ext e.symm)
  simp [Thread.emptyG, this]

/-- READING A REGISTER: the ways in which it ends (R180-R184, R214). -/
theorem readReg_g (s : State) (t : Thread) (used : List Reg) (n : Fin 40) :
    readReg s t used (.g n) = if t.holds n then (if (t.g[n]).full then .ok (t.g[n]).val else .error (.park (.reg n)))
      else .error (.trap .regn 0) := by
  unfold readReg
  cases h : t.holds n
  · simp [h]
  · cases hf : (t.g[n.val]).full <;> simp [h, hf]

/-! ### Retiring -/

/-- The thread that a retirement leaves in its slot (R180, R183, R214). -/
theorem thread_retire (s : State) (t : Thread) (reads : List Reg) (marked : List (Bool × Reg)) (r : Reg) (v : Word) (n : Nat) :
    (retire s t reads marked (some (r, v)) n).thread? s.cur
      = some (((marked.foldl (fun t p => t.mark p.1 p.2) t).advance n).write r v) := by
  unfold retire State.writeReg
  cases r <;>
    simp [thread_givePort, thread_takePorts, thread_setThread_same, thread_modThread_same, Thread.write]

theorem thread_retire_none (s : State) (t : Thread) (reads : List Reg) (marked : List (Bool × Reg)) (n : Nat) :
    (retire s t reads marked none n).thread? s.cur = some ((marked.foldl (fun t p => t.mark p.1 p.2) t).advance n) := by
  unfold retire
  simp [thread_takePorts, thread_setThread_same]

/-- A retirement changes the thread of no other slot. -/
theorem thread_retire_other (s : State) (t : Thread) (reads : List Reg) (marked : List (Bool × Reg)) (d : Option (Reg × Word)) (n : Nat)
    (q : SlotRef) (h : ¬sameSlot q s.cur) : (retire s t reads marked d n).thread? q = s.thread? q := by
  unfold retire
  rcases d with _ | ⟨r, v⟩
  · simp only [thread_takePorts]
    exact thread_setThread_other _ _ _ _ h
  · have hc : ∀ f, (((s.setThread s.cur ((List.foldl (fun t (p : Bool × Reg) => t.mark p.1 p.2) t marked).advance n)).takePorts s.cur.core
        reads).modThread s.cur f).thread? q = s.thread? q := fun f => by
      rw [thread_modThread_other _ _ _ _ h, thread_takePorts, thread_setThread_other _ _ _ _ h]
    cases r <;> simp only [State.writeReg, thread_givePort, State.takePorts_cur, State.setThread_cur, hc]
    simp only [thread_takePorts]
    exact thread_setThread_other _ _ _ _ h

/-- A retirement changes no byte of local memory. -/
theorem mem_retire (s : State) (t : Thread) (reads : List Reg) (marked : List (Bool × Reg)) (d : Option (Reg × Word)) (n : Nat)
    (c : CoreIx) : ((retire s t reads marked d n).core c).mem = (s.core c).mem := by
  unfold retire
  rcases d with _ | ⟨r, v⟩
  · simp [mem_takePorts, mem_setThread]
  · cases r <;> simp [State.writeReg, mem_givePort, mem_modThread, mem_takePorts, mem_setThread]

/-- A retirement changes no scale byte. -/
theorem scale_retire (s : State) (t : Thread) (reads : List Reg) (marked : List (Bool × Reg)) (d : Option (Reg × Word)) (n : Nat)
    (c : CoreIx) : ((retire s t reads marked d n).core c).scale = (s.core c).scale := by
  unfold retire
  rcases d with _ | ⟨r, v⟩
  · simp [scale_takePorts, scale_setThread]
  · cases r <;> simp [State.writeReg, scale_givePort, scale_modThread, scale_takePorts, scale_setThread]

/-! ### The shapes of instructions -/

theorem issueLen_ok (s s' : State) (len : Nat) (t : Thread) (f : Thread → Except Stop State) (h : s.thread? s.cur = some t)
    (hf : f t = .ok s') : issueLen s len f = .next s' := by
  simp [issueLen, h, hf]

theorem issueLen_trap (s : State) (len : Nat) (t : Thread) (f : Thread → Except Stop State) (c : Cause) (a : Word)
    (h : s.thread? s.cur = some t) (hf : f t = .error (.trap c a)) : issueLen s len f = .next (takeFault s c a 0 len) := by
  simp [issueLen, h, hf]

theorem issueLen_park (s : State) (len : Nat) (t : Thread) (f : Thread → Except Stop State) (p : Park)
    (h : s.thread? s.cur = some t) (hf : f t = .error (.park p)) : issueLen s len f = .next (s.parkOn s.cur t p) := by
  simp [issueLen, h, hf]

/-- An instruction of a thread always answers a next state, in a slot that holds a thread. -/
theorem issueLen_next (s : State) (len : Nat) (t : Thread) (f : Thread → Except Stop State) (h : s.thread? s.cur = some t) :
    ∃ s', issueLen s len f = .next s' := by
  cases hf : f t with
  | ok s' => exact ⟨s', issueLen_ok s s' len t f h hf⟩
  | error e =>
    cases e with
    | park p => exact ⟨_, issueLen_park s len t f p h hf⟩
    | trap c a => exact ⟨_, issueLen_trap s len t f c a h hf⟩

theorem issueLen_empty (s : State) (len : Nat) (f : Thread → Except Stop State) (h : s.thread? s.cur = none) :
    issueLen s len f = .fault .emptySlot := by
  simp [issueLen, h]

theorem issueRun_ok (s s' : State) (len : Nat) (t : Thread) (f : Thread → Run Unit) (h : s.thread? s.cur = some t)
    (hf : (f t) s = (.ok (), s')) : issueRun s len f = .next s' := by
  simp [issueRun, h, hf]

theorem issueRun_trap (s s' : State) (len : Nat) (t : Thread) (f : Thread → Run Unit) (c : Cause) (a : Word)
    (h : s.thread? s.cur = some t) (hf : (f t) s = (.error (.trap c a), s')) :
    issueRun s len f = .next (takeFault s' c a 0 len) := by
  simp [issueRun, h, hf]

theorem issueRun_park (s s' : State) (len : Nat) (t : Thread) (f : Thread → Run Unit) (p : Park)
    (h : s.thread? s.cur = some t) (hf : (f t) s = (.error (.park p), s')) :
    issueRun s len f = .next (s'.parkOn s'.cur t p) := by
  simp [issueRun, h, hf]

theorem issueRun_next (s : State) (len : Nat) (t : Thread) (f : Thread → Run Unit) (h : s.thread? s.cur = some t) :
    ∃ s', issueRun s len f = .next s' := by
  rcases hf : (f t) s with ⟨x, s1⟩
  cases x with
  | ok u => exact ⟨s1, issueRun_ok s s1 len t f h hf⟩
  | error e =>
    cases e with
    | park p => exact ⟨_, issueRun_park s s1 len t f p h hf⟩
    | trap c a => exact ⟨_, issueRun_trap s s1 len t f c a h hf⟩

theorem issueRun_empty (s : State) (len : Nat) (f : Thread → Run Unit) (h : s.thread? s.cur = none) :
    issueRun s len f = .fault .emptySlot := by
  simp [issueRun, h]

/-! ### The parts of a run -/

@[simp] theorem run_pure {α : Type} (x : α) (s : State) : (pure x : Run α) s = (.ok x, s) := rfl

@[simp] theorem run_throw {α : Type} (e : Stop) (s : State) : (throw e : Run α) s = (.error e, s) := rfl

@[simp] theorem run_get (s : State) : (get : Run State) s = (.ok s, s) := rfl

@[simp] theorem run_set (s s' : State) : (set s' : Run PUnit) s = (.ok ⟨⟩, s') := rfl

@[simp] theorem run_modifyS (f : State → State) (s : State) : modifyS f s = (.ok (), f s) := rfl

@[simp] theorem run_liftE_ok {α : Type} (x : α) (s : State) : liftE (.ok x : Except Stop α) s = (.ok x, s) := rfl

@[simp] theorem run_liftE_error {α : Type} (e : Stop) (s : State) : liftE (.error e : Except Stop α) s = (.error e, s) := rfl

theorem run_bind {α β : Type} (m : Run α) (f : α → Run β) (s : State) :
    (m >>= f) s = match m s with
      | (.ok x, s1) => f x s1
      | (.error e, s1) => (.error e, s1) := by
  have h : (m >>= f) s = (match (m s).1 with
      | .ok x => f x (m s).2
      | .error e => ((.error e : Except Stop β), (m s).2)) := by
    show (ExceptT.bind m f) s = _
    unfold ExceptT.bind ExceptT.mk
    show (StateT.bind m (ExceptT.bindCont f)) s = _
    unfold StateT.bind
    rcases hm : m s with ⟨x, s1⟩
    cases x <;> rfl
  rw [h]
  rcases m s with ⟨x, s1⟩
  cases x <;> rfl

/-- A part that goes through hands its result and its state on. -/
theorem run_bind_ok {α β : Type} (m : Run α) (f : α → Run β) (s s1 : State) (x : α) (h : m s = (.ok x, s1)) :
    (m >>= f) s = f x s1 := by
  rw [run_bind, h]

/-- A part that stops stops the whole. -/
theorem run_bind_error {α β : Type} (m : Run α) (f : α → Run β) (s s1 : State) (e : Stop) (h : m s = (.error e, s1)) :
    (m >>= f) s = (.error e, s1) := by
  rw [run_bind, h]

end Sys2Proof.Machine
end

