-- ==== Sys2Proof/Laws/Caches.lean ====
section
/-!
SUPPORT. What the caches' own work can change: the home slices, their directory, the L1 caches, the errors counted, the tags and
notices of lost lines, and nothing of what a program reads or of what runs.
-/

namespace Sys2Proof.Machine

/-- A core without what its L1 holds. -/
def Core.bare (k : Core) : Core := { k with l1 := [] }

/-- Two states differ only in what the caches keep, in lines lost, and in work called for: every byte, register, table and turn is the
same. -/
structure CacheOnly (s u : State) : Prop where
  hbm      : u.hbm = s.hbm
  monitors : u.monitors = s.monitors
  tc       : u.tc = s.tc
  seq      : u.seq = s.seq
  cur      : u.cur = s.cur
  pipe     : u.pipe = s.pipe
  arg      : u.arg = s.arg
  regions  : u.regions = s.regions
  keys     : u.keys = s.keys
  worlds   : u.worldTable = s.worldTable
  layout   : u.layout = s.layout
  locErr   : u.locErr = s.locErr
  gangs    : u.gangs = s.gangs
  held     : u.held = s.held
  claims   : u.claims = s.claims
  lrws     : u.lrws = s.lrws
  rdcs     : u.rdcs = s.rdcs
  cores    : ∀ c, (u.core c).bare = (s.core c).bare
  owner    : ∀ l, (u.tag l).world = (s.tag l).world
  epoch    : ∀ l, (u.tag l).epoch = (s.tag l).epoch
  bits     : ∀ l, (u.tag l).fe = (s.tag l).fe

theorem CacheOnly.refl (s : State) : CacheOnly s s :=
  ⟨rfl, rfl, rfl, rfl, rfl, rfl, rfl, rfl, rfl, rfl, rfl, rfl, rfl, rfl, rfl, rfl, rfl, fun _ => rfl, fun _ => rfl, fun _ => rfl, fun _ => rfl⟩

theorem CacheOnly.trans {s u v : State} (h : CacheOnly s u) (k : CacheOnly u v) : CacheOnly s v :=
  ⟨k.hbm.trans h.hbm, k.monitors.trans h.monitors, k.tc.trans h.tc, k.seq.trans h.seq, k.cur.trans h.cur, k.pipe.trans h.pipe,
    k.arg.trans h.arg, k.regions.trans h.regions, k.keys.trans h.keys, k.worlds.trans h.worlds, k.layout.trans h.layout,
    k.locErr.trans h.locErr, k.gangs.trans h.gangs, k.held.trans h.held, k.claims.trans h.claims, k.lrws.trans h.lrws,
    k.rdcs.trans h.rdcs, fun c => (k.cores c).trans (h.cores c), fun l => (k.owner l).trans (h.owner l),
    fun l => (k.epoch l).trans (h.epoch l), fun l => (k.bits l).trans (h.bits l)⟩

/-- A fold of steps that each change only the caches changes only the caches. -/
theorem CacheOnly.foldl {α : Type} (f : State → α → State) (hf : ∀ s x, CacheOnly s (f s x)) (l : List α) (s : State) :
    CacheOnly s (l.foldl f s) := by
  induction l generalizing s with
  | nil => exact .refl s
  | cons x r ih => exact (hf s x).trans (ih (f s x))

theorem CacheOnly.ite {s u v : State} (c : Prop) [Decidable c] (h : CacheOnly s u) (k : CacheOnly s v) :
    CacheOnly s (if c then u else v) := by
  split
  · exact h
  · exact k

/-- A field of a core other than its L1 is that of the core without it. -/
theorem bare_field {α : Type} {k l : Core} (f : Core → α) (hf : ∀ k, f k.bare = f k) (h : k.bare = l.bare) : f k = f l := by
  rw [← hf k, ← hf l, h]

theorem CacheOnly.thread {s u : State} (h : CacheOnly s u) (q : SlotRef) : u.thread? q = s.thread? q := by
  have : (u.core q.core).slots = (s.core q.core).slots := bare_field Core.slots (fun _ => rfl) (h.cores q.core)
  simp [State.thread?, Core.slot, this]

theorem CacheOnly.mem {s u : State} (h : CacheOnly s u) (c : CoreIx) : (u.core c).mem = (s.core c).mem := bare_field Core.mem (fun _ => rfl) (h.cores c)

theorem CacheOnly.scale {s u : State} (h : CacheOnly s u) (c : CoreIx) : (u.core c).scale = (s.core c).scale :=
  bare_field Core.scale (fun _ => rfl) (h.cores c)

theorem CacheOnly.buf {s u : State} (h : CacheOnly s u) (c : CoreIx) : (u.core c).buf = (s.core c).buf := bare_field Core.buf (fun _ => rfl) (h.cores c)

/-- The caches' own work does not change whose a line is (R40). -/
theorem CacheOnly.lineCase {s u : State} (h : CacheOnly s u) (world line : Nat) : u.lineCase world line = s.lineCase world line := by
  unfold State.lineCase State.keyLive
  dsimp only
  rw [h.owner, h.epoch, h.keys]

theorem cacheOnly_later (s : State) (i : Instr) (a : Args) : CacheOnly s (s.later i a) := by constructor <;> intros <;> rfl

theorem cacheOnly_laterOnce (s : State) (i : Instr) (a : Args) : CacheOnly s (s.laterOnce i a) := by
  unfold State.laterOnce
  split
  · exact .refl s
  · exact cacheOnly_later s i a

theorem cacheOnly_l1 (s : State) (c : CoreIx) (f : List Nat → List Nat) :
    CacheOnly s (s.modCore c (fun k => { k with l1 := f k.l1 })) := by
  refine ⟨rfl, rfl, rfl, rfl, rfl, rfl, rfl, rfl, rfl, rfl, rfl, rfl, rfl, rfl, rfl, rfl, rfl, fun d => ?_, fun _ => rfl, fun _ => rfl,
    fun _ => rfl⟩
  rw [core_modCore]
  split
  · next h => subst h; rfl
  · rfl

theorem cacheOnly_dropL1 (s : State) (line : Nat) (c : CoreIx) : CacheOnly s (s.dropL1 line c) := by
  unfold State.dropL1
  split
  · exact cacheOnly_l1 s c _
  · exact .refl s

theorem cacheOnly_invalidateL1 (s : State) (line : Nat) (keep : Option CoreIx) : CacheOnly s (s.invalidateL1 line keep) := by
  unfold State.invalidateL1
  by_cases h : (tget DirEntry.zero s.dirs line).state = 0
  · rw [if_pos h]; exact .refl s
  · rw [if_neg h]
    refine (CacheOnly.foldl _ (fun s c => ?_) _ s).trans (by constructor <;> intros <;> rfl)
    exact CacheOnly.ite _ (.refl s) (cacheOnly_dropL1 s line c)

theorem cacheOnly_loseLine (s : State) (die line world : Nat) (region va : Option Nat) :
    CacheOnly s (s.loseLine die line world region va) := by
  unfold State.loseLine
  refine CacheOnly.trans ?_ (cacheOnly_later _ _ _)
  refine CacheOnly.trans ?_ (cacheOnly_laterOnce _ _ _)
  refine ⟨rfl, rfl, rfl, rfl, rfl, rfl, rfl, rfl, rfl, rfl, rfl, rfl, rfl, rfl, rfl, rfl, rfl, fun _ => rfl, ?_, ?_, ?_⟩
  all_goals
    intro l
    unfold State.tag State.setTag
    dsimp only
    rw [tget_tput]
    split
    · next h => subst h; rfl
    · rfl

theorem cacheOnly_lastWriteBack (s : State) (sl : Nat) (x : SliceLine) : CacheOnly s (s.lastWriteBack sl x) := by
  have h : ∀ q, CacheOnly s { s with quars := q } := fun q => by constructor <;> intros <;> rfl
  unfold State.lastWriteBack
  dsimp only
  exact CacheOnly.ite _ (.refl s) (CacheOnly.ite _ ((h _).trans (cacheOnly_loseLine _ _ _ _ _ _)) (h _))

theorem cacheOnly_quarantineSlice (s : State) (sl way : Nat) : CacheOnly s (s.quarantineSlice sl way) := by
  unfold State.quarantineSlice
  exact ((CacheOnly.foldl _ (fun s x => cacheOnly_lastWriteBack s sl x) _ s).trans
    (CacheOnly.foldl _ (fun s (x : SliceLine) => cacheOnly_invalidateL1 s x.pa none) _ _)).trans (by constructor <;> intros <;> rfl)

theorem cacheOnly_countSliceUe (s : State) (sl way : Nat) : CacheOnly s (s.countSliceUe sl way) := by
  unfold State.countSliceUe
  dsimp only
  split
  · exact CacheOnly.trans (by constructor <;> intros <;> rfl) (cacheOnly_quarantineSlice _ _ _)
  · constructor <;> intros <;> rfl

theorem cacheOnly_countSliceCe (s : State) (sl way : Nat) : CacheOnly s (s.countSliceCe sl way) := by
  unfold State.countSliceCe
  dsimp only
  split
  · exact CacheOnly.trans (by constructor <;> intros <;> rfl) (cacheOnly_quarantineSlice _ _ _)
  · constructor <;> intros <;> rfl

theorem cacheOnly_slices (s : State) (x : List (Nat × List SliceLine)) : CacheOnly s { s with slices := x } := by
  constructor <;> intros <;> rfl

theorem cacheOnly_dramErr (s : State) (x : List Nat) : CacheOnly s { s with dramErr := x } := by constructor <;> intros <;> rfl

theorem cacheOnly_evict (s : State) (sl : Nat) (x : SliceLine) : CacheOnly s (s.evict sl x) := by
  unfold State.evict
  have h1 := (cacheOnly_invalidateL1 s x.pa none).trans (cacheOnly_slices (s.invalidateL1 x.pa none)
    (tput (s.invalidateL1 x.pa none).slices sl ((tget [] (s.invalidateL1 x.pa none).slices sl).filter (fun y => y.pa ≠ x.pa))))
  have h2 : ∀ u : State, CacheOnly u (if (x.ue && x.dirty) = true then u.loseLine (paDie x.pa) x.pa x.world (some x.region) x.va else u) := by
    intro u; split
    · exact cacheOnly_loseLine _ _ _ _ _ _
    · exact .refl u
  have h3 : ∀ u : State, CacheOnly u (if x.ue = true then u.countSliceUe sl x.way else if x.ce = true then u.countSliceCe sl x.way else u) := by
    intro u; split
    · exact cacheOnly_countSliceUe _ _ _
    · split
      · exact cacheOnly_countSliceCe _ _ _
      · exact .refl u
  refine ((h1.trans (h2 _)).trans (h3 _)).trans ?_
  exact CacheOnly.ite _ (cacheOnly_dramErr _ _) (.refl _)

theorem cacheOnly_fillSlice (s : State) (line slot : Nat) : CacheOnly s (s.fillSlice line slot) := by
  unfold State.fillSlice
  dsimp only
  split
  · exact cacheOnly_slices _ _
  · split
    · next x _ =>
      split
      · exact cacheOnly_evict s _ x
      · exact (cacheOnly_evict s _ x).trans (cacheOnly_slices _ _)
    · exact .refl s

/-- BRINGING A LINE TO ITS HOME SLICE changes only the caches (R438). -/
theorem cacheOnly_touchLine (s : State) (line slot : Nat) (whole : Bool) : CacheOnly s (s.touchLine line slot whole).1 := by
  unfold State.touchLine
  dsimp only
  split
  · next x _ =>
    split
    · exact cacheOnly_slices _ _
    · split
      · split
        · exact (((cacheOnly_invalidateL1 s line none).trans (cacheOnly_slices _ _)).trans (cacheOnly_loseLine _ _ _ _ _ _)).trans
            (cacheOnly_countSliceUe _ _ _)
        · exact (((cacheOnly_invalidateL1 s line none).trans (cacheOnly_slices _ _)).trans (cacheOnly_countSliceUe _ _ _)).trans
            (cacheOnly_fillSlice _ _ _)
      · split
        · exact (cacheOnly_slices _ _).trans (cacheOnly_countSliceCe _ _ _)
        · exact cacheOnly_slices _ _
  · split
    · exact (cacheOnly_dramErr _ _).trans (cacheOnly_loseLine _ _ _ _ _ _)
    · exact (cacheOnly_dramErr _ _).trans (cacheOnly_fillSlice _ _ _)

end Sys2Proof.Machine
end

