-- ==== Sys2Proof/Laws/Forms.lean ====
section
/-! SUPPORT. What the shared operations do, said once each, so that a proof cites it and does not unfold the operation:
the reads and retirements of the register forms, the accesses of local and global memory, the fields that a rouse, a spoil, a
micro-TLB entry, an agenda entry or a record in an outlet leaves as they are, the reservations of a line, the scrub of memory. -/

namespace Sys2Proof.Laws

open Sys2Proof Sys2Proof.Machine

theorem binary_ok (f) (d a b m) (s t x y) (h : s.thread? s.cur = some t) (hx : readReg s t [] a = .ok x) (hy : readReg s t [a] b = .ok y) (hd : checkDest s t d = .ok ()) :
  binary f d a b m s = .next (retire s t [a,b] [(m.a,a),(m.b,b)] (some (d, f x y)) 4) := by
  unfold binary issue
  apply issueLen_ok _ _ _ t _ h
  simp [read2, hx, hy, hd, bind, Except.bind, pure, Except.pure, markAB]

theorem unary_ok (f) (d a m) (s t x) (h : s.thread? s.cur = some t) (hx : readReg s t [] a = .ok x) (hd : checkDest s t d = .ok ()) :
  unary f d a m s = .next (retire s t [a] [(m,a)] (some (d, f x)) 4) := by
  unfold unary issue
  apply issueLen_ok _ _ _ t _ h
  simp [hx, hd, bind, Except.bind, pure, Except.pure]

theorem foldmark_g (l : List (Bool × Reg)) (t : Thread) (n : Fin 40) :
    (l.foldl (fun t p => t.mark p.1 p.2) t).g[n] = if (true, Reg.g n) ∈ l then { t.g[n] with full := false } else t.g[n] := by
  induction l generalizing t with
  | nil => simp
  | cons p r ih =>
    obtain ⟨on, q⟩ := p
    rw [List.foldl_cons, ih]
    have key : (t.mark on q).g[n] = if (on, q) = (true, Reg.g n) then { t.g[n] with full := false } else t.g[n] := by
      cases q with
      | g k =>
        cases on
        · simp [Thread.mark]
        · by_cases hk : k = n
          · subst hk; rw [if_pos rfl]; exact Thread.emptyG_same t k
          · have : n ≠ k := fun e => hk e.symm
            simp only [Thread.mark, if_true]
            rw [Thread.emptyG_other t k n this]
            simp [hk]
      | _ => simp [Thread.mark]
    simp only [key, List.mem_cons]
    by_cases h1 : (on, q) = (true, Reg.g n)
    · have h1' := h1.symm
      by_cases h2 : (true, Reg.g n) ∈ r
      · rw [if_pos h2, if_pos h1, if_pos (Or.inl h1')]
      · rw [if_neg h2, if_pos h1, if_pos (Or.inl h1')]
    · have h1' : ¬ (true, Reg.g n) = (on, q) := fun e => h1 e.symm
      by_cases h2 : (true, Reg.g n) ∈ r
      · rw [if_pos h2, if_neg h1, if_pos (Or.inr h2)]
      · rw [if_neg h2, if_neg h1, if_neg (by tauto)]

theorem foldmark_other {α} (f : Thread → α) (hf : ∀ t on q, f (Thread.mark t on q) = f t) (l : List (Bool × Reg)) (t : Thread) :
    f (l.foldl (fun t p => t.mark p.1 p.2) t) = f t := by
  induction l generalizing t with
  | nil => rfl
  | cons p r ih => rw [List.foldl_cons, ih, hf]

theorem nb_ne (c p n) (h : neighbour c p = some n) : n ≠ c := by
  unfold neighbour inCluster colOf at h
  intro e
  have e' : (n : Nat) = (c : Nat) := e
  cases p <;> simp at h <;> obtain ⟨h1, h2⟩ := h <;> simp only [CoreIx] at * <;> omega

theorem goTo_align (s : State) (t : Thread) (target : Word) (link live reads marked) (h : target.toNat % 4 ≠ 0) :
    (goTo t target link live reads marked) s = (.error (.trap .align target), s) := by
  unfold goTo
  rw [run_bind_ok _ _ s s s (run_get s)]
  have hn : needR (decide (target.toNat % 4 = 0)) .align target s = (.error (.trap .align target), s) := by simp [needR, stopIf, h]
  rw [run_bind_error _ _ s s _ hn]

theorem cellsGet_map (m : List Host.Cell) (n a : Nat) : cellsGet m a n = (List.range n).map (fun i => cellGet m (a + i)) := by
  induction n generalizing a with
  | zero => rfl
  | succ n ih =>
    rw [List.range_succ_eq_map, List.map_cons, List.map_map, cellsGet, ih]
    simp only [Nat.add_zero, List.cons.injEq, true_and]
    apply List.map_congr_left
    intro i _
    simp only [Function.comp, Nat.succ_eq_add_one]; congr 1; omega

/-- the sizes that an access may have -/
def okSize (n : Nat) : Prop := n = 1 ∨ n = 2 ∨ n = 4 ∨ n = 8 ∨ n = 32

theorem okSize_size (sz : Size) : okSize (sizeBytes sz) := by cases sz <;> simp [okSize, sizeBytes]

theorem end_toNat (a : Word) (n : Nat) (hn : okSize n) (h : a.toNat % n = 0) : (a + BitVec.ofNat 64 (n-1)).toNat = a.toNat + (n - 1) := by
  have := a.isLt
  rw [BitVec.toNat_add, BitVec.toNat_ofNat]
  rcases hn with rfl | rfl | rfl | rfl | rfl <;> omega

theorem end_div (a : Word) (n : Nat) (hn : okSize n) (h : a.toNat % n = 0) (j : Nat) (hj : n ∣ j) (hp : 0 < j) :
   (a + BitVec.ofNat 64 (n-1)).toNat / j = a.toNat / j := by
  rw [end_toNat a n hn h]
  obtain ⟨q, rfl⟩ := hj
  have hn0 : 0 < n := by rcases hn with rfl | rfl | rfl | rfl | rfl <;> omega
  rw [← Nat.div_div_eq_div_mul, ← Nat.div_div_eq_div_mul]
  congr 1
  obtain ⟨m, hm⟩ := Nat.dvd_of_mod_eq_zero h
  rw [hm, Nat.mul_add_div hn0, Nat.mul_div_cancel_left _ hn0, Nat.div_eq_of_lt (by omega)]; omega

theorem okSize_dvd (n j : Nat) (hn : okSize n) (hj : 5 ≤ j) : n ∣ 2^j := by
  have : 2^j = 32 * 2^(j-5) := by rw [show (32:Nat) = 2^5 from rfl, ← pow_add]; congr 1; omega
  rw [this]
  rcases hn with rfl | rfl | rfl | rfl | rfl <;> exact Dvd.dvd.mul_right (by decide) _

theorem end_bits (a : Word) (n : Nat) (hn : okSize n) (h : a.toNat % n = 0) (hi lo : Nat) (hl : 5 ≤ lo) :
   bitsOf (a + BitVec.ofNat 64 (n-1)) hi lo = bitsOf a hi lo := by
  unfold bitsOf
  rw [end_div a n hn h (2^lo) (okSize_dvd n lo hn hl) (by positivity)]

theorem end_window (a : Word) (n : Nat) (hn : okSize n) (h : a.toNat % n = 0) :
   windowOf (a + BitVec.ofNat 64 (n-1)) = windowOf a := by
  unfold windowOf
  rw [end_div a n hn h (2^56) (okSize_dvd n 56 hn (by omega)) (by positivity)]

theorem wellFormed_local (a : Word) (n : Nat) (hn : okSize n) (h : a.toNat % n = 0) (h1 : 0xF0 ≤ windowOf a) (h2 : windowOf a ≤ 0xF7)
   (h3 : bitsOf a 55 23 = 0) (h4 : bitsOf a 15 15 = 0) : wellFormed a n = true := by
  have hf : ∀ b : Word, windowOf b = windowOf a → bitsOf b 55 23 = 0 → bitsOf b 15 15 = 0 → fieldsZero b = true := by
    intro b hb h3 h4
    have : windowOf b ≠ 0 := by omega
    have hl : isLocalWindow (windowOf b) = true := by simp [isLocalWindow]; omega
    simp [fieldsZero, this, hl, h3, h4]
  unfold wellFormed
  simp only [end_window a n hn h, decide_true, Bool.true_and, hf a rfl h3 h4]
  exact hf _ (end_window a n hn h) (by rw [end_bits a n hn h _ _ (by omega)]; exact h3) (by rw [end_bits a n hn h _ _ (by omega)]; exact h4)

theorem dikeFits_of (s : State) (t : Thread) (k : CoreIx) (o n : Nat) (h : ∃ u, s.thread? { core := k, slot := s.cur.slot } = some u ∧ u.world = t.world ∧ u.dikelo.toNat ≤ o ∧ o + n ≤ u.dikehi.toNat) :
    dikeFits s s.cur.slot t.world (.loc k o) n = true := by
  obtain ⟨u, hu, h1, h2, h3⟩ := h
  simp [dikeFits, dikeSpan, hu, h1, h2, h3]

theorem detectLocal_none (s : State) (c : CoreIx) (o : Nat) (h : ∀ p ∈ s.locErr, p.1 ≠ locWord c o) : s.detectLocal c o = s := by
  have : s.locErr.find? (fun p => decide (p.1 = locWord c o)) = none := by
    rw [List.find?_eq_none]; intro p hp; simp [h p hp]
  simp [State.detectLocal, this]

theorem foldl_id {α β} (f : β → α → β) (l : List α) (b : β) (h : ∀ x ∈ l, f b x = b) : l.foldl f b = b := by
  induction l with
  | nil => rfl
  | cons x r ih => rw [List.foldl_cons, h x (by simp), ih (fun y hy => h y (by simp [hy]))]

theorem rouse_locErr (s : State) (c) : (s.rouse c).locErr = s.locErr := by unfold State.rouse; split <;> rfl

theorem rouse_core (s : State) (c d) : (s.rouse c).core d = s.core d := by unfold State.rouse; split <;> rfl

theorem word_index (o n i : Nat) (hi : i < (o % 8 + n + 7) / 8) (hn : 0 < n) : ∃ j < n, (o + j) / 8 * 8 = o / 8 * 8 + 8 * i := by
  by_cases h0 : i = 0
  · exact ⟨0, hn, by simp [h0]⟩
  · refine ⟨8 * i - o % 8, by omega, by omega⟩

theorem forwarded_unnamed (s : State) (p : Place) (n : Nat) (h : s.buffered s.cur p n = false) : forwarded s s.cur p n = .ok none := by
  have : (s.core s.cur.core).buf.filter (fun e => decide (e.slot = s.cur.slot) && overlaps p n e.place e.n && decide (e.op ≠ .drain)) = [] := by
    rw [List.filter_eq_nil_iff]
    intro e he
    unfold State.buffered at h
    rw [List.any_eq_false] at h
    have := h e he
    simp at this ⊢
    intro h1 h2; exact absurd h2 (by simp [this h1])
  unfold forwarded
  rw [this]; rfl

theorem rouse_cur (s : State) (c) : (s.rouse c).cur = s.cur := by unfold State.rouse; split <;> rfl

theorem rouse_tc (s : State) (c) : (s.rouse c).tc = s.tc := by unfold State.rouse; split <;> rfl

theorem rouse_hbm (s : State) (c) : (s.rouse c).hbm = s.hbm := by unfold State.rouse; split <;> rfl

theorem rouse_agenda (s : State) (c) : (s.rouse c).agenda = s.agenda := by unfold State.rouse; split <;> rfl

theorem rouse_thread (s : State) (c q) : (s.rouse c).thread? q = s.thread? q := by unfold State.rouse; split <;> rfl

theorem logAll_none (s : State) (line w r) (h : s.monitors = []) : s.logAll line w r = s := by
  unfold State.logAll
  simp [h]

theorem wellFormed_global (a : Word) (n : Nat) (hn : okSize n) (h : a.toNat % n = 0) (h1 : windowOf a = 0) (h3 : bitsOf a 55 52 = 0) : wellFormed a n = true := by
  have hf : ∀ b : Word, windowOf b = 0 → bitsOf b 55 52 = 0 → fieldsZero b = true := by
    intro b hb h3
    simp [fieldsZero, hb, h3]
  unfold wellFormed
  simp only [end_window a n hn h, decide_true, Bool.true_and, hf a h1 h3]
  exact hf _ ((end_window a n hn h).trans h1) (by rw [end_bits a n hn h _ _ (by omega)]; exact h3)

theorem usedTlb_eq (s : State) (r t a) : s.usedTlb r t a = s ∨ ∃ l, s.usedTlb r t a = s.modCore r.core (fun k => { k with utlb := l }) := by
  unfold State.usedTlb
  split
  · unfold State.copyTlb
    split
    · exact .inl rfl
    · next e _ _ => exact .inr ⟨capped 32 ((s.core r.core).utlb ++ [e]), rfl⟩
  · exact .inl rfl

theorem usedTlb_cur (s : State) (r t a) : (s.usedTlb r t a).cur = s.cur := by rcases usedTlb_eq s r t a with h | ⟨l, h⟩ <;> rw [h]; rfl

theorem usedTlb_tc (s : State) (r t a) : (s.usedTlb r t a).tc = s.tc := by rcases usedTlb_eq s r t a with h | ⟨l, h⟩ <;> rw [h]; rfl

theorem usedTlb_hbm (s : State) (r t a) : (s.usedTlb r t a).hbm = s.hbm := by rcases usedTlb_eq s r t a with h | ⟨l, h⟩ <;> rw [h]; rfl

theorem usedTlb_agenda (s : State) (r t a) : (s.usedTlb r t a).agenda = s.agenda := by rcases usedTlb_eq s r t a with h | ⟨l, h⟩ <;> rw [h]; rfl

theorem usedTlb_regions (s : State) (r t a) : (s.usedTlb r t a).regions = s.regions := by rcases usedTlb_eq s r t a with h | ⟨l, h⟩ <;> rw [h]; rfl

theorem usedTlb_thread (s : State) (r t a q) : (s.usedTlb r t a).thread? q = s.thread? q := by
  rcases usedTlb_eq s r t a with h | ⟨l, h⟩ <;> rw [h]; exact thread_modCore_slots _ _ _ _ rfl

theorem usedTlb_core {α} (f : Core → α) (hf : ∀ k l, f { k with utlb := l } = f k) (s : State) (r t a c) : f ((s.usedTlb r t a).core c) = f (s.core c) := by
  rcases usedTlb_eq s r t a with h | ⟨l, h⟩ <;> rw [h]
  rw [core_modCore]; split
  · next h => subst h; exact hf _ _
  · rfl

theorem usedTlb_mem (s : State) (r t a c) : ((s.usedTlb r t a).core c).mem = (s.core c).mem := usedTlb_core (fun k => k.mem) (fun _ _ => rfl) ..

theorem usedTlb_scale (s : State) (r t a c) : ((s.usedTlb r t a).core c).scale = (s.core c).scale := usedTlb_core (fun k => k.scale) (fun _ _ => rfl) ..

theorem usedTlb_buf (s : State) (r t a c) : ((s.usedTlb r t a).core c).buf = (s.core c).buf := usedTlb_core (fun k => k.buf) (fun _ _ => rfl) ..

theorem releaseR_ok (s : State) (t : Thread) (w : Bool) (h : releaseMet s s.cur t = true) (hr : s.rdcs = []) : (releaseR s.cur t w) s = (.ok (), s) := by
  unfold releaseR
  refine (run_bind_ok _ _ s s s (run_get s)).trans ?_
  refine (run_bind_ok _ _ s s () (by simp [h, stopIf])).trans ?_
  cases w
  · rfl
  · refine (run_bind_ok _ _ s s () (by simp [waitFor, State.syncMeet, hr])).trans ?_
    simp [State.rdcSync, hr]

theorem mem_laterOnce (s : State) (i a) : ({ what := i, arg := a } : Due) ∈ (s.laterOnce i a).agenda := by
  unfold State.laterOnce
  split
  · next h => simpa using h
  · simp [State.later]

theorem core_laterOnce (s : State) (i a c) : (s.laterOnce i a).core c = s.core c := by simp [State.core]

theorem thread_laterOnce (s : State) (i a q) : (s.laterOnce i a).thread? q = s.thread? q := by simp [State.thread?, core_laterOnce]

theorem core_buffer (s : State) (r t p a n op c) : (s.buffer r t p a n op).core c = if c = r.core then { s.core r.core with buf := (s.core r.core).buf ++
    [{ slot := r.slot, tid := t.id, world := t.world, region := t.region, place := p, va := a, n := n, op := op,
       older := olderCompute t, stamp := s.stampOf (slotSource r) }] } else s.core c := by
  unfold State.buffer
  rw [core_laterOnce, core_modCore]; rfl

theorem thread_buffer (s : State) (r t p a n op q) : (s.buffer r t p a n op).thread? q = s.thread? q := by
  unfold State.buffer
  rw [thread_laterOnce]; exact thread_modCore_slots _ _ _ _ rfl

theorem core_retire_buf (v : State) (t0 : Thread) (reads marked n c) : ((retire v t0 reads marked none n).core c).buf = (v.core c).buf := by
  unfold retire
  dsimp only
  have tp : ∀ (l : List Reg) (s : State) (c d : CoreIx), ((s.takePorts c l).core d).buf = (s.core d).buf := by
    intro l
    induction l with
    | nil => intros; rfl
    | cons x r ih =>
      intro s c d
      cases x <;> simp only [State.takePorts, ih]
      rw [core_modCore]
      split
      · next h => subst h; rfl
      · rfl
  rw [tp, core_setThread]
  split
  · next h => subst h; rfl
  · rfl

theorem spoil_core (s : State) (p n c) : (s.spoil p n).core c = s.core c := by unfold State.spoil; split <;> rfl

theorem spoil_hbm (s : State) (p n) : (s.spoil p n).hbm = s.hbm := by unfold State.spoil; split <;> rfl

theorem spoil_agenda (s : State) (p n) : (s.spoil p n).agenda = s.agenda := by unfold State.spoil; split <;> rfl

theorem spoil_thread (s : State) (p n q) : (s.spoil p n).thread? q = s.thread? q := by simp [State.thread?, spoil_core]

theorem spoil_arg (s : State) (p n) : (s.spoil p n).arg = s.arg := by unfold State.spoil; split <;> rfl

/-- Nothing but requests at homes and the agenda differs. -/
structure Kept (s u : State) : Prop where
  cores : u.cores = s.cores
  regions : u.regions = s.regions
  tc : u.tc = s.tc
  hbm : u.hbm = s.hbm
  cur : u.cur = s.cur
  out : u.out = s.out
  rdcs : u.rdcs = s.rdcs
  locErr : u.locErr = s.locErr
  layout : u.layout = s.layout
  weirs : u.weirs = s.weirs
  gangs : u.gangs = s.gangs
  scrubs : u.scrubs = s.scrubs
  agenda : ∀ x ∈ s.agenda, x ∈ u.agenda

theorem Kept.refl (s : State) : Kept s s := ⟨rfl, rfl, rfl, rfl, rfl, rfl, rfl, rfl, rfl, rfl, rfl, rfl, fun _ h => h⟩

theorem Kept.trans {s u v : State} (h : Kept s u) (k : Kept u v) : Kept s v :=
  ⟨k.1.trans h.1, k.2.trans h.2, k.3.trans h.3, k.4.trans h.4, k.5.trans h.5, k.6.trans h.6, k.7.trans h.7, k.8.trans h.8, k.9.trans h.9, k.10.trans h.10, k.11.trans h.11, k.12.trans h.12, fun x hx => k.13 x (h.13 x hx)⟩

theorem Kept.foldl {α} (f : State → α → State) (hf : ∀ s x, Kept s (f s x)) (l : List α) (s : State) : Kept s (l.foldl f s) := by
  induction l generalizing s with
  | nil => exact .refl s
  | cons a r ih => exact (hf s a).trans (ih _)

theorem Kept.laterOnce (s : State) (i a) : Kept s (s.laterOnce i a) := by
  unfold State.laterOnce State.later
  split
  · exact .refl s
  · exact ⟨rfl, rfl, rfl, rfl, rfl, rfl, rfl, rfl, rfl, rfl, rfl, rfl, fun x hx => by simp; exact Or.inl hx⟩

theorem Kept.dropPlaces (s : State) (d) : Kept s (s.dropPlaces d) := by
  unfold State.dropPlaces
  extract_lets step s1
  split
  · have h1 : Kept s s1 := by
      refine Kept.foldl step ?_ _ _
      intro s p
      simp only [step]
      split
      · have field : ∀ l, Kept s { s with lrws := l } := fun _ => ⟨rfl, rfl, rfl, rfl, rfl, rfl, rfl, rfl, rfl, rfl, rfl, rfl, fun _ h => h⟩
        split_ifs <;> first | exact field _ | exact (field _).trans (Kept.laterOnce _ _ _)
      · exact .refl s
    refine h1.trans (Kept.foldl _ ?_ _ _)
    intro s p; split
    · exact Kept.laterOnce _ _ _
    · exact .refl s
  · exact .refl s

theorem Kept.serveHeld (s : State) : Kept s s.serveHeld := by
  unfold State.serveHeld State.atOnce
  split_ifs
  · exact .refl s
  · exact .refl s
  · exact ⟨rfl, rfl, rfl, rfl, rfl, rfl, rfl, rfl, rfl, rfl, rfl, rfl, fun _ h => h⟩

theorem Kept.withdraw (s : State) (r) : Kept s (s.withdraw r) := by
  unfold State.withdraw
  extract_lets s1
  have h1 : Kept s s1 := ⟨rfl, rfl, rfl, rfl, rfl, rfl, rfl, rfl, rfl, rfl, rfl, rfl, fun _ h => h⟩
  exact (h1.trans (Kept.dropPlaces _ _)).trans (Kept.serveHeld _)

theorem Kept.core {s u : State} (h : Kept s u) (c) : u.core c = s.core c := by unfold State.core; rw [h.cores]

theorem Kept.thread {s u : State} (h : Kept s u) (c) : u.thread? c = s.thread? c := by unfold State.thread?; rw [h.core]

theorem Kept.privOf {s u : State} (h : Kept s u) (r t w) : u.privOf r t w = s.privOf r t w := by
  unfold State.privOf State.region?; rw [h.core, h.regions]

theorem Kept.region {s u : State} (h : Kept s u) (g) : u.region? g = s.region? g := by unfold State.region?; rw [h.regions]

theorem threadById_setThread_other (s : State) (r : SlotRef) (t : Thread) (id : Nat) (sup v) (h : s.threadById id = some (sup, v)) (ho : ¬sameSlot sup r) :
    (s.setThread r t).threadById id = some (sup, v) := by
  unfold State.threadById at *
  have e : idSlot id = sup := by
    dsimp only at h; split at h
    · split at h
      · simp at h; exact h.1
      · simp at h
    · simp at h
  subst e
  dsimp only at *
  rw [thread_setThread_other _ _ _ _ ho]; exact h

theorem postQ6_core (s : State) (r st w g n) (c) : ((s.postQ6 r st w g n).core c).q6wait = if c = r.core then (s.core c).q6wait ++ [{ slot := r.slot, stamp := st, words := w, region := g, notice := n }] else (s.core c).q6wait := by
  unfold State.postQ6
  rw [core_laterOnce, core_modCore]; split
  · next h => subst h; rfl
  · rfl

theorem laterOnce_mem (s : State) (i a) : ({ what := i, arg := a } : Due) ∈ (s.laterOnce i a).agenda := by
  unfold State.laterOnce State.later; split
  · next h => simpa using h
  · simp

theorem postQ6_thread (s : State) (r st w g n) (q) : (s.postQ6 r st w g n).thread? q = s.thread? q := by
  unfold State.postQ6
  rw [thread_laterOnce]; exact thread_modCore_slots _ _ _ _ rfl

theorem postQ6_mem (s : State) (r st w g n) (c) : ((s.postQ6 r st w g n).core c).mem = (s.core c).mem := by
  unfold State.postQ6
  rw [core_laterOnce, core_modCore]; split
  · next h => subst h; rfl
  · rfl

theorem postQ6_scale (s : State) (r st w g n) (c) : ((s.postQ6 r st w g n).core c).scale = (s.core c).scale := by
  unfold State.postQ6
  rw [core_laterOnce, core_modCore]; split
  · next h => subst h; rfl
  · rfl

theorem laterOnce_tc (s : State) (i a) : (s.laterOnce i a).tc = s.tc := (Kept.laterOnce s i a).tc

theorem laterOnce_hbm (s : State) (i a) : (s.laterOnce i a).hbm = s.hbm := (Kept.laterOnce s i a).hbm

theorem postQ6_tc (s : State) (r st w g n) : (s.postQ6 r st w g n).tc = s.tc := by
  unfold State.postQ6; rw [laterOnce_tc]; rfl

theorem postQ6_hbm (s : State) (r st w g n) : (s.postQ6 r st w g n).hbm = s.hbm := by
  unfold State.postQ6; rw [laterOnce_hbm]; rfl

theorem deliver_sup (s : State) (region culprit st words notice g sup v n) (hr : s.region? region = some g) (hp : g.policy ≤ 1)
   (hc : ∀ r ∈ s.regions, r.supervisor ≠ culprit) (hs : s.threadById g.supervisor = some (sup, v)) :
   deliver s region culprit st words notice (n+1) = s.postQ6 sup st words g.id notice := by
  unfold deliver
  rw [hr]; dsimp only
  rw [if_neg (by
    simp only [Bool.or_eq_true, decide_eq_true_eq, Bool.and_eq_true, List.any_eq_true, not_or, not_and, not_exists]
    refine ⟨by omega, fun _ x hx => hc x hx⟩)]
  rw [if_neg (by omega)]
  rw [hs]

theorem acquireS_id (s : State) (r t w) (h : s.rdcs = []) : acquireS s r t w = s := by
  unfold acquireS; split
  · simp [State.rdcSync, h]
  · rfl

/-- The state after an instruction whose result comes later. -/
def pended (s : State) (t : Thread) (reads : List Reg) (marked : List (Bool × Reg)) (d : Reg) : State :=
  (retire s t reads marked none 4).modThread s.cur (fun u => match d with
    | .g n => u.pendG n
    | .x _ => { u with parked := some .held }
    | .lk => { u with parked := some .held }
    | .port _ => { u with parked := some .held }
    | _ => u)

theorem retirePending_ok (s : State) (t reads marked d) : (retirePending t reads marked d) s = (.ok (), pended s t reads marked d) := rfl

theorem pended_other (s : State) (t reads marked d q) (h : ¬sameSlot q s.cur) : (pended s t reads marked d).thread? q = s.thread? q := by
  unfold pended
  rw [thread_modThread_other _ _ _ _ h, thread_retire_other _ _ _ _ _ _ _ h]

theorem pended_mem (s : State) (t reads marked d c) : ((pended s t reads marked d).core c).mem = (s.core c).mem := by
  unfold pended; rw [mem_modThread, mem_retire]

theorem pended_scale (s : State) (t reads marked d c) : ((pended s t reads marked d).core c).scale = (s.core c).scale := by
  unfold pended; rw [scale_modThread, scale_retire]

@[simp] theorem pended_regions (s : State) (t reads marked d) : (pended s t reads marked d).regions = s.regions := by unfold pended; simp

@[simp] theorem pended_hbm (s : State) (t reads marked d) : (pended s t reads marked d).hbm = s.hbm := by unfold pended; simp

@[simp] theorem pended_tc (s : State) (t reads marked d) : (pended s t reads marked d).tc = s.tc := by unfold pended; simp

@[simp] theorem pended_cur (s : State) (t reads marked d) : (pended s t reads marked d).cur = s.cur := by unfold pended; simp

@[simp] theorem pended_agenda (s : State) (t reads marked d) : (pended s t reads marked d).agenda = s.agenda := by unfold pended; simp

@[simp] theorem pended_stamped (s : State) (t reads marked d) : (pended s t reads marked d).stamped = s.stamped := by unfold pended; simp

@[simp] theorem pended_rdcs (s : State) (t reads marked d) : (pended s t reads marked d).rdcs = s.rdcs := by unfold pended; simp

@[simp] theorem pended_launches (s : State) (t reads marked d) : (pended s t reads marked d).launches = s.launches := by unfold pended; simp

/-- A field of cores that taking port words and replacing threads leave. -/
structure Port_free {α : Type} (f : Core → α) : Prop where
  slots : ∀ (k : Core) v, f { k with slots := v } = f k
  ports : ∀ (k : Core) v, f { k with portsIn := v } = f k

theorem pf_takePorts {α} {f : Core → α} (hf : Port_free f) (l : List Reg) (s : State) (c d : CoreIx) : f ((s.takePorts c l).core d) = f (s.core d) := by
  induction l generalizing s with
  | nil => rfl
  | cons x r ih =>
    cases x <;> simp only [State.takePorts, ih]
    rw [core_modCore]
    split
    · next h => subst h; exact hf.ports _ _
    · rfl

theorem pf_setThread {α} {f : Core → α} (hf : Port_free f) (s : State) (r : SlotRef) (t : Thread) (c : CoreIx) : f ((s.setThread r t).core c) = f (s.core c) := by
  rw [core_setThread]
  split
  · next h => subst h; exact hf.slots _ _
  · rfl

theorem pf_modThread {α} {f : Core → α} (hf : Port_free f) (s : State) (r : SlotRef) (g) (c : CoreIx) : f ((s.modThread r g).core c) = f (s.core c) := by
  unfold State.modThread
  split
  · exact pf_setThread hf _ _ _ _
  · rfl

theorem pf_retire_none {α} {f : Core → α} (hf : Port_free f) (s : State) (t reads marked n) (c : CoreIx) : f ((retire s t reads marked none n).core c) = f (s.core c) := by
  unfold retire; exact (pf_takePorts hf _ _ _ _).trans (pf_setThread hf _ _ _ _)

theorem pf_pended {α} {f : Core → α} (hf : Port_free f) (s : State) (t reads marked d) (c : CoreIx) : f ((pended s t reads marked d).core c) = f (s.core c) := by
  unfold pended; exact (pf_modThread hf _ _ _ _).trans (pf_retire_none hf _ _ _ _ _ _)

theorem deliver_thread (s : State) (r id d v fl src q) : (s.deliverResult r id d v fl src).thread? q = s.thread? q := by
  unfold State.deliverResult State.sendFill
  rw [thread_laterOnce]; exact thread_modCore_slots _ _ _ _ rfl

theorem deliver_core (s : State) (r id d v fl src c) : (s.deliverResult r id d v fl src).core c =
    if c = r.core then { s.core r.core with fills := (s.core r.core).fills ++ [{ slot := r.slot, tid := id, reg := d, value := v, flags := fl, poke := false, stamp := s.stampOf src, after := none }] } else s.core c := by
  unfold State.deliverResult State.sendFill
  rw [core_laterOnce, core_modCore]; rfl

theorem deliver_mem (s : State) (r id d v fl src c) : ((s.deliverResult r id d v fl src).core c).mem = (s.core c).mem := by
  rw [deliver_core]; split
  · next h => subst h; rfl
  · rfl

theorem deliver_scale (s : State) (r id d v fl src c) : ((s.deliverResult r id d v fl src).core c).scale = (s.core c).scale := by
  rw [deliver_core]; split
  · next h => subst h; rfl
  · rfl

theorem deliver_tc (s : State) (r id d v fl src) : (s.deliverResult r id d v fl src).tc = s.tc := by
  unfold State.deliverResult State.sendFill; rw [laterOnce_tc]; rfl

theorem deliver_hbm (s : State) (r id d v fl src) : (s.deliverResult r id d v fl src).hbm = s.hbm := by
  unfold State.deliverResult State.sendFill; rw [laterOnce_hbm]; rfl

theorem replyWord_0n (n : Nat) : replyWord 0 n = BitVec.ofNat 64 n := by unfold replyWord; rw [Nat.zero_mul, Nat.zero_add]

theorem nest_claim (k : Nest) (c : Nat) (h : c < 2 ^ 64) : nestClaim k (BitVec.ofNat 64 c) =
   if k.e0 * k.e1 * k.e2 * k.e3 - c = 0 then none else some (min (k.e0 * k.e1 * k.e2 * k.e3 - c) (max k.minc ((k.e0 * k.e1 * k.e2 * k.e3 - c + k.parts - 1) / k.parts))) := by
  unfold nestClaim
  have : (BitVec.ofNat 64 c).toNat = c := by simp; omega
  rw [this]; dsimp only
  split
  · rw [if_pos (by omega)]
  · rw [if_neg (by omega)]
    have : ((k.e0 * k.e1 * k.e2 * k.e3 : Nat) - (c : Int)).toNat = k.e0 * k.e1 * k.e2 * k.e3 - c := by omega
    rw [this]

theorem needR_ok (b : Bool) (c a) (s : State) (h : b = true) : needR b c a s = (.ok (), s) := by subst h; rfl

theorem needR_no (b : Bool) (c a) (s : State) (h : b = false) : needR b c a s = (.error (.trap c a), s) := by subst h; rfl

theorem stopIf_ok (b : Bool) (c) (s : State) (h : b = false) : stopIf b c s = (.ok (), s) := by subst h; rfl

theorem stopIf_no (b : Bool) (c) (s : State) (h : b = true) : stopIf b c s = (.error c, s) := by subst h; rfl

theorem leNat_getD (l : List Byte) (n : Nat) (h : l.length = n) : leNat ((List.range n).map (fun i => l.getD i 0)) = leNat l := by
  congr 1
  apply List.ext_getElem
  · simp [h]
  · intro i h1 h2; simp [List.getElem?_eq_getElem h2]

theorem leNat_lt (l : List Byte) : leNat l < 256 ^ l.length := by
  induction l with
  | nil => simp [leNat]
  | cons b r ih =>
    simp only [leNat, List.length_cons, Nat.pow_succ]
    have := b.isLt
    omega

theorem leNat_wrapped (x : Nat) : leNat (natLe (x % (@HPow.hPow Nat Nat Nat (@instHPow Nat Nat (@instPowNat Nat instNatPowNat)) 2 64)) 8) = x % (@HPow.hPow Nat Nat Nat (@instHPow Nat Nat (@instPowNat Nat instNatPowNat)) 2 64) := by
  rw [leNat_natLe]
  have hp : (@HPow.hPow Nat Nat Nat (@instHPow Nat Nat (@instPowNat Nat instNatPowNat)) 2 64) = 18446744073709551616 := rfl
  rw [hp]
  norm_num

/-- States that differ at most in a micro-TLB. -/
structure Tlb (s u : State) : Prop where
  rest : u = { s with cores := u.cores }
  core : ∀ {α : Type} (f : Core → α), (∀ k l, f { k with utlb := l } = f k) → ∀ c, f (u.core c) = f (s.core c)

theorem Tlb.refl (s : State) : Tlb s s := ⟨rfl, fun _ _ _ => rfl⟩

theorem Tlb.used (s : State) (r t a) : Tlb s (s.usedTlb r t a) := by
  refine ⟨?_, fun f hf c => usedTlb_core f hf s r t a c⟩
  rcases usedTlb_eq s r t a with h | ⟨l, h⟩ <;> rw [h] <;> rfl

theorem Tlb.thread {s u} (h : Tlb s u) (q) : u.thread? q = s.thread? q := h.core (fun k => (k.slot q.slot).thread) (fun _ _ => rfl) q.core

theorem Tlb.field {s u} (h : Tlb s u) {α : Type} (f : State → α) (hf : ∀ c, f { s with cores := c } = f s) : f u = f s := by
  rw [h.rest]; exact hf _

theorem Tlb.cur {s u} (h : Tlb s u) : u.cur = s.cur := h.field State.cur (fun _ => rfl)

theorem Tlb.tc {s u} (h : Tlb s u) : u.tc = s.tc := h.field State.tc (fun _ => rfl)

theorem Tlb.stamped {s u} (h : Tlb s u) : u.stamped = s.stamped := h.field State.stamped (fun _ => rfl)

theorem Tlb.mem {s u} (h : Tlb s u) (c) : (u.core c).mem = (s.core c).mem := h.core (fun k => k.mem) (fun _ _ => rfl) c

theorem Tlb.scale {s u} (h : Tlb s u) (c) : (u.core c).scale = (s.core c).scale := h.core (fun k => k.scale) (fun _ _ => rfl) c

theorem Tlb.buf {s u} (h : Tlb s u) (c) : (u.core c).buf = (s.core c).buf := h.core (fun k => k.buf) (fun _ _ => rfl) c

theorem Tlb.hbm {s u} (h : Tlb s u) : u.hbm = s.hbm := h.field State.hbm (fun _ => rfl)

theorem Tlb.claims {s u} (h : Tlb s u) : u.claims = s.claims := h.field State.claims (fun _ => rfl)

theorem Tlb.held {s u} (h : Tlb s u) : u.held = s.held := h.field State.held (fun _ => rfl)

theorem Tlb.rdcs {s u} (h : Tlb s u) : u.rdcs = s.rdcs := h.field State.rdcs (fun _ => rfl)

theorem Tlb.lrws {s u} (h : Tlb s u) : u.lrws = s.lrws := h.field State.lrws (fun _ => rfl)

theorem Tlb.rupds {s u} (h : Tlb s u) : u.rupds = s.rupds := h.field State.rupds (fun _ => rfl)

theorem Tlb.agenda {s u} (h : Tlb s u) : u.agenda = s.agenda := h.field State.agenda (fun _ => rfl)

theorem Tlb.buffered {s u} (h : Tlb s u) (r p n) : u.buffered r p n = s.buffered r p n := by unfold State.buffered; rw [h.buf]

theorem Tlb.lineCase {s u} (h : Tlb s u) (w l) : u.lineCase w l = s.lineCase w l := h.field (fun s => s.lineCase w l) (fun _ => rfl)

theorem Tlb.tag {s u} (h : Tlb s u) (l) : u.tag l = s.tag l := h.field (fun s => s.tag l) (fun _ => rfl)

theorem Tlb.wordFull {s u} (h : Tlb s u) (w p) : u.wordFull w p = s.wordFull w p := by
  cases p with
  | loc k o => exact congrArg (fun e : List Nat => !e.contains (o / 8 * 8)) (h.core (fun k => k.emptyW) (fun _ _ => rfl) k)
  | scale => rfl
  | glob pa => exact h.field (fun s => s.globFull w pa) (fun _ => rfl)

theorem Tlb.releaseMet {s u} (h : Tlb s u) (r t) : releaseMet u r t = releaseMet s r t := by
  unfold Machine.releaseMet State.devicePending
  rw [h.buf, h.rupds, h.agenda, h.field State.mboxWait (fun _ => rfl)]

/-- The state after the checks of R282. -/
def placed (s : State) (t : Thread) (a : Word) (p : Place) : State :=
  match p with
  | .glob _ => s.usedTlb s.cur t a
  | _ => s

theorem placed_tlb (s t a p) : Tlb s (placed s t a p) := by
  unfold placed; split
  · exact Tlb.used _ _ _ _
  · exact Tlb.refl _

theorem hazardOf_word (s : State) (r) (t : Thread) (p : Place) (n : Nat) (h : ∀ e ∈ t.cq, entryNames r t e false p n = false) : (hazardOf s r t p n false).1 = false := by
  have h1 : t.cq.any (fun e => entryNames r t e false p n) = false := by
    rw [List.any_eq_false]; intro e he; simp [h e he]
  unfold hazardOf
  simp [h1]

theorem pastOwn_ok (s u : State) (r) (p : Place) (hu : Tlb s u) (h : s.buffered r p 8 = false) : (pastOwn r p) u = (.ok (), u) := by
  unfold pastOwn
  refine (run_bind_ok _ _ u u u (run_get u)).trans ?_
  exact stopIf_ok _ _ _ (by rw [hu.buffered]; exact h)

theorem locWrite_nil (s : State) (k : CoreIx) (o : Nat) (h : o % 8 = 0) : s.locWrite k o [] =
   (((s.rouse k).modCore k (fun c => { c with mem := cellsPut c.mem o [], poison := c.poison.filter (fun o => !(([] : List Nat).contains o)) })).spoil (.loc k o) 0, none) := by
  unfold State.locWrite
  simp [h]

theorem spoil_cur (s : State) (p n) : (s.spoil p n).cur = s.cur := by unfold State.spoil; split <;> rfl

theorem spoil_tc (s : State) (p n) : (s.spoil p n).tc = s.tc := by unfold State.spoil; split <;> rfl

theorem spoil_held (s : State) (p n) : (s.spoil p n).held = s.held := by unfold State.spoil; split <;> rfl

theorem rouse_held (s : State) (k) : (s.rouse k).held = s.held := by unfold State.rouse; split <;> rfl

theorem spoil_claims (s : State) (p n) : (s.spoil p n).claims = s.claims := by unfold State.spoil; split <;> rfl

theorem rouse_claims (s : State) (k) : (s.rouse k).claims = s.claims := by unfold State.rouse; split <;> rfl

theorem mem_setAdd (l : List Nat) (x : Nat) : x ∈ setAdd l x := by
  induction l with
  | nil => simp [setAdd]
  | cons a r ih => unfold setAdd; split <;> [skip; split] <;> simp_all

/-- What a full/empty store of sound local memory, or of none, leaves. -/
theorem pf_givePort {α} {f : Core → α} (hf : Port_free f) (s : State) (c d : CoreIx) (p v) : f ((s.givePort c p v).core d) = f (s.core d) := by
  unfold State.givePort
  split
  · rfl
  · rw [core_modCore]
    split
    · next h => subst h; exact hf.ports _ _
    · rfl

theorem pf_retire {α} {f : Core → α} (hf : Port_free f) (s : State) (t reads marked d n) (c : CoreIx) : f ((retire s t reads marked d n).core c) = f (s.core c) := by
  unfold retire
  rcases d with _ | ⟨r, v⟩
  · exact (pf_takePorts hf _ _ _ _).trans (pf_setThread hf _ _ _ _)
  · dsimp only
    unfold State.writeReg
    split
    · exact (pf_givePort hf _ _ _ _ _).trans ((pf_takePorts hf _ _ _ _).trans (pf_setThread hf _ _ _ _))
    · exact (pf_modThread hf _ _ _ _).trans ((pf_takePorts hf _ _ _ _).trans (pf_setThread hf _ _ _ _))

theorem bufferRoom_ok (s u : State) (hu : Tlb s u) (h : (s.core s.cur.core).buf.length < 32) : (bufferRoom s.cur) u = (.ok (), u) := by
  unfold bufferRoom
  refine (run_bind_ok _ _ u u u (run_get u)).trans ?_
  exact stopIf_ok _ _ _ (by rw [hu.buf]; simpa using h)

theorem releaseR_tlb (s u : State) (t : Thread) (w : Bool) (hu : Tlb s u) (h : releaseMet s s.cur t = true) (hr : s.rdcs = []) : (releaseR s.cur t w) u = (.ok (), u) := by
  have := releaseR_ok u t w (by rw [hu.cur, hu.releaseMet]; exact h) (by rw [hu.rdcs]; exact hr)
  rw [hu.cur] at this; exact this

theorem yieldFar_none (s : State) (w c p) (h : s.rdcs = []) : s.yieldFar w c p = s := by
  unfold State.yieldFar
  split
  · split
    · rfl
    · unfold State.rdcYield; rw [h]; rfl
  · rfl

theorem kept_serve_core (s : State) (c) : (s.serveHeld).core c = s.core c := (Kept.serveHeld s).core c

theorem popBuffer_core (v : State) (c d) : (v.popBuffer d).core c = if c = d then { v.core d with buf := (v.core d).buf.tail } else v.core c := by
  unfold State.popBuffer
  dsimp only
  split
  · exact core_modCore _ _ _ _
  · rw [core_laterOnce]; exact core_modCore _ _ _ _

theorem popBuffer_hbm (v : State) (d) : (v.popBuffer d).hbm = v.hbm := by
  unfold State.popBuffer; dsimp only; split <;> simp

theorem dropPlaces_none (s : State) (d : LrwPlace → Bool) (h : ∀ p ∈ s.lrws, ∀ q ∈ p.2, d q = false) : s.dropPlaces d = s := by
  unfold State.dropPlaces
  dsimp only
  rw [if_neg]
  simp only [List.any_eq_true, not_exists, not_and]
  intro p hp q hq
  simp [h p hp q hq]

theorem placeIn_mem (q : List LrwPlace) (x : LrwPlace) : x ∈ placeIn q x := by
  unfold placeIn
  split <;> simp

theorem tget_tdel_same {α : Type} (d : α) (m : List (Nat × α)) (x : Nat) : tget d (tdel m x) x = d := by
  induction m with
  | nil => rfl
  | cons p r ih =>
    unfold tdel at *
    by_cases h : p.1 = x
    · simp [h]; simpa using ih
    · rw [List.filter_cons_of_pos (by simp [h])]
      unfold tget
      rw [if_neg (fun e => h e.symm)]
      split
      · rfl
      · exact ih

theorem laterOnce_lrws (s : State) (i a) : (s.laterOnce i a).lrws = s.lrws := by
  unfold State.laterOnce State.later; split <;> rfl

/-- What handing on a reservation leaves. -/
theorem handOn_facts (s : State) (line : Nat) : tget [] (s.handOn line).lrws line = startLease s.tc (tget [] s.lrws line).tail ∧
   (s.handOn line).cores = s.cores ∧ (s.handOn line).hbm = s.hbm ∧ (s.handOn line).tc = s.tc ∧ (s.handOn line).cur = s.cur := by
  unfold State.handOn
  extract_lets q s1 s2
  have hf : ∀ (l : List (Nat × List LrwPlace)) (v : State), (l.foldl (fun s p => if lrwWaiting ≤ p.1 then s.laterOnce .lrwHead { n := p.1 } else s) v).lrws = v.lrws := by
    intro l
    induction l with
    | nil => intro v; rfl
    | cons a r ih => intro v; rw [List.foldl_cons, ih]; split <;> [exact laterOnce_lrws _ _ _; rfl]
  have hk : Kept s2 (s2.lrws.foldl (fun s p => if lrwWaiting ≤ p.1 then s.laterOnce .lrwHead { n := p.1 } else s) s2) := by
    refine Kept.foldl _ ?_ _ _
    intro s p; split
    · exact Kept.laterOnce _ _ _
    · exact Kept.refl _
  have h2 : s2.lrws = s1.lrws := by simp only [s2]; split <;> [rfl; exact laterOnce_lrws _ _ _]
  have hk2 : Kept s1 s2 := by simp only [s2]; split <;> [exact Kept.refl _; exact Kept.laterOnce _ _ _]
  have hk3 := hk2.trans hk
  refine ⟨?_, hk3.cores.trans rfl, hk3.hbm.trans rfl, hk3.tc.trans rfl, hk3.cur.trans rfl⟩
  rw [hf, h2]
  simp only [s1]
  split
  · next he =>
    rw [tget_tdel_same]
    exact (List.isEmpty_iff.mp he).symm
  · exact tget_tput_same _ _ _ _

theorem popBuffer_agenda (v : State) (d) (x) (h : x ∈ v.agenda) : x ∈ (v.popBuffer d).agenda := by
  unfold State.popBuffer; dsimp only; split
  · exact h
  · exact (Kept.laterOnce _ _ _).agenda _ h

theorem spoil_rest (s : State) (p n) : s.spoil p n = { s with gangs := (s.spoil p n).gangs } := by unfold State.spoil; split <;> rfl

theorem spoil_lineCase (s : State) (p n w l) : (s.spoil p n).lineCase w l = s.lineCase w l := by rw [spoil_rest]; rfl

theorem spoil_tag (s : State) (p n l) : (s.spoil p n).tag l = s.tag l := by rw [spoil_rest]; rfl

theorem spoil_monitors (s : State) (p n) : (s.spoil p n).monitors = s.monitors := by rw [spoil_rest]

theorem spoil_keys (s : State) (p n) : (s.spoil p n).keys = s.keys := by rw [spoil_rest]

theorem spoil_lines (s : State) (p n) : (s.spoil p n).lines = s.lines := by rw [spoil_rest]

theorem spoil_rdcs (s : State) (p n) : (s.spoil p n).rdcs = s.rdcs := by rw [spoil_rest]

theorem spoil_lrws (s : State) (p n) : (s.spoil p n).lrws = s.lrws := by rw [spoil_rest]

theorem wf_rise (m : List Host.Cell) (h : Memory.wf m = true) : keysRise m = true := by
  unfold Memory.wf at h; simp at h; exact h.1

theorem lineCase_setTag (s : State) (world line : Nat) (t : LineTag) (ht : t.world = (s.tag line).world) (he : t.epoch = (s.tag line).epoch) :
   (s.setTag line t).lineCase world line = s.lineCase world line := by
  unfold State.lineCase State.keyLive State.tag State.setTag at *
  dsimp only at *
  rw [tget_tput_same, ht, he]

theorem cacheOnly_tagWrite (s : State) (l w) : CacheOnly s (s.tagWrite l w) := cacheOnly_slices _ _

/-- What a write at home makes of the state that the touched line leaves. -/
def wrote (v : State) (l : Nat) (t : LineTag) (h : List Host.Cell) (w : Who) : State := ({ v.setTag l t with hbm := h }).tagWrite l w

theorem wrote_hbm (v l t h w) : (wrote v l t h w).hbm = h := rfl

theorem wrote_core (v l t h w c) : (wrote v l t h w).core c = v.core c := rfl

theorem wrote_lrws (v l t h w) : (wrote v l t h w).lrws = v.lrws := rfl

theorem wrote_rdcs (v l t h w) : (wrote v l t h w).rdcs = v.rdcs := rfl

theorem wrote_tc (v l t h w) : (wrote v l t h w).tc = v.tc := rfl

theorem wrote_cur (v l t h w) : (wrote v l t h w).cur = v.cur := rfl

theorem wrote_monitors (v l t h w) : (wrote v l t h w).monitors = v.monitors := rfl

theorem wrote_case (v l t h w x) : (wrote v l t h w).lineCase x l = (v.setTag l t).lineCase x l := rfl

theorem tget_filter {α : Type} (d : α) (q : Nat → Bool) (m : List (Nat × α)) (h : keysRise m = true) (x : Nat) :
    tget d (m.filter (fun p => q p.1)) x = if q x then tget d m x else d := by
  induction m with
  | nil => simp [tget]
  | cons p r ih =>
    obtain ⟨k, v⟩ := p
    obtain ⟨ha, hr⟩ := (keysRise_cons k v r).mp h
    have ih := ih hr
    by_cases hk : q k
    · rw [List.filter_cons_of_pos (by simpa using hk)]
      unfold tget
      by_cases e : x = k
      · subst e; simp [hk]
      · rw [if_neg e, if_neg e]
        by_cases hlt : x < k
        · rw [if_pos hlt, if_pos hlt]; simp
        · rw [if_neg hlt, if_neg hlt, ih]
    · rw [List.filter_cons_of_neg (by simpa using hk), ih]
      by_cases hx : q x
      · have e : x ≠ k := fun e => hk (e ▸ hx)
        rw [if_pos hx, if_pos hx]
        conv_rhs => unfold tget
        rw [if_neg e]
        by_cases hlt : x < k
        · rw [if_pos hlt]
          apply tget_keysAbove
          intro p hp; have := ha p hp; omega
        · rw [if_neg hlt]
      · rw [if_neg hx, if_neg hx]

theorem cellGet_scrub (m : List Host.Cell) (lo hi a : Nat) (h : Memory.wf m = true) : cellGet (cellsScrub m lo hi) a = if lo ≤ a ∧ a < hi then 0 else cellGet m a := by
  unfold cellGet cellsScrub
  have := tget_filter unwritten (fun x => decide (x < lo) || decide (hi ≤ x)) m (wf_rise m h) a
  rw [this]
  by_cases hh : lo ≤ a ∧ a < hi
  · rw [if_pos hh, if_neg (by simp; omega)]; rfl
  · rw [if_neg hh, if_pos (by simp; omega)]

/-- A forbidden store marks pools, rings and caches, and nothing else. -/
theorem taint_rest (s : State) (w pa n) : s.taint w pa n =
    { s with pools := (s.taint w pa n).pools, regions := (s.taint w pa n).regions, cacheSpoilt := (s.taint w pa n).cacheSpoilt } := by
  unfold State.taint; split <;> rfl

theorem taint_monitors (s : State) (w pa n) : (s.taint w pa n).monitors = s.monitors := by rw [taint_rest]

theorem taint_hbm (s : State) (w pa n) : (s.taint w pa n).hbm = s.hbm := by rw [taint_rest]

theorem taint_lineCase (s : State) (w pa n v l) : (s.taint w pa n).lineCase v l = s.lineCase v l := by rw [taint_rest]; rfl

theorem taint_core (s : State) (w pa n c) : (s.taint w pa n).core c = s.core c := by rw [taint_rest]; rfl

theorem homeWrite_fresh (s : State) (w : Who) (keep) (pa : Nat) (data : List Byte) (hm : s.monitors = []) (hc : s.lineCase w.world (lineOf pa) = .fresh)
   (hk : (tget Key.none s.keys w.world).live = true) :
    ∃ u, s.homeWrite w keep pa data = (u, none) ∧ u.hbm = cellsPut (cellsScrub s.hbm (lineOf pa) (lineOf pa + 64)) pa data ∧ u.lineCase w.world (lineOf pa) = .own ∧
      (∀ c, (u.core c).bare = (s.core c).bare) := by
  let s0 := s.spoil (.glob pa) data.length
  have T := cacheOnly_touchLine s0 (lineOf pa) w.slot true
  let s1 := (s0.touchLine (lineOf pa) w.slot true).1
  have hc1 : s1.lineCase w.world (lineOf pa) = .fresh := (T.lineCase _ _).trans ((spoil_lineCase _ _ _ _ _).trans hc)
  let t : LineTag := { world := w.world, epoch := (tget Key.none s1.keys w.world).epoch, fe := 0xFF, sound := true, poison := false }
  let s2 : State := { s1.setTag (lineOf pa) t with hbm := cellsPut (cellsScrub s1.hbm (lineOf pa) (lineOf pa + 64)) pa data }
  have hraw : s1.rawStore w.world pa data = s2 := by
    unfold State.rawStore
    dsimp only
    rw [hc1]
  have hI := cacheOnly_invalidateL1 (s2.tagWrite (lineOf pa) w) (lineOf pa) keep
  let s3 := (s2.tagWrite (lineOf pa) w).invalidateL1 (lineOf pa) keep
  refine ⟨s3.taint w pa data.length, ?_, ?_, ?_, ?_⟩
  · have e : s.homeWrite w keep pa data = ((s3.taint w pa data.length).logAll (lineOf pa) w false, none) := by
      unfold State.homeWrite
      dsimp only
      rw [hc]; dsimp only
      simp only [s3]
      rw [← hraw]
    rw [e, logAll_none]
    rw [taint_monitors, hI.monitors]
    exact (T.monitors.trans (spoil_monitors _ _ _)).trans hm
  · rw [taint_hbm, hI.hbm]
    show cellsPut (cellsScrub s1.hbm _ _) pa data = _
    rw [T.hbm, spoil_hbm]
  · rw [taint_lineCase, hI.lineCase]
    show (s1.setTag (lineOf pa) t).lineCase w.world (lineOf pa) = _
    have hk1 : tget Key.none s1.keys w.world = tget Key.none s.keys w.world := by rw [T.keys, spoil_keys]
    unfold State.lineCase State.keyLive State.tag State.setTag
    dsimp only
    rw [tget_tput_same]
    simp [t, hk1, hk]
  · intro c; rw [taint_core, hI.cores]
    have : (s2.tagWrite (lineOf pa) w).core c = s1.core c := rfl
    rw [this, T.cores, spoil_core]

theorem bare_mem {k l : Core} (h : k.bare = l.bare) : k.mem = l.mem := bare_field Core.mem (fun _ => rfl) h

theorem bare_scale {k l : Core} (h : k.bare = l.bare) : k.scale = l.scale := bare_field Core.scale (fun _ => rfl) h

theorem rouse_rupds (s : State) (k) : (s.rouse k).rupds = s.rupds := by unfold State.rouse; split <;> rfl

def rupdWho (r : Rupd) : Who := { src := slotSource r.slot, world := r.world, region := r.region, slot := r.slot.slot, kind := 2, va := if windowOf r.va = 0 then some (lineOf (r.va.toNat % (@HPow.hPow Nat Nat Nat (@instHPow Nat Nat (@instPowNat Nat instNatPowNat)) 2 52))) else none }

theorem kept_checkRegion (s : State) (g) : Kept s (s.checkRegion g) := by
  unfold State.checkRegion; split
  · exact Kept.laterOnce _ _ _
  · exact Kept.refl _

theorem names_none (t : Thread) (h : Fin 8) (hn : ∀ e ∈ t.cq, e.names h = false) : t.cq.any (fun e => e.names h) = false := by
  rw [List.any_eq_false]; intro e he; simp [hn e he]

theorem parkOn_plain (s : State) (t : Thread) (p : Park) (h : ∀ w v, p ≠ .walk w v) : s.parkOn s.cur t p = s.setThread s.cur { t with parked := some p } := by
  unfold State.parkOn
  cases p <;> first | rfl | exact absurd rfl (h _ _)

/-- A state that differs from another in its agenda at most. -/
def Ag (s u : State) : Prop := ∃ g, u = { s with agenda := g }

theorem Ag.refl (s : State) : Ag s s := ⟨s.agenda, rfl⟩

theorem ag_later (s : State) (i a) : Ag s (s.later i a) := ⟨_, rfl⟩

theorem ag_laterOnce (s : State) (i a) : Ag s (s.laterOnce i a) := by
  unfold State.laterOnce; split
  · exact Ag.refl s
  · exact ag_later s i a

theorem Ag.trans {s u v : State} (h : Ag s u) (k : Ag u v) : Ag s v := by
  obtain ⟨g, rfl⟩ := h; obtain ⟨g2, rfl⟩ := k; exact ⟨g2, rfl⟩

theorem Ag.thread {s u : State} (h : Ag s u) (q) : u.thread? q = s.thread? q := by obtain ⟨g, rfl⟩ := h; rfl

theorem Ag.core {s u : State} (h : Ag s u) (c) : u.core c = s.core c := by obtain ⟨g, rfl⟩ := h; rfl

theorem Ag.field {α : Type} {s u : State} (h : Ag s u) (f : State → α) (hf : ∀ (s : State) g, f { s with agenda := g } = f s) : f u = f s := by
  obtain ⟨g, rfl⟩ := h; exact hf s g

/-- The state with a record in an outlet of the current slot. -/
def outletPut (s : State) (q : Fin 8) (x : Record) : State :=
  s.modThread s.cur (fun t => { t with sluices := t.sluices.setOutlet q ((t.sluices.outlet q).put x) })

theorem sealInto_ag (s : State) (q : Fin 8) (x : Record) : Ag (outletPut s q x) (sealInto s.cur q x s) := by
  unfold sealInto
  dsimp only
  split_ifs
  · exact ag_laterOnce ..
  · exact ag_later ..
  · exact ag_later ..
  · exact ag_laterOnce ..

theorem later_mem (s : State) (i a) : ({ what := i, arg := a } : Due) ∈ (s.later i a).agenda := by
  unfold State.later; simp

/-- what sealing leaves of the rest -/
theorem sealInto_rest (s : State) (q : Fin 8) (x : Record) :
    (∀ p, ¬sameSlot p s.cur → (sealInto s.cur q x s).thread? p = s.thread? p) ∧ (∀ c, ((sealInto s.cur q x s).core c).mem = (s.core c).mem) ∧
    (∀ c, ((sealInto s.cur q x s).core c).scale = (s.core c).scale) ∧ (sealInto s.cur q x s).hbm = s.hbm ∧ (sealInto s.cur q x s).tc = s.tc ∧
    (sealInto s.cur q x s).cur = s.cur := by
  have h := sealInto_ag s q x
  refine ⟨fun p hp => ?_, fun c => ?_, fun c => ?_, ?_, ?_, ?_⟩
  · rw [h.thread]; exact thread_modThread_other s p s.cur _ hp
  · rw [h.core]; exact mem_modThread s s.cur _ c
  · rw [h.core]; exact scale_modThread s s.cur _ c
  · rw [h.field State.hbm (fun _ _ => rfl)]; simp [outletPut]
  · rw [h.field State.tc (fun _ _ => rfl)]; simp [outletPut]
  · rw [h.field State.cur (fun _ _ => rfl)]; simp [outletPut]

theorem sealInto_agenda (s : State) (q : Fin 8) (x : Record) (ev : Instr) (hq : (q = 0 ∧ ev = .copyAccept) ∨ (q = 2 ∧ ev = pumpEvent (x.words.headD 0)) ∨
    (q = 4 ∧ ev = treeEvent (x.words.headD 0)) ∨ (q = 7 ∧ ev = .reductionMessage)) : ∃ a, ({ what := ev, arg := a } : Due) ∈ (sealInto s.cur q x s).agenda := by
  unfold sealInto
  dsimp only
  rcases hq with ⟨rfl, rfl⟩ | ⟨rfl, rfl⟩ | ⟨rfl, rfl⟩ | ⟨rfl, rfl⟩
  · rw [if_pos rfl]; exact ⟨_, laterOnce_mem _ _ _⟩
  · rw [if_neg (by decide), if_pos rfl]; exact ⟨_, later_mem _ _ _⟩
  · rw [if_neg (by decide), if_neg (by decide), if_pos rfl]; exact ⟨_, later_mem _ _ _⟩
  · rw [if_neg (by decide), if_neg (by decide), if_neg (by decide)]; exact ⟨_, laterOnce_mem _ _ _⟩

theorem copyHeader_eq (code : Nat) (z : Word) (tag : Nat) (bad : Bool) (hb : bad = false) (ht : tag < 16) :
    BitVec.ofNat 64 (2 * 2 ^ 62 + code * 2 ^ 56 + tag + (if bad then 2 ^ 47 else 0) + bitsOf z 31 0) = BitVec.ofNat 64 (2 * 2 ^ 62 + code * 2 ^ 56 + tag + bitsOf z 31 0) := by
  rw [hb]; rfl

theorem orHeader (x : Word) (hb : bitsOf x 63 56 = 0) (code : Nat) (hcode : code < 3) :
    BitVec.ofNat 64 (2 * 2 ^ 62 + code * 2 ^ 56 + bitsOf x 55 0) = x ||| BitVec.ofNat 64 (2 * 2 ^ 62 + code * 2 ^ 56) := by
  apply BitVec.eq_of_toNat_eq
  rw [BitVec.toNat_or, BitVec.toNat_ofNat, BitVec.toNat_ofNat]
  have hx := x.isLt
  have h1 : x.toNat < 2 ^ 56 := by simp only [bitsOf] at hb; norm_num at *; omega
  have h2 : bitsOf x 55 0 = x.toNat := by simp only [bitsOf]; norm_num at *; omega
  rw [h2]
  have e : 2 * 2 ^ 62 + code * 2 ^ 56 = 2 ^ 56 * (128 + code) := by omega
  rw [e, Nat.mod_eq_of_lt (by omega), Nat.mod_eq_of_lt (by omega), Nat.or_comm, Nat.two_pow_add_eq_or_of_lt h1]

theorem pumpEvent_of (x : Word) (code : Nat) (hcode : code < 3) (hb : bitsOf x 63 56 = 0) :
    bitsOf (BitVec.ofNat 64 (2 * 2 ^ 62 + code * 2 ^ 56 + bitsOf x 55 0)) 61 56 = code := by
  have : bitsOf x 55 0 < 2 ^ 56 := by simp only [bitsOf]; exact Nat.mod_lt _ (by norm_num)
  generalize bitsOf x 55 0 = v at *
  simp only [bitsOf, BitVec.toNat_ofNat]
  norm_num at *; omega

theorem line_end (a : Word) (n : Nat) (hn : 0 < n) (h : a.toNat % 64 + n ≤ 64) (m : Nat) (hm : 64 ∣ m) :
    (a + BitVec.ofNat 64 (n - 1)).toNat / m = a.toNat / m := by
  obtain ⟨c, rfl⟩ := hm
  have ha := a.isLt
  have e : (a + BitVec.ofNat 64 (n - 1)).toNat = a.toNat + (n - 1) := by
    rw [BitVec.toNat_add, BitVec.toNat_ofNat, Nat.mod_eq_of_lt (by omega : n - 1 < 2 ^ 64), Nat.mod_eq_of_lt (by omega)]
  rw [e, ← Nat.div_div_eq_div_mul, ← Nat.div_div_eq_div_mul]
  congr 1
  omega

theorem line_bits (a : Word) (n : Nat) (hn : 0 < n) (h : a.toNat % 64 + n ≤ 64) (hi lo : Nat) (hl : 6 ≤ lo) :
    bitsOf (a + BitVec.ofNat 64 (n - 1)) hi lo = bitsOf a hi lo := by
  unfold bitsOf
  rw [line_end a n hn h (2 ^ lo) (by rw [show (64 : Nat) = 2 ^ 6 from rfl]; exact Nat.pow_dvd_pow 2 hl)]

theorem line_window (a : Word) (n : Nat) (hn : 0 < n) (h : a.toNat % 64 + n ≤ 64) : windowOf (a + BitVec.ofNat 64 (n - 1)) = windowOf a := by
  unfold windowOf
  exact line_end a n hn h (2 ^ 56) (by rw [show (64 : Nat) = 2 ^ 6 from rfl]; exact Nat.pow_dvd_pow 2 (by omega))

theorem lineParts_one (a : Word) (n : Nat) (hn : 0 < n) (h : a.toNat % 64 + n ≤ 64) (f : Nat) : lineParts a 0 n (f + 2) = [(0, n)] := by
  unfold lineParts
  rw [if_neg (by omega)]
  have : min n (64 - (a.toNat + 0) % 64) = n := by rw [Nat.add_zero]; omega
  simp only [this, Nat.sub_self]
  unfold lineParts; simp

theorem only_find {α : Type} (f : α → Option State) (x : α) (u : State) (h : f x = some u) : [x].findSome? f = some u := by simp [h]

theorem givePromise_thread (s : State) (r : SlotRef) (id : Nat) (x : Record) (v : Word) (q) : (s.givePromise r id x v).thread? q = s.thread? q := by
  unfold State.givePromise; split
  · exact deliver_thread ..
  · rfl

theorem givePromise_mem (s : State) (r : SlotRef) (id : Nat) (x : Record) (v : Word) (c) : ((s.givePromise r id x v).core c).mem = (s.core c).mem := by
  unfold State.givePromise; split
  · exact deliver_mem ..
  · rfl

theorem givePromise_scale (s : State) (r : SlotRef) (id : Nat) (x : Record) (v : Word) (c) : ((s.givePromise r id x v).core c).scale = (s.core c).scale := by
  unfold State.givePromise; split
  · exact deliver_scale ..
  · rfl

theorem givePromise_hbm (s : State) (r : SlotRef) (id : Nat) (x : Record) (v : Word) : (s.givePromise r id x v).hbm = s.hbm := by
  unfold State.givePromise; split
  · exact deliver_hbm ..
  · rfl

theorem givePromise_core {α : Type} (s : State) (r : SlotRef) (id : Nat) (x : Record) (v : Word) (c) (f : Core → α) (hf : ∀ k g, f { k with fills := g } = f k) :
    f ((s.givePromise r id x v).core c) = f (s.core c) := by
  unfold State.givePromise; split
  · rw [deliver_core]; split
    · next h => subst h; exact hf _ _
    · rfl
  · rfl

theorem ag_checkRegion (s : State) (g) : Ag s (s.checkRegion g) := by
  unfold State.checkRegion; split
  · exact ag_laterOnce ..
  · exact Ag.refl _

theorem earliest_one {α : Type} (le : α → α → Bool) (x : α) : sortBy le [x] = [x] := rfl

theorem flag_on (h : Handle) (bit : Nat) : (h.flag bit true).w0 = h.w0 ||| BitVec.ofNat 64 (2 ^ bit) := rfl

theorem pumpServe_one (s : State) (c : CoreIx) (want : Instr) (r t x) (s1 : State) (h : pumpRecords s (clusterOf c % 64) = [(r, t, x)])
    (hs : trySubscribe s r t x = some s1) (hw : pumpEvent (x.words.headD 0) = want) : pumpServe s c want = s1 := by
  unfold pumpServe
  rw [h]
  simp only [List.findSome?, hs, Option.map_some, hw, if_true]

theorem scan_past (s : State) (before : List (Nat × Core)) (rest : List CoreIx) (h : ∀ p ∈ before, 2 * p.1 + 2 < s.cursor) :
    scan s (before.map (fun p => p.1) ++ rest) = scan s rest := by
  induction before with
  | nil => rfl
  | cons p l ih =>
    have hp := h p (by simp)
    rw [List.map_cons, List.cons_append]
    conv => lhs; unfold scan
    simp only
    rw [if_neg (by omega)]
    simp only
    rw [if_neg (by omega)]
    simp only
    exact ih (fun q hq => h q (by simp [hq]))

theorem word_none {m : Image} {n : Nat} (h : m.start + 4 * m.words.length ≤ n) : m.word n = none := by
  unfold Image.word
  split
  · rw [List.getElem?_eq_none_iff]; omega
  · rfl

theorem decode_long_nil {w : Word32} (h : kindOf w.toNat = 2) : decode [w] = .error .ill := by
  simp [decode, h]

theorem fetch_of (s : State) (r : SlotRef) (t : Thread) (m : Image) (w : Word32) (i : Instr) (len : Nat)
    (hm : (s.core r.core).imageOf t.region t.role = some m) (hw : m.word t.pc.toNat = some w)
    (hd : decode (w :: (m.word (t.pc.toNat + 4)).toList) = .ok (i, len)) : fetch s r t = .ok (i, len) := by
  unfold fetch
  rw [hm]; simp only
  rw [hw]; simp only
  have hn : ¬((isLong w && decide (t.pc.toNat + 4 = m.start + 4 * m.words.length)) = true) := by
    intro hb
    simp only [Bool.and_eq_true, decide_eq_true_eq, isLong] at hb
    rw [word_none (by omega), Option.toList_none, decode_long_nil hb.1] at hd
    cases hd
  rw [if_neg hn, hd]

theorem tget_map {α β : Type} (d : α) (d' : β) (f : α → β) (hd : f d = d') (l : List (Nat × α)) (x : Nat) :
    tget d' (l.map (fun p => (p.1, f p.2))) x = f (tget d l x) := by
  induction l with
  | nil => simp [tget, hd]
  | cons p r ih =>
    obtain ⟨k, v⟩ := p
    simp only [List.map_cons, tget]
    split
    · rfl
    · split
      · exact hd.symm
      · exact ih

theorem countSlots_mem (k : Core) (n : Nat) : (k.countSlots n).mem = k.mem ∧ (k.countSlots n).scale = k.scale := by
  induction n generalizing k with
  | zero => exact ⟨rfl, rfl⟩
  | succ n ih =>
    unfold Core.countSlots
    simp only
    split
    · obtain ⟨a, b⟩ := ih (k.setSlot n { (k.slot n) with thread := some (countDown _) })
      exact ⟨a, b⟩
    · exact ih k

theorem countSlots_reset : Core.reset.countSlots 16 = Core.reset := by decide

/-- With no region live, the end of a cycle changes a core by its watchdogs alone. -/
theorem tick_core (s : State) (c : Nat) (h : s.regions = []) : (tick s).core c = (s.core c).countSlots 16 := by
  unfold tick State.showCounts
  simp only [h, List.foldl_nil]
  show tget Core.reset (s.cores.map (fun p => (p.1, p.2.countSlots 16))) c = _
  exact tget_map Core.reset Core.reset (fun k => k.countSlots 16) countSlots_reset s.cores c

/-- The readiness register after reset, bit by bit (R463). -/
theorem readyAtReset_bit (i : Nat) (h : i < 64) : readyAtReset.getLsbD i = readyBit i := by
  unfold readyAtReset
  rw [BitVec.getLsbD_setWidth, BitVec.getLsbD_ofBoolListLE]
  simp [h]

end Sys2Proof.Laws
end

