-- ==== Sys2Proof/Laws/Claims.lean ====
section
/-! SUPPORT. What the shared operations do under the premises that the statements use (an address that names sound local bytes, a word
that a translation reaches, an outlet that is free, a line at its home): one lemma per operation, for proofs to cite. -/

namespace Sys2Proof.Laws

open Sys2Proof Sys2Proof.Machine Sys2Proof.Claims

theorem leaves_retire (i : Instr) (s : State) (t0 : Thread) (reads) (marked) (d v) (n) 
   (h : exec i s = .next (retire s t0 reads marked (some (d,v)) n)) : Leaves i s (afterForm t0 marked n d v) := by
  refine ⟨_, h, ?_, ?_, ⟨?_, ?_, ?_⟩, ?_, ?_, ?_⟩
  · exact thread_retire ..
  · intro q hq; exact thread_retire_other _ _ _ _ _ _ _ hq
  · intro c a; rw [mem_retire]
  · intro c a; rw [scale_retire]
  · intro a; simp
  all_goals simp

theorem leaves_retire_none (i : Instr) (s : State) (t0 : Thread) (reads) (marked) (n) 
   (h : exec i s = .next (retire s t0 reads marked none n)) : Leaves i s (afterMarks t0 marked n) := by
  refine ⟨_, h, ?_, ?_, ⟨?_, ?_, ?_⟩, ?_, ?_, ?_⟩
  · exact thread_retire_none ..
  · intro q hq; exact thread_retire_other _ _ _ _ _ _ _ hq
  · intro c a; rw [mem_retire]
  · intro c a; rw [scale_retire]
  · intro a; simp
  all_goals simp

theorem goTo_here (s : State) (t : Thread) (target : Word) (link live reads marked) (h : InCode s t target) :
    (goTo t target link live reads marked) s =
      (.ok (), (s.setThread s.cur (afterJump t marked (link.getD t.lk) target)).takePorts s.cur.core reads) := by
  obtain ⟨h4, m, hm, h1, h2⟩ := h
  unfold goTo
  rw [run_bind_ok _ _ s s s (run_get s)]
  have hn : needR (decide (target.toNat % 4 = 0)) .align target s = (.ok (), s) := by simp [needR, stopIf, h4]
  rw [run_bind_ok _ _ s s () hn]
  rw [if_pos (by simp [hm, Image.has, h1, h2])]; rfl

theorem leaves_jump (i : Instr) (s : State) (t' : Thread) (reads)
   (h : exec i s = .next ((s.setThread s.cur t').takePorts s.cur.core reads)) : Leaves i s t' := by
  refine ⟨_, h, ?_, ?_, ⟨?_, ?_, ?_⟩, ?_, ?_, ?_⟩
  · rw [thread_takePorts]; exact thread_setThread_same ..
  · intro q hq; rw [thread_takePorts]; exact thread_setThread_other _ _ _ _ hq
  · intro c a; rw [mem_takePorts, mem_setThread]
  · intro c a; rw [scale_takePorts, scale_setThread]
  all_goals simp

theorem goTo_prot (s : State) (t : Thread) (target : Word) (link live reads marked) (h4 : target.toNat % 4 = 0) (h : ¬InCode s t target)
   (hg : ∀ g, s.region? t.region = some g → g.travelling = false) :
    (goTo t target link live reads marked) s = (.error (.trap .prot target), s) := by
  unfold goTo
  rw [run_bind_ok _ _ s s s (run_get s)]
  have hn : needR (decide (target.toNat % 4 = 0)) .align target s = (.ok (), s) := by simp [needR, stopIf, h4]
  rw [run_bind_ok _ _ s s () hn]
  rw [if_neg (by
    intro hc
    apply h
    split at hc
    · next m hm =>
      simp [Image.has] at hc
      exact ⟨h4, m, hm, hc.1, hc.2⟩
    · simp at hc)]
  cases hr : s.region? t.region with
  | none => rfl
  | some g =>
    cases live with
    | none => rfl
    | some m => simp only [hg g hr]; rfl

theorem checkAccess_local (s : State) (t : Thread) (a : Word) (n : Nat) (k : CoreIx) (o : Nat) (rd wr : Bool) (hn : okSize n)
    (h : LocalAt s t a n k o) : checkAccess s s.cur t a n rd wr = .ok (.loc k o) := by
  obtain ⟨h1, h2, h3, h4, h5, rfl, rfl, h6⟩ := h
  have hw := wellFormed_local a n hn h5 h1 h2 h3 h4
  have h0 : windowOf a ≠ 0 := by omega
  have h8 : windowOf a ≠ 0xF8 := by omega
  have hp : localPlace s.cur.core a = .loc (s.cur.core / 128 * 128 + bitsOf a 22 16) (bitsOf a 14 0) := by simp [localPlace, h8]
  simp [checkAccess, need, hw, h5, placeOf, h0, hp, dikeFits_of s t _ _ n h6, bind, Except.bind]

theorem locRead_sound (s : State) (k : CoreIx) (o n : Nat) (hn : 0 < n) (h : Sound s k o n) :
    s.locRead k o n = (s.rouse k, .ok (cellsGet (s.core k).mem o n)) := by
  have hw : ∀ w ∈ (List.range ((o % 8 + n + 7) / 8)).map (fun i => o / 8 * 8 + 8 * i), ∃ j < n, (o + j) / 8 * 8 = w := by
    intro w hw
    simp only [List.mem_map, List.mem_range] at hw
    obtain ⟨i, hi, rfl⟩ := hw
    exact word_index o n i hi hn
  have hf : ((List.range ((o % 8 + n + 7) / 8)).map (fun i => o / 8 * 8 + 8 * i)).foldl (fun s o => s.detectLocal k o) (s.rouse k) = s.rouse k := by
    apply foldl_id
    intro w hw'
    obtain ⟨j, hj, e⟩ := hw w hw'
    apply detectLocal_none
    intro p hp
    rw [rouse_locErr] at hp
    have := (h j hj).1 p hp
    unfold locWord at *
    omega
  unfold State.locRead
  simp only [hf, rouse_core]
  rw [if_neg]
  simp only [List.any_eq_true, not_exists, not_and]
  intro w hw'
  obtain ⟨j, hj, e⟩ := hw w hw'
  have := (h j hj).2
  rw [e] at this
  simpa using this

theorem hazardOf_unnamed (s : State) (t : Thread) (p : Place) (n : Nat) (h : Unnamed s t p n) : hazardOf s s.cur t p n true = (false, false) := by
  have h1 : t.cq.any (fun e => entryNames s.cur t e false p n) = false := by
    rw [List.any_eq_false]; intro e he; simp [(h.1 e he).1]
  have h2 : t.cq.any (fun e => entryNames s.cur t e true p n) = false := by
    rw [List.any_eq_false]; intro e he; simp [(h.1 e he).2]
  unfold hazardOf
  simp [h1, h2]

theorem loadBytes_local (s : State) (t : Thread) (a : Word) (n : Nat) (k : CoreIx) (o : Nat) (hn : 0 < n) (hs : Sound s k o n) (hu : Unnamed s t (.loc k o) n) :
    (loadBytes s.cur t a (.loc k o) n) s = (.ok (cellsGet (s.core k).mem o n), s.rouse k) := by
  unfold loadBytes
  refine (run_bind_ok _ _ s s s (run_get s)).trans ?_
  simp only [State.remapping]
  rw [if_neg (by rw [hazardOf_unnamed s t _ n hu]; decide), if_neg (by rw [hazardOf_unnamed s t _ n hu]; decide)]
  refine (run_bind_ok _ _ s s none (by rw [forwarded_unnamed s _ n hu.2]; rfl)).trans ?_
  show accessR a (fun s1 => s1.readPlace (slotWho s.cur t 0 a) s.cur.core (.loc k o) n) s = _
  simp only [accessR, State.readPlace, locRead_sound s k o n hn hs]

theorem loadChecked_local (s : State) (t : Thread) (a : Word) (n : Nat) (k : CoreIx) (o : Nat) (hn : okSize n) (h : LoadableAt s t a n k o) :
    (loadChecked s.cur t a n) s = (.ok (cellsGet (s.core k).mem o n, .loc k o), s.rouse k) := by
  have hn0 : 0 < n := by rcases hn with rfl | rfl | rfl | rfl | rfl <;> omega
  unfold loadChecked
  refine (run_bind_ok _ _ s s s (run_get s)).trans ?_
  refine (run_bind_ok _ _ s s (.loc k o) (by rw [checkAccess_local s t a n k o _ _ hn h.1]; rfl)).trans ?_
  rw [if_neg (by simp [isGlobal])]
  refine (run_bind_ok _ _ s (s.rouse k) _ (loadBytes_local s t a n k o hn0 h.2.1 h.2.2)).trans ?_
  rfl

theorem leaves_retire_rouse (i : Instr) (s : State) (k) (t0 : Thread) (reads) (marked) (d v) (n) 
   (h : exec i s = .next (retire (s.rouse k) t0 reads marked (some (d,v)) n)) : Leaves i s (afterForm t0 marked n d v) := by
  refine ⟨_, h, ?_, ?_, ⟨?_, ?_, ?_⟩, ?_, ?_, ?_⟩
  · have := thread_retire (s.rouse k) t0 reads marked d v n; rw [rouse_cur] at this; exact this
  · intro q hq; rw [thread_retire_other _ _ _ _ _ _ _ (by rw [rouse_cur]; exact hq), rouse_thread]
  · intro c a; rw [mem_retire, rouse_core]
  · intro c a; rw [scale_retire, rouse_core]
  · intro a; simp [rouse_hbm]
  · simp [rouse_tc]
  · simp [rouse_cur]
  · simp [rouse_agenda]

theorem leaves_retire_rouse_none (i : Instr) (s : State) (k) (t0 : Thread) (reads) (marked) (n) 
   (h : exec i s = .next (retire (s.rouse k) t0 reads marked none n)) : Leaves i s (afterMarks t0 marked n) := by
  refine ⟨_, h, ?_, ?_, ⟨?_, ?_, ?_⟩, ?_, ?_, ?_⟩
  · have := thread_retire_none (s.rouse k) t0 reads marked n; rw [rouse_cur] at this; exact this
  · intro q hq; rw [thread_retire_other _ _ _ _ _ _ _ (by rw [rouse_cur]; exact hq), rouse_thread]
  · intro c a; rw [mem_retire, rouse_core]
  · intro c a; rw [scale_retire, rouse_core]
  · intro a; simp [rouse_hbm]
  · simp [rouse_tc]
  · simp [rouse_cur]
  · simp [rouse_agenda]

theorem loadInto_local (s : State) (t : Thread) (d) (reads marked) (a : Word) (n : Nat) (signed acquire) (k : CoreIx) (o : Nat) (hn : okSize n) (h : LoadableAt s t a n k o)
    (hd : checkDest s t d = .ok ()) :
    (loadInto t d reads marked a n signed acquire) s = (.ok (), retire (s.rouse k) t reads marked (some (d, loaded signed (cellsGet (s.core k).mem o n))) 4) := by
  unfold loadInto
  refine (run_bind_ok _ _ s s s (run_get s)).trans ?_
  refine (run_bind_ok _ _ s s s (run_get s)).trans ?_
  refine (run_bind_ok _ _ s s () (by rw [hd]; rfl)).trans ?_
  refine (run_bind_ok _ _ s (s.rouse k) _ (loadChecked_local s t a n k o hn h)).trans ?_
  cases acquire <;> rfl

theorem checkAccess_global (s : State) (t : Thread) (a : Word) (n : Nat) (pa : Nat) (rd wr : Bool) (hn : okSize n)
    (h : GlobalAt s t a n rd wr pa) : checkAccess s s.cur t a n rd wr = .ok (.glob pa) := by
  obtain ⟨h1, h3, h5, h6, h7, e, he, hr, hw, rfl⟩ := h
  have hwf := wellFormed_global a n hn h5 h1 h3
  have hg : e.grants rd wr = true := by
    unfold TlbEntry.grants
    cases rd <;> cases wr <;> simp_all
  simp [checkAccess, need, hwf, h5, placeOf, h1, Machine.translate, he, hg, bind, Except.bind, pure, Except.pure]

theorem storeChecks_ok (s : State) (t : Thread) (a) (p : Place) (n : Nat) (hn : 0 < n) (hn8 : n < 8 → True) (hr : s.remapping p = none) (hb : (s.core s.cur.core).buf.length < 32) (h : Writable s t p n) :
   storeChecks s s.cur t a p n = .ok () := by
  have hz : (hazardOf s s.cur t p n false).1 = false := by
    have : t.cq.any (fun e => entryNames s.cur t e false p n) = false := by
      rw [List.any_eq_false]; intro e he; simp [h.1 e he]
    unfold hazardOf
    simp only [this]
    cases hr : s.region? t.region with
    | none => rfl
    | some g => cases hg : g.hazard <;> simp [hg]
  have hf : storeFault s t p n = none := by
    have h2 := h.2
    cases p with
    | loc k o =>
      simp only [storeFault]
      by_cases h8 : n < 8
      · have hs := h2 h8
        have h0 := hs 0 hn
        rw [Nat.add_zero] at h0
        rw [detectLocal_none s k o h0.1]
        simp [h0.2]
      · simp [h8]
    | scale k o => exact absurd h2 id
    | glob pa =>
      simp only [storeFault]
      cases hc : s.lineCase t.world (lineOf pa) with
      | other => exact absurd hc h2.1
      | fresh => rfl
      | own => simp [h2.2 hc]
  unfold storeChecks
  rw [hr]
  simp [need, hz, hf, hb, bind, Except.bind]

theorem reaches_check (s : State) (t : Thread) (a n rd wr p) (hn : okSize n) (h : Reaches s t a n rd wr p) :
    checkAccess s s.cur t a n rd wr = .ok p ∧ s.remapping p = none ∧ isDevice p = false := by
  rcases h with ⟨k, o, rfl, h⟩ | ⟨pa, rfl, h⟩
  · exact ⟨checkAccess_local s t a n k o rd wr hn h, rfl, rfl⟩
  · refine ⟨checkAccess_global s t a n pa rd wr hn h, h.2.2.2.2.1, ?_⟩
    have := h.2.2.2.1
    simp [isDevice]; exact this

/-- what a store leaves before it retires -/
def stored (s : State) (t : Thread) (p : Place) (a : Word) (n : Nat) (op : StoreOp) : State :=
  match p with
  | .glob _ => (s.usedTlb s.cur t a).buffer s.cur t p a n op
  | _ => s.buffer s.cur t p a n op

theorem storeChecked_ok (s : State) (t : Thread) (a : Word) (data : List Byte) (rel : Bool) (p) (hn : okSize data.length)
   (h : Reaches s t a data.length false true p) (hb : (s.core s.cur.core).buf.length < 32) (hw : Writable s t p data.length) (hr : s.rdcs = [])
   (hrel : rel = true → releaseMet s s.cur t = true) :
   (storeChecked s.cur t a data rel) s = (.ok (), stored s t p a data.length (.bytes data)) := by
  obtain ⟨h1, h2, h3⟩ := reaches_check s t a _ _ _ p hn h
  have hn0 : 0 < data.length := by rcases hn with h | h | h | h | h <;> omega
  have hs := storeChecks_ok s t a p _ hn0 (fun _ => trivial) h2 hb hw
  unfold storeChecked
  refine (run_bind_ok _ _ s s s (run_get s)).trans ?_
  refine (run_bind_ok _ _ s s p (by rw [h1]; rfl)).trans ?_
  have hrel' : ∀ w, ((if rel then releaseR s.cur t w else pure () : Run Unit)) s = (.ok (), s) := by
    intro w
    cases rel
    · rfl
    · exact releaseR_ok s t w (hrel rfl) hr
  cases p with
  | loc k o =>
    refine (run_bind_ok _ _ s s s (run_get s)).trans ?_
    refine (run_bind_ok _ _ s s () (by rw [hs]; rfl)).trans ?_
    cases rel
    · rfl
    · exact (run_bind_ok _ _ s s () (releaseR_ok s t false (hrel rfl) hr)).trans rfl
  | scale k o =>
    refine (run_bind_ok _ _ s s s (run_get s)).trans ?_
    refine (run_bind_ok _ _ s s () (by rw [hs]; rfl)).trans ?_
    cases rel
    · rfl
    · exact (run_bind_ok _ _ s s () (releaseR_ok s t false (hrel rfl) hr)).trans rfl
  | glob pa =>
    dsimp only
    rw [if_neg (by rw [h3]; decide)]
    refine (run_bind_ok _ _ s s s (run_get s)).trans ?_
    refine (run_bind_ok _ _ s s () (by rw [hs]; rfl)).trans ?_
    cases rel
    · rfl
    · exact (run_bind_ok _ _ s s () (releaseR_ok s t true (hrel rfl) hr)).trans rfl

/-- The next stamp of an agent rests on the cycle and on the stamps given. -/
theorem stampOf_eq (s u : State) (src : Nat) (h1 : s.tc = u.tc) (h2 : s.stamped = u.stamped) : s.stampOf src = u.stampOf src := by
  unfold State.stampOf; rw [h1, h2]

theorem usedTlb_stamped (s : State) (r t a) : (s.usedTlb r t a).stamped = s.stamped := by rcases usedTlb_eq s r t a with h | ⟨l, h⟩ <;> rw [h]; rfl

theorem buffers_of (i : Instr) (s s1 : State) (t0 : Thread) (reads marked) (n m : Nat) (p a op)
    (hbuf : ∀ c, (s1.core c).buf = (s.core c).buf) (hth : ∀ q, s1.thread? q = s.thread? q) (hmem : ∀ c, (s1.core c).mem = (s.core c).mem)
    (hsc : ∀ c, (s1.core c).scale = (s.core c).scale) (hh : s1.hbm = s.hbm) (hc : s1.cur = s.cur) (htc : s1.tc = s.tc)
    (hst : s1.stamped = s.stamped) (t : Thread)
    (h : exec i s = .next (retire (s1.buffer s.cur t p a m op) t0 reads marked none n)) :
    Buffers i s (afterMarks t0 marked n) (entryOf s t p a m op) := by
  have hcu : (s1.buffer s.cur t p a m op).cur = s.cur := by simp [State.buffer, hc]
  refine ⟨_, h, ?_, ?_, ⟨?_, ?_, ?_⟩, ?_, ?_, ?_⟩
  · have := thread_retire_none (s1.buffer s.cur t p a m op) t0 reads marked n
    rw [hcu] at this; exact this
  · intro q hq; rw [thread_retire_other _ _ _ _ _ _ _ (by rw [hcu]; exact hq), thread_buffer, hth]
  · intro c x; rw [mem_retire, ← hmem c, core_buffer]; split
    · next h => subst h; rfl
    · rfl
  · intro c x; rw [scale_retire, ← hsc c, core_buffer]; split
    · next h => subst h; rfl
    · rfl
  · intro x; simp [State.buffer, hh]
  · simp [State.buffer, htc]
  · rw [core_retire_buf, core_buffer, if_pos rfl, ← hbuf, stampOf_eq s1 s _ htc hst]; rfl
  · rw [show (retire (s1.buffer s.cur t p a m op) t0 reads marked none n).agenda = (s1.buffer s.cur t p a m op).agenda by simp]
    exact mem_laterOnce _ _ _

theorem buffers_stored (i : Instr) (s : State) (t t0 : Thread) (reads marked) (n m : Nat) (p a op)
    (h : exec i s = .next (retire (stored s t p a m op) t0 reads marked none n)) :
    Buffers i s (afterMarks t0 marked n) (entryOf s t p a m op) := by
  cases p with
  | loc k o => exact buffers_of i s s t0 reads marked n m _ a op (fun _ => rfl) (fun _ => rfl) (fun _ => rfl) (fun _ => rfl) rfl rfl rfl rfl t h
  | scale k o => exact buffers_of i s s t0 reads marked n m _ a op (fun _ => rfl) (fun _ => rfl) (fun _ => rfl) (fun _ => rfl) rfl rfl rfl rfl t h
  | glob pa => exact buffers_of i s (s.usedTlb s.cur t a) t0 reads marked n m _ a op (usedTlb_buf _ _ _ _) (usedTlb_thread _ _ _ _) (usedTlb_mem _ _ _ _) (usedTlb_scale _ _ _ _) (usedTlb_hbm _ _ _ _) (usedTlb_cur _ _ _ _) (usedTlb_tc _ _ _ _) (usedTlb_stamped _ _ _ _) t h

theorem locWrite_sound (s : State) (k : CoreIx) (o : Nat) (data : List Byte) (hn : data ≠ []) (h : Sound s k o data.length) :
    ∃ words : List Nat, s.locWrite k o data = ((((s.rouse k).modCore k (fun c => { c with
      mem := cellsPut c.mem o data, poison := c.poison.filter (fun o => !(words.contains o)) })).spoil (.loc k o) data.length), none) := by
  have hn0 : 0 < data.length := List.length_pos_iff.mpr hn
  have hw : ∀ w ∈ (List.range ((o % 8 + data.length + 7) / 8)).map (fun i => o / 8 * 8 + 8 * i), ∃ j < data.length, (o + j) / 8 * 8 = w := by
    intro w hw
    simp only [List.mem_map, List.mem_range] at hw
    obtain ⟨i, hi, rfl⟩ := hw
    exact word_index o _ i hi hn0
  have hno : ∀ w ∈ (List.range ((o % 8 + data.length + 7) / 8)).map (fun i => o / 8 * 8 + 8 * i), ∀ p ∈ (s.rouse k).locErr, p.1 ≠ locWord k w := by
    intro w hw' p hp
    obtain ⟨j, hj, e⟩ := hw w hw'
    rw [rouse_locErr] at hp
    have := (h j hj).1 p hp
    unfold locWord at *
    omega
  have hf : ((List.range ((o % 8 + data.length + 7) / 8)).map (fun i => o / 8 * 8 + 8 * i)).foldl (fun s w =>
      if decide (o ≤ w ∧ w + 8 ≤ o + data.length) = true then { s with locErr := s.locErr.filter (fun p => p.1 ≠ locWord k w) } else s.detectLocal k w) (s.rouse k) = s.rouse k := by
    apply foldl_id
    intro w hw'
    split
    · have : (s.rouse k).locErr.filter (fun p => p.1 ≠ locWord k w) = (s.rouse k).locErr := by
        rw [List.filter_eq_self]; intro p hp; simpa using hno w hw' p hp
      rw [this]
    · exact detectLocal_none _ _ _ (hno w hw')
  have hp : ((List.range ((o % 8 + data.length + 7) / 8)).map (fun i => o / 8 * 8 + 8 * i)).any (fun w => ((s.rouse k).core k).poison.contains w && !decide (o ≤ w ∧ w + 8 ≤ o + data.length)) = false := by
    rw [List.any_eq_false]
    intro w hw'
    obtain ⟨j, hj, e⟩ := hw w hw'
    have := (h j hj).2
    rw [e] at this
    rw [rouse_core]
    simp [this]
  refine ⟨(List.range ((o % 8 + data.length + 7) / 8)).map (fun i => o / 8 * 8 + 8 * i), ?_⟩
  unfold State.locWrite
  simp only [hf]
  rw [if_neg (by rw [hp]; decide)]

/-- A retirement after another slot's thread was replaced. -/
theorem leavesBoth_retire (i : Instr) (s : State) (t : Thread) (q : SlotRef) (u' : Thread) (reads marked d v n) (ho : ¬sameSlot q s.cur)
   (h : exec i s = .next (retire (s.setThread q u') t reads marked (some (d, v)) n)) : LeavesBoth i s (afterForm t marked n d v) q u' := by
  refine ⟨_, h, ?_, ?_, ⟨?_, ?_, ?_⟩, ?_, ?_⟩
  · have := thread_retire (s.setThread q u') t reads marked d v n
    rw [State.setThread_cur] at this; exact this
  · rw [thread_retire_other]
    · exact thread_setThread_same _ _ _
    · rw [State.setThread_cur]; exact ho
  · intro c a; rw [mem_retire, mem_setThread]
  · intro c a; rw [scale_retire, scale_setThread]
  · intro a; simp
  · simp
  · intro p h1 h2
    rw [thread_retire_other]
    · exact thread_setThread_other _ _ _ _ h2
    · rw [State.setThread_cur]; exact h1

/-- The reads and checks with which EMWIN begins. -/
theorem emwin_start (s : State) (t : Thread) (d a b : Reg) (m : Marks) (x y : Word) (s') (h : Acts s t)
   (hx : readReg s t [] a = .ok x) (hy : readReg s t [a] b = .ok y) (hd : checkDest s t d = .ok ()) (hp : s.privileged t = true) (hz : bitsOf x 61 46 = 0)
   (k : (let op := bitsOf x 63 62
    let k := bitsOf x 45 40
    let id := bitsOf x 39 0
    let finish (s : State) (v : Word) : State := retire s ((s.thread? s.cur).getD t) [a, b] (markAB m a b) (some (d, v)) 4
    if op = 0 then
      match s.haltedTarget t id with
      | none => (Except.ok (finish s (replyWord 5 0)) : Except Stop State)
      | some (q, u, _) =>
        if u.emwBy ≠ none ∧ u.emwBy ≠ some s.cur then Except.ok (finish s (replyWord 6 0))
        else Except.ok (finish (s.setThread q { u with emwBy := some s.cur }) (replyWord 0 0))
    else
      (windowOn s id).bind (fun w =>
      if op = 1 then
        (windowRead w.2 k).bind (fun v => Except.ok (finish s v))
      else if op = 2 then
        (windowWrite w.2 k y).bind (fun u => Except.ok (finish (s.setThread w.1 u) 0))
      else Except.ok (finish (s.setThread w.1 { w.2 with emwBy := none }) (replyWord 0 0)))) = .ok s') :
   exec (.emwin d a b m) s = .next s' := by
  show execEmwin d a b m s = _
  unfold execEmwin issue
  apply issueLen_ok _ _ _ t _ h
  simp only [read2, hx, hy, hd, bind, Except.bind, pure, Except.pure, hp, need, if_true, hz, decide_true]
  exact k

theorem emwin_trap (s : State) (t : Thread) (d a b : Reg) (m : Marks) (x y : Word) (c ad) (h : Acts s t)
   (hx : readReg s t [] a = .ok x) (hy : readReg s t [a] b = .ok y) (hd : checkDest s t d = .ok ()) (hp : s.privileged t = true) (hz : bitsOf x 61 46 = 0)
   (ho : bitsOf x 63 62 ≠ 0) (k : windowOn s (bitsOf x 39 0) = .error (.trap c ad)) :
   exec (.emwin d a b m) s = .next (takeFault s c ad 0 4) := by
  show execEmwin d a b m s = _
  unfold execEmwin issue
  apply issueLen_trap _ _ t _ _ _ h
  simp only [read2, hx, hy, hd, bind, Except.bind, pure, Except.pure, hp, need, if_true, hz, decide_true]
  rw [if_neg ho, k]

theorem pended_thread (s : State) (t reads marked d) : (pended s t reads marked d).thread? s.cur = some (pendingForm t marked d) := by
  unfold pended
  rw [thread_modThread_same, thread_retire_none]
  cases d <;> rfl

theorem sent_of (s u0 : State) (t : Thread) (d v) (h : u0.stampOf (slotSource s.cur) = s.stamp) :
    Sent s (u0.deliverResult s.cur t.id d v 0 (slotSource s.cur)) t d v := by
  refine ⟨?_, ?_⟩
  · rw [deliver_core, if_pos rfl, h]; simp
  · unfold State.deliverResult State.sendFill; exact laterOnce_mem _ _ _

theorem replies_of (i : Instr) (s : State) (t : Thread) (reads marked d) (st : Nat × Nat) (more : State → Prop)
   (h : exec i s = .next ((pended s t reads marked d).replyTo t d st.1 st.2)) (hm : more ((pended s t reads marked d).replyTo t d st.1 st.2)) :
   Replies i s t marked d (replyWord st.1 st.2) more := by
  have hst : (pended s t reads marked d).stampOf (slotSource s.cur) = s.stamp :=
    stampOf_eq _ _ _ (by simp) (pended_stamped s t reads marked d)
  refine ⟨_, h, ?_, ?_, ⟨?_, ?_, ?_⟩, ?_, ?_, hm⟩
  · unfold State.replyTo; rw [deliver_thread]; exact pended_thread _ _ _ _ _
  · intro q hq; unfold State.replyTo; rw [deliver_thread]; exact pended_other _ _ _ _ _ _ hq
  · intro c a; unfold State.replyTo; rw [deliver_mem, pended_mem]
  · intro c a; unfold State.replyTo; rw [deliver_scale, pended_scale]
  · intro a; unfold State.replyTo; rw [deliver_hbm]; simp
  · unfold State.replyTo; rw [deliver_tc]; simp
  · unfold State.replyTo; rw [pended_cur]; exact sent_of _ _ _ _ _ hst

theorem field_local (s : State) (k : CoreIx) (o n i m : Nat) (h : i + m ≤ n) : fieldAt (cellsGet (s.core k).mem o n) i m = localValue s k (o + i) m := by
  unfold fieldAt bytesAt localValue
  show leNat ((((cellsGet (s.core k).mem o n).drop i).take m) ++ List.replicate (m - ((((cellsGet (s.core k).mem o n).drop i).take m)).length) 0) = _
  have hl : (((cellsGet (s.core k).mem o n).drop i).take m).length = m := by simp [cellsGet_length]; omega
  rw [hl]; simp only [Nat.sub_self, List.replicate_zero, List.append_nil]
  congr 1
  apply List.ext_getElem
  · simp [cellsGet_length]; omega
  · intro j h1 h2
    simp [cellsGet_map, Nat.add_assoc]

theorem hazardOf_unnamed' (s : State) (t : Thread) (p : Place) (n : Nat) (h : Unnamed s t p n) : (hazardOf s s.cur t p n false).1 = false := by
  have h1 : t.cq.any (fun e => entryNames s.cur t e false p n) = false := by
    rw [List.any_eq_false]; intro e he; simp [(h.1 e he).1]
  unfold hazardOf
  simp [h1]

theorem leaves_jump_rouse (i : Instr) (s : State) (k) (t' : Thread) (reads)
   (h : exec i s = .next (((s.rouse k).setThread s.cur t').takePorts s.cur.core reads)) : Leaves i s t' := by
  refine ⟨_, h, ?_, ?_, ⟨?_, ?_, ?_⟩, ?_, ?_, ?_⟩
  · rw [thread_takePorts]; exact thread_setThread_same ..
  · intro q hq; rw [thread_takePorts, thread_setThread_other _ _ _ _ hq, rouse_thread]
  · intro c a; rw [mem_takePorts, mem_setThread, rouse_core]
  · intro c a; rw [scale_takePorts, scale_setThread, rouse_core]
  · intro a; simp [rouse_hbm]
  · simp [rouse_tc]
  · simp [rouse_cur]
  · simp [rouse_agenda]

/-- What a write to sound local memory leaves. -/
theorem locWrite_core (s : State) (k : CoreIx) (o : Nat) (data : List Byte) (hn : data ≠ []) (h : Sound s k o data.length) :
    (s.locWrite k o data).2 = none ∧ (s.locWrite k o data).1.hbm = s.hbm ∧ (s.locWrite k o data).1.cur = s.cur ∧ (s.locWrite k o data).1.tc = s.tc ∧
    (s.locWrite k o data).1.regions = s.regions ∧
    (∀ c, ((s.locWrite k o data).1.core c).slots = (s.core c).slots) ∧ (∀ c, ((s.locWrite k o data).1.core c).images = (s.core c).images) ∧
    (∀ c, ((s.locWrite k o data).1.core c).scale = (s.core c).scale) ∧
    (∀ c, ((s.locWrite k o data).1.core c).mem = if c = k then cellsPut (s.core k).mem o data else (s.core c).mem) := by
  obtain ⟨words, hw⟩ := locWrite_sound s k o data hn h
  rw [hw]
  have hc : ∀ c, ((((s.rouse k).modCore k (fun c => { c with
      mem := cellsPut c.mem o data, poison := c.poison.filter (fun o => !(words.contains o)) })).spoil (.loc k o) data.length)).core c = if c = k then { s.core k with
      mem := cellsPut (s.core k).mem o data, poison := (s.core k).poison.filter (fun o => !(words.contains o)) } else s.core c := by
    intro c; rw [spoil_core, core_modCore, rouse_core, rouse_core]
  refine ⟨rfl, ?_, ?_, ?_, ?_, ?_, ?_, ?_, ?_⟩
  · dsimp only; rw [spoil_hbm]; exact rouse_hbm s k
  · unfold State.spoil; split <;> exact rouse_cur s k
  · unfold State.spoil; split <;> exact rouse_tc s k
  · unfold State.spoil State.rouse; split <;> split <;> rfl
  all_goals
    intro c; dsimp only; rw [hc]; split
    · next h => subst h; rfl
    · rfl

theorem sound_rouse (s : State) (k c o n) (h : Sound s c o n) : Sound (s.rouse k) c o n := by
  intro i hi; rw [rouse_locErr, rouse_core]; exact h i hi

theorem value_of_cells (u : State) (c : CoreIx) (o n : Nat) (data : List Byte) (hl : data.length = n)
   (h : ∀ i < n, cellGet (u.core c).mem (o + i) = data.getD i 0) : localValue u c o n = leNat data := by
  unfold localValue
  rw [← leNat_getD data n hl]
  congr 1
  apply List.map_congr_left
  intro i hi
  exact h i (by simpa using hi)

theorem wordPlace_ok (s : State) (t : Thread) (a : Word) (n : Nat) (p : Place) (hn : okSize n) (h : WordAt s t a n p) :
    (wordPlace s.cur t a n) s = (.ok p, placed s t a p) := by
  obtain ⟨hr, hc, hl⟩ := h
  obtain ⟨h1, h2, h3⟩ := reaches_check s t a n true true p hn hr
  have hw : windowOf a ≠ 0xF8 := by
    rcases hr with ⟨k, o, rfl, h⟩ | ⟨pa, rfl, h⟩
    · have := h.2.1; omega
    · have := h.1; omega
  unfold wordPlace
  refine (run_bind_ok _ _ s s () (needR_ok _ _ _ _ (by simp [hw]))).trans ?_
  refine (run_bind_ok _ _ s s s (run_get s)).trans ?_
  refine (run_bind_ok _ _ s s p (by rw [h1]; rfl)).trans ?_
  refine (run_bind_ok _ _ s s () (needR_ok _ _ _ _ (by simp [h3]))).trans ?_
  refine (run_bind_ok _ _ s s s (run_get s)).trans ?_
  rw [h2]; dsimp only
  cases p with
  | glob pa =>
    rw [if_pos (by simp [isGlobal])]
    refine (run_bind_ok _ _ s (s.usedTlb s.cur t a) () rfl).trans ?_
    refine (run_bind_ok _ _ _ _ _ (run_get _)).trans ?_
    refine (run_bind_ok _ _ _ _ () (needR_ok _ _ _ _ (by rw [hazardOf_word _ _ _ _ _ hc]; rfl))).trans ?_
    rfl
  | loc k o =>
    rw [if_neg (by simp [isGlobal])]
    refine (run_bind_ok _ _ _ _ _ (run_get _)).trans ?_
    refine (run_bind_ok _ _ _ _ () (needR_ok _ _ _ _ (by rw [hazardOf_word _ _ _ _ _ hc]; rfl))).trans ?_
    rfl
  | scale k o =>
    rw [if_neg (by simp [isGlobal])]
    refine (run_bind_ok _ _ _ _ _ (run_get _)).trans ?_
    refine (run_bind_ok _ _ _ _ () (needR_ok _ _ _ _ (by rw [hazardOf_word _ _ _ _ _ hc]; rfl))).trans ?_
    rfl

theorem ownLine_ok (s u : State) (t : Thread) (a : Word) (n) (p : Place) (hu : Tlb s u) (h : WordAt s t a n p) : (ownLine t a p) u = (.ok (), u) := by
  obtain ⟨hr, hc, hl⟩ := h
  unfold ownLine
  refine (run_bind_ok _ _ u u u (run_get u)).trans ?_
  cases p with
  | glob pa => exact needR_ok _ _ _ _ (by simp [hu.lineCase, hl pa rfl])
  | loc => rfl
  | scale => rfl

/-- The state with a request that bears a stamp at the home of its word. -/
def asked (u : State) (st : Stamp) (h : HeldReq) : State := { u.spend st with held := u.held ++ [h] }

theorem asks_of (i : Instr) (s u : State) (t : Thread) (h : HeldReq) (w : Instr) (st : Stamp) (hu : Tlb s u)
   (e : exec i s = .next (((asked u st h).laterOnce w {}).parkOn s.cur t .held)) : Asks i s t h w := by
  have e2 : (((asked u st h).laterOnce w {}).parkOn s.cur t .held) = (((asked u st h).laterOnce w {}).setThread s.cur { t with parked := some .held }) := rfl
  rw [e2] at e
  have hk : Kept (asked u st h) ((asked u st h).laterOnce w {}) := Kept.laterOnce _ _ _
  have hcore : ∀ c, ((asked u st h).laterOnce w {}).core c = u.core c := fun c => hk.core c
  refine ⟨_, e, thread_setThread_same _ _ _, ?_, ⟨?_, ?_, ?_⟩, ?_, ?_⟩
  · intro q hq; rw [thread_setThread_other _ _ _ _ hq]
    exact (hk.thread q).trans (hu.thread q)
  · intro c a; rw [mem_setThread, hcore, hu.mem]
  · intro c a; rw [scale_setThread, hcore, hu.scale]
  · intro a; rw [State.setThread_hbm, hk.hbm]; exact congrArg (fun m => cellGet m a) hu.hbm
  · rw [State.setThread_held]
    have : ∀ (v : State) i a, (v.laterOnce i a).held = v.held := by intro v i a; unfold State.laterOnce State.later; split <;> rfl
    rw [this]; show u.held ++ [h] = _; rw [hu.held]
  · rw [State.setThread_agenda]; exact laterOnce_mem _ _ _

/-- A request leaves at once where the die holds no copy. -/
theorem leaveDie_ok (u : State) (r : SlotRef) (t : Thread) (a : Word) (p : Place) (h : u.rdcs = []) : (leaveDie r t a p) u = (.ok (), u) := by
  unfold leaveDie
  refine (run_bind_ok _ _ u u () ?_).trans ?_
  · cases p <;> simp [waitFor, State.yieldMeet, h]
  · refine (run_modifyS _ _).trans ?_
    cases p <;> simp [State.yieldFar, State.rdcYield, h]

theorem holdAt_ok (u : State) (t : Thread) (kind : HeldKind) (d : Reg) (p : Place) (a : Word) (next : Instr) (h : u.rdcs = []) :
    (holdAt t kind d p a next) u = (.error (.park .held), (asked u u.stamp (requestOf u t p a kind d)).laterOnce next {}) := by
  unfold holdAt
  refine (run_bind_ok _ _ _ _ _ (run_get _)).trans ?_
  refine (run_bind_ok _ _ _ _ () (leaveDie_ok _ _ _ _ _ h)).trans ?_
  exact (run_bind_ok _ _ _ _ () (run_modifyS _ _)).trans rfl

theorem heldRead_ok (kind : HeldKind) (s : State) (t : Thread) (d b : Reg) (disp : BitVec 10) (x : Word) (p : Place) (h : Acts s t) (hr : s.rdcs = [])
    (hx : readReg s t [] b = .ok x)
    (hd : checkDest s t d = .ok ()) (hw : WordAt s t (wordAddr x disp) 8 p) (hb : s.buffered s.cur p 8 = false) :
    heldRead kind d b disp s = .next (((asked (placed s t (wordAddr x disp) p) s.stamp (requestOf s t p (wordAddr x disp) kind d)).laterOnce .heldRequestService {}).parkOn s.cur t .held) := by
  have hu := placed_tlb s t (wordAddr x disp) p
  let v : State := (asked (placed s t (wordAddr x disp) p) s.stamp (requestOf s t p (wordAddr x disp) kind d)).laterOnce .heldRequestService {}
  have hv : v.cur = s.cur := by simp only [v]; rw [(Kept.laterOnce _ _ _).cur]; exact hu.cur
  have e : heldRead kind d b disp s = .next (v.parkOn v.cur t .held) := by
    refine issueRun_park s v 4 t _ .held h ?_
    refine (run_bind_ok _ _ s s x (by rw [hx]; rfl)).trans ?_
    refine (run_bind_ok _ _ s s () (by rw [hd]; rfl)).trans ?_
    refine (run_bind_ok _ _ s (placed s t (wordAddr x disp) p) p (wordPlace_ok s t _ 8 p (by simp [okSize]) hw)).trans ?_
    refine (run_bind_ok _ _ _ _ () (ownLine_ok s _ t _ 8 p hu hw)).trans ?_
    refine (run_bind_ok _ _ _ _ () (pastOwn_ok s _ _ p hu hb)).trans ?_
    refine (holdAt_ok _ _ _ _ _ _ _ (hu.rdcs.trans hr)).trans ?_
    have hs : (placed s t (wordAddr x disp) p).stamp = s.stamp := by
      unfold State.stamp; rw [hu.cur]; exact stampOf_eq _ _ _ hu.tc hu.stamped
    have hq : requestOf (placed s t (wordAddr x disp) p) t p (wordAddr x disp) kind d = requestOf s t p (wordAddr x disp) kind d := by
      unfold requestOf; rw [hs, hu.cur]
    simp only [v]
    rw [← hs, ← hq]; rfl
  rw [hv] at e
  exact e

/-- A read of a sound local word that answers its bytes. -/
theorem detect_all (s : State) (k o) (h : Sound s k o 8) : s.locRead k o 8 = (s.rouse k, .ok (cellsGet (s.core k).mem o 8)) := locRead_sound s k o 8 (by omega) h

theorem putLocal (s : State) (w : Who) (c k : CoreIx) (o : Nat) (data : List Byte) (full : Bool) (ho : o % 8 = 0) (h : data ≠ [] → Sound s k o data.length) :
    let u := s.putWord w c (.loc k o) data full
    u.hbm = s.hbm ∧ u.cur = s.cur ∧ u.tc = s.tc ∧ u.held = s.held ∧ u.claims = s.claims ∧ (∀ c, (u.core c).slots = (s.core c).slots) ∧
    (∀ c, (u.core c).scale = (s.core c).scale) ∧ (∀ c, (u.core c).buf = (s.core c).buf) ∧
    (∀ c, (u.core c).mem = if c = k then cellsPut (s.core k).mem o data else (s.core c).mem) ∧
    (∀ wd, u.wordFull wd (.loc k o) = full) := by
  have key : ∃ p : List Nat → List Nat, (s.locWrite k o data) = ((((s.rouse k).modCore k (fun c => { c with
      mem := cellsPut c.mem o data, poison := p c.poison })).spoil (.loc k o) data.length), none) := by
    by_cases hd : data = []
    · subst hd; exact ⟨_, locWrite_nil s k o ho⟩
    · obtain ⟨words, hw⟩ := locWrite_sound s k o data hd (h hd)
      exact ⟨fun l => l.filter (fun o => !(words.contains o)), hw⟩
  obtain ⟨p, hw⟩ := key
  dsimp only
  unfold State.putWord
  dsimp only
  rw [hw]; dsimp only
  have hc : ∀ c, (State.core ((((s.rouse k).modCore k (fun c => { c with
      mem := cellsPut c.mem o data, poison := p c.poison })).spoil (.loc k o) data.length).setWordFull (.loc k o) full) c) =
      if c = k then { s.core k with
                       mem := cellsPut (s.core k).mem o data, poison := p (s.core k).poison,
                       emptyW := if full then (s.core k).emptyW.filter (fun x => x ≠ o / 8 * 8) else setAdd (s.core k).emptyW (o / 8 * 8) } else s.core c := by
    intro c
    unfold State.setWordFull
    dsimp only
    rw [core_modCore, spoil_core, spoil_core, core_modCore, core_modCore, rouse_core, rouse_core]
    by_cases e : c = k
    · rw [if_pos e, if_pos e, if_pos rfl]
    · rw [if_neg e, if_neg e, if_neg e]
  refine ⟨?_, ?_, ?_, ?_, ?_, ?_, ?_, ?_, ?_, ?_⟩
  · unfold State.setWordFull; dsimp only; exact (spoil_hbm _ _ _).trans (rouse_hbm s k)
  · unfold State.setWordFull; dsimp only; exact (spoil_cur _ _ _).trans (rouse_cur s k)
  · unfold State.setWordFull; dsimp only; exact (spoil_tc _ _ _).trans (rouse_tc s k)
  · unfold State.setWordFull; dsimp only; exact (spoil_held _ _ _).trans (rouse_held s k)
  · unfold State.setWordFull; dsimp only; exact (spoil_claims _ _ _).trans (rouse_claims s k)
  · intro c; rw [hc]; split
    · next e => subst e; rfl
    · rfl
  · intro c; rw [hc]; split
    · next e => subst e; rfl
    · rfl
  · intro c; rw [hc]; split
    · next e => subst e; rfl
    · rfl
  · intro c; rw [hc]; split <;> rfl
  · intro wd; unfold State.wordFull; dsimp only; rw [hc, if_pos rfl]
    dsimp only
    cases full
    · simp only [Bool.not_eq_eq_eq_not, Bool.not_false, List.contains_eq_mem, decide_eq_true_eq]
      exact mem_setAdd _ _
    · simp

theorem leaves_tlb (i : Instr) (s u : State) (t0 : Thread) (reads) (marked) (d v) (n) (hu : Tlb s u)
   (h : exec i s = .next (retire u t0 reads marked (some (d,v)) n)) : Leaves i s (afterForm t0 marked n d v) := by
  refine ⟨_, h, ?_, ?_, ⟨?_, ?_, ?_⟩, ?_, ?_, ?_⟩
  · have := thread_retire u t0 reads marked d v n
    rw [hu.cur] at this; exact this
  · intro q hq; rw [thread_retire_other _ _ _ _ _ _ _ (by rw [hu.cur]; exact hq)]; exact hu.thread q
  · intro c a; rw [mem_retire, hu.mem]
  · intro c a; rw [scale_retire, hu.scale]
  · intro a; simp [hu.hbm]
  · simp [hu.tc]
  · simp [hu.cur]
  · simp [hu.agenda]

theorem putFault_ok (s u : State) (t : Thread) (a : Word) (p : Place) (drain : Bool) (hu : Tlb s u) (h0 : ∀ pa, p = .glob pa → s.lineCase t.world (lineOf pa) ≠ .other)
   (h : WordStorable s t p) (hd : drain = true → ∀ k o, p = .loc k o → Sound s k o 8) : (putFault t a p drain) u = (.ok (), u) := by
  unfold putFault
  refine (run_bind_ok _ _ u u u (run_get u)).trans ?_
  cases p with
  | glob pa =>
    have : storeFault u t (.glob pa) 8 = none := by
      unfold storeFault
      dsimp only
      rw [hu.lineCase]
      cases hc : s.lineCase t.world (lineOf pa) with
      | other => exact absurd hc (h0 pa rfl)
      | fresh => rfl
      | own => rw [hu.tag, h pa rfl hc]; rfl
    rw [this]; rfl
  | scale => rfl
  | loc k o =>
    have : storeFault u t (.loc k o) 8 = none := rfl
    rw [this]; dsimp only
    cases drain
    · rfl
    · have hs := hd rfl k o rfl
      have hp : u.poisonedAt t.world (.loc k o) = false := by
        unfold State.poisonedAt
        dsimp only
        have h0 := hs 0 (by omega)
        simp only [Nat.add_zero] at h0
        rw [detectLocal_none u k o (by rw [hu.field State.locErr (fun _ => rfl)]; exact h0.1)]
        have := hu.core (fun k => k.poison) (fun _ _ => rfl) k
        rw [this]
        simpa using h0.2
      rw [if_neg (by simp [hp])]; rfl

theorem buffers_tlb (i : Instr) (s u : State) (t t0 : Thread) (reads marked) (n m : Nat) (p a op) (hu : Tlb s u)
    (h : exec i s = .next (retire (u.buffer s.cur t p a m op) t0 reads marked none n)) :
    Buffers i s (afterMarks t0 marked n) (entryOf s t p a m op) :=
  buffers_of i s u t0 reads marked n m p a op hu.buf hu.thread hu.mem hu.scale hu.hbm hu.cur hu.tc hu.stamped t h

theorem performHead_loc (s : State) (c : CoreIx) (e : BufEntry) (rest) (k o) (visit : Bool) (h : AtHead s c e rest) (hp : e.place = .loc k o) (hv : e.isVisit = visit) :
   performHead s c visit = ((if visit then s.performVisit c e else s.performStore c e).popBuffer c) := by
  unfold performHead
  simp only [h.1]
  rw [if_neg (by simp [State.headReady, h.1, h.2, hp, State.remapping]), if_neg (by simp [hv])]
  have : e.meet s c = none := by unfold BufEntry.meet; cases e.op <;> simp [State.placeMeet, State.visitMeet, hp]
  rw [this]

theorem same_of_cores (s u : State) (h : u.cores = s.cores) (h2 : u.hbm = s.hbm) : SameMemory s u := by
  have : ∀ c, u.core c = s.core c := by intro c; unfold State.core; rw [h]
  exact ⟨fun c a => by rw [this], fun c a => by rw [this], fun a => by rw [h2]⟩

theorem buffersPend (i : Instr) (s u : State) (t : Thread) (reads marked) (d : Reg) (n : Nat) (p a op) (hu : Tlb s u)
    (h : exec i s = .next (pended (u.buffer s.cur t p a n op) t reads marked d)) :
    Buffers i s (pendingForm t marked d) (entryOf s t p a n op) := by
  have hcu : (u.buffer s.cur t p a n op).cur = s.cur := by simp [State.buffer, hu.cur]
  refine ⟨_, h, ?_, ?_, ⟨?_, ?_, ?_⟩, ?_, ?_, ?_⟩
  · have := pended_thread (u.buffer s.cur t p a n op) t reads marked d
    rw [hcu] at this; exact this
  · intro q hq; rw [pended_other _ _ _ _ _ _ (by rw [hcu]; exact hq), thread_buffer, hu.thread]
  · intro c x; rw [pended_mem, ← hu.mem c, core_buffer]; split
    · next h => subst h; rfl
    · rfl
  · intro c x; rw [pended_scale, ← hu.scale c, core_buffer]; split
    · next h => subst h; rfl
    · rfl
  · intro x; simp [State.buffer, hu.hbm]
  · simp [State.buffer, hu.tc]
  · have := pf_pended (f := fun k => k.buf) ⟨fun _ _ => rfl, fun _ _ => rfl⟩ (u.buffer s.cur t p a n op) t reads marked d s.cur.core
    rw [this, core_buffer, if_pos rfl, ← hu.buf, stampOf_eq u s _ hu.tc hu.stamped]; rfl
  · rw [pended_agenda]; exact mem_laterOnce _ _ _

theorem touch_intact (s : State) (line slot : Nat) (h : Intact s line) : (s.touchLine line slot false).2 = false := by
  unfold State.touchLine
  dsimp only
  split
  · next x hx =>
    have hm := List.mem_of_find?_eq_some hx
    have hp := List.find?_some hx
    have hue := h.1 x hm (of_decide_eq_true hp)
    rw [if_neg (by simp), if_neg (by simp [hue])]
    split <;> rfl
  · rw [if_neg (by simp [h.2])]

theorem intact_cur (s u : State) (line : Nat) (h : Intact s line) (h1 : u.slices = s.slices) (h2 : u.pinned = s.pinned) (h3 : u.dramErr = s.dramErr)
    (h4 : u.lines = s.lines) : Intact u line := by
  unfold Intact State.sliceNo State.tag at *; rw [h1, h2, h3, h4]; exact h

theorem homeRead_readable (s : State) (w : Who) (pa n : Nat) (h : Readable s w.world (lineOf pa)) :
   ∃ u, s.homeRead w pa n = (u, .ok (cellsGet s.hbm pa n)) ∧ CacheOnly s u := by
  obtain ⟨hm, hc, hp, hi⟩ := h
  have T := cacheOnly_touchLine s (lineOf pa) w.slot false
  refine ⟨(s.touchLine (lineOf pa) w.slot false).1, ?_, T⟩
  have hl := touch_intact s (lineOf pa) w.slot hi
  simp [State.homeRead, hc, hp, hl, logAll_none _ _ _ _ (T.monitors.trans hm), T.hbm]

theorem spoil_intact (s : State) (p n l) (h : Intact s l) : Intact (s.spoil p n) l := intact_cur s _ l h (by rw [spoil_rest]) (by rw [spoil_rest]) (by rw [spoil_rest]) (spoil_lines _ _ _)

theorem touch_whole (s : State) (line slot : Nat) (whole : Bool) (hi : Intact s line) : (s.touchLine line slot whole).2 = false := by
  cases whole
  · exact touch_intact s _ _ hi
  · unfold State.touchLine
    dsimp only
    split
    · rw [if_pos rfl]
    · rw [if_neg (by simp)]

theorem homeWrite_eq (s : State) (w : Who) (keep) (pa : Nat) (data : List Byte) (h : Readable s w.world (lineOf pa)) (v : State)
   (hv : v = ((s.spoil (.glob pa) data.length).touchLine (lineOf pa) w.slot (decide (data.length = 64))).1) :
   s.homeWrite w keep pa data =
     ((((wrote v (lineOf pa) { v.tag (lineOf pa) with sound := true, poison := false } (cellsPut v.hbm pa data) w).invalidateL1 (lineOf pa) keep).taint w pa data.length).logAll
       (lineOf pa) w false, none) := by
  obtain ⟨hm, hc, hp, hi⟩ := h
  unfold State.homeWrite
  dsimp only
  rw [hc]; dsimp only
  rw [if_neg (by rw [spoil_tag, hp]; simp)]
  rw [if_neg (by rw [touch_whole _ _ _ _ (spoil_intact _ _ _ _ hi)]; simp)]
  rw [hv]; rfl

/-- A write of a readable line at its home. -/
theorem homeWrite_own (s : State) (w : Who) (keep) (pa : Nat) (data : List Byte) (h : Readable s w.world (lineOf pa)) :
    ∃ u, s.homeWrite w keep pa data = (u, none) ∧ u.hbm = cellsPut s.hbm pa data ∧ u.lineCase w.world (lineOf pa) = .own ∧
      (∀ c, (u.core c).bare = (s.core c).bare) ∧ u.lrws = s.lrws ∧ u.rdcs = s.rdcs ∧ u.tc = s.tc ∧ u.cur = s.cur := by
  have T := cacheOnly_touchLine (s.spoil (.glob pa) data.length) (lineOf pa) w.slot (decide (data.length = 64))
  obtain ⟨v, hv⟩ : ∃ v, v = ((s.spoil (.glob pa) data.length).touchLine (lineOf pa) w.slot (decide (data.length = 64))).1 := ⟨_, rfl⟩
  have e := homeWrite_eq s w keep pa data h v hv
  rw [← hv] at T
  obtain ⟨hm, hc, hp, hi⟩ := h
  have hI := cacheOnly_invalidateL1 (wrote v (lineOf pa) { v.tag (lineOf pa) with sound := true, poison := false } (cellsPut v.hbm pa data) w) (lineOf pa) keep
  generalize hq : (wrote v (lineOf pa) { v.tag (lineOf pa) with sound := true, poison := false } (cellsPut v.hbm pa data) w) = q at *
  have hT := taint_rest (q.invalidateL1 (lineOf pa) keep) w pa data.length
  refine ⟨(q.invalidateL1 (lineOf pa) keep).taint w pa data.length, ?_, ?_, ?_, ?_, ?_, ?_, ?_, ?_⟩
  · rw [e, logAll_none]
    rw [taint_monitors, hI.monitors, ← hq, wrote_monitors]
    exact (T.monitors.trans (spoil_monitors _ _ _)).trans hm
  · rw [taint_hbm, hI.hbm, ← hq, wrote_hbm, T.hbm, spoil_hbm]
  · rw [taint_lineCase, hI.lineCase, ← hq, wrote_case, lineCase_setTag v _ _ { v.tag (lineOf pa) with sound := true, poison := false } rfl rfl, T.lineCase, spoil_lineCase]; exact hc
  · intro c; rw [taint_core, hI.cores, ← hq, wrote_core, T.cores, spoil_core]
  · rw [hT]; show (q.invalidateL1 (lineOf pa) keep).lrws = _; rw [hI.lrws, ← hq, wrote_lrws]; exact T.lrws.trans (spoil_lrws _ _ _)
  · rw [hT]; show (q.invalidateL1 (lineOf pa) keep).rdcs = _; rw [hI.rdcs, ← hq, wrote_rdcs]; exact T.rdcs.trans (spoil_rdcs _ _ _)
  · rw [hT]; show (q.invalidateL1 (lineOf pa) keep).tc = _; rw [hI.tc, ← hq, wrote_tc]; exact T.tc.trans (spoil_tc _ _ _)
  · rw [hT]; show (q.invalidateL1 (lineOf pa) keep).cur = _; rw [hI.cur, ← hq, wrote_cur]; exact T.cur.trans (spoil_cur _ _ _)

theorem amoForm_ok (i : Instr) (op : AmoOp) (s : State) (t : Thread) (d a b m x y p n) (hn : amoBytes op = n) (hok : okSize n)
   (hi : exec i s = amoForm op d a b m s) (h : Acts s t) (hx : readReg s t [] a = .ok x) (hy : readReg s t [a] b = .ok y)
   (hb : (s.core s.cur.core).buf.length < 32) (hd : checkDest s t d = .ok ()) (hw : WordAt s t x n p) :
   Buffers i s (pendingForm t [(m.a, a), (m.b, b)] d) (entryOf s t p x n (.amo op y d)) := by
  subst hn
  have hu := placed_tlb s t x p
  refine buffersPend _ s _ t [a, b] _ d _ p x _ hu (hi.trans (issueRun_ok s _ 4 t _ h ?_))
  refine (run_bind_ok _ _ s s (x, y) (by simp [read2, hx, hy, bind, Except.bind, pure, Except.pure])).trans ?_
  refine (run_bind_ok _ _ s s () (by rw [hd]; rfl)).trans ?_
  refine (run_bind_ok _ _ s _ _ (wordPlace_ok s t _ _ p hok hw)).trans ?_
  refine (run_bind_ok _ _ _ _ () (ownLine_ok s _ t _ _ p hu hw)).trans ?_
  refine (run_bind_ok _ _ _ _ () (bufferRoom_ok s _ hu hb)).trans ?_
  refine (run_bind_ok _ _ _ _ () (run_modifyS _ _)).trans ?_
  rfl

/-- A visit to a sound word of local memory. -/
theorem visit_local (s : State) (w : Who) (c k : CoreIx) (o : Nat) (F : Nat → Option Nat) (hs : Sound s k o 8) (hwf : Memory.wf (s.core k).mem = true) :
   ∃ u, s.visitWord w c (.loc k o) 8 F = (u, .ok (localValue s k o 8)) ∧
     (match F (localValue s k o 8) with
      | some v => WroteLocal s u k o (natLe v 8)
      | none => SameMemory s u) ∧ (∀ c, (u.core c).fills = (s.core c).fills) ∧ (∀ c, (u.core c).buf = (s.core c).buf) ∧ u.rupds = s.rupds ∧
      (∀ q, u.thread? q = s.thread? q) := by
  have hrd : (s.locRead k o 8) = (s.rouse k, .ok (cellsGet (s.core k).mem o 8)) := locRead_sound s k o 8 (by omega) hs
  have hv : leNat (cellsGet (s.core k).mem o 8) = localValue s k o 8 := by rw [cellsGet_map]; rfl
  unfold State.visitWord
  dsimp only
  rw [hrd]; dsimp only; rw [hv]
  cases hF : F (localValue s k o 8) with
  | none =>
    refine ⟨s.rouse k, rfl, ⟨fun c a => by rw [rouse_core], fun c a => by rw [rouse_core], fun a => by rw [rouse_hbm]⟩, fun c => by rw [rouse_core], fun c => by rw [rouse_core], ?_, fun q => rouse_thread s k q⟩
    unfold State.rouse; split <;> rfl
  | some v =>
    dsimp only
    have hlen : (natLe v 8).length = 8 := natLe_length _ _
    obtain ⟨words, hw⟩ := locWrite_sound (s.rouse k) k o (natLe v 8) (by intro e; rw [e] at hlen; simp at hlen) (by rw [hlen]; exact sound_rouse _ _ _ _ _ hs)
    have hc : ∀ c, (((s.rouse k).locWrite k o (natLe v 8)).1.core c) = if c = k then { s.core k with
      mem := cellsPut (s.core k).mem o (natLe v 8), poison := (s.core k).poison.filter (fun o => !(words.contains o)) } else s.core c := by
      intro c
      rw [hw]; dsimp only
      rw [spoil_core, core_modCore, rouse_core, rouse_core, rouse_core, rouse_core]
    refine ⟨_, rfl, ⟨?_, ?_, ?_⟩, ?_, ?_, ?_, ?_⟩
    · intro c a
      rw [hc, hlen]
      by_cases e : c = k
      · rw [if_pos e]; dsimp only; rw [cellGet_cellsPut _ _ _ _ hwf, hlen]; simp [e]
      · rw [if_neg e, if_neg (by simp [e])]
    · intro c a; rw [hc]; split
      · next e => subst e; rfl
      · rfl
    · rw [hw]; dsimp only; rw [spoil_hbm]; exact (rouse_hbm _ _).trans (rouse_hbm _ _)
    · intro c; rw [hc]; split
      · next e => subst e; rfl
      · rfl
    · intro c; rw [hc]; split
      · next e => subst e; rfl
      · rfl
    · rw [hw]; dsimp only; rw [spoil_rest]; exact (rouse_rupds (s.rouse k) k).trans (rouse_rupds s k)
    · intro q; unfold State.thread? Core.slot; rw [hc]; split
      · next e => subst e; rfl
      · rfl

theorem wrote_pop (s u : State) (k o data c) (r id d v fl src) (h : WroteLocal s u k o data) : WroteLocal s ((u.deliverResult r id d v fl src).popBuffer c) k o data := by
  obtain ⟨h1, h2, h3⟩ := h
  refine ⟨?_, ?_, ?_⟩
  · intro d' a; rw [← h1, popBuffer_core]; split
    · next e => subst e; rw [deliver_mem]
    · rw [deliver_mem]
  · intro d' a; rw [← h2, popBuffer_core]; split
    · next e => subst e; rw [deliver_scale]
    · rw [deliver_scale]
  · rw [popBuffer_hbm, deliver_hbm, h3]

theorem filling_pop (u : State) (c n id d v src) : Filling ((u.deliverResult { core := c, slot := n } id d v 0 src).popBuffer c) c n id d v := by
  refine ⟨⟨{ slot := n, tid := id, reg := d, value := v, flags := 0, poke := false, stamp := u.stampOf src, after := none }, ?_, rfl, rfl, rfl, rfl, rfl⟩, ?_⟩
  · rw [popBuffer_core, if_pos rfl, deliver_core, if_pos rfl]; simp
  · refine popBuffer_agenda _ _ _ ?_
    unfold State.deliverResult State.sendFill; exact laterOnce_mem _ _ _

theorem wrote_kept (s u v : State) (k o data) (h : WroteLocal s u k o data) (hk : v.cores = u.cores) (hh : v.hbm = u.hbm) : WroteLocal s v k o data := by
  have hc : ∀ c, v.core c = u.core c := by intro c; unfold State.core; rw [hk]
  exact ⟨fun c a => by rw [hc]; exact h.1 c a, fun c a => by rw [hc]; exact h.2.1 c a, by rw [hh]; exact h.2.2⟩

theorem sealInto_thread (s : State) (t : Thread) (q : Fin 8) (x : Record) (h : Acts s t) :
    (sealInto s.cur q x s).thread? s.cur = some { t with sluices := t.sluices.setOutlet q ((t.sluices.outlet q).put x) } := by
  rw [(sealInto_ag s q x).thread]
  unfold outletPut
  rw [thread_modThread_same, h]; rfl

/-- Sealing gives the record the slot's next stamp. -/
theorem sealRecord_ok (s : State) (r : SlotRef) (q : Fin 8) (x : Record) :
    (sealRecord r q x) s = (.ok (), sealInto r q { x with sealed := some (s.stampOf (slotSource r)) } (s.spend (s.stampOf (slotSource r)))) := rfl

theorem seals_of (i : Instr) (s v : State) (t : Thread) (q : Fin 8) (x : Record) (reads marked) (ev : Instr) (h : Acts s t) (hv : v = s.spend s.stamp) (hs : x.sealed = some s.stamp)
    (hq : (q = 0 ∧ ev = .copyAccept) ∨ (q = 2 ∧ ev = pumpEvent (x.words.headD 0)) ∨ (q = 4 ∧ ev = treeEvent (x.words.headD 0)) ∨ (q = 7 ∧ ev = .reductionMessage))
    (e : exec i s = .next (retire (sealInto v.cur q x v) (((sealInto v.cur q x v).thread? v.cur).getD t) reads marked none 4)) :
    Seals i s t q x.words x.d (fun t => afterMarks t marked 4) ev := by
  obtain ⟨r1, r2, r3, r4, r5, r6⟩ := sealInto_rest v q x
  have hc : v.cur = s.cur := by rw [hv]; rfl
  have ht : ∀ p, v.thread? p = s.thread? p := by intro p; rw [hv]; rfl
  have hk : ∀ c, v.core c = s.core c := by intro c; rw [hv]; rfl
  refine ⟨_, x, e, rfl, hs, rfl, ?_, ?_, ⟨?_, ?_, ?_⟩, ?_, ?_⟩
  · rw [sealInto_thread v t q x ((ht _).trans (by rw [hc]; exact h))]
    have := thread_retire_none (sealInto v.cur q x v) (((some { t with sluices := t.sluices.setOutlet q ((t.sluices.outlet q).put x) }) : Option Thread).getD t) reads marked 4
    rw [r6] at this
    rw [← hc]; exact this
  · intro p hp
    rw [thread_retire_other _ _ _ _ _ _ _ (by rw [r6, hc]; exact hp), ← ht]; exact r1 p (by rw [hc]; exact hp)
  · intro c a; rw [mem_retire, r2, hk]
  · intro c a; rw [scale_retire, r3, hk]
  · intro a; rw [retire_hbm, r4, hv]; rfl
  · rw [retire_tc, r5, hv]; rfl
  · obtain ⟨a, ha⟩ := sealInto_agenda v q x ev hq
    exact ⟨a, by rw [retire_agenda]; exact ha⟩

theorem seals_pend (i : Instr) (s v : State) (t : Thread) (q : Fin 8) (x : Record) (reads marked) (d : Reg) (ev : Instr) (h : Acts s t) (hv : v = s.spend s.stamp) (hs : x.sealed = some s.stamp)
    (hq : (q = 0 ∧ ev = .copyAccept) ∨ (q = 2 ∧ ev = pumpEvent (x.words.headD 0)) ∨ (q = 4 ∧ ev = treeEvent (x.words.headD 0)) ∨ (q = 7 ∧ ev = .reductionMessage))
    (e : exec i s = .next (pended (sealInto v.cur q x v) (((sealInto v.cur q x v).thread? v.cur).getD t) reads marked d)) :
    Seals i s t q x.words x.d (fun t => pendingForm t marked d) ev := by
  obtain ⟨r1, r2, r3, r4, r5, r6⟩ := sealInto_rest v q x
  have hc : v.cur = s.cur := by rw [hv]; rfl
  have ht : ∀ p, v.thread? p = s.thread? p := by intro p; rw [hv]; rfl
  have hk : ∀ c, v.core c = s.core c := by intro c; rw [hv]; rfl
  refine ⟨_, x, e, rfl, hs, rfl, ?_, ?_, ⟨?_, ?_, ?_⟩, ?_, ?_⟩
  · rw [sealInto_thread v t q x ((ht _).trans (by rw [hc]; exact h))]
    have := pended_thread (sealInto v.cur q x v) (((some { t with sluices := t.sluices.setOutlet q ((t.sluices.outlet q).put x) }) : Option Thread).getD t) reads marked d
    rw [r6] at this
    rw [← hc]; exact this
  · intro p hp
    rw [pended_other _ _ _ _ _ _ (by rw [r6, hc]; exact hp), ← ht]; exact r1 p (by rw [hc]; exact hp)
  · intro c a; rw [pended_mem, r2, hk]
  · intro c a; rw [pended_scale, r3, hk]
  · intro a; rw [pended_hbm, r4, hv]; rfl
  · rw [pended_tc, r5, hv]; rfl
  · obtain ⟨a, ha⟩ := sealInto_agenda v q x ev hq
    exact ⟨a, by rw [pended_agenda]; exact ha⟩

theorem outlet_notfull {t : Thread} {q : Fin 8} (h : OutletFree t q) : (t.sluices.outlet q).full = false ∧ (t.sluices.outlet q).partly = false := by
  unfold OutletFree at h
  unfold Outlet.full Outlet.partly; rw [h]; exact ⟨rfl, rfl⟩

theorem engineLocal_fits (s : State) (c : CoreIx) (slot w : Nat) (a : Word) (n : Nat) (k : CoreIx) (o : Nat)
    (h : EngineLocal s c slot w a n k o) : wellFormed a n = true := by
  obtain ⟨h1, h2, h3, h4, hn, h5, -⟩ := h
  have hf : ∀ b : Word, windowOf b = windowOf a → bitsOf b 55 23 = 0 → bitsOf b 15 15 = 0 → fieldsZero b = true := by
    intro b hb h3 h4
    have : windowOf b ≠ 0 := by omega
    have hl : isLocalWindow (windowOf b) = true := by simp [isLocalWindow]; omega
    simp [fieldsZero, this, hl, h3, h4]
  unfold wellFormed
  simp only [line_window a n hn h5, decide_true, Bool.true_and, hf a rfl h3 h4]
  exact hf _ (line_window a n hn h5) (by rw [line_bits a n hn h5 _ _ (by omega)]; exact h3) (by rw [line_bits a n hn h5 _ _ (by omega)]; exact h4)

theorem enginePlace_local (s : State) (c : CoreIx) (slot w : Nat) (a : Word) (n : Nat) (k : CoreIx) (o : Nat) (rd wr : Bool)
    (h : EngineLocal s c slot w a n k o) : s.enginePlace c slot w a n rd wr = (s, .ok (.loc k o)) := by
  have hw := engineLocal_fits s c slot w a n k o h
  obtain ⟨h1, h2, h3, h4, hn, h5, rfl, rfl, u, hu, g1, g2, g3⟩ := h
  have h8 : windowOf a ≠ 0xF8 := by omega
  have hp : localPlace c a = .loc (c / 128 * 128 + bitsOf a 22 16) (bitsOf a 14 0) := by simp [localPlace, h8]
  unfold State.enginePlace
  dsimp only
  rw [if_neg (by omega), if_neg (by simp [hw]), if_neg (by omega), hp]
  have hd : dikeFits s slot w (.loc (c / 128 * 128 + bitsOf a 22 16) (bitsOf a 14 0)) n = true := by
    simp [dikeFits, dikeSpan, hu, g1, g2, g3]
  rw [if_pos hd]

theorem engineSpan_local (s : State) (c : CoreIx) (slot w : Nat) (a : Word) (n : Nat) (k : CoreIx) (o : Nat) (rd wr : Bool)
    (h : EngineLocal s c slot w a n k o) : s.engineSpan c slot w a n rd wr = (s, .ok [(.loc k o, n)]) := by
  have hn := h.2.2.2.2.1
  have h5 := h.2.2.2.2.2.1
  unfold State.engineSpan
  rw [lineParts_one a n hn h5]
  simp only [List.foldl_cons, List.foldl_nil]
  rw [show a + BitVec.ofNat 64 0 = a by simp, enginePlace_local s c slot w a n k o rd wr h,
    if_neg (by simp [spanFits, show windowOf a ≠ 0xFD by have := h.2.1; omega, engineLocal_fits s c slot w a n k o h])]
  rfl

theorem accept_end (s s1 : State) (c : CoreIx) (r : SlotRef) (t : Thread) (x : Record) (hc : s.arg.core = c) (ho : OnlyRecord s c 0 r t x)
    (h : tryAccept s r t x = some s1) : ∃ u, exec .copyAccept s = .next u ∧ Ag s1 u ∧ (∀ e ∈ s1.agenda, e ∈ u.agenda) := by
  have e : exec .copyAccept s = .next (if (activeRecords s1 c 0).isEmpty then s1 else s1.laterOnce .copyAccept { core := c }) := by
    show execCopyAccept s = _
    unfold execCopyAccept
    dsimp only
    rw [hc, ho.1, only_find _ (r, t, x) s1 h]
  refine ⟨_, e, ?_, ?_⟩
  · split
    · exact Ag.refl _
    · exact ag_laterOnce ..
  · split
    · exact fun _ h => h
    · intro d hd
      unfold State.laterOnce
      split
      · exact hd
      · simp [State.later, hd]

theorem same_of_ag {s u v : State} (h : SameMemory s u) (k : Ag u v) : SameMemory s v := by
  obtain ⟨g, rfl⟩ := k; exact h

/-- A sound local write, as a whole. -/
theorem locWrite_facts (s : State) (k : CoreIx) (o : Nat) (data : List Byte) (hd : data ≠ []) (h : Sound s k o data.length) (hwf : Memory.wf (s.core k).mem = true) :
    (s.locWrite k o data).2 = none ∧ WroteLocal s (s.locWrite k o data).1 k o data ∧ (∀ q, (s.locWrite k o data).1.thread? q = s.thread? q) ∧
    (∀ c, ((s.locWrite k o data).1.core c).tokens = (s.core c).tokens) ∧ (s.locWrite k o data).1.arg = s.arg := by
  obtain ⟨words, hw⟩ := locWrite_sound s k o data hd h
  have hcore : ∀ c, ((s.locWrite k o data).1).core c = if c = k then { s.core k with
      mem := cellsPut (s.core k).mem o data, poison := (s.core k).poison.filter (fun o => !(words.contains o)) } else s.core c := by
    intro c
    rw [hw, spoil_core, core_modCore, rouse_core, rouse_core]
  refine ⟨by rw [hw], ⟨?_, ?_, ?_⟩, ?_, ?_, ?_⟩
  · intro c a
    rw [hcore]
    by_cases hc : c = k
    · subst hc
      rw [if_pos rfl]; dsimp only
      rw [cellGet_cellsPut _ _ _ _ hwf]; simp
    · rw [if_neg hc, if_neg (by tauto)]
  · intro c a
    rw [hcore]; split
    · next hc => rw [hc]
    · rfl
  · rw [hw, spoil_hbm]; simp [rouse_hbm]
  · intro q; unfold State.thread?; rw [hcore]; split
    · next hc => rw [hc]; rfl
    · rfl
  · intro c; rw [hcore]; split
    · next hc => rw [hc]
    · rfl
  · rw [hw, spoil_arg]
    show (s.rouse k).arg = s.arg
    unfold State.rouse; split <;> rfl

theorem noWork_take {s : State} (h : NoWork s) : takeWork s = none := by
  obtain ⟨h1, h2⟩ := h
  unfold takeWork
  rw [h1]; simp only
  by_cases hh : s.hold = 0
  · rw [if_neg (by simpa using hh)]
    have : s.agenda = [] := by rcases h2 with h2 | h2; exact absurd hh h2; exact h2
    simp [this]
  · rw [if_pos hh]

theorem countSlots_keep (k : Core) (m : Nat) (t : Thread) (n : Nat) (hk : (k.slot m).thread = some t) (hw : t.wdog = 0) :
    ((k.countSlots n).slot m).thread = some t := by
  induction n generalizing k with
  | zero => exact hk
  | succ n ih =>
    unfold Core.countSlots
    simp only
    split
    next u hu =>
      refine ih _ ?_
      rw [slot_setSlot]
      split
      next he =>
        have e : k.slot m = k.slot n := by unfold Core.slot; congr 1
        rw [← e, hk] at hu
        cases hu
        show some (countDown t) = some t
        have : countDown t = t := by
          unfold countDown
          have e2 : ({ t with wdog := t.wdog - 1 } : Thread) = t := by rw [hw]; cases t; simp_all
          split <;> [split; skip] <;> first | rfl | exact e2
        rw [this]
      next he => exact hk
    next hu => exact ih _ hk

end Sys2Proof.Laws
end

