-- ==== Sys2Proof/Laws/PerInstr.lean ====
section
/-!
SUPPORT. Decoding undoes encoding, one lemma per constructor of `Instr` (family RoundTrip).
-/

set_option linter.unusedSimpArgs false

namespace Sys2Proof.Laws

/-- A number as the value of a 32-bit word. -/
theorem toNat_word (n : Nat) (h : n < 2 ^ 32) : (BitVec.ofNat 32 n).toNat = n := by
  rw [BitVec.toNat_ofNat]
  exact Nat.mod_eq_of_lt h

theorem encReg_lt (r : Reg) : encReg r < 64 := by
  rcases r with ⟨n, h⟩ | p | ⟨n, h⟩ | _ | _ | _ | _ <;> simp only [encReg]
  · omega
  · cases p <;> simp [encPort]
  · omega
  all_goals omega

theorem decReg_encReg (r : Reg) : decReg (encReg r) = some r := by
  rcases r with ⟨n, h⟩ | p | ⟨n, h⟩ | _ | _ | _ | _
  · simp [encReg, decReg, h]
  · cases p <;> rfl
  · unfold encReg decReg
    have h1 : ¬(44 + n < 40) := by omega
    have h2 : 44 + n ≠ 40 := by omega
    have h3 : 44 + n ≠ 41 := by omega
    have h4 : 44 + n ≠ 42 := by omega
    have h5 : 44 + n ≠ 43 := by omega
    have h6 : 44 + n - 44 < 4 := by omega
    simp [h1, h2, h3, h4, h5, h]
  all_goals rfl

theorem encVOp_lt (o : VOp) : encVOp o < 32 := by
  rcases o with ⟨n, h⟩ | ⟨n, h⟩ | p <;> simp only [encVOp]
  · omega
  · omega
  · cases p <;> simp [encPort]

theorem decVOp_encVOp (o : VOp) : decVOp (encVOp o) = some o := by
  rcases o with ⟨n, h⟩ | ⟨n, h⟩ | p
  · simp [encVOp, decVOp, h]
  · have h1 : ¬(16 + n < 16) := by omega
    have h2 : 16 + n - 16 < 8 := by omega
    simp [encVOp, decVOp, h1, h]
  · cases p <;> rfl

theorem decFin_val {k : Nat} (n : Fin k) : decFin k n.val = some n := by
  simp [decFin, n.isLt]

theorem encMark_lt (b : Bool) : encMark b < 2 := by cases b <;> decide

theorem encMark_one (b : Bool) : decide (encMark b = 1) = b := by cases b <;> decide

theorem decSize_encSize (z : Size) : decSize (encSize z) = z := by cases z <;> rfl

theorem encSize_lt (z : Size) : encSize z < 4 := by cases z <;> decide

theorem decRm_encRm (z : Rm) : decRm (encRm z) = z := by cases z <;> rfl

theorem encRm_lt (z : Rm) : encRm z < 4 := by cases z <;> decide

theorem decCond_encCond (c : Cond) : decCond (encCond c) = some c := by cases c <;> rfl

theorem encCond_lt (c : Cond) : encCond c < 16 := by cases c <;> decide

theorem decVCond_encVCond (c : VCond) : decVCond (encVCond c) = some c := by cases c <;> rfl

theorem encVCond_lt (c : VCond) : encVCond c < 16 := by cases c <;> decide

theorem decRedOp_encRedOp (c : RedOp) : decRedOp (encRedOp c) = c := by cases c <;> rfl

theorem encRedOp_lt (c : RedOp) : encRedOp c < 4 := by cases c <;> decide

theorem decScope_encScope (c : Scope) : decScope (encScope c) = some c := by cases c <;> rfl

theorem encScope_lt (c : Scope) : encScope c < 5 := by cases c <;> decide

theorem decAmoOp_encAmoOp (c : AmoOp) : decAmoOp (encAmoOp c) = some c := by cases c <;> rfl

theorem encAmoOp_lt (c : AmoOp) : encAmoOp c < 10 := by cases c <;> decide

theorem legal_wf (i : Instr) (n : Nat) (h : i.wf = true) : legal (some i) n = .ok (i, n) := by
  simp [legal, h]

theorem decode_A (n : Nat) (i : Instr) (rest : List Word32) (hw : i.wf = true) (hn : (BitVec.ofNat 32 n).toNat = n)
    (hk : kindOf n = 0) (hd : decAShort n = some i) : decode (BitVec.ofNat 32 n :: rest) = .ok (i, 4) := by
  simp only [decode, hn, hk, hd, legal_wf i 4 hw]

theorem decode_C (n : Nat) (i : Instr) (rest : List Word32) (hw : i.wf = true) (hn : (BitVec.ofNat 32 n).toNat = n)
    (hk : kindOf n = 1) (hd : decCShort n = some i) : decode (BitVec.ofNat 32 n :: rest) = .ok (i, 4) := by
  simp only [decode, hn, hk, hd, legal_wf i 4 hw]

theorem decode_long (n c : Nat) (i : Instr) (rest : List Word32) (hw : i.wf = true) (hn : (BitVec.ofNat 32 n).toNat = n)
    (hc : (BitVec.ofNat 32 c).toNat = c) (hk : kindOf n = 2) (hkc : kindOf c = 3) (hf : fld n 29 1 = 0)
    (hd : decALong n c = some i) : decode (BitVec.ofNat 32 n :: BitVec.ofNat 32 c :: rest) = .ok (i, 8) := by
  simp only [decode, hn, hc, hk, hkc, hf, hd, legal_wf i 8 hw, and_self, if_true]

/-- A short word of class A decodes to what its major and fields give. -/
theorem short_A (body top : Nat) (rest : List Word32) (hb : body < 2 ^ 24) (ht : top < 64) (i : Instr) (hw : i.wf = true)
    (hd : decAShort (top * 2 ^ 24 + body) = some i) : decode (wordOf top body ++ rest) = .ok (i, 4) := by
  have hk : kindOf (top * 2 ^ 24 + body) = 0 := by simp only [kindOf, fld]; omega
  exact decode_A _ i rest hw (toNat_word _ (by omega)) hk hd

theorem short_C (body top : Nat) (rest : List Word32) (hb : body < 2 ^ 24) (ht : top < 64) (i : Instr) (hw : i.wf = true)
    (hd : decCShort ((64 + top) * 2 ^ 24 + body) = some i) : decode (wordOf (64 + top) body ++ rest) = .ok (i, 4) := by
  have hk : kindOf ((64 + top) * 2 ^ 24 + body) = 1 := by simp only [kindOf, fld]; omega
  exact decode_C _ i rest hw (toNat_word _ (by omega)) hk hd

/-- A long word of class A and its continuation decode to what their fields give. -/
theorem long_A (body major cont : Nat) (rest : List Word32) (hb : body < 2 ^ 24) (ht : major < 32) (hc : cont < 2 ^ 30) (i : Instr)
    (hw : i.wf = true)
    (hd : ∀ m k, m = 2 * 2 ^ 30 + major * 2 ^ 24 + body → k = 3 * 2 ^ 30 + cont → decALong m k = some i) :
    decode (encLong major body cont ++ rest) = .ok (i, 8) := by
  have hk : kindOf (2 * 2 ^ 30 + major * 2 ^ 24 + body) = 2 := by simp only [kindOf, fld]; omega
  have hk2 : kindOf (3 * 2 ^ 30 + cont) = 3 := by simp only [kindOf, fld]; omega
  have hf : fld (2 * 2 ^ 30 + major * 2 ^ 24 + body) 29 1 = 0 := by simp only [fld]; omega
  exact decode_long _ _ i rest hw (toNat_word _ (by omega)) (toNat_word _ (by omega)) hk hk2 hf (hd _ _ rfl rfl)

/-- The fields of an R-format word. -/
structure RFields (w top d a b fn ma mb : Nat) : Prop where
  major : fld w 24 6 = top
  fd : fld w 18 6 = d
  fa : fld w 12 6 = a
  fb : fld w 6 6 = b
  ffn : fld w 2 4 = fn
  fma : fld w 1 1 = ma
  fmb : fld w 0 1 = mb
  fm : fld w 0 2 = 2 * ma + mb
  fnhi : fld w 4 2 = fn / 4
  fnlo : fld w 2 2 = fn % 4
  fab : fld w 6 12 = a * 64 + b
  fdab : fld w 6 18 = (d * 64 + a) * 64 + b

theorem rFields (top d a b fn ma mb : Nat) (ht : top < 64) (hd : d < 64) (ha : a < 64) (hb : b < 64) (hf : fn < 16) (hma : ma < 2)
    (hmb : mb < 2) :
    RFields (top * 2 ^ 24 + (d * 2 ^ 18 + a * 2 ^ 12 + b * 2 ^ 6 + fn * 4 + ma * 2 + mb)) top d a b fn ma mb := by
  constructor <;> simp only [fld] <;> omega

/-- An R-format word decodes to an instruction that its fields give. -/
theorem round_R (i : Instr) (rest : List Word32) (top d a b fn ma mb : Nat) (ht : top < 64) (hd : d < 64) (ha : a < 64) (hb : b < 64)
    (hf : fn < 16) (hma : ma < 2) (hmb : mb < 2) (hw : i.wf = true)
    (h : ∀ w, RFields w top d a b fn ma mb → decAShort w = some i) : decode (encR top d a b fn ma mb ++ rest) = .ok (i, 4) := by
  unfold encR
  exact short_A _ _ _ (by omega) ht i hw (h _ (rFields top d a b fn ma mb ht hd ha hb hf hma hmb))

/-- The fields of an I- or M-format word. -/
structure IFields (w top d a imm : Nat) : Prop where
  major : fld w 24 6 = top
  fd : fld w 18 6 = d
  fa : fld w 12 6 = a
  fi : fld w 0 12 = imm
  fhi : fld w 6 6 = imm / 64
  flo : fld w 0 6 = imm % 64
  fsz : fld w 10 2 = imm / 1024
  fdisp : fld w 0 10 = imm % 1024

theorem iFields (top d a imm : Nat) (ht : top < 64) (hd : d < 64) (ha : a < 64) (hi : imm < 4096) :
    IFields (top * 2 ^ 24 + (d * 2 ^ 18 + a * 2 ^ 12 + imm)) top d a imm := by
  constructor <;> simp only [fld] <;> omega

theorem round_I (i : Instr) (rest : List Word32) (top d a imm : Nat) (ht : top < 64) (hd : d < 64) (ha : a < 64) (hi : imm < 4096)
    (hw : i.wf = true) (h : ∀ w, IFields w top d a imm → decAShort w = some i) :
    decode (wordOf top (d * 2 ^ 18 + a * 2 ^ 12 + imm) ++ rest) = .ok (i, 4) :=
  short_A _ _ _ (by omega) ht i hw (h _ (iFields top d a imm ht hd ha hi))

/-- The fields of an M-format word. -/
structure MFields (w top d b sz disp : Nat) : Prop where
  major : fld w 24 6 = top
  fd : fld w 18 6 = d
  fb : fld w 12 6 = b
  fsz : fld w 10 2 = sz
  fdisp : fld w 0 10 = disp

theorem mFields (top d b sz disp : Nat) (ht : top < 64) (hd : d < 64) (hb : b < 64) (hs : sz < 4) (hi : disp < 1024) :
    MFields (top * 2 ^ 24 + (d * 2 ^ 18 + b * 2 ^ 12 + sz * 2 ^ 10 + disp)) top d b sz disp := by
  constructor <;> simp only [fld] <;> omega

theorem round_M (i : Instr) (rest : List Word32) (top d sz : Nat) (b : Reg) (disp : BitVec 10) (ht : top < 64) (hd : d < 64) (hs : sz < 4)
    (hw : i.wf = true) (h : ∀ w, MFields w top d (encReg b) sz disp.toNat → decAShort w = some i) :
    decode (encM top d b sz disp ++ rest) = .ok (i, 4) := by
  have hdisp := disp.isLt
  have hb := encReg_lt b
  unfold encM
  exact short_A _ _ rest (by omega) ht i hw (h _ (mFields top d (encReg b) sz disp.toNat ht hd hb hs hdisp))

/-- The fields of a V-format word. -/
structure VFields (w top d a b fn n rm : Nat) : Prop where
  major : fld w 24 6 = top
  fd : fld w 19 5 = d
  fa : fld w 14 5 = a
  fb : fld w 9 5 = b
  ffn : fld w 5 4 = fn
  fnlo : fld w 5 2 = fn % 4
  fnhi : fld w 7 2 = fn / 4
  fw : fld w 2 3 = n
  frm : fld w 0 2 = rm

theorem vFields (top d a b fn n rm : Nat) (ht : top < 64) (hd : d < 32) (ha : a < 32) (hb : b < 32) (hf : fn < 16) (hn : n < 8) (hr : rm < 4) :
    VFields ((64 + top) * 2 ^ 24 + (d * 2 ^ 19 + a * 2 ^ 14 + b * 2 ^ 9 + fn * 2 ^ 5 + n * 4 + rm)) top d a b fn n rm := by
  constructor <;> simp only [fld] <;> omega

theorem round_V (i : Instr) (rest : List Word32) (top d a b fn n rm : Nat) (ht : top < 64) (hd : d < 32) (ha : a < 32) (hb : b < 32)
    (hf : fn < 16) (hn : n < 8) (hr : rm < 4) (hw : i.wf = true)
    (h : ∀ w, VFields w top d a b fn n rm → decCShort w = some i) : decode (encV (64 + top) d a b fn n rm ++ rest) = .ok (i, 4) := by
  unfold encV
  exact short_C _ _ _ (by omega) ht i hw (h _ (vFields top d a b fn n rm ht hd ha hb hf hn hr))

/-- The fields of an X-format word. -/
structure XFields (w top t f u a b fn flags : Nat) : Prop where
  major : fld w 24 6 = top
  ft : fld w 21 3 = t
  ff : fld w 19 2 = f
  fu : fld w 18 1 = u
  fuf : fld w 18 3 = f * 2 + u
  fa : fld w 13 5 = a
  fb : fld w 8 5 = b
  ffn : fld w 4 4 = fn
  ffl : fld w 0 4 = flags
  flead : fld w 3 1 = flags / 8
  flow : fld w 0 3 = flags % 8
  ftail : fld w 0 8 = fn * 16 + flags

theorem xFields (top t f u a b fn flags : Nat) (ht : top < 64) (h1 : t < 8) (h2 : f < 4) (h3 : u < 2) (ha : a < 32) (hb : b < 32)
    (hf : fn < 16) (hl : flags < 16) :
    XFields ((64 + top) * 2 ^ 24 + (t * 2 ^ 21 + f * 2 ^ 19 + u * 2 ^ 18 + a * 2 ^ 13 + b * 2 ^ 8 + fn * 16 + flags)) top t f u a b fn flags := by
  constructor <;> simp only [fld] <;> omega

theorem round_X (i : Instr) (rest : List Word32) (top t f u a b fn flags : Nat) (ht : top < 64) (h1 : t < 8) (h2 : f < 4) (h3 : u < 2)
    (ha : a < 32) (hb : b < 32) (hf : fn < 16) (hl : flags < 16) (hw : i.wf = true)
    (h : ∀ w, XFields w top t f u a b fn flags → decCShort w = some i) :
    decode (encX (64 + top) t f u a b fn flags ++ rest) = .ok (i, 4) := by
  unfold encX
  exact short_C _ _ _ (by omega) ht i hw (h _ (xFields top t f u a b fn flags ht h1 h2 h3 ha hb hf hl))

/-- The fields of an Esnen word. -/
structure EFields (w op d a b imm : Nat) : Prop where
  fop : fld w 27 5 = op
  fd : fld w 23 4 = d
  fa : fld w 19 4 = a
  fb : fld w 15 4 = b
  fi : fld w 0 15 = imm
  fab : fld w 15 8 = a * 16 + b
  fdab : fld w 15 12 = (d * 16 + a) * 16 + b
  ftail : fld w 0 19 = b * 2 ^ 15 + imm
  f17 : fld w 0 17 = b % 4 * 2 ^ 15 + imm
  fmid : fld w 17 6 = a * 4 + b / 4
  fsh : fld w 0 5 = imm % 32
  fshz : fld w 5 14 = b * 2 ^ 10 + imm / 32

theorem eFields (op d a b imm : Nat) (ho : op < 32) (hd : d < 16) (ha : a < 16) (hb : b < 16) (hi : imm < 2 ^ 15) :
    EFields (op * 2 ^ 27 + d * 2 ^ 23 + a * 2 ^ 19 + b * 2 ^ 15 + imm) op d a b imm := by
  constructor <;> simp only [fld] <;> omega

theorem round_E (i : Instr) (op d a b imm : Nat) (ho : op < 32) (hd : d < 16) (ha : a < 16) (hb : b < 16) (hi : imm < 2 ^ 15)
    (h : ∀ w : Word32, EFields w.toNat op d a b imm → decodeEsnen w = some i) :
    ∃ w, encE op d a b imm = [w] ∧ decodeEsnen w = some i := by
  refine ⟨_, rfl, h _ ?_⟩
  have hn : (BitVec.ofNat 32 (op * 2 ^ 27 + d * 2 ^ 23 + a * 2 ^ 19 + b * 2 ^ 15 + imm)).toNat =
      op * 2 ^ 27 + d * 2 ^ 23 + a * 2 ^ 19 + b * 2 ^ 15 + imm := toNat_word _ (by omega)
  rw [hn]
  exact eFields op d a b imm ho hd ha hb hi

end Sys2Proof.Laws

namespace Sys2Proof.Laws.RoundTrip

/-- The words of a well-formed instruction decode to it, whatever words follow; a word of the Esnen set by that set's decoder
(R191-R204, R388). Rows without an encoding have no words. -/
def Statement (i : Instr) : Prop :=
  i.wf = true →
    (i.isEsnen = false → encode i ≠ [] → ∀ rest, decode (encode i ++ rest) = .ok (i, 4 * (encode i).length)) ∧
    (i.isEsnen = true → ∃ w, encode i = [w] ∧ decodeEsnen w = some i)

theorem native4 (i : Instr) (h : i.isEsnen = false) (hl : (encode i).length = 1)
    (hd : i.wf = true → ∀ rest, decode (encode i ++ rest) = .ok (i, 4)) : Statement i := by
  refine fun hw => ⟨fun _ _ rest => ?_, fun he => by simp [h] at he⟩
  rw [hl]
  exact hd hw rest

theorem native8 (i : Instr) (h : i.isEsnen = false) (hl : (encode i).length = 2)
    (hd : i.wf = true → ∀ rest, decode (encode i ++ rest) = .ok (i, 8)) : Statement i := by
  refine fun hw => ⟨fun _ _ rest => ?_, fun he => by simp [h] at he⟩
  rw [hl]
  exact hd hw rest

theorem esnen (i : Instr) (h : i.isEsnen = true) (hd : i.wf = true → ∃ w, encode i = [w] ∧ decodeEsnen w = some i) : Statement i :=
  fun hw => ⟨fun he => by simp [h] at he, fun _ => hd hw⟩

theorem event (i : Instr) (h : i.isEsnen = false) (he : encode i = []) : Statement i :=
  fun _ => ⟨fun _ hn => absurd he hn, fun hs => by simp [h] at hs⟩

theorem decMarks_of (w : Nat) (m : Marks) (ha : fld w 1 1 = encMark m.a) (hb : fld w 0 1 = encMark m.b) : decMarks w = m := by
  simp [decMarks, ha, hb, encMark_one]

theorem ofNat_toNat_self {n : Nat} (x : BitVec n) : BitVec.ofNat n x.toNat = x := by simp

theorem decMarks_a (w : Nat) (ma : Bool) (ha : fld w 1 1 = encMark ma) : (decMarks w).a = ma := by
  simp [decMarks, ha, encMark_one]

theorem six_hi (n : BitVec 6) : n.toNat / 64 = 0 := by
  have := n.isLt
  omega

theorem six_lo (n : BitVec 6) : n.toNat % 64 = n.toNat := by
  have := n.isLt
  omega

theorem encRm_rn : encRm .rn = 0 := rfl

theorem red_lo (c : RedOp) : encRedOp c % 4 = encRedOp c := by cases c <;> rfl

theorem red_hi (n : Nat) (c : RedOp) : (n * 4 + encRedOp c) / 4 = n := by
  have := encRedOp_lt c
  omega

theorem five_hi (n : BitVec 5) : n.toNat / 32 = 0 := by
  have := n.isLt
  omega

theorem five_lo (n : BitVec 5) : n.toNat % 32 = n.toNat := by
  have := n.isLt
  omega

theorem six_pair (p n : BitVec 6) : (p.toNat * 64 + n.toNat) / 64 = p.toNat := by
  have := n.isLt
  omega

theorem encSize_div (z : Size) : encSize z / 4 = 0 := by cases z <;> rfl

theorem encSize_mod (z : Size) : encSize z % 4 = encSize z := by cases z <;> rfl

theorem encSize_up (z : Size) : (4 + encSize z) / 4 = 1 := by cases z <;> rfl

theorem encSize_upmod (z : Size) : (4 + encSize z) % 4 = encSize z := by cases z <;> rfl

theorem encRm_div (z : Rm) : encRm z / 4 = 0 := by cases z <;> rfl

theorem encRm_mod (z : Rm) : encRm z % 4 = encRm z := by cases z <;> rfl

theorem add (d a b : Reg) (m : Marks) : Statement (.add d a b m) := by
  refine native4 _ rfl rfl fun hw rest => ?_
  exact round_R _ rest 0x00 (encReg d) (encReg a) (encReg b) 0 (encMark m.a) (encMark m.b) (by decide) (by have := encReg_lt d; omega) (by have := encReg_lt a; omega) (by have := encReg_lt b; omega) (by decide) (by have := encMark_lt m.a; omega) (by have := encMark_lt m.b; omega) hw fun w F => by
    simp [decAShort, decInt0, decMarks_of w m F.fma F.fmb, rDab, rDa, rAb, rA, rNa, rNab, rDas, rNone, iDa, iShift, iField, mSized, mForm, guardSome, encSize_div, encSize_mod, encSize_up, encSize_upmod, encRm_div, encRm_mod, decReg_encReg, decFin_val, encMark_one, decSize_encSize, decRm_encRm, decCond_encCond, decScope_encScope, decAmoOp_encAmoOp, ofNat_toNat_self, F.major, F.fd, F.fa, F.fb, F.ffn, F.fma, F.fmb, F.fm, F.fnhi, F.fnlo, F.fab, F.fdab]

theorem sub (d a b : Reg) (m : Marks) : Statement (.sub d a b m) := by
  refine native4 _ rfl rfl fun hw rest => ?_
  exact round_R _ rest 0x00 (encReg d) (encReg a) (encReg b) 1 (encMark m.a) (encMark m.b) (by decide) (by have := encReg_lt d; omega) (by have := encReg_lt a; omega) (by have := encReg_lt b; omega) (by decide) (by have := encMark_lt m.a; omega) (by have := encMark_lt m.b; omega) hw fun w F => by
    simp [decAShort, decInt0, decMarks_of w m F.fma F.fmb, rDab, rDa, rAb, rA, rNa, rNab, rDas, rNone, iDa, iShift, iField, mSized, mForm, guardSome, encSize_div, encSize_mod, encSize_up, encSize_upmod, encRm_div, encRm_mod, decReg_encReg, decFin_val, encMark_one, decSize_encSize, decRm_encRm, decCond_encCond, decScope_encScope, decAmoOp_encAmoOp, ofNat_toNat_self, F.major, F.fd, F.fa, F.fb, F.ffn, F.fma, F.fmb, F.fm, F.fnhi, F.fnlo, F.fab, F.fdab]

theorem mul (d a b : Reg) (m : Marks) : Statement (.mul d a b m) := by
  refine native4 _ rfl rfl fun hw rest => ?_
  exact round_R _ rest 0x00 (encReg d) (encReg a) (encReg b) 2 (encMark m.a) (encMark m.b) (by decide) (by have := encReg_lt d; omega) (by have := encReg_lt a; omega) (by have := encReg_lt b; omega) (by decide) (by have := encMark_lt m.a; omega) (by have := encMark_lt m.b; omega) hw fun w F => by
    simp [decAShort, decInt0, decMarks_of w m F.fma F.fmb, rDab, rDa, rAb, rA, rNa, rNab, rDas, rNone, iDa, iShift, iField, mSized, mForm, guardSome, encSize_div, encSize_mod, encSize_up, encSize_upmod, encRm_div, encRm_mod, decReg_encReg, decFin_val, encMark_one, decSize_encSize, decRm_encRm, decCond_encCond, decScope_encScope, decAmoOp_encAmoOp, ofNat_toNat_self, F.major, F.fd, F.fa, F.fb, F.ffn, F.fma, F.fmb, F.fm, F.fnhi, F.fnlo, F.fab, F.fdab]

theorem mulh (d a b : Reg) (m : Marks) : Statement (.mulh d a b m) := by
  refine native4 _ rfl rfl fun hw rest => ?_
  exact round_R _ rest 0x00 (encReg d) (encReg a) (encReg b) 3 (encMark m.a) (encMark m.b) (by decide) (by have := encReg_lt d; omega) (by have := encReg_lt a; omega) (by have := encReg_lt b; omega) (by decide) (by have := encMark_lt m.a; omega) (by have := encMark_lt m.b; omega) hw fun w F => by
    simp [decAShort, decInt0, decMarks_of w m F.fma F.fmb, rDab, rDa, rAb, rA, rNa, rNab, rDas, rNone, iDa, iShift, iField, mSized, mForm, guardSome, encSize_div, encSize_mod, encSize_up, encSize_upmod, encRm_div, encRm_mod, decReg_encReg, decFin_val, encMark_one, decSize_encSize, decRm_encRm, decCond_encCond, decScope_encScope, decAmoOp_encAmoOp, ofNat_toNat_self, F.major, F.fd, F.fa, F.fb, F.ffn, F.fma, F.fmb, F.fm, F.fnhi, F.fnlo, F.fab, F.fdab]

theorem mulhn (d a b : Reg) (m : Marks) : Statement (.mulhn d a b m) := by
  refine native4 _ rfl rfl fun hw rest => ?_
  exact round_R _ rest 0x00 (encReg d) (encReg a) (encReg b) 4 (encMark m.a) (encMark m.b) (by decide) (by have := encReg_lt d; omega) (by have := encReg_lt a; omega) (by have := encReg_lt b; omega) (by decide) (by have := encMark_lt m.a; omega) (by have := encMark_lt m.b; omega) hw fun w F => by
    simp [decAShort, decInt0, decMarks_of w m F.fma F.fmb, rDab, rDa, rAb, rA, rNa, rNab, rDas, rNone, iDa, iShift, iField, mSized, mForm, guardSome, encSize_div, encSize_mod, encSize_up, encSize_upmod, encRm_div, encRm_mod, decReg_encReg, decFin_val, encMark_one, decSize_encSize, decRm_encRm, decCond_encCond, decScope_encScope, decAmoOp_encAmoOp, ofNat_toNat_self, F.major, F.fd, F.fa, F.fb, F.ffn, F.fma, F.fmb, F.fm, F.fnhi, F.fnlo, F.fab, F.fdab]

theorem div (d a b : Reg) (m : Marks) : Statement (.div d a b m) := by
  refine native4 _ rfl rfl fun hw rest => ?_
  exact round_R _ rest 0x00 (encReg d) (encReg a) (encReg b) 5 (encMark m.a) (encMark m.b) (by decide) (by have := encReg_lt d; omega) (by have := encReg_lt a; omega) (by have := encReg_lt b; omega) (by decide) (by have := encMark_lt m.a; omega) (by have := encMark_lt m.b; omega) hw fun w F => by
    simp [decAShort, decInt0, decMarks_of w m F.fma F.fmb, rDab, rDa, rAb, rA, rNa, rNab, rDas, rNone, iDa, iShift, iField, mSized, mForm, guardSome, encSize_div, encSize_mod, encSize_up, encSize_upmod, encRm_div, encRm_mod, decReg_encReg, decFin_val, encMark_one, decSize_encSize, decRm_encRm, decCond_encCond, decScope_encScope, decAmoOp_encAmoOp, ofNat_toNat_self, F.major, F.fd, F.fa, F.fb, F.ffn, F.fma, F.fmb, F.fm, F.fnhi, F.fnlo, F.fab, F.fdab]

theorem divn (d a b : Reg) (m : Marks) : Statement (.divn d a b m) := by
  refine native4 _ rfl rfl fun hw rest => ?_
  exact round_R _ rest 0x00 (encReg d) (encReg a) (encReg b) 6 (encMark m.a) (encMark m.b) (by decide) (by have := encReg_lt d; omega) (by have := encReg_lt a; omega) (by have := encReg_lt b; omega) (by decide) (by have := encMark_lt m.a; omega) (by have := encMark_lt m.b; omega) hw fun w F => by
    simp [decAShort, decInt0, decMarks_of w m F.fma F.fmb, rDab, rDa, rAb, rA, rNa, rNab, rDas, rNone, iDa, iShift, iField, mSized, mForm, guardSome, encSize_div, encSize_mod, encSize_up, encSize_upmod, encRm_div, encRm_mod, decReg_encReg, decFin_val, encMark_one, decSize_encSize, decRm_encRm, decCond_encCond, decScope_encScope, decAmoOp_encAmoOp, ofNat_toNat_self, F.major, F.fd, F.fa, F.fb, F.ffn, F.fma, F.fmb, F.fm, F.fnhi, F.fnlo, F.fab, F.fdab]

theorem rem (d a b : Reg) (m : Marks) : Statement (.rem d a b m) := by
  refine native4 _ rfl rfl fun hw rest => ?_
  exact round_R _ rest 0x00 (encReg d) (encReg a) (encReg b) 7 (encMark m.a) (encMark m.b) (by decide) (by have := encReg_lt d; omega) (by have := encReg_lt a; omega) (by have := encReg_lt b; omega) (by decide) (by have := encMark_lt m.a; omega) (by have := encMark_lt m.b; omega) hw fun w F => by
    simp [decAShort, decInt0, decMarks_of w m F.fma F.fmb, rDab, rDa, rAb, rA, rNa, rNab, rDas, rNone, iDa, iShift, iField, mSized, mForm, guardSome, encSize_div, encSize_mod, encSize_up, encSize_upmod, encRm_div, encRm_mod, decReg_encReg, decFin_val, encMark_one, decSize_encSize, decRm_encRm, decCond_encCond, decScope_encScope, decAmoOp_encAmoOp, ofNat_toNat_self, F.major, F.fd, F.fa, F.fb, F.ffn, F.fma, F.fmb, F.fm, F.fnhi, F.fnlo, F.fab, F.fdab]

theorem remn (d a b : Reg) (m : Marks) : Statement (.remn d a b m) := by
  refine native4 _ rfl rfl fun hw rest => ?_
  exact round_R _ rest 0x00 (encReg d) (encReg a) (encReg b) 8 (encMark m.a) (encMark m.b) (by decide) (by have := encReg_lt d; omega) (by have := encReg_lt a; omega) (by have := encReg_lt b; omega) (by decide) (by have := encMark_lt m.a; omega) (by have := encMark_lt m.b; omega) hw fun w F => by
    simp [decAShort, decInt0, decMarks_of w m F.fma F.fmb, rDab, rDa, rAb, rA, rNa, rNab, rDas, rNone, iDa, iShift, iField, mSized, mForm, guardSome, encSize_div, encSize_mod, encSize_up, encSize_upmod, encRm_div, encRm_mod, decReg_encReg, decFin_val, encMark_one, decSize_encSize, decRm_encRm, decCond_encCond, decScope_encScope, decAmoOp_encAmoOp, ofNat_toNat_self, F.major, F.fd, F.fa, F.fb, F.ffn, F.fma, F.fmb, F.fm, F.fnhi, F.fnlo, F.fab, F.fdab]

theorem and (d a b : Reg) (m : Marks) : Statement (.and d a b m) := by
  refine native4 _ rfl rfl fun hw rest => ?_
  exact round_R _ rest 0x00 (encReg d) (encReg a) (encReg b) 9 (encMark m.a) (encMark m.b) (by decide) (by have := encReg_lt d; omega) (by have := encReg_lt a; omega) (by have := encReg_lt b; omega) (by decide) (by have := encMark_lt m.a; omega) (by have := encMark_lt m.b; omega) hw fun w F => by
    simp [decAShort, decInt0, decMarks_of w m F.fma F.fmb, rDab, rDa, rAb, rA, rNa, rNab, rDas, rNone, iDa, iShift, iField, mSized, mForm, guardSome, encSize_div, encSize_mod, encSize_up, encSize_upmod, encRm_div, encRm_mod, decReg_encReg, decFin_val, encMark_one, decSize_encSize, decRm_encRm, decCond_encCond, decScope_encScope, decAmoOp_encAmoOp, ofNat_toNat_self, F.major, F.fd, F.fa, F.fb, F.ffn, F.fma, F.fmb, F.fm, F.fnhi, F.fnlo, F.fab, F.fdab]

theorem or (d a b : Reg) (m : Marks) : Statement (.or d a b m) := by
  refine native4 _ rfl rfl fun hw rest => ?_
  exact round_R _ rest 0x00 (encReg d) (encReg a) (encReg b) 10 (encMark m.a) (encMark m.b) (by decide) (by have := encReg_lt d; omega) (by have := encReg_lt a; omega) (by have := encReg_lt b; omega) (by decide) (by have := encMark_lt m.a; omega) (by have := encMark_lt m.b; omega) hw fun w F => by
    simp [decAShort, decInt0, decMarks_of w m F.fma F.fmb, rDab, rDa, rAb, rA, rNa, rNab, rDas, rNone, iDa, iShift, iField, mSized, mForm, guardSome, encSize_div, encSize_mod, encSize_up, encSize_upmod, encRm_div, encRm_mod, decReg_encReg, decFin_val, encMark_one, decSize_encSize, decRm_encRm, decCond_encCond, decScope_encScope, decAmoOp_encAmoOp, ofNat_toNat_self, F.major, F.fd, F.fa, F.fb, F.ffn, F.fma, F.fmb, F.fm, F.fnhi, F.fnlo, F.fab, F.fdab]

theorem xor (d a b : Reg) (m : Marks) : Statement (.xor d a b m) := by
  refine native4 _ rfl rfl fun hw rest => ?_
  exact round_R _ rest 0x00 (encReg d) (encReg a) (encReg b) 11 (encMark m.a) (encMark m.b) (by decide) (by have := encReg_lt d; omega) (by have := encReg_lt a; omega) (by have := encReg_lt b; omega) (by decide) (by have := encMark_lt m.a; omega) (by have := encMark_lt m.b; omega) hw fun w F => by
    simp [decAShort, decInt0, decMarks_of w m F.fma F.fmb, rDab, rDa, rAb, rA, rNa, rNab, rDas, rNone, iDa, iShift, iField, mSized, mForm, guardSome, encSize_div, encSize_mod, encSize_up, encSize_upmod, encRm_div, encRm_mod, decReg_encReg, decFin_val, encMark_one, decSize_encSize, decRm_encRm, decCond_encCond, decScope_encScope, decAmoOp_encAmoOp, ofNat_toNat_self, F.major, F.fd, F.fa, F.fb, F.ffn, F.fma, F.fmb, F.fm, F.fnhi, F.fnlo, F.fab, F.fdab]

theorem shl (d a b : Reg) (m : Marks) : Statement (.shl d a b m) := by
  refine native4 _ rfl rfl fun hw rest => ?_
  exact round_R _ rest 0x00 (encReg d) (encReg a) (encReg b) 12 (encMark m.a) (encMark m.b) (by decide) (by have := encReg_lt d; omega) (by have := encReg_lt a; omega) (by have := encReg_lt b; omega) (by decide) (by have := encMark_lt m.a; omega) (by have := encMark_lt m.b; omega) hw fun w F => by
    simp [decAShort, decInt0, decMarks_of w m F.fma F.fmb, rDab, rDa, rAb, rA, rNa, rNab, rDas, rNone, iDa, iShift, iField, mSized, mForm, guardSome, encSize_div, encSize_mod, encSize_up, encSize_upmod, encRm_div, encRm_mod, decReg_encReg, decFin_val, encMark_one, decSize_encSize, decRm_encRm, decCond_encCond, decScope_encScope, decAmoOp_encAmoOp, ofNat_toNat_self, F.major, F.fd, F.fa, F.fb, F.ffn, F.fma, F.fmb, F.fm, F.fnhi, F.fnlo, F.fab, F.fdab]

theorem shr (d a b : Reg) (m : Marks) : Statement (.shr d a b m) := by
  refine native4 _ rfl rfl fun hw rest => ?_
  exact round_R _ rest 0x00 (encReg d) (encReg a) (encReg b) 13 (encMark m.a) (encMark m.b) (by decide) (by have := encReg_lt d; omega) (by have := encReg_lt a; omega) (by have := encReg_lt b; omega) (by decide) (by have := encMark_lt m.a; omega) (by have := encMark_lt m.b; omega) hw fun w F => by
    simp [decAShort, decInt0, decMarks_of w m F.fma F.fmb, rDab, rDa, rAb, rA, rNa, rNab, rDas, rNone, iDa, iShift, iField, mSized, mForm, guardSome, encSize_div, encSize_mod, encSize_up, encSize_upmod, encRm_div, encRm_mod, decReg_encReg, decFin_val, encMark_one, decSize_encSize, decRm_encRm, decCond_encCond, decScope_encScope, decAmoOp_encAmoOp, ofNat_toNat_self, F.major, F.fd, F.fa, F.fb, F.ffn, F.fma, F.fmb, F.fm, F.fnhi, F.fnlo, F.fab, F.fdab]

theorem sar (d a b : Reg) (m : Marks) : Statement (.sar d a b m) := by
  refine native4 _ rfl rfl fun hw rest => ?_
  exact round_R _ rest 0x00 (encReg d) (encReg a) (encReg b) 14 (encMark m.a) (encMark m.b) (by decide) (by have := encReg_lt d; omega) (by have := encReg_lt a; omega) (by have := encReg_lt b; omega) (by decide) (by have := encMark_lt m.a; omega) (by have := encMark_lt m.b; omega) hw fun w F => by
    simp [decAShort, decInt0, decMarks_of w m F.fma F.fmb, rDab, rDa, rAb, rA, rNa, rNab, rDas, rNone, iDa, iShift, iField, mSized, mForm, guardSome, encSize_div, encSize_mod, encSize_up, encSize_upmod, encRm_div, encRm_mod, decReg_encReg, decFin_val, encMark_one, decSize_encSize, decRm_encRm, decCond_encCond, decScope_encScope, decAmoOp_encAmoOp, ofNat_toNat_self, F.major, F.fd, F.fa, F.fb, F.ffn, F.fma, F.fmb, F.fm, F.fnhi, F.fnlo, F.fab, F.fdab]

theorem andn (d a b : Reg) (m : Marks) : Statement (.andn d a b m) := by
  refine native4 _ rfl rfl fun hw rest => ?_
  exact round_R _ rest 0x00 (encReg d) (encReg a) (encReg b) 15 (encMark m.a) (encMark m.b) (by decide) (by have := encReg_lt d; omega) (by have := encReg_lt a; omega) (by have := encReg_lt b; omega) (by decide) (by have := encMark_lt m.a; omega) (by have := encMark_lt m.b; omega) hw fun w F => by
    simp [decAShort, decInt0, decMarks_of w m F.fma F.fmb, rDab, rDa, rAb, rA, rNa, rNab, rDas, rNone, iDa, iShift, iField, mSized, mForm, guardSome, encSize_div, encSize_mod, encSize_up, encSize_upmod, encRm_div, encRm_mod, decReg_encReg, decFin_val, encMark_one, decSize_encSize, decRm_encRm, decCond_encCond, decScope_encScope, decAmoOp_encAmoOp, ofNat_toNat_self, F.major, F.fd, F.fa, F.fb, F.ffn, F.fma, F.fmb, F.fm, F.fnhi, F.fnlo, F.fab, F.fdab]

theorem min (d a b : Reg) (m : Marks) : Statement (.min d a b m) := by
  refine native4 _ rfl rfl fun hw rest => ?_
  exact round_R _ rest 0x01 (encReg d) (encReg a) (encReg b) 0 (encMark m.a) (encMark m.b) (by decide) (by have := encReg_lt d; omega) (by have := encReg_lt a; omega) (by have := encReg_lt b; omega) (by decide) (by have := encMark_lt m.a; omega) (by have := encMark_lt m.b; omega) hw fun w F => by
    simp [decAShort, decInt1, decMarks_of w m F.fma F.fmb, rDab, rDa, rAb, rA, rNa, rNab, rDas, rNone, iDa, iShift, iField, mSized, mForm, guardSome, encSize_div, encSize_mod, encSize_up, encSize_upmod, encRm_div, encRm_mod, decReg_encReg, decFin_val, encMark_one, decSize_encSize, decRm_encRm, decCond_encCond, decScope_encScope, decAmoOp_encAmoOp, ofNat_toNat_self, F.major, F.fd, F.fa, F.fb, F.ffn, F.fma, F.fmb, F.fm, F.fnhi, F.fnlo, F.fab, F.fdab]

theorem max (d a b : Reg) (m : Marks) : Statement (.max d a b m) := by
  refine native4 _ rfl rfl fun hw rest => ?_
  exact round_R _ rest 0x01 (encReg d) (encReg a) (encReg b) 1 (encMark m.a) (encMark m.b) (by decide) (by have := encReg_lt d; omega) (by have := encReg_lt a; omega) (by have := encReg_lt b; omega) (by decide) (by have := encMark_lt m.a; omega) (by have := encMark_lt m.b; omega) hw fun w F => by
    simp [decAShort, decInt1, decMarks_of w m F.fma F.fmb, rDab, rDa, rAb, rA, rNa, rNab, rDas, rNone, iDa, iShift, iField, mSized, mForm, guardSome, encSize_div, encSize_mod, encSize_up, encSize_upmod, encRm_div, encRm_mod, decReg_encReg, decFin_val, encMark_one, decSize_encSize, decRm_encRm, decCond_encCond, decScope_encScope, decAmoOp_encAmoOp, ofNat_toNat_self, F.major, F.fd, F.fa, F.fb, F.ffn, F.fma, F.fmb, F.fm, F.fnhi, F.fnlo, F.fab, F.fdab]

theorem minn (d a b : Reg) (m : Marks) : Statement (.minn d a b m) := by
  refine native4 _ rfl rfl fun hw rest => ?_
  exact round_R _ rest 0x01 (encReg d) (encReg a) (encReg b) 2 (encMark m.a) (encMark m.b) (by decide) (by have := encReg_lt d; omega) (by have := encReg_lt a; omega) (by have := encReg_lt b; omega) (by decide) (by have := encMark_lt m.a; omega) (by have := encMark_lt m.b; omega) hw fun w F => by
    simp [decAShort, decInt1, decMarks_of w m F.fma F.fmb, rDab, rDa, rAb, rA, rNa, rNab, rDas, rNone, iDa, iShift, iField, mSized, mForm, guardSome, encSize_div, encSize_mod, encSize_up, encSize_upmod, encRm_div, encRm_mod, decReg_encReg, decFin_val, encMark_one, decSize_encSize, decRm_encRm, decCond_encCond, decScope_encScope, decAmoOp_encAmoOp, ofNat_toNat_self, F.major, F.fd, F.fa, F.fb, F.ffn, F.fma, F.fmb, F.fm, F.fnhi, F.fnlo, F.fab, F.fdab]

theorem maxn (d a b : Reg) (m : Marks) : Statement (.maxn d a b m) := by
  refine native4 _ rfl rfl fun hw rest => ?_
  exact round_R _ rest 0x01 (encReg d) (encReg a) (encReg b) 3 (encMark m.a) (encMark m.b) (by decide) (by have := encReg_lt d; omega) (by have := encReg_lt a; omega) (by have := encReg_lt b; omega) (by decide) (by have := encMark_lt m.a; omega) (by have := encMark_lt m.b; omega) hw fun w F => by
    simp [decAShort, decInt1, decMarks_of w m F.fma F.fmb, rDab, rDa, rAb, rA, rNa, rNab, rDas, rNone, iDa, iShift, iField, mSized, mForm, guardSome, encSize_div, encSize_mod, encSize_up, encSize_upmod, encRm_div, encRm_mod, decReg_encReg, decFin_val, encMark_one, decSize_encSize, decRm_encRm, decCond_encCond, decScope_encScope, decAmoOp_encAmoOp, ofNat_toNat_self, F.major, F.fd, F.fa, F.fb, F.ffn, F.fma, F.fmb, F.fm, F.fnhi, F.fnlo, F.fab, F.fdab]

theorem clz (d a : Reg) (ma : Bool) : Statement (.clz d a ma) := by
  refine native4 _ rfl rfl fun hw rest => ?_
  exact round_R _ rest 0x01 (encReg d) (encReg a) 0 4 (encMark ma) 0 (by decide) (by have := encReg_lt d; omega) (by have := encReg_lt a; omega) (by decide) (by decide) (by have := encMark_lt ma; omega) (by decide) hw fun w F => by
    simp [decAShort, decInt1, decMarks_a w ma F.fma, rDab, rDa, rAb, rA, rNa, rNab, rDas, rNone, iDa, iShift, iField, mSized, mForm, guardSome, encSize_div, encSize_mod, encSize_up, encSize_upmod, encRm_div, encRm_mod, decReg_encReg, decFin_val, encMark_one, decSize_encSize, decRm_encRm, decCond_encCond, decScope_encScope, decAmoOp_encAmoOp, ofNat_toNat_self, F.major, F.fd, F.fa, F.fb, F.ffn, F.fma, F.fmb, F.fm, F.fnhi, F.fnlo, F.fab, F.fdab]

theorem popc (d a : Reg) (ma : Bool) : Statement (.popc d a ma) := by
  refine native4 _ rfl rfl fun hw rest => ?_
  exact round_R _ rest 0x01 (encReg d) (encReg a) 0 5 (encMark ma) 0 (by decide) (by have := encReg_lt d; omega) (by have := encReg_lt a; omega) (by decide) (by decide) (by have := encMark_lt ma; omega) (by decide) hw fun w F => by
    simp [decAShort, decInt1, decMarks_a w ma F.fma, rDab, rDa, rAb, rA, rNa, rNab, rDas, rNone, iDa, iShift, iField, mSized, mForm, guardSome, encSize_div, encSize_mod, encSize_up, encSize_upmod, encRm_div, encRm_mod, decReg_encReg, decFin_val, encMark_one, decSize_encSize, decRm_encRm, decCond_encCond, decScope_encScope, decAmoOp_encAmoOp, ofNat_toNat_self, F.major, F.fd, F.fa, F.fb, F.ffn, F.fma, F.fmb, F.fm, F.fnhi, F.fnlo, F.fab, F.fdab]

theorem mov (d a : Reg) (ma : Bool) : Statement (.mov d a ma) := by
  refine native4 _ rfl rfl fun hw rest => ?_
  exact round_R _ rest 0x01 (encReg d) (encReg a) 0 6 (encMark ma) 0 (by decide) (by have := encReg_lt d; omega) (by have := encReg_lt a; omega) (by decide) (by decide) (by have := encMark_lt ma; omega) (by decide) hw fun w F => by
    simp [decAShort, decInt1, decMarks_a w ma F.fma, rDab, rDa, rAb, rA, rNa, rNab, rDas, rNone, iDa, iShift, iField, mSized, mForm, guardSome, encSize_div, encSize_mod, encSize_up, encSize_upmod, encRm_div, encRm_mod, decReg_encReg, decFin_val, encMark_one, decSize_encSize, decRm_encRm, decCond_encCond, decScope_encScope, decAmoOp_encAmoOp, ofNat_toNat_self, F.major, F.fd, F.fa, F.fb, F.ffn, F.fma, F.fmb, F.fm, F.fnhi, F.fnlo, F.fab, F.fdab]

theorem leaX2 (d a b : Reg) (m : Marks) : Statement (.leaX2 d a b m) := by
  refine native4 _ rfl rfl fun hw rest => ?_
  exact round_R _ rest 0x01 (encReg d) (encReg a) (encReg b) 7 (encMark m.a) (encMark m.b) (by decide) (by have := encReg_lt d; omega) (by have := encReg_lt a; omega) (by have := encReg_lt b; omega) (by decide) (by have := encMark_lt m.a; omega) (by have := encMark_lt m.b; omega) hw fun w F => by
    simp [decAShort, decInt1, decMarks_of w m F.fma F.fmb, rDab, rDa, rAb, rA, rNa, rNab, rDas, rNone, iDa, iShift, iField, mSized, mForm, guardSome, encSize_div, encSize_mod, encSize_up, encSize_upmod, encRm_div, encRm_mod, decReg_encReg, decFin_val, encMark_one, decSize_encSize, decRm_encRm, decCond_encCond, decScope_encScope, decAmoOp_encAmoOp, ofNat_toNat_self, F.major, F.fd, F.fa, F.fb, F.ffn, F.fma, F.fmb, F.fm, F.fnhi, F.fnlo, F.fab, F.fdab]

theorem leaX4 (d a b : Reg) (m : Marks) : Statement (.leaX4 d a b m) := by
  refine native4 _ rfl rfl fun hw rest => ?_
  exact round_R _ rest 0x01 (encReg d) (encReg a) (encReg b) 8 (encMark m.a) (encMark m.b) (by decide) (by have := encReg_lt d; omega) (by have := encReg_lt a; omega) (by have := encReg_lt b; omega) (by decide) (by have := encMark_lt m.a; omega) (by have := encMark_lt m.b; omega) hw fun w F => by
    simp [decAShort, decInt1, decMarks_of w m F.fma F.fmb, rDab, rDa, rAb, rA, rNa, rNab, rDas, rNone, iDa, iShift, iField, mSized, mForm, guardSome, encSize_div, encSize_mod, encSize_up, encSize_upmod, encRm_div, encRm_mod, decReg_encReg, decFin_val, encMark_one, decSize_encSize, decRm_encRm, decCond_encCond, decScope_encScope, decAmoOp_encAmoOp, ofNat_toNat_self, F.major, F.fd, F.fa, F.fb, F.ffn, F.fma, F.fmb, F.fm, F.fnhi, F.fnlo, F.fab, F.fdab]

theorem leaX8 (d a b : Reg) (m : Marks) : Statement (.leaX8 d a b m) := by
  refine native4 _ rfl rfl fun hw rest => ?_
  exact round_R _ rest 0x01 (encReg d) (encReg a) (encReg b) 9 (encMark m.a) (encMark m.b) (by decide) (by have := encReg_lt d; omega) (by have := encReg_lt a; omega) (by have := encReg_lt b; omega) (by decide) (by have := encMark_lt m.a; omega) (by have := encMark_lt m.b; omega) hw fun w F => by
    simp [decAShort, decInt1, decMarks_of w m F.fma F.fmb, rDab, rDa, rAb, rA, rNa, rNab, rDas, rNone, iDa, iShift, iField, mSized, mForm, guardSome, encSize_div, encSize_mod, encSize_up, encSize_upmod, encRm_div, encRm_mod, decReg_encReg, decFin_val, encMark_one, decSize_encSize, decRm_encRm, decCond_encCond, decScope_encScope, decAmoOp_encAmoOp, ofNat_toNat_self, F.major, F.fd, F.fa, F.fb, F.ffn, F.fma, F.fmb, F.fm, F.fnhi, F.fnlo, F.fab, F.fdab]

theorem void (n : Fin 40) : Statement (.void n) := by
  refine native4 _ rfl rfl fun hw rest => ?_
  exact round_R _ rest 0x01 n.val 0 0 10 0 0 (by decide) (by have := n.isLt; omega) (by decide) (by decide) (by decide) (by decide) (by decide) hw fun w F => by
    simp [decAShort, decInt1, rDab, rDa, rAb, rA, rNa, rNab, rDas, rNone, iDa, iShift, iField, mSized, mForm, guardSome, encSize_div, encSize_mod, encSize_up, encSize_upmod, encRm_div, encRm_mod, decReg_encReg, decFin_val, encMark_one, decSize_encSize, decRm_encRm, decCond_encCond, decScope_encScope, decAmoOp_encAmoOp, ofNat_toNat_self, F.major, F.fd, F.fa, F.fb, F.ffn, F.fma, F.fmb, F.fm, F.fnhi, F.fnlo, F.fab, F.fdab]

theorem addi (d a : Reg) (imm : BitVec 12) : Statement (.addi d a imm) := by
  refine native4 _ rfl rfl fun hw rest => ?_
  exact round_I _ rest 0x02 (encReg d) (encReg a) imm.toNat (by decide) (encReg_lt d) (encReg_lt a) (by have := imm.isLt; omega) hw fun w F => by
    simp [decAShort, rDab, rDa, rAb, rA, rNa, rNab, rDas, rNone, iDa, iShift, iField, mSized, mForm, guardSome, encSize_div, encSize_mod, encSize_up, encSize_upmod, encRm_div, encRm_mod, decReg_encReg, decFin_val, encMark_one, decSize_encSize, decRm_encRm, decCond_encCond, decScope_encScope, decAmoOp_encAmoOp, ofNat_toNat_self, F.major, F.fd, F.fa, F.fi, F.fhi, F.flo, F.fsz, F.fdisp]

theorem andi (d a : Reg) (imm : BitVec 12) : Statement (.andi d a imm) := by
  refine native4 _ rfl rfl fun hw rest => ?_
  exact round_I _ rest 0x03 (encReg d) (encReg a) imm.toNat (by decide) (encReg_lt d) (encReg_lt a) (by have := imm.isLt; omega) hw fun w F => by
    simp [decAShort, rDab, rDa, rAb, rA, rNa, rNab, rDas, rNone, iDa, iShift, iField, mSized, mForm, guardSome, encSize_div, encSize_mod, encSize_up, encSize_upmod, encRm_div, encRm_mod, decReg_encReg, decFin_val, encMark_one, decSize_encSize, decRm_encRm, decCond_encCond, decScope_encScope, decAmoOp_encAmoOp, ofNat_toNat_self, F.major, F.fd, F.fa, F.fi, F.fhi, F.flo, F.fsz, F.fdisp]

theorem ori (d a : Reg) (imm : BitVec 12) : Statement (.ori d a imm) := by
  refine native4 _ rfl rfl fun hw rest => ?_
  exact round_I _ rest 0x04 (encReg d) (encReg a) imm.toNat (by decide) (encReg_lt d) (encReg_lt a) (by have := imm.isLt; omega) hw fun w F => by
    simp [decAShort, rDab, rDa, rAb, rA, rNa, rNab, rDas, rNone, iDa, iShift, iField, mSized, mForm, guardSome, encSize_div, encSize_mod, encSize_up, encSize_upmod, encRm_div, encRm_mod, decReg_encReg, decFin_val, encMark_one, decSize_encSize, decRm_encRm, decCond_encCond, decScope_encScope, decAmoOp_encAmoOp, ofNat_toNat_self, F.major, F.fd, F.fa, F.fi, F.fhi, F.flo, F.fsz, F.fdisp]

theorem xori (d a : Reg) (imm : BitVec 12) : Statement (.xori d a imm) := by
  refine native4 _ rfl rfl fun hw rest => ?_
  exact round_I _ rest 0x05 (encReg d) (encReg a) imm.toNat (by decide) (encReg_lt d) (encReg_lt a) (by have := imm.isLt; omega) hw fun w F => by
    simp [decAShort, rDab, rDa, rAb, rA, rNa, rNab, rDas, rNone, iDa, iShift, iField, mSized, mForm, guardSome, encSize_div, encSize_mod, encSize_up, encSize_upmod, encRm_div, encRm_mod, decReg_encReg, decFin_val, encMark_one, decSize_encSize, decRm_encRm, decCond_encCond, decScope_encScope, decAmoOp_encAmoOp, ofNat_toNat_self, F.major, F.fd, F.fa, F.fi, F.fhi, F.flo, F.fsz, F.fdisp]

theorem shli (d a : Reg) (n : BitVec 6) : Statement (.shli d a n) := by
  refine native4 _ rfl rfl fun hw rest => ?_
  exact round_I _ rest 0x06 (encReg d) (encReg a) n.toNat (by decide) (encReg_lt d) (encReg_lt a) (by have := n.isLt; omega) hw fun w F => by
    simp [decAShort, rDab, rDa, rAb, rA, rNa, rNab, rDas, rNone, iDa, iShift, iField, mSized, mForm, guardSome, encSize_div, encSize_mod, encSize_up, encSize_upmod, encRm_div, encRm_mod, decReg_encReg, decFin_val, encMark_one, decSize_encSize, decRm_encRm, decCond_encCond, decScope_encScope, decAmoOp_encAmoOp, ofNat_toNat_self, six_hi, six_lo, six_pair, F.major, F.fd, F.fa, F.fi, F.fhi, F.flo, F.fsz, F.fdisp]

theorem shri (d a : Reg) (n : BitVec 6) : Statement (.shri d a n) := by
  refine native4 _ rfl rfl fun hw rest => ?_
  exact round_I _ rest 0x07 (encReg d) (encReg a) n.toNat (by decide) (encReg_lt d) (encReg_lt a) (by have := n.isLt; omega) hw fun w F => by
    simp [decAShort, rDab, rDa, rAb, rA, rNa, rNab, rDas, rNone, iDa, iShift, iField, mSized, mForm, guardSome, encSize_div, encSize_mod, encSize_up, encSize_upmod, encRm_div, encRm_mod, decReg_encReg, decFin_val, encMark_one, decSize_encSize, decRm_encRm, decCond_encCond, decScope_encScope, decAmoOp_encAmoOp, ofNat_toNat_self, six_hi, six_lo, six_pair, F.major, F.fd, F.fa, F.fi, F.fhi, F.flo, F.fsz, F.fdisp]

theorem sari (d a : Reg) (n : BitVec 6) : Statement (.sari d a n) := by
  refine native4 _ rfl rfl fun hw rest => ?_
  exact round_I _ rest 0x08 (encReg d) (encReg a) n.toNat (by decide) (encReg_lt d) (encReg_lt a) (by have := n.isLt; omega) hw fun w F => by
    simp [decAShort, rDab, rDa, rAb, rA, rNa, rNab, rDas, rNone, iDa, iShift, iField, mSized, mForm, guardSome, encSize_div, encSize_mod, encSize_up, encSize_upmod, encRm_div, encRm_mod, decReg_encReg, decFin_val, encMark_one, decSize_encSize, decRm_encRm, decCond_encCond, decScope_encScope, decAmoOp_encAmoOp, ofNat_toNat_self, six_hi, six_lo, six_pair, F.major, F.fd, F.fa, F.fi, F.fhi, F.flo, F.fsz, F.fdisp]

theorem movi (d : Reg) (imm : BitVec 18) : Statement (.movi d imm) := by
  refine native4 _ rfl rfl fun hw rest => ?_
  have h1 := encReg_lt d
  have h2 := imm.isLt
  refine short_A _ _ rest (by omega) (by decide) _ hw ?_
  have hm : fld (0x09 * 2 ^ 24 + (encReg d * 2 ^ 18 + imm.toNat)) 24 6 = 9 := by simp only [fld]; omega
  have hd : fld (0x09 * 2 ^ 24 + (encReg d * 2 ^ 18 + imm.toNat)) 18 6 = encReg d := by simp only [fld]; omega
  have hi : fld (0x09 * 2 ^ 24 + (encReg d * 2 ^ 18 + imm.toNat)) 0 18 = imm.toNat := by simp only [fld]; omega
  simp only [decAShort, hm, hd, hi, decReg_encReg, ofNat_toNat_self, Option.map_some]

theorem bext (d a : Reg) (pos len : BitVec 6) : Statement (.bext d a pos len) := by
  refine native4 _ rfl rfl fun hw rest => ?_
  exact round_I _ rest 0x0A (encReg d) (encReg a) (pos.toNat * 2 ^ 6 + len.toNat) (by decide) (encReg_lt d) (encReg_lt a) (by have := pos.isLt; have := len.isLt; omega) hw fun w F => by
    simp [decAShort, rDab, rDa, rAb, rA, rNa, rNab, rDas, rNone, iDa, iShift, iField, mSized, mForm, guardSome, encSize_div, encSize_mod, encSize_up, encSize_upmod, encRm_div, encRm_mod, decReg_encReg, decFin_val, encMark_one, decSize_encSize, decRm_encRm, decCond_encCond, decScope_encScope, decAmoOp_encAmoOp, ofNat_toNat_self, six_hi, six_lo, six_pair, F.major, F.fd, F.fa, F.fi, F.fhi, F.flo, F.fsz, F.fdisp]

theorem bins (d a : Reg) (pos len : BitVec 6) : Statement (.bins d a pos len) := by
  refine native4 _ rfl rfl fun hw rest => ?_
  exact round_I _ rest 0x0B (encReg d) (encReg a) (pos.toNat * 2 ^ 6 + len.toNat) (by decide) (encReg_lt d) (encReg_lt a) (by have := pos.isLt; have := len.isLt; omega) hw fun w F => by
    simp [decAShort, rDab, rDa, rAb, rA, rNa, rNab, rDas, rNone, iDa, iShift, iField, mSized, mForm, guardSome, encSize_div, encSize_mod, encSize_up, encSize_upmod, encRm_div, encRm_mod, decReg_encReg, decFin_val, encMark_one, decSize_encSize, decRm_encRm, decCond_encCond, decScope_encScope, decAmoOp_encAmoOp, ofNat_toNat_self, six_hi, six_lo, six_pair, F.major, F.fd, F.fa, F.fi, F.fhi, F.flo, F.fsz, F.fdisp]

theorem muli (d a : Reg) (imm : BitVec 12) : Statement (.muli d a imm) := by
  refine native4 _ rfl rfl fun hw rest => ?_
  exact round_I _ rest 0x0C (encReg d) (encReg a) imm.toNat (by decide) (encReg_lt d) (encReg_lt a) (by have := imm.isLt; omega) hw fun w F => by
    simp [decAShort, rDab, rDa, rAb, rA, rNa, rNab, rDas, rNone, iDa, iShift, iField, mSized, mForm, guardSome, encSize_div, encSize_mod, encSize_up, encSize_upmod, encRm_div, encRm_mod, decReg_encReg, decFin_val, encMark_one, decSize_encSize, decRm_encRm, decCond_encCond, decScope_encScope, decAmoOp_encAmoOp, ofNat_toNat_self, F.major, F.fd, F.fa, F.fi, F.fhi, F.flo, F.fsz, F.fdisp]

theorem csk (n : Fin 4) (c : Cond) (a b : Reg) : Statement (.csk n c a b) := by
  refine native4 _ rfl rfl fun hw rest => ?_
  have b0 := n.isLt
  have b1 := encCond_lt c
  have b2 := encReg_lt a
  have b3 := encReg_lt b
  refine short_A _ _ rest (by omega) (by decide) _ hw ?_
  generalize hn : 0x10 * 2 ^ 24 + (n.val * 2 ^ 22 + encCond c * 2 ^ 18 + encReg a * 2 ^ 12 + encReg b * 2 ^ 6) = m
  have f0 : fld m 24 6 = 16 := by simp only [fld]; omega
  have f1 : fld m 0 6 = 0 := by simp only [fld]; omega
  have f2 : fld m 22 2 = n.val := by simp only [fld]; omega
  have f3 : fld m 18 4 = encCond c := by simp only [fld]; omega
  have f4 : fld m 12 6 = encReg a := by simp only [fld]; omega
  have f5 : fld m 6 6 = encReg b := by simp only [fld]; omega
  simp [decAShort, f0, f1, f2, f3, f4, f5, decCsk, guardSome, decFin_val, decCond_encCond, decReg_encReg]

theorem cski (n : Fin 4) (c : Cond) (a : Reg) (imm : BitVec 12) : Statement (.cski n c a imm) := by
  refine native4 _ rfl rfl fun hw rest => ?_
  have b0 := n.isLt
  have b1 := encCond_lt c
  have b2 := encReg_lt a
  have b3 := imm.isLt
  refine short_A _ _ rest (by omega) (by decide) _ hw ?_
  generalize hn : 0x11 * 2 ^ 24 + (n.val * 2 ^ 22 + encCond c * 2 ^ 18 + encReg a * 2 ^ 12 + imm.toNat) = m
  have f0 : fld m 24 6 = 17 := by simp only [fld]; omega
  have f1 : fld m 22 2 = n.val := by simp only [fld]; omega
  have f2 : fld m 18 4 = encCond c := by simp only [fld]; omega
  have f3 : fld m 12 6 = encReg a := by simp only [fld]; omega
  have f4 : fld m 0 12 = imm.toNat := by simp only [fld]; omega
  simp [decAShort, f0, f1, f2, f3, f4, decCski, decFin_val, decCond_encCond, decReg_encReg]

theorem br (off : BitVec 24) : Statement (.br off) := by
  refine native4 _ rfl rfl fun hw rest => ?_
  have b0 := off.isLt
  refine short_A _ _ rest (by omega) (by decide) _ hw ?_
  generalize hn : 0x14 * 2 ^ 24 + (off.toNat) = m
  have f0 : fld m 24 6 = 20 := by simp only [fld]; omega
  have f1 : fld m 0 24 = off.toNat := by simp only [fld]; omega
  simp [decAShort, f0, f1, ofNat_toNat_self]

theorem brl (off : BitVec 24) : Statement (.brl off) := by
  refine native4 _ rfl rfl fun hw rest => ?_
  have b0 := off.isLt
  refine short_A _ _ rest (by omega) (by decide) _ hw ?_
  generalize hn : 0x15 * 2 ^ 24 + (off.toNat) = m
  have f0 : fld m 24 6 = 21 := by simp only [fld]; omega
  have f1 : fld m 0 24 = off.toNat := by simp only [fld]; omega
  simp [decAShort, f0, f1, ofNat_toNat_self]

theorem jmp (a : Reg) (ma : Bool) : Statement (.jmp a ma) := by
  refine native4 _ rfl rfl fun hw rest => ?_
  exact round_R _ rest 0x16 0 (encReg a) 0 0 (encMark ma) 0 (by decide) (by decide) (by have := encReg_lt a; omega) (by decide) (by decide) (by have := encMark_lt ma; omega) (by decide) hw fun w F => by
    simp [decAShort, decJump, decMarks_a w ma F.fma, rDab, rDa, rAb, rA, rNa, rNab, rDas, rNone, iDa, iShift, iField, mSized, mForm, guardSome, encSize_div, encSize_mod, encSize_up, encSize_upmod, encRm_div, encRm_mod, decReg_encReg, decFin_val, encMark_one, decSize_encSize, decRm_encRm, decCond_encCond, decScope_encScope, decAmoOp_encAmoOp, ofNat_toNat_self, F.major, F.fd, F.fa, F.fb, F.ffn, F.fma, F.fmb, F.fm, F.fnhi, F.fnlo, F.fab, F.fdab]

theorem jmpl (a : Reg) (ma : Bool) : Statement (.jmpl a ma) := by
  refine native4 _ rfl rfl fun hw rest => ?_
  exact round_R _ rest 0x16 0 (encReg a) 0 1 (encMark ma) 0 (by decide) (by decide) (by have := encReg_lt a; omega) (by decide) (by decide) (by have := encMark_lt ma; omega) (by decide) hw fun w F => by
    simp [decAShort, decJump, decMarks_a w ma F.fma, rDab, rDa, rAb, rA, rNa, rNab, rDas, rNone, iDa, iShift, iField, mSized, mForm, guardSome, encSize_div, encSize_mod, encSize_up, encSize_upmod, encRm_div, encRm_mod, decReg_encReg, decFin_val, encMark_one, decSize_encSize, decRm_encRm, decCond_encCond, decScope_encScope, decAmoOp_encAmoOp, ofNat_toNat_self, F.major, F.fd, F.fa, F.fb, F.ffn, F.fma, F.fmb, F.fm, F.fnhi, F.fnlo, F.fab, F.fdab]

theorem ret : Statement (.ret) := by
  refine native4 _ rfl rfl fun hw rest => ?_
  exact round_R _ rest 0x16 0 0 0 2 0 0 (by decide) (by decide) (by decide) (by decide) (by decide) (by decide) (by decide) hw fun w F => by
    simp [decAShort, decJump, rDab, rDa, rAb, rA, rNa, rNab, rDas, rNone, iDa, iShift, iField, mSized, mForm, guardSome, encSize_div, encSize_mod, encSize_up, encSize_upmod, encRm_div, encRm_mod, decReg_encReg, decFin_val, encMark_one, decSize_encSize, decRm_encRm, decCond_encCond, decScope_encScope, decAmoOp_encAmoOp, ofNat_toNat_self, F.major, F.fd, F.fa, F.fb, F.ffn, F.fma, F.fmb, F.fm, F.fnhi, F.fnlo, F.fab, F.fdab]

theorem ld (d b : Reg) (sz : Size) (disp : BitVec 10) : Statement (.ld d b sz disp) := by
  refine native4 _ rfl rfl fun hw rest => ?_
  exact round_M _ rest 0x18 (encReg d) (encSize sz) b disp (by decide) (by have := encReg_lt d; omega) (by have := encSize_lt sz; omega) hw fun w F => by
    simp [decAShort, rDab, rDa, rAb, rA, rNa, rNab, rDas, rNone, iDa, iShift, iField, mSized, mForm, guardSome, encSize_div, encSize_mod, encSize_up, encSize_upmod, encRm_div, encRm_mod, decReg_encReg, decFin_val, encMark_one, decSize_encSize, decRm_encRm, decCond_encCond, decScope_encScope, decAmoOp_encAmoOp, ofNat_toNat_self, F.major, F.fd, F.fb, F.fsz, F.fdisp]

theorem lds (d b : Reg) (sz : Size) (disp : BitVec 10) : Statement (.lds d b sz disp) := by
  refine native4 _ rfl rfl fun hw rest => ?_
  exact round_M _ rest 0x19 (encReg d) (encSize sz) b disp (by decide) (by have := encReg_lt d; omega) (by have := encSize_lt sz; omega) hw fun w F => by
    simp [decAShort, rDab, rDa, rAb, rA, rNa, rNab, rDas, rNone, iDa, iShift, iField, mSized, mForm, guardSome, encSize_div, encSize_mod, encSize_up, encSize_upmod, encRm_div, encRm_mod, decReg_encReg, decFin_val, encMark_one, decSize_encSize, decRm_encRm, decCond_encCond, decScope_encScope, decAmoOp_encAmoOp, ofNat_toNat_self, F.major, F.fd, F.fb, F.fsz, F.fdisp]

theorem st (d b : Reg) (sz : Size) (disp : BitVec 10) : Statement (.st d b sz disp) := by
  refine native4 _ rfl rfl fun hw rest => ?_
  exact round_M _ rest 0x1A (encReg d) (encSize sz) b disp (by decide) (by have := encReg_lt d; omega) (by have := encSize_lt sz; omega) hw fun w F => by
    simp [decAShort, rDab, rDa, rAb, rA, rNa, rNab, rDas, rNone, iDa, iShift, iField, mSized, mForm, guardSome, encSize_div, encSize_mod, encSize_up, encSize_upmod, encRm_div, encRm_mod, decReg_encReg, decFin_val, encMark_one, decSize_encSize, decRm_encRm, decCond_encCond, decScope_encScope, decAmoOp_encAmoOp, ofNat_toNat_self, F.major, F.fd, F.fb, F.fsz, F.fdisp]

theorem lda (d b : Reg) (sz : Size) (disp : BitVec 10) : Statement (.lda d b sz disp) := by
  refine native4 _ rfl rfl fun hw rest => ?_
  exact round_M _ rest 0x1B (encReg d) (encSize sz) b disp (by decide) (by have := encReg_lt d; omega) (by have := encSize_lt sz; omega) hw fun w F => by
    simp [decAShort, rDab, rDa, rAb, rA, rNa, rNab, rDas, rNone, iDa, iShift, iField, mSized, mForm, guardSome, encSize_div, encSize_mod, encSize_up, encSize_upmod, encRm_div, encRm_mod, decReg_encReg, decFin_val, encMark_one, decSize_encSize, decRm_encRm, decCond_encCond, decScope_encScope, decAmoOp_encAmoOp, ofNat_toNat_self, F.major, F.fd, F.fb, F.fsz, F.fdisp]

theorem stl (d b : Reg) (sz : Size) (disp : BitVec 10) : Statement (.stl d b sz disp) := by
  refine native4 _ rfl rfl fun hw rest => ?_
  exact round_M _ rest 0x1C (encReg d) (encSize sz) b disp (by decide) (by have := encReg_lt d; omega) (by have := encSize_lt sz; omega) hw fun w F => by
    simp [decAShort, rDab, rDa, rAb, rA, rNa, rNab, rDas, rNone, iDa, iShift, iField, mSized, mForm, guardSome, encSize_div, encSize_mod, encSize_up, encSize_upmod, encRm_div, encRm_mod, decReg_encReg, decFin_val, encMark_one, decSize_encSize, decRm_encRm, decCond_encCond, decScope_encScope, decAmoOp_encAmoOp, ofNat_toNat_self, F.major, F.fd, F.fb, F.fsz, F.fdisp]

theorem ldx (d a b : Reg) (sz : Size) (m : Marks) : Statement (.ldx d a b sz m) := by
  refine native4 _ rfl rfl fun hw rest => ?_
  exact round_R _ rest 0x1D (encReg d) (encReg a) (encReg b) (encSize sz) (encMark m.a) (encMark m.b) (by decide) (by have := encReg_lt d; omega) (by have := encReg_lt a; omega) (by have := encReg_lt b; omega) (by have := encSize_lt sz; omega) (by have := encMark_lt m.a; omega) (by have := encMark_lt m.b; omega) hw fun w F => by
    simp [decAShort, decLdx, decMarks_of w m F.fma F.fmb, rDab, rDa, rAb, rA, rNa, rNab, rDas, rNone, iDa, iShift, iField, mSized, mForm, guardSome, encSize_div, encSize_mod, encSize_up, encSize_upmod, encRm_div, encRm_mod, decReg_encReg, decFin_val, encMark_one, decSize_encSize, decRm_encRm, decCond_encCond, decScope_encScope, decAmoOp_encAmoOp, ofNat_toNat_self, F.major, F.fd, F.fa, F.fb, F.ffn, F.fma, F.fmb, F.fm, F.fnhi, F.fnlo, F.fab, F.fdab]

theorem ldxS (d a b : Reg) (sz : Size) (m : Marks) : Statement (.ldxS d a b sz m) := by
  refine native4 _ rfl rfl fun hw rest => ?_
  exact round_R _ rest 0x1D (encReg d) (encReg a) (encReg b) (4 + encSize sz) (encMark m.a) (encMark m.b) (by decide) (by have := encReg_lt d; omega) (by have := encReg_lt a; omega) (by have := encReg_lt b; omega) (by have := encSize_lt sz; omega) (by have := encMark_lt m.a; omega) (by have := encMark_lt m.b; omega) hw fun w F => by
    simp [decAShort, decLdx, decMarks_of w m F.fma F.fmb, rDab, rDa, rAb, rA, rNa, rNab, rDas, rNone, iDa, iShift, iField, mSized, mForm, guardSome, encSize_div, encSize_mod, encSize_up, encSize_upmod, encRm_div, encRm_mod, decReg_encReg, decFin_val, encMark_one, decSize_encSize, decRm_encRm, decCond_encCond, decScope_encScope, decAmoOp_encAmoOp, ofNat_toNat_self, F.major, F.fd, F.fa, F.fb, F.ffn, F.fma, F.fmb, F.fm, F.fnhi, F.fnlo, F.fab, F.fdab]

theorem stx (d a b : Reg) (sz : Size) (m : Marks) : Statement (.stx d a b sz m) := by
  refine native4 _ rfl rfl fun hw rest => ?_
  exact round_R _ rest 0x1E (encReg d) (encReg a) (encReg b) (encSize sz) (encMark m.a) (encMark m.b) (by decide) (by have := encReg_lt d; omega) (by have := encReg_lt a; omega) (by have := encReg_lt b; omega) (by have := encSize_lt sz; omega) (by have := encMark_lt m.a; omega) (by have := encMark_lt m.b; omega) hw fun w F => by
    simp [decAShort, decStx, decMarks_of w m F.fma F.fmb, rDab, rDa, rAb, rA, rNa, rNab, rDas, rNone, iDa, iShift, iField, mSized, mForm, guardSome, encSize_div, encSize_mod, encSize_up, encSize_upmod, encRm_div, encRm_mod, decReg_encReg, decFin_val, encMark_one, decSize_encSize, decRm_encRm, decCond_encCond, decScope_encScope, decAmoOp_encAmoOp, ofNat_toNat_self, F.major, F.fd, F.fa, F.fb, F.ffn, F.fma, F.fmb, F.fm, F.fnhi, F.fnlo, F.fab, F.fdab]

theorem mpeek (d b : Reg) (disp : BitVec 10) : Statement (.mpeek d b disp) := by
  refine native4 _ rfl rfl fun hw rest => ?_
  exact round_M _ rest 0x20 (encReg d) 0 b disp (by decide) (by have := encReg_lt d; omega) (by decide) hw fun w F => by
    simp [decAShort, decFullEmpty, rDab, rDa, rAb, rA, rNa, rNab, rDas, rNone, iDa, iShift, iField, mSized, mForm, guardSome, encSize_div, encSize_mod, encSize_up, encSize_upmod, encRm_div, encRm_mod, decReg_encReg, decFin_val, encMark_one, decSize_encSize, decRm_encRm, decCond_encCond, decScope_encScope, decAmoOp_encAmoOp, ofNat_toNat_self, F.major, F.fd, F.fb, F.fsz, F.fdisp]

theorem mtake (d b : Reg) (disp : BitVec 10) : Statement (.mtake d b disp) := by
  refine native4 _ rfl rfl fun hw rest => ?_
  exact round_M _ rest 0x20 (encReg d) 1 b disp (by decide) (by have := encReg_lt d; omega) (by decide) hw fun w F => by
    simp [decAShort, decFullEmpty, rDab, rDa, rAb, rA, rNa, rNab, rDas, rNone, iDa, iShift, iField, mSized, mForm, guardSome, encSize_div, encSize_mod, encSize_up, encSize_upmod, encRm_div, encRm_mod, decReg_encReg, decFin_val, encMark_one, decSize_encSize, decRm_encRm, decCond_encCond, decScope_encScope, decAmoOp_encAmoOp, ofNat_toNat_self, F.major, F.fd, F.fb, F.fsz, F.fdisp]

theorem mput (d b : Reg) (disp : BitVec 10) : Statement (.mput d b disp) := by
  refine native4 _ rfl rfl fun hw rest => ?_
  exact round_M _ rest 0x20 (encReg d) 2 b disp (by decide) (by have := encReg_lt d; omega) (by decide) hw fun w F => by
    simp [decAShort, decFullEmpty, rDab, rDa, rAb, rA, rNa, rNab, rDas, rNone, iDa, iShift, iField, mSized, mForm, guardSome, encSize_div, encSize_mod, encSize_up, encSize_upmod, encRm_div, encRm_mod, decReg_encReg, decFin_val, encMark_one, decSize_encSize, decRm_encRm, decCond_encCond, decScope_encScope, decAmoOp_encAmoOp, ofNat_toNat_self, F.major, F.fd, F.fb, F.fsz, F.fdisp]

theorem mfill (d b : Reg) (disp : BitVec 10) : Statement (.mfill d b disp) := by
  refine native4 _ rfl rfl fun hw rest => ?_
  exact round_M _ rest 0x20 (encReg d) 3 b disp (by decide) (by have := encReg_lt d; omega) (by decide) hw fun w F => by
    simp [decAShort, decFullEmpty, rDab, rDa, rAb, rA, rNa, rNab, rDas, rNone, iDa, iShift, iField, mSized, mForm, guardSome, encSize_div, encSize_mod, encSize_up, encSize_upmod, encRm_div, encRm_mod, decReg_encReg, decFin_val, encMark_one, decSize_encSize, decRm_encRm, decCond_encCond, decScope_encScope, decAmoOp_encAmoOp, ofNat_toNat_self, F.major, F.fd, F.fb, F.fsz, F.fdisp]

theorem mdrain (b : Reg) (disp : BitVec 10) : Statement (.mdrain b disp) := by
  refine native4 _ rfl rfl fun hw rest => ?_
  exact round_M _ rest 0x21 0 0 b disp (by decide) (by decide) (by decide) hw fun w F => by
    simp [decAShort, decDrain, rDab, rDa, rAb, rA, rNa, rNab, rDas, rNone, iDa, iShift, iField, mSized, mForm, guardSome, encSize_div, encSize_mod, encSize_up, encSize_upmod, encRm_div, encRm_mod, decReg_encReg, decFin_val, encMark_one, decSize_encSize, decRm_encRm, decCond_encCond, decScope_encScope, decAmoOp_encAmoOp, ofNat_toNat_self, F.major, F.fd, F.fb, F.fsz, F.fdisp]

theorem mstate (d b : Reg) (disp : BitVec 10) : Statement (.mstate d b disp) := by
  refine native4 _ rfl rfl fun hw rest => ?_
  exact round_M _ rest 0x21 (encReg d) 1 b disp (by decide) (by have := encReg_lt d; omega) (by decide) hw fun w F => by
    simp [decAShort, decDrain, rDab, rDa, rAb, rA, rNa, rNab, rDas, rNone, iDa, iShift, iField, mSized, mForm, guardSome, encSize_div, encSize_mod, encSize_up, encSize_upmod, encRm_div, encRm_mod, decReg_encReg, decFin_val, encMark_one, decSize_encSize, decRm_encRm, decCond_encCond, decScope_encScope, decAmoOp_encAmoOp, ofNat_toNat_self, F.major, F.fd, F.fb, F.fsz, F.fdisp]

theorem lrw (d b : Reg) (disp : BitVec 10) : Statement (.lrw d b disp) := by
  refine native4 _ rfl rfl fun hw rest => ?_
  exact round_M _ rest 0x22 (encReg d) 3 b disp (by decide) (by have := encReg_lt d; omega) (by decide) hw fun w F => by
    simp [decAShort, decLrw, rDab, rDa, rAb, rA, rNa, rNab, rDas, rNone, iDa, iShift, iField, mSized, mForm, guardSome, encSize_div, encSize_mod, encSize_up, encSize_upmod, encRm_div, encRm_mod, decReg_encReg, decFin_val, encMark_one, decSize_encSize, decRm_encRm, decCond_encCond, decScope_encScope, decAmoOp_encAmoOp, ofNat_toNat_self, F.major, F.fd, F.fb, F.fsz, F.fdisp]

theorem sch (d a b : Reg) (m : Marks) : Statement (.sch d a b m) := by
  refine native4 _ rfl rfl fun hw rest => ?_
  exact round_R _ rest 0x23 (encReg d) (encReg a) (encReg b) 0 (encMark m.a) (encMark m.b) (by decide) (by have := encReg_lt d; omega) (by have := encReg_lt a; omega) (by have := encReg_lt b; omega) (by decide) (by have := encMark_lt m.a; omega) (by have := encMark_lt m.b; omega) hw fun w F => by
    simp [decAShort, decMarks_of w m F.fma F.fmb, rDab, rDa, rAb, rA, rNa, rNab, rDas, rNone, iDa, iShift, iField, mSized, mForm, guardSome, encSize_div, encSize_mod, encSize_up, encSize_upmod, encRm_div, encRm_mod, decReg_encReg, decFin_val, encMark_one, decSize_encSize, decRm_encRm, decCond_encCond, decScope_encScope, decAmoOp_encAmoOp, ofNat_toNat_self, F.major, F.fd, F.fa, F.fb, F.ffn, F.fma, F.fmb, F.fm, F.fnhi, F.fnlo, F.fab, F.fdab]

theorem amoAdd (d a b : Reg) (m : Marks) : Statement (.amoAdd d a b m) := by
  refine native4 _ rfl rfl fun hw rest => ?_
  exact round_R _ rest 0x24 (encReg d) (encReg a) (encReg b) 0 (encMark m.a) (encMark m.b) (by decide) (by have := encReg_lt d; omega) (by have := encReg_lt a; omega) (by have := encReg_lt b; omega) (by decide) (by have := encMark_lt m.a; omega) (by have := encMark_lt m.b; omega) hw fun w F => by
    simp [decAShort, decAmo, decMarks_of w m F.fma F.fmb, rDab, rDa, rAb, rA, rNa, rNab, rDas, rNone, iDa, iShift, iField, mSized, mForm, guardSome, encSize_div, encSize_mod, encSize_up, encSize_upmod, encRm_div, encRm_mod, decReg_encReg, decFin_val, encMark_one, decSize_encSize, decRm_encRm, decCond_encCond, decScope_encScope, decAmoOp_encAmoOp, ofNat_toNat_self, F.major, F.fd, F.fa, F.fb, F.ffn, F.fma, F.fmb, F.fm, F.fnhi, F.fnlo, F.fab, F.fdab]

theorem amoMin (d a b : Reg) (m : Marks) : Statement (.amoMin d a b m) := by
  refine native4 _ rfl rfl fun hw rest => ?_
  exact round_R _ rest 0x24 (encReg d) (encReg a) (encReg b) 1 (encMark m.a) (encMark m.b) (by decide) (by have := encReg_lt d; omega) (by have := encReg_lt a; omega) (by have := encReg_lt b; omega) (by decide) (by have := encMark_lt m.a; omega) (by have := encMark_lt m.b; omega) hw fun w F => by
    simp [decAShort, decAmo, decMarks_of w m F.fma F.fmb, rDab, rDa, rAb, rA, rNa, rNab, rDas, rNone, iDa, iShift, iField, mSized, mForm, guardSome, encSize_div, encSize_mod, encSize_up, encSize_upmod, encRm_div, encRm_mod, decReg_encReg, decFin_val, encMark_one, decSize_encSize, decRm_encRm, decCond_encCond, decScope_encScope, decAmoOp_encAmoOp, ofNat_toNat_self, F.major, F.fd, F.fa, F.fb, F.ffn, F.fma, F.fmb, F.fm, F.fnhi, F.fnlo, F.fab, F.fdab]

theorem amoMax (d a b : Reg) (m : Marks) : Statement (.amoMax d a b m) := by
  refine native4 _ rfl rfl fun hw rest => ?_
  exact round_R _ rest 0x24 (encReg d) (encReg a) (encReg b) 2 (encMark m.a) (encMark m.b) (by decide) (by have := encReg_lt d; omega) (by have := encReg_lt a; omega) (by have := encReg_lt b; omega) (by decide) (by have := encMark_lt m.a; omega) (by have := encMark_lt m.b; omega) hw fun w F => by
    simp [decAShort, decAmo, decMarks_of w m F.fma F.fmb, rDab, rDa, rAb, rA, rNa, rNab, rDas, rNone, iDa, iShift, iField, mSized, mForm, guardSome, encSize_div, encSize_mod, encSize_up, encSize_upmod, encRm_div, encRm_mod, decReg_encReg, decFin_val, encMark_one, decSize_encSize, decRm_encRm, decCond_encCond, decScope_encScope, decAmoOp_encAmoOp, ofNat_toNat_self, F.major, F.fd, F.fa, F.fb, F.ffn, F.fma, F.fmb, F.fm, F.fnhi, F.fnlo, F.fab, F.fdab]

theorem amoMinn (d a b : Reg) (m : Marks) : Statement (.amoMinn d a b m) := by
  refine native4 _ rfl rfl fun hw rest => ?_
  exact round_R _ rest 0x24 (encReg d) (encReg a) (encReg b) 3 (encMark m.a) (encMark m.b) (by decide) (by have := encReg_lt d; omega) (by have := encReg_lt a; omega) (by have := encReg_lt b; omega) (by decide) (by have := encMark_lt m.a; omega) (by have := encMark_lt m.b; omega) hw fun w F => by
    simp [decAShort, decAmo, decMarks_of w m F.fma F.fmb, rDab, rDa, rAb, rA, rNa, rNab, rDas, rNone, iDa, iShift, iField, mSized, mForm, guardSome, encSize_div, encSize_mod, encSize_up, encSize_upmod, encRm_div, encRm_mod, decReg_encReg, decFin_val, encMark_one, decSize_encSize, decRm_encRm, decCond_encCond, decScope_encScope, decAmoOp_encAmoOp, ofNat_toNat_self, F.major, F.fd, F.fa, F.fb, F.ffn, F.fma, F.fmb, F.fm, F.fnhi, F.fnlo, F.fab, F.fdab]

theorem amoMaxn (d a b : Reg) (m : Marks) : Statement (.amoMaxn d a b m) := by
  refine native4 _ rfl rfl fun hw rest => ?_
  exact round_R _ rest 0x24 (encReg d) (encReg a) (encReg b) 4 (encMark m.a) (encMark m.b) (by decide) (by have := encReg_lt d; omega) (by have := encReg_lt a; omega) (by have := encReg_lt b; omega) (by decide) (by have := encMark_lt m.a; omega) (by have := encMark_lt m.b; omega) hw fun w F => by
    simp [decAShort, decAmo, decMarks_of w m F.fma F.fmb, rDab, rDa, rAb, rA, rNa, rNab, rDas, rNone, iDa, iShift, iField, mSized, mForm, guardSome, encSize_div, encSize_mod, encSize_up, encSize_upmod, encRm_div, encRm_mod, decReg_encReg, decFin_val, encMark_one, decSize_encSize, decRm_encRm, decCond_encCond, decScope_encScope, decAmoOp_encAmoOp, ofNat_toNat_self, F.major, F.fd, F.fa, F.fb, F.ffn, F.fma, F.fmb, F.fm, F.fnhi, F.fnlo, F.fab, F.fdab]

theorem amoAnd (d a b : Reg) (m : Marks) : Statement (.amoAnd d a b m) := by
  refine native4 _ rfl rfl fun hw rest => ?_
  exact round_R _ rest 0x24 (encReg d) (encReg a) (encReg b) 5 (encMark m.a) (encMark m.b) (by decide) (by have := encReg_lt d; omega) (by have := encReg_lt a; omega) (by have := encReg_lt b; omega) (by decide) (by have := encMark_lt m.a; omega) (by have := encMark_lt m.b; omega) hw fun w F => by
    simp [decAShort, decAmo, decMarks_of w m F.fma F.fmb, rDab, rDa, rAb, rA, rNa, rNab, rDas, rNone, iDa, iShift, iField, mSized, mForm, guardSome, encSize_div, encSize_mod, encSize_up, encSize_upmod, encRm_div, encRm_mod, decReg_encReg, decFin_val, encMark_one, decSize_encSize, decRm_encRm, decCond_encCond, decScope_encScope, decAmoOp_encAmoOp, ofNat_toNat_self, F.major, F.fd, F.fa, F.fb, F.ffn, F.fma, F.fmb, F.fm, F.fnhi, F.fnlo, F.fab, F.fdab]

theorem amoOr (d a b : Reg) (m : Marks) : Statement (.amoOr d a b m) := by
  refine native4 _ rfl rfl fun hw rest => ?_
  exact round_R _ rest 0x24 (encReg d) (encReg a) (encReg b) 6 (encMark m.a) (encMark m.b) (by decide) (by have := encReg_lt d; omega) (by have := encReg_lt a; omega) (by have := encReg_lt b; omega) (by decide) (by have := encMark_lt m.a; omega) (by have := encMark_lt m.b; omega) hw fun w F => by
    simp [decAShort, decAmo, decMarks_of w m F.fma F.fmb, rDab, rDa, rAb, rA, rNa, rNab, rDas, rNone, iDa, iShift, iField, mSized, mForm, guardSome, encSize_div, encSize_mod, encSize_up, encSize_upmod, encRm_div, encRm_mod, decReg_encReg, decFin_val, encMark_one, decSize_encSize, decRm_encRm, decCond_encCond, decScope_encScope, decAmoOp_encAmoOp, ofNat_toNat_self, F.major, F.fd, F.fa, F.fb, F.ffn, F.fma, F.fmb, F.fm, F.fnhi, F.fnlo, F.fab, F.fdab]

theorem amoXor (d a b : Reg) (m : Marks) : Statement (.amoXor d a b m) := by
  refine native4 _ rfl rfl fun hw rest => ?_
  exact round_R _ rest 0x24 (encReg d) (encReg a) (encReg b) 7 (encMark m.a) (encMark m.b) (by decide) (by have := encReg_lt d; omega) (by have := encReg_lt a; omega) (by have := encReg_lt b; omega) (by decide) (by have := encMark_lt m.a; omega) (by have := encMark_lt m.b; omega) hw fun w F => by
    simp [decAShort, decAmo, decMarks_of w m F.fma F.fmb, rDab, rDa, rAb, rA, rNa, rNab, rDas, rNone, iDa, iShift, iField, mSized, mForm, guardSome, encSize_div, encSize_mod, encSize_up, encSize_upmod, encRm_div, encRm_mod, decReg_encReg, decFin_val, encMark_one, decSize_encSize, decRm_encRm, decCond_encCond, decScope_encScope, decAmoOp_encAmoOp, ofNat_toNat_self, F.major, F.fd, F.fa, F.fb, F.ffn, F.fma, F.fmb, F.fm, F.fnhi, F.fnlo, F.fab, F.fdab]

theorem amoSwap (d a b : Reg) (m : Marks) : Statement (.amoSwap d a b m) := by
  refine native4 _ rfl rfl fun hw rest => ?_
  exact round_R _ rest 0x24 (encReg d) (encReg a) (encReg b) 8 (encMark m.a) (encMark m.b) (by decide) (by have := encReg_lt d; omega) (by have := encReg_lt a; omega) (by have := encReg_lt b; omega) (by decide) (by have := encMark_lt m.a; omega) (by have := encMark_lt m.b; omega) hw fun w F => by
    simp [decAShort, decAmo, decMarks_of w m F.fma F.fmb, rDab, rDa, rAb, rA, rNa, rNab, rDas, rNone, iDa, iShift, iField, mSized, mForm, guardSome, encSize_div, encSize_mod, encSize_up, encSize_upmod, encRm_div, encRm_mod, decReg_encReg, decFin_val, encMark_one, decSize_encSize, decRm_encRm, decCond_encCond, decScope_encScope, decAmoOp_encAmoOp, ofNat_toNat_self, F.major, F.fd, F.fa, F.fb, F.ffn, F.fma, F.fmb, F.fm, F.fnhi, F.fnlo, F.fab, F.fdab]

theorem amoFadd (d a b : Reg) (m : Marks) : Statement (.amoFadd d a b m) := by
  refine native4 _ rfl rfl fun hw rest => ?_
  exact round_R _ rest 0x24 (encReg d) (encReg a) (encReg b) 9 (encMark m.a) (encMark m.b) (by decide) (by have := encReg_lt d; omega) (by have := encReg_lt a; omega) (by have := encReg_lt b; omega) (by decide) (by have := encMark_lt m.a; omega) (by have := encMark_lt m.b; omega) hw fun w F => by
    simp [decAShort, decAmo, decMarks_of w m F.fma F.fmb, rDab, rDa, rAb, rA, rNa, rNab, rDas, rNone, iDa, iShift, iField, mSized, mForm, guardSome, encSize_div, encSize_mod, encSize_up, encSize_upmod, encRm_div, encRm_mod, decReg_encReg, decFin_val, encMark_one, decSize_encSize, decRm_encRm, decCond_encCond, decScope_encScope, decAmoOp_encAmoOp, ofNat_toNat_self, F.major, F.fd, F.fa, F.fb, F.ffn, F.fma, F.fmb, F.fm, F.fnhi, F.fnlo, F.fab, F.fdab]

theorem cas (d a b : Reg) (m : Marks) : Statement (.cas d a b m) := by
  refine native4 _ rfl rfl fun hw rest => ?_
  exact round_R _ rest 0x25 (encReg d) (encReg a) (encReg b) 0 (encMark m.a) (encMark m.b) (by decide) (by have := encReg_lt d; omega) (by have := encReg_lt a; omega) (by have := encReg_lt b; omega) (by decide) (by have := encMark_lt m.a; omega) (by have := encMark_lt m.b; omega) hw fun w F => by
    simp [decAShort, decMarks_of w m F.fma F.fmb, rDab, rDa, rAb, rA, rNa, rNab, rDas, rNone, iDa, iShift, iField, mSized, mForm, guardSome, encSize_div, encSize_mod, encSize_up, encSize_upmod, encRm_div, encRm_mod, decReg_encReg, decFin_val, encMark_one, decSize_encSize, decRm_encRm, decCond_encCond, decScope_encScope, decAmoOp_encAmoOp, ofNat_toNat_self, F.major, F.fd, F.fa, F.fb, F.ffn, F.fma, F.fmb, F.fm, F.fnhi, F.fnlo, F.fab, F.fdab]

theorem rupd (op : AmoOp) (a b : Reg) (m : Marks) : Statement (.rupd op a b m) := by
  refine native4 _ rfl rfl fun hw rest => ?_
  exact round_R _ rest 0x26 48 (encReg a) (encReg b) (encAmoOp op) (encMark m.a) (encMark m.b) (by decide) (by decide) (by have := encReg_lt a; omega) (by have := encReg_lt b; omega) (by have := encAmoOp_lt op; omega) (by have := encMark_lt m.a; omega) (by have := encMark_lt m.b; omega) hw fun w F => by
    simp [decAShort, decRupd, decMarks_of w m F.fma F.fmb, rDab, rDa, rAb, rA, rNa, rNab, rDas, rNone, iDa, iShift, iField, mSized, mForm, guardSome, encSize_div, encSize_mod, encSize_up, encSize_upmod, encRm_div, encRm_mod, decReg_encReg, decFin_val, encMark_one, decSize_encSize, decRm_encRm, decCond_encCond, decScope_encScope, decAmoOp_encAmoOp, ofNat_toNat_self, F.major, F.fd, F.fa, F.fb, F.ffn, F.fma, F.fmb, F.fm, F.fnhi, F.fnlo, F.fab, F.fdab]

theorem fenceAcq (sc : Scope) : Statement (.fenceAcq sc) := by
  refine native4 _ rfl rfl fun hw rest => ?_
  exact round_R _ rest 0x27 (encScope sc) 0 0 0 0 0 (by decide) (by have := encScope_lt sc; omega) (by decide) (by decide) (by decide) (by decide) (by decide) hw fun w F => by
    simp [decAShort, decFence, rDab, rDa, rAb, rA, rNa, rNab, rDas, rNone, iDa, iShift, iField, mSized, mForm, guardSome, encSize_div, encSize_mod, encSize_up, encSize_upmod, encRm_div, encRm_mod, decReg_encReg, decFin_val, encMark_one, decSize_encSize, decRm_encRm, decCond_encCond, decScope_encScope, decAmoOp_encAmoOp, ofNat_toNat_self, F.major, F.fd, F.fa, F.fb, F.ffn, F.fma, F.fmb, F.fm, F.fnhi, F.fnlo, F.fab, F.fdab]

theorem fenceRel (sc : Scope) : Statement (.fenceRel sc) := by
  refine native4 _ rfl rfl fun hw rest => ?_
  exact round_R _ rest 0x27 (encScope sc) 0 0 1 0 0 (by decide) (by have := encScope_lt sc; omega) (by decide) (by decide) (by decide) (by decide) (by decide) hw fun w F => by
    simp [decAShort, decFence, rDab, rDa, rAb, rA, rNa, rNab, rDas, rNone, iDa, iShift, iField, mSized, mForm, guardSome, encSize_div, encSize_mod, encSize_up, encSize_upmod, encRm_div, encRm_mod, decReg_encReg, decFin_val, encMark_one, decSize_encSize, decRm_encRm, decCond_encCond, decScope_encScope, decAmoOp_encAmoOp, ofNat_toNat_self, F.major, F.fd, F.fa, F.fb, F.ffn, F.fma, F.fmb, F.fm, F.fnhi, F.fnlo, F.fab, F.fdab]

theorem fenceFull (sc : Scope) : Statement (.fenceFull sc) := by
  refine native4 _ rfl rfl fun hw rest => ?_
  exact round_R _ rest 0x27 (encScope sc) 0 0 2 0 0 (by decide) (by have := encScope_lt sc; omega) (by decide) (by decide) (by decide) (by decide) (by decide) hw fun w F => by
    simp [decAShort, decFence, rDab, rDa, rAb, rA, rNa, rNab, rDas, rNone, iDa, iShift, iField, mSized, mForm, guardSome, encSize_div, encSize_mod, encSize_up, encSize_upmod, encRm_div, encRm_mod, decReg_encReg, decFin_val, encMark_one, decSize_encSize, decRm_encRm, decCond_encCond, decScope_encScope, decAmoOp_encAmoOp, ofNat_toNat_self, F.major, F.fd, F.fa, F.fb, F.ffn, F.fma, F.fmb, F.fm, F.fnhi, F.fnlo, F.fab, F.fdab]

theorem push (g : Fin 40) (q : Fin 8) : Statement (.push g q) := by
  refine native4 _ rfl rfl fun hw rest => ?_
  have b0 := g.isLt
  have b1 := q.isLt
  refine short_A _ _ rest (by omega) (by decide) _ hw ?_
  generalize hn : 0x28 * 2 ^ 24 + (g.val * 2 ^ 18 + q.val * 2 ^ 15) = m
  have f0 : fld m 24 6 = 40 := by simp only [fld]; omega
  have f1 : fld m 0 15 = 0 := by simp only [fld]; omega
  have f2 : fld m 18 6 = g.val := by simp only [fld]; omega
  have f3 : fld m 15 3 = q.val := by simp only [fld]; omega
  simp [decAShort, f0, f1, f2, f3, decQ, guardSome, decFin_val]

theorem pop (g : Fin 40) (q : Fin 8) : Statement (.pop g q) := by
  refine native4 _ rfl rfl fun hw rest => ?_
  have b0 := g.isLt
  have b1 := q.isLt
  refine short_A _ _ rest (by omega) (by decide) _ hw ?_
  generalize hn : 0x29 * 2 ^ 24 + (g.val * 2 ^ 18 + q.val * 2 ^ 15) = m
  have f0 : fld m 24 6 = 41 := by simp only [fld]; omega
  have f1 : fld m 0 15 = 0 := by simp only [fld]; omega
  have f2 : fld m 18 6 = g.val := by simp only [fld]; omega
  have f3 : fld m 15 3 = q.val := by simp only [fld]; omega
  simp [decAShort, f0, f1, f2, f3, decQ, guardSome, decFin_val]

theorem cpy (d a b : Reg) (m : Marks) : Statement (.cpy d a b m) := by
  refine native4 _ rfl rfl fun hw rest => ?_
  exact round_R _ rest 0x2A (encReg d) (encReg a) (encReg b) 0 (encMark m.a) (encMark m.b) (by decide) (by have := encReg_lt d; omega) (by have := encReg_lt a; omega) (by have := encReg_lt b; omega) (by decide) (by have := encMark_lt m.a; omega) (by have := encMark_lt m.b; omega) hw fun w F => by
    simp [decAShort, decCpy, decMarks_of w m F.fma F.fmb, rDab, rDa, rAb, rA, rNa, rNab, rDas, rNone, iDa, iShift, iField, mSized, mForm, guardSome, encSize_div, encSize_mod, encSize_up, encSize_upmod, encRm_div, encRm_mod, decReg_encReg, decFin_val, encMark_one, decSize_encSize, decRm_encRm, decCond_encCond, decScope_encScope, decAmoOp_encAmoOp, ofNat_toNat_self, F.major, F.fd, F.fa, F.fb, F.ffn, F.fma, F.fmb, F.fm, F.fnhi, F.fnlo, F.fab, F.fdab]

theorem cpyHdl (d a b : Reg) (m : Marks) : Statement (.cpyHdl d a b m) := by
  refine native4 _ rfl rfl fun hw rest => ?_
  exact round_R _ rest 0x2A (encReg d) (encReg a) (encReg b) 1 (encMark m.a) (encMark m.b) (by decide) (by have := encReg_lt d; omega) (by have := encReg_lt a; omega) (by have := encReg_lt b; omega) (by decide) (by have := encMark_lt m.a; omega) (by have := encMark_lt m.b; omega) hw fun w F => by
    simp [decAShort, decCpy, decMarks_of w m F.fma F.fmb, rDab, rDa, rAb, rA, rNa, rNab, rDas, rNone, iDa, iShift, iField, mSized, mForm, guardSome, encSize_div, encSize_mod, encSize_up, encSize_upmod, encRm_div, encRm_mod, decReg_encReg, decFin_val, encMark_one, decSize_encSize, decRm_encRm, decCond_encCond, decScope_encScope, decAmoOp_encAmoOp, ofNat_toNat_self, F.major, F.fd, F.fa, F.fb, F.ffn, F.fma, F.fmb, F.fm, F.fnhi, F.fnlo, F.fab, F.fdab]

theorem cpyTag (d a b : Reg) (m : Marks) : Statement (.cpyTag d a b m) := by
  refine native4 _ rfl rfl fun hw rest => ?_
  exact round_R _ rest 0x2A (encReg d) (encReg a) (encReg b) 2 (encMark m.a) (encMark m.b) (by decide) (by have := encReg_lt d; omega) (by have := encReg_lt a; omega) (by have := encReg_lt b; omega) (by decide) (by have := encMark_lt m.a; omega) (by have := encMark_lt m.b; omega) hw fun w F => by
    simp [decAShort, decCpy, decMarks_of w m F.fma F.fmb, rDab, rDa, rAb, rA, rNa, rNab, rDas, rNone, iDa, iShift, iField, mSized, mForm, guardSome, encSize_div, encSize_mod, encSize_up, encSize_upmod, encRm_div, encRm_mod, decReg_encReg, decFin_val, encMark_one, decSize_encSize, decRm_encRm, decCond_encCond, decScope_encScope, decAmoOp_encAmoOp, ofNat_toNat_self, F.major, F.fd, F.fa, F.fb, F.ffn, F.fma, F.fmb, F.fm, F.fnhi, F.fnlo, F.fab, F.fdab]

theorem waitt (a : Reg) (ma : Bool) : Statement (.waitt a ma) := by
  refine native4 _ rfl rfl fun hw rest => ?_
  exact round_R _ rest 0x2B 0 (encReg a) 0 0 (encMark ma) 0 (by decide) (by decide) (by have := encReg_lt a; omega) (by decide) (by decide) (by have := encMark_lt ma; omega) (by decide) hw fun w F => by
    simp [decAShort, decMarks_a w ma F.fma, rDab, rDa, rAb, rA, rNa, rNab, rDas, rNone, iDa, iShift, iField, mSized, mForm, guardSome, encSize_div, encSize_mod, encSize_up, encSize_upmod, encRm_div, encRm_mod, decReg_encReg, decFin_val, encMark_one, decSize_encSize, decRm_encRm, decCond_encCond, decScope_encScope, decAmoOp_encAmoOp, ofNat_toNat_self, F.major, F.fd, F.fa, F.fb, F.ffn, F.fma, F.fmb, F.fm, F.fnhi, F.fnlo, F.fab, F.fdab]

theorem psub (d a b : Reg) (m : Marks) : Statement (.psub d a b m) := by
  refine native4 _ rfl rfl fun hw rest => ?_
  exact round_R _ rest 0x2C (encReg d) (encReg a) (encReg b) 0 (encMark m.a) (encMark m.b) (by decide) (by have := encReg_lt d; omega) (by have := encReg_lt a; omega) (by have := encReg_lt b; omega) (by decide) (by have := encMark_lt m.a; omega) (by have := encMark_lt m.b; omega) hw fun w F => by
    simp [decAShort, decPump, decMarks_of w m F.fma F.fmb, rDab, rDa, rAb, rA, rNa, rNab, rDas, rNone, iDa, iShift, iField, mSized, mForm, guardSome, encSize_div, encSize_mod, encSize_up, encSize_upmod, encRm_div, encRm_mod, decReg_encReg, decFin_val, encMark_one, decSize_encSize, decRm_encRm, decCond_encCond, decScope_encScope, decAmoOp_encAmoOp, ofNat_toNat_self, F.major, F.fd, F.fa, F.fb, F.ffn, F.fma, F.fmb, F.fm, F.fnhi, F.fnlo, F.fab, F.fdab]

theorem pret (d a b : Reg) (m : Marks) : Statement (.pret d a b m) := by
  refine native4 _ rfl rfl fun hw rest => ?_
  exact round_R _ rest 0x2C (encReg d) (encReg a) (encReg b) 1 (encMark m.a) (encMark m.b) (by decide) (by have := encReg_lt d; omega) (by have := encReg_lt a; omega) (by have := encReg_lt b; omega) (by decide) (by have := encMark_lt m.a; omega) (by have := encMark_lt m.b; omega) hw fun w F => by
    simp [decAShort, decPump, decMarks_of w m F.fma F.fmb, rDab, rDa, rAb, rA, rNa, rNab, rDas, rNone, iDa, iShift, iField, mSized, mForm, guardSome, encSize_div, encSize_mod, encSize_up, encSize_upmod, encRm_div, encRm_mod, decReg_encReg, decFin_val, encMark_one, decSize_encSize, decRm_encRm, decCond_encCond, decScope_encScope, decAmoOp_encAmoOp, ofNat_toNat_self, F.major, F.fd, F.fa, F.fb, F.ffn, F.fma, F.fmb, F.fm, F.fnhi, F.fnlo, F.fab, F.fdab]

theorem pcan (d a : Reg) (ma : Bool) : Statement (.pcan d a ma) := by
  refine native4 _ rfl rfl fun hw rest => ?_
  exact round_R _ rest 0x2C (encReg d) (encReg a) 0 2 (encMark ma) 0 (by decide) (by have := encReg_lt d; omega) (by have := encReg_lt a; omega) (by decide) (by decide) (by have := encMark_lt ma; omega) (by decide) hw fun w F => by
    simp [decAShort, decPump, decMarks_a w ma F.fma, rDab, rDa, rAb, rA, rNa, rNab, rDas, rNone, iDa, iShift, iField, mSized, mForm, guardSome, encSize_div, encSize_mod, encSize_up, encSize_upmod, encRm_div, encRm_mod, decReg_encReg, decFin_val, encMark_one, decSize_encSize, decRm_encRm, decCond_encCond, decScope_encScope, decAmoOp_encAmoOp, ofNat_toNat_self, F.major, F.fd, F.fa, F.fb, F.ffn, F.fma, F.fmb, F.fm, F.fnhi, F.fnlo, F.fab, F.fdab]

theorem hset (h : Fin 8) (a : Reg) (ma : Bool) : Statement (.hset h a ma) := by
  refine native4 _ rfl rfl fun hw rest => ?_
  exact round_R _ rest 0x2D h.val (encReg a) 0 0 (encMark ma) 0 (by decide) (by have := h.isLt; omega) (by have := encReg_lt a; omega) (by decide) (by decide) (by have := encMark_lt ma; omega) (by decide) hw fun w F => by
    simp [decAShort, decHandle, decMarks_a w ma F.fma, rDab, rDa, rAb, rA, rNa, rNab, rDas, rNone, iDa, iShift, iField, mSized, mForm, guardSome, encSize_div, encSize_mod, encSize_up, encSize_upmod, encRm_div, encRm_mod, decReg_encReg, decFin_val, encMark_one, decSize_encSize, decRm_encRm, decCond_encCond, decScope_encScope, decAmoOp_encAmoOp, ofNat_toNat_self, F.major, F.fd, F.fa, F.fb, F.ffn, F.fma, F.fmb, F.fm, F.fnhi, F.fnlo, F.fab, F.fdab]

theorem hadv (h : Fin 8) (a : Reg) (ma : Bool) : Statement (.hadv h a ma) := by
  refine native4 _ rfl rfl fun hw rest => ?_
  exact round_R _ rest 0x2D h.val (encReg a) 0 1 (encMark ma) 0 (by decide) (by have := h.isLt; omega) (by have := encReg_lt a; omega) (by decide) (by decide) (by have := encMark_lt ma; omega) (by decide) hw fun w F => by
    simp [decAShort, decHandle, decMarks_a w ma F.fma, rDab, rDa, rAb, rA, rNa, rNab, rDas, rNone, iDa, iShift, iField, mSized, mForm, guardSome, encSize_div, encSize_mod, encSize_up, encSize_upmod, encRm_div, encRm_mod, decReg_encReg, decFin_val, encMark_one, decSize_encSize, decRm_encRm, decCond_encCond, decScope_encScope, decAmoOp_encAmoOp, ofNat_toNat_self, F.major, F.fd, F.fa, F.fb, F.ffn, F.fma, F.fmb, F.fm, F.fnhi, F.fnlo, F.fab, F.fdab]

theorem hcom (h : Fin 8) (a : Reg) (ma : Bool) : Statement (.hcom h a ma) := by
  refine native4 _ rfl rfl fun hw rest => ?_
  exact round_R _ rest 0x2D h.val (encReg a) 0 2 (encMark ma) 0 (by decide) (by have := h.isLt; omega) (by have := encReg_lt a; omega) (by decide) (by decide) (by have := encMark_lt ma; omega) (by decide) hw fun w F => by
    simp [decAShort, decHandle, decMarks_a w ma F.fma, rDab, rDa, rAb, rA, rNa, rNab, rDas, rNone, iDa, iShift, iField, mSized, mForm, guardSome, encSize_div, encSize_mod, encSize_up, encSize_upmod, encRm_div, encRm_mod, decReg_encReg, decFin_val, encMark_one, decSize_encSize, decRm_encRm, decCond_encCond, decScope_encScope, decAmoOp_encAmoOp, ofNat_toNat_self, F.major, F.fd, F.fa, F.fb, F.ffn, F.fma, F.fmb, F.fm, F.fnhi, F.fnlo, F.fab, F.fdab]

theorem hwait (h : Fin 8) (a : Reg) (ma : Bool) : Statement (.hwait h a ma) := by
  refine native4 _ rfl rfl fun hw rest => ?_
  exact round_R _ rest 0x2D h.val (encReg a) 0 3 (encMark ma) 0 (by decide) (by have := h.isLt; omega) (by have := encReg_lt a; omega) (by decide) (by decide) (by have := encMark_lt ma; omega) (by decide) hw fun w F => by
    simp [decAShort, decHandle, decMarks_a w ma F.fma, rDab, rDa, rAb, rA, rNa, rNab, rDas, rNone, iDa, iShift, iField, mSized, mForm, guardSome, encSize_div, encSize_mod, encSize_up, encSize_upmod, encRm_div, encRm_mod, decReg_encReg, decFin_val, encMark_one, decSize_encSize, decRm_encRm, decCond_encCond, decScope_encScope, decAmoOp_encAmoOp, ofNat_toNat_self, F.major, F.fd, F.fa, F.fb, F.ffn, F.fma, F.fmb, F.fm, F.fnhi, F.fnlo, F.fab, F.fdab]

theorem hroom (h : Fin 8) (a : Reg) (ma : Bool) : Statement (.hroom h a ma) := by
  refine native4 _ rfl rfl fun hw rest => ?_
  exact round_R _ rest 0x2D h.val (encReg a) 0 4 (encMark ma) 0 (by decide) (by have := h.isLt; omega) (by have := encReg_lt a; omega) (by decide) (by decide) (by have := encMark_lt ma; omega) (by decide) hw fun w F => by
    simp [decAShort, decHandle, decMarks_a w ma F.fma, rDab, rDa, rAb, rA, rNa, rNab, rDas, rNone, iDa, iShift, iField, mSized, mForm, guardSome, encSize_div, encSize_mod, encSize_up, encSize_upmod, encRm_div, encRm_mod, decReg_encReg, decFin_val, encMark_one, decSize_encSize, decRm_encRm, decCond_encCond, decScope_encScope, decAmoOp_encAmoOp, ofNat_toNat_self, F.major, F.fd, F.fa, F.fb, F.ffn, F.fma, F.fmb, F.fm, F.fnhi, F.fnlo, F.fab, F.fdab]

theorem hget (d : Reg) (h : Fin 8) (k : Fin 2) : Statement (.hget d h k) := by
  refine native4 _ rfl rfl fun hw rest => ?_
  exact round_R _ rest 0x2D (encReg d) h.val k.val 5 0 0 (by decide) (by have := encReg_lt d; omega) (by have := h.isLt; omega) (by have := k.isLt; omega) (by decide) (by decide) (by decide) hw fun w F => by
    simp [decAShort, decHandle, rDab, rDa, rAb, rA, rNa, rNab, rDas, rNone, iDa, iShift, iField, mSized, mForm, guardSome, encSize_div, encSize_mod, encSize_up, encSize_upmod, encRm_div, encRm_mod, decReg_encReg, decFin_val, encMark_one, decSize_encSize, decRm_encRm, decCond_encCond, decScope_encScope, decAmoOp_encAmoOp, ofNat_toNat_self, F.major, F.fd, F.fa, F.fb, F.ffn, F.fma, F.fmb, F.fm, F.fnhi, F.fnlo, F.fab, F.fdab]

theorem sld (s : Fin 16) (a b : Reg) (m : Marks) : Statement (.sld s a b m) := by
  refine native4 _ rfl rfl fun hw rest => ?_
  exact round_R _ rest 0x2E s.val (encReg a) (encReg b) 0 (encMark m.a) (encMark m.b) (by decide) (by have := s.isLt; omega) (by have := encReg_lt a; omega) (by have := encReg_lt b; omega) (by decide) (by have := encMark_lt m.a; omega) (by have := encMark_lt m.b; omega) hw fun w F => by
    simp [decAShort, decShape, decMarks_of w m F.fma F.fmb, rDab, rDa, rAb, rA, rNa, rNab, rDas, rNone, iDa, iShift, iField, mSized, mForm, guardSome, encSize_div, encSize_mod, encSize_up, encSize_upmod, encRm_div, encRm_mod, decReg_encReg, decFin_val, encMark_one, decSize_encSize, decRm_encRm, decCond_encCond, decScope_encScope, decAmoOp_encAmoOp, ofNat_toNat_self, F.major, F.fd, F.fa, F.fb, F.ffn, F.fma, F.fmb, F.fm, F.fnhi, F.fnlo, F.fab, F.fdab]

theorem sst (s : Fin 16) (a b : Reg) (m : Marks) : Statement (.sst s a b m) := by
  refine native4 _ rfl rfl fun hw rest => ?_
  exact round_R _ rest 0x2E s.val (encReg a) (encReg b) 1 (encMark m.a) (encMark m.b) (by decide) (by have := s.isLt; omega) (by have := encReg_lt a; omega) (by have := encReg_lt b; omega) (by decide) (by have := encMark_lt m.a; omega) (by have := encMark_lt m.b; omega) hw fun w F => by
    simp [decAShort, decShape, decMarks_of w m F.fma F.fmb, rDab, rDa, rAb, rA, rNa, rNab, rDas, rNone, iDa, iShift, iField, mSized, mForm, guardSome, encSize_div, encSize_mod, encSize_up, encSize_upmod, encRm_div, encRm_mod, decReg_encReg, decFin_val, encMark_one, decSize_encSize, decRm_encRm, decCond_encCond, decScope_encScope, decAmoOp_encAmoOp, ofNat_toNat_self, F.major, F.fd, F.fa, F.fb, F.ffn, F.fma, F.fmb, F.fm, F.fnhi, F.fnlo, F.fab, F.fdab]

theorem sbase (s : Fin 16) (a : Reg) (ma : Bool) : Statement (.sbase s a ma) := by
  refine native4 _ rfl rfl fun hw rest => ?_
  exact round_R _ rest 0x2E s.val (encReg a) 0 2 (encMark ma) 0 (by decide) (by have := s.isLt; omega) (by have := encReg_lt a; omega) (by decide) (by decide) (by have := encMark_lt ma; omega) (by decide) hw fun w F => by
    simp [decAShort, decShape, decMarks_a w ma F.fma, rDab, rDa, rAb, rA, rNa, rNab, rDas, rNone, iDa, iShift, iField, mSized, mForm, guardSome, encSize_div, encSize_mod, encSize_up, encSize_upmod, encRm_div, encRm_mod, decReg_encReg, decFin_val, encMark_one, decSize_encSize, decRm_encRm, decCond_encCond, decScope_encScope, decAmoOp_encAmoOp, ofNat_toNat_self, F.major, F.fd, F.fa, F.fb, F.ffn, F.fma, F.fmb, F.fm, F.fnhi, F.fnlo, F.fab, F.fdab]

theorem soff (s : Fin 16) (a : Reg) (ma : Bool) : Statement (.soff s a ma) := by
  refine native4 _ rfl rfl fun hw rest => ?_
  exact round_R _ rest 0x2E s.val (encReg a) 0 3 (encMark ma) 0 (by decide) (by have := s.isLt; omega) (by have := encReg_lt a; omega) (by decide) (by decide) (by have := encMark_lt ma; omega) (by decide) hw fun w F => by
    simp [decAShort, decShape, decMarks_a w ma F.fma, rDab, rDa, rAb, rA, rNa, rNab, rDas, rNone, iDa, iShift, iField, mSized, mForm, guardSome, encSize_div, encSize_mod, encSize_up, encSize_upmod, encRm_div, encRm_mod, decReg_encReg, decFin_val, encMark_one, decSize_encSize, decRm_encRm, decCond_encCond, decScope_encScope, decAmoOp_encAmoOp, ofNat_toNat_self, F.major, F.fd, F.fa, F.fb, F.ffn, F.fma, F.fmb, F.fm, F.fnhi, F.fnlo, F.fab, F.fdab]

theorem spawn (d a b : Reg) (m : Marks) : Statement (.spawn d a b m) := by
  refine native4 _ rfl rfl fun hw rest => ?_
  exact round_R _ rest 0x30 (encReg d) (encReg a) (encReg b) 0 (encMark m.a) (encMark m.b) (by decide) (by have := encReg_lt d; omega) (by have := encReg_lt a; omega) (by have := encReg_lt b; omega) (by decide) (by have := encMark_lt m.a; omega) (by have := encMark_lt m.b; omega) hw fun w F => by
    simp [decAShort, decSpawn, decMarks_of w m F.fma F.fmb, rDab, rDa, rAb, rA, rNa, rNab, rDas, rNone, iDa, iShift, iField, mSized, mForm, guardSome, encSize_div, encSize_mod, encSize_up, encSize_upmod, encRm_div, encRm_mod, decReg_encReg, decFin_val, encMark_one, decSize_encSize, decRm_encRm, decCond_encCond, decScope_encScope, decAmoOp_encAmoOp, ofNat_toNat_self, F.major, F.fd, F.fa, F.fb, F.ffn, F.fma, F.fmb, F.fm, F.fnhi, F.fnlo, F.fab, F.fdab]

theorem spawnq (d a b : Reg) (m : Marks) : Statement (.spawnq d a b m) := by
  refine native4 _ rfl rfl fun hw rest => ?_
  exact round_R _ rest 0x30 (encReg d) (encReg a) (encReg b) 1 (encMark m.a) (encMark m.b) (by decide) (by have := encReg_lt d; omega) (by have := encReg_lt a; omega) (by have := encReg_lt b; omega) (by decide) (by have := encMark_lt m.a; omega) (by have := encMark_lt m.b; omega) hw fun w F => by
    simp [decAShort, decSpawn, decMarks_of w m F.fma F.fmb, rDab, rDa, rAb, rA, rNa, rNab, rDas, rNone, iDa, iShift, iField, mSized, mForm, guardSome, encSize_div, encSize_mod, encSize_up, encSize_upmod, encRm_div, encRm_mod, decReg_encReg, decFin_val, encMark_one, decSize_encSize, decRm_encRm, decCond_encCond, decScope_encScope, decAmoOp_encAmoOp, ofNat_toNat_self, F.major, F.fd, F.fa, F.fb, F.ffn, F.fma, F.fmb, F.fm, F.fnhi, F.fnlo, F.fab, F.fdab]

theorem quit : Statement (.quit) := by
  refine native4 _ rfl rfl fun hw rest => ?_
  exact round_R _ rest 0x31 0 0 0 0 0 0 (by decide) (by decide) (by decide) (by decide) (by decide) (by decide) (by decide) hw fun w F => by
    simp [decAShort, decThread, rDab, rDa, rAb, rA, rNa, rNab, rDas, rNone, iDa, iShift, iField, mSized, mForm, guardSome, encSize_div, encSize_mod, encSize_up, encSize_upmod, encRm_div, encRm_mod, decReg_encReg, decFin_val, encMark_one, decSize_encSize, decRm_encRm, decCond_encCond, decScope_encScope, decAmoOp_encAmoOp, ofNat_toNat_self, F.major, F.fd, F.fa, F.fb, F.ffn, F.fma, F.fmb, F.fm, F.fnhi, F.fnlo, F.fab, F.fdab]

theorem yield : Statement (.yield) := by
  refine native4 _ rfl rfl fun hw rest => ?_
  exact round_R _ rest 0x31 0 0 0 1 0 0 (by decide) (by decide) (by decide) (by decide) (by decide) (by decide) (by decide) hw fun w F => by
    simp [decAShort, decThread, rDab, rDa, rAb, rA, rNa, rNab, rDas, rNone, iDa, iShift, iField, mSized, mForm, guardSome, encSize_div, encSize_mod, encSize_up, encSize_upmod, encRm_div, encRm_mod, decReg_encReg, decFin_val, encMark_one, decSize_encSize, decRm_encRm, decCond_encCond, decScope_encScope, decAmoOp_encAmoOp, ofNat_toNat_self, F.major, F.fd, F.fa, F.fb, F.ffn, F.fma, F.fmb, F.fm, F.fnhi, F.fnlo, F.fab, F.fdab]

theorem park (d a : Reg) (ma : Bool) : Statement (.park d a ma) := by
  refine native4 _ rfl rfl fun hw rest => ?_
  exact round_R _ rest 0x31 (encReg d) (encReg a) 0 2 (encMark ma) 0 (by decide) (by have := encReg_lt d; omega) (by have := encReg_lt a; omega) (by decide) (by decide) (by have := encMark_lt ma; omega) (by decide) hw fun w F => by
    simp [decAShort, decThread, decMarks_a w ma F.fma, rDab, rDa, rAb, rA, rNa, rNab, rDas, rNone, iDa, iShift, iField, mSized, mForm, guardSome, encSize_div, encSize_mod, encSize_up, encSize_upmod, encRm_div, encRm_mod, decReg_encReg, decFin_val, encMark_one, decSize_encSize, decRm_encRm, decCond_encCond, decScope_encScope, decAmoOp_encAmoOp, ofNat_toNat_self, F.major, F.fd, F.fa, F.fb, F.ffn, F.fma, F.fmb, F.fm, F.fnhi, F.fnlo, F.fab, F.fdab]

theorem wake (d a : Reg) (ma : Bool) : Statement (.wake d a ma) := by
  refine native4 _ rfl rfl fun hw rest => ?_
  exact round_R _ rest 0x31 (encReg d) (encReg a) 0 3 (encMark ma) 0 (by decide) (by have := encReg_lt d; omega) (by have := encReg_lt a; omega) (by decide) (by decide) (by have := encMark_lt ma; omega) (by decide) hw fun w F => by
    simp [decAShort, decThread, decMarks_a w ma F.fma, rDab, rDa, rAb, rA, rNa, rNab, rDas, rNone, iDa, iShift, iField, mSized, mForm, guardSome, encSize_div, encSize_mod, encSize_up, encSize_upmod, encRm_div, encRm_mod, decReg_encReg, decFin_val, encMark_one, decSize_encSize, decRm_encRm, decCond_encCond, decScope_encScope, decAmoOp_encAmoOp, ofNat_toNat_self, F.major, F.fd, F.fa, F.fb, F.ffn, F.fma, F.fmb, F.fm, F.fnhi, F.fnlo, F.fab, F.fdab]

theorem cancel (d a : Reg) (ma : Bool) : Statement (.cancel d a ma) := by
  refine native4 _ rfl rfl fun hw rest => ?_
  exact round_R _ rest 0x31 (encReg d) (encReg a) 0 4 (encMark ma) 0 (by decide) (by have := encReg_lt d; omega) (by have := encReg_lt a; omega) (by decide) (by decide) (by have := encMark_lt ma; omega) (by decide) hw fun w F => by
    simp [decAShort, decThread, decMarks_a w ma F.fma, rDab, rDa, rAb, rA, rNa, rNab, rDas, rNone, iDa, iShift, iField, mSized, mForm, guardSome, encSize_div, encSize_mod, encSize_up, encSize_upmod, encRm_div, encRm_mod, decReg_encReg, decFin_val, encMark_one, decSize_encSize, decRm_encRm, decCond_encCond, decScope_encScope, decAmoOp_encAmoOp, ofNat_toNat_self, F.major, F.fd, F.fa, F.fb, F.ffn, F.fma, F.fmb, F.fm, F.fnhi, F.fnlo, F.fab, F.fdab]

theorem poke (a b : Reg) (m : Marks) : Statement (.poke a b m) := by
  refine native4 _ rfl rfl fun hw rest => ?_
  exact round_R _ rest 0x31 0 (encReg a) (encReg b) 5 (encMark m.a) (encMark m.b) (by decide) (by decide) (by have := encReg_lt a; omega) (by have := encReg_lt b; omega) (by decide) (by have := encMark_lt m.a; omega) (by have := encMark_lt m.b; omega) hw fun w F => by
    simp [decAShort, decThread, decMarks_of w m F.fma F.fmb, rDab, rDa, rAb, rA, rNa, rNab, rDas, rNone, iDa, iShift, iField, mSized, mForm, guardSome, encSize_div, encSize_mod, encSize_up, encSize_upmod, encRm_div, encRm_mod, decReg_encReg, decFin_val, encMark_one, decSize_encSize, decRm_encRm, decCond_encCond, decScope_encScope, decAmoOp_encAmoOp, ofNat_toNat_self, F.major, F.fd, F.fa, F.fb, F.ffn, F.fma, F.fmb, F.fm, F.fnhi, F.fnlo, F.fab, F.fdab]

theorem claim (a : Reg) (ma : Bool) : Statement (.claim a ma) := by
  refine native4 _ rfl rfl fun hw rest => ?_
  exact round_R _ rest 0x32 0 (encReg a) 0 0 (encMark ma) 0 (by decide) (by decide) (by have := encReg_lt a; omega) (by decide) (by decide) (by have := encMark_lt ma; omega) (by decide) hw fun w F => by
    simp [decAShort, decBanker, decMarks_a w ma F.fma, rDab, rDa, rAb, rA, rNa, rNab, rDas, rNone, iDa, iShift, iField, mSized, mForm, guardSome, encSize_div, encSize_mod, encSize_up, encSize_upmod, encRm_div, encRm_mod, decReg_encReg, decFin_val, encMark_one, decSize_encSize, decRm_encRm, decCond_encCond, decScope_encScope, decAmoOp_encAmoOp, ofNat_toNat_self, F.major, F.fd, F.fa, F.fb, F.ffn, F.fma, F.fmb, F.fm, F.fnhi, F.fnlo, F.fab, F.fdab]

theorem acq (a : Reg) (ma : Bool) : Statement (.acq a ma) := by
  refine native4 _ rfl rfl fun hw rest => ?_
  exact round_R _ rest 0x32 0 (encReg a) 0 1 (encMark ma) 0 (by decide) (by decide) (by have := encReg_lt a; omega) (by decide) (by decide) (by have := encMark_lt ma; omega) (by decide) hw fun w F => by
    simp [decAShort, decBanker, decMarks_a w ma F.fma, rDab, rDa, rAb, rA, rNa, rNab, rDas, rNone, iDa, iShift, iField, mSized, mForm, guardSome, encSize_div, encSize_mod, encSize_up, encSize_upmod, encRm_div, encRm_mod, decReg_encReg, decFin_val, encMark_one, decSize_encSize, decRm_encRm, decCond_encCond, decScope_encScope, decAmoOp_encAmoOp, ofNat_toNat_self, F.major, F.fd, F.fa, F.fb, F.ffn, F.fma, F.fmb, F.fm, F.fnhi, F.fnlo, F.fab, F.fdab]

theorem acqt (d a : Reg) (ma : Bool) : Statement (.acqt d a ma) := by
  refine native4 _ rfl rfl fun hw rest => ?_
  exact round_R _ rest 0x32 (encReg d) (encReg a) 0 2 (encMark ma) 0 (by decide) (by have := encReg_lt d; omega) (by have := encReg_lt a; omega) (by decide) (by decide) (by have := encMark_lt ma; omega) (by decide) hw fun w F => by
    simp [decAShort, decBanker, decMarks_a w ma F.fma, rDab, rDa, rAb, rA, rNa, rNab, rDas, rNone, iDa, iShift, iField, mSized, mForm, guardSome, encSize_div, encSize_mod, encSize_up, encSize_upmod, encRm_div, encRm_mod, decReg_encReg, decFin_val, encMark_one, decSize_encSize, decRm_encRm, decCond_encCond, decScope_encScope, decAmoOp_encAmoOp, ofNat_toNat_self, F.major, F.fd, F.fa, F.fb, F.ffn, F.fma, F.fmb, F.fm, F.fnhi, F.fnlo, F.fab, F.fdab]

theorem rel (a : Reg) (ma : Bool) : Statement (.rel a ma) := by
  refine native4 _ rfl rfl fun hw rest => ?_
  exact round_R _ rest 0x32 0 (encReg a) 0 3 (encMark ma) 0 (by decide) (by decide) (by have := encReg_lt a; omega) (by decide) (by decide) (by have := encMark_lt ma; omega) (by decide) hw fun w F => by
    simp [decAShort, decBanker, decMarks_a w ma F.fma, rDab, rDa, rAb, rA, rNa, rNab, rDas, rNone, iDa, iShift, iField, mSized, mForm, guardSome, encSize_div, encSize_mod, encSize_up, encSize_upmod, encRm_div, encRm_mod, decReg_encReg, decFin_val, encMark_one, decSize_encSize, decRm_encRm, decCond_encCond, decScope_encScope, decAmoOp_encAmoOp, ofNat_toNat_self, F.major, F.fd, F.fa, F.fb, F.ffn, F.fma, F.fmb, F.fm, F.fnhi, F.fnlo, F.fab, F.fdab]

theorem weir (a b : Reg) (m : Marks) : Statement (.weir a b m) := by
  refine native4 _ rfl rfl fun hw rest => ?_
  exact round_R _ rest 0x33 0 (encReg a) (encReg b) 0 (encMark m.a) (encMark m.b) (by decide) (by decide) (by have := encReg_lt a; omega) (by have := encReg_lt b; omega) (by decide) (by have := encMark_lt m.a; omega) (by have := encMark_lt m.b; omega) hw fun w F => by
    simp [decAShort, decWeir, decMarks_of w m F.fma F.fmb, rDab, rDa, rAb, rA, rNa, rNab, rDas, rNone, iDa, iShift, iField, mSized, mForm, guardSome, encSize_div, encSize_mod, encSize_up, encSize_upmod, encRm_div, encRm_mod, decReg_encReg, decFin_val, encMark_one, decSize_encSize, decRm_encRm, decCond_encCond, decScope_encScope, decAmoOp_encAmoOp, ofNat_toNat_self, F.major, F.fd, F.fa, F.fb, F.ffn, F.fma, F.fmb, F.fm, F.fnhi, F.fnlo, F.fab, F.fdab]

theorem wbyte (a b : Reg) (m : Marks) : Statement (.wbyte a b m) := by
  refine native4 _ rfl rfl fun hw rest => ?_
  exact round_R _ rest 0x33 0 (encReg a) (encReg b) 2 (encMark m.a) (encMark m.b) (by decide) (by decide) (by have := encReg_lt a; omega) (by have := encReg_lt b; omega) (by decide) (by have := encMark_lt m.a; omega) (by have := encMark_lt m.b; omega) hw fun w F => by
    simp [decAShort, decWeir, decMarks_of w m F.fma F.fmb, rDab, rDa, rAb, rA, rNa, rNab, rDas, rNone, iDa, iShift, iField, mSized, mForm, guardSome, encSize_div, encSize_mod, encSize_up, encSize_upmod, encRm_div, encRm_mod, decReg_encReg, decFin_val, encMark_one, decSize_encSize, decRm_encRm, decCond_encCond, decScope_encScope, decAmoOp_encAmoOp, ofNat_toNat_self, F.major, F.fd, F.fa, F.fb, F.ffn, F.fma, F.fmb, F.fm, F.fnhi, F.fnlo, F.fab, F.fdab]

theorem wwait (a : Reg) (ma : Bool) : Statement (.wwait a ma) := by
  refine native4 _ rfl rfl fun hw rest => ?_
  exact round_R _ rest 0x33 0 (encReg a) 0 3 (encMark ma) 0 (by decide) (by decide) (by have := encReg_lt a; omega) (by decide) (by decide) (by have := encMark_lt ma; omega) (by decide) hw fun w F => by
    simp [decAShort, decWeir, decMarks_a w ma F.fma, rDab, rDa, rAb, rA, rNa, rNab, rDas, rNone, iDa, iShift, iField, mSized, mForm, guardSome, encSize_div, encSize_mod, encSize_up, encSize_upmod, encRm_div, encRm_mod, decReg_encReg, decFin_val, encMark_one, decSize_encSize, decRm_encRm, decCond_encCond, decScope_encScope, decAmoOp_encAmoOp, ofNat_toNat_self, F.major, F.fd, F.fa, F.fb, F.ffn, F.fma, F.fmb, F.fm, F.fnhi, F.fnlo, F.fab, F.fdab]

theorem nest (a : Reg) (ma : Bool) : Statement (.nest a ma) := by
  refine native4 _ rfl rfl fun hw rest => ?_
  exact round_R _ rest 0x34 0 (encReg a) 0 0 (encMark ma) 0 (by decide) (by decide) (by have := encReg_lt a; omega) (by decide) (by decide) (by have := encMark_lt ma; omega) (by decide) hw fun w F => by
    simp [decAShort, decMarks_a w ma F.fma, rDab, rDa, rAb, rA, rNa, rNab, rDas, rNone, iDa, iShift, iField, mSized, mForm, guardSome, encSize_div, encSize_mod, encSize_up, encSize_upmod, encRm_div, encRm_mod, decReg_encReg, decFin_val, encMark_one, decSize_encSize, decRm_encRm, decCond_encCond, decScope_encScope, decAmoOp_encAmoOp, ofNat_toNat_self, F.major, F.fd, F.fa, F.fb, F.ffn, F.fma, F.fmb, F.fm, F.fnhi, F.fnlo, F.fab, F.fdab]

theorem next (off : BitVec 24) : Statement (.next off) := by
  refine native4 _ rfl rfl fun hw rest => ?_
  have b0 := off.isLt
  refine short_A _ _ rest (by omega) (by decide) _ hw ?_
  generalize hn : 0x35 * 2 ^ 24 + (off.toNat) = m
  have f0 : fld m 24 6 = 53 := by simp only [fld]; omega
  have f1 : fld m 0 24 = off.toNat := by simp only [fld]; omega
  simp [decAShort, f0, f1, ofNat_toNat_self]

theorem trnew (a b : Reg) (m : Marks) : Statement (.trnew a b m) := by
  refine native4 _ rfl rfl fun hw rest => ?_
  exact round_R _ rest 0x36 0 (encReg a) (encReg b) 0 (encMark m.a) (encMark m.b) (by decide) (by decide) (by have := encReg_lt a; omega) (by have := encReg_lt b; omega) (by decide) (by have := encMark_lt m.a; omega) (by have := encMark_lt m.b; omega) hw fun w F => by
    simp [decAShort, decTree, decMarks_of w m F.fma F.fmb, rDab, rDa, rAb, rA, rNa, rNab, rDas, rNone, iDa, iShift, iField, mSized, mForm, guardSome, encSize_div, encSize_mod, encSize_up, encSize_upmod, encRm_div, encRm_mod, decReg_encReg, decFin_val, encMark_one, decSize_encSize, decRm_encRm, decCond_encCond, decScope_encScope, decAmoOp_encAmoOp, ofNat_toNat_self, F.major, F.fd, F.fa, F.fb, F.ffn, F.fma, F.fmb, F.fm, F.fnhi, F.fnlo, F.fab, F.fdab]

theorem trdsc (a b : Reg) (m : Marks) : Statement (.trdsc a b m) := by
  refine native4 _ rfl rfl fun hw rest => ?_
  exact round_R _ rest 0x36 0 (encReg a) (encReg b) 1 (encMark m.a) (encMark m.b) (by decide) (by decide) (by have := encReg_lt a; omega) (by have := encReg_lt b; omega) (by decide) (by have := encMark_lt m.a; omega) (by have := encMark_lt m.b; omega) hw fun w F => by
    simp [decAShort, decTree, decMarks_of w m F.fma F.fmb, rDab, rDa, rAb, rA, rNa, rNab, rDas, rNone, iDa, iShift, iField, mSized, mForm, guardSome, encSize_div, encSize_mod, encSize_up, encSize_upmod, encRm_div, encRm_mod, decReg_encReg, decFin_val, encMark_one, decSize_encSize, decRm_encRm, decCond_encCond, decScope_encScope, decAmoOp_encAmoOp, ofNat_toNat_self, F.major, F.fd, F.fa, F.fb, F.ffn, F.fma, F.fmb, F.fm, F.fnhi, F.fnlo, F.fab, F.fdab]

theorem trxpd (d a : Reg) (s : Fin 16) (ma : Bool) : Statement (.trxpd d a s ma) := by
  refine native4 _ rfl rfl fun hw rest => ?_
  exact round_R _ rest 0x36 (encReg d) (encReg a) s.val 2 (encMark ma) 0 (by decide) (by have := encReg_lt d; omega) (by have := encReg_lt a; omega) (by have := s.isLt; omega) (by decide) (by have := encMark_lt ma; omega) (by decide) hw fun w F => by
    simp [decAShort, decTree, decMarks_a w ma F.fma, rDab, rDa, rAb, rA, rNa, rNab, rDas, rNone, iDa, iShift, iField, mSized, mForm, guardSome, encSize_div, encSize_mod, encSize_up, encSize_upmod, encRm_div, encRm_mod, decReg_encReg, decFin_val, encMark_one, decSize_encSize, decRm_encRm, decCond_encCond, decScope_encScope, decAmoOp_encAmoOp, ofNat_toNat_self, F.major, F.fd, F.fa, F.fb, F.ffn, F.fma, F.fmb, F.fm, F.fnhi, F.fnlo, F.fab, F.fdab]

theorem trbck (d a b : Reg) (m : Marks) : Statement (.trbck d a b m) := by
  refine native4 _ rfl rfl fun hw rest => ?_
  exact round_R _ rest 0x36 (encReg d) (encReg a) (encReg b) 3 (encMark m.a) (encMark m.b) (by decide) (by have := encReg_lt d; omega) (by have := encReg_lt a; omega) (by have := encReg_lt b; omega) (by decide) (by have := encMark_lt m.a; omega) (by have := encMark_lt m.b; omega) hw fun w F => by
    simp [decAShort, decTree, decMarks_of w m F.fma F.fmb, rDab, rDa, rAb, rA, rNa, rNab, rDas, rNone, iDa, iShift, iField, mSized, mForm, guardSome, encSize_div, encSize_mod, encSize_up, encSize_upmod, encRm_div, encRm_mod, decReg_encReg, decFin_val, encMark_one, decSize_encSize, decRm_encRm, decCond_encCond, decScope_encScope, decAmoOp_encAmoOp, ofNat_toNat_self, F.major, F.fd, F.fa, F.fb, F.ffn, F.fma, F.fmb, F.fm, F.fnhi, F.fnlo, F.fab, F.fdab]

theorem trpik (a b : Reg) (m : Marks) : Statement (.trpik a b m) := by
  refine native4 _ rfl rfl fun hw rest => ?_
  exact round_R _ rest 0x36 0 (encReg a) (encReg b) 4 (encMark m.a) (encMark m.b) (by decide) (by decide) (by have := encReg_lt a; omega) (by have := encReg_lt b; omega) (by decide) (by have := encMark_lt m.a; omega) (by have := encMark_lt m.b; omega) hw fun w F => by
    simp [decAShort, decTree, decMarks_of w m F.fma F.fmb, rDab, rDa, rAb, rA, rNa, rNab, rDas, rNone, iDa, iShift, iField, mSized, mForm, guardSome, encSize_div, encSize_mod, encSize_up, encSize_upmod, encRm_div, encRm_mod, decReg_encReg, decFin_val, encMark_one, decSize_encSize, decRm_encRm, decCond_encCond, decScope_encScope, decAmoOp_encAmoOp, ofNat_toNat_self, F.major, F.fd, F.fa, F.fb, F.ffn, F.fma, F.fmb, F.fm, F.fnhi, F.fnlo, F.fab, F.fdab]

theorem trrrt (a b : Reg) (m : Marks) : Statement (.trrrt a b m) := by
  refine native4 _ rfl rfl fun hw rest => ?_
  exact round_R _ rest 0x36 0 (encReg a) (encReg b) 5 (encMark m.a) (encMark m.b) (by decide) (by decide) (by have := encReg_lt a; omega) (by have := encReg_lt b; omega) (by decide) (by have := encMark_lt m.a; omega) (by have := encMark_lt m.b; omega) hw fun w F => by
    simp [decAShort, decTree, decMarks_of w m F.fma F.fmb, rDab, rDa, rAb, rA, rNa, rNab, rDas, rNone, iDa, iShift, iField, mSized, mForm, guardSome, encSize_div, encSize_mod, encSize_up, encSize_upmod, encRm_div, encRm_mod, decReg_encReg, decFin_val, encMark_one, decSize_encSize, decRm_encRm, decCond_encCond, decScope_encScope, decAmoOp_encAmoOp, ofNat_toNat_self, F.major, F.fd, F.fa, F.fb, F.ffn, F.fma, F.fmb, F.fm, F.fnhi, F.fnlo, F.fab, F.fdab]

theorem trfre (a : Reg) (ma : Bool) : Statement (.trfre a ma) := by
  refine native4 _ rfl rfl fun hw rest => ?_
  exact round_R _ rest 0x36 0 (encReg a) 0 6 (encMark ma) 0 (by decide) (by decide) (by have := encReg_lt a; omega) (by decide) (by decide) (by have := encMark_lt ma; omega) (by decide) hw fun w F => by
    simp [decAShort, decTree, decMarks_a w ma F.fma, rDab, rDa, rAb, rA, rNa, rNab, rDas, rNone, iDa, iShift, iField, mSized, mForm, guardSome, encSize_div, encSize_mod, encSize_up, encSize_upmod, encRm_div, encRm_mod, decReg_encReg, decFin_val, encMark_one, decSize_encSize, decRm_encRm, decCond_encCond, decScope_encScope, decAmoOp_encAmoOp, ofNat_toNat_self, F.major, F.fd, F.fa, F.fb, F.ffn, F.fma, F.fmb, F.fm, F.fnhi, F.fnlo, F.fab, F.fdab]

theorem trnewF (a b : Reg) (m : Marks) : Statement (.trnewF a b m) := by
  refine native4 _ rfl rfl fun hw rest => ?_
  exact round_R _ rest 0x36 0 (encReg a) (encReg b) 8 (encMark m.a) (encMark m.b) (by decide) (by decide) (by have := encReg_lt a; omega) (by have := encReg_lt b; omega) (by decide) (by have := encMark_lt m.a; omega) (by have := encMark_lt m.b; omega) hw fun w F => by
    simp [decAShort, decTree, decMarks_of w m F.fma F.fmb, rDab, rDa, rAb, rA, rNa, rNab, rDas, rNone, iDa, iShift, iField, mSized, mForm, guardSome, encSize_div, encSize_mod, encSize_up, encSize_upmod, encRm_div, encRm_mod, decReg_encReg, decFin_val, encMark_one, decSize_encSize, decRm_encRm, decCond_encCond, decScope_encScope, decAmoOp_encAmoOp, ofNat_toNat_self, F.major, F.fd, F.fa, F.fb, F.ffn, F.fma, F.fmb, F.fm, F.fnhi, F.fnlo, F.fab, F.fdab]

theorem trdscF (a b : Reg) (m : Marks) : Statement (.trdscF a b m) := by
  refine native4 _ rfl rfl fun hw rest => ?_
  exact round_R _ rest 0x36 0 (encReg a) (encReg b) 9 (encMark m.a) (encMark m.b) (by decide) (by decide) (by have := encReg_lt a; omega) (by have := encReg_lt b; omega) (by decide) (by have := encMark_lt m.a; omega) (by have := encMark_lt m.b; omega) hw fun w F => by
    simp [decAShort, decTree, decMarks_of w m F.fma F.fmb, rDab, rDa, rAb, rA, rNa, rNab, rDas, rNone, iDa, iShift, iField, mSized, mForm, guardSome, encSize_div, encSize_mod, encSize_up, encSize_upmod, encRm_div, encRm_mod, decReg_encReg, decFin_val, encMark_one, decSize_encSize, decRm_encRm, decCond_encCond, decScope_encScope, decAmoOp_encAmoOp, ofNat_toNat_self, F.major, F.fd, F.fa, F.fb, F.ffn, F.fma, F.fmb, F.fm, F.fnhi, F.fnlo, F.fab, F.fdab]

theorem trxpdF (d a : Reg) (s : Fin 16) (ma : Bool) : Statement (.trxpdF d a s ma) := by
  refine native4 _ rfl rfl fun hw rest => ?_
  exact round_R _ rest 0x36 (encReg d) (encReg a) s.val 10 (encMark ma) 0 (by decide) (by have := encReg_lt d; omega) (by have := encReg_lt a; omega) (by have := s.isLt; omega) (by decide) (by have := encMark_lt ma; omega) (by decide) hw fun w F => by
    simp [decAShort, decTree, decMarks_a w ma F.fma, rDab, rDa, rAb, rA, rNa, rNab, rDas, rNone, iDa, iShift, iField, mSized, mForm, guardSome, encSize_div, encSize_mod, encSize_up, encSize_upmod, encRm_div, encRm_mod, decReg_encReg, decFin_val, encMark_one, decSize_encSize, decRm_encRm, decCond_encCond, decScope_encScope, decAmoOp_encAmoOp, ofNat_toNat_self, F.major, F.fd, F.fa, F.fb, F.ffn, F.fma, F.fmb, F.fm, F.fnhi, F.fnlo, F.fab, F.fdab]

theorem trbckF (d a b : Reg) (m : Marks) : Statement (.trbckF d a b m) := by
  refine native4 _ rfl rfl fun hw rest => ?_
  exact round_R _ rest 0x36 (encReg d) (encReg a) (encReg b) 11 (encMark m.a) (encMark m.b) (by decide) (by have := encReg_lt d; omega) (by have := encReg_lt a; omega) (by have := encReg_lt b; omega) (by decide) (by have := encMark_lt m.a; omega) (by have := encMark_lt m.b; omega) hw fun w F => by
    simp [decAShort, decTree, decMarks_of w m F.fma F.fmb, rDab, rDa, rAb, rA, rNa, rNab, rDas, rNone, iDa, iShift, iField, mSized, mForm, guardSome, encSize_div, encSize_mod, encSize_up, encSize_upmod, encRm_div, encRm_mod, decReg_encReg, decFin_val, encMark_one, decSize_encSize, decRm_encRm, decCond_encCond, decScope_encScope, decAmoOp_encAmoOp, ofNat_toNat_self, F.major, F.fd, F.fa, F.fb, F.ffn, F.fma, F.fmb, F.fm, F.fnhi, F.fnlo, F.fab, F.fdab]

theorem trpikF (a b : Reg) (m : Marks) : Statement (.trpikF a b m) := by
  refine native4 _ rfl rfl fun hw rest => ?_
  exact round_R _ rest 0x36 0 (encReg a) (encReg b) 12 (encMark m.a) (encMark m.b) (by decide) (by decide) (by have := encReg_lt a; omega) (by have := encReg_lt b; omega) (by decide) (by have := encMark_lt m.a; omega) (by have := encMark_lt m.b; omega) hw fun w F => by
    simp [decAShort, decTree, decMarks_of w m F.fma F.fmb, rDab, rDa, rAb, rA, rNa, rNab, rDas, rNone, iDa, iShift, iField, mSized, mForm, guardSome, encSize_div, encSize_mod, encSize_up, encSize_upmod, encRm_div, encRm_mod, decReg_encReg, decFin_val, encMark_one, decSize_encSize, decRm_encRm, decCond_encCond, decScope_encScope, decAmoOp_encAmoOp, ofNat_toNat_self, F.major, F.fd, F.fa, F.fb, F.ffn, F.fma, F.fmb, F.fm, F.fnhi, F.fnlo, F.fab, F.fdab]

theorem trrrtF (a b : Reg) (m : Marks) : Statement (.trrrtF a b m) := by
  refine native4 _ rfl rfl fun hw rest => ?_
  exact round_R _ rest 0x36 0 (encReg a) (encReg b) 13 (encMark m.a) (encMark m.b) (by decide) (by decide) (by have := encReg_lt a; omega) (by have := encReg_lt b; omega) (by decide) (by have := encMark_lt m.a; omega) (by have := encMark_lt m.b; omega) hw fun w F => by
    simp [decAShort, decTree, decMarks_of w m F.fma F.fmb, rDab, rDa, rAb, rA, rNa, rNab, rDas, rNone, iDa, iShift, iField, mSized, mForm, guardSome, encSize_div, encSize_mod, encSize_up, encSize_upmod, encRm_div, encRm_mod, decReg_encReg, decFin_val, encMark_one, decSize_encSize, decRm_encRm, decCond_encCond, decScope_encScope, decAmoOp_encAmoOp, ofNat_toNat_self, F.major, F.fd, F.fa, F.fb, F.ffn, F.fma, F.fmb, F.fm, F.fnhi, F.fnlo, F.fab, F.fdab]

theorem trfreF (a : Reg) (ma : Bool) : Statement (.trfreF a ma) := by
  refine native4 _ rfl rfl fun hw rest => ?_
  exact round_R _ rest 0x36 0 (encReg a) 0 14 (encMark ma) 0 (by decide) (by decide) (by have := encReg_lt a; omega) (by decide) (by decide) (by have := encMark_lt ma; omega) (by decide) hw fun w F => by
    simp [decAShort, decTree, decMarks_a w ma F.fma, rDab, rDa, rAb, rA, rNa, rNab, rDas, rNone, iDa, iShift, iField, mSized, mForm, guardSome, encSize_div, encSize_mod, encSize_up, encSize_upmod, encRm_div, encRm_mod, decReg_encReg, decFin_val, encMark_one, decSize_encSize, decRm_encRm, decCond_encCond, decScope_encScope, decAmoOp_encAmoOp, ofNat_toNat_self, F.major, F.fd, F.fa, F.fb, F.ffn, F.fma, F.fmb, F.fm, F.fnhi, F.fnlo, F.fab, F.fdab]

theorem csrr (d : Reg) (c : Fin 19) : Statement (.csrr d c) := by
  refine native4 _ rfl rfl fun hw rest => ?_
  exact round_R _ rest 0x38 (encReg d) c.val 0 0 0 0 (by decide) (by have := encReg_lt d; omega) (by have := c.isLt; omega) (by decide) (by decide) (by decide) (by decide) hw fun w F => by
    simp [decAShort, decSystem, rDab, rDa, rAb, rA, rNa, rNab, rDas, rNone, iDa, iShift, iField, mSized, mForm, guardSome, encSize_div, encSize_mod, encSize_up, encSize_upmod, encRm_div, encRm_mod, decReg_encReg, decFin_val, encMark_one, decSize_encSize, decRm_encRm, decCond_encCond, decScope_encScope, decAmoOp_encAmoOp, ofNat_toNat_self, F.major, F.fd, F.fa, F.fb, F.ffn, F.fma, F.fmb, F.fm, F.fnhi, F.fnlo, F.fab, F.fdab]

theorem csrw (c : Fin 19) (a : Reg) (ma : Bool) : Statement (.csrw c a ma) := by
  refine native4 _ rfl rfl fun hw rest => ?_
  exact round_R _ rest 0x38 c.val (encReg a) 0 1 (encMark ma) 0 (by decide) (by have := c.isLt; omega) (by have := encReg_lt a; omega) (by decide) (by decide) (by have := encMark_lt ma; omega) (by decide) hw fun w F => by
    simp [decAShort, decSystem, decMarks_a w ma F.fma, rDab, rDa, rAb, rA, rNa, rNab, rDas, rNone, iDa, iShift, iField, mSized, mForm, guardSome, encSize_div, encSize_mod, encSize_up, encSize_upmod, encRm_div, encRm_mod, decReg_encReg, decFin_val, encMark_one, decSize_encSize, decRm_encRm, decCond_encCond, decScope_encScope, decAmoOp_encAmoOp, ofNat_toNat_self, F.major, F.fd, F.fa, F.fb, F.ffn, F.fma, F.fmb, F.fm, F.fnhi, F.fnlo, F.fab, F.fdab]

theorem trap (n : BitVec 12) : Statement (.trap n) := by
  refine native4 _ rfl rfl fun hw rest => ?_
  have b0 := n.isLt
  refine short_A _ _ rest (by omega) (by decide) _ hw ?_
  generalize hn : 0x38 * 2 ^ 24 + (n.toNat * 2 ^ 6 + 2 * 4) = m
  have f0 : fld m 24 6 = 56 := by simp only [fld]; omega
  have f1 : fld m 2 4 = 2 := by simp only [fld]; omega
  have f2 : fld m 18 6 = 0 := by simp only [fld]; omega
  have f3 : fld m 0 2 = 0 := by simp only [fld]; omega
  have f4 : fld m 6 12 = n.toNat := by simp only [fld]; omega
  simp [decAShort, f0, f1, f2, f3, f4, decSystem, guardSome, ofNat_toNat_self]

theorem eret (d a : Reg) (ma : Bool) : Statement (.eret d a ma) := by
  refine native4 _ rfl rfl fun hw rest => ?_
  exact round_R _ rest 0x38 (encReg d) (encReg a) 0 3 (encMark ma) 0 (by decide) (by have := encReg_lt d; omega) (by have := encReg_lt a; omega) (by decide) (by decide) (by have := encMark_lt ma; omega) (by decide) hw fun w F => by
    simp [decAShort, decSystem, decMarks_a w ma F.fma, rDab, rDa, rAb, rA, rNa, rNab, rDas, rNone, iDa, iShift, iField, mSized, mForm, guardSome, encSize_div, encSize_mod, encSize_up, encSize_upmod, encRm_div, encRm_mod, decReg_encReg, decFin_val, encMark_one, decSize_encSize, decRm_encRm, decCond_encCond, decScope_encScope, decAmoOp_encAmoOp, ofNat_toNat_self, F.major, F.fd, F.fa, F.fb, F.ffn, F.fma, F.fmb, F.fm, F.fnhi, F.fnlo, F.fab, F.fdab]

theorem emwin (d a b : Reg) (m : Marks) : Statement (.emwin d a b m) := by
  refine native4 _ rfl rfl fun hw rest => ?_
  exact round_R _ rest 0x38 (encReg d) (encReg a) (encReg b) 4 (encMark m.a) (encMark m.b) (by decide) (by have := encReg_lt d; omega) (by have := encReg_lt a; omega) (by have := encReg_lt b; omega) (by decide) (by have := encMark_lt m.a; omega) (by have := encMark_lt m.b; omega) hw fun w F => by
    simp [decAShort, decSystem, decMarks_of w m F.fma F.fmb, rDab, rDa, rAb, rA, rNa, rNab, rDas, rNone, iDa, iShift, iField, mSized, mForm, guardSome, encSize_div, encSize_mod, encSize_up, encSize_upmod, encRm_div, encRm_mod, decReg_encReg, decFin_val, encMark_one, decSize_encSize, decRm_encRm, decCond_encCond, decScope_encScope, decAmoOp_encAmoOp, ofNat_toNat_self, F.major, F.fd, F.fa, F.fb, F.ffn, F.fma, F.fmb, F.fm, F.fnhi, F.fnlo, F.fab, F.fdab]

theorem launch (d a : Reg) (ma : Bool) : Statement (.launch d a ma) := by
  refine native4 _ rfl rfl fun hw rest => ?_
  exact round_R _ rest 0x38 (encReg d) (encReg a) 0 5 (encMark ma) 0 (by decide) (by have := encReg_lt d; omega) (by have := encReg_lt a; omega) (by decide) (by decide) (by have := encMark_lt ma; omega) (by decide) hw fun w F => by
    simp [decAShort, decSystem, decMarks_a w ma F.fma, rDab, rDa, rAb, rA, rNa, rNab, rDas, rNone, iDa, iShift, iField, mSized, mForm, guardSome, encSize_div, encSize_mod, encSize_up, encSize_upmod, encRm_div, encRm_mod, decReg_encReg, decFin_val, encMark_one, decSize_encSize, decRm_encRm, decCond_encCond, decScope_encScope, decAmoOp_encAmoOp, ofNat_toNat_self, F.major, F.fd, F.fa, F.fb, F.ffn, F.fma, F.fmb, F.fm, F.fnhi, F.fnlo, F.fab, F.fdab]

theorem pwrd (d a : Reg) (ma : Bool) : Statement (.pwrd d a ma) := by
  refine native4 _ rfl rfl fun hw rest => ?_
  exact round_R _ rest 0x38 (encReg d) (encReg a) 0 6 (encMark ma) 0 (by decide) (by have := encReg_lt d; omega) (by have := encReg_lt a; omega) (by decide) (by decide) (by have := encMark_lt ma; omega) (by decide) hw fun w F => by
    simp [decAShort, decSystem, decMarks_a w ma F.fma, rDab, rDa, rAb, rA, rNa, rNab, rDas, rNone, iDa, iShift, iField, mSized, mForm, guardSome, encSize_div, encSize_mod, encSize_up, encSize_upmod, encRm_div, encRm_mod, decReg_encReg, decFin_val, encMark_one, decSize_encSize, decRm_encRm, decCond_encCond, decScope_encScope, decAmoOp_encAmoOp, ofNat_toNat_self, F.major, F.fd, F.fa, F.fb, F.ffn, F.fma, F.fmb, F.fm, F.fnhi, F.fnlo, F.fab, F.fdab]

theorem brk : Statement (.brk) := by
  refine native4 _ rfl rfl fun hw rest => ?_
  exact round_R _ rest 0x38 0 0 0 7 0 0 (by decide) (by decide) (by decide) (by decide) (by decide) (by decide) (by decide) hw fun w F => by
    simp [decAShort, decSystem, rDab, rDa, rAb, rA, rNa, rNab, rDas, rNone, iDa, iShift, iField, mSized, mForm, guardSome, encSize_div, encSize_mod, encSize_up, encSize_upmod, encRm_div, encRm_mod, decReg_encReg, decFin_val, encMark_one, decSize_encSize, decRm_encRm, decCond_encCond, decScope_encScope, decAmoOp_encAmoOp, ofNat_toNat_self, F.major, F.fd, F.fa, F.fb, F.ffn, F.fma, F.fmb, F.fm, F.fnhi, F.fnlo, F.fab, F.fdab]

theorem errinj (d a b : Reg) (m : Marks) : Statement (.errinj d a b m) := by
  refine native4 _ rfl rfl fun hw rest => ?_
  exact round_R _ rest 0x38 (encReg d) (encReg a) (encReg b) 8 (encMark m.a) (encMark m.b) (by decide) (by have := encReg_lt d; omega) (by have := encReg_lt a; omega) (by have := encReg_lt b; omega) (by decide) (by have := encMark_lt m.a; omega) (by have := encMark_lt m.b; omega) hw fun w F => by
    simp [decAShort, decSystem, decMarks_of w m F.fma F.fmb, rDab, rDa, rAb, rA, rNa, rNab, rDas, rNone, iDa, iShift, iField, mSized, mForm, guardSome, encSize_div, encSize_mod, encSize_up, encSize_upmod, encRm_div, encRm_mod, decReg_encReg, decFin_val, encMark_one, decSize_encSize, decRm_encRm, decCond_encCond, decScope_encScope, decAmoOp_encAmoOp, ofNat_toNat_self, F.major, F.fd, F.fa, F.fb, F.ffn, F.fma, F.fmb, F.fm, F.fnhi, F.fnlo, F.fab, F.fdab]

theorem segrep (d a b : Reg) (m : Marks) : Statement (.segrep d a b m) := by
  refine native4 _ rfl rfl fun hw rest => ?_
  exact round_R _ rest 0x38 (encReg d) (encReg a) (encReg b) 9 (encMark m.a) (encMark m.b) (by decide) (by have := encReg_lt d; omega) (by have := encReg_lt a; omega) (by have := encReg_lt b; omega) (by decide) (by have := encMark_lt m.a; omega) (by have := encMark_lt m.b; omega) hw fun w F => by
    simp [decAShort, decSystem, decMarks_of w m F.fma F.fmb, rDab, rDa, rAb, rA, rNa, rNab, rDas, rNone, iDa, iShift, iField, mSized, mForm, guardSome, encSize_div, encSize_mod, encSize_up, encSize_upmod, encRm_div, encRm_mod, decReg_encReg, decFin_val, encMark_one, decSize_encSize, decRm_encRm, decCond_encCond, decScope_encScope, decAmoOp_encAmoOp, ofNat_toNat_self, F.major, F.fd, F.fa, F.fb, F.ffn, F.fma, F.fmb, F.fm, F.fnhi, F.fnlo, F.fab, F.fdab]

theorem fadd (d a b : Reg) (m : Marks) : Statement (.fadd d a b m) := by
  refine native4 _ rfl rfl fun hw rest => ?_
  exact round_R _ rest 0x39 (encReg d) (encReg a) (encReg b) 0 (encMark m.a) (encMark m.b) (by decide) (by have := encReg_lt d; omega) (by have := encReg_lt a; omega) (by have := encReg_lt b; omega) (by decide) (by have := encMark_lt m.a; omega) (by have := encMark_lt m.b; omega) hw fun w F => by
    simp [decAShort, decFloat, decMarks_of w m F.fma F.fmb, rDab, rDa, rAb, rA, rNa, rNab, rDas, rNone, iDa, iShift, iField, mSized, mForm, guardSome, encSize_div, encSize_mod, encSize_up, encSize_upmod, encRm_div, encRm_mod, decReg_encReg, decFin_val, encMark_one, decSize_encSize, decRm_encRm, decCond_encCond, decScope_encScope, decAmoOp_encAmoOp, ofNat_toNat_self, F.major, F.fd, F.fa, F.fb, F.ffn, F.fma, F.fmb, F.fm, F.fnhi, F.fnlo, F.fab, F.fdab]

theorem fsub (d a b : Reg) (m : Marks) : Statement (.fsub d a b m) := by
  refine native4 _ rfl rfl fun hw rest => ?_
  exact round_R _ rest 0x39 (encReg d) (encReg a) (encReg b) 1 (encMark m.a) (encMark m.b) (by decide) (by have := encReg_lt d; omega) (by have := encReg_lt a; omega) (by have := encReg_lt b; omega) (by decide) (by have := encMark_lt m.a; omega) (by have := encMark_lt m.b; omega) hw fun w F => by
    simp [decAShort, decFloat, decMarks_of w m F.fma F.fmb, rDab, rDa, rAb, rA, rNa, rNab, rDas, rNone, iDa, iShift, iField, mSized, mForm, guardSome, encSize_div, encSize_mod, encSize_up, encSize_upmod, encRm_div, encRm_mod, decReg_encReg, decFin_val, encMark_one, decSize_encSize, decRm_encRm, decCond_encCond, decScope_encScope, decAmoOp_encAmoOp, ofNat_toNat_self, F.major, F.fd, F.fa, F.fb, F.ffn, F.fma, F.fmb, F.fm, F.fnhi, F.fnlo, F.fab, F.fdab]

theorem fmul (d a b : Reg) (m : Marks) : Statement (.fmul d a b m) := by
  refine native4 _ rfl rfl fun hw rest => ?_
  exact round_R _ rest 0x39 (encReg d) (encReg a) (encReg b) 2 (encMark m.a) (encMark m.b) (by decide) (by have := encReg_lt d; omega) (by have := encReg_lt a; omega) (by have := encReg_lt b; omega) (by decide) (by have := encMark_lt m.a; omega) (by have := encMark_lt m.b; omega) hw fun w F => by
    simp [decAShort, decFloat, decMarks_of w m F.fma F.fmb, rDab, rDa, rAb, rA, rNa, rNab, rDas, rNone, iDa, iShift, iField, mSized, mForm, guardSome, encSize_div, encSize_mod, encSize_up, encSize_upmod, encRm_div, encRm_mod, decReg_encReg, decFin_val, encMark_one, decSize_encSize, decRm_encRm, decCond_encCond, decScope_encScope, decAmoOp_encAmoOp, ofNat_toNat_self, F.major, F.fd, F.fa, F.fb, F.ffn, F.fma, F.fmb, F.fm, F.fnhi, F.fnlo, F.fab, F.fdab]

theorem fmin (d a b : Reg) (m : Marks) : Statement (.fmin d a b m) := by
  refine native4 _ rfl rfl fun hw rest => ?_
  exact round_R _ rest 0x39 (encReg d) (encReg a) (encReg b) 3 (encMark m.a) (encMark m.b) (by decide) (by have := encReg_lt d; omega) (by have := encReg_lt a; omega) (by have := encReg_lt b; omega) (by decide) (by have := encMark_lt m.a; omega) (by have := encMark_lt m.b; omega) hw fun w F => by
    simp [decAShort, decFloat, decMarks_of w m F.fma F.fmb, rDab, rDa, rAb, rA, rNa, rNab, rDas, rNone, iDa, iShift, iField, mSized, mForm, guardSome, encSize_div, encSize_mod, encSize_up, encSize_upmod, encRm_div, encRm_mod, decReg_encReg, decFin_val, encMark_one, decSize_encSize, decRm_encRm, decCond_encCond, decScope_encScope, decAmoOp_encAmoOp, ofNat_toNat_self, F.major, F.fd, F.fa, F.fb, F.ffn, F.fma, F.fmb, F.fm, F.fnhi, F.fnlo, F.fab, F.fdab]

theorem fmax (d a b : Reg) (m : Marks) : Statement (.fmax d a b m) := by
  refine native4 _ rfl rfl fun hw rest => ?_
  exact round_R _ rest 0x39 (encReg d) (encReg a) (encReg b) 4 (encMark m.a) (encMark m.b) (by decide) (by have := encReg_lt d; omega) (by have := encReg_lt a; omega) (by have := encReg_lt b; omega) (by decide) (by have := encMark_lt m.a; omega) (by have := encMark_lt m.b; omega) hw fun w F => by
    simp [decAShort, decFloat, decMarks_of w m F.fma F.fmb, rDab, rDa, rAb, rA, rNa, rNab, rDas, rNone, iDa, iShift, iField, mSized, mForm, guardSome, encSize_div, encSize_mod, encSize_up, encSize_upmod, encRm_div, encRm_mod, decReg_encReg, decFin_val, encMark_one, decSize_encSize, decRm_encRm, decCond_encCond, decScope_encScope, decAmoOp_encAmoOp, ofNat_toNat_self, F.major, F.fd, F.fa, F.fb, F.ffn, F.fma, F.fmb, F.fm, F.fnhi, F.fnlo, F.fab, F.fdab]

theorem fcvti (d a : Reg) (ma : Bool) : Statement (.fcvti d a ma) := by
  refine native4 _ rfl rfl fun hw rest => ?_
  exact round_R _ rest 0x39 (encReg d) (encReg a) 0 5 (encMark ma) 0 (by decide) (by have := encReg_lt d; omega) (by have := encReg_lt a; omega) (by decide) (by decide) (by have := encMark_lt ma; omega) (by decide) hw fun w F => by
    simp [decAShort, decFloat, decMarks_a w ma F.fma, rDab, rDa, rAb, rA, rNa, rNab, rDas, rNone, iDa, iShift, iField, mSized, mForm, guardSome, encSize_div, encSize_mod, encSize_up, encSize_upmod, encRm_div, encRm_mod, decReg_encReg, decFin_val, encMark_one, decSize_encSize, decRm_encRm, decCond_encCond, decScope_encScope, decAmoOp_encAmoOp, ofNat_toNat_self, F.major, F.fd, F.fa, F.fb, F.ffn, F.fma, F.fmb, F.fm, F.fnhi, F.fnlo, F.fab, F.fdab]

theorem fcvtf (d a : Reg) (ma : Bool) : Statement (.fcvtf d a ma) := by
  refine native4 _ rfl rfl fun hw rest => ?_
  exact round_R _ rest 0x39 (encReg d) (encReg a) 0 6 (encMark ma) 0 (by decide) (by have := encReg_lt d; omega) (by have := encReg_lt a; omega) (by decide) (by decide) (by have := encMark_lt ma; omega) (by decide) hw fun w F => by
    simp [decAShort, decFloat, decMarks_a w ma F.fma, rDab, rDa, rAb, rA, rNa, rNab, rDas, rNone, iDa, iShift, iField, mSized, mForm, guardSome, encSize_div, encSize_mod, encSize_up, encSize_upmod, encRm_div, encRm_mod, decReg_encReg, decFin_val, encMark_one, decSize_encSize, decRm_encRm, decCond_encCond, decScope_encScope, decAmoOp_encAmoOp, ofNat_toNat_self, F.major, F.fd, F.fa, F.fb, F.ffn, F.fma, F.fmb, F.fm, F.fnhi, F.fnlo, F.fab, F.fdab]

theorem fabs (d a : Reg) (ma : Bool) : Statement (.fabs d a ma) := by
  refine native4 _ rfl rfl fun hw rest => ?_
  exact round_R _ rest 0x39 (encReg d) (encReg a) 0 7 (encMark ma) 0 (by decide) (by have := encReg_lt d; omega) (by have := encReg_lt a; omega) (by decide) (by decide) (by have := encMark_lt ma; omega) (by decide) hw fun w F => by
    simp [decAShort, decFloat, decMarks_a w ma F.fma, rDab, rDa, rAb, rA, rNa, rNab, rDas, rNone, iDa, iShift, iField, mSized, mForm, guardSome, encSize_div, encSize_mod, encSize_up, encSize_upmod, encRm_div, encRm_mod, decReg_encReg, decFin_val, encMark_one, decSize_encSize, decRm_encRm, decCond_encCond, decScope_encScope, decAmoOp_encAmoOp, ofNat_toNat_self, F.major, F.fd, F.fa, F.fb, F.ffn, F.fma, F.fmb, F.fm, F.fnhi, F.fnlo, F.fab, F.fdab]

theorem fneg (d a : Reg) (ma : Bool) : Statement (.fneg d a ma) := by
  refine native4 _ rfl rfl fun hw rest => ?_
  exact round_R _ rest 0x39 (encReg d) (encReg a) 0 8 (encMark ma) 0 (by decide) (by have := encReg_lt d; omega) (by have := encReg_lt a; omega) (by decide) (by decide) (by have := encMark_lt ma; omega) (by decide) hw fun w F => by
    simp [decAShort, decFloat, decMarks_a w ma F.fma, rDab, rDa, rAb, rA, rNa, rNab, rDas, rNone, iDa, iShift, iField, mSized, mForm, guardSome, encSize_div, encSize_mod, encSize_up, encSize_upmod, encRm_div, encRm_mod, decReg_encReg, decFin_val, encMark_one, decSize_encSize, decRm_encRm, decCond_encCond, decScope_encScope, decAmoOp_encAmoOp, ofNat_toNat_self, F.major, F.fd, F.fa, F.fb, F.ffn, F.fma, F.fmb, F.fm, F.fnhi, F.fnlo, F.fab, F.fdab]

theorem ffma (rm : Rm) (d a b : Reg) (m : Marks) : Statement (.ffma rm d a b m) := by
  refine native4 _ rfl rfl fun hw rest => ?_
  exact round_R _ rest 0x3A (encReg d) (encReg a) (encReg b) (encRm rm) (encMark m.a) (encMark m.b) (by decide) (by have := encReg_lt d; omega) (by have := encReg_lt a; omega) (by have := encReg_lt b; omega) (by have := encRm_lt rm; omega) (by have := encMark_lt m.a; omega) (by have := encMark_lt m.b; omega) hw fun w F => by
    simp [decAShort, decMarks_of w m F.fma F.fmb, rDab, rDa, rAb, rA, rNa, rNab, rDas, rNone, iDa, iShift, iField, mSized, mForm, guardSome, encSize_div, encSize_mod, encSize_up, encSize_upmod, encRm_div, encRm_mod, decReg_encReg, decFin_val, encMark_one, decSize_encSize, decRm_encRm, decCond_encCond, decScope_encScope, decAmoOp_encAmoOp, ofNat_toNat_self, F.major, F.fd, F.fa, F.fb, F.ffn, F.fma, F.fmb, F.fm, F.fnhi, F.fnlo, F.fab, F.fdab]

theorem movl (d : Reg) (imm : BitVec 48) : Statement (.movl d imm) := by
  refine native8 _ rfl rfl fun hw rest => ?_
  have b0 := encReg_lt d
  have b1 := imm.isLt
  refine long_A _ _ _ rest (by omega) (by decide) (by omega) _ hw ?_
  intro m k hm hk
  have f0 : fld m 24 5 = 0 := by simp only [fld]; omega
  have f1 : fld m 18 6 = encReg d := by simp only [fld]; omega
  have f2 : fld m 0 18 = imm.toNat / 2 ^ 30 := by simp only [fld]; omega
  have c0 : fld k 0 30 = imm.toNat % 2 ^ 30 := by simp only [fld]; omega
  have e : imm.toNat / 2 ^ 30 * 2 ^ 30 + imm.toNat % 2 ^ 30 = imm.toNat := by omega
  simp only [decALong, f0, f1, f2, c0, decReg_encReg, e, ofNat_toNat_self, Option.map_some]

theorem tbr (live : BitVec 32) (off : BitVec 22) : Statement (.tbr live off) := by
  refine native8 _ rfl rfl fun hw rest => ?_
  have b0 := live.isLt
  have b1 := off.isLt
  refine long_A _ _ _ rest (by omega) (by decide) (by omega) _ hw ?_
  intro m k hm hk
  have f0 : fld m 24 5 = 1 := by simp only [fld]; omega
  have f1 : fld m 22 2 = live.toNat / 2 ^ 30 := by simp only [fld]; omega
  have f2 : fld m 0 22 = off.toNat := by simp only [fld]; omega
  have c0 : fld k 0 30 = live.toNat % 2 ^ 30 := by simp only [fld]; omega
  have e : live.toNat / 2 ^ 30 * 2 ^ 30 + live.toNat % 2 ^ 30 = live.toNat := by omega
  simp only [decALong, f0, f1, f2, c0, e, ofNat_toNat_self]

theorem brf (link : Bool) (off : BitVec 53) : Statement (.brf link off) := by
  refine native8 _ rfl rfl fun hw rest => ?_
  have b0 := encMark_lt link
  have b1 := off.isLt
  refine long_A _ _ _ rest (by omega) (by decide) (by omega) _ hw ?_
  intro m k hm hk
  have f0 : fld m 24 5 = 2 := by simp only [fld]; omega
  have f1 : fld m 23 1 = encMark link := by simp only [fld]; omega
  have f2 : fld m 0 23 = off.toNat / 2 ^ 30 := by simp only [fld]; omega
  have c0 : fld k 0 30 = off.toNat % 2 ^ 30 := by simp only [fld]; omega
  have e : off.toNat / 2 ^ 30 * 2 ^ 30 + off.toNat % 2 ^ 30 = off.toNat := by omega
  simp only [decALong, f0, f1, f2, c0, e, encMark_one, ofNat_toNat_self]

theorem vadd (d a b : VOp) (w : Fin 8) (rm : Rm) : Statement (.vadd d a b w rm) := by
  refine native4 _ rfl rfl fun hw rest => ?_
  exact round_V _ rest 0 (encVOp d) (encVOp a) (encVOp b) 0 w.val (encRm rm) (by decide) (by have := encVOp_lt d; omega) (by have := encVOp_lt a; omega) (by have := encVOp_lt b; omega) (by decide) (by have := w.isLt; omega) (by have := encRm_lt rm; omega) hw fun w F => by
    simp [decCShort, decVFloat, vDab, vDa, vDabN, vDaN, guardSome, decWait, decVOp_encVOp, decRm_encRm, decVCond_encVCond, decRedOp_encRedOp, decFin_val, encMark_one, encRm_rn, red_lo, red_hi, F.major, F.fd, F.fa, F.fb, F.ffn, F.fnlo, F.fnhi, F.fw, F.frm]

theorem vsub (d a b : VOp) (w : Fin 8) (rm : Rm) : Statement (.vsub d a b w rm) := by
  refine native4 _ rfl rfl fun hw rest => ?_
  exact round_V _ rest 0 (encVOp d) (encVOp a) (encVOp b) 1 w.val (encRm rm) (by decide) (by have := encVOp_lt d; omega) (by have := encVOp_lt a; omega) (by have := encVOp_lt b; omega) (by decide) (by have := w.isLt; omega) (by have := encRm_lt rm; omega) hw fun w F => by
    simp [decCShort, decVFloat, vDab, vDa, vDabN, vDaN, guardSome, decWait, decVOp_encVOp, decRm_encRm, decVCond_encVCond, decRedOp_encRedOp, decFin_val, encMark_one, encRm_rn, red_lo, red_hi, F.major, F.fd, F.fa, F.fb, F.ffn, F.fnlo, F.fnhi, F.fw, F.frm]

theorem vmul (d a b : VOp) (w : Fin 8) (rm : Rm) : Statement (.vmul d a b w rm) := by
  refine native4 _ rfl rfl fun hw rest => ?_
  exact round_V _ rest 0 (encVOp d) (encVOp a) (encVOp b) 2 w.val (encRm rm) (by decide) (by have := encVOp_lt d; omega) (by have := encVOp_lt a; omega) (by have := encVOp_lt b; omega) (by decide) (by have := w.isLt; omega) (by have := encRm_lt rm; omega) hw fun w F => by
    simp [decCShort, decVFloat, vDab, vDa, vDabN, vDaN, guardSome, decWait, decVOp_encVOp, decRm_encRm, decVCond_encVCond, decRedOp_encRedOp, decFin_val, encMark_one, encRm_rn, red_lo, red_hi, F.major, F.fd, F.fa, F.fb, F.ffn, F.fnlo, F.fnhi, F.fw, F.frm]

theorem vmin (d a b : VOp) (w : Fin 8) (rm : Rm) : Statement (.vmin d a b w rm) := by
  refine native4 _ rfl rfl fun hw rest => ?_
  exact round_V _ rest 0 (encVOp d) (encVOp a) (encVOp b) 3 w.val (encRm rm) (by decide) (by have := encVOp_lt d; omega) (by have := encVOp_lt a; omega) (by have := encVOp_lt b; omega) (by decide) (by have := w.isLt; omega) (by have := encRm_lt rm; omega) hw fun w F => by
    simp [decCShort, decVFloat, vDab, vDa, vDabN, vDaN, guardSome, decWait, decVOp_encVOp, decRm_encRm, decVCond_encVCond, decRedOp_encRedOp, decFin_val, encMark_one, encRm_rn, red_lo, red_hi, F.major, F.fd, F.fa, F.fb, F.ffn, F.fnlo, F.fnhi, F.fw, F.frm]

theorem vmax (d a b : VOp) (w : Fin 8) (rm : Rm) : Statement (.vmax d a b w rm) := by
  refine native4 _ rfl rfl fun hw rest => ?_
  exact round_V _ rest 0 (encVOp d) (encVOp a) (encVOp b) 4 w.val (encRm rm) (by decide) (by have := encVOp_lt d; omega) (by have := encVOp_lt a; omega) (by have := encVOp_lt b; omega) (by decide) (by have := w.isLt; omega) (by have := encRm_lt rm; omega) hw fun w F => by
    simp [decCShort, decVFloat, vDab, vDa, vDabN, vDaN, guardSome, decWait, decVOp_encVOp, decRm_encRm, decVCond_encVCond, decRedOp_encRedOp, decFin_val, encMark_one, encRm_rn, red_lo, red_hi, F.major, F.fd, F.fa, F.fb, F.ffn, F.fnlo, F.fnhi, F.fw, F.frm]

theorem vabs (d a : VOp) (w : Fin 8) (rm : Rm) : Statement (.vabs d a w rm) := by
  refine native4 _ rfl rfl fun hw rest => ?_
  obtain rfl : rm = .rn := of_decide_eq_true (Bool.and_eq_true_iff.1 hw).2
  exact round_V _ rest 0 (encVOp d) (encVOp a) 0 5 w.val (encRm .rn) (by decide) (by have := encVOp_lt d; omega) (by have := encVOp_lt a; omega) (by decide) (by decide) (by have := w.isLt; omega) (by decide) hw fun w F => by
    simp [decCShort, decVFloat, vDab, vDa, vDabN, vDaN, guardSome, decWait, decVOp_encVOp, decRm_encRm, decVCond_encVCond, decRedOp_encRedOp, decFin_val, encMark_one, encRm_rn, red_lo, red_hi, F.major, F.fd, F.fa, F.fb, F.ffn, F.fnlo, F.fnhi, F.fw, F.frm]

theorem vneg (d a : VOp) (w : Fin 8) (rm : Rm) : Statement (.vneg d a w rm) := by
  refine native4 _ rfl rfl fun hw rest => ?_
  obtain rfl : rm = .rn := of_decide_eq_true (Bool.and_eq_true_iff.1 hw).2
  exact round_V _ rest 0 (encVOp d) (encVOp a) 0 6 w.val (encRm .rn) (by decide) (by have := encVOp_lt d; omega) (by have := encVOp_lt a; omega) (by decide) (by decide) (by have := w.isLt; omega) (by decide) hw fun w F => by
    simp [decCShort, decVFloat, vDab, vDa, vDabN, vDaN, guardSome, decWait, decVOp_encVOp, decRm_encRm, decVCond_encVCond, decRedOp_encRedOp, decFin_val, encMark_one, encRm_rn, red_lo, red_hi, F.major, F.fd, F.fa, F.fb, F.ffn, F.fnlo, F.fnhi, F.fw, F.frm]

theorem vmov (d a : VOp) (w : Fin 8) (rm : Rm) : Statement (.vmov d a w rm) := by
  refine native4 _ rfl rfl fun hw rest => ?_
  exact round_V _ rest 0 (encVOp d) (encVOp a) 0 7 w.val (encRm rm) (by decide) (by have := encVOp_lt d; omega) (by have := encVOp_lt a; omega) (by decide) (by decide) (by have := w.isLt; omega) (by have := encRm_lt rm; omega) hw fun w F => by
    simp [decCShort, decVFloat, vDab, vDa, vDabN, vDaN, guardSome, decWait, decVOp_encVOp, decRm_encRm, decVCond_encVCond, decRedOp_encRedOp, decFin_val, encMark_one, encRm_rn, red_lo, red_hi, F.major, F.fd, F.fa, F.fb, F.ffn, F.fnlo, F.fnhi, F.fw, F.frm]

theorem vsel (d a b : VOp) (w : Fin 8) (rm : Rm) : Statement (.vsel d a b w rm) := by
  refine native4 _ rfl rfl fun hw rest => ?_
  exact round_V _ rest 0 (encVOp d) (encVOp a) (encVOp b) 8 w.val (encRm rm) (by decide) (by have := encVOp_lt d; omega) (by have := encVOp_lt a; omega) (by have := encVOp_lt b; omega) (by decide) (by have := w.isLt; omega) (by have := encRm_lt rm; omega) hw fun w F => by
    simp [decCShort, decVFloat, vDab, vDa, vDabN, vDaN, guardSome, decWait, decVOp_encVOp, decRm_encRm, decVCond_encVCond, decRedOp_encRedOp, decFin_val, encMark_one, encRm_rn, red_lo, red_hi, F.major, F.fd, F.fa, F.fb, F.ffn, F.fnlo, F.fnhi, F.fw, F.frm]

theorem vfma (d a b : VOp) (w : Fin 8) (rm : Rm) : Statement (.vfma d a b w rm) := by
  refine native4 _ rfl rfl fun hw rest => ?_
  exact round_V _ rest 1 (encVOp d) (encVOp a) (encVOp b) 0 w.val (encRm rm) (by decide) (by have := encVOp_lt d; omega) (by have := encVOp_lt a; omega) (by have := encVOp_lt b; omega) (by decide) (by have := w.isLt; omega) (by have := encRm_lt rm; omega) hw fun w F => by
    simp [decCShort, vDab, vDa, vDabN, vDaN, guardSome, decWait, decVOp_encVOp, decRm_encRm, decVCond_encVCond, decRedOp_encRedOp, decFin_val, encMark_one, encRm_rn, red_lo, red_hi, F.major, F.fd, F.fa, F.fb, F.ffn, F.fnlo, F.fnhi, F.fw, F.frm]

theorem vcmp (c : VCond) (d a b : VOp) (w : Fin 8) : Statement (.vcmp c d a b w) := by
  refine native4 _ rfl rfl fun hw rest => ?_
  exact round_V _ rest 2 (encVOp d) (encVOp a) (encVOp b) (encVCond c) w.val (encRm .rn) (by decide) (by have := encVOp_lt d; omega) (by have := encVOp_lt a; omega) (by have := encVOp_lt b; omega) (by have := encVCond_lt c; omega) (by have := w.isLt; omega) (by decide) hw fun w F => by
    simp [decCShort, vDab, vDa, vDabN, vDaN, guardSome, decWait, decVOp_encVOp, decRm_encRm, decVCond_encVCond, decRedOp_encRedOp, decFin_val, encMark_one, encRm_rn, red_lo, red_hi, F.major, F.fd, F.fa, F.fb, F.ffn, F.fnlo, F.fnhi, F.fw, F.frm]

theorem vred (op : RedOp) (dim : Fin 4) (d a : VOp) (w : Fin 8) (rm : Rm) : Statement (.vred op dim d a w rm) := by
  refine native4 _ rfl rfl fun hw rest => ?_
  exact round_V _ rest 3 (encVOp d) (encVOp a) 0 (dim.val * 4 + encRedOp op) w.val (encRm rm) (by decide) (by have := encVOp_lt d; omega) (by have := encVOp_lt a; omega) (by decide) (by have := encRedOp_lt op; have := dim.isLt; omega) (by have := w.isLt; omega) (by have := encRm_lt rm; omega) hw fun w F => by
    simp [decCShort, vDab, vDa, vDabN, vDaN, guardSome, decWait, decVOp_encVOp, decRm_encRm, decVCond_encVCond, decRedOp_encRedOp, decFin_val, encMark_one, encRm_rn, red_lo, red_hi, F.major, F.fd, F.fa, F.fb, F.ffn, F.fnlo, F.fnhi, F.fw, F.frm]

theorem viadd (d a b : VOp) (w : Fin 8) : Statement (.viadd d a b w) := by
  refine native4 _ rfl rfl fun hw rest => ?_
  exact round_V _ rest 4 (encVOp d) (encVOp a) (encVOp b) 0 w.val (encRm .rn) (by decide) (by have := encVOp_lt d; omega) (by have := encVOp_lt a; omega) (by have := encVOp_lt b; omega) (by decide) (by have := w.isLt; omega) (by decide) hw fun w F => by
    simp [decCShort, decVInt, vDab, vDa, vDabN, vDaN, guardSome, decWait, decVOp_encVOp, decRm_encRm, decVCond_encVCond, decRedOp_encRedOp, decFin_val, encMark_one, encRm_rn, red_lo, red_hi, F.major, F.fd, F.fa, F.fb, F.ffn, F.fnlo, F.fnhi, F.fw, F.frm]

theorem visub (d a b : VOp) (w : Fin 8) : Statement (.visub d a b w) := by
  refine native4 _ rfl rfl fun hw rest => ?_
  exact round_V _ rest 4 (encVOp d) (encVOp a) (encVOp b) 1 w.val (encRm .rn) (by decide) (by have := encVOp_lt d; omega) (by have := encVOp_lt a; omega) (by have := encVOp_lt b; omega) (by decide) (by have := w.isLt; omega) (by decide) hw fun w F => by
    simp [decCShort, decVInt, vDab, vDa, vDabN, vDaN, guardSome, decWait, decVOp_encVOp, decRm_encRm, decVCond_encVCond, decRedOp_encRedOp, decFin_val, encMark_one, encRm_rn, red_lo, red_hi, F.major, F.fd, F.fa, F.fb, F.ffn, F.fnlo, F.fnhi, F.fw, F.frm]

theorem vimul (d a b : VOp) (w : Fin 8) : Statement (.vimul d a b w) := by
  refine native4 _ rfl rfl fun hw rest => ?_
  exact round_V _ rest 4 (encVOp d) (encVOp a) (encVOp b) 2 w.val (encRm .rn) (by decide) (by have := encVOp_lt d; omega) (by have := encVOp_lt a; omega) (by have := encVOp_lt b; omega) (by decide) (by have := w.isLt; omega) (by decide) hw fun w F => by
    simp [decCShort, decVInt, vDab, vDa, vDabN, vDaN, guardSome, decWait, decVOp_encVOp, decRm_encRm, decVCond_encVCond, decRedOp_encRedOp, decFin_val, encMark_one, encRm_rn, red_lo, red_hi, F.major, F.fd, F.fa, F.fb, F.ffn, F.fnlo, F.fnhi, F.fw, F.frm]

theorem vand (d a b : VOp) (w : Fin 8) : Statement (.vand d a b w) := by
  refine native4 _ rfl rfl fun hw rest => ?_
  exact round_V _ rest 4 (encVOp d) (encVOp a) (encVOp b) 3 w.val (encRm .rn) (by decide) (by have := encVOp_lt d; omega) (by have := encVOp_lt a; omega) (by have := encVOp_lt b; omega) (by decide) (by have := w.isLt; omega) (by decide) hw fun w F => by
    simp [decCShort, decVInt, vDab, vDa, vDabN, vDaN, guardSome, decWait, decVOp_encVOp, decRm_encRm, decVCond_encVCond, decRedOp_encRedOp, decFin_val, encMark_one, encRm_rn, red_lo, red_hi, F.major, F.fd, F.fa, F.fb, F.ffn, F.fnlo, F.fnhi, F.fw, F.frm]

theorem vor (d a b : VOp) (w : Fin 8) : Statement (.vor d a b w) := by
  refine native4 _ rfl rfl fun hw rest => ?_
  exact round_V _ rest 4 (encVOp d) (encVOp a) (encVOp b) 4 w.val (encRm .rn) (by decide) (by have := encVOp_lt d; omega) (by have := encVOp_lt a; omega) (by have := encVOp_lt b; omega) (by decide) (by have := w.isLt; omega) (by decide) hw fun w F => by
    simp [decCShort, decVInt, vDab, vDa, vDabN, vDaN, guardSome, decWait, decVOp_encVOp, decRm_encRm, decVCond_encVCond, decRedOp_encRedOp, decFin_val, encMark_one, encRm_rn, red_lo, red_hi, F.major, F.fd, F.fa, F.fb, F.ffn, F.fnlo, F.fnhi, F.fw, F.frm]

theorem vxor (d a b : VOp) (w : Fin 8) : Statement (.vxor d a b w) := by
  refine native4 _ rfl rfl fun hw rest => ?_
  exact round_V _ rest 4 (encVOp d) (encVOp a) (encVOp b) 5 w.val (encRm .rn) (by decide) (by have := encVOp_lt d; omega) (by have := encVOp_lt a; omega) (by have := encVOp_lt b; omega) (by decide) (by have := w.isLt; omega) (by decide) hw fun w F => by
    simp [decCShort, decVInt, vDab, vDa, vDabN, vDaN, guardSome, decWait, decVOp_encVOp, decRm_encRm, decVCond_encVCond, decRedOp_encRedOp, decFin_val, encMark_one, encRm_rn, red_lo, red_hi, F.major, F.fd, F.fa, F.fb, F.ffn, F.fnlo, F.fnhi, F.fw, F.frm]

theorem vshl (d a b : VOp) (w : Fin 8) : Statement (.vshl d a b w) := by
  refine native4 _ rfl rfl fun hw rest => ?_
  exact round_V _ rest 4 (encVOp d) (encVOp a) (encVOp b) 6 w.val (encRm .rn) (by decide) (by have := encVOp_lt d; omega) (by have := encVOp_lt a; omega) (by have := encVOp_lt b; omega) (by decide) (by have := w.isLt; omega) (by decide) hw fun w F => by
    simp [decCShort, decVInt, vDab, vDa, vDabN, vDaN, guardSome, decWait, decVOp_encVOp, decRm_encRm, decVCond_encVCond, decRedOp_encRedOp, decFin_val, encMark_one, encRm_rn, red_lo, red_hi, F.major, F.fd, F.fa, F.fb, F.ffn, F.fnlo, F.fnhi, F.fw, F.frm]

theorem vshr (d a b : VOp) (w : Fin 8) : Statement (.vshr d a b w) := by
  refine native4 _ rfl rfl fun hw rest => ?_
  exact round_V _ rest 4 (encVOp d) (encVOp a) (encVOp b) 7 w.val (encRm .rn) (by decide) (by have := encVOp_lt d; omega) (by have := encVOp_lt a; omega) (by have := encVOp_lt b; omega) (by decide) (by have := w.isLt; omega) (by decide) hw fun w F => by
    simp [decCShort, decVInt, vDab, vDa, vDabN, vDaN, guardSome, decWait, decVOp_encVOp, decRm_encRm, decVCond_encVCond, decRedOp_encRedOp, decFin_val, encMark_one, encRm_rn, red_lo, red_hi, F.major, F.fd, F.fa, F.fb, F.ffn, F.fnlo, F.fnhi, F.fw, F.frm]

theorem vsar (d a b : VOp) (w : Fin 8) : Statement (.vsar d a b w) := by
  refine native4 _ rfl rfl fun hw rest => ?_
  exact round_V _ rest 4 (encVOp d) (encVOp a) (encVOp b) 8 w.val (encRm .rn) (by decide) (by have := encVOp_lt d; omega) (by have := encVOp_lt a; omega) (by have := encVOp_lt b; omega) (by decide) (by have := w.isLt; omega) (by decide) hw fun w F => by
    simp [decCShort, decVInt, vDab, vDa, vDabN, vDaN, guardSome, decWait, decVOp_encVOp, decRm_encRm, decVCond_encVCond, decRedOp_encRedOp, decFin_val, encMark_one, encRm_rn, red_lo, red_hi, F.major, F.fd, F.fa, F.fb, F.ffn, F.fnlo, F.fnhi, F.fw, F.frm]

theorem vexp2 (d a : VOp) (w : Fin 8) : Statement (.vexp2 d a w) := by
  refine native4 _ rfl rfl fun hw rest => ?_
  exact round_V _ rest 5 (encVOp d) (encVOp a) 0 0 w.val (encRm .rn) (by decide) (by have := encVOp_lt d; omega) (by have := encVOp_lt a; omega) (by decide) (by decide) (by have := w.isLt; omega) (by decide) hw fun w F => by
    simp [decCShort, decVSpecial, vDab, vDa, vDabN, vDaN, guardSome, decWait, decVOp_encVOp, decRm_encRm, decVCond_encVCond, decRedOp_encRedOp, decFin_val, encMark_one, encRm_rn, red_lo, red_hi, F.major, F.fd, F.fa, F.fb, F.ffn, F.fnlo, F.fnhi, F.fw, F.frm]

theorem vlog2 (d a : VOp) (w : Fin 8) : Statement (.vlog2 d a w) := by
  refine native4 _ rfl rfl fun hw rest => ?_
  exact round_V _ rest 5 (encVOp d) (encVOp a) 0 1 w.val (encRm .rn) (by decide) (by have := encVOp_lt d; omega) (by have := encVOp_lt a; omega) (by decide) (by decide) (by have := w.isLt; omega) (by decide) hw fun w F => by
    simp [decCShort, decVSpecial, vDab, vDa, vDabN, vDaN, guardSome, decWait, decVOp_encVOp, decRm_encRm, decVCond_encVCond, decRedOp_encRedOp, decFin_val, encMark_one, encRm_rn, red_lo, red_hi, F.major, F.fd, F.fa, F.fb, F.ffn, F.fnlo, F.fnhi, F.fw, F.frm]

theorem vrcp (d a : VOp) (w : Fin 8) : Statement (.vrcp d a w) := by
  refine native4 _ rfl rfl fun hw rest => ?_
  exact round_V _ rest 5 (encVOp d) (encVOp a) 0 2 w.val (encRm .rn) (by decide) (by have := encVOp_lt d; omega) (by have := encVOp_lt a; omega) (by decide) (by decide) (by have := w.isLt; omega) (by decide) hw fun w F => by
    simp [decCShort, decVSpecial, vDab, vDa, vDabN, vDaN, guardSome, decWait, decVOp_encVOp, decRm_encRm, decVCond_encVCond, decRedOp_encRedOp, decFin_val, encMark_one, encRm_rn, red_lo, red_hi, F.major, F.fd, F.fa, F.fb, F.ffn, F.fnlo, F.fnhi, F.fw, F.frm]

theorem vrsq (d a : VOp) (w : Fin 8) : Statement (.vrsq d a w) := by
  refine native4 _ rfl rfl fun hw rest => ?_
  exact round_V _ rest 5 (encVOp d) (encVOp a) 0 3 w.val (encRm .rn) (by decide) (by have := encVOp_lt d; omega) (by have := encVOp_lt a; omega) (by decide) (by decide) (by have := w.isLt; omega) (by decide) hw fun w F => by
    simp [decCShort, decVSpecial, vDab, vDa, vDabN, vDaN, guardSome, decWait, decVOp_encVOp, decRm_encRm, decVCond_encVCond, decRedOp_encRedOp, decFin_val, encMark_one, encRm_rn, red_lo, red_hi, F.major, F.fd, F.fa, F.fb, F.ffn, F.fnlo, F.fnhi, F.fw, F.frm]

theorem vtanh (d a : VOp) (w : Fin 8) : Statement (.vtanh d a w) := by
  refine native4 _ rfl rfl fun hw rest => ?_
  exact round_V _ rest 5 (encVOp d) (encVOp a) 0 4 w.val (encRm .rn) (by decide) (by have := encVOp_lt d; omega) (by have := encVOp_lt a; omega) (by decide) (by decide) (by have := w.isLt; omega) (by decide) hw fun w F => by
    simp [decCShort, decVSpecial, vDab, vDa, vDabN, vDaN, guardSome, decWait, decVOp_encVOp, decRm_encRm, decVCond_encVCond, decRedOp_encRedOp, decFin_val, encMark_one, encRm_rn, red_lo, red_hi, F.major, F.fd, F.fa, F.fb, F.ffn, F.fnlo, F.fnhi, F.fw, F.frm]

theorem verf (d a : VOp) (w : Fin 8) : Statement (.verf d a w) := by
  refine native4 _ rfl rfl fun hw rest => ?_
  exact round_V _ rest 5 (encVOp d) (encVOp a) 0 5 w.val (encRm .rn) (by decide) (by have := encVOp_lt d; omega) (by have := encVOp_lt a; omega) (by decide) (by decide) (by have := w.isLt; omega) (by decide) hw fun w F => by
    simp [decCShort, decVSpecial, vDab, vDa, vDabN, vDaN, guardSome, decWait, decVOp_encVOp, decRm_encRm, decVCond_encVCond, decRedOp_encRedOp, decFin_val, encMark_one, encRm_rn, red_lo, red_hi, F.major, F.fd, F.fa, F.fb, F.ffn, F.fnlo, F.fnhi, F.fw, F.frm]

theorem vsin (d a : VOp) (w : Fin 8) : Statement (.vsin d a w) := by
  refine native4 _ rfl rfl fun hw rest => ?_
  exact round_V _ rest 5 (encVOp d) (encVOp a) 0 6 w.val (encRm .rn) (by decide) (by have := encVOp_lt d; omega) (by have := encVOp_lt a; omega) (by decide) (by decide) (by have := w.isLt; omega) (by decide) hw fun w F => by
    simp [decCShort, decVSpecial, vDab, vDa, vDabN, vDaN, guardSome, decWait, decVOp_encVOp, decRm_encRm, decVCond_encVCond, decRedOp_encRedOp, decFin_val, encMark_one, encRm_rn, red_lo, red_hi, F.major, F.fd, F.fa, F.fb, F.ffn, F.fnlo, F.fnhi, F.fw, F.frm]

theorem vcos (d a : VOp) (w : Fin 8) : Statement (.vcos d a w) := by
  refine native4 _ rfl rfl fun hw rest => ?_
  exact round_V _ rest 5 (encVOp d) (encVOp a) 0 7 w.val (encRm .rn) (by decide) (by have := encVOp_lt d; omega) (by have := encVOp_lt a; omega) (by decide) (by decide) (by have := w.isLt; omega) (by decide) hw fun w F => by
    simp [decCShort, decVSpecial, vDab, vDa, vDabN, vDaN, guardSome, decWait, decVOp_encVOp, decRm_encRm, decVCond_encVCond, decRedOp_encRedOp, decFin_val, encMark_one, encRm_rn, red_lo, red_hi, F.major, F.fd, F.fa, F.fb, F.ffn, F.fnlo, F.fnhi, F.fw, F.frm]

theorem vmatch (d a : VOp) (w : Fin 8) : Statement (.vmatch d a w) := by
  refine native4 _ rfl rfl fun hw rest => ?_
  exact round_V _ rest 6 (encVOp d) (encVOp a) 0 0 w.val (encRm .rn) (by decide) (by have := encVOp_lt d; omega) (by have := encVOp_lt a; omega) (by decide) (by decide) (by have := w.isLt; omega) (by decide) hw fun w F => by
    simp [decCShort, decVHelp, vDab, vDa, vDabN, vDaN, guardSome, decWait, decVOp_encVOp, decRm_encRm, decVCond_encVCond, decRedOp_encRedOp, decFin_val, encMark_one, encRm_rn, red_lo, red_hi, F.major, F.fd, F.fa, F.fb, F.ffn, F.fnlo, F.fnhi, F.fw, F.frm]

theorem vscan (d a : VOp) (w : Fin 8) (rm : Rm) : Statement (.vscan d a w rm) := by
  refine native4 _ rfl rfl fun hw rest => ?_
  exact round_V _ rest 6 (encVOp d) (encVOp a) 0 1 w.val (encRm rm) (by decide) (by have := encVOp_lt d; omega) (by have := encVOp_lt a; omega) (by decide) (by decide) (by have := w.isLt; omega) (by have := encRm_lt rm; omega) hw fun w F => by
    simp [decCShort, decVHelp, vDab, vDa, vDabN, vDaN, guardSome, decWait, decVOp_encVOp, decRm_encRm, decVCond_encVCond, decRedOp_encRedOp, decFin_val, encMark_one, encRm_rn, red_lo, red_hi, F.major, F.fd, F.fa, F.fb, F.ffn, F.fnlo, F.fnhi, F.fw, F.frm]

theorem vgath (d a b : VOp) (w : Fin 8) (rm : Rm) : Statement (.vgath d a b w rm) := by
  refine native4 _ rfl rfl fun hw rest => ?_
  exact round_V _ rest 6 (encVOp d) (encVOp a) (encVOp b) 2 w.val (encRm rm) (by decide) (by have := encVOp_lt d; omega) (by have := encVOp_lt a; omega) (by have := encVOp_lt b; omega) (by decide) (by have := w.isLt; omega) (by have := encRm_lt rm; omega) hw fun w F => by
    simp [decCShort, decVHelp, vDab, vDa, vDabN, vDaN, guardSome, decWait, decVOp_encVOp, decRm_encRm, decVCond_encVCond, decRedOp_encRedOp, decFin_val, encMark_one, encRm_rn, red_lo, red_hi, F.major, F.fd, F.fa, F.fb, F.ffn, F.fnlo, F.fnhi, F.fw, F.frm]

theorem vscat (d a b : VOp) (w : Fin 8) (rm : Rm) : Statement (.vscat d a b w rm) := by
  refine native4 _ rfl rfl fun hw rest => ?_
  exact round_V _ rest 6 (encVOp d) (encVOp a) (encVOp b) 3 w.val (encRm rm) (by decide) (by have := encVOp_lt d; omega) (by have := encVOp_lt a; omega) (by have := encVOp_lt b; omega) (by decide) (by have := w.isLt; omega) (by have := encRm_lt rm; omega) hw fun w F => by
    simp [decCShort, decVHelp, vDab, vDa, vDabN, vDaN, guardSome, decWait, decVOp_encVOp, decRm_encRm, decVCond_encVCond, decRedOp_encRedOp, decFin_val, encMark_one, encRm_rn, red_lo, red_hi, F.major, F.fd, F.fa, F.fb, F.ffn, F.fnlo, F.fnhi, F.fw, F.frm]

theorem vbmax (d a : VOp) (w : Fin 8) (rm : Rm) : Statement (.vbmax d a w rm) := by
  refine native4 _ rfl rfl fun hw rest => ?_
  exact round_V _ rest 6 (encVOp d) (encVOp a) 0 4 w.val (encRm rm) (by decide) (by have := encVOp_lt d; omega) (by have := encVOp_lt a; omega) (by decide) (by decide) (by have := w.isLt; omega) (by have := encRm_lt rm; omega) hw fun w F => by
    simp [decCShort, decVHelp, vDab, vDa, vDabN, vDaN, guardSome, decWait, decVOp_encVOp, decRm_encRm, decVCond_encVCond, decRedOp_encRedOp, decFin_val, encMark_one, encRm_rn, red_lo, red_hi, F.major, F.fd, F.fa, F.fb, F.ffn, F.fnlo, F.fnhi, F.fw, F.frm]

theorem vqnt (d a : VOp) (n : Fin 8) : Statement (.vqnt d a n) := by
  refine native4 _ rfl rfl fun hw rest => ?_
  exact round_V _ rest 6 (encVOp d) (encVOp a) 0 5 n.val (encRm .rn) (by decide) (by have := encVOp_lt d; omega) (by have := encVOp_lt a; omega) (by decide) (by decide) (by have := n.isLt; omega) (by decide) hw fun w F => by
    simp [decCShort, decVHelp, vDab, vDa, vDabN, vDaN, guardSome, decWait, decVOp_encVOp, decRm_encRm, decVCond_encVCond, decRedOp_encRedOp, decFin_val, encMark_one, encRm_rn, red_lo, red_hi, F.major, F.fd, F.fa, F.fb, F.ffn, F.fnlo, F.fnhi, F.fw, F.frm]

theorem vwmax (k : Fin 16) (d a : VOp) (w : Fin 8) (rm : Rm) : Statement (.vwmax k d a w rm) := by
  refine native4 _ rfl rfl fun hw rest => ?_
  exact round_V _ rest 7 (encVOp d) (encVOp a) 0 k.val w.val (encRm rm) (by decide) (by have := encVOp_lt d; omega) (by have := encVOp_lt a; omega) (by decide) (by have := k.isLt; omega) (by have := w.isLt; omega) (by have := encRm_lt rm; omega) hw fun w F => by
    simp [decCShort, vDab, vDa, vDabN, vDaN, guardSome, decWait, decVOp_encVOp, decRm_encRm, decVCond_encVCond, decRedOp_encRedOp, decFin_val, encMark_one, encRm_rn, red_lo, red_hi, F.major, F.fd, F.fa, F.fb, F.ffn, F.fnlo, F.fnhi, F.fw, F.frm]

theorem mmaUnfold (t : Fin 8) (f : Fin 4) (b : VOp) (lead : Bool) : Statement (.mmaUnfold t f b lead) := by
  refine native4 _ rfl rfl fun hw rest => ?_
  exact round_X _ rest 8 t.val f.val 1 0 (encVOp b) 0 (encMark lead * 8) (by decide) (by have := t.isLt; omega) (by have := f.isLt; omega) (by decide) (by decide) (by have := encVOp_lt b; omega) (by decide) (by have := encMark_lt lead; omega) hw fun w F => by
    simp [decCShort, decMatrix, vDab, vDa, vDabN, vDaN, guardSome, decWait, decVOp_encVOp, decRm_encRm, decVCond_encVCond, decRedOp_encRedOp, decFin_val, encMark_one, encRm_rn, red_lo, red_hi, F.major, F.ft, F.ff, F.fu, F.fuf, F.fa, F.fb, F.ffn, F.ffl, F.flead, F.flow, F.ftail]

theorem mmaShape (t : Fin 8) (a b : VOp) (lead : Bool) : Statement (.mmaShape t a b lead) := by
  refine native4 _ rfl rfl fun hw rest => ?_
  exact round_X _ rest 8 t.val 0 0 (encVOp a) (encVOp b) 0 (encMark lead * 8) (by decide) (by have := t.isLt; omega) (by decide) (by decide) (by have := encVOp_lt a; omega) (by have := encVOp_lt b; omega) (by decide) (by have := encMark_lt lead; omega) hw fun w F => by
    simp [decCShort, decMatrix, vDab, vDa, vDabN, vDaN, guardSome, decWait, decVOp_encVOp, decRm_encRm, decVCond_encVCond, decRedOp_encRedOp, decFin_val, encMark_one, encRm_rn, red_lo, red_hi, F.major, F.ft, F.ff, F.fu, F.fuf, F.fa, F.fb, F.ffn, F.ffl, F.flead, F.flow, F.ftail]

theorem mzero (t : Fin 8) : Statement (.mzero t) := by
  refine native4 _ rfl rfl fun hw rest => ?_
  exact round_X _ rest 8 t.val 0 0 0 0 1 0 (by decide) (by have := t.isLt; omega) (by decide) (by decide) (by decide) (by decide) (by decide) (by decide) hw fun w F => by
    simp [decCShort, decMatrix, vDab, vDa, vDabN, vDaN, guardSome, decWait, decVOp_encVOp, decRm_encRm, decVCond_encVCond, decRedOp_encRedOp, decFin_val, encMark_one, encRm_rn, red_lo, red_hi, F.major, F.ft, F.ff, F.fu, F.fuf, F.fa, F.fb, F.ffn, F.ffl, F.flead, F.flow, F.ftail]

theorem mload (t : Fin 8) (a : VOp) : Statement (.mload t a) := by
  refine native4 _ rfl rfl fun hw rest => ?_
  exact round_X _ rest 8 t.val 0 0 (encVOp a) 0 2 0 (by decide) (by have := t.isLt; omega) (by decide) (by decide) (by have := encVOp_lt a; omega) (by decide) (by decide) (by decide) hw fun w F => by
    simp [decCShort, decMatrix, vDab, vDa, vDabN, vDaN, guardSome, decWait, decVOp_encVOp, decRm_encRm, decVCond_encVCond, decRedOp_encRedOp, decFin_val, encMark_one, encRm_rn, red_lo, red_hi, F.major, F.ft, F.ff, F.fu, F.fuf, F.fa, F.fb, F.ffn, F.ffl, F.flead, F.flow, F.ftail]

theorem mstore (t : Fin 8) (a : VOp) : Statement (.mstore t a) := by
  refine native4 _ rfl rfl fun hw rest => ?_
  exact round_X _ rest 8 t.val 0 0 (encVOp a) 0 3 0 (by decide) (by have := t.isLt; omega) (by decide) (by decide) (by have := encVOp_lt a; omega) (by decide) (by decide) (by decide) hw fun w F => by
    simp [decCShort, decMatrix, vDab, vDa, vDabN, vDaN, guardSome, decWait, decVOp_encVOp, decRm_encRm, decVCond_encVCond, decRedOp_encRedOp, decFin_val, encMark_one, encRm_rn, red_lo, red_hi, F.major, F.ft, F.ff, F.fu, F.fuf, F.fa, F.fb, F.ffn, F.ffl, F.flead, F.flow, F.ftail]

theorem msave (t : Fin 8) (a : VOp) : Statement (.msave t a) := by
  refine native4 _ rfl rfl fun hw rest => ?_
  exact round_X _ rest 8 t.val 0 0 (encVOp a) 0 4 0 (by decide) (by have := t.isLt; omega) (by decide) (by decide) (by have := encVOp_lt a; omega) (by decide) (by decide) (by decide) hw fun w F => by
    simp [decCShort, decMatrix, vDab, vDa, vDabN, vDaN, guardSome, decWait, decVOp_encVOp, decRm_encRm, decVCond_encVCond, decRedOp_encRedOp, decFin_val, encMark_one, encRm_rn, red_lo, red_hi, F.major, F.ft, F.ff, F.fu, F.fuf, F.fa, F.fb, F.ffn, F.ffl, F.flead, F.flow, F.ftail]

theorem mrest (t : Fin 8) (a : VOp) : Statement (.mrest t a) := by
  refine native4 _ rfl rfl fun hw rest => ?_
  exact round_X _ rest 8 t.val 0 0 (encVOp a) 0 5 0 (by decide) (by have := t.isLt; omega) (by decide) (by decide) (by have := encVOp_lt a; omega) (by decide) (by decide) (by decide) hw fun w F => by
    simp [decCShort, decMatrix, vDab, vDa, vDabN, vDaN, guardSome, decWait, decVOp_encVOp, decRm_encRm, decVCond_encVCond, decRedOp_encRedOp, decFin_val, encMark_one, encRm_rn, red_lo, red_hi, F.major, F.ft, F.ff, F.fu, F.fuf, F.fa, F.fb, F.ffn, F.ffl, F.flead, F.flow, F.ftail]

theorem unf (f : Fin 4) (s : Fin 16) : Statement (.unf f s) := by
  refine native4 _ rfl rfl fun hw rest => ?_
  exact round_X _ rest 9 0 f.val 1 0 s.val 0 0 (by decide) (by decide) (by have := f.isLt; omega) (by decide) (by decide) (by have := s.isLt; omega) (by decide) (by decide) hw fun w F => by
    simp [decCShort, decUnf, vDab, vDa, vDabN, vDaN, guardSome, decWait, decVOp_encVOp, decRm_encRm, decVCond_encVCond, decRedOp_encRedOp, decFin_val, encMark_one, encRm_rn, red_lo, red_hi, F.major, F.ft, F.ff, F.fu, F.fuf, F.fa, F.fb, F.ffn, F.ffl, F.flead, F.flow, F.ftail]

theorem esnenLi (d : Fin 16) (imm : BitVec 15) : Statement (.esnenLi d imm) := by
  refine esnen _ rfl fun _ => ?_
  exact round_E _ 0 d.val 0 0 imm.toNat (by decide) (by have := d.isLt; omega) (by decide) (by decide) (by have := imm.isLt; omega) fun w F => by
    simp [decodeEsnen, eReg, guardSome, five_hi, five_lo, ofNat_toNat_self, F.fop, F.fd, F.fa, F.fb, F.fi, F.fab, F.fdab, F.ftail, F.f17, F.fmid, F.fsh, F.fshz]

theorem esnenLih (d : Fin 16) (imm : BitVec 17) : Statement (.esnenLih d imm) := by
  refine esnen _ rfl fun _ => ?_
  have h1 := d.isLt
  have h2 := imm.isLt
  have e : encode (.esnenLih d imm) = encE 1 d.val 0 (imm.toNat / 2 ^ 15) (imm.toNat % 2 ^ 15) := by
    have h2 : 1 * 2 ^ 27 + d.val * 2 ^ 23 + 0 * 2 ^ 19 + imm.toNat / 2 ^ 15 * 2 ^ 15 + imm.toNat % 2 ^ 15 = 1 * 2 ^ 27 + d.val * 2 ^ 23 + 0 * 2 ^ 19 + 0 * 2 ^ 15 + imm.toNat := by omega
    unfold encode encE
    rw [h2]
  rw [e]
  have e2 : imm.toNat / 2 ^ 15 % 4 * 2 ^ 15 + imm.toNat % 2 ^ 15 = imm.toNat := by omega
  have e3 : imm.toNat / 2 ^ 15 / 4 = 0 := by omega
  exact round_E _ 1 d.val 0 (imm.toNat / 2 ^ 15) (imm.toNat % 2 ^ 15) (by decide) h1 (by decide) (by omega) (by omega) fun w F => by
    simp only [decodeEsnen, eReg, guardSome, F.fop, F.fd, F.f17, F.fmid, e2, e3, ofNat_toNat_self]
    rfl

theorem esnenAdd (d a b : Fin 16) : Statement (.esnenAdd d a b) := by
  refine esnen _ rfl fun _ => ?_
  exact round_E _ 2 d.val a.val b.val 0 (by decide) (by have := d.isLt; omega) (by have := a.isLt; omega) (by have := b.isLt; omega) (by decide) fun w F => by
    simp [decodeEsnen, eReg, guardSome, five_hi, five_lo, ofNat_toNat_self, F.fop, F.fd, F.fa, F.fb, F.fi, F.fab, F.fdab, F.ftail, F.f17, F.fmid, F.fsh, F.fshz]

theorem esnenAddi (d a : Fin 16) (imm : BitVec 15) : Statement (.esnenAddi d a imm) := by
  refine esnen _ rfl fun _ => ?_
  exact round_E _ 3 d.val a.val 0 imm.toNat (by decide) (by have := d.isLt; omega) (by have := a.isLt; omega) (by decide) (by have := imm.isLt; omega) fun w F => by
    simp [decodeEsnen, eReg, guardSome, five_hi, five_lo, ofNat_toNat_self, F.fop, F.fd, F.fa, F.fb, F.fi, F.fab, F.fdab, F.ftail, F.f17, F.fmid, F.fsh, F.fshz]

theorem esnenSub (d a b : Fin 16) : Statement (.esnenSub d a b) := by
  refine esnen _ rfl fun _ => ?_
  exact round_E _ 4 d.val a.val b.val 0 (by decide) (by have := d.isLt; omega) (by have := a.isLt; omega) (by have := b.isLt; omega) (by decide) fun w F => by
    simp [decodeEsnen, eReg, guardSome, five_hi, five_lo, ofNat_toNat_self, F.fop, F.fd, F.fa, F.fb, F.fi, F.fab, F.fdab, F.ftail, F.f17, F.fmid, F.fsh, F.fshz]

theorem esnenAnd (d a b : Fin 16) : Statement (.esnenAnd d a b) := by
  refine esnen _ rfl fun _ => ?_
  exact round_E _ 5 d.val a.val b.val 0 (by decide) (by have := d.isLt; omega) (by have := a.isLt; omega) (by have := b.isLt; omega) (by decide) fun w F => by
    simp [decodeEsnen, eReg, guardSome, five_hi, five_lo, ofNat_toNat_self, F.fop, F.fd, F.fa, F.fb, F.fi, F.fab, F.fdab, F.ftail, F.f17, F.fmid, F.fsh, F.fshz]

theorem esnenOr (d a b : Fin 16) : Statement (.esnenOr d a b) := by
  refine esnen _ rfl fun _ => ?_
  exact round_E _ 6 d.val a.val b.val 0 (by decide) (by have := d.isLt; omega) (by have := a.isLt; omega) (by have := b.isLt; omega) (by decide) fun w F => by
    simp [decodeEsnen, eReg, guardSome, five_hi, five_lo, ofNat_toNat_self, F.fop, F.fd, F.fa, F.fb, F.fi, F.fab, F.fdab, F.ftail, F.f17, F.fmid, F.fsh, F.fshz]

theorem esnenXor (d a b : Fin 16) : Statement (.esnenXor d a b) := by
  refine esnen _ rfl fun _ => ?_
  exact round_E _ 7 d.val a.val b.val 0 (by decide) (by have := d.isLt; omega) (by have := a.isLt; omega) (by have := b.isLt; omega) (by decide) fun w F => by
    simp [decodeEsnen, eReg, guardSome, five_hi, five_lo, ofNat_toNat_self, F.fop, F.fd, F.fa, F.fb, F.fi, F.fab, F.fdab, F.ftail, F.f17, F.fmid, F.fsh, F.fshz]

theorem esnenShli (d a : Fin 16) (n : BitVec 5) : Statement (.esnenShli d a n) := by
  refine esnen _ rfl fun _ => ?_
  exact round_E _ 8 d.val a.val 0 n.toNat (by decide) (by have := d.isLt; omega) (by have := a.isLt; omega) (by decide) (by have := n.isLt; omega) fun w F => by
    simp [decodeEsnen, eReg, guardSome, five_hi, five_lo, ofNat_toNat_self, F.fop, F.fd, F.fa, F.fb, F.fi, F.fab, F.fdab, F.ftail, F.f17, F.fmid, F.fsh, F.fshz]

theorem esnenShri (d a : Fin 16) (n : BitVec 5) : Statement (.esnenShri d a n) := by
  refine esnen _ rfl fun _ => ?_
  exact round_E _ 9 d.val a.val 0 n.toNat (by decide) (by have := d.isLt; omega) (by have := a.isLt; omega) (by decide) (by have := n.isLt; omega) fun w F => by
    simp [decodeEsnen, eReg, guardSome, five_hi, five_lo, ofNat_toNat_self, F.fop, F.fd, F.fa, F.fb, F.fi, F.fab, F.fdab, F.ftail, F.f17, F.fmid, F.fsh, F.fshz]

theorem esnenLdb (d a : Fin 16) (imm : BitVec 15) : Statement (.esnenLdb d a imm) := by
  refine esnen _ rfl fun _ => ?_
  exact round_E _ 10 d.val a.val 0 imm.toNat (by decide) (by have := d.isLt; omega) (by have := a.isLt; omega) (by decide) (by have := imm.isLt; omega) fun w F => by
    simp [decodeEsnen, eReg, guardSome, five_hi, five_lo, ofNat_toNat_self, F.fop, F.fd, F.fa, F.fb, F.fi, F.fab, F.fdab, F.ftail, F.f17, F.fmid, F.fsh, F.fshz]

theorem esnenLdh (d a : Fin 16) (imm : BitVec 15) : Statement (.esnenLdh d a imm) := by
  refine esnen _ rfl fun _ => ?_
  exact round_E _ 11 d.val a.val 0 imm.toNat (by decide) (by have := d.isLt; omega) (by have := a.isLt; omega) (by decide) (by have := imm.isLt; omega) fun w F => by
    simp [decodeEsnen, eReg, guardSome, five_hi, five_lo, ofNat_toNat_self, F.fop, F.fd, F.fa, F.fb, F.fi, F.fab, F.fdab, F.ftail, F.f17, F.fmid, F.fsh, F.fshz]

theorem esnenLdw (d a : Fin 16) (imm : BitVec 15) : Statement (.esnenLdw d a imm) := by
  refine esnen _ rfl fun _ => ?_
  exact round_E _ 12 d.val a.val 0 imm.toNat (by decide) (by have := d.isLt; omega) (by have := a.isLt; omega) (by decide) (by have := imm.isLt; omega) fun w F => by
    simp [decodeEsnen, eReg, guardSome, five_hi, five_lo, ofNat_toNat_self, F.fop, F.fd, F.fa, F.fb, F.fi, F.fab, F.fdab, F.ftail, F.f17, F.fmid, F.fsh, F.fshz]

theorem esnenStb (a b : Fin 16) (imm : BitVec 15) : Statement (.esnenStb a b imm) := by
  refine esnen _ rfl fun _ => ?_
  exact round_E _ 13 0 a.val b.val imm.toNat (by decide) (by decide) (by have := a.isLt; omega) (by have := b.isLt; omega) (by have := imm.isLt; omega) fun w F => by
    simp [decodeEsnen, eReg, guardSome, five_hi, five_lo, ofNat_toNat_self, F.fop, F.fd, F.fa, F.fb, F.fi, F.fab, F.fdab, F.ftail, F.f17, F.fmid, F.fsh, F.fshz]

theorem esnenStw (a b : Fin 16) (imm : BitVec 15) : Statement (.esnenStw a b imm) := by
  refine esnen _ rfl fun _ => ?_
  exact round_E _ 14 0 a.val b.val imm.toNat (by decide) (by decide) (by have := a.isLt; omega) (by have := b.isLt; omega) (by have := imm.isLt; omega) fun w F => by
    simp [decodeEsnen, eReg, guardSome, five_hi, five_lo, ofNat_toNat_self, F.fop, F.fd, F.fa, F.fb, F.fi, F.fab, F.fdab, F.ftail, F.f17, F.fmid, F.fsh, F.fshz]

theorem esnenBeq (a b : Fin 16) (imm : BitVec 15) : Statement (.esnenBeq a b imm) := by
  refine esnen _ rfl fun _ => ?_
  exact round_E _ 15 0 a.val b.val imm.toNat (by decide) (by decide) (by have := a.isLt; omega) (by have := b.isLt; omega) (by have := imm.isLt; omega) fun w F => by
    simp [decodeEsnen, eReg, guardSome, five_hi, five_lo, ofNat_toNat_self, F.fop, F.fd, F.fa, F.fb, F.fi, F.fab, F.fdab, F.ftail, F.f17, F.fmid, F.fsh, F.fshz]

theorem esnenBne (a b : Fin 16) (imm : BitVec 15) : Statement (.esnenBne a b imm) := by
  refine esnen _ rfl fun _ => ?_
  exact round_E _ 16 0 a.val b.val imm.toNat (by decide) (by decide) (by have := a.isLt; omega) (by have := b.isLt; omega) (by have := imm.isLt; omega) fun w F => by
    simp [decodeEsnen, eReg, guardSome, five_hi, five_lo, ofNat_toNat_self, F.fop, F.fd, F.fa, F.fb, F.fi, F.fab, F.fdab, F.ftail, F.f17, F.fmid, F.fsh, F.fshz]

theorem esnenBlt (a b : Fin 16) (imm : BitVec 15) : Statement (.esnenBlt a b imm) := by
  refine esnen _ rfl fun _ => ?_
  exact round_E _ 17 0 a.val b.val imm.toNat (by decide) (by decide) (by have := a.isLt; omega) (by have := b.isLt; omega) (by have := imm.isLt; omega) fun w F => by
    simp [decodeEsnen, eReg, guardSome, five_hi, five_lo, ofNat_toNat_self, F.fop, F.fd, F.fa, F.fb, F.fi, F.fab, F.fdab, F.ftail, F.f17, F.fmid, F.fsh, F.fshz]

theorem esnenJal (d : Fin 16) (imm : BitVec 15) : Statement (.esnenJal d imm) := by
  refine esnen _ rfl fun _ => ?_
  exact round_E _ 18 d.val 0 0 imm.toNat (by decide) (by have := d.isLt; omega) (by decide) (by decide) (by have := imm.isLt; omega) fun w F => by
    simp [decodeEsnen, eReg, guardSome, five_hi, five_lo, ofNat_toNat_self, F.fop, F.fd, F.fa, F.fb, F.fi, F.fab, F.fdab, F.ftail, F.f17, F.fmid, F.fsh, F.fshz]

theorem esnenJr (a : Fin 16) : Statement (.esnenJr a) := by
  refine esnen _ rfl fun _ => ?_
  exact round_E _ 19 0 a.val 0 0 (by decide) (by decide) (by have := a.isLt; omega) (by decide) (by decide) fun w F => by
    simp [decodeEsnen, eReg, guardSome, five_hi, five_lo, ofNat_toNat_self, F.fop, F.fd, F.fa, F.fb, F.fi, F.fab, F.fdab, F.ftail, F.f17, F.fmid, F.fsh, F.fshz]

theorem esnenEmit (a : Fin 16) : Statement (.esnenEmit a) := by
  refine esnen _ rfl fun _ => ?_
  exact round_E _ 20 0 a.val 0 0 (by decide) (by decide) (by have := a.isLt; omega) (by decide) (by decide) fun w F => by
    simp [decodeEsnen, eReg, guardSome, five_hi, five_lo, ofNat_toNat_self, F.fop, F.fd, F.fa, F.fb, F.fi, F.fab, F.fdab, F.ftail, F.f17, F.fmid, F.fsh, F.fshz]

theorem esnenMark (a : Fin 16) : Statement (.esnenMark a) := by
  refine esnen _ rfl fun _ => ?_
  exact round_E _ 21 0 a.val 0 0 (by decide) (by decide) (by have := a.isLt; omega) (by decide) (by decide) fun w F => by
    simp [decodeEsnen, eReg, guardSome, five_hi, five_lo, ofNat_toNat_self, F.fop, F.fd, F.fa, F.fb, F.fi, F.fab, F.fdab, F.ftail, F.f17, F.fmid, F.fsh, F.fshz]

theorem esnenTlook (d a : Fin 16) : Statement (.esnenTlook d a) := by
  refine esnen _ rfl fun _ => ?_
  exact round_E _ 22 d.val a.val 0 0 (by decide) (by have := d.isLt; omega) (by have := a.isLt; omega) (by decide) (by decide) fun w F => by
    simp [decodeEsnen, eReg, guardSome, five_hi, five_lo, ofNat_toNat_self, F.fop, F.fd, F.fa, F.fb, F.fi, F.fab, F.fdab, F.ftail, F.f17, F.fmid, F.fsh, F.fshz]

theorem esnenDone (a : Fin 16) : Statement (.esnenDone a) := by
  refine esnen _ rfl fun _ => ?_
  exact round_E _ 23 0 a.val 0 0 (by decide) (by decide) (by have := a.isLt; omega) (by decide) (by decide) fun w F => by
    simp [decodeEsnen, eReg, guardSome, five_hi, five_lo, ofNat_toNat_self, F.fop, F.fd, F.fa, F.fb, F.fi, F.fab, F.fdab, F.ftail, F.f17, F.fmid, F.fsh, F.fshz]

theorem esnenFail (imm : BitVec 15) : Statement (.esnenFail imm) := by
  refine esnen _ rfl fun _ => ?_
  exact round_E _ 24 0 0 0 imm.toNat (by decide) (by decide) (by decide) (by decide) (by have := imm.isLt; omega) fun w F => by
    simp [decodeEsnen, eReg, guardSome, five_hi, five_lo, ofNat_toNat_self, F.fop, F.fd, F.fa, F.fb, F.fi, F.fab, F.fdab, F.ftail, F.f17, F.fmid, F.fsh, F.fshz]

theorem meterExhausted : Statement (.meterExhausted) := event _ rfl rfl

theorem moduleReset : Statement (.moduleReset) := event _ rfl rfl

theorem stackReady : Statement (.stackReady) := event _ rfl rfl

theorem patrolPass : Statement (.patrolPass) := event _ rfl rfl

theorem hostLinkReset : Statement (.hostLinkReset) := event _ rfl rfl

theorem clusterGate : Statement (.clusterGate) := event _ rfl rfl

theorem clusterWake : Statement (.clusterWake) := event _ rfl rfl

theorem linkFrame : Statement (.linkFrame) := event _ rfl rfl

theorem channelRekey : Statement (.channelRekey) := event _ rfl rfl

theorem linkRetrain : Statement (.linkRetrain) := event _ rfl rfl

theorem invalidation : Statement (.invalidation) := event _ rfl rfl

theorem groupModeWrite : Statement (.groupModeWrite) := event _ rfl rfl

theorem l2ControlWrite : Statement (.l2ControlWrite) := event _ rfl rfl

theorem ownerClaim : Statement (.ownerClaim) := event _ rfl rfl

theorem measurementExtend : Statement (.measurementExtend) := event _ rfl rfl

theorem stateRegisterWrite : Statement (.stateRegisterWrite) := event _ rfl rfl

theorem functionLevelReset : Statement (.functionLevelReset) := event _ rfl rfl

theorem vfEnableClear : Statement (.vfEnableClear) := event _ rfl rfl

theorem deviceRegisterWrite : Statement (.deviceRegisterWrite) := event _ rfl rfl

theorem hostPostedWrite : Statement (.hostPostedWrite) := event _ rfl rfl

theorem hostRead : Statement (.hostRead) := event _ rfl rfl

theorem hostLaunch : Statement (.hostLaunch) := event _ rfl rfl

theorem create : Statement (.create) := event _ rfl rfl

theorem destroy : Statement (.destroy) := event _ rfl rfl

theorem layout : Statement (.layout) := event _ rfl rfl

theorem rotate : Statement (.rotate) := event _ rfl rfl

theorem bind : Statement (.bind) := event _ rfl rfl

theorem monitor : Statement (.monitor) := event _ rfl rfl

theorem attach : Statement (.attach) := event _ rfl rfl

theorem handover : Statement (.handover) := event _ rfl rfl

theorem getVersion : Statement (.getVersion) := event _ rfl rfl

theorem getCapabilities : Statement (.getCapabilities) := event _ rfl rfl

theorem negotiateAlgorithms : Statement (.negotiateAlgorithms) := event _ rfl rfl

theorem getDigests : Statement (.getDigests) := event _ rfl rfl

theorem getCertificate : Statement (.getCertificate) := event _ rfl rfl

theorem challenge : Statement (.challenge) := event _ rfl rfl

theorem getMeasurements : Statement (.getMeasurements) := event _ rfl rfl

theorem launchAdmission : Statement (.launchAdmission) := event _ rfl rfl

theorem bootTreeForward : Statement (.bootTreeForward) := event _ rfl rfl

theorem initialThreadStart : Statement (.initialThreadStart) := event _ rfl rfl

theorem regionCompletion : Statement (.regionCompletion) := event _ rfl rfl

theorem handlerSpawn : Statement (.handlerSpawn) := event _ rfl rfl

theorem tlbWalk : Statement (.tlbWalk) := event _ rfl rfl

theorem storePerformed : Statement (.storePerformed) := event _ rfl rfl

theorem spillwayOverflow : Statement (.spillwayOverflow) := event _ rfl rfl

theorem spillwayInvalidation : Statement (.spillwayInvalidation) := event _ rfl rfl

theorem visit : Statement (.visit) := event _ rfl rfl

theorem remoteUpdate : Statement (.remoteUpdate) := event _ rfl rfl

theorem remoteFill : Statement (.remoteFill) := event _ rfl rfl

theorem heldRequestService : Statement (.heldRequestService) := event _ rfl rfl

theorem mputClaimGrant : Statement (.mputClaimGrant) := event _ rfl rfl

theorem lrwHead : Statement (.lrwHead) := event _ rfl rfl

theorem leaseEnd : Statement (.leaseEnd) := event _ rfl rfl

theorem parkDeadline : Statement (.parkDeadline) := event _ rfl rfl

theorem promiseTime : Statement (.promiseTime) := event _ rfl rfl

theorem watchdogExpiry : Statement (.watchdogExpiry) := event _ rfl rfl

theorem yieldExpiry : Statement (.yieldExpiry) := event _ rfl rfl

theorem copyAccept : Statement (.copyAccept) := event _ rfl rfl

theorem copyChunk : Statement (.copyChunk) := event _ rfl rfl

theorem q1CompletionEntry : Statement (.q1CompletionEntry) := event _ rfl rfl

theorem loaderSubscription : Statement (.loaderSubscription) := event _ rfl rfl

theorem storerSubscription : Statement (.storerSubscription) := event _ rfl rfl

theorem cancelRecord : Statement (.cancelRecord) := event _ rfl rfl

theorem loaderTile : Statement (.loaderTile) := event _ rfl rfl

theorem storerTile : Statement (.storerTile) := event _ rfl rfl

theorem treeCmdNew : Statement (.treeCmdNew) := event _ rfl rfl

theorem treeCmdDescent : Statement (.treeCmdDescent) := event _ rfl rfl

theorem treeCmdExpand : Statement (.treeCmdExpand) := event _ rfl rfl

theorem treeCmdBackup : Statement (.treeCmdBackup) := event _ rfl rfl

theorem treeCmdPick : Statement (.treeCmdPick) := event _ rfl rfl

theorem treeCmdReroot : Statement (.treeCmdReroot) := event _ rfl rfl

theorem treeCmdFree : Statement (.treeCmdFree) := event _ rfl rfl

theorem backgroundFreeing : Statement (.backgroundFreeing) := event _ rfl rfl

theorem reductionMessage : Statement (.reductionMessage) := event _ rfl rfl

theorem q6Entry : Statement (.q6Entry) := event _ rfl rfl

theorem containmentNotice : Statement (.containmentNotice) := event _ rfl rfl

theorem frameRemap : Statement (.frameRemap) := event _ rfl rfl

theorem taskInsert : Statement (.taskInsert) := event _ rfl rfl

theorem dispatch : Statement (.dispatch) := event _ rfl rfl

theorem arrival : Statement (.arrival) := event _ rfl rfl

theorem arrivalPlacement : Statement (.arrivalPlacement) := event _ rfl rfl

theorem occupancySample : Statement (.occupancySample) := event _ rfl rfl

theorem slotHandover : Statement (.slotHandover) := event _ rfl rfl

theorem gangStart : Statement (.gangStart) := event _ rfl rfl

theorem gangRetire : Statement (.gangRetire) := event _ rfl rfl

theorem debuggerResume : Statement (.debuggerResume) := event _ rfl rfl

theorem clockThrottle : Statement (.clockThrottle) := event _ rfl rfl

theorem externalPortAccess : Statement (.externalPortAccess) := event _ rfl rfl

theorem vfEnableSet : Statement (.vfEnableSet) := event _ rfl rfl

end Sys2Proof.Laws.RoundTrip
end

