-- ==== Sys2Proof/Tests/Slice0.lean ====
section
/-!
SUPPORT. Tests of the model by its author: words of the spec and what they decode to, ill-formed instructions that are refused, and for each
statement with hypotheses a concrete state and operands that meet them.
-/

namespace Sys2Proof.Tests

open Sys2Proof.Machine Sys2Proof.Claims

/-! ### Encodings: words written out from the tables of R196-R204 and R388, for every constructor that has one -/

/-- A word's one instruction, and that instruction's words. -/
def decodesTo (p : List Word32 × Instr) : Bool :=
  (match decode p.1 with | .ok q => decide (q = (p.2, 4 * p.1.length)) | .error _ => false) && decide (encode p.2 = p.1)

/-- A mark on a, none on b. -/
def ma : Marks := { a := true, b := false }

theorem test_decode_integer : ([
    ([0x000C51C2], (.add (.g 3) (.g 5) (.g 7) ma)), ([0x000C51C6], (.sub (.g 3) (.g 5) (.g 7) ma)), ([0x000C51CA], (.mul (.g 3) (.g 5) (.g 7) ma)),
    ([0x000C51CE], (.mulh (.g 3) (.g 5) (.g 7) ma)), ([0x000C51D2], (.mulhn (.g 3) (.g 5) (.g 7) ma)),
    ([0x000C51D6], (.div (.g 3) (.g 5) (.g 7) ma)), ([0x000C51DA], (.divn (.g 3) (.g 5) (.g 7) ma)), ([0x000C51DE], (.rem (.g 3) (.g 5) (.g 7) ma)),
    ([0x000C51E2], (.remn (.g 3) (.g 5) (.g 7) ma)), ([0x000C51E6], (.and (.g 3) (.g 5) (.g 7) ma)), ([0x000C51EA], (.or (.g 3) (.g 5) (.g 7) ma)),
    ([0x000C51EE], (.xor (.g 3) (.g 5) (.g 7) ma)), ([0x000C51F2], (.shl (.g 3) (.g 5) (.g 7) ma)), ([0x000C51F6], (.shr (.g 3) (.g 5) (.g 7) ma)),
    ([0x000C51FA], (.sar (.g 3) (.g 5) (.g 7) ma)), ([0x000C51FE], (.andn (.g 3) (.g 5) (.g 7) ma)), ([0x010C51C2], (.min (.g 3) (.g 5) (.g 7) ma)),
    ([0x010C51C6], (.max (.g 3) (.g 5) (.g 7) ma)), ([0x010C51CA], (.minn (.g 3) (.g 5) (.g 7) ma)), ([0x010C51CE], (.maxn (.g 3) (.g 5) (.g 7) ma)),
    ([0x010C5012], (.clz (.g 3) (.g 5) true)), ([0x010C5016], (.popc (.g 3) (.g 5) true)), ([0x010C501A], (.mov (.g 3) (.g 5) true)),
    ([0x010C51DE], (.leaX2 (.g 3) (.g 5) (.g 7) ma)), ([0x010C51E2], (.leaX4 (.g 3) (.g 5) (.g 7) ma)),
    ([0x010C51E6], (.leaX8 (.g 3) (.g 5) (.g 7) ma)), ([0x019C0028], (.void 39))] : List (List Word32 × Instr)).all decodesTo = true := by decide

theorem test_decode_immediate : ([
    ([0x020C5805], (.addi (.g 3) (.g 5) 0x805)), ([0x030C5805], (.andi (.g 3) (.g 5) 0x805)), ([0x040C5805], (.ori (.g 3) (.g 5) 0x805)),
    ([0x050C5805], (.xori (.g 3) (.g 5) 0x805)), ([0x060C5005], (.shli (.g 3) (.g 5) 0x5)), ([0x070C5005], (.shri (.g 3) (.g 5) 0x5)),
    ([0x080C5005], (.sari (.g 3) (.g 5) 0x5)), ([0x090E0005], (.movi (.g 3) 0x20005)), ([0x0A0C5185], (.bext (.g 3) (.g 5) 0x6 0x5)),
    ([0x0B0C5185], (.bins (.g 3) (.g 5) 0x6 0x5)), ([0x0C0C5805], (.muli (.g 3) (.g 5) 0x805))] : List (List Word32 × Instr)).all decodesTo = true := by decide

theorem test_decode_control : ([
    ([0x109051C0], (.csk 2 .ltn (.g 5) (.g 7))), ([0x11905805], (.cski 2 .ltn (.g 5) 0x805)), ([0x14800005], (.br 0x800005)),
    ([0x15800005], (.brl 0x800005)), ([0x16005002], (.jmp (.g 5) true)), ([0x16005006], (.jmpl (.g 5) true)), ([0x16000008], (.ret))] : List (List Word32 × Instr)).all decodesTo = true := by decide

theorem test_decode_memory : ([
    ([0x180C7A05], (.ld (.g 3) (.g 7) .w 0x205)), ([0x190C7A05], (.lds (.g 3) (.g 7) .w 0x205)), ([0x1A0C7A05], (.st (.g 3) (.g 7) .w 0x205)),
    ([0x1B0C7A05], (.lda (.g 3) (.g 7) .w 0x205)), ([0x1C0C7A05], (.stl (.g 3) (.g 7) .w 0x205)), ([0x1D0C51CA], (.ldx (.g 3) (.g 5) (.g 7) .w ma)),
    ([0x1D0C51DA], (.ldxS (.g 3) (.g 5) (.g 7) .w ma)), ([0x1E0C51CA], (.stx (.g 3) (.g 5) (.g 7) .w ma))] : List (List Word32 × Instr)).all decodesTo = true := by decide

theorem test_decode_sync : ([
    ([0x200C7205], (.mpeek (.g 3) (.g 7) 0x205)), ([0x200C7605], (.mtake (.g 3) (.g 7) 0x205)), ([0x200C7A05], (.mput (.g 3) (.g 7) 0x205)),
    ([0x200C7E05], (.mfill (.g 3) (.g 7) 0x205)), ([0x21007205], (.mdrain (.g 7) 0x205)), ([0x210C7605], (.mstate (.g 3) (.g 7) 0x205)),
    ([0x220C7E05], (.lrw (.g 3) (.g 7) 0x205)), ([0x230C51C2], (.sch (.g 3) (.g 5) (.g 7) ma)), ([0x240C51C2], (.amoAdd (.g 3) (.g 5) (.g 7) ma)),
    ([0x240C51C6], (.amoMin (.g 3) (.g 5) (.g 7) ma)), ([0x240C51CA], (.amoMax (.g 3) (.g 5) (.g 7) ma)),
    ([0x240C51CE], (.amoMinn (.g 3) (.g 5) (.g 7) ma)), ([0x240C51D2], (.amoMaxn (.g 3) (.g 5) (.g 7) ma)),
    ([0x240C51D6], (.amoAnd (.g 3) (.g 5) (.g 7) ma)), ([0x240C51DA], (.amoOr (.g 3) (.g 5) (.g 7) ma)),
    ([0x240C51DE], (.amoXor (.g 3) (.g 5) (.g 7) ma)), ([0x240C51E2], (.amoSwap (.g 3) (.g 5) (.g 7) ma)),
    ([0x240C51E6], (.amoFadd (.g 3) (.g 5) (.g 7) ma)), ([0x250C51C2], (.cas (.g 3) (.g 5) (.g 7) ma)),
    ([0x26C051D2], (.rupd .maxn (.g 5) (.g 7) ma)), ([0x270C0000], (.fenceAcq .module)), ([0x270C0004], (.fenceRel .module)),
    ([0x270C0008], (.fenceFull .module))] : List (List Word32 × Instr)).all decodesTo = true := by decide

theorem test_decode_engine : ([
    ([0x28260000], (.push 9 4)), ([0x29268000], (.pop 9 5)), ([0x2A0C51C2], (.cpy (.g 3) (.g 5) (.g 7) ma)),
    ([0x2A0C51C6], (.cpyHdl (.g 3) (.g 5) (.g 7) ma)), ([0x2A0C51CA], (.cpyTag (.g 3) (.g 5) (.g 7) ma)), ([0x2B005002], (.waitt (.g 5) true)),
    ([0x2C0C51C2], (.psub (.g 3) (.g 5) (.g 7) ma)), ([0x2C0C51C6], (.pret (.g 3) (.g 5) (.g 7) ma)), ([0x2C0C500A], (.pcan (.g 3) (.g 5) true)),
    ([0x2D185002], (.hset 6 (.g 5) true)), ([0x2D185006], (.hadv 6 (.g 5) true)), ([0x2D18500A], (.hcom 6 (.g 5) true)),
    ([0x2D18500E], (.hwait 6 (.g 5) true)), ([0x2D185012], (.hroom 6 (.g 5) true)), ([0x2D0C6054], (.hget (.g 3) 6 1)),
    ([0x2E2C51C2], (.sld 11 (.g 5) (.g 7) ma)), ([0x2E2C51C6], (.sst 11 (.g 5) (.g 7) ma)), ([0x2E2C500A], (.sbase 11 (.g 5) true)),
    ([0x2E2C500E], (.soff 11 (.g 5) true))] : List (List Word32 × Instr)).all decodesTo = true := by decide

theorem test_decode_thread : ([
    ([0x300C51C2], (.spawn (.g 3) (.g 5) (.g 7) ma)), ([0x300C51C6], (.spawnq (.g 3) (.g 5) (.g 7) ma)), ([0x31000000], (.quit)),
    ([0x31000004], (.yield)), ([0x310C500A], (.park (.g 3) (.g 5) true)), ([0x310C500E], (.wake (.g 3) (.g 5) true)),
    ([0x310C5012], (.cancel (.g 3) (.g 5) true)), ([0x310051D6], (.poke (.g 5) (.g 7) ma)), ([0x32005002], (.claim (.g 5) true)),
    ([0x32005006], (.acq (.g 5) true)), ([0x320C500A], (.acqt (.g 3) (.g 5) true)), ([0x3200500E], (.rel (.g 5) true)),
    ([0x330051C2], (.weir (.g 5) (.g 7) ma)), ([0x330051CA], (.wbyte (.g 5) (.g 7) ma)), ([0x3300500E], (.wwait (.g 5) true)),
    ([0x34005002], (.nest (.g 5) true)), ([0x35800005], (.next 0x800005))] : List (List Word32 × Instr)).all decodesTo = true := by decide

theorem test_decode_tree : ([
    ([0x360051C2], (.trnew (.g 5) (.g 7) ma)), ([0x360051C6], (.trdsc (.g 5) (.g 7) ma)), ([0x360C52CA], (.trxpd (.g 3) (.g 5) 11 true)),
    ([0x360C51CE], (.trbck (.g 3) (.g 5) (.g 7) ma)), ([0x360051D2], (.trpik (.g 5) (.g 7) ma)), ([0x360051D6], (.trrrt (.g 5) (.g 7) ma)),
    ([0x3600501A], (.trfre (.g 5) true)), ([0x360051E2], (.trnewF (.g 5) (.g 7) ma)), ([0x360051E6], (.trdscF (.g 5) (.g 7) ma)),
    ([0x360C52EA], (.trxpdF (.g 3) (.g 5) 11 true)), ([0x360C51EE], (.trbckF (.g 3) (.g 5) (.g 7) ma)), ([0x360051F2], (.trpikF (.g 5) (.g 7) ma)),
    ([0x360051F6], (.trrrtF (.g 5) (.g 7) ma)), ([0x3600503A], (.trfreF (.g 5) true))] : List (List Word32 × Instr)).all decodesTo = true := by decide

theorem test_decode_system : ([
    ([0x380D0000], (.csrr (.g 3) 16)), ([0x38185006], (.csrw 6 (.g 5) true)), ([0x38020048], (.trap 0x801)),
    ([0x380C500E], (.eret (.g 3) (.g 5) true)), ([0x380C51D2], (.emwin (.g 3) (.g 5) (.g 7) ma)), ([0x380C5016], (.launch (.g 3) (.g 5) true)),
    ([0x380C501A], (.pwrd (.g 3) (.g 5) true)), ([0x3800001C], (.brk)), ([0x380C51E2], (.errinj (.g 3) (.g 5) (.g 7) ma)),
    ([0x380C51E6], (.segrep (.g 3) (.g 5) (.g 7) ma))] : List (List Word32 × Instr)).all decodesTo = true := by decide

theorem test_decode_scalarFloat : ([
    ([0x390C51C2], (.fadd (.g 3) (.g 5) (.g 7) ma)), ([0x390C51C6], (.fsub (.g 3) (.g 5) (.g 7) ma)),
    ([0x390C51CA], (.fmul (.g 3) (.g 5) (.g 7) ma)), ([0x390C51CE], (.fmin (.g 3) (.g 5) (.g 7) ma)),
    ([0x390C51D2], (.fmax (.g 3) (.g 5) (.g 7) ma)), ([0x390C5016], (.fcvti (.g 3) (.g 5) true)), ([0x390C501A], (.fcvtf (.g 3) (.g 5) true)),
    ([0x390C501E], (.fabs (.g 3) (.g 5) true)), ([0x390C5022], (.fneg (.g 3) (.g 5) true)), ([0x3A0C51C6], (.ffma .rz (.g 3) (.g 5) (.g 7) ma))] : List (List Word32 × Instr)).all decodesTo = true := by decide

theorem test_decode_vector : ([
    ([0x4008A615], (.vadd (.s 1) (.s 2) (.h 3) 5 .rz)), ([0x4008A635], (.vsub (.s 1) (.s 2) (.h 3) 5 .rz)),
    ([0x4008A655], (.vmul (.s 1) (.s 2) (.h 3) 5 .rz)), ([0x4008A675], (.vmin (.s 1) (.s 2) (.h 3) 5 .rz)),
    ([0x4008A695], (.vmax (.s 1) (.s 2) (.h 3) 5 .rz)), ([0x400880B4], (.vabs (.s 1) (.s 2) 5 .rn)), ([0x400880D4], (.vneg (.s 1) (.s 2) 5 .rn)),
    ([0x400880F5], (.vmov (.s 1) (.s 2) 5 .rz)), ([0x4008A715], (.vsel (.s 1) (.s 2) (.h 3) 5 .rz)),
    ([0x4108A615], (.vfma (.s 1) (.s 2) (.h 3) 5 .rz)), ([0x4208A674], (.vcmp .ge (.s 1) (.s 2) (.h 3) 5)),
    ([0x43088155], (.vred .minr 2 (.s 1) (.s 2) 5 .rz)), ([0x4408A614], (.viadd (.s 1) (.s 2) (.h 3) 5)),
    ([0x4408A634], (.visub (.s 1) (.s 2) (.h 3) 5)), ([0x4408A654], (.vimul (.s 1) (.s 2) (.h 3) 5)), ([0x4408A674], (.vand (.s 1) (.s 2) (.h 3) 5)),
    ([0x4408A694], (.vor (.s 1) (.s 2) (.h 3) 5)), ([0x4408A6B4], (.vxor (.s 1) (.s 2) (.h 3) 5)), ([0x4408A6D4], (.vshl (.s 1) (.s 2) (.h 3) 5)),
    ([0x4408A6F4], (.vshr (.s 1) (.s 2) (.h 3) 5)), ([0x4408A714], (.vsar (.s 1) (.s 2) (.h 3) 5)), ([0x45088014], (.vexp2 (.s 1) (.s 2) 5)),
    ([0x45088034], (.vlog2 (.s 1) (.s 2) 5)), ([0x45088054], (.vrcp (.s 1) (.s 2) 5)), ([0x45088074], (.vrsq (.s 1) (.s 2) 5)),
    ([0x45088094], (.vtanh (.s 1) (.s 2) 5)), ([0x450880B4], (.verf (.s 1) (.s 2) 5)), ([0x450880D4], (.vsin (.s 1) (.s 2) 5)),
    ([0x450880F4], (.vcos (.s 1) (.s 2) 5)), ([0x46088014], (.vmatch (.s 1) (.s 2) 5)), ([0x46088035], (.vscan (.s 1) (.s 2) 5 .rz)),
    ([0x4608A655], (.vgath (.s 1) (.s 2) (.h 3) 5 .rz)), ([0x4608A675], (.vscat (.s 1) (.s 2) (.h 3) 5 .rz)),
    ([0x46088095], (.vbmax (.s 1) (.s 2) 5 .rz)), ([0x460880A8], (.vqnt (.s 1) (.s 2) 2)), ([0x47088035], (.vwmax 1 (.s 1) (.s 2) 5 .rz))] : List (List Word32 × Instr)).all decodesTo = true := by decide

theorem test_decode_matrix : ([
    ([0x48B41308], (.mmaUnfold 5 2 (.h 3) true)), ([0x48A05308], (.mmaShape 5 (.s 2) (.h 3) true)), ([0x48A00010], (.mzero 5)),
    ([0x48A04020], (.mload 5 (.s 2))), ([0x48A04030], (.mstore 5 (.s 2))), ([0x48A04040], (.msave 5 (.s 2))), ([0x48A04050], (.mrest 5 (.s 2))),
    ([0x49140B00], (.unf 2 11))] : List (List Word32 × Instr)).all decodesTo = true := by decide

theorem test_decode_esnen : ([
    (0x01804005, (.esnenLi 3 0x4005)), (0x09810005, (.esnenLih 3 0x10005)), (0x11CE0000, (.esnenAdd 3 9 12)), (0x19C84005, (.esnenAddi 3 9 0x4005)),
    (0x21CE0000, (.esnenSub 3 9 12)), (0x29CE0000, (.esnenAnd 3 9 12)), (0x31CE0000, (.esnenOr 3 9 12)), (0x39CE0000, (.esnenXor 3 9 12)),
    (0x41C80005, (.esnenShli 3 9 0x5)), (0x49C80005, (.esnenShri 3 9 0x5)), (0x51C84005, (.esnenLdb 3 9 0x4005)),
    (0x59C84005, (.esnenLdh 3 9 0x4005)), (0x61C84005, (.esnenLdw 3 9 0x4005)), (0x684E4005, (.esnenStb 9 12 0x4005)),
    (0x704E4005, (.esnenStw 9 12 0x4005)), (0x784E4005, (.esnenBeq 9 12 0x4005)), (0x804E4005, (.esnenBne 9 12 0x4005)),
    (0x884E4005, (.esnenBlt 9 12 0x4005)), (0x91804005, (.esnenJal 3 0x4005)), (0x98480000, (.esnenJr 9)), (0xA0480000, (.esnenEmit 9)),
    (0xA8480000, (.esnenMark 9)), (0xB1C80000, (.esnenTlook 3 9)), (0xB8480000, (.esnenDone 9)), (0xC0004005, (.esnenFail 0x4005))] : List (Word32 × Instr)).all (fun p => decide (decodeEsnen p.1 = some p.2) && decide (encode p.2 = [p.1])) = true := by decide

theorem test_decode_long : ([
    ([0x801C48D1, 0xD6789ABC], (.movl (.g 7) 0x123456789ABC)), ([0x81A00001, 0xC0000005], (.tbr 0x80000005 0x200001)),
    ([0x82C00001, 0xC0000002], (.brf true 0x10000040000002))] : List (List Word32 × Instr)).all decodesTo = true := by decide

/-! ### Ill-formed instructions, one for each check, and the words that would hold them -/

/-- The decoder refuses words with a cause. -/
def refuses (ws : List Word32) (c : DecodeError) : Bool := match decode ws with | .error e => decide (e = c) | .ok _ => false

/-- An instruction that has no encoding; its word is illegal. -/
def illFormed (p : Word32 × Instr) : Bool := !p.2.wf && refuses [p.1] .ill

theorem test_ill_integer : ([
    (0x00C451C2, (.add .tc (.g 5) (.g 7) ma)), (0x000C5B01, (.add (.g 3) (.g 5) (.x 0) { a := false, b := true })),
    (0x00C451C6, (.sub .tc (.g 5) (.g 7) ma)), (0x000C5B05, (.sub (.g 3) (.g 5) (.x 0) { a := false, b := true })),
    (0x00C451CA, (.mul .tc (.g 5) (.g 7) ma)), (0x00C451CE, (.mulh .tc (.g 5) (.g 7) ma)), (0x00C451D2, (.mulhn .tc (.g 5) (.g 7) ma)),
    (0x00C451D6, (.div .tc (.g 5) (.g 7) ma)), (0x00C451DA, (.divn .tc (.g 5) (.g 7) ma)), (0x00C451DE, (.rem .tc (.g 5) (.g 7) ma)),
    (0x00C451E2, (.remn .tc (.g 5) (.g 7) ma)), (0x00C451E6, (.and .tc (.g 5) (.g 7) ma)), (0x00C451EA, (.or .tc (.g 5) (.g 7) ma)),
    (0x00C451EE, (.xor .tc (.g 5) (.g 7) ma)), (0x00C451F2, (.shl .tc (.g 5) (.g 7) ma)), (0x00C451F6, (.shr .tc (.g 5) (.g 7) ma)),
    (0x00C451FA, (.sar .tc (.g 5) (.g 7) ma)), (0x00C451FE, (.andn .tc (.g 5) (.g 7) ma)), (0x01C451C2, (.min .tc (.g 5) (.g 7) ma)),
    (0x01C451C6, (.max .tc (.g 5) (.g 7) ma)), (0x01C451CA, (.minn .tc (.g 5) (.g 7) ma)), (0x01C451CE, (.maxn .tc (.g 5) (.g 7) ma)),
    (0x01C45012, (.clz .tc (.g 5) true)), (0x01C45016, (.popc .tc (.g 5) true)), (0x01C4501A, (.mov .tc (.g 5) true)),
    (0x01C451DE, (.leaX2 .tc (.g 5) (.g 7) ma)), (0x01C451E2, (.leaX4 .tc (.g 5) (.g 7) ma)), (0x01C451E6, (.leaX8 .tc (.g 5) (.g 7) ma))] : List (Word32 × Instr)).all illFormed = true := by decide

theorem test_ill_immediate : ([
    (0x02C45805, (.addi .tc (.g 5) 0x805)), (0x03C45805, (.andi .tc (.g 5) 0x805)), (0x04C45805, (.ori .tc (.g 5) 0x805)),
    (0x05C45805, (.xori .tc (.g 5) 0x805)), (0x06C45005, (.shli .tc (.g 5) 0x5)), (0x07C45005, (.shri .tc (.g 5) 0x5)),
    (0x08C45005, (.sari .tc (.g 5) 0x5)), (0x09C60005, (.movi .tc 0x20005)), (0x0AC45185, (.bext .tc (.g 5) 0x6 0x5)),
    (0x0A0C5F05, (.bext (.g 3) (.g 5) 60 0x5)), (0x0A0C5180, (.bext (.g 3) (.g 5) 0x6 0)), (0x0BC45185, (.bins .tc (.g 5) 0x6 0x5)),
    (0x0B0C5F05, (.bins (.g 3) (.g 5) 60 0x5)), (0x0B0C5180, (.bins (.g 3) (.g 5) 0x6 0)), (0x0CC45805, (.muli .tc (.g 5) 0x805))] : List (Word32 × Instr)).all illFormed = true := by decide

theorem test_ill_control : ([
    (0x101051C0, (.csk 0 .ltn (.g 5) (.g 7))), (0x10B6C000, (.csk 2 .full (.x 0) (.g 0))), (0x10B851C0, (.csk 2 .empty (.g 5) (.g 7))),
    (0x11105805, (.cski 0 .ltn (.g 5) 0x805)), (0x11985040, (.cski 2 .bs (.g 5) 64)), (0x119C5040, (.cski 2 .bc (.g 5) 64)),
    (0x11B45805, (.cski 2 .full (.g 5) 0x805)), (0x11B85805, (.cski 2 .empty (.g 5) 0x805)), (0x1602C002, (.jmp (.x 0) true)),
    (0x1602C006, (.jmpl (.x 0) true))] : List (Word32 × Instr)).all illFormed = true := by decide

theorem test_ill_memory : ([
    (0x18C47A05, (.ld .tc (.g 7) .w 0x205)), (0x19C47A05, (.lds .tc (.g 7) .w 0x205)), (0x1BC47A05, (.lda .tc (.g 7) .w 0x205)),
    (0x1DC451CA, (.ldx .tc (.g 5) (.g 7) .w ma)), (0x1D0C5B09, (.ldx (.g 3) (.g 5) (.x 0) .w { a := false, b := true })),
    (0x1DC451DA, (.ldxS .tc (.g 5) (.g 7) .w ma)), (0x1D0C51DE, (.ldxS (.g 3) (.g 5) (.g 7) .d ma)),
    (0x1E0C5B09, (.stx (.g 3) (.g 5) (.x 0) .w { a := false, b := true })), (0x1E0EC1CA, (.stx (.g 3) (.x 0) (.g 7) .w ma))] : List (Word32 × Instr)).all illFormed = true := by decide

theorem test_ill_sync : ([
    (0x20C47205, (.mpeek .tc (.g 7) 0x205)), (0x20C47605, (.mtake .tc (.g 7) 0x205)), (0x21C47605, (.mstate .tc (.g 7) 0x205)),
    (0x22C47E05, (.lrw .tc (.g 7) 0x205)), (0x23C451C2, (.sch .tc (.g 5) (.g 7) ma)), (0x24C451C2, (.amoAdd .tc (.g 5) (.g 7) ma)),
    (0x240C5B01, (.amoAdd (.g 3) (.g 5) (.x 0) { a := false, b := true })), (0x24C451C6, (.amoMin .tc (.g 5) (.g 7) ma)),
    (0x24C451CA, (.amoMax .tc (.g 5) (.g 7) ma)), (0x24C451CE, (.amoMinn .tc (.g 5) (.g 7) ma)), (0x24C451D2, (.amoMaxn .tc (.g 5) (.g 7) ma)),
    (0x24C451D6, (.amoAnd .tc (.g 5) (.g 7) ma)), (0x24C451DA, (.amoOr .tc (.g 5) (.g 7) ma)), (0x24C451DE, (.amoXor .tc (.g 5) (.g 7) ma)),
    (0x24C451E2, (.amoSwap .tc (.g 5) (.g 7) ma)), (0x24C451E6, (.amoFadd .tc (.g 5) (.g 7) ma)), (0x25C451C2, (.cas .tc (.g 5) (.g 7) ma)),
    (0x26C2C1D2, (.rupd .maxn (.x 0) (.g 7) ma))] : List (Word32 × Instr)).all illFormed = true := by decide

theorem test_ill_engine : ([
    (0x2AC451C2, (.cpy .tc (.g 5) (.g 7) ma)), (0x2AC451C6, (.cpyHdl .tc (.g 5) (.g 7) ma)), (0x2AC451CA, (.cpyTag .tc (.g 5) (.g 7) ma)),
    (0x2B02C002, (.waitt (.x 0) true)), (0x2C0EC1C2, (.psub (.g 3) (.x 0) (.g 7) ma)), (0x2C0EC1C6, (.pret (.g 3) (.x 0) (.g 7) ma)),
    (0x2C0EC00A, (.pcan (.g 3) (.x 0) true)), (0x2D1AC002, (.hset 6 (.x 0) true)), (0x2D1AC006, (.hadv 6 (.x 0) true)),
    (0x2D1AC00A, (.hcom 6 (.x 0) true)), (0x2D1AC00E, (.hwait 6 (.x 0) true)), (0x2D1AC012, (.hroom 6 (.x 0) true)), (0x2DC46054, (.hget .tc 6 1)),
    (0x2E2EC1C2, (.sld 11 (.x 0) (.g 7) ma)), (0x2E2EC1C6, (.sst 11 (.x 0) (.g 7) ma)), (0x2E2EC00A, (.sbase 11 (.x 0) true)),
    (0x2E2EC00E, (.soff 11 (.x 0) true))] : List (Word32 × Instr)).all illFormed = true := by decide

theorem test_ill_thread : ([
    (0x30C451C2, (.spawn .tc (.g 5) (.g 7) ma)), (0x30C451C6, (.spawnq .tc (.g 5) (.g 7) ma)), (0x31C4500A, (.park .tc (.g 5) true)),
    (0x31C4500E, (.wake .tc (.g 5) true)), (0x31C45012, (.cancel .tc (.g 5) true)), (0x31005B15, (.poke (.g 5) (.x 0) { a := false, b := true })),
    (0x3102C1D6, (.poke (.x 0) (.g 7) ma)), (0x3202C002, (.claim (.x 0) true)), (0x3202C006, (.acq (.x 0) true)),
    (0x32C4500A, (.acqt .tc (.g 5) true)), (0x3202C00E, (.rel (.x 0) true)), (0x3302C1C2, (.weir (.x 0) (.g 7) ma)),
    (0x3302C1CA, (.wbyte (.x 0) (.g 7) ma)), (0x3302C00E, (.wwait (.x 0) true)), (0x3402C002, (.nest (.x 0) true))] : List (Word32 × Instr)).all illFormed = true := by decide

theorem test_ill_tree : ([
    (0x36005B01, (.trnew (.g 5) (.x 0) { a := false, b := true })), (0x3602C1C2, (.trnew (.x 0) (.g 7) ma)), (0x3602C1C6, (.trdsc (.x 0) (.g 7) ma)),
    (0x360EC2CA, (.trxpd (.g 3) (.x 0) 11 true)), (0x360EC1CE, (.trbck (.g 3) (.x 0) (.g 7) ma)), (0x3602C1D2, (.trpik (.x 0) (.g 7) ma)),
    (0x3602C1D6, (.trrrt (.x 0) (.g 7) ma)), (0x3602C01A, (.trfre (.x 0) true)), (0x3602C1E2, (.trnewF (.x 0) (.g 7) ma)),
    (0x3602C1E6, (.trdscF (.x 0) (.g 7) ma)), (0x360EC2EA, (.trxpdF (.g 3) (.x 0) 11 true)), (0x360EC1EE, (.trbckF (.g 3) (.x 0) (.g 7) ma)),
    (0x3602C1F2, (.trpikF (.x 0) (.g 7) ma)), (0x3602C1F6, (.trrrtF (.x 0) (.g 7) ma)), (0x3602C03A, (.trfreF (.x 0) true))] : List (Word32 × Instr)).all illFormed = true := by decide

theorem test_ill_system : ([
    (0x38C50000, (.csrr .tc 16)), (0x381AC006, (.csrw 6 (.x 0) true)), (0x38C4500E, (.eret .tc (.g 5) true)),
    (0x38C451D2, (.emwin .tc (.g 5) (.g 7) ma)), (0x38C45016, (.launch .tc (.g 5) true)), (0x38C4501A, (.pwrd .tc (.g 5) true)),
    (0x38C451E2, (.errinj .tc (.g 5) (.g 7) ma)), (0x38C451E6, (.segrep .tc (.g 5) (.g 7) ma))] : List (Word32 × Instr)).all illFormed = true := by decide

theorem test_ill_scalarFloat : ([
    (0x39C451C2, (.fadd .tc (.g 5) (.g 7) ma)), (0x39C451C6, (.fsub .tc (.g 5) (.g 7) ma)), (0x39C451CA, (.fmul .tc (.g 5) (.g 7) ma)),
    (0x39C451CE, (.fmin .tc (.g 5) (.g 7) ma)), (0x39C451D2, (.fmax .tc (.g 5) (.g 7) ma)), (0x39C45016, (.fcvti .tc (.g 5) true)),
    (0x39C4501A, (.fcvtf .tc (.g 5) true)), (0x39C4501E, (.fabs .tc (.g 5) true)), (0x39C45022, (.fneg .tc (.g 5) true)),
    (0x3AC451C6, (.ffma .rz .tc (.g 5) (.g 7) ma))] : List (Word32 × Instr)).all illFormed = true := by decide

theorem test_ill_vector : ([
    (0x40C67415, (.vadd (.port .pn) (.port .pe) (.port .ps) 5 .rz)), (0x40C67435, (.vsub (.port .pn) (.port .pe) (.port .ps) 5 .rz)),
    (0x40C67455, (.vmul (.port .pn) (.port .pe) (.port .ps) 5 .rz)), (0x40C67475, (.vmin (.port .pn) (.port .pe) (.port .ps) 5 .rz)),
    (0x40C67495, (.vmax (.port .pn) (.port .pe) (.port .ps) 5 .rz)), (0x40C640B4, (.vabs (.port .pn) (.port .pe) 5 .rn)),
    (0x40C640D4, (.vneg (.port .pn) (.port .pe) 5 .rn)), (0x40C640F5, (.vmov (.port .pn) (.port .pe) 5 .rz)),
    (0x40C67515, (.vsel (.port .pn) (.port .pe) (.port .ps) 5 .rz)), (0x41C67415, (.vfma (.port .pn) (.port .pe) (.port .ps) 5 .rz)),
    (0x42C67474, (.vcmp .ge (.port .pn) (.port .pe) (.port .ps) 5)), (0x43C64155, (.vred .minr 2 (.port .pn) (.port .pe) 5 .rz)),
    (0x430E0155, (.vred .minr 2 (.s 1) (.port .pn) 5 .rz)), (0x44C67414, (.viadd (.port .pn) (.port .pe) (.port .ps) 5)),
    (0x44C67434, (.visub (.port .pn) (.port .pe) (.port .ps) 5)), (0x44C67454, (.vimul (.port .pn) (.port .pe) (.port .ps) 5)),
    (0x44C67474, (.vand (.port .pn) (.port .pe) (.port .ps) 5)), (0x44C67494, (.vor (.port .pn) (.port .pe) (.port .ps) 5)),
    (0x44C674B4, (.vxor (.port .pn) (.port .pe) (.port .ps) 5)), (0x44C674D4, (.vshl (.port .pn) (.port .pe) (.port .ps) 5)),
    (0x44C674F4, (.vshr (.port .pn) (.port .pe) (.port .ps) 5)), (0x44C67514, (.vsar (.port .pn) (.port .pe) (.port .ps) 5)),
    (0x45C64014, (.vexp2 (.port .pn) (.port .pe) 5)), (0x45C64034, (.vlog2 (.port .pn) (.port .pe) 5)),
    (0x45C64054, (.vrcp (.port .pn) (.port .pe) 5)), (0x45C64074, (.vrsq (.port .pn) (.port .pe) 5)),
    (0x45C64094, (.vtanh (.port .pn) (.port .pe) 5)), (0x45C640B4, (.verf (.port .pn) (.port .pe) 5)),
    (0x45C640D4, (.vsin (.port .pn) (.port .pe) 5)), (0x45C640F4, (.vcos (.port .pn) (.port .pe) 5)),
    (0x46C64014, (.vmatch (.port .pn) (.port .pe) 5)), (0x46C64035, (.vscan (.port .pn) (.port .pe) 5 .rz)),
    (0x460E0035, (.vscan (.s 1) (.port .pn) 5 .rz)), (0x46C67455, (.vgath (.port .pn) (.port .pe) (.port .ps) 5 .rz)),
    (0x460E2655, (.vgath (.s 1) (.port .pn) (.h 3) 5 .rz)), (0x46C67475, (.vscat (.port .pn) (.port .pe) (.port .ps) 5 .rz)),
    (0x46C0A675, (.vscat (.port .pn) (.s 2) (.h 3) 5 .rz)), (0x46C64095, (.vbmax (.port .pn) (.port .pe) 5 .rz)),
    (0x460E0095, (.vbmax (.s 1) (.port .pn) 5 .rz)), (0x46C640A8, (.vqnt (.port .pn) (.port .pe) 2)),
    (0x47C64035, (.vwmax 1 (.port .pn) (.port .pe) 5 .rz))] : List (Word32 × Instr)).all illFormed = true := by decide

theorem test_ill_matrix : ([
    (0x48B41808, (.mmaUnfold 5 2 (.port .pn) true)), (0x48A31308, (.mmaShape 5 (.port .pn) (.h 3) true)),
    (0x48A05808, (.mmaShape 5 (.s 2) (.port .pn) true)), (0x48A30020, (.mload 5 (.port .pn))), (0x48A30030, (.mstore 5 (.port .pn))),
    (0x48A30040, (.msave 5 (.port .pn))), (0x48A30050, (.mrest 5 (.port .pn)))] : List (Word32 × Instr)).all illFormed = true := by decide

theorem test_ill_long : (Instr.movl .tc 0).wf = false ∧ refuses [0x80C40000, 0xC0000000] .ill = true := by decide

/-- Reserved numbers and selectors, a stray continuation word, and a long instruction without one. -/
theorem test_illegal_words : refuses [0x00D00000] .ill = true ∧ refuses [0x0D000000] .ill = true ∧ refuses [0x27140000] .ill = true ∧
    refuses [0x4A000000] .ill = true ∧ refuses [0xC0000000] .mid = true ∧ refuses [0x80000000, 0x00000000] .ill = true ∧
    refuses [0x83000000, 0xC0000000] .ill = true ∧ decodeEsnen 0xC8000000 = none ∧ decodeEsnen 0x10000001 = none := by decide

/-! ### A small machine: a thread in slot 0 of core 0, and one in slot 1; region 1, role 0, world 1 -/

def slot0 : SlotRef := { core := 0, slot := 0 }
def slot1 : SlotRef := { core := 0, slot := 1 }

/-- A thread of world `w` that has just begun in a slot, with g1-g7 holding `l`. -/
def thr (r : SlotRef) (w : Nat) (l : List Word) : Thread :=
  let t := newThread State.reset r (threadId r 1) w 0 1 0 0 100 0
  (l.zip (List.range 40)).foldl (fun t p => t.setG (Fin.ofNat 40 (p.2 + 1)) p.1) t

/-- Region 1 of world 1 with a supervisor, on core 0. -/
def region1 (sup : Nat) : Region :=
  { id := 1, rcb := 0x10000, parent := none, world := 1, polder := 0, priority := 0, travelling := false, hazard := false, privateL2 := false, policy := 0,
    handler := 0, supervisor := sup, wdog := 7, dieLo := 0, dieHi := 0, clusterLo := 0, clusterHi := 0, coreLo := 0, coreHi := 3, slotLo := 0, slotHi := 15, slots := 8,
    pools := 2, tokens := 10, container := 0, completion := 0, fn := 0, deps := 0, ndeps := 0, seed := 5, spill := 0, spillsz := 64, spillNo := 0, tag := 9, args := [1, 2, 3, 4],
    cores := [0, 1], roles := [{ role := 0, power := 3, claim := 2, len := 32, entry := 4, meter := 0, marks := [], places := [([0, 1], 0, 15)] }],
    segs := [{ start := 0, len := 32, role := 0, home := 1, reps := [], choice := [1] }], ringOff := 0, ringCap := 0, rings := 0, ringCores := [], dataVa := 0, starting := [],
    forward := [], flight := 0, terminated := false, msgs := [], ringSpoilt := false, shown := (1, 0, 0) }

/-- An image of region 1, role 0, at offset 0. -/
def image1 (words : List Word32) : Image :=
  { region := 1, role := 0, start := 0, words := words, entry := 0, meter := 0, marks := [], localLo := 0, localHi := 0, claim := 0 }

def putThread (s : State) (r : SlotRef) (t : Thread) : State := s.setCore r.core ((s.core r.core).setSlot r.slot { gen := 1, thread := some t })

/-- HBM4E of the machine: a line of world 1, one of world 2, an erased one, a poisoned one of world 1. -/
def lines1 : List (Nat × LineTag) :=
  [(0, { world := 1, epoch := 1, fe := 0xFE, sound := true, poison := false }), (64, { world := 2, epoch := 3, fe := 0xFF, sound := true, poison := false }),
   (192, { world := 1, epoch := 1, fe := 0xFF, sound := true, poison := true })]

/-- The machine: what core 0 holds beside its slots is `k`, the image is eight NOPs. -/
def machine (sup : Nat) (k : Core → Core) (l : List (SlotRef × Thread)) : State :=
  let s : State := { State.reset with
    ready := 0xCFFFFFFF0000FFFF, agenda := [], regions := [region1 sup], lines := lines1, hbm := [(0, 0x11), (64, 0x22), (192, 0x44)],
    keys := [(0, { epoch := 1, live := true, key := 0, destroyed := none }), (1, { epoch := 1, live := true, key := 1, destroyed := none }),
             (2, { epoch := 3, live := true, key := 2, destroyed := none })] }
  let e : TlbEntry := { world := 1, page := 0, large := false, pa := 0, r := true, w := true, x := true }
  let k0 : Core := { Core.reset with
    images := [image1 (List.replicate 8 0x02000000)], utlb := [e, { e with page := 2, pa := 65536, r := false }],
    mem := [(0x100, 7), (0x101, 0xFF)], portsIn := #v[[], [5, 6], [], []] }
  let s1 := s.setCore 0 (k k0)
  l.foldl (fun s p => putThread s p.1 p.2) s1

/-- The thread of slot 0: an address in local memory, two numbers, a global address, an odd number, a target. -/
def t0 : Thread := thr slot0 1 [0xF000000000000100, 5, 0xFFFFFFFFFFFFFFFE, 0x8, 3, 0x1C, 0x38400000]

def m0 : State := machine 0 id [(slot0, t0)]

/-! ### For each statement with hypotheses: what meets them -/

theorem test_meets_register_reads : t0.holds 15 = true ∧ (t0.g[(15 : Fin 40)]).full = true ∧ t0.holds 16 = false ∧ t0.holds 39 = false ∧
    (t0.emptyG 0).holds 0 = true ∧ ((t0.emptyG 0).g[(0 : Fin 40)]).full = false ∧ neighbour m0.cur.core .pn = none ∧ (neighbour m0.cur.core .pe).isSome = true ∧
    m0.portIn m0.cur.core .pe = [5, 6] ∧ (neighbour m0.cur.core .ps).isSome = true ∧ m0.portIn m0.cur.core .ps = [] := by decide

theorem test_meets_destination : (.z : Reg) ≠ .g 39 ∧ (true, Reg.g 39) ∈ [(true, Reg.g 39)] ∧ (true, Reg.g 39) ∉ [(false, Reg.g 39)] := by decide

theorem test_meets_ports : Acts m0 t0 ∧ m0.portIn m0.cur.core .pe = [5, 6] ∧ (neighbour m0.cur.core .pe).isSome = true ∧ neighbour m0.cur.core .ps = some 16 ∧
    (m0.portIn 16 (portOpp .ps)).length < 4 ∧ neighbour m0.cur.core .pw = none ∧ m0.portTurn m0.cur.core .pe false (m0.portStamp t0) = true ∧
    m0.portTurn m0.cur.core .ps true (m0.portStamp t0) = true := by decide

/-- The same with the neighbour's FIFO full. -/
def mFull : State := m0.modCore 16 (fun k => { k with portsIn := #v[[1, 2, 3, 4], [], [], []] })

theorem test_meets_ports_full : Acts mFull t0 ∧ mFull.portIn mFull.cur.core .pe = [5, 6] ∧ neighbour mFull.cur.core .ps = some 16 ∧
    4 ≤ (mFull.portIn 16 (portOpp .ps)).length ∧ mFull.portTurn mFull.cur.core .pe false (mFull.portStamp t0) = true := by decide

/-- The same with room there, and the thread of slot 1 waiting to write to it since an earlier cycle. -/
def mContend : State :=
  { machine 0 id [(slot0, t0), (slot1, { thr slot1 1 [] with parked := some (.portOut .ps { tc := 0, src := 1 }) })] with tc := 1 }

theorem test_meets_ports_contended : Acts mContend t0 ∧ mContend.portIn mContend.cur.core .pe = [5, 6] ∧ neighbour mContend.cur.core .ps = some 16 ∧
    mContend.portTurn mContend.cur.core .pe false (mContend.portStamp t0) = true ∧ mContend.portTurn mContend.cur.core .ps true (mContend.portStamp t0) = false := by decide

theorem test_meets_integer : Acts m0 t0 ∧ readReg m0 t0 [] (.g 2) = .ok 5 ∧ readReg m0 t0 [.g 2] (.g 3) = .ok 0xFFFFFFFFFFFFFFFE ∧ checkDest m0 t0 (.g 0) = .ok () ∧
    checkDest m0 t0 .lk = .ok () ∧ readReg m0 t0 [.g 2] (.g 0) = .ok 0 ∧ readReg m0 t0 [.g 2, .g 3] (.g 4) = .ok 8 := by
  refine ⟨?_, rfl, rfl, rfl, rfl, rfl, rfl⟩; decide

theorem test_meets_compare : Acts m0 t0 ∧ comparing .eq ∧ comparing .fun_ ∧ t0.holds (0 : Fin 40) = true ∧ (t0.g[(0 : Fin 40)]).full = true := by
  simp only [comparing]; decide

/-- A thread that annuls. -/
def tSkip : Thread := { t0 with skip := 3 }
def mSkip : State := machine 0 id [(slot0, tSkip)]

theorem test_meets_annulled : mSkip.thread? slot0 = some tSkip ∧ addressFree mSkip slot0 tSkip = true ∧ 0 < tSkip.skip ∧
    fetch mSkip slot0 tSkip = .ok (.addi (.g 0) (.g 0) 0, 4) := by
  refine ⟨?_, ?_, ?_, rfl⟩ <;> decide

theorem code0 (pc : Word) (h4 : pc.toNat % 4 = 0) (h : pc.toNat < 32) : InCode m0 t0 pc := ⟨h4, image1 (List.replicate 8 0x02000000), rfl, Nat.zero_le _, h⟩

theorem test_meets_transfers : Acts m0 t0 ∧ InCode m0 t0 (t0.pc + (7 : BitVec 24).signExtend 64 * 4) ∧ InCode m0 t0 (t0.pc + (0 : BitVec 53).signExtend 64 * 4) ∧
    (∀ k, (0x8001 : BitVec 32).getLsbD k = true → t0.holds k = true) ∧ readReg m0 t0 [] (.g 6) = .ok 0x1C ∧ InCode m0 t0 0x1C ∧ InCode m0 t0 t0.lk := by
  refine ⟨by decide, code0 _ (by decide) (by decide), code0 _ (by decide) (by decide), ?_, rfl, code0 _ (by decide) (by decide), code0 _ (by decide) (by decide)⟩
  intro k hk
  by_cases h : k < 16
  · simp [Thread.holds, h]
  · have all : ∀ j : Fin 32, 16 ≤ j.val → (0x8001 : BitVec 32).getLsbD j.val = false := by decide
    by_cases h32 : k < 32
    · rw [all ⟨k, h32⟩ (Nat.le_of_not_lt h)] at hk
      exact absurd hk (by decide)
    · rw [BitVec.getLsbD_of_ge _ _ (Nat.le_of_not_lt h32)] at hk
      exact absurd hk (by decide)

theorem notCode0 (pc : Word) (h : 32 ≤ pc.toNat) : ¬InCode m0 t0 pc := by
  rintro ⟨_, m, hm, _, h2⟩
  have e : m = image1 (List.replicate 8 0x02000000) := Option.some.inj (hm.symm.trans rfl)
  rw [e] at h2
  exact absurd h2 (by show ¬(pc.toNat < 32); omega)

theorem test_meets_bad_targets : Acts m0 t0 ∧ readReg m0 t0 [] (.g 5) = .ok 3 ∧ (3 : Word).toNat % 4 ≠ 0 ∧ readReg m0 t0 [] (.g 1) = .ok 0xF000000000000100 ∧
    (0xF000000000000100 : Word).toNat % 4 = 0 ∧ ¬InCode m0 t0 0xF000000000000100 ∧ (∀ g, m0.region? t0.region = some g → g.travelling = false) ∧
    t0.pc.toNat % 4 = 0 ∧ ¬InCode m0 t0 (t0.pc + (8 : BitVec 24).signExtend 64 * 4) ∧ (0x10000 : BitVec 32).getLsbD 16 = true ∧ t0.holds 16 = false := by
  refine ⟨by decide, rfl, by decide, rfl, by decide, notCode0 _ (by decide), ?_, by decide, notCode0 _ (by decide), by decide, by decide⟩
  intro g hg
  have e : g = region1 0 := Option.some.inj (hg.symm.trans rfl)
  rw [e]
  rfl

theorem local0 (a : Word) (n : Nat) (o : Nat) (h : windowOf a = 0xF0 ∧ bitsOf a 55 23 = 0 ∧ bitsOf a 15 15 = 0 ∧ a.toNat % n = 0 ∧ bitsOf a 22 16 = 0 ∧ bitsOf a 14 0 = o ∧
    o + n ≤ 32768) : LocalAt m0 t0 a n 0 o :=
  ⟨h.1.symm ▸ by decide, h.1.symm ▸ by decide, h.2.1, h.2.2.1, h.2.2.2.1, by rw [h.2.2.2.2.1]; rfl, h.2.2.2.2.2.1.symm, t0, by decide, rfl, Nat.zero_le _, h.2.2.2.2.2.2⟩

theorem loadable0 (a : Word) (n : Nat) (o : Nat) (h : windowOf a = 0xF0 ∧ bitsOf a 55 23 = 0 ∧ bitsOf a 15 15 = 0 ∧ a.toNat % n = 0 ∧ bitsOf a 22 16 = 0 ∧ bitsOf a 14 0 = o ∧
    o + n ≤ 32768) : LoadableAt m0 t0 a n 0 o :=
  ⟨local0 a n o h, fun _ _ => ⟨fun _ hp => absurd hp (List.not_mem_nil), List.not_mem_nil⟩, fun _ he => absurd he (List.not_mem_nil), rfl⟩

theorem test_meets_loads : Acts m0 t0 ∧ readReg m0 t0 [] (.g 1) = .ok 0xF000000000000100 ∧ checkDest m0 t0 (.g 0) = .ok () ∧
    LoadableAt m0 t0 (0xF000000000000100 + (0x1FF : BitVec 10).signExtend 64 * BitVec.ofNat 64 (sizeBytes .d)) 8 0 0x10F8 ∧ readReg m0 t0 [.g 1] .z = .ok 0 ∧
    LoadableAt m0 t0 0xF000000000000100 32 0 0x100 := by
  refine ⟨by decide, rfl, rfl, loadable0 _ _ _ (by decide), rfl, loadable0 _ _ _ (by decide)⟩

/-- The checks of LD at the edges: a reserved window, the guard bit, a misaligned address, a core of the cluster whose slot is empty, a page that no
TLB holds, one without R. -/
theorem test_meets_load_checks : wellFormed 0xF900000000000000 8 = false ∧ wellFormed 0xF000000000008000 8 = false ∧ wellFormed 0xF000000000007FF1 8 = true ∧
    (0xF000000000007FF1 : Word).toNat % 8 ≠ 0 ∧ wellFormed 0xF000000000017FF8 8 = true ∧ (0xF000000000017FF8 : Word).toNat % 8 = 0 ∧
    windowOf 0xF000000000017FF8 ≠ 0 ∧ dikeFits m0 m0.cur.slot t0.world (localPlace m0.cur.core 0xF000000000017FF8) 8 = false ∧
    wellFormed 0x10000 8 = true ∧ m0.tlb m0.cur.core t0.world (0x10000 / 65536) = none ∧ wellFormed 0x20000 8 = true ∧
    m0.tlb m0.cur.core t0.world (0x20000 / 65536) = some { world := 1, page := 2, large := false, pa := 65536, r := false, w := true, x := true } := by
  refine ⟨?_, ?_, ?_, ?_, ?_, ?_, ?_, ?_, ?_, ?_, ?_, ?_⟩
  all_goals decide

theorem test_meets_load_answer : ∃ v p s1, (loadChecked m0.cur t0 0xF000000000000100 8) m0 = (.ok (v, p), s1) := ⟨_, _, _, rfl⟩

theorem global0 (a : Word) (n : Nat) (rd wr : Bool) (h : windowOf a = 0 ∧ bitsOf a 55 52 = 0 ∧ a.toNat % n = 0 ∧ a.toNat < 65536) : GlobalAt m0 t0 a n rd wr a.toNat :=
  ⟨h.1, h.2.1, h.2.2.1, by omega, rfl, { world := 1, page := 0, large := false, pa := 0, r := true, w := true, x := true },
    by rw [Nat.div_eq_of_lt h.2.2.2]; decide, fun _ => rfl, fun _ => rfl, by rw [Nat.mod_eq_of_lt h.2.2.2]; exact (Nat.zero_add _).symm⟩

theorem test_meets_stores : Acts m0 t0 ∧ (m0.core m0.cur.core).buf.length < 32 ∧ m0.rdcs = [] ∧ readReg m0 t0 [] (.g 4) = .ok 8 ∧ readReg m0 t0 [.g 4] (.g 2) = .ok 5 ∧
    Reaches m0 t0 (8 + (0x3FF : BitVec 10).signExtend 64 * BitVec.ofNat 64 (sizeBytes .d)) 8 false true (.glob 0) ∧ Writable m0 t0 (.glob 0) 8 ∧ releaseMet m0 m0.cur t0 = true ∧
    readReg m0 t0 [.g 1] .z = .ok 0 ∧ Reaches m0 t0 (0xF000000000000100 + 0) 32 false true (.loc 0 0x100) ∧ Writable m0 t0 (.loc 0 0x100) 32 ∧ Writable m0 t0 (.loc 0 0x100) 4 := by
  refine ⟨by decide, by decide, rfl, rfl, rfl, .inr ⟨0, rfl, global0 _ _ _ _ (by decide)⟩, ⟨fun _ he => absurd he (List.not_mem_nil), by decide, fun _ => by decide⟩, by decide, rfl,
    .inl ⟨_, _, rfl, local0 _ _ _ (by decide)⟩, ⟨fun _ he => absurd he (List.not_mem_nil), fun h => absurd h (by decide)⟩,
    ⟨fun _ he => absurd he (List.not_mem_nil), fun _ _ _ => ⟨fun _ hp => absurd hp (List.not_mem_nil), List.not_mem_nil⟩⟩⟩

/-- A store at the head of the buffer, of a byte beside one that stands there. -/
def eSt (op : StoreOp) (p : Place) (n : Nat) : BufEntry := { slot := 0, tid := t0.id, world := 1, region := 1, place := p, va := 0, n := n, op := op, older := 0, stamp := { tc := 0, src := 0 } }
def mSt (op : StoreOp) (p : Place) (n : Nat) : State := machine 0 (fun k => { k with buf := [eSt op p n] }) [(slot0, t0)]

theorem sound0 (o n : Nat) : Sound m0 0 o n := fun _ _ => ⟨fun _ hp => absurd hp (List.not_mem_nil), List.not_mem_nil⟩

theorem test_meets_store_performed : AtHead (mSt (.bytes [9]) (.loc 0 0x7FFF) 1) (mSt (.bytes [9]) (.loc 0 0x7FFF) 1).arg.core (eSt (.bytes [9]) (.loc 0 0x7FFF) 1) [] ∧ Sound (mSt (.bytes [9]) (.loc 0 0x7FFF) 1) 0 0x7FFF 1 ∧ ([9] : List Byte) ≠ [] ∧
    Memory.wf ((mSt (.bytes [9]) (.loc 0 0x7FFF) 1).core 0).mem = true := by
  refine ⟨by unfold AtHead; decide, fun _ _ => ⟨fun _ hp => absurd hp (List.not_mem_nil), List.not_mem_nil⟩, by decide, by decide⟩

theorem test_meets_shape_bases : Acts m0 t0 ∧ readReg m0 t0 [] (.g 5) = .ok 3 ∧ windowOf (t0.shapes[(0 : Fin 16)]).w0 < 0xF0 ∧
    0xF0 ≤ windowOf (0xF800000000000000 : Word) ∧ windowOf (0xF800000000000000 : Word) ≤ 0xF8 ∧ 0xF8 < windowOf (0xFD00000000000000 : Word) := by
  refine ⟨by decide, rfl, by decide, by decide, by decide, by decide⟩


/-- The thread of slot 1, the supervisor of region 1 in `mSup`. -/
def t1 : Thread := thr slot1 1 [0x10000002, 5]
def mSup : State := machine t1.id id [(slot0, t0), (slot1, t1)]

/-- A queue entry whose operands are shapes. -/
def entry0 (i : Instr) : QEntry :=
  { instr := i, pc := 0, opD := none, opA := none, opB := none, hands := [], serial := false, beats := 0, carry := 0, waited := false, arrived := false,
    heavy := false, kept := [], stamp := { tc := 0, src := 0 }, since := 0, ports := none }

theorem test_meets_exceptions : Acts mSup t0 ∧ t0.cq = [] ∧ t0.fvec = 0 ∧ (region1 t1.id).policy ≤ 1 ∧ (∀ r ∈ mSup.regions, r.supervisor ≠ t0.id) ∧
    mSup.region? t0.region = some (region1 t1.id) ∧ mSup.threadById (region1 t1.id).supervisor = some (slot1, t1) ∧ ¬sameSlot slot1 mSup.cur ∧
    mSup.underDebug t0.region = false ∧ ({ mSup with attached := [1] } : State).underDebug t0.region = true := by decide

/-- Threads with a handler, with a queued instruction, and halted. -/
def tVec : Thread := { t0 with fvec := 0x10 }
def tBusy : Thread := { t0 with cq := [entry0 (.mzero 0)] }
def halt0 : Halt := { cause := .trap, imprecise := false, debugger := true, page := none }
def tHalt : Thread := { t0 with halted := some halt0 }

theorem test_meets_handlers : Acts (machine 0 id [(slot0, tVec)]) tVec ∧ tVec.cq = [] ∧ tVec.fvec ≠ 0 ∧ Acts (machine 0 id [(slot0, tBusy)]) tBusy ∧ tBusy.cq ≠ [] ∧
    (machine 0 id [(slot0, tHalt)]).thread? { core := (machine 0 id []).arg.core, slot := (machine 0 id []).arg.slot } = some tHalt ∧ tHalt.halted = some halt0 := by decide

theorem test_meets_control_registers : Acts mSup t0 ∧ checkDest mSup t0 (.g 0) = .ok () ∧ t0.cq = [] ∧ (18 : Fin 19) ≠ 4 ∧
    (bitsOf (0x7FFF : Word) 63 15 = 0 ∧ mSup.polderLo t0.polder ≤ (0x7FFF : Word).toNat ∧ bitsOf (0x8000 : Word) 63 15 ≠ 0) ∧
    (bitsOf (0x8000 : Word) 63 16 = 0 ∧ (0x8000 : Word).toNat ≤ mSup.polderHi t0.polder ∧ ¬(bitsOf (0x8001 : Word) 63 16 = 0 ∧ (0x8001 : Word).toNat ≤ mSup.polderHi t0.polder)) ∧
    bitsOf (4 : Word) 1 0 = 0 ∧ bitsOf (3 : Word) 1 0 ≠ 0 ∧ bitsOf (31 : Word) 63 5 = 0 ∧ bitsOf (32 : Word) 63 5 ≠ 0 ∧
    mSup.privileged t0 = false ∧ mSup.privileged t1 = true ∧ Acts { mSup with cur := slot1 } t1 ∧ bitsOf (0x3FFFFFFFC0000000 : Word) 63 62 = 0 ∧
    bitsOf (0x3FFFFFFFC0000000 : Word) 29 0 = 0 ∧ ¬(bitsOf (0x20000000 : Word) 63 62 = 0 ∧ bitsOf (0x20000000 : Word) 29 0 = 0) ∧ (0 : Fin 19) ≠ 12 := by
  refine ⟨?_, rfl, ?_⟩ <;> decide

/-- The supervisor in slot 0, and a halted thread of its region in slot 1, with a window of slot 0 on it or without. -/
def tSup : Thread := thr slot0 1 [5, 0, 7]
def tStopped (by_ : Option SlotRef) : Thread := { thr slot1 1 [] with halted := some { halt0 with debugger := false }, emwBy := by_ }
def mWin (by_ : Option SlotRef) : State := machine tSup.id id [(slot0, tSup), (slot1, tStopped by_)]
def idOf (r : SlotRef) : Nat := threadId r 1

theorem test_meets_windows : Acts (mWin none) tSup ∧ (mWin none).privileged tSup = true ∧ Other (mWin none) (idOf slot1) slot1 (tStopped none) ∧
    AsksWindow (BitVec.ofNat 64 (3 * 2 ^ 62 + 55 * 2 ^ 40 + idOf slot1)) 3 55 (idOf slot1) ∧ AsksWindow (BitVec.ofNat 64 (2 ^ 62 + 39 * 2 ^ 40 + idOf slot1)) 1 39 (idOf slot1) ∧
    (tStopped none).halted.isSome ∧ (tStopped none).world = tSup.world ∧ (mWin none).isWithin (tStopped none).region tSup.region = true ∧
    Other (mWin (some slot0)) (idOf slot1) slot1 (tStopped (some slot0)) ∧ (tStopped (some slot0)).emwBy = some (mWin none).cur ∧ (tStopped none).emwBy ≠ some (mWin none).cur ∧
    (tStopped none).holds 15 = true ∧ t1.halted = none ∧ Other mSup t1.id slot1 t1 := by
  unfold AsksWindow Other; decide

theorem test_meets_return : releaseMet (mWin none) (mWin none).cur tSup = true ∧ (mWin none).rdcs = [] ∧ bitsOf (BitVec.ofNat 64 (idOf slot1)) 63 40 = 0 ∧
    Other (mWin none) (BitVec.ofNat 64 (idOf slot1)).toNat slot1 (tStopped none) ∧ (mWin none).region? (tStopped none).region = some (region1 tSup.id) ∧
    releaseMet (machine 0 id [(slot0, tBusy)]) slot0 tBusy = false ∧ Acts (machine 0 id [(slot0, tBusy)]) tBusy := by
  unfold Other; decide

theorem test_meets_power : Acts m0 t0 ∧ m0.region? t0.region = some (region1 0) ∧
    ((region1 0).roles.map (fun k => if k.role = t0.role then (10 : Word).toNat else k.power)).sum =
      (region1 0).tokens - ((m0.regions.filter (fun k => k.parent = some (region1 0).id)).map (fun k => k.tokens)).sum ∧
    ((region1 0).roles.map (fun k => if k.role = t0.role then (11 : Word).toNat else k.power)).sum = 11 ∧ 65535 < (65536 : Word).toNat := by decide

/-- A thread of world 0 in slot 0; a core that holds segment 0 of region 1, of which the thread of slot 0 is the supervisor. -/
def tZero : Thread := thr slot0 0 [0xFD00000000007FF8, 0x103]
def mPin : State := machine tSup.id (fun k => { k with pin := some { region := 1, role := 0, seg := 0, start := 0, drop := false }, arrived := 9 }) [(slot0, tSup)]

theorem test_meets_errors : Acts (machine 0 id [(slot0, tZero)]) tZero ∧ tZero.world = 0 ∧ t0.world ≠ 0 ∧ bitsOf (0x103 : Word) 63 9 = 0 ∧ bitsOf (0x103 : Word) 7 0 = 3 ∧
    fabricPlace 0xFD00000000007FF8 = some (0, 0x7FF8) ∧ (0xFD00000000007FF8 : Word).toNat % 8 = 0 ∧
    Acts mPin tSup ∧ mPin.privileged tSup = true ∧ mPin.region? tSup.region = some (region1 tSup.id) ∧
    (region1 tSup.id).segs[bitsOf (0 : Word) 15 0]? = some { start := 0, len := 32, role := 0, home := 1, reps := [], choice := [1] } ∧ bitsOf (0 : Word) 61 16 = 0 ∧
    coreIx (bitsOf (0 : Word) 55 52) (bitsOf (0 : Word) 51 46) (bitsOf (0 : Word) 22 16) = 0 ∧ (mPin.core 0).pin.isSome ∧
    coreIx (bitsOf (0x10000 : Word) 55 52) (bitsOf (0x10000 : Word) 51 46) (bitsOf (0x10000 : Word) 22 16) = 1 ∧ (mPin.core 1).pin = none := by decide

theorem test_meets_launch : windowOf (64 : Word) = 0 ∧ windowOf (0xF000000000000000 : Word) ≠ 0 ∧
    ∃ b p s1, (loadChecked m0.cur t0 0 64) m0 = (.ok (b, p), s1) ∧ s1.cur = m0.cur ∧ releaseMet s1 m0.cur t0 = true ∧ s1.rdcs = [] ∧ b.length = 64 := by
  refine ⟨by decide, by decide, _, _, _, rfl, ?_, ?_, ?_, ?_⟩ <;> decide

/-- The thread with a nest binding of 6 indices, its counter in local memory; its chunk has indices left, or is spent. -/
def nest0 (cur lim : Nat) : Nest := { counter := 0xF000000000000200, e0 := 2, e1 := 3, e2 := 1, e3 := 1, parts := 2, minc := 1, cur := cur, lim := lim }
def tNest (cur lim : Nat) : Thread := { t0 with nest := some (nest0 cur lim) }
def mNest (cur lim : Nat) (done : Byte) : State :=
  machine 0 (fun k => { k with mem := [(0x110, 2), (0x114, 1), (0x200, done)] }) [(slot0, tNest cur lim)]

theorem test_meets_nest : Acts (mNest 0 3 6) (tNest 0 3) ∧ (nest0 0 3).cur < (nest0 0 3).lim ∧ Acts (mNest 3 3 3) (tNest 3 3) ∧ (nest0 3 3).lim ≤ (nest0 3 3).cur ∧
    (nest0 3 3).e0 * (nest0 3 3).e1 * (nest0 3 3).e2 * (nest0 3 3).e3 - localValue (mNest 3 3 3) 0 0x200 8 = 3 ∧
    (nest0 3 3).e0 * (nest0 3 3).e1 * (nest0 3 3).e2 * (nest0 3 3).e3 - localValue (mNest 3 3 6) 0 0x200 8 = 0 ∧
    Memory.wf ((mNest 3 3 3).core 0).mem = true ∧ localValue (mNest 0 3 6) 0 (0x100 + 16) 4 ≠ 0 ∧ localValue (mNest 0 3 6) 0 (0x100 + 20) 4 ≠ 0 ∧
    localValue (mNest 0 3 6) 0 (0x100 + 24) 8 = 0 ∧ t0.nest = none := by decide

/-- Word 0x108 of local memory is empty; a request waits at its home, or a claim is granted. -/
def held0 (k : HeldKind) : HeldReq :=
  { place := .loc 0 0x100, kind := k, slot := slot0, tid := t0.id, d := .g 0, world := 1, region := 1, va := 0xF000000000000100, stamp := { tc := 0, src := 0 } }
def mHeld (k : HeldKind) (o : Nat) : State :=
  { machine 0 (fun c => { c with emptyW := [0x108] }) [(slot0, { t0 with parked := some .held })] with held := [{ held0 k with place := .loc 0 o }] }

theorem test_meets_full_empty : Acts m0 t0 ∧ m0.buffered m0.cur (.loc 0 0x100) 8 = false ∧ wordAddr 0xF000000000000100 0 = 0xF000000000000100 ∧
    (mHeld .take 0x100).nextHeld = some (held0 .take) ∧ (held0 .take).kind ≠ .claim ∧ (mHeld .take 0x100).thread? slot0 = some { t0 with parked := some .held } ∧
    (mHeld .claim 0x108).nextHeld = some { held0 .claim with place := .loc 0 0x108 } ∧ m0.claims = [] ∧ releaseMet m0 m0.cur t0 = true ∧ Calm m0 := by decide

theorem test_meets_word : WordAt m0 t0 (wordAddr 0xF000000000000100 0) 8 (.loc 0 0x100) ∧ WordStorable m0 t0 (.loc 0 0x100) ∧
    ({ place := .loc 0 0x100, slot := m0.cur, tid := t0.id, used := false } : Claim) ∈ ({ m0 with claims := [{ place := .loc 0 0x100, slot := slot0, tid := t0.id, used := false }] } : State).claims := by
  refine ⟨⟨.inl ⟨_, _, rfl, local0 _ _ _ (by decide)⟩, fun _ he => absurd he (List.not_mem_nil), fun _ h => nomatch h⟩, (fun _ h => nomatch h), by decide⟩

theorem test_meets_words_performed : AtHead (mSt .drain (.loc 0 0x7FF8) 8) 0 (eSt .drain (.loc 0 0x7FF8) 8) [] ∧ 0x7FF8 % 8 = 0 ∧
    Memory.wf ((mSt .drain (.loc 0 0x7FF8) 8).core 0).mem = true := by
  unfold AtHead; decide

theorem test_meets_lines : m0.monitors = [] ∧ m0.lineCase 1 0 = .own ∧ m0.lineCase 1 64 = .other ∧ m0.lineCase 1 128 = .fresh ∧ (m0.tag 0).poison = false ∧
    m0.lineCase 1 192 = .own ∧ (m0.tag 192).poison = true ∧ (m0.touchLine 0 0 false).2 = false ∧ Memory.wf m0.hbm = true ∧ (tget Key.none m0.keys 1).live = true ∧
    56 % 64 + ([1, 2, 3, 4, 5, 6, 7, 8] : List Byte).length ≤ 64 ∧ (({ m0 with dramErr := [0] } : State).touchLine 0 0 false).2 = true := by
  decide

theorem readable0 : Readable m0 1 0 := ⟨rfl, by decide, by decide, fun _ h => absurd h (List.not_mem_nil), by decide⟩

theorem word8 : WordAt m0 t0 8 8 (.glob 8) :=
  ⟨.inr ⟨8, rfl, global0 _ _ _ _ (by decide)⟩, fun _ he => absurd he (List.not_mem_nil), fun pa h => by cases h; decide⟩

/-- A queue at line 0: its head with its load to come, or loaded. -/
def place0 (head : Option Nat) (loaded : Bool) : LrwPlace :=
  { slot := slot0, tid := t0.id, va := 8, pa := 8, d := .g 0, stamp := { tc := 0, src := 0 }, head := head, loaded := loaded }
def mLrw (x : LrwPlace) (tc : Nat) (p : Place) : State :=
  { machine 0 (fun k => { k with buf := [eSt (.sch 1 (.g 0)) p 8] }) [(slot0, { t0 with parked := some .held })] with lrws := [(0, [x])], tc := tc }

theorem test_meets_reservations : readReg m0 t0 [] (.g 4) = .ok 8 ∧ wordAddr 8 0 = 8 ∧ m0.buffered m0.cur (.glob 8) 8 = false ∧ m0.lrws = [] ∧
    m0.lrwPlaces (m0.sliceNo (lineOf 8)) < 1024 ∧ windowOf (wordAddr 0xF000000000000100 0) ≠ 0 ∧ windowOf 8 = 0 := by
  refine ⟨rfl, ?_, ?_, ?_, ?_, ?_, ?_⟩ <;> decide

theorem test_meets_reservation_head : (mLrw (place0 none false) 0 (.glob 8)).arg.n < 2 ^ 42 ∧ tget [] (mLrw (place0 none false) 0 (.glob 8)).lrws 0 = [place0 none false] ∧
    (mLrw (place0 none false) 0 (.glob 8)).thread? slot0 = some { t0 with parked := some .held } ∧ (mLrw (place0 none false) 0 (.glob 8)).remapping (.glob 8) = none ∧ lineOf 8 = 0 ∧
    checkDest { mLrw (place0 none false) 0 (.glob 8) with cur := slot0 } { t0 with parked := some .held } (.g 0) = .ok () ∧
    (mLrw (place0 none false) 0 (.glob 8)).lineCase 1 0 = .own ∧ ((mLrw (place0 none false) 0 (.glob 8)).tag 0).poison = false ∧ Calm (mLrw (place0 none false) 0 (.glob 8)) := by
  refine ⟨?_, ?_, ?_, ?_, ?_, rfl, ?_, ?_, ?_⟩ <;> decide

theorem test_meets_conditional : (let e (p : Place) := eSt (.sch 1 (.g 0)) p 8
    let s (tc : Nat) (p : Place) := mLrw (place0 (some 5) true) tc p
    AtHead (s 4101 (.glob 8)) 0 (e (.glob 8)) [] ∧ (s 4101 (.glob 8)).holdsLine (e (.glob 8)).tid (lineOf 8) (e (.glob 8)).stamp = true ∧
    (s 4101 (.glob 200)).holdsLine (e (.glob 200)).tid (lineOf 200) (e (.glob 200)).stamp = false ∧ Calm (s 4101 (.glob 8)) ∧ 8 % 64 ≤ 56 ∧
    (place0 (some 5) true).head = some 5 ∧ 5 + 4096 ≤ (s 4101 (.glob 200)).tc ∧ (s 4101 (.glob 200)).schUnderWay 0 (place0 (some 5) true) = false ∧
    (s 4101 (.glob 8)).schUnderWay 0 (place0 (some 5) true) = true ∧ (s 4100 (.glob 200)).tc < 5 + 4096) := by
  unfold AtHead; decide

/-- A visit and a remote update of a local word, and a result that comes to g9. -/
def rupd0 : Rupd := { slot := slot0, tid := t0.id, world := 1, region := 1, place := .loc 0 0x100, va := 0xF000000000000100, op := .add, value := 5, stamp := { tc := 0, src := 0 }, due := 0 }
def fill0 : Fill := { slot := 0, tid := t0.id, reg := .g 9, value := 3, flags := 1, poke := false, stamp := { tc := 0, src := 0 }, after := none }

theorem test_meets_visits : (mSt (.amo .add 5 (.g 0)) (.loc 0 0x100) 8).core 0 = { (mSt (.amo .add 5 (.g 0)) (.loc 0 0x100) 8).core 0 with buf := [eSt (.amo .add 5 (.g 0)) (.loc 0 0x100) 8] } ∧
    (eSt (.amo .add 5 (.g 0)) (.loc 0 0x100) 8).n = 8 ∧ BitVec.ofNat 64 (localValue (mSt (.cas 0xFF07 5 (.g 0)) (.loc 0 0x100) 8) 0 0x100 8) = 0xFF07 ∧
    ({ m0 with rupds := [rupd0] } : State).rupds = [rupd0] ∧ rupd0.op = .add ∧ ((machine 0 (fun k => { k with fills := [fill0] }) [(slot0, t0)]).core 0).fills = [fill0] ∧
    (machine 0 (fun k => { k with fills := [fill0] }) [(slot0, t0)]).thread? { core := 0, slot := fill0.slot } = some t0 ∧ t0.id = fill0.tid ∧
    AtHead (mSt (.amo .add 5 (.g 0)) (.loc 0 0x100) 8) 0 (eSt (.amo .add 5 (.g 0)) (.loc 0 0x100) 8) [] ∧
    rupd0.slot.slot % 16 = ({ m0 with rupds := [rupd0] } : State).arg.slot % 16 ∧ rupd0.due ≤ m0.tc := by unfold AtHead; decide

/-- The same with the register pending, or released since: its result is to be discarded. -/
def mFill (t : Thread) : State := machine 0 (fun k => { k with fills := [fill0] }) [(slot0, t)]

theorem test_meets_fills : ((mFill (t0.pendG 9)).core 0).fills = [fill0] ∧ (mFill (t0.pendG 9)).thread? slot0 = some (t0.pendG 9) ∧ 9 ∉ (t0.pendG 9).stale ∧
    (t0.pendG 9).holds 9 = true ∧ (((t0.pendG 9).g[(9 : Fin 40)])).pending = true ∧ fill0.after = none ∧ fill0.poke = false ∧
    (mFill { t0 with stale := [9] }).thread? slot0 = some { t0 with stale := [9] } ∧ 9 ∈ ({ t0 with stale := [9] } : Thread).stale := by decide

/-- A release of the thread of slot 0 under way, and stores of that thread, stamped at the cycles `l`, in the buffer. -/
def rel0 : Release := { slot := 0, tid := t0.id, world := 1, region := 1, wide := false, stamp := { tc := 2, src := 0 } }
def mRel (l : List Nat) : State :=
  machine 0 (fun k => { k with releases := [rel0], buf := l.map (fun tc => { eSt (.bytes [9]) (.loc 0 0x100) 1 with stamp := { tc := tc, src := 0 } }) }) [(slot0, t0)]

theorem test_meets_fences : Acts m0 t0 ∧ m0.rdcs = [] ∧ t0.cq = [] ∧ (∀ e ∈ (m0.core m0.cur.core).buf, e.slot = m0.cur.slot → e.isVisit = false) ∧
    releaseMet m0 m0.cur t0 = true ∧ Acts (mSt .drain (.loc 0 0x100) 8) t0 ∧ releaseMet (mSt .drain (.loc 0 0x100) 8) slot0 t0 = false ∧ tBusy.cq ≠ [] ∧
    (∃ e ∈ ((mSt (.amo .add 5 (.g 0)) (.loc 0 0x100) 8).core 0).buf, e.slot = 0 ∧ e.isVisit = true) := by decide

theorem test_meets_releases : ((mRel []).core 0).releases = [rel0] ∧ (mRel []).rdcs = [] ∧ (mRel []).olderDone slot0 rel0.stamp = true ∧ ((mRel []).core 0).buf = [] ∧
    ((mRel [3]).core 0).buf.map (fun e => e.tid) = [rel0.tid] ∧ rel0.stamp.before { tc := 3, src := 0 } = true ∧
    ({ mRel [3] with rupds := [rupd0] } : State).olderDone slot0 rel0.stamp = false := by decide

/-- A thread whose handle 0 is a ring of 4 slots of 16 bytes at 0x400, with `p` slots produced and `c` consumed. -/
def ring0 (p c : Nat) : Handle := { w0 := 0xF000100400000400, w1 := BitVec.ofNat 64 (p * 4294967296 + c) }
def tRing (p c : Nat) : Thread := { t0 with handles := t0.handles.set 0 (ring0 p c) }

theorem test_meets_handles : Acts (machine 0 id [(slot0, tRing 0 4294967293)]) (tRing 0 4294967293) ∧ ringFilled (ring0 0 4294967293) = 3 ∧ ringCount (ring0 0 4294967293) = 4 ∧
    bitOf (ring0 0 0).w0 29 = false ∧ bitOf (ring0 0 0).w0 30 = false ∧ bitOf (ring0 0 0).w0 31 = false ∧ ringCount (t0.handles[(1 : Fin 8)]) = 0 ∧
    BindingGood 0xF000100400007FC0 ∧ ¬BindingGood 0xF000100400007FC1 ∧ ¬BindingGood 0xF800100400000000 ∧ m0.subs = [] ∧ releaseMet m0 m0.cur t0 = true := by
  unfold BindingGood; decide

/-- The thread with a word of a record pushed, and with words waiting. -/
def tWords : Thread :=
  { t0 with sluices := { t0.sluices with q4 := { active := none, shadow := some { words := [0x4000000000000000], sealed := none } }, q1 := [7, 8] } }

theorem test_meets_sluices : tWords.sluices.inbound 1 = [7, 8] ∧ tWords.sluices.inbound 6 = [] ∧ (tWords.sluices.outlet 4).full = false ∧
    ([0x4000000000000000, 5] : List Word).length = bitsOf (([0x4000000000000000, 5] : List Word).headD 0) 63 62 + 1 ∧
    ([0x4000000000000000] : List Word).length ≠ bitsOf (([0x4000000000000000] : List Word).headD 0) 63 62 + 1 ∧ releaseMet m0 m0.cur tWords = true ∧
    bitsOf (0xFF00000000000009 : Word) 63 56 = 0xFF ∧ bitsOf (0xFF00000000000009 : Word) 55 0 = 9 ∧ ({ m0 with tc := 9 } : State).tc = 9 ∧ m0.tc < 9 ∧
    0 / 4 ∈ m0.polderSlots t0.polder ∧
    messageBad { t0 with tree := 0x0400000000000000 } 0x4000000000000000 = false := by decide

/-- A copy of one chunk that bears token 0, running or ended. -/
def job0 (ended : Option Nat) (moved : Nat) : CopyJob :=
  { slot := 0, tid := t0.id, world := 1, region := 1, code := 0, dst := 0xF000000000000F00, src := 0xF000000000000100, dstGen := 0, srcGen := 0, length := 16, moved := moved,
    weir := 0, phase := 0, promise := 7, wide := false, ended := ended, endNo := 0 }
def mJob (ended : Option Nat) (moved : Nat) (tc : Nat) : State :=
  { machine 0 (fun k => { k with tokens := [(0, { taken := true, promise := 7, job := some (job0 ended moved), past := [] })] }) [(slot0, t0)] with tc := tc }

theorem test_meets_promises : (tokenAt (mJob none 0 8) 0 0).job = some (job0 none 0) ∧ (job0 none 0).promise = 7 ∧ 7 ≤ (mJob none 0 8).tc ∧ (job0 none 0).ended = none ∧
    (job0 (some 0) 16).ended.isSome ∧ 0 / 4 ∈ (mJob none 0 8).polderSlots t0.polder := by decide

/-- A thread parked on a promise, at a WAITT of g1 as the image's first word. -/
def tWait : Thread := { thr slot0 1 [0xFF00000000000003] with parked := some (.promise 3) }
def mWait : State := { machine 0 (fun k => { k with images := [image1 ((encode (.waitt (.g 1) false)))] }) [(slot0, tWait)] with tc := 3 }

theorem test_meets_wake : mWait.thread? slot0 = some tWait ∧ fetch mWait slot0 tWait = .ok (.waitt (.g 1) false, 4) ∧ readReg mWait tWait [] (.g 1) = .ok 0xFF00000000000003 ∧
    bitsOf (0xFF00000000000003 : Word) 55 0 ≤ mWait.tc := by
  refine ⟨?_, rfl, rfl, ?_⟩ <;> decide

theorem test_meets_commands : releaseMet m0 m0.cur t0 = true ∧ m0.rdcs = [] ∧ OutletFree t0 0 ∧ OutletFree t0 2 ∧ bitsOf (0xFFFFFFFF : Word) 63 32 = 0 ∧ bitsOf (0xFFFFFFFFF : Word) 63 36 = 0 ∧
    bitsOf (0x00FFFFFFFFFFFFFF : Word) 63 56 = 0 := by
  unfold OutletFree; decide

/-- A record in q0 of slot 0. -/
def copy0 (w : Word) : Record := { words := [w, 0xF000000000000F00, 0xF000000000007FFF], sealed := some { tc := 0, src := 0 }, d := some (.g 0) }
def tCopy (w : Word) : Thread := { t0 with sluices := { t0.sluices with q0 := { active := some (copy0 w), shadow := none } } }
def mCopy (w : Word) : State := machine 0 id [(slot0, tCopy w)]

theorem engineLocal0 (k : Core → Core) (t : Thread) (ht : t = t0) (a : Word) (n o : Nat) (h : windowOf a = 0xF0 ∧ bitsOf a 55 23 = 0 ∧ bitsOf a 15 15 = 0 ∧ 0 < n ∧ a.toNat % 64 + n ≤ 64 ∧
    bitsOf a 22 16 = 0 ∧ bitsOf a 14 0 = o ∧ o + n ≤ 32768) (hs : (machine 0 k [(slot0, t)]).thread? slot0 = some t) : EngineLocal (machine 0 k [(slot0, t)]) 0 0 1 a n 0 o := by
  subst ht
  exact ⟨h.1.symm ▸ by decide, h.1.symm ▸ by decide, h.2.1, h.2.2.1, h.2.2.2.1, h.2.2.2.2.1, by rw [h.2.2.2.2.2.1], h.2.2.2.2.2.2.1.symm, t0, hs, rfl, Nat.zero_le _, h.2.2.2.2.2.2.2⟩

theorem test_meets_copies : OnlyRecord (mCopy 0x8000000100000000) 0 0 slot0 (tCopy 0x8000000100000000) (copy0 0x8000000100000000) ∧ copyHeaderBad 0x8000000100000000 = true ∧
    OnlyRecord (mCopy (copyHeader 0 0 0 1)) 0 0 slot0 (tCopy (copyHeader 0 0 0 1)) (copy0 (copyHeader 0 0 0 1)) ∧ (mCopy (copyHeader 0 0 0 1)).freeToken 0 (tCopy 0).polder = some 0 ∧
    runningCopies ((mJob none 0 0).core 0) = [(0, job0 none 0)] ∧ tokenAt (mJob none 0 0) 0 0 = { taken := true, promise := 7, job := some (job0 none 0), past := [] } ∧ (job0 none 0).moved < (job0 none 0).length ∧
    16 = min 4096 ((job0 none 0).length - (job0 none 0).moved) ∧ endedCopies ((mJob (some 0) 16 0).core 0) = [(0, job0 (some 0) 16, 0)] ∧ t0.sluices.q1.length < 16 := by
  unfold OnlyRecord; decide

theorem test_meets_copy_ends : EngineLocal m0 0 0 1 0xF000000000000F00 16 0 0xF00 ∧ EngineLocal m0 0 0 1 0xF000000000007FFF 1 0 0x7FFF :=
  ⟨engineLocal0 id t0 rfl _ _ _ (by decide) (by decide), engineLocal0 id t0 rfl _ _ _ (by decide) (by decide)⟩

/-- Whether a result is this value. -/
def okIs {α ε : Type} [DecidableEq α] (x : Except ε α) (v : α) : Bool := match x with | .ok y => decide (y = v) | .error _ => false

/-- The machine with page tables of world 1 that map its first 32 MiB to frame 0, and a tensor descriptor of tiles of 16 bytes at 0x100. -/
def tabled (s : State) : State :=
  { s with
    worldTable := [(1, 0x1000)],
    hbm := [(0, 0x11), (64, 0x22), (192, 0x44), (0x101, 2), (0x108, 16), (0x110, 16), (0x114, 16), (0x116, 1), (0x200, 0xAB), (0x1000, 1), (0x1001, 0x20), (0x2000, 1),
      (0x2001, 0x30), (0x3000, 15)],
    lines := lines1 ++ [0x100, 0x200, 0x1000, 0x2000, 0x3000].map (fun l => (l, { world := 1, epoch := 1, fe := 0xFF, sound := true, poison := false })) }

/-- A subscription record in q2 of slot 0, whose handle 0 is a ring of tiles. -/
def subRec (code : Nat) : Record := { words := [BitVec.ofNat 64 (2 * 2 ^ 62 + code * 2 ^ 56 + 3), 0x100, 0xFD00000000000000], sealed := some { tc := 0, src := 0 } }
def tSub (code p : Nat) : Thread := { tRing p 0 with sluices := { t0.sluices with q2 := { active := some (subRec code), shadow := none } } }
def mSub (code p : Nat) (l : List Subscription) : State := { tabled (machine 0 id [(slot0, tSub code p)]) with subs := l }
def sub0 (loader : Bool) : Subscription :=
  { slot := slot0, tid := t0.id, world := 1, region := 1, handle := 0, target := 0, loader := loader, count := 3, moved := 0, base := 0x200, tpitch := 16, rpitch := 16,
    rbytes := 16, rows := 1, format := 0, sbase := 0, cancel := false, ended := none, wide := false, data := [], scales := [] }

theorem test_meets_subscriptions :
    OnlySubRecord (mSub 0 0 []) slot0 (tSub 0 0) (subRec 0) 0x8000000000000003 0x100 0xFD00000000000000 ∧ fabricPlace 0xFD00000000000000 = some (0, 0) ∧ Still (mSub 0 0 []) ∧
    (let p := (mSub 0 0 []).engineSpan 0 0 1 0x100 48 true false
     let q := p.1.engineRead (engineWho (sourceNo 1 (coreIx (dieOf 0) (clusterOf 0 % 64) 127) 3) 1 1 0 0x100) [(.glob 0x100, 48)]
     let b := bytesAt [0, 2, 0, 0, 0, 0, 0, 0, 16, 0, 0, 0, 0, 0, 0, 0, 16, 0, 0, 0, 16, 0, 1] 0 48
     okIs p.2 [(.glob 0x100, 48)] = true ∧ okIs q.2 (b ++ List.replicate (48 - b.length) 0) = true ∧ descriptorBad b = false ∧ q.1.thread? slot0 = some (tSub 0 0) ∧
     subOf slot0 (tSub 0 0) (subRec 0).words 0 b = sub0 true ∧ shapeBad (sub0 true) (ring0 0 0) = false ∧ q.1.heavyRoom 1 = true) ∧
    OnlySubRecord (mSub 2 0 [sub0 true]) slot0 (tSub 2 0) (subRec 2) 0x8200000000000003 0x100 0xFD00000000000000 := by
  unfold OnlySubRecord; decide

theorem test_meets_loader : LiveSub (mSub 0 3 [sub0 true]) (sub0 true) (ring0 3 0) ∧ Still (mSub 0 3 [sub0 true]) ∧ ringFilled (ring0 3 0) < ringCount (ring0 3 0) ∧
    tileDike (mSub 0 3 [sub0 true]) (sub0 true) (ringOffset (ring0 3 0) 0) = true ∧ 0 < (sub0 true).rbytes * (sub0 true).rows ∧
    (let s := mSub 0 3 [sub0 true]
     let p := partSpans { s with seq := s.seq + 1 } (sub0 true) ((sub0 true).parts 0 true false) true false
     let q := p.1.engineRead ((sub0 true).who p.1) [(.glob 0x200, 16)]
     okIs p.2 [(.glob 0x200, 16)] = true ∧ okIs q.2 (0xAB :: List.replicate 15 0) = true ∧ tileDike q.1 (sub0 true) (ringOffset (ring0 3 0) 0) = true ∧
     (q.1.core 0).poison = [] ∧ q.1.locErr = [] ∧ Memory.wf (q.1.core 0).mem = true) ∧ (sub0 true).moved + 1 < (sub0 true).count :=
  ⟨⟨rfl, rfl, rfl, rfl, rfl, by decide, by decide, tSub 0 3, by decide, rfl, by decide⟩, by decide⟩

theorem test_meets_storer : LiveSub (mSub 1 1 [sub0 false]) (sub0 false) (ring0 1 0) ∧ Still (mSub 1 1 [sub0 false]) ∧ 0 < ringFilled (ring0 1 0) ∧
    tileDike (mSub 1 1 [sub0 false]) (sub0 false) (ringOffset (ring0 1 0) 0) = true ∧
    (let s := mSub 1 1 [sub0 false]
     let p := partSpans { s with seq := s.seq + 1 } (sub0 false) ((sub0 false).parts 0 true false) false true
     okIs p.2 [(.glob 0x200, 16)] = true ∧ (p.1.core 0).poison = [] ∧ p.1.locErr = [] ∧
     ((p.1.rouse 0).engineWrite ((sub0 false).who (p.1.rouse 0)) 0 0 t0.id [(.glob 0x200, 16)] (List.replicate 16 0)).2 = none) :=
  ⟨⟨rfl, rfl, rfl, rfl, rfl, by decide, by decide, tSub 1 1, by decide, rfl, by decide⟩, by decide⟩

/-- A reduction server's message, the round it closes, words that wait for q6. -/
def red0 (child : Nat) : RedMsg := { slot := 0, world := 1, region := 1, op := 0, tag := 3, child := child, value := 0x3F800000 }
def round0 : Round := { slot := 0, tag := 3, op := 0, world := 1, region := 1, tree := 0x0408000000000000, joined := [(0, 0x40000000)], order := 0 }
def group0 : Q6Group := { slot := 0, stamp := { tc := 0, src := 0 }, words := [0, 5], region := 1, notice := false }
def tTree : Thread := { t0 with tree := 0x0408000000000000, sluices := { t0.sluices with q6 := List.replicate 30 0 } }
def mRed (child : Nat) (l : List Round) : State := machine 0 (fun k => { k with link := [red0 child], rounds := l, q6wait := [group0] }) [(slot0, tTree)]

theorem test_meets_rounds : ((mRed 0 []).core 0).link = [red0 0] ∧ ((mRed 0 []).core 0).rounds = [] ∧ (mRed 0 []).thread? { core := 0, slot := (red0 0).slot } = some tTree ∧
    2 ≤ bitsOf tTree.tree 61 57 ∧ ((mRed 1 [round0]).core 0).rounds = [round0] ∧ round0.tag = (red0 1).tag ∧ (∀ p ∈ round0.joined, p.1 ≠ (red0 1).child) ∧
    round0.joined.length + 1 = bitsOf round0.tree 61 57 ∧ bitOf round0.tree 51 = true ∧ ((mRed 0 []).core 0).q6wait = [group0] ∧ bitsOf (group0.words.headD 0) 39 32 ≠ 0xFF ∧
    tTree.sluices.q6.length + group0.words.length ≤ 32 := by decide

theorem test_meets_spawn : Acts m0 t0 ∧ releaseMet m0 m0.cur t0 = true ∧ readReg m0 t0 [] (.g 4) = .ok 8 ∧ readReg m0 t0 [] (.g 7) = .ok 0x38400000 ∧
    (region1 0).role? t0.role = some { role := 0, power := 3, claim := 2, len := 32, entry := 4, meter := 0, marks := [], places := [([0, 1], 0, 15)] } ∧
    m0.region? 1 = some (region1 0) ∧ SpawnTarget 0 0 ∧ (28 : Word).toNat % 4 = 0 ∧ (28 : Word).toNat < 32 ∧ m0.liveThreads 1 < m0.slotsOf (region1 0) ∧
    m0.canSend (region1 0) 0 t0.polder = true ∧ bitsOf (0xF : Word) 45 4 = 0 := by
  refine ⟨?_, ?_, rfl, rfl, ?_⟩
  · decide
  · decide
  · unfold SpawnTarget; decide

theorem hosts0 : Hosts m0 (region1 0) 0 0 ∧ ¬Hosts m0 (region1 0) 0 4 := by
  refine ⟨⟨by decide, .inr (by decide)⟩, fun h => absurd h.1 (by decide)⟩

/-- A region whose live threads are as many as its slots, and one that can send nothing more. -/
theorem test_meets_spawn_refusals : (let s : State := { m0 with regions := [{ region1 0 with slots := 1 }] }; s.slotsOf { region1 0 with slots := 1 } ≤ s.liveThreads 1) ∧
    (let f : FlumeRec := { spawn := true, tid := 0, world := 1, polder := 0, region := 1, role := 0, skip := 0, blocks := 0, pc := 0, lk := 0, live := 0, full := 0, vals := [], claim := 0,
                           wdog := 0, fflags := 0, stamp := { tc := 0, src := 0 }, origin := 0, reply := none }
     (machine 0 (fun k => { k with arrivals := List.replicate 64 f }) [(slot0, t0)]).canSend (region1 0) 0 t0.polder = false) := by decide

/-- A task on its way, and one in its bank. -/
def task0 (no : Nat) : Task :=
  { no := no, region := 1, role := 0, entry := 8, args := [1, 2, 3, 4], priority := 3, tc := 0, stamp := { tc := 0, src := 0 }, polder := 0, reply := some (slot0, t0.id, .g 0), origin := 0 }
def mTask : State := { m0 with dispatchers := [(0, { Dispatcher.reset with arriving := [task0 0], gen := [(0, 1)] })] }
def mBank : State := { m0 with dispatchers := [(0, { Dispatcher.reset with banks := [(0, [task0 7])], nextNo := 8, started := [(5, 99)] })] }

theorem test_meets_tasks : (mTask.dispatcher 0).arriving = [task0 0] ∧ (task0 0).reply = some (slot0, t0.id, .g 0) ∧ mTask.region? 1 = some (region1 0) ∧
    (tget [] (mTask.dispatcher 0).banks (drawnBank mTask (mTask.dispatcher 0) 0)).length < 64 ∧ (region1 0).spillsz / 64 = 1 ∧ mTask.spilledOf 1 < 1 ∧
    (mBank.dispatcher 0).banks = [(0, [task0 7])] ∧ (mBank.dispatcher 0).spilled = [] ∧ (task0 7).polder = mBank.polderOf 0 ∧ mBank.taskSlot 0 (task0 7) = some slot1 ∧
    (task0 7).args.length = 4 ∧ (task0 7).entry &&& 3 = 0 ∧ canUnspill mTask (mTask.dispatcher 0) = false ∧ Still mTask := by decide

/-- The task on its way finds every bank of its polder full, and the spill area empty, or full. -/
def mFullBanks (spilled : List Task) : State :=
  { m0 with dispatchers := [(0, { Dispatcher.reset with banks := (List.range 16).map (fun b => (b, List.replicate 64 (task0 7))), spilled := spilled, arriving := [task0 0], gen := [(0, 1)] })] }

theorem test_meets_spilling : (let s := mFullBanks []
    (∀ n ∈ s.polderSlots 0, 64 ≤ (tget [] (s.dispatcher 0).banks n).length) ∧ s.spilledOf 1 < (region1 0).spillsz / 64 ∧
      64 ≤ (tget [] (s.dispatcher 0).banks (drawnBank s (s.dispatcher 0) 0)).length ∧ canUnspill s (s.dispatcher 0) = false ∧ Still s) ∧
    (let s := mFullBanks [task0 1]; (region1 0).spillsz / 64 ≤ s.spilledOf 1 ∧ canUnspill s (s.dispatcher 0) = false) := by decide +kernel

theorem test_meets_thread_control : Memory.wf (m0.core 0).mem = true ∧ releaseMet m0 m0.cur t0 = true ∧ t0.wakeBit = false ∧ ({ t0 with wakeBit := true } : Thread).wakeBit = true ∧ (5 : Word) ≠ 0 ∧
    (5 : Word).toNat ≤ ({ m0 with tc := 5 } : State).tc ∧ m0.tc < (5 : Word).toNat ∧ mSup.threadById (bitsOf (BitVec.ofNat 64 t1.id) 39 0) = some (slot1, t1) ∧ t1.world = t0.world ∧
    mSup.threadById (bitsOf (5 : Word) 39 0) = none ∧ bitOf (BitVec.ofNat 64 (2 ^ 63 + t1.id)) 63 = true ∧ bitsOf (BitVec.ofNat 64 (2 ^ 63 + t1.id)) 39 0 ≠ t0.id ∧
    mSup.isWithin t1.region t0.region = true ∧ (mBank.dispatcher 0).started.find? (fun p => p.1 = bitsOf (5 : Word) 31 0) = some (5, 99) ∧ (task0 7).no = bitsOf (7 : Word) 31 0 ∧
    bitsOf (BitVec.ofNat 64 (39 * 2 ^ 40 + t1.id)) 45 40 = 39 ∧ 40 ≤ bitsOf (BitVec.ofNat 64 (40 * 2 ^ 40 + t1.id)) 45 40 ∧
    clusterOf (idSlot (bitsOf (BitVec.ofNat 64 (39 * 2 ^ 40 + t1.id)) 39 0)).core = clusterOf mSup.cur.core := by decide

/-- A thread at a PARK whose deadline is past, as the image's first word. -/
def tPark : Thread := { thr slot0 1 [9] with parked := some (.wake 9) }
def mPark : State := { machine t1.id (fun k => { k with images := [image1 (encode (.park (.g 2) (.g 1) false))] }) [(slot0, tPark), (slot1, t1)] with tc := 9 }

theorem test_meets_expiries : mPark.thread? { core := mPark.arg.core, slot := mPark.arg.slot } = some tPark ∧ tPark.yieldTo ≤ mPark.tc ∧
    fetch mPark slot0 tPark = .ok (.park (.g 2) (.g 1) false, 4) ∧ tPark.wakeBit = false ∧ readReg { mPark with cur := slot0 } tPark [] (.g 1) = .ok 9 ∧ (9 : Word).toNat ≤ mPark.tc ∧
    tPark.halted = none ∧ tPark.cq = [] ∧ mPark.region? tPark.region = some (region1 t1.id) ∧ mPark.threadById (region1 t1.id).supervisor = some (slot1, t1) ∧ ¬sameSlot slot1 slot0 := by
  refine ⟨?_, ?_, rfl, ?_, rfl, ?_, ?_, ?_, ?_, ?_, ?_⟩ <;> decide

/-- Threads that claim storage: all of the pool's tiles, one of them held by the thread of slot 1. -/
def tClaim : Thread := { t0 with claim := 0x0000000800000102 }
def tHolds : Thread := { t1 with claim := 0x0000000800000000, tiles := [[]] }
def mPool : State := machine 0 id [(slot0, tClaim), (slot1, tHolds)]

theorem test_meets_storage : Acts mPool tClaim ∧ mPool.cur.slot < 16 ∧ Memory.wf (mPool.core mPool.cur.core).mem = true ∧ bitsOf (8 : Word) 7 3 ≠ 0 ∧
    NoRequests mPool 0 tClaim.polder ∧ tClaim.halted = none ∧ tClaim.granted = false ∧
    bitsOf (0x0000000800008003 : Word) 15 8 ≤ (mPool.poolTotal 0 0).pages ∧ bitsOf (0x0000000800008003 : Word) 39 32 ≤ (mPool.poolTotal 0 0).tiles ∧
    bitsOf (0x0000000900000000 : Word) 39 32 = (mPool.poolTotal 0 0).tiles + 1 ∧
    requestBanned (mPool.isTrav 1) tClaim 0x0000000000000103 = false ∧ mPool.judgeThread slot0 tClaim 0x0000000000000103 = .grant 0 ∧
    requestBanned (mPool.isTrav 1) tClaim 0x0000000900000000 = true ∧
    requestBanned (mPool.isTrav 1) tClaim 0x0000000800000000 = false ∧ mPool.judgeThread slot0 tClaim 0x0000000800000000 = .unavailable ∧
    requestBanned (mPool.isTrav 1) tClaim 0x0000000100000000 = false ∧ mPool.judgeThread slot0 tClaim 0x0000000100000000 = .notSafe ∧
    releaseBanned tHolds 0x0000000100000000 = false ∧ releaseBanned tHolds 0x0000000200000000 = true := by
  unfold NoRequests; decide +kernel

/-- Weir 5 of cluster 0, with two participants of core 0. -/
def weir0 (arrived : List (SlotRef × Nat)) (results : List (SlotRef × Nat × List Word32 × Bool)) : Weir :=
  { world := 1, region := 1, slotLo := 0, slotHi := 1, coreLo := 0, coreHi := 0, arrived := arrived, contrib := [], results := results }
def mWeir (w : Weir) : State := { mWin none with weirs := [(5, w)] }

theorem test_meets_weirs : bitsOf (0x4000000000000005 : Word) 61 6 = 0 ∧ bitsOf (0x4000000000000005 : Word) 63 62 = 1 ∧ bitsOf (0x8000000000000005 : Word) 63 62 = 2 ∧
    bitsOf (0xC000000000000005 : Word) 63 62 = 3 ∧ 5 = clusterOf (mWeir (weir0 [] [])).cur.core * 64 + bitsOf (5 : Word) 5 0 ∧ tSup.weirDone = false ∧
    (mWin none).weir? 5 = none ∧ BindingWord 0x00000010007F0000 ∧ ¬BindingWord 0x000000010000007F ∧ ¬BindingWord 0x0000000100000000 ∧ (mWeir (weir0 [] [])).privileged tSup = true ∧
    m0.privileged t0 = false ∧ (mWeir (weir0 [] [])).weir? 5 = some (weir0 [] []) ∧ (weir0 [(slot1, idOf slot1)] []).arrived ≠ [] ∧ 48 ≤ bitsOf (48 : Word) 5 0 := by
  unfold BindingWord; decide

/-- Arrivals: the weir waits for slot 1, or has its thread's arrival; a weir of another core. -/
theorem test_meets_weir_arrivals : Acts (mWeir (weir0 [] [])) tSup ∧ (weir0 [] []).names slot0 = true ∧ ({ weir0 [] [] with coreLo := 1, coreHi := 1 } : Weir).names slot0 = false ∧
    (weir0 [] []).world = tSup.world ∧ (slot0, tSup.id) ∉ (weir0 [(slot1, idOf slot1)] []).arrived ∧ releaseMet (mWeir (weir0 [] [])) slot0 tSup = true ∧
    releaseMet (machine 0 id [(slot0, tBusy)]) slot0 tBusy = false ∧ (weir0 [] []).participants 0 = [slot0, slot1] ∧
    (∃ q ∈ (weir0 [] []).participants 0, q ≠ slot0 ∧ ∀ p ∈ (weir0 [] []).arrived, p.1 ≠ q) ∧
    (∀ q ∈ (weir0 [(slot1, idOf slot1)] []).participants 0, q ≠ slot0 → ∃ p ∈ (weir0 [(slot1, idOf slot1)] []).arrived, p.1 = q) ∧
    idOf slot1 ≠ tSup.id ∧ ¬sameSlot slot1 slot0 ∧ (mWeir (weir0 [(slot1, idOf slot1)] [])).thread? slot1 = some (tStopped none) ∧ (tStopped none).id = idOf slot1 ∧
    Acts (machine 0 id [(slot0, { t0 with weirDone := true })]) { t0 with weirDone := true } := by decide

/-- Byte weir phases: posted and done, and saturated. -/
def mPhase (w : ByteWeir) : State := machine 0 (fun k => { k with weirs := [(weirKey 7 1, w)] }) [(slot0, t0)]

theorem test_meets_byte_weirs : (phaseAt m0 0 (weirKey (bitsOf (15 : Word) 2 0) (bitsOf (15 : Word) 3 3))).world = none ∧ weirKey (bitsOf (15 : Word) 2 0) (bitsOf (15 : Word) 3 3) = weirKey 7 1 ∧
    (phaseAt (mPhase { counter := 0, posted := true, world := some 1, sat := false }) 0 (weirKey 7 1)).posted = true ∧
    (phaseAt (mPhase { counter := 5, posted := true, world := some 1, sat := false }) 0 (weirKey 7 1)).counter ≠ 0 ∧
    (phaseAt (mPhase { counter := 0, posted := true, world := some 1, sat := true }) 0 (weirKey 7 1)).sat = true ∧
    (phaseAt (mPhase { counter := 0, posted := false, world := some 2, sat := false }) 0 (weirKey 7 1)).world ≠ some t0.world ∧ (0xFFFFFFFF : Word).toNat < 2 ^ 32 ∧
    (let s := machine 0 (fun k => { k with weirs := [(weirKey 7 1, { counter := 0, posted := true, world := some 1, sat := true })] }) [(slot0, tBusy)]
     Acts s tBusy ∧ (phaseAt s 0 (weirKey 7 1)).sat = true ∧ (phaseAt s 0 (weirKey 7 1)).world = some tBusy.world) := by decide

/-- A spawn record on its way to core 0, or at the head of its share; a travelling region with a ring there. -/
def flume0 : FlumeRec :=
  { spawn := true, tid := t0.id, world := 1, polder := 0, region := 1, role := 0, skip := 0, blocks := 0, pc := 8, lk := 0, live := 0xF, full := 0xF, vals := [1, 2, 3, 4], claim := 2,
    wdog := 0, fflags := 0, stamp := { tc := 0, src := 0 }, origin := 1, reply := some (slot0, t0.id, .g 2) }
def mFly : State := { m0 with flights := [(0, flume0)] }
def mLand : State := machine 0 (fun k => { k with arrivals := [flume0] }) [(slot0, t0)]
def gRing : Region := { region1 0 with travelling := true, ringOff := 0x8000, ringCap := 16, rings := 1, ringCores := [0], dataVa := 0x200000, flight := 1 }
def mRing : State := { machine 0 (fun k => { k with arrivals := List.replicate 32 flume0 }) [(slot0, t0)] with regions := [gRing], flights := [(0, flume0)] }

theorem test_meets_arrivals : mFly.flights = [(0, flume0)] ∧ mFly.region? flume0.region = some (region1 0) ∧ (region1 0).travelling = false ∧
    mRing.region? flume0.region = some gRing ∧ (gRing.ringAt 0).isSome ∧ 2 * (mRing.polderSlots flume0.polder).length ≤ (mRing.core 0).arrivals.countP (fun y => y.polder = flume0.polder) ∧
    (mLand.core 0).arrivals = [flume0] ∧ mLand.freeSlot 0 flume0.polder = some slot1 ∧ (mLand.core 0).pin = none ∧
    mLand.judge 0 flume0.polder none flume0.claim { blocks := 0, pages := 0, tiles := 0 } [] { blocks := popCount flume0.blocks.toNat 3, pages := 0, tiles := 0 } = .grant 0 ∧
    ((maskRegs flume0.live).zip flume0.vals).find? (fun p => p.1 = 3) = some (3, 4) ∧ (m0.core 0).arrivals = [] ∧ mRing.ringTailMeet gRing 0 flume0 = none := by decide

/-! ### The tree engine -/

/-- The bytes of a sparse list of (offset, byte) pairs of a node `i` of the pool whose one frame lies at 0x10000. -/
def nodeCells (i : Nat) (l : List (Nat × Byte)) : List (Nat × Byte) := l.map (fun p => (0x10000 + 64 * i + p.1, p.2))

/-- A pool's header, with `bump`; its root with flags `f1`, and, where they are expanded, children 2 and 3, of the greater and the lesser prior, N 1 each,
and flags `f2` of node 2. -/
def poolCells (bump f1 f2 : Byte) : List (Nat × Byte) :=
  nodeCells 0 [(2, 0x80), (3, 0x3F), (16, 1), (20, bump), (24, 0xFF), (25, 0xFF), (26, 0xFF), (27, 0xFF), (28, 1)] ++
  nodeCells 1 ((if f1 = 0 then [] else [(14, f1)]) ++ [(15, 0x80), (16, 0xFF), (17, 0xFF), (18, 0xFF), (19, 0xFF), (20, 2), (24, 2)]) ++
  nodeCells 2 ([(0, 1), (10, 0x40), (11, 0x3F)] ++ (if f2 = 0 then [] else [(14, f2)]) ++ [(15, 0x80), (16, 1)]) ++
  nodeCells 3 [(0, 1), (10, 0x80), (11, 0x3E), (15, 0x80), (16, 1), (26, 9)]

def pool0 (freeing : Option (Nat × Nat × Nat)) : Pool :=
  { base := 0x10000, pages := 1, frames := [0x10000], world := 1, region := 1, cpuct := 0x3F800000, vloss := 0, fpu := 0, alternate := false, freeing := freeing, spoilt := false }

/-- The lines of the tables and of the pool's frame, all of world 1. -/
def treeTag : LineTag := { world := 1, epoch := 1, fe := 0xFF, sound := true, poison := false }
def treeLines : List (Nat × LineTag) :=
  (0x1000, treeTag) :: (0x2000, treeTag) :: (0x3000, treeTag) :: (0x4000, treeTag) :: (List.range' 0x10000 1024 64).map (fun l => (l, treeTag))

/-- A command record in q4 of slot 0, for the pool at 0x10000. -/
def treeRec (words : List Word) : Record := { words := words, sealed := some { tc := 0, src := 0 } }
def tCmd (words : List Word) : Thread := { t0 with sluices := { t0.sluices with q4 := { active := some (treeRec words), shadow := none } } }

/-- The machine with that command, tables that map page 1 to the pinned frame 0x10000, and the pools of the engine of core 0. -/
def mTree (words : List Word) (cells : List (Nat × Byte)) (l : List Pool) : State :=
  { machine 0 id [(slot0, tCmd words)] with
    worldTable := [(1, 0x1000)], lines := treeLines,
    hbm := [(0x1000, 1), (0x1001, 0x20), (0x2000, 1), (0x2001, 0x30), (0x3000, 1), (0x3001, 0x40), (0x4008, 15), (0x400A, 1)] ++ cells, pools := [(0, l)] }

theorem tget_run (d v : LineTag) (n : Nat) : ∀ b i, i < n → tget d ((List.range' b n 64).map (fun l => (l, v))) (b + 64 * i) = v := by
  induction n with
  | zero => exact fun _ _ h => absurd h (Nat.not_lt_zero _)
  | succ n ih =>
    intro b i h
    rw [List.range'_succ, List.map_cons, tget]
    by_cases h0 : i = 0
    · simp [h0]
    · rw [if_neg (by omega), if_neg (by omega)]
      have := ih (b + 64) (i - 1) (by omega)
      rwa [show b + 64 + 64 * (i - 1) = b + 64 * i by omega] at this

theorem tag_tree (s : State) (hs : s.lines = treeLines) (i : Nat) (h : i < 1024) : s.tag (0x10000 + 64 * i) = treeTag := by
  rw [State.tag, hs, treeLines]
  simp only [tget]
  rw [if_neg (by omega), if_neg (by omega), if_neg (by omega), if_neg (by omega), if_neg (by omega), if_neg (by omega), if_neg (by omega), if_neg (by omega)]
  exact tget_run _ _ _ _ _ h

theorem poolLines0 (s : State) (f : Option (Nat × Nat × Nat)) (hl : s.lines = treeLines) (hk : s.keyLive 1 1 = true) : PoolLines s (pool0 f) := by
  have hline : ∀ i < 1024, (pool0 f).line i = 0x10000 + 64 * i := by
    intro i h
    simp only [Pool.line, pool0, show i / 1024 = 0 by omega, Nat.mod_eq_of_lt h]
    rfl
  refine ⟨fun i h => ?_, fun i h j h' e => ?_⟩
  · rw [hline i h]
    refine ⟨?_, ?_, ?_, by omega⟩
    · simp only [State.lineCase, tag_tree s hl i h, treeTag, hk]; rfl
    · rw [tag_tree s hl i h]; rfl
    · rw [tag_tree s hl i h]; rfl
  · rw [hline i h, hline j h'] at e; omega

theorem cleanTree (words : List Word) (cells : List (Nat × Byte)) (l : List Pool) (hm : Memory.wf (mTree words cells l).hbm = true) : CleanMemory (mTree words cells l) :=
  ⟨rfl, rfl, fun _ _ h => absurd h (List.not_mem_nil), hm⟩

/-- What `OnPool` asks of the machine with a command and a pool. -/
theorem onPool0 (words : List Word) (cells : List (Nat × Byte)) (hw : words.getD 1 0 = 0x10000) (hm : Memory.wf (mTree words cells [pool0 none]).hbm = true)
    (ht : (mTree words cells [pool0 none]).poolMapped (pool0 none) = true) (hp : OnlyCommand (mTree words cells [pool0 none]) 0 slot0 (tCmd words) (treeRec words)) : OnPool (mTree words cells [pool0 none]) 0 slot0 (tCmd words) (treeRec words) (pool0 none) :=
  ⟨hp, by rw [show (treeRec words).words = words from rfl, hw]; rfl, rfl, by decide, by decide, cleanTree _ _ _ hm, poolLines0 _ _ rfl rfl, rfl, ht⟩

/-- A shape over `n` elements in one dimension, of a window, at an offset. -/
def sh0 (window n o : Nat) : Shape :=
  { w0 := BitVec.ofNat 64 (window * 2 ^ 56 + o), w1 := BitVec.ofNat 64 (2 ^ 48 + 2 ^ 32 + 2 ^ 16 + n), w2 := BitVec.ofNat 64 n, w3 := 0 }

theorem test_meets_tree_forms : releaseMet m0 m0.cur t0 = true ∧ t0.treeWait = none ∧ (t0.sluices.outlet 4).shadow = none ∧ windowOf (0xF000000000000100 : Word) ≠ 0 ∧
    windowOf (8 : Word) = 0 ∧ bitsOf (8 : Word) 55 52 = 0 ∧ bitsOf (8 : Word) 15 0 ≠ 0 ∧ PoolBase m0 t0 0 ∧
    (sh0 0 4096 0x100).ext 0 ≤ 4096 ∧ (sh0 0 4096 0x100).ext 1 = 1 ∧ (sh0 0 4096 0x100).ext 2 = 1 ∧ (sh0 0 4096 0x100).ext 3 = 1 := by
  refine ⟨by decide, rfl, rfl, by decide, by decide, by decide, by decide, ⟨by decide, by decide, by decide, { world := 1, page := 0, large := false, pa := 0, r := true, w := true, x := true }, by decide⟩, ?_⟩
  decide

/-- A waiting trapping form: words to come, all there, one of them an error. -/
def tTrap (left : Nat) (error : Bool) : Thread := { t0 with treeWait := some { base := 0x10000, error := error, left := left, wide := false } }

theorem test_meets_tree_waits : Acts (machine 0 id [(slot0, tTrap 1 false)]) (tTrap 1 false) ∧ Acts (machine 0 id [(slot0, tTrap 0 true)]) (tTrap 0 true) ∧ (tTrap 0 true).cq = [] ∧ m0.rdcs = [] := by
  decide

theorem test_meets_no_pool : OnlyCommand (mTree [treeHead 1 4 7, 0x10000] [] []) 0 slot0 (tCmd [treeHead 1 4 7, 0x10000]) (treeRec [treeHead 1 4 7, 0x10000]) ∧
    (mTree [treeHead 1 4 7, 0x10000] [] []).findPool 0 1 0x10000 = none := by
  unfold OnlyCommand; decide

theorem test_meets_descent : (let w := [treeHead 1 1 1, 0x10000]
    OnPool (mTree w (poolCells 4 0 0) [pool0 none]) 0 slot0 (tCmd w) (treeRec w) (pool0 none) ∧
    (let s := mTree w (poolCells 4 0 0) [pool0 none]
     fieldAt (nodeAt s (pool0 none) 0) 28 4 = 1 ∧ flagOn (nodeAt s (pool0 none) 1) 0 = false ∧ flagOn (nodeAt s (pool0 none) 1) 2 = false) ∧
    flagOn (nodeAt (mTree w (poolCells 4 4 0) [pool0 none]) (pool0 none) 1) 2 = true) :=
  ⟨onPool0 _ _ rfl (by decide) (by decide +kernel) (by unfold OnlyCommand; decide), by decide, by decide⟩

theorem test_meets_best_child : (let s := mTree [treeHead 1 1 1, 0x10000] (poolCells 4 1 4) [pool0 none]
    flagOn (nodeAt s (pool0 none) 1) 0 = true ∧ nodeFirst (nodeAt s (pool0 none) 1) = 2 ∧ nodeCount (nodeAt s (pool0 none) 1) = 2 ∧
    f32Greater (scoreOf s (pool0 none) 1 3) (scoreOf s (pool0 none) 1 2) = false ∧ flagOn (nodeAt s (pool0 none) 2) 0 = false ∧ flagOn (nodeAt s (pool0 none) 2) 2 = true ∧
    nodeVL (nodeAt s (pool0 none) 2) < 65535) := by decide

theorem test_meets_backup : (let w := [treeHead 2 3 2, 0x10000, BitVec.ofNat 64 (0xBF800000 : Word32).toNat]
    OnPool (mTree w (poolCells 4 1 4) [pool0 none]) 0 slot0 (tCmd w) (treeRec w) (pool0 none) ∧
    (let s := mTree w (poolCells 4 1 4) [pool0 none]
     2 < fieldAt (nodeAt s (pool0 none) 0) 20 4 ∧ flagOn (nodeAt s (pool0 none) 2) 15 = true ∧ flagOn (nodeAt s (pool0 none) 2) 2 = true ∧ nodeParent (nodeAt s (pool0 none) 2) = 1 ∧
     nodeParent (nodeAt s (pool0 none) 1) = 0xFFFFFFFF)) :=
  ⟨onPool0 _ _ rfl (by decide) (by decide +kernel) (by unfold OnlyCommand; decide), by decide⟩

theorem test_meets_pick : (let w := [treeHead 1 4 1, 0x10000]
    OnPool (mTree w (poolCells 4 1 0) [pool0 none]) 0 slot0 (tCmd w) (treeRec w) (pool0 none) ∧ Valid (mTree w (poolCells 4 1 0) [pool0 none]) (pool0 none) 1 ∧
    Children (mTree w (poolCells 4 1 0) [pool0 none]) (pool0 none) 1 2 2 ∧
    nodeN (nodeAt (mTree w (poolCells 4 1 0) [pool0 none]) (pool0 none) 3) ≤ nodeN (nodeAt (mTree w (poolCells 4 1 0) [pool0 none]) (pool0 none) 2) ∧
    ¬Valid (mTree w (poolCells 4 1 0) [pool0 none]) (pool0 none) 4 ∧ flagOn (nodeAt (mTree w (poolCells 4 0 0) [pool0 none]) (pool0 none) 1) 0 = false) := by
  refine ⟨onPool0 _ _ rfl (by decide) (by decide +kernel) (by unfold OnlyCommand; decide), ?_⟩
  unfold Valid Children; decide

theorem okIs_eq {α ε : Type} [DecidableEq α] (x : Except ε α) (v : α) (h : okIs x v = true) : x = .ok v := by
  cases x with
  | ok y => exact congrArg _ (of_decide_eq_true h)
  | error e => exact nomatch h

theorem clean_slices (m : List (Nat × List SliceLine)) (h : m.all (fun p => p.2.all (fun y => !y.ue)) = true) (k : Nat) : ∀ y ∈ tget [] m k, y.ue = false := by
  induction m with
  | nil => exact fun _ hy => absurd hy (List.not_mem_nil)
  | cons p r ih =>
    rw [List.all_cons, Bool.and_eq_true] at h
    intro y hy
    simp only [tget] at hy
    split at hy
    · have := List.all_eq_true.mp h.1 y hy
      simpa using this
    · split at hy
      · exact absurd hy (List.not_mem_nil)
      · exact ih h.2 y hy

/-- A pool that is still to be made, its command present at the home of its first frame: the header holds only cpuct. -/
def wNew : List Word := [treeHead 1 0 1, 0x10000]
def rNew : Record := { treeRec wNew with home := 255 }
def tNew : Thread := { t0 with sluices := { t0.sluices with q4 := { active := some rNew, shadow := none } } }
def mNew : State :=
  { mTree wNew (nodeCells 0 [(2, 0x80), (3, 0x3F)]) [] with pinned := [paGroup 0x10000], arg := { core := 255 } }.setThread slot0 tNew

theorem newFields : fieldAt (nodeAt mNew (pool0 none) 0) 0 4 = 0x3F800000 ∧ fieldAt (nodeAt mNew (pool0 none) 0) 4 4 = 0 ∧ fieldAt (nodeAt mNew (pool0 none) 0) 8 4 = 0 ∧
    fieldAt (nodeAt mNew (pool0 none) 0) 12 2 = 0 ∧ fieldAt (nodeAt mNew (pool0 none) 0) 14 2 = 0 ∧ Memory.wf mNew.hbm = true := by decide +kernel

/-- What the statement asks of the state that finding the frames leaves. -/
def NewRest (s s1 : State) (p : Pool) : Prop :=
  p = { base := 0x10000, pages := 1, frames := [0x10000], world := 1, region := 1, cpuct := BitVec.ofNat 32 (fieldAt (nodeAt s1 p 0) 0 4),
        vloss := BitVec.ofNat 32 (fieldAt (nodeAt s1 p 0) 4 4), fpu := BitVec.ofNat 32 (fieldAt (nodeAt s1 p 0) 8 4),
        alternate := decide (fieldAt (nodeAt s1 p 0) 12 2 = 1), freeing := none, spoilt := false } ∧
    fieldAt (nodeAt s1 p 0) 12 2 < 2 ∧ fieldAt (nodeAt s1 p 0) 14 2 = 0 ∧ SameMemory s s1 ∧ Calm s1 ∧ CleanMemory s1 ∧ PoolLines s1 p

theorem new_rest (s1 : State) (hm : s1.hbm = mNew.hbm) (hc : s1.cores = mNew.cores) (hl : s1.lines = treeLines) (hk : s1.keyLive 1 1 = true)
    (hz : s1.monitors = [] ∧ s1.dramErr = []) (hs : s1.slices.all (fun p => p.2.all (fun y => !y.ue)) = true) (hq : Calm s1) : NewRest mNew s1 (pool0 none) := by
  have e : nodeAt s1 (pool0 none) 0 = nodeAt mNew (pool0 none) 0 := by unfold nodeAt; rw [hm]
  obtain ⟨f0, f1, f2, f3, f4, hw⟩ := newFields
  unfold NewRest
  rw [e, f0, f1, f2, f3, f4]
  exact ⟨by decide, by decide, rfl, ⟨fun c a => by unfold State.core; rw [hc], fun c a => by unfold State.core; rw [hc], fun a => by rw [hm]⟩, hq,
    ⟨hz.1, hz.2, fun k => clean_slices _ hs k, by rw [hm]; exact hw⟩, poolLines0 _ _ hl hk⟩

theorem test_meets_newX : OnlyCommand mNew 255 slot0 tNew rNew ∧ rNew.words = [treeHead 1 0 1, 0x10000] ∧ mNew.poolList 255 = [] ∧
    mNew.region? tNew.region = some (region1 0) ∧ mNew.poolsUsed tNew.region < mNew.poolsOf (region1 0) ∧
    ∃ s1, poolFrames (treeWho 255 tNew slot0.slot) slot0.core 255 0x10000 1 mNew = (s1, .ok [0x10000]) ∧ NewRest mNew s1 (pool0 none) := by
  refine ⟨by unfold OnlyCommand; decide +kernel, rfl, by decide +kernel, by decide +kernel, by decide +kernel, (poolFrames (treeWho 255 tNew slot0.slot) slot0.core 255 0x10000 1 mNew).1, ?_, ?_⟩
  · exact Prod.ext rfl (okIs_eq _ _ (by decide +kernel))
  · exact new_rest _ (by decide +kernel) (by decide +kernel) (by decide +kernel) (by decide +kernel) (by decide +kernel) (by decide +kernel) (by decide +kernel)

def wExp : List Word := [treeHead 3 2 2, 0x10000, 0x10100, BitVec.ofNat 64 (5 * 2 ^ 32 + 2)]
def mExp : State := mTree wExp (poolCells 4 1 0) [pool0 none]
def exp1 : Except Nat Bool × TreeRun := (validNode { pool := pool0 none, who := treeWho 0 (tCmd wExp) 0 } 2) { s := mExp, lines := [], dirty := [] }
def exp2 : Except Nat (List Word32) × TreeRun := (readPriors { pool := pool0 none, who := treeWho 0 (tCmd wExp) 0 } 0 0x10100 2) exp1.2

theorem expand_rest (s1 : State) (hm : s1.hbm = mExp.hbm) (hc : s1.cores = mExp.cores) (hl : s1.lines = treeLines) (hk : s1.keyLive 1 1 = true)
    (hz : s1.monitors = [] ∧ s1.dramErr = []) (hs : s1.slices.all (fun p => p.2.all (fun y => !y.ue)) = true) (hq : Calm s1) :
    SameMemory mExp s1 ∧ Calm s1 ∧ CleanMemory s1 ∧ PoolLines s1 (pool0 none) ∧ s1.thread? slot0 = some (tCmd wExp) :=
  ⟨⟨fun c a => by unfold State.core; rw [hc], fun c a => by unfold State.core; rw [hc], fun a => by rw [hm]⟩, hq,
    ⟨hz.1, hz.2, fun k => clean_slices _ hs k, by rw [hm]; decide +kernel⟩, poolLines0 _ _ hl hk, by unfold State.thread? State.core; rw [hc]; rfl⟩

theorem test_meets_expand : OnPool mExp 0 slot0 (tCmd wExp) (treeRec wExp) (pool0 none) ∧
    (flagOn (nodeAt mExp (pool0 none) 2) 15 = true ∧ flagOn (nodeAt mExp (pool0 none) 2) 1 = false ∧ flagOn (nodeAt mExp (pool0 none) 2) 0 = false ∧
      fieldAt (nodeAt mExp (pool0 none) 0) 24 4 = 0xFFFFFFFF ∧ fieldAt (nodeAt mExp (pool0 none) 0) 20 4 = 4) ∧
    exp1 = (.ok true, exp1.2) ∧ exp2 = (.ok [0, 0], exp2.2) ∧ exp2.2.lines = exp1.2.lines ∧ exp2.2.dirty = [] ∧
    SameMemory mExp exp2.2.s ∧ Calm exp2.2.s ∧ CleanMemory exp2.2.s ∧ PoolLines exp2.2.s (pool0 none) ∧ exp2.2.s.thread? slot0 = some (tCmd wExp) := by
  refine ⟨onPool0 _ _ rfl (by decide) (by decide +kernel) (by unfold OnlyCommand; decide), by decide, ?_, ?_, by decide +kernel, by decide +kernel, ?_⟩
  · exact Prod.ext (okIs_eq _ _ (by decide +kernel)) rfl
  · exact Prod.ext (okIs_eq _ _ (by decide +kernel)) rfl
  · exact expand_rest _ (by decide +kernel) (by decide +kernel) (by decide +kernel) (by decide +kernel) (by decide +kernel) (by decide +kernel) (by decide +kernel)

theorem test_meets_reroot_and_free : (let w := [treeHead 1 5 2, 0x10000]
    OnPool (mTree w (poolCells 4 1 0) [pool0 none]) 0 slot0 (tCmd w) (treeRec w) (pool0 none) ∧
    nodeParent (nodeAt (mTree w (poolCells 4 1 0) [pool0 none]) (pool0 none) 2) = fieldAt (nodeAt (mTree w (poolCells 4 1 0) [pool0 none]) (pool0 none) 0) 28 4) ∧
    (let s := mTree [] (poolCells 3 1 0) [pool0 (some (2, 1, 1))]
     s.poolList 0 = [pool0 (some (2, 1, 1))] ∧ Calm s ∧ Trusted s (pool0 (some (2, 1, 1))) ∧ CleanMemory s ∧ PoolLines s (pool0 (some (2, 1, 1))) ∧ fieldAt (nodeAt s (pool0 (some (2, 1, 1))) 0) 20 4 = 3 ∧
     flagOn (nodeAt s (pool0 (some (2, 1, 1))) 1) 15 = true ∧ flagOn (nodeAt s (pool0 (some (2, 1, 1))) 2) 15 = true) :=
  ⟨⟨onPool0 _ _ rfl (by decide) (by decide +kernel) (by unfold OnlyCommand; decide), by decide⟩, by decide, by decide, ⟨rfl, by decide +kernel⟩, cleanTree _ _ _ (by decide), poolLines0 _ _ rfl (by decide), by decide, by decide, by decide⟩

/-! ### The compute pipe -/

/-- A thread whose queue holds one entry with shapes, after `beats` beats, on the compute pipe's turn of its slot. -/
def eVec (i : Instr) (d a b : Shape) (beats : Nat) (kept : List Nat) : QEntry := { entry0 i with opD := some d, opA := some a, opB := some b, beats := beats, kept := kept }
def tBeat (e : QEntry) : Thread := { t0 with cq := [e], tiles := [[(0, 1), (255, 2)]] }
def mBeat (e : QEntry) (weirs : List (Nat × Weir)) : State :=
  { machine 0 (fun k => { k with mem := [(0x600, 1), (0x608, 2), (0x700, 0x80), (0x701, 0x3F)] }) [(slot0, tBeat e), (slot1, t1)] with pipe := .compute, weirs := weirs }

theorem beat0 (e : QEntry) (w : List (Nat × Weir)) : BeatOf (mBeat e w) (tBeat e) e.instr e [] := ⟨rfl, rfl, rfl, rfl⟩

theorem vec0 (e : QEntry) (w : List (Nat × Weir)) (sh : Shape) (code n o : Nat)
    (h : windowOf sh.w0 = code ∧ fieldsZero sh.w0 = true ∧ bitsOf sh.w3 31 0 = 0 ∧ sh.ext 0 = n ∧ sh.ext 1 = 1 ∧ sh.ext 2 = 1 ∧ sh.ext 3 = 1 ∧ sh.w0.toNat % elemBytes code = 0 ∧
      bitsOf sh.w0 22 16 = 0 ∧ bitsOf sh.w0 14 0 = o ∧ o + n * elemBytes code ≤ 32768) : Vec (mBeat e w) (tBeat e) sh code n 0 o := by
  obtain ⟨h1, h2, h3, h4, h5, h6, h7, h8, h9, h10, h11⟩ := h
  exact ⟨h1, h2, h3, h4, h5, h6, h7, h8, by rw [h9]; show 0 = 0 / 128 * 128 + 0; rfl, h10.symm, h11, ⟨tBeat e, rfl, rfl, Nat.zero_le _, h11⟩,
    fun _ _ => ⟨fun _ hp => absurd hp (List.not_mem_nil), List.not_mem_nil⟩, fun _ _ => rfl⟩

theorem test_meets_queue : Acts m0 t0 ∧ m0.pipe = .address ∧ t0.cq.length < 16 ∧ (List.replicate 16 (entry0 (.mzero 0))).length = 16 := by decide

theorem test_meets_elementwise : (let e := eVec (.vadd (.s 0) (.s 1) (.s 2) 0 .rn) (sh0 0xF1 8 0x7FE0) (sh0 0xF1 8 0x600) (sh0 0xF1 8 0x700) 0 []
    BeatOf (mBeat e []) (tBeat e) (.vadd (.s 0) (.s 1) (.s 2) 0 .rn) e [] ∧ Vec (mBeat e []) (tBeat e) (sh0 0xF1 8 0x7FE0) 0xF1 8 0 0x7FE0 ∧
    Vec (mBeat e []) (tBeat e) (sh0 0xF1 8 0x600) 0xF1 8 0 0x600 ∧ Vec (mBeat e []) (tBeat e) (sh0 0xF6 1 0x700) 0xF6 1 0 0x700 ∧ Memory.wf ((mBeat e []).core 0).mem = true) :=
  ⟨beat0 _ _, vec0 _ _ _ _ _ _ (by decide), vec0 _ _ _ _ _ _ (by decide), vec0 _ _ _ _ _ _ (by decide), by decide⟩

theorem test_meets_lanes : (let e := eVec (.vscat (.s 0) (.s 1) (.s 2) 0 .rn) (sh0 0xF1 3 0x500) (sh0 0xF1 2 0x600) (sh0 0xF6 2 0x604) 0 []
    BeatOf (mBeat e []) (tBeat e) (.vscat (.s 0) (.s 1) (.s 2) 0 .rn) e [] ∧ Vec (mBeat e []) (tBeat e) (sh0 0xF6 2 0x604) 0xF6 2 0 0x604 ∧
    (∀ i < 2, 0 ≤ (elem32 (mBeat e []) 0 0x604 i).toInt ∧ (elem32 (mBeat e []) 0 0x604 i).toInt < 3) ∧
    (∀ i < 2, ∀ j < 2, elem32 (mBeat e []) 0 0x604 i = elem32 (mBeat e []) 0 0x604 j → i = j) ∧
    (treeSum (fun i => if i < 2 then some (encodeF32 .rn (decodeF32 (elem32 (mBeat e []) 0 0x700 i))).1 else none)).1.isSome = true) :=
  ⟨beat0 _ _, vec0 _ _ _ _ _ _ (by decide), by decide, by decide, by decide⟩

theorem test_meets_blocks : (let e := eVec (.vqnt (.s 0) (.s 1) 0) (sh0 0xF3 32 0x7FE0) (sh0 0xF1 32 0x600) (sh0 0xF1 1 0x700) 3 (List.replicate 24 0)
    BeatOf (mBeat e []) (tBeat e) (.vqnt (.s 0) (.s 1) 0) e [] ∧ Vec (mBeat e []) (tBeat e) (sh0 0xF3 32 0x7FE0) 0xF3 32 0 0x7FE0 ∧ 0x7FE0 % 32 = 0 ∧
    Vec (mBeat e []) (tBeat e) (sh0 0xF1 32 0x600) 0xF1 32 0 0x600 ∧ Vec (mBeat e []) (tBeat e) (sh0 0xF1 1 0x700) 0xF1 1 0 0x700 ∧ e.kept.length = 24 ∧
    Memory.wf ((mBeat e []).core 0).scale = true ∧ (mBeat e []).scaleBad 0 (0x7FE0 / 16 * 2) 2 = false) :=
  ⟨beat0 _ _, vec0 _ _ _ _ _ _ (by decide), by decide, vec0 _ _ _ _ _ _ (by decide), vec0 _ _ _ _ _ _ (by decide), by decide, by decide⟩

/-- A max-combining weir of the two slots: nobody, or slot 1, has contributed; or its results wait. -/
def max0 (contrib results : List (SlotRef × Nat × List Word32 × Bool)) : List (Nat × Weir) := [(48, { weir0 [] results with contrib := contrib })]

theorem test_meets_max_weir : (let e := eVec (.vwmax 0 (.s 0) (.s 1) 0 .rn) (sh0 0xF1 2 0x500) (sh0 0xF1 2 0x700) (sh0 0xF1 1 0) 0 []
    BeatOf (mBeat e (max0 [] [])) (tBeat e) (.vwmax 0 (.s 0) (.s 1) 0 .rn) e [] ∧
    (mBeat e (max0 [] [])).weir? (clusterOf (mBeat e (max0 [] [])).cur.core * 64 + (48 + (0 : Fin 16).val)) = some { weir0 [] [] with contrib := [] } ∧
    (weir0 [] []).names slot0 = true ∧ (weir0 [] []).world = t0.world ∧ slot1 ∈ (weir0 [] []).participants 0 ∧ slot1 ≠ slot0 ∧ e.kept = [] ∧ e.carry = 0 ∧
    (∀ p ∈ (weir0 [] []).participants 0, p = slot0 ∨ ∃ c ∈ [(slot1, idOf slot1, [(1 : Word32), 2], false)], c.1 = p) ∧
    [(slot0, t0.id, [(5 : Word32), 6], true)].find? (fun p => p.2.1 = t0.id) = some (slot0, t0.id, [5, 6], true) ∧ [(5 : Word32), 6].length = 2) :=
  ⟨beat0 _ _, by decide⟩

/-- A tile of 16 rows of 16 elements, and one as 1,024 bytes. -/
def shTile (window x0 x1 o : Nat) : Shape := { sh0 window x0 o with w1 := BitVec.ofNat 64 (2 ^ 48 + 2 ^ 32 + 2 ^ 16 * x1 + x0) }

theorem tile0 (e : QEntry) (sh : Shape) (code x0 x1 o : Nat)
    (h : windowOf sh.w0 = code ∧ fieldsZero sh.w0 = true ∧ bitsOf sh.w3 31 0 = 0 ∧ sh.ext 0 = x0 ∧ sh.ext 1 = x1 ∧ sh.ext 2 = 1 ∧ sh.ext 3 = 1 ∧ sh.stride 1 = x0 ∧
      sh.w0.toNat % elemBytes code = 0 ∧ bitsOf sh.w0 22 16 = 0 ∧ bitsOf sh.w0 14 0 = o ∧ o + 1024 ≤ 32768) : TileAt (mBeat e []) (tBeat e) sh code x0 x1 0 o := by
  obtain ⟨h1, h2, h3, h4, h5, h6, h7, h8, h9, h10, h11, h12⟩ := h
  exact ⟨h1, h2, h3, h4, h5, h6, h7, h8, h9, by rw [h10]; show 0 = 0 / 128 * 128 + 0; rfl, h11.symm, h12, ⟨tBeat e, rfl, rfl, Nat.zero_le _, h12⟩,
    fun _ _ => ⟨fun _ hp => absurd hp (List.not_mem_nil), List.not_mem_nil⟩, fun _ _ => rfl⟩

/-- An unfold descriptor of 32 BF16 channels, one filter cell and one row. -/
def unfold0 : Shape :=
  { w0 := 0xF200000000000800, w1 := 0x0001000100010020, w2 := 0x0000000101010100, w3 := 0x0000000100000000 }

theorem test_meets_tiles : (let e := eVec (.mload 0 (.s 1)) (sh0 0xF1 1 0) (shTile 0xF1 16 16 0x7C00) unfold0 31 []
    BeatOf (mBeat e []) (tBeat e) (.mload 0 (.s 1)) e [] ∧ TileAt (mBeat e []) (tBeat e) (shTile 0xF1 16 16 0x7C00) 0xF1 16 16 0 0x7C00 ∧
    TileAt (mBeat e []) (tBeat e) (shTile 0xF0 1024 1 0x7C00) 0xF0 1024 1 0 0x7C00 ∧ (tBeat e).tiles[(0 : Fin 8).val]? = some [(0, 1), (255, 2)] ∧
    keysRise [(0, (1 : BitVec 32)), (255, 2)] = true ∧ e.beats < 32 ∧ unfoldFits slot0 unfold0 = true ∧ unfoldAligned unfold0 = true ∧ unfoldDikes (mBeat e []) slot0 1 unfold0 = true ∧
    e.opB = some unfold0 ∧ e.serial = false) :=
  ⟨beat0 _ _, tile0 _ _ _ _ _ _ (by decide), tile0 _ _ _ _ _ _ (by decide), by decide⟩

/-- The sixteen threads of slot 0 of row 0, each with an MMA of shapes at the head of its queue. -/
def mma0 (lead : Bool) : Instr := .mmaShape 0 (.s 0) (.s 1) lead
def tMma (c : Nat) : Thread :=
  { thr { core := c, slot := 0 } 1 [] with
    tiles := [[]], cq := [{ eVec (mma0 (decide (c = 0))) Shape.zero (shTile 0xF2 1 16 0x100) { shTile 0xF2 1 16 0x100 with w0 := BitVec.ofNat 64 (0xF2 * 2 ^ 56 + c * 65536 + 0x100) } 0 [] with opD := none }] }
def mGang (g : GangRow) : State := { machine 0 id ((List.range 16).map (fun c => ({ core := c, slot := 0 }, tMma c))) with pipe := .compute, gangs := [(0, g)] }

theorem test_meets_mma : (let e := (tMma 0).cq.headD (entry0 (.mzero 0))
    let g : GangRow := { GangRow.reset with arrived := [(0, 1)] }
    let f : MmaForm := { tile := 0, rec_ := none, a := some (.s 0), b := .s 1, lead := true }
    Acts (mGang g) (tMma 0) ∧ (tMma 0).cq = [e] ∧ mmaForm (mma0 true) = some f ∧ waitsMet (tMma 0) (operandsAt slot0 (mma0 true)).1 0 = true ∧ (tMma 0).tiles[f.tile.val]? = some [] ∧
    f.lead = decide (colOf 0 = 0) ∧ (match leadCheck (mGang g) slot0 (tMma 0) e f with | .ok _ => true | .error _ => false) = true ∧ colOf 0 = 0 ∧
    ∃ c < 16, c ≠ 0 ∧ (0, c) ∉ g.arrived) := by decide

theorem test_meets_gang_start : (tget GangRow.reset (mGang { GangRow.reset with formed := [0] }).gangs 0).running = none ∧ (mGang { GangRow.reset with formed := [0] }).gangPick 0 = some 0 := by
  decide

theorem test_meets_gang_retire : (let s := mGang { GangRow.reset with running := some 0 }
    let e := (tMma 0).cq.headD (entry0 (.mzero 0))
    let f : MmaForm := { tile := 0, rec_ := none, a := some (.s 0), b := .s 1, lead := true }
    s.gangHead { core := 0 * 16, slot := 0 } = some (tMma 0, e, f) ∧
    (match mmaView slot0 (tMma 0) e .b f.b, leadA slot0 (tMma 0) e f with
     | .ok b, .ok a => (match ((List.range 16).mapM (readA slot0 (tMma 0) a (leadK a b)) : Run (List (List FV))) { s with pipe := .compute } with
       | (.ok rows, s1) => (match gangResults rows (leadK a b) [] (gangSlots 0 0) s1 with
         | (s2, .ok outs) => decide (outs.length = 16) && (s2.gangHead slot0).isSome
         | _ => false)
       | _ => false)
     | _, _ => false) = true) := by decide +kernel

/-! ### Translators, memory, devices, the host, the mailbox, launches, steps -/

/-- A translation under way: e1 = 5, e2 = 0x60000000, e3 = 8; two instructions, or the last of one; `meter` left. -/
def tr0 (meter : Nat) (words : List Word32) : Translator :=
  { e := ((Vector.replicate 16 0).set 1 5).set 2 0x60000000 |>.set 3 8, pc := 0, meter := meter, code := words, priv := [1, 2, 3, 4, 5, 6, 7, 8, 9], scratch := [(4, 7)], out := [1, 2],
    marks := [(8, 3)], outcap := 3, markcap := 1, role := 0, lastPc := 0, ended := none, entry := 0, world := 1, container := 0, digest := [], dirNo := 0, area := 0 }
def mTr (meter : Nat) (words : List Word32) : State := { m0 with translator := some (tr0 meter words), cursor := 0 }

theorem test_meets_esnen : (Calm (mTr 1 [0, 0, 0]) ∧ (mTr 1 [0, 0, 0]).stall = none) ∧ (mTr 1 [0, 0, 0]).translator = some (tr0 1 [0, 0, 0]) ∧ (tr0 1 [0, 0, 0]).ended = none ∧ (tr0 0 []).meter = 0 ∧ (tr0 1 []).meter ≠ 0 ∧
    Fetches (tr0 1 [0, 0]) ((tr0 1 [0, 0]).pc + 4) ∧ ¬Fetches (tr0 1 [0]) ((tr0 1 [0]).pc + 4) ∧ Fetches (tr0 1 [0, 0, 0]) (esReg (tr0 1 [0, 0, 0]) 3) ∧ ¬Fetches (tr0 1 [0, 0]) (esReg (tr0 1 [0, 0]) 1) ∧
    WindowReads (tr0 1 []) 5 4 0x09080706 ∧ WindowReads (tr0 1 []) 0x60000001 4 0x07000000 ∧ NoWindow (tr0 1 []) 6 4 ∧ NoWindow (tr0 1 []) 0x6000FFFD 4 ∧
    0x60000000 ≤ (esReg (tr0 1 []) 2 + (4 : BitVec 15).signExtend 32).toNat ∧ (esReg (tr0 1 []) 2 + (4 : BitVec 15).signExtend 32).toNat + 4 ≤ 0x60010000 ∧
    (tr0 1 []).out.length < (tr0 1 []).outcap ∧ 2 ≤ ({ tr0 1 [] with outcap := 2 } : Translator).out.length ∧
    ((tr0 1 []).marks.filter (fun p => p.1 ≠ 4 * (tr0 1 []).out.length)).length < (tr0 1 []).markcap ∧
    1 ≤ ((tr0 1 []).marks.filter (fun p => p.1 ≠ 4 * ([] : List Word32).length)).length ∧
    (4 : Word32).toNat % 4 = 0 ∧ (4 : Word32).toNat < 4 * (tr0 1 []).out.length ∧ ¬((8 : Word32).toNat < 4 * (tr0 1 []).out.length) := by
  unfold Fetches WindowReads NoWindow Calm; decide +kernel

/-- A walk that the thread of slot 0 waits for, on page 0, which the tables map, or on page 512, which they do not. -/
def walk0 (page : Nat) : WalkReq := { die := 0, world := 1, page := page, slot := slot0, pipe := .address, stamp := { tc := 0, src := 0 } }
def tWalk (page : Nat) : Thread := { t0 with parked := some (.walk 1 (page * 65536)) }
def mWalk (page : Nat) (l : List FaultRecord) : State := { tabled (machine t1.id id [(slot0, tWalk page), (slot1, t1)]) with walks := [walk0 page], records := l }
def record0 (r : SlotRef) : FaultRecord := { world := 1, page := 512, thread := r, tid := 0, stamp := { tc := 0, src := 0 }, parked := [] }

theorem test_meets_walks : OnlyWalk (mWalk 0 []) (walk0 0) (tWalk 0) 0 ∧ (({ mWalk 0 [] with walks := [] } : State).walk 1 0 0).2.isSome ∧
    OnlyWalk (mWalk 512 []) (walk0 512) (tWalk 512) (512 * 65536) ∧ (({ mWalk 512 [] with walks := [] } : State).walk 1 512 0).2 = none ∧
    (mWalk 512 [record0 slot1]).record? 1 512 = some (record0 slot1) ∧ (record0 slot1).thread ≠ (walk0 512).slot ∧ (mWalk 512 []).record? 1 512 = none ∧
    (mWalk 512 []).region? (tWalk 512).region = some (region1 t1.id) ∧ (mWalk 512 []).threadById (region1 t1.id).supervisor = some (slot1, t1) ∧
    (∀ p ∈ (mWalk 512 []).regions, p.supervisor ≠ (tWalk 512).id) := by
  unfold OnlyWalk; decide +kernel

/-- A line at home that core 5's read, or an invalidation, waits for at the spillway. -/
def spill0 : SpillJob := { home := 3, line := 0, core := 5, slot := 0, world := 1, region := 1, stamp := { tc := 0, src := 0 } }
def lost0 (region : Option Nat) : LostLine := { die := 0, pa := 0, world := 1, region := region, va := none, stamp := { tc := 0, src := 0 } }

theorem test_meets_controllers : Ordered m0 ∧ m0.arg.n = 0 ∧ m0.ready.getLsbD 16 = false ∧ (tget Patrol.reset ({ m0 with patrols := [(0, { running := true, begun := 0, lastDone := none })] } : State).patrols 0).running = true ∧
    (let s : State := { m0 with retire := [(0, 0)] }; s.retire = [(s.arg.n, 0)] ∧ tget 0 s.spares (s.sliceNo 0) < 16 ∧
      tget 0 ({ s with spares := [(m0.sliceNo 0, 16)] } : State).spares (s.sliceNo 0) = 16) ∧
    (let s : State := { mSup with lost := [lost0 (some 1)] }; s.lost = [lost0 (some 1)] ∧ s.arg.n = (lost0 (some 1)).die ∧ s.region? 1 = some (region1 t1.id) ∧ (region1 t1.id).policy ≤ 1 ∧
      s.threadById (region1 t1.id).supervisor = some (slot1, t1)) ∧
    (let s : State := { m0 with spillFills := [spill0], spillInvs := [spill0], dirs := [(0, { state := 2, ptrs := [1, 2] })], arg := { core := 3 } }
     s.spillFills = [spill0] ∧ s.arg.core = spill0.home ∧ (tget DirEntry.zero s.dirs spill0.line).state ≠ 0 ∧ (tget DirEntry.zero s.dirs spill0.line).state = 2) := by
  unfold Ordered; decide

/-- A channel after `n` frames, or waiting to be retrained. -/
def chan0 (n : Nat) (retrain : Bool) : Channel := { key := [1], counter := n, phase := false, failures := 7, retrain := retrain }
def mOwned (m : Master) (a : Args) : State := { m0 with owner := some m, arg := a }

theorem test_meets_links : ({ m0 with channels := [(0, chan0 4294967295 false)] } : State).channel m0.arg.n = chan0 4294967295 false ∧
    ({ m0 with channels := [(0, chan0 4294967296 true)] } : State).channel m0.arg.n = chan0 4294967296 true ∧ 2 ^ 32 ≤ (chan0 4294967296 true).counter ∧
    (m0.ready.getLsbD 63 = true ∧ ({ m0 with ready := 0 } : State).ready.getLsbD 63 = false ∧ m0.clusterIdle 0 = false) ∧ m0.clusterIdle 1 = true ∧ m0.rdcs = [] ∧
    (let s := mOwned .hostDriver { n := 0x207F8, data := [1, 2, 3, 4, 5, 6, 7, 8], master := some .hostDriver }
     OwnerWrites s ∧ s.locked = false ∧ s.arg.n = 0 * 2 ^ 36 + 0x207F8 ∧ 0x207F8 + s.arg.data.length ≤ 0x20800 ∧ ¬(∀ p ∈ s.keys, p.1 ≠ 0 → p.2.live = false) ∧
     ∀ p ∈ ({ s with keys := [(0, { epoch := 1, live := true, key := 0, destroyed := none })] } : State).keys, p.1 ≠ 0 → p.2.live = false) ∧
    ¬OwnerWrites (mOwned .hostDriver { master := some .debugger }) ∧ OwnerWrites (mOwned .hostDriver { m := 0 }) ∧ ¬OwnerWrites (mOwned .hostDriver { m := 1 }) ∧
    leNat ([1, 0, 0, 0, 0, 0, 0, 0] : List Byte) = Master.management.number ∧ m0.owner = none := by
  refine ⟨by decide, by decide, by decide, by decide, by decide, rfl, ⟨.inl ⟨.hostDriver, rfl, rfl⟩, by decide⟩, ?_, .inr (by decide), ?_, by decide⟩
  · rintro (⟨m, h, h'⟩ | ⟨h, _⟩)
    · cases h; exact absurd h' (by decide)
    · exact absurd h (by decide)
  · rintro (⟨m, h, _⟩ | ⟨_, _, h⟩)
    · exact nomatch h
    · exact absurd h (by decide)

theorem test_meets_device_writes : (commandEvent (fieldAt (1 :: List.replicate 63 0) 0 1)).isSome ∧ commandBad (1 :: List.replicate 63 0) = false ∧ commandEvent (fieldAt (200 :: List.replicate 63 0) 0 1) = none ∧
    (List.replicate 64 (0 : Byte)).length = 64 ∧ devDie 0x30000 = 0 ∧ devOff 0x30000 = 0x30000 ∧ 6 ≤ 15 ∧ leNat ([0x24] : List Byte) / 4 ^ 0 % 4 = 0 ∧ leNat ([0x24] : List Byte) / 4 ^ 1 % 4 = 1 ∧
    leNat ([0x24] : List Byte) / 4 ^ 2 % 4 = 2 := by decide

/-- Function 2, bound to world 1, enabled, paused, with a vector pending. -/
def fn0 : HostFn := { HostFn.reset with bound := some (0, 1), enabled := true, state := 2, pending := [(3, { tc := 0, src := 0 })] }
def mHost (a : Args) : State := { tabled m0 with fns := [(2, fn0)], arg := a, tc := 1 }

theorem test_meets_host : InOrder (mHost { core := 0, n := 2, m := 0x200 }) ∧ ¬InOrder { mHost { slot := 2 } with agenda := [{ what := .hostPostedWrite, arg := { slot := 1 } }] } ∧
    (mHost { n := 2 }).fnWorld 2 = some 1 ∧ ((mHost { n := 2 }).agentWrite hostLinkSource 4 1 0x200 [1, 2]).2 = true ∧
    ((mHost { n := 2 }).agentRead hostLinkSource 4 1 0x200 2).2 = some [0xAB, 0] ∧ ((mHost { n := 2 }).agentRead hostLinkSource 4 1 0x2000000 2).2 = none ∧
    0x17FF8 + (List.replicate 8 (0 : Byte)).length ≤ 0x18000 ∧ (fnAt (mHost {}) 2).state = 2 ∧ (fnAt (mHost {}) 2).enabled = true ∧ (fnAt (mHost {}) 2).bound = some (0, 1) ∧
    (fnAt (mHost {}) 1).bound = none ∧ (fnAt (mHost {}) 1).enabled = false ∧ (fnAt (mHost {}) 1).state ≠ 2 := by
  unfold InOrder; decide

theorem test_meets_unbound : (mHost { core := 1, n := 16, data := List.replicate 64 0 }).arg.n ≠ 0 ∧ (fnAt (mHost { n := 16 }) 16).bound = none ∧ InOrder (mHost { core := 1, n := 16 }) := by
  unfold InOrder; decide

/-- A command of 64 bytes: code, index, polder, world at their places. -/
theorem test_meets_mailbox : (keyOf m0 1).live = true ∧ (keyOf m0 3).live = false ∧ m0.otherThread = true ∧ State.reset.otherThread = false ∧
    contiguous ((List.range 16).map (fun _ => 0)) = true ∧ contiguous [0, 1, 0] = false ∧ (fnAt (mHost {}) 2).enabled = true ∧ (fnAt (mHost {}) 1).enabled = false ∧
    m0.regionAt 1 0x10000 = some (region1 0) ∧ m0.regionAt 1 0x20000 = none ∧ m0.rotations = [] ∧ m0.destroying = none ∧ m0.monitors = [] ∧ m0.rdcs = [] ∧
    (∃ p ∈ masters, p.1 = 2) ∧ (∀ p ∈ masters, 3 ≠ p.1) ∧ (let k : Key := { epoch := 255, live := false, key := 0, destroyed := some 5 }
      k.epoch = 255 ∧ ∃ t, k.destroyed = some t ∧ m0.patrolledSince t = false) := by
  refine ⟨?_, ?_, ?_, ?_, ?_, ?_, ?_, ?_, ?_, ?_, ?_, ?_, ?_, ?_, ?_, ?_, rfl, 5, rfl, ?_⟩
  all_goals decide

theorem test_meets_destruction : (∃ g ∈ ({ m0 with arg := { flag := true }, destroying := some (1, { tc := 0, src := 0 }, 64, 0) } : State).regions, g.world = 1) ∧
    (∀ g ∈ ({ m0 with regions := [], arg := { flag := true } } : State).regions, g.world ≠ 1) := by decide

/-- A rotation of polder 0 that slot 0 has still to leave. -/
def rot0 : Rotation := { polder := 0, table := 0x400, left := [slot0], begun := [] }
def mRot : State := { tabled m0 with rotations := [rot0] }

theorem test_meets_rotation : m0.spdmStage < 1 ∧ ({ m0 with spdmStage := 3 } : State).spdmStage ≤ 3 ∧ mRot.rotations = [rot0] ∧ rot0.polder = mRot.arg.n ∧ slot0 ∈ rot0.left ∧
    rot0.left.Nodup ∧ (mRot.saveAreas rot0 slot0).2 = (0, 0, 0) ∧ (mRot.handOver rot0 slot0).stall = none ∧ mRot.thread? slot0 = some t0 ∧ (mRot.core 0).buf = [] ∧
    (let s : State := { mSt .drain (.loc 0 0x100) 8 with rotations := [rot0] }; s.thread? slot0 = some t0 ∧ ∃ e ∈ (s.core 0).buf, e.slot = slot0.slot) := by decide +kernel

/-- A launch of a root region of world 1 by physical function 0: its block at 0x400, its empty container at 0x600. -/
def launch0 : LaunchReq :=
  { record := natLe 0x400 8 ++ natLe 1 8 ++ List.replicate 48 0, stamp := { tc := 0, src := 0 }, slot := none, tid := 0, world := 0, region := 0, fn := some 0, from_ := 0 }
def mLaunch : State :=
  { m0 with
    launches := [launch0], worldTable := [(1, 0x1000)],
    hbm := [(0x410, 1), (0x414, 1), (0x441, 6), (0x600, 0x4F), (0x601, 0x43), (0x602, 0x55), (0x603, 0x49), (0x604, 1), (0x618, 128), (0x1000, 1), (0x1001, 0x20), (0x2000, 1), (0x2001, 0x30),
      (0x3000, 15)],
    lines := [0x400, 0x440, 0x600, 0x1000, 0x2000, 0x3000].map (fun l => (l, treeTag)) }

/-- What the headgate reads for the launch, when it waits no more. -/
def readLaunch (s : State) : Option (State × List Byte × List Byte × List Section) :=
  match s.headRead (fieldAt launch0.record 8 1) (fieldAt launch0.record 0 8) 256 with
  | (s1, some blk) =>
    match s1.readContainer (fieldAt launch0.record 8 1) (resolveBlock blk launch0.record none launch0.from_).container with
    | (s2, some (blob, dark)) => some (s2, blk, blob, dark)
    | _ => none
  | _ => none

/-- Whether a launch in this state passes the checks of R333 up to step 4, and `more` holds of what it read. -/
def passesLaunch (s : State) (more : State → List Byte → List Byte → Bool) : Bool :=
  match readLaunch s with
  | some (s2, blk, blob, dark) =>
    let g := resolveBlock blk launch0.record none launch0.from_
    decide (fieldAt blk 8 8 = 0) && !blockBad blk && decide (fieldAt blk 16 1 = fieldAt launch0.record 8 1) && !blockInherits blk && !containerBad blob dark
      && okIs (step2 s2 launch0 blk none) () && okIs (step3 s2 g none) () && okIs (step4 s2 g blob) () && more s2 blk blob
  | none => false

theorem test_meets_launches : OnlyLaunch mLaunch launch0 ∧ RecordGood launch0.record ∧ ¬RecordGood (1 :: launch0.record.drop 1) ∧
    (({ mLaunch with launches := [] } : State).admitLaunch launch0).stall = none ∧ passesLaunch { mLaunch with launches := [] } (fun _ _ blob => allZero (bytesAt blob 8 16)) = true ∧
    (({ mLaunch with launches := [], retire := [(0, 0x400)] } : State).admitLaunch launch0).stall.isSome = true := by
  unfold OnlyLaunch RecordGood; decide +kernel

/-- The same launch where the world has a cache window, mapped as R407 asks: step 5 goes on to the images of its roles, of which it has none. -/
def mLaunchCached : State :=
  { mLaunch with
    launches := [],
    hbm := [(0x410, 1), (0x414, 1), (0x441, 6), (0x600, 0x4F), (0x601, 0x43), (0x602, 0x55), (0x603, 0x49), (0x604, 1), (0x618, 128), (0x1000, 1), (0x1001, 0x20), (0x1FF8, 1), (0x1FF9, 0x20),
      (0x2000, 1), (0x2001, 0x30), (0x2FF8, 1), (0x2FF9, 0x30), (0x3000, 15), (0x3FF8, 0x1F), (0x3FFB, 2)],
    lines := [0x400, 0x440, 0x600, 0x1000, 0x1FC0, 0x2000, 0x2FC0, 0x3000, 0x3FC0].map (fun l => (l, treeTag)) }

theorem test_meets_step5 : (mLaunch.cacheMapped 1).2 = false ∧
    passesLaunch mLaunchCached (fun s2 blk blob => decide ((step5 s2 launch0 (resolveBlock blk launch0.record none launch0.from_) blob).2 = .images [])) = true := by decide +kernel

/-- The launch while its translator runs, or has ended. -/
def adm0 : Admission := { req := launch0, region := region1 0, blob := [], images := [], left := [] }
def mAdm (ended : Option (Nat × Nat)) : State := { m0 with launches := [launch0], admitting := some adm0, translator := some { tr0 1 [0] with ended := ended } }

/-- The machine whose tables map the cache window of world 1 to the second 32 MiB. -/
def mCache : State :=
  { mLaunch with
    hbm := [(0x1FF8, 1), (0x1FF9, 0x20), (0x2FF8, 1), (0x2FF9, 0x30), (0x3FF8, 0x1F), (0x3FFB, 2)], lines := [0x1FC0, 0x2FC0, 0x3FC0].map (fun l => (l, treeTag)) }

theorem test_meets_translations : (mAdm none).admitting = some adm0 ∧ (mAdm none).translator = some { tr0 1 [0] with ended := none } ∧ (64, 0) = ((64, 0) : Nat × Nat) ∧
    (({ mCache with translator := none } : State).cacheTranslation { tr0 1 [0] with ended := some (0, 0) }).2 = true ∧
    coversMap adm0.blob (foundImage 0 [1, 2] 0 1 []) = true ∧ ((mAdm none).endLaunch adm0).stall = none ∧ ((mAdm (some (64, 0))).endLaunch adm0).stall = none ∧
    ((mAdm (some (0, 0))).endLaunch adm0).stall = none ∧
    (({ mAdm (some (0, 0)) with translator := none } : State).cacheTranslation { tr0 1 [0] with ended := some (0, 0) }).2 = false := by decide +kernel

/-- A region whose image is on its way to core 0; one whose initial thread is to start; one of which nothing is left. -/
def gBoot : Region := { region1 0 with forward := [(0, { image1 [0x02000000] with localLo := 0x800 }, [1, 2, 3])], starting := [slot1] }
def mBoot (g : Region) : State := { machine 0 id [(slot0, t0)] with regions := [g], arg := { core := 0, slot := 1, n := 1 } }

theorem test_meets_boot : (mBoot gBoot).region? (mBoot gBoot).arg.n = some gBoot ∧ gBoot.cores[0]? = some 0 ∧ 0x800 % 8 = 0 ∧ Memory.wf ((mBoot gBoot).core 0).mem = true ∧
    segmentOn gBoot 0 0 = none ∧ (segmentOn gBoot 1 0).isSome ∧ slot1 ∈ gBoot.starting ∧ (gBoot.roleAt slot1).isSome ∧ gBoot.args.length = 4 ∧
    (∀ f ∈ (region1 0).forward, (region1 0).cores[f.1]? ≠ some 0) ∧ (mBoot gBoot).rdcs = [] := by decide

/-- Region 1 with no thread, its completion to be written, raised, or sent to the supervisor of its parent, region 2. -/
def mDone (g : Region) (l : List (SlotRef × Thread)) : State :=
  let s := machine 0 id l
  { s with regions := [g, { region1 t1.id with id := 2 }], arg := { n := 1 } }

theorem test_meets_completion : (mDone (region1 0) []).regionIdle 1 = true ∧ (mDone (region1 0) [(slot0, t0)]).regionIdle 1 = false ∧ (mDone (region1 0) []).region? 1 = some (region1 0) ∧
    (∀ p ∈ (mDone (region1 0) []).cores, ∀ w ∈ p.2.q6wait, w.region ≠ 1) ∧ (region1 0).msgs = [] ∧ (region1 0).ndeps = 0 ∧ (region1 0).parent = none ∧
    bitOf (0x8010000000000000 : Word) 63 = true ∧ bitOf (region1 0).completion 63 = false ∧
    (let s := mDone (region1 0) []; (s.freePools 1).regionPools 1 = [] ∧ (s.completeRegion (region1 0)).stall = none ∧ s.pools = [] ∧ s.rdcs = []) ∧
    (let g : Region := { region1 0 with parent := some 2 }
     let s := mDone g [(slot1, { t1 with region := 2 })]
     s.regionIdle 1 = true ∧ s.region? 2 = some { region1 t1.id with id := 2 } ∧ s.threadById t1.id = some (slot1, { t1 with region := 2 })) := by decide +kernel

/-- A region whose messages wait: its supervisor lives, or a handler is to begin. -/
def gMsg (sup : Nat) : Region := { region1 sup with msgs := [({ tc := 0, src := 0 }, [1, 2], true)] }

theorem test_meets_handler : (mBoot (gMsg 0)).region? 1 = some (gMsg 0) ∧ (gMsg 0).msgs ≠ [] ∧ (mBoot (gMsg t0.id)).threadById (gMsg t0.id).supervisor = some (slot0, t0) ∧
    (mBoot (gMsg 0)).threadById (gMsg 0).supervisor = none ∧ (gMsg 0).cores.head? = some 0 ∧ (gMsg 0).firstPlaced = some slot0 ∧ ((gMsg 0).roleAt slot0).isSome ∧
    (mBoot (gMsg 0)).freeSlot 0 (gMsg 0).polder = some slot1 ∧ (mBoot (gMsg 0)).liveThreads 1 < (mBoot (gMsg 0)).slotsOf (gMsg 0) ∧
    ((mBoot (gMsg 0)).superviseRegion (gMsg 0)).stall = none ∧ ((mBoot (gMsg t0.id)).superviseRegion (gMsg t0.id)).stall = none := by decide +kernel

/-! ### Steps, words, the invariant -/

theorem test_meets_step : (let s : State := { m0 with cursor := 1, hold := 1 }
    let x := annulTurn { s with hold := s.hold - 1 } 0 (s.tc % 16)
    let s0 := x.1
    takeWork s = none ∧ spillwayTurn { s with hold := s.hold - 1 } 0 (s.tc % 16) = none ∧ 0 < s.cursor ∧ s.cores = [] ++ [(0, m0.core 0)] ∧ s.cursor ≤ 2 * 0 + 1 ∧ turnOf s0 .address 0 (s.tc % 16) x.2 = some slot0 ∧ s0.thread? slot0 = some t0 ∧
    (s0.core 0).imageOf 1 0 = some (image1 (List.replicate 8 0x02000000)) ∧ (image1 (List.replicate 8 0x02000000)).word t0.pc.toNat = some 0x02000000) ∧
    decode [0x02000000, 0x02000000] = .ok (.addi (.g 0) (.g 0) 0, 4) := by
  refine ⟨?_, rfl⟩
  decide

theorem test_meets_other_steps : (let e := eVec (.vadd (.s 0) (.s 1) (.s 2) 0 .rn) (sh0 0xF1 8 0x7FE0) (sh0 0xF1 8 0x600) (sh0 0xF1 8 0x700) 0 []
    let s : State := { mBeat e [] with cursor := 2 }
    NoWork s ∧ s.cores = [] ++ [(0, s.core 0)] ∧ s.cursor = 2 * 0 + 2 ∧ turnOf { s with hold := s.hold - 1 } .compute 0 (s.tc % 16) false = some slot0 ∧ (tBeat e).cq = [e]) ∧
    (let s := mTr 1 [0x11898000]
     NoWork s ∧ s.cursor = 0 ∧ (tr0 1 [0x11898000]).meter ≠ 0 ∧ (tr0 1 [0x11898000]).fetchable 0 = true ∧ decodeEsnen 0x11898000 = some (.esnenAdd 3 1 3)) ∧
    (let s : State := { m0 with cursor := 3 }; NoWork s ∧ s.cursor ≠ 0 ∧ (∀ p ∈ s.cores, 2 * p.1 + 2 < s.cursor) ∧ t0.wdog = 0 ∧ ∀ g ∈ s.regions, g.shown = s.counts g.id) ∧
    (let s : State := { m0 with cursor := 1, spillFills := [{ spill0 with home := 0 }] }
     NoWork s ∧ s.cores = [] ++ [(0, s.core 0)] ∧ spillwayTurn { s with hold := s.hold - 1 } 0 (s.tc % 16) = some .spillwayOverflow) ∧
    ({ m0 with urgent := [{ what := .yield, arg := {} }] } : State).urgent = [{ what := .yield, arg := {} }] := by
  unfold NoWork; decide

theorem test_meets_illegal_words : kindOf (0xC0000000 : Word32).toNat = 3 ∧ kindOf (0x0D000000 : Word32).toNat = 0 ∧ fld (0x0D000000 : Word32).toNat 24 6 ∈ noMajorA ∧
    kindOf (0x4A000000 : Word32).toNat = 1 ∧ 0x0A ≤ fld (0x4A000000 : Word32).toNat 24 6 ∧ kindOf (0x83000000 : Word32).toNat = 2 ∧ kindOf (0x02000000 : Word32).toNat ≠ 3 ∧
    3 ≤ fld (0x83000000 : Word32).toNat 24 6 ∧ (m0.core 0).imageOf 1 0 = some (image1 (List.replicate 8 0x02000000)) ∧ ({ t0 with pc := 32 } : Thread).pc.toNat = 0 + 4 * 8 ∧
    (2 : Word).toNat % 4 ≠ 0 ∧ (image1 [0x82000000]).word 0 = some 0x82000000 ∧ 0 + 4 = (image1 [0x82000000]).start + 4 * (image1 [0x82000000]).words.length := by decide

theorem test_meets_round_trip : (Instr.addi (.g 3) (.g 1) (-5)).wf = true ∧ (Instr.addi (.g 3) (.g 1) (-5)).isEsnen = false ∧ encode (.addi (.g 3) (.g 1) (-5)) = [0x020C1FFB] ∧
    (Instr.esnenAdd 3 1 3).wf = true ∧ (Instr.esnenAdd 3 1 3).isEsnen = true := by decide

theorem test_meets_invariant : Inv m0 ∧ (match step m0 with | .next _ => true | _ => false) = true := by
  refine ⟨⟨by decide, fun c => ?_, by decide, fun w => ?_, by decide, fun d h => (nomatch h), rfl⟩, by decide⟩
  · by_cases h : c = 0
    · subst h; decide
    · have : m0.core c = Core.reset := by
        show (if c = 0 then m0.core 0 else if c < 0 then Core.reset else Core.reset) = Core.reset
        rw [if_neg h]; split <;> rfl
      rw [this]; decide
  · by_cases h0 : w = 0
    · subst h0; decide
    · by_cases h1 : w = 1
      · subst h1; decide
      · by_cases h2 : w = 2
        · subst h2; decide
        · have : tget Key.none m0.keys w = Key.none := by
            show (if w = 0 then _ else if w < 0 then _ else if w = 1 then _ else if w < 1 then _ else if w = 2 then _ else if w < 2 then _ else _) = Key.none
            rw [if_neg h0, if_neg (Nat.not_lt_zero _), if_neg h1, if_neg (by omega), if_neg h2, if_neg (by omega)]
            rfl
          rw [this]; exact fun h => absurd h (by decide)

/-! ### A slot that a rotation hands back: the bytes of its area are free values, so the state is met by proof -/

def zTag : LineTag := { world := 0, epoch := 1, fe := 0xFF, sound := true, poison := false }

/-- Bytes from an address up. -/
def run (b : Nat) : List Byte → List Host.Cell
  | [] => []
  | x :: r => (b, x) :: run (b + 1) r

def area0 : SaveArea := { world := 0, thread := some t0, bank := [], scale := [], emptyW := [], poison := [], scalePoison := [], queue := [], away := true }
def rot1 : Rotation := { polder := 0, table := 0x6000, left := [slot0], begun := [] }
def areaOf : List Byte := State.reset.areaBytes 5

/-- World 0's tables map pages 0 and 1 to frames 0 and 1; the area's bytes lie at 0x10000; the caches can hold no line. -/
def mBack : State :=
  { machine 0 id [] with
    rotations := [rot1], saves := [(5, area0)], worldTable := [(0, 0x1000)], pinned := [0], quars := [(0, 0xFFFF), (1, 0xFFFF)],
    lines := (0x1000, zTag) :: (0x2000, zTag) :: (0x3000, zTag) :: (0x4000, zTag) :: (0x6000, zTag) :: (List.range' 0x10000 1024 64).map (fun l => (l, zTag)),
    hbm := [(0x1000, 1), (0x1001, 0x20), (0x2000, 1), (0x2001, 0x30), (0x3000, 1), (0x3001, 0x40), (0x4000, 15), (0x4008, 15), (0x400A, 1), (0x600A, 1), (0x7000, 1)] ++
      run 0x10000 areaOf }

/-- What a read leaves as it was. -/
structure Still (s : State) : Prop where
  hbm : s.hbm = mBack.hbm
  lines : s.lines = mBack.lines
  keys : s.keys = mBack.keys
  table : s.worldTable = mBack.worldTable
  pinned : s.pinned = [0]
  quars : s.quars = mBack.quars
  slices : s.slices = []
  errs : s.dramErr = []
  monitors : s.monitors = []

theorem tag0 (s : State) (h : Still s) (line : Nat) (hl : line = 0x1000 ∨ line = 0x2000 ∨ line = 0x3000 ∨ line = 0x4000 ∨ ∃ i < 1024, line = 0x10000 + 64 * i) :
    s.lineCase 0 line = .own ∧ (s.tag line).poison = false ∧ (s.tag line).sound = true := by
  have ht : s.tag line = zTag := by
    rw [State.tag, h.lines]
    rcases hl with e | e | e | e | ⟨i, hi, e⟩
    · rw [e]; rfl
    · rw [e]; rfl
    · rw [e]; rfl
    · rw [e]; rfl
    · rw [e, mBack]
      simp only [tget]
      rw [if_neg (by omega), if_neg (by omega), if_neg (by omega), if_neg (by omega), if_neg (by omega), if_neg (by omega), if_neg (by omega), if_neg (by omega), if_neg (by omega),
        if_neg (by omega)]
      exact tget_run _ _ _ _ _ hi
  have hk : s.keyLive 0 1 = true := by rw [State.keyLive, h.keys]; rfl
  refine ⟨?_, by rw [ht]; rfl, by rw [ht]; rfl⟩
  simp only [State.lineCase, ht, zTag, hk]
  rfl

theorem touch0 (s : State) (h : Still s) (line slot : Nat) (hl : line < 0x20000) (hs : (s.tag line).sound = true) : s.touchLine line slot false = (s, false) := by
  have hq : tget 0 s.quars (s.sliceNo line) = 0xFFFF := by
    have hn : s.sliceNo line = line / 65536 := by
      simp only [State.sliceNo, h.pinned, paDie, paGroup]
      rw [show line % 2 ^ 40 / 2 ^ 22 = 0 by omega]
      simp; omega
    rw [hn, h.quars]
    have : line / 65536 = 0 ∨ line / 65536 = 1 := by omega
    rcases this with e | e <;> rw [e] <;> rfl
  have hfree : s.freeWay line slot = none := by
    refine List.find?_eq_none.2 fun w hw => ?_
    rw [State.wayUsable, hq, (by decide : ∀ w ∈ List.range 16, wayOut 0xFFFF w = true) w hw]
    simp
  have hfill : s.fillSlice line slot = s := by
    unfold State.fillSlice
    rw [hfree, State.fillVictim, h.slices]
    rfl
  have hd : ({ s with dramErr := s.dramErr.filter (fun l => l ≠ line) } : State) = s := by
    rw [show s.dramErr.filter (fun l => l ≠ line) = s.dramErr by rw [h.errs]; rfl]
  unfold State.touchLine
  dsimp only
  split
  · next x hx =>
    rw [h.slices] at hx
    exact nomatch hx
  · rw [if_neg (by simp [h.errs, hs]), hd, hfill]

theorem read0 (s : State) (h : Still s) (slot pa : Nat) (hl : lineOf pa = 0x1000 ∨ lineOf pa = 0x2000 ∨ lineOf pa = 0x3000 ∨ lineOf pa = 0x4000) :
    s.readEntry 0 slot pa = (s, some (leNat (cellsGet mBack.hbm pa 8))) := by
  obtain ⟨h1, h2, h3⟩ := tag0 s h (lineOf pa) (by rcases hl with e | e | e | e <;> simp [e])
  have ht := touch0 s h (lineOf pa) slot (by omega) h3
  simp only [State.readEntry, h1, h2, ht, h.hbm]
  rfl

theorem walkBack (s : State) (h : Still s) (slot : Nat) :
    s.walk 0 1 slot = (s, some { world := 0, page := 1, large := false, pa := 0x10000, r := true, w := true, x := false }) := by
  have e1 : leNat (cellsGet mBack.hbm 0x1000 8) = 0x2001 := by decide
  have e2 : leNat (cellsGet mBack.hbm 0x2000 8) = 0x3001 := by decide
  have e3 : leNat (cellsGet mBack.hbm 0x3000 8) = 0x4001 := by decide
  have e4 : leNat (cellsGet mBack.hbm 0x4008 8) = 0x1000F := by decide
  have b1 : s.entryBad 0 1 0x2001 = false := by rw [State.entryBad, h.pinned]; decide
  have b2 : s.entryBad 0 2 0x3001 = false := by rw [State.entryBad, h.pinned]; decide
  have b3 : s.entryBad 0 3 0x4001 = false := by rw [State.entryBad, h.pinned]; decide
  have b4 : s.entryBad 0 4 0x1000F = false := by rw [State.entryBad, h.pinned]; decide
  have r1 := read0 s h slot 0x1000 (by decide)
  have r2 := read0 s h slot 0x2000 (by decide)
  have r3 := read0 s h slot 0x3000 (by decide)
  have r4 := read0 s h slot 0x4008 (by decide)
  rw [e1] at r1; rw [e2] at r2; rw [e3] at r3; rw [e4] at r4
  have ht : tget 0 s.worldTable 0 = 0x1000 := by rw [h.table]; rfl
  have w4 : walkFrom s 0 1 slot 0x4000 1 = (s, some { world := 0, page := 1, large := false, pa := 0x10000, r := true, w := true, x := false }) := by
    rw [walkFrom, show (0x4000 + 8 * (1 / 2 ^ (9 * 0) % 512)) = 0x4008 from rfl, r4]
    simp only [b4, Bool.false_eq_true, if_false]
    rfl
  have w3 : walkFrom s 0 1 slot 0x3000 2 = walkFrom s 0 1 slot 0x4000 1 := by
    rw [walkFrom, show (0x3000 + 8 * (1 / 2 ^ (9 * 1) % 512)) = 0x3000 from rfl, r3]
    simp only [b3, Bool.false_eq_true, if_false]
    rfl
  have w2 : walkFrom s 0 1 slot 0x2000 3 = walkFrom s 0 1 slot 0x3000 2 := by
    rw [walkFrom, show (0x2000 + 8 * (1 / 2 ^ (9 * 2) % 512)) = 0x2000 from rfl, r2]
    simp only [b2, Bool.false_eq_true, if_false]
    rfl
  have w1 : walkFrom s 0 1 slot 0x1000 4 = walkFrom s 0 1 slot 0x2000 3 := by
    rw [walkFrom, show (0x1000 + 8 * (1 / 2 ^ (9 * 3) % 512)) = 0x1000 from rfl, r1]
    simp only [b1, Bool.false_eq_true, if_false]
    rfl
  simp only [State.walk, ht]
  rw [if_neg (by decide), w1, w2, w3, w4]

theorem placeBack (s : State) (h : Still s) (i : Nat) (hi : i < 256) :
    s.enginePlace 0 0 0 (0x10000 + BitVec.ofNat 64 (64 * i)) 64 true false = (s, .ok (.glob (0x10000 + 64 * i))) := by
  have all : ∀ i < 256, windowOf (0x10000 + BitVec.ofNat 64 (64 * i)) = 0 ∧ wellFormed (0x10000 + BitVec.ofNat 64 (64 * i)) 64 = true ∧
      ((0x10000 : Word) + BitVec.ofNat 64 (64 * i)).toNat / 65536 = 1 ∧ ((0x10000 : Word) + BitVec.ofNat 64 (64 * i)).toNat % 65536 = 64 * i := by decide +kernel
  obtain ⟨h1, h2, h3, h4⟩ := all i hi
  simp only [State.enginePlace, h1, h2, h3, h4, walkBack s h 0]
  rfl

theorem homeBack (s : State) (h : Still s) (w : Who) (hw : w.world = 0) (i : Nat) (hi : i < 256) :
    s.homeRead w (0x10000 + 64 * i) 64 = (s, .ok (cellsGet mBack.hbm (0x10000 + 64 * i) 64)) := by
  have hl : lineOf (0x10000 + 64 * i) = 0x10000 + 64 * i := by unfold lineOf; omega
  obtain ⟨h1, h2, h3⟩ := tag0 s h (0x10000 + 64 * i) (by exact .inr (.inr (.inr (.inr ⟨i, by omega, rfl⟩))))
  have ht := touch0 s h (0x10000 + 64 * i) w.slot (by omega) h3
  have hg : ∀ b, s.logAll (0x10000 + 64 * i) w b = s := by
    intro b
    unfold State.logAll
    rw [h.monitors]
    simp
  simp only [State.homeRead, hl, hw, h1, h2, ht, hg, h.hbm]
  rfl

theorem spanBack (s : State) (h : Still s) : s.engineSpan 0 0 0 0x10000 16384 true false = (s, .ok ((List.range 256).map (fun i => (.glob (0x10000 + 64 * i), 64)))) := by
  have hp : lineParts 0x10000 0 16384 (16384 / 64 + 2) = (List.range 256).map (fun i => (64 * i, 64)) := by decide +kernel
  have step : ∀ (l : List Nat) (acc : List (Place × Nat)), (∀ i ∈ l, i < 256) →
      (l.map (fun i => (64 * i, 64))).foldl (fun (acc : State × Except Cause (List (Place × Nat))) (p : Nat × Nat) =>
        match acc with
        | (s1, .error k) => (s1, .error k)
        | (s1, .ok l) =>
          match s1.enginePlace 0 0 0 (0x10000 + BitVec.ofNat 64 p.1) p.2 true false with
          | (s2, .error k) => (s2, .error k)
          | (s2, .ok q) => (s2, .ok (l ++ [(q, p.2)]))) (s, .ok acc) = (s, .ok (acc ++ l.map (fun i => (.glob (0x10000 + 64 * i), 64)))) := by
    intro l
    induction l with
    | nil => intro acc _; simp
    | cons i r ih =>
      intro acc hl
      rw [List.map_cons, List.foldl_cons]
      simp only [placeBack s h i (hl i (List.mem_cons_self ..))]
      rw [ih _ (fun j hj => hl j (List.mem_cons_of_mem _ hj))]
      simp
  unfold State.engineSpan
  rw [hp]
  exact (step (List.range 256) [] (fun i hi => List.mem_range.1 hi)).trans (by simp)

theorem bytesBack (s : State) (h : Still s) (w : Who) (hw : w.world = 0) :
    s.engineRead w ((List.range 256).map (fun i => (.glob (0x10000 + 64 * i), 64))) = (s, .ok ((List.range 256).flatMap (fun i => cellsGet mBack.hbm (0x10000 + 64 * i) 64))) := by
  have step : ∀ (l : List Nat) (acc : List Byte), (∀ i ∈ l, i < 256) →
      (l.map (fun i => (Place.glob (0x10000 + 64 * i), 64))).foldl (fun (acc : State × Except Cause (List Byte)) p =>
        match acc with
        | (s1, .error k) => (s1, .error k)
        | (s1, .ok b) =>
          let x : State × Except Cause (List Byte) := match p.1 with
            | .loc k o => s1.locRead k o p.2
            | .scale k o => (s1, s1.scaleRead k o p.2)
            | .glob pa => if 2 ^ 40 ≤ pa then (let r := s1.deviceRead pa p.2; (r.1, .ok r.2)) else s1.homeRead w pa p.2
          match x with
          | (s2, .error k) => (s2, .error k)
          | (s2, .ok r) => (s2, .ok (b ++ r))) (s, .ok acc) = (s, .ok (acc ++ l.flatMap (fun i => cellsGet mBack.hbm (0x10000 + 64 * i) 64))) := by
    intro l
    induction l with
    | nil => intro acc _; simp
    | cons i r ih =>
      intro acc hl
      have hi := hl i (List.mem_cons_self ..)
      rw [List.map_cons, List.foldl_cons]
      simp only [homeBack s h w hw i hi, if_neg (show ¬2 ^ 40 ≤ 0x10000 + 64 * i by omega)]
      rw [ih _ (fun j hj => hl j (List.mem_cons_of_mem _ hj))]
      simp
  have := step (List.range 256) [] (fun i hi => List.mem_range.1 hi)
  rw [List.nil_append] at this
  unfold State.engineRead
  exact this

theorem cells_split (m : List Host.Cell) (k : Nat) : ∀ n a, cellsGet m a (n + k) = cellsGet m a n ++ cellsGet m (a + n) k := by
  intro n
  induction n with
  | zero => intro a; simp [cellsGet]
  | succ n ih => intro a; rw [show n + 1 + k = (n + k) + 1 by omega, cellsGet, cellsGet, ih (a + 1)]; simp; congr 1; omega

theorem cells_lines (m : List Host.Cell) (a : Nat) : ∀ n, (List.range n).flatMap (fun i => cellsGet m (a + 64 * i) 64) = cellsGet m a (64 * n) := by
  intro n
  induction n with
  | zero => rfl
  | succ n ih => rw [List.range_succ, List.flatMap_append, ih, show 64 * (n + 1) = 64 * n + 64 by omega, cells_split]; simp

theorem run_get : ∀ (l : List Byte) (b i : Nat), i < l.length → cellGet (run b l) (b + i) = l.getD i 0 := by
  intro l
  induction l with
  | nil => intro b i h; exact absurd h (Nat.not_lt_zero _)
  | cons x r ih =>
    intro b i h
    cases i with
    | zero => simp [run, cellGet, tget]
    | succ i =>
      have := ih (b + 1) i (by simpa using h)
      rw [run, cellGet, tget, if_neg (by omega), if_neg (by omega), ← cellGet, show b + (i + 1) = b + 1 + i by omega, this]
      simp

theorem cells_list (m : List Host.Cell) (l : List Byte) : ∀ a, (∀ i < l.length, cellGet m (a + i) = l.getD i 0) → cellsGet m a l.length = l := by
  induction l with
  | nil => intro a _; rfl
  | cons x r ih =>
    intro a h
    rw [List.length_cons, cellsGet, ih (a + 1) (fun i hi => by have := h (i + 1) (by simpa using hi); rw [show a + 1 + i = a + (i + 1) by omega, this]; simp)]
    have := h 0 (by simp)
    simpa using this

theorem fresh_length (f : Nat) : ∀ (s : State) (n : Nat), n = 8 * f → (s.freshBytes n f).1.length = n := by
  induction f with
  | zero => intro s n h; subst h; rfl
  | succ f ih =>
    intro s n h
    rw [State.freshBytes, if_neg (by omega)]
    simp only [List.length_append, natLe_length, ih s.fresh.2 (n - 8) (by omega)]
    omega

theorem fresh_same (f : Nat) : ∀ (s u : State) (n : Nat), s.seq = u.seq → (s.freshBytes n f).1 = (u.freshBytes n f).1 := by
  induction f with
  | zero => intro s u n h; rfl
  | succ f ih =>
    intro s u n h
    rw [State.freshBytes, State.freshBytes]
    split
    · rfl
    · have h1 : s.fresh.1 = u.fresh.1 := by simp only [State.fresh, h]
      have h2 : s.fresh.2.seq = u.fresh.2.seq := by simp only [State.fresh, h]
      simp only [h1, ih s.fresh.2 u.fresh.2 (n - 8) h2]

theorem areaBack : cellsGet mBack.hbm 0x10000 16384 = areaOf := by
  have hl : areaOf.length = 16384 := fresh_length 2048 _ 16384 rfl
  have := cells_list mBack.hbm areaOf 0x10000 (fun i hi => by
    show cellGet (_ ++ run 0x10000 areaOf) (0x10000 + i) = _
    have skip : ∀ (k : List (Nat × Byte)), (∀ p ∈ k, p.1 < 0x10000) → cellGet (k ++ run 0x10000 areaOf) (0x10000 + i) = cellGet (run 0x10000 areaOf) (0x10000 + i) := by
      intro k
      induction k with
      | nil => intro _; rfl
      | cons p r ih =>
        intro hk
        have := hk p (List.mem_cons_self ..)
        rw [List.cons_append, cellGet, tget, if_neg (by omega), if_neg (by omega), ← cellGet, ih (fun q hq => hk q (List.mem_cons_of_mem _ hq))]
    rw [skip _ (by decide), run_get _ _ _ hi])
  rwa [hl] at this

theorem savesBack : mBack.saveAreas rot1 slot0 = (mBack, 0, 0, 0x10000) := rfl

theorem stillBack : Still (mBack.saveSlot rot1 slot0 0) := ⟨rfl, rfl, rfl, rfl, rfl, rfl, rfl, rfl, rfl⟩

theorem agentBack : (mBack.saveSlot rot1 slot0 0).agentRead securitySource 3 0 0x10000 16384 = (mBack.saveSlot rot1 slot0 0, some areaOf) := by
  rw [State.agentRead, if_neg (by decide), State.agentMeet, if_pos (by decide +kernel), show BitVec.ofNat 64 0x10000 = 0x10000 from rfl, spanBack _ stillBack]
  simp only [bytesBack _ stillBack (agentWho securitySource 3 0 0x10000) rfl, cells_lines mBack.hbm 0x10000 256, show 64 * 256 = 16384 from rfl, areaBack]

theorem foundBack : (mBack.saveSlot rot1 slot0 0).saves.find? (fun p => decide (p.2.world = 0) && decide ((mBack.saveSlot rot1 slot0 0).areaBytes p.1 = areaOf)) = some (5, area0) := by
  rw [show (mBack.saveSlot rot1 slot0 0).saves = [(5, area0)] from rfl, List.find?_cons_of_pos]
  simp only [show (mBack.saveSlot rot1 slot0 0).areaBytes 5 = areaOf from fresh_same _ _ _ _ rfl, area0]
  decide

theorem handBack : (mBack.handOver rot1 slot0).stall = none := by
  rw [State.handOver, savesBack]
  dsimp only
  rw [State.restoreSlot, if_neg (by decide), agentBack]
  dsimp only
  rw [foundBack]
  decide +kernel

theorem test_meets_return_of_a_slot : ∃ s0 s1 s2 b, mBack.rotations = [rot1] ∧ rot1.polder = mBack.arg.n ∧ slot0 ∈ rot1.left ∧ (∀ e ∈ (mBack.core 0).buf, e.slot ≠ 0) ∧
    mBack.saveAreas rot1 slot0 = (s0, 0, 0, 0x10000) ∧ (mBack.handOver rot1 slot0).stall = none ∧ s1 = s0.saveSlot rot1 slot0 0 ∧
    s1.agentRead securitySource 3 0 0x10000 16384 = (s2, some b) ∧
    s2.saves.find? (fun p => decide (p.2.world = 0) && decide (s2.areaBytes p.1 = b)) = some (5, area0) ∧ area0.thread = some t0 ∧ t0.acq = none :=
  ⟨_, _, _, _, rfl, rfl, by decide, by decide, savesBack, handBack, rfl, agentBack, foundBack, rfl, rfl⟩

end Sys2Proof.Tests
end

section
/-!
PROOFS. The tree engine's commands: reads of node lines in a calm module, a command's run by its steps, and TRPIK (R324).
-/

namespace Sys2Proof.Proofs.TreeEngine

open Sys2Proof Sys2Proof.Machine Sys2Proof.Claims Sys2Proof.Laws

/-! ### Tables and sorted lists -/

theorem tget_eq_or_mem {α : Type} (d : α) (m : List (Nat × α)) (x : Nat) : tget d m x = d ∨ (x, tget d m x) ∈ m := by
  induction m with
  | nil => exact .inl rfl
  | cons p r ih =>
    obtain ⟨k, v⟩ := p
    rw [tget]
    split_ifs with h1 h2
    · subst h1; exact .inr (List.mem_cons_self ..)
    · exact .inl rfl
    · exact ih.imp id (List.mem_cons_of_mem _)

theorem mem_insertBy {α : Type} (le : α → α → Bool) (x y : α) (l : List α) : y ∈ insertBy le x l ↔ y = x ∨ y ∈ l := by
  induction l with
  | nil => simp [insertBy]
  | cons z r ih =>
    rw [insertBy]
    split_ifs
    · exact List.mem_cons
    · simp only [List.mem_cons, ih]; tauto

theorem mem_sortBy {α : Type} (le : α → α → Bool) (y : α) (l : List α) : y ∈ sortBy le l ↔ y ∈ l := by
  induction l with
  | nil => rfl
  | cons x r ih =>
    show y ∈ insertBy le x (sortBy le r) ↔ _
    rw [mem_insertBy, ih, List.mem_cons]

/-! ### A module in which a read of a line has nothing to wait for and nothing to lose -/

/-- Nothing at the homes makes an access wait (R57, R91, R94), no error is planted in a slice or at rest (R436), and the tag fields are
`tags`. -/
structure Clear (tags : List (Nat × LineTag)) (s : State) : Prop where
  retire     : s.retire = []
  spillFills : s.spillFills = []
  spillInvs  : s.spillInvs = []
  dirs       : ∀ l, (tget DirEntry.zero s.dirs l).state ≠ 2
  dramErr    : s.dramErr = []
  slices     : ∀ k, ∀ y ∈ tget [] s.slices k, y.ue = false
  tags       : s.lines = tags

theorem clear_of_calm {s : State} (hc : Calm s) (hm : CleanMemory s) : Clear s.lines s := by
  obtain ⟨-, hd, hs, -⟩ := hm
  change s.calm = true at hc
  simp only [State.calm, Bool.and_eq_true, List.isEmpty_iff, Bool.not_eq_true', List.any_eq_false, decide_eq_true_eq] at hc
  obtain ⟨⟨⟨h1, h2⟩, h3⟩, h4⟩ := hc
  refine ⟨h1, h2, h3, fun l => ?_, hd, hs, rfl⟩
  rcases tget_eq_or_mem DirEntry.zero s.dirs l with h | h
  · rw [h]; decide
  · exact h4 _ h

section
variable {tags : List (Nat × LineTag)} {s : State}

/-- Only these seven fields matter. -/
theorem Clear.of_fields {u : State} (h : Clear tags s) (h1 : u.retire = s.retire) (h2 : u.spillFills = s.spillFills) (h3 : u.spillInvs = s.spillInvs)
    (h4 : u.dirs = s.dirs) (h5 : u.dramErr = s.dramErr) (h6 : u.slices = s.slices) (h7 : u.lines = s.lines) : Clear tags u :=
  ⟨h1.trans h.retire, h2.trans h.spillFills, h3.trans h.spillInvs, h4 ▸ h.dirs, h5.trans h.dramErr, h6 ▸ h.slices, h7.trans h.tags⟩

theorem Clear.foldl {α : Type} (f : State → α → State) (l : List α) (hf : ∀ s, ∀ x ∈ l, Clear tags s → Clear tags (f s x)) (h : Clear tags s) :
    Clear tags (l.foldl f s) :=
  List.foldlRecOn l f h (fun s hs x hx => hf s x hx hs)

/-- A slice whose new lines bear no planted error. -/
theorem Clear.putSlice (h : Clear tags s) (sl : Nat) (ls : List SliceLine) (hl : ∀ y ∈ ls, y.ue = false) :
    Clear tags { s with slices := tput s.slices sl ls } := by
  refine ⟨h.retire, h.spillFills, h.spillInvs, h.dirs, h.dramErr, fun k => ?_, h.tags⟩
  show ∀ y ∈ tget [] (tput s.slices sl ls) k, _
  rw [tget_tput]
  split_ifs
  · exact hl
  · exact h.slices k

theorem Clear.dropL1 (h : Clear tags s) (line : Nat) (c : CoreIx) : Clear tags (s.dropL1 line c) := by
  unfold State.dropL1
  split_ifs
  · exact h.of_fields rfl rfl rfl rfl rfl rfl rfl
  · exact h

theorem Clear.invalidateL1 (h : Clear tags s) (line : Nat) (keep : Option CoreIx) : Clear tags (s.invalidateL1 line keep) := by
  unfold State.invalidateL1
  extract_lets e die mask marked victims kept s1 e' sl
  split_ifs
  · exact h
  have h1 : Clear tags s1 := h.foldl _ _ (fun s c _ hs => by
    split_ifs
    · exact hs
    · exact hs.dropL1 line c)
  refine ⟨h1.retire, h1.spillFills, h1.spillInvs, fun l => ?_, h1.dramErr, h1.slices, h1.tags⟩
  show (tget DirEntry.zero (tput s1.dirs line e') l).state ≠ 2
  rw [tget_tput]
  split_ifs
  · cases hk : kept <;> simp [e', hk, DirEntry.zero]
  · exact h1.dirs l

/-- The last write-back of a line without an uncorrectable error counts at most (R106). -/
theorem Clear.lastWriteBack (h : Clear tags s) (sl : Nat) (x : SliceLine) (hx : x.ue = false) : Clear tags (s.lastWriteBack sl x) := by
  unfold State.lastWriteBack
  simp only [hx, Bool.false_eq_true, if_false]
  split_ifs
  · exact h
  · exact h.of_fields rfl rfl rfl rfl rfl rfl rfl

theorem Clear.quarantineSlice (h : Clear tags s) (sl way : Nat) : Clear tags (s.quarantineSlice sl way) := by
  unfold State.quarantineSlice
  extract_lets ls gone s0 s1
  have h0 : Clear tags s0 := h.foldl _ _ (fun s x hx hs => hs.lastWriteBack sl x (h.slices sl x (List.mem_filter.1 hx).1))
  have h1 : Clear tags s1 := h0.foldl _ _ (fun s x _ hs => hs.invalidateL1 x.pa none)
  exact (h1.putSlice sl _ (fun y hy => h.slices sl y (List.mem_filter.1 hy).1)).of_fields rfl rfl rfl rfl rfl rfl rfl

theorem Clear.countSliceCe (h : Clear tags s) (sl way : Nat) : Clear tags (s.countSliceCe sl way) := by
  unfold State.countSliceCe
  extract_lets r recent s1
  have h1 : Clear tags s1 := h.of_fields rfl rfl rfl rfl rfl rfl rfl
  split_ifs
  · exact h1.quarantineSlice sl way
  · exact h1

theorem Clear.evict (h : Clear tags s) (sl : Nat) (x : SliceLine) (hx : x.ue = false) : Clear tags (s.evict sl x) := by
  unfold State.evict
  extract_lets s1 s2 s3 s4
  have h1 : Clear tags s1 := h.invalidateL1 x.pa none
  have h2 : Clear tags s2 := h1.putSlice sl _ (fun y hy => h1.slices sl y (List.mem_filter.1 hy).1)
  have h3 : s3 = s2 := by simp [s3, hx]
  have h4 : Clear tags s4 := by
    simp only [s4, hx, h3, Bool.false_eq_true, if_false]
    split_ifs
    · exact h2.countSliceCe sl x.way
    · exact h2
  rw [if_neg (by simp [h4.dramErr])]
  exact h4

/-- The line that a fill evicts is one of its slice. -/
theorem fillVictim_mem {line slot : Nat} {x : SliceLine} (h : s.fillVictim line slot = some x) : x ∈ tget [] s.slices (s.sliceNo line) := by
  unfold State.fillVictim evictee at h
  exact (List.mem_filter.1 (List.mem_filter.1 (List.mem_of_getLast? h)).1).1

theorem Clear.fillSlice (h : Clear tags s) (line slot : Nat) : Clear tags (s.fillSlice line slot) := by
  unfold State.fillSlice
  extract_lets sl new
  have room : ∀ {u : State} (w : Nat), Clear tags u → Clear tags { u with slices := tput u.slices sl (new w :: tget [] u.slices sl) } :=
    fun w hu => hu.putSlice sl _ (List.forall_mem_cons.2 ⟨rfl, hu.slices sl⟩)
  split
  next w _ => exact room w h
  next =>
    split
    next x hx =>
      have he := h.evict sl x (h.slices _ x (fillVictim_mem hx))
      dsimp only
      split_ifs
      · exact he
      · exact room x.way he
    next => exact h

/-- A line with a sound tag field brought to its home slice for a read (R438). -/
theorem Clear.touchLine (h : Clear tags s) (line slot : Nat) (hs : (s.tag line).sound = true) : Clear tags (s.touchLine line slot false).1 := by
  have front : ∀ y : SliceLine, y.ue = false → Clear tags
      { s with slices := tput s.slices (s.sliceNo line) (y :: (tget [] s.slices (s.sliceNo line)).filter (fun z => z.pa ≠ line)) } := fun y hy =>
    h.putSlice _ _ (List.forall_mem_cons.2 ⟨hy, fun z hz => h.slices _ z (List.mem_filter.1 hz).1⟩)
  unfold State.touchLine
  dsimp only
  split
  next x hx =>
    have hu : x.ue = false := h.slices _ x (List.mem_of_find?_eq_some hx)
    rw [if_neg (by simp), if_neg (by simp [hu])]
    split_ifs
    · exact (front { x with ue := false, ce := false } rfl).countSliceCe _ _
    · exact front x hu
  next =>
    rw [if_neg (by simp [h.dramErr, hs])]
    have undamaged : Clear tags { s with dramErr := s.dramErr.filter (fun l => l ≠ line) } :=
      ⟨h.retire, h.spillFills, h.spillInvs, h.dirs, by simp [h.dramErr], h.slices, h.tags⟩
    exact undamaged.fillSlice line slot

/-- No request waits at a home of such a module. -/
theorem Clear.homeMeet (h : Clear tags s) (w : Who) (c : CoreIx) (pa : Nat) (wr : Bool) : s.homeMeet w c pa wr = none := by
  have busy : ∀ l, s.lineBusy l = false := fun l => by simp [State.lineBusy, h.spillFills, h.spillInvs]
  have quiet : ∀ l, s.overflowed l = false := fun l => decide_eq_false (h.dirs l)
  simp [State.homeMeet, State.remapping, h.retire, State.spillMeet, busy, quiet]

theorem homeRead_state (w : Who) (pa n : Nat) (hr : Readable s w.world (lineOf pa)) :
    (s.homeRead w pa n).1 = (s.touchLine (lineOf pa) w.slot false).1 := by
  obtain ⟨hm, hc, hp, -⟩ := hr
  simp [State.homeRead, hc, hp, logAll_none _ _ _ _ ((cacheOnly_touchLine s (lineOf pa) w.slot false).monitors.trans hm)]

/-- A read at its home of a line that its world owns, under no monitor (R40): its bytes, and a module that is as clear as before. -/
theorem Clear.homeRead (h : Clear tags s) (w : Who) (pa n : Nat) (hr : Readable s w.world (lineOf pa)) :
    ∃ u, s.homeRead w pa n = (u, .ok (cellsGet s.hbm pa n)) ∧ CacheOnly s u ∧ Clear tags u := by
  obtain ⟨u, hread, hu⟩ := homeRead_readable s w pa n hr
  have hstate : u = (s.touchLine (lineOf pa) w.slot false).1 := by rw [← homeRead_state w pa n hr, hread]
  obtain ⟨-, -, -, -, -, hsound⟩ := hr
  exact ⟨u, hread, hu, hstate ▸ h.touchLine _ _ hsound⟩
end

/-! ### The steps of a command -/

theorem treeRun_bind {α β : Type} (m : TreeM α) (f : α → TreeM β) (c : TreeRun) : (m >>= f) c = ExceptT.bindCont f (m c).1 (m c).2 := rfl

theorem treeRun_bind_ok {α β : Type} (m : TreeM α) (f : α → TreeM β) (c c1 : TreeRun) (x : α) (h : m c = (.ok x, c1)) : (m >>= f) c = f x c1 := by
  rw [treeRun_bind, h]; rfl

theorem treeRun_bind_error {α β : Type} (m : TreeM α) (f : α → TreeM β) (c c1 : TreeRun) (e : Nat) (h : m c = (.error e, c1)) :
    (m >>= f) c = (.error e, c1) := by
  rw [treeRun_bind, h]; rfl

/-- A pool whose nodes a command can read in state `s`: it has a header, and every line is its world's and sound, under no monitor. -/
def Legible (s : State) (k : PoolCtx) : Prop := s.monitors = [] ∧ 0 < k.pool.pages ∧ k.pool.world = k.who.world ∧ PoolLines s k.pool

/-- A command that began in state `s` and has only read: what it holds are nodes as they stood there, it has nothing to write, and the module
differs only in its caches. -/
structure Reading (s : State) (k : PoolCtx) (c : TreeRun) : Prop where
  caches  : CacheOnly s c.s
  clear   : Clear s.lines c.s
  lines   : ∀ q ∈ c.lines, q.2 = nodeAt s k.pool q.1
  unwrote : c.dirty = []

/-- A part of a command answers `x` wherever it runs in a command that has only read, and only reads. -/
def Answers (s : State) (k : PoolCtx) {α : Type} (m : TreeM α) (x : Except Nat α) : Prop :=
  ∀ c, Reading s k c → ∃ c', m c = (x, c') ∧ Reading s k c'

section
variable {s : State} {k : PoolCtx} {α β : Type}

theorem Answers.pure (x : α) : Answers s k (Pure.pure x) (.ok x) := fun c hc => ⟨c, rfl, hc⟩

theorem Answers.throw (e : Nat) : Answers s k (MonadExcept.throw e : TreeM α) (.error e) := fun c hc => ⟨c, rfl, hc⟩

theorem Answers.bind {m : TreeM α} {f : α → TreeM β} {x : α} {y : Except Nat β} (hm : Answers s k m (.ok x)) (hf : Answers s k (f x) y) :
    Answers s k (m >>= f) y := fun c hc => by
  obtain ⟨c1, e1, h1⟩ := hm c hc
  rw [treeRun_bind_ok m f c c1 x e1]
  exact hf c1 h1

theorem Answers.bind_error {m : TreeM α} {f : α → TreeM β} {e : Nat} (hm : Answers s k m (.error e)) : Answers s k (m >>= f) (.error e) := fun c hc => by
  obtain ⟨c1, e1, h1⟩ := hm c hc
  exact ⟨c1, treeRun_bind_error m f c c1 e e1, h1⟩

theorem Answers.need {b : Bool} (e : Nat) (h : b = true) : Answers s k (treeNeed b e) (.ok ()) := by
  subst h; exact .pure ()

theorem Answers.need_error {b : Bool} (e : Nat) (h : b = false) : Answers s k (treeNeed b e) (.error e) := by
  subst h; exact .throw e

/-- A loop over a list whose body answers at each element. -/
theorem Answers.foldlM {f : β → α → TreeM β} (g : β → α → β) (l : List α) (hf : ∀ b, ∀ a ∈ l, Answers s k (f b a) (.ok (g b a))) (b : β) :
    Answers s k (l.foldlM f b) (.ok (l.foldl g b)) := by
  induction l generalizing b with
  | nil => exact .pure b
  | cons a r ih =>
    rw [List.foldlM_cons, List.foldl_cons]
    exact (hf b a (List.mem_cons_self ..)).bind (ih (fun b x hx => hf b x (List.mem_cons_of_mem _ hx)) (g b a))

/-- The line of a node can still be read in any module that has changed only in its caches since `s`. -/
theorem Legible.readable (hl : Legible s k) {u : State} (hu : CacheOnly s u) (hc : Clear s.lines u) {i : Nat} (hi : i < 1024 * k.pool.pages) :
    Readable u k.who.world (lineOf (k.pool.line i)) := by
  obtain ⟨hm, -, hw, hp, -⟩ := hl
  obtain ⟨hcase, hpoison, hsound, haligned⟩ := hp i hi
  have hline : lineOf (k.pool.line i) = k.pool.line i := by unfold lineOf; omega
  have htag : u.tag (k.pool.line i) = s.tag (k.pool.line i) := by unfold State.tag; rw [hc.tags]
  rw [hline]
  refine ⟨hu.monitors.trans hm, ?_, by rw [htag, hpoison], fun y hy _ => hc.slices _ y hy, by simp [hc.dramErr], by rw [htag, hsound]⟩
  rw [hu.lineCase, ← hw, hcase]

/-- READING A NODE answers its bytes (R316). -/
theorem readNode_answers (hl : Legible s k) {i : Nat} (hi : i < 1024 * k.pool.pages) : Answers s k (readNode k i) (.ok (nodeAt s k.pool i)) := fun c hc => by
  obtain ⟨u, hread, hcu, hcl⟩ := hc.clear.homeRead k.who (k.pool.line i) 64 (hl.readable hc.caches hc.clear hi)
  have hnode : cellsGet c.s.hbm (k.pool.line i) 64 = nodeAt s k.pool i := by rw [hc.caches.hbm, cellsGet_map]; rfl
  rw [hnode] at hread
  unfold readNode
  rw [treeRun_bind_ok get _ c c c rfl]
  cases hf : c.lines.find? (fun p => p.1 = i) with
  | some q =>
    have hq : q.1 = i := by simpa using List.find?_some hf
    refine ⟨c, ?_, hc⟩
    rw [← hq, ← hc.lines q (List.mem_of_find?_eq_some hf)]
    rfl
  | none =>
    refine ⟨{ c with s := u, lines := (i, nodeAt s k.pool i) :: c.lines }, ?_, hc.caches.trans hcu, hcl, ?_, hc.unwrote⟩
    · have hmeet : treeMeet k (k.pool.line i) false c = (.ok (), c) := by
        unfold treeMeet
        rw [treeRun_bind_ok get _ c c c rfl, hc.clear.homeMeet]; rfl
      dsimp only
      rw [treeRun_bind_ok _ _ c c () hmeet, hread]; rfl
    · exact List.forall_mem_cons.2 ⟨rfl, hc.lines⟩

/-- A COMMAND THAT ONLY READS ends with its answer and leaves all but the caches as it was (R316). -/
theorem Answers.runTree {m : TreeM α} {x : Except Nat α} (hm : Answers s k m x) (hc : Clear s.lines s) :
    ∃ u, runTree s k m = (u, x) ∧ CacheOnly s u := by
  obtain ⟨c, hrun, hread⟩ := hm { s := s, lines := [], dirty := [] } ⟨.refl s, hc, by simp, rfl⟩
  refine ⟨c.s, ?_, hread.caches⟩
  unfold Machine.runTree
  rw [hrun]
  cases x with
  | error e => rfl
  | ok x =>
    have hcommit : commitTree k c = (c.s, .ok ()) := by
      unfold commitTree
      rw [hread.unwrote]; rfl
    dsimp only
    rw [hcommit]
end

/-! ### Taking the only command present -/

theorem bitsOf_treeHead {n code arg : Nat} (hn : n < 4) (hcode : code < 64) (harg : arg < 2 ^ 32) :
    bitsOf (treeHead n code arg) 63 62 = n ∧ bitsOf (treeHead n code arg) 61 56 = code ∧ bitsOf (treeHead n code arg) 55 32 = 0 ∧
      bitsOf (treeHead n code arg) 31 0 = arg := by
  simp only [bitsOf, treeHead, BitVec.toNat_ofNat]
  omega

section
variable {s : State} {h : CoreIx} {r : SlotRef} {t : Thread} {x : Record}

/-- A command that is present has its older work done, and without remote-data copies its seal's release waits for nothing (R118, R315). -/
theorem sealReady_of_only (ho : OnlyCommand s h r t x) (wide : Bool) : s.sealReady r t x wide = true := by
  obtain ⟨-, hpresent, -, -, -, hrdcs⟩ := ho
  have hmem : (r, t, x) ∈ treePresent s h := by rw [hpresent]; exact List.mem_singleton_self _
  unfold treePresent at hmem
  obtain ⟨c, -, hactive⟩ := List.mem_flatMap.1 (List.mem_filter.1 ((mem_sortBy ..).1 hmem)).1
  have hdone : s.olderDone r x.stamp = true := (List.mem_filter.1 hactive).2
  simp [State.sealReady, State.releaseReady, hdone, State.syncMeet, hrdcs]

theorem sealDone_of_only (ho : OnlyCommand s h r t x) (wide : Bool) : s.sealDone r t wide = s := by
  obtain ⟨-, -, -, -, -, hrdcs⟩ := ho
  simp [State.sealDone, State.completeRelease, State.rdcSync, hrdcs]

theorem treeServe_of_only (ho : OnlyCommand s h r t x) : treeServe s h (treeEvent (x.words.headD 0)) = takeTree s h r t x := by
  obtain ⟨-, hpresent, -⟩ := ho
  simp [treeServe, hpresent]

/-- The word that a command posts: its value, or its status (R314). -/
def postedWord : Except Nat Word → Word
  | .ok w => w
  | .error e => treeError e

theorem postTree_thread {u : State} (ht : u.thread? r = some t) (w : Word) : (postTree u r x [w]).thread? r = some (tookTree t r x w) := by
  unfold postTree
  rw [thread_modThread_same, ht]
  simp [tookTree, treeFar]

theorem postTree_sameMemory {u : State} (hu : CacheOnly s u) (l : List Word) : SameMemory s (postTree u r x l) := by
  refine ⟨fun c a => ?_, fun c a => ?_, fun a => ?_⟩
  · rw [postTree, mem_modThread, hu.mem]
  · rw [postTree, scale_modThread, hu.scale]
  · simp [postTree, hu.hbm]

/-- A COMMAND OF ONE WORD THAT ONLY READS posts its word, and memory is as before (R313, R314). -/
theorem takeTree_of_only (ho : OnlyCommand s h r t x) {u : State} {y : Except Nat Word} (hy : y ≠ .error treeWaits)
    (hcmd : treeCommand s h r t x = (u, y.map (fun w => [w]))) (hu : CacheOnly s u) :
    (takeTree s h r t x).thread? r = some (tookTree t r x (postedWord y)) ∧ SameMemory s (takeTree s h r t x) := by
  have posted : takeTree s h r t x = (postTree u r x [postedWord y]).checkRegion t.region := by
    unfold takeTree
    rw [sealReady_of_only ho, sealDone_of_only ho, hcmd]
    cases y with
    | ok w => rfl
    | error e =>
      have he : e ≠ treeWaits := fun h => hy (by rw [h])
      simp [Except.map, he, postedWord]
  have hr := ag_checkRegion (postTree u r x [postedWord y]) t.region
  obtain ⟨-, -, ht, -⟩ := ho
  rw [posted, hr.thread]
  exact ⟨postTree_thread ((hu.thread r).trans ht) _, same_of_ag (postTree_sameMemory hu _) hr⟩
end

/-! ### TRPIK (R324) -/

/-- The child that TRPIK keeps of the one it has and the next: the next only where its N is larger. -/
def moreVisited (s : State) (p : Pool) (best : Option (Nat × List Byte)) (c : Nat) : Option (Nat × List Byte) :=
  match best with
  | none => some (c, nodeAt s p c)
  | some (d, y) => if nodeN y < nodeN (nodeAt s p c) then some (c, nodeAt s p c) else some (d, y)

section
variable {s : State} {p : Pool} {c : Nat}

/-- A child that has more visits than the one kept so far takes its place. -/
theorem moreVisited_takes {best : Option (Nat × List Byte)} (h : ∀ q ∈ best, nodeN q.2 < nodeN (nodeAt s p c)) :
    moreVisited s p best c = some (c, nodeAt s p c) := by
  cases best with
  | none => rfl
  | some q => exact if_pos (h q rfl)

/-- Among children that all have fewer visits than `c`, the one kept has fewer. -/
theorem foldl_moreVisited_lt (l : List Nat) (hl : ∀ d ∈ l, nodeN (nodeAt s p d) < nodeN (nodeAt s p c)) (best : Option (Nat × List Byte))
    (h : ∀ q ∈ best, nodeN q.2 < nodeN (nodeAt s p c)) : ∀ q ∈ l.foldl (moreVisited s p) best, nodeN q.2 < nodeN (nodeAt s p c) := by
  refine List.foldlRecOn (motive := fun best : Option (Nat × List Byte) => ∀ q ∈ best, nodeN q.2 < nodeN (nodeAt s p c)) l _ h (fun best hb d hd q hq => ?_)
  have new := hl d hd
  cases best with
  | none => cases hq; exact new
  | some y =>
    have old := hb y rfl
    simp only [moreVisited] at hq
    split_ifs at hq <;> cases hq
    · exact new
    · exact old

/-- A child is kept past those that have no more visits: ties go to the lower index. -/
theorem foldl_moreVisited_keeps (l : List Nat) (hl : ∀ d ∈ l, nodeN (nodeAt s p d) ≤ nodeN (nodeAt s p c)) :
    l.foldl (moreVisited s p) (some (c, nodeAt s p c)) = some (c, nodeAt s p c) :=
  foldl_id _ l _ (fun d hd => if_neg (Nat.not_lt.2 (hl d hd)))

/-- THE MOST VISITED of a range of children, the lowest of those that tie. -/
theorem foldl_moreVisited_range {first count : Nat} (hlo : first ≤ c) (hhi : c < first + count)
    (hbefore : ∀ d, first ≤ d → d < c → nodeN (nodeAt s p d) < nodeN (nodeAt s p c))
    (hafter : ∀ d, c < d → d < first + count → nodeN (nodeAt s p d) ≤ nodeN (nodeAt s p c)) :
    ((List.range count).map (fun j => first + j)).foldl (moreVisited s p) none = some (c, nodeAt s p c) := by
  have parts : (List.range count).map (fun j => first + j) = List.range' first (c - first) ++ c :: List.range' (c + 1) (first + count - (c + 1)) := by
    have split := List.range'_append_1 (s := first) (m := c - first) (n := first + count - (c + 1) + 1)
    rw [show first + (c - first) = c by omega, show c - first + (first + count - (c + 1) + 1) = count by omega, List.range'_succ] at split
    rw [← List.range'_eq_map_range, split]
  rw [parts, List.foldl_append, List.foldl_cons, moreVisited_takes, foldl_moreVisited_keeps]
  · intro d hd
    obtain ⟨h1, h2⟩ := List.mem_range'_1.1 hd
    exact hafter d (by omega) (by omega)
  · refine foldl_moreVisited_lt _ (fun d hd => ?_) none (by simp)
    obtain ⟨h1, h2⟩ := List.mem_range'_1.1 hd
    exact hbefore d h1 (by omega)
end

section
variable {s : State} {k : PoolCtx} {p : Pool} {n : Nat}

theorem indexOk_iff {i : Nat} : p.indexOk i = true ↔ 1 ≤ i ∧ i < 1024 * p.pages := decide_eq_true_iff

theorem canFollow_iff {b : List Byte} {i : Nat} :
    (p.indexOk i && decide (i < headBump b)) = true ↔ 1 ≤ i ∧ i < 1024 * p.pages ∧ i < fieldAt b 20 4 := by
  rw [Bool.and_eq_true, indexOk_iff, decide_eq_true_eq, and_assoc]; rfl

/-- VALIDITY (R309) is decided from the header and the node. -/
theorem validNode_answers (hl : Legible s k) {b : Bool} (hb : b = true ↔ Valid s k.pool n) :
    Answers s k (validNode k n) (.ok b) := by
  obtain ⟨-, hpages, -, -⟩ := id hl
  unfold validNode
  refine (readNode_answers hl (by omega)).bind ?_
  by_cases hin : 1 ≤ n ∧ n < 1024 * k.pool.pages ∧ n < fieldAt (nodeAt s k.pool 0) 20 4
  · rw [if_pos (canFollow_iff.2 hin)]
    obtain ⟨hpos, hlt, hbump⟩ := hin
    refine (readNode_answers hl hlt).bind ?_
    have hflag : flagOn (nodeAt s k.pool n) 15 = b := by
      rw [Bool.eq_iff_iff, hb, Valid]
      simp only [hpos, hlt, hbump, true_and]
    rw [hflag]
    exact .pure b
  · rw [if_neg (mt canFollow_iff.1 hin)]
    have hfalse : b = false := Bool.eq_false_iff.2 (fun h => by
      obtain ⟨hpos, hlt, hbump, -⟩ := hb.1 h
      exact hin ⟨hpos, hlt, hbump⟩)
    rw [hfalse]
    exact .pure false

theorem lt_of_valid (hv : Valid s p n) : n < 1024 * p.pages := hv.2.1

theorem pickChild_invalid (hl : Legible s k) (hv : ¬Valid s k.pool n) : Answers s k (pickChild k n) (.error 4) :=
  (validNode_answers hl (b := false) (by simp [hv])).bind (Answers.need_error 4 rfl).bind_error

theorem pickChild_unexpanded (hl : Legible s k) (hv : Valid s k.pool n) (hx : flagOn (nodeAt s k.pool n) 0 = false) :
    Answers s k (pickChild k n) (.error 5) :=
  (validNode_answers hl (b := true) (by simp [hv])).bind ((Answers.need 4 rfl).bind ((readNode_answers hl (lt_of_valid hv)).bind (Answers.need_error 5 hx).bind_error))

theorem childRange_answers {first count : Nat} (hc : Children s k.pool n first count) :
    Answers s k (childRange k (nodeAt s k.pool n)) (.ok ((List.range count).map (fun j => first + j))) := by
  obtain ⟨-, rfl, rfl, hpos, hone, hend⟩ := hc
  refine (Answers.need 5 (by simpa using hpos.ne')).bind ((Answers.need 4 ?_).bind (.pure _))
  rw [Bool.and_eq_true, indexOk_iff, decide_eq_true_eq, Pool.capacity]
  omega

/-- TRPIK answers the action and the index of the most visited child. -/
theorem pickChild_answers {first count c : Nat} (hl : Legible s k) (hv : Valid s k.pool n) (hc : Children s k.pool n first count)
    (hbest : ((List.range count).map (fun j => first + j)).foldl (moreVisited s k.pool) none = some (c, nodeAt s k.pool c)) :
    Answers s k (pickChild k n) (.ok (BitVec.ofNat 64 (nodeAction (nodeAt s k.pool c) * 2 ^ 32 + c))) := by
  refine (validNode_answers hl (b := true) (by simp [hv])).bind ((Answers.need 4 rfl).bind ((readNode_answers hl (lt_of_valid hv)).bind
    ((Answers.need 5 hc.1).bind ((childRange_answers hc).bind ((Answers.foldlM (moreVisited s k.pool) _ ?_ none).bind ?_)))))
  · intro best d hd
    obtain ⟨j, hj, rfl⟩ := List.mem_map.1 hd
    have hin : first + j < 1024 * k.pool.pages := by
      obtain ⟨-, -, -, -, -, hend⟩ := hc
      have := List.mem_range.1 hj
      omega
    refine (readNode_answers hl hin).bind ?_
    cases best <;> exact .pure _
  · rw [hbest]; exact .pure _
end

section
variable {s : State} {h : CoreIx} {r : SlotRef} {t : Thread} {x : Record} {p : Pool} {base : Word} {n : Nat}

/-- A command's view of its pool. -/
abbrev ctxOf (h : CoreIx) (r : SlotRef) (t : Thread) (p : Pool) : PoolCtx := { pool := p, who := treeWho h t r.slot }

theorem legible_of_onPool (ho : OnPool s h r t x p) : Legible s (ctxOf h r t p) := by
  obtain ⟨-, -, hworld, hpages, -, ⟨hmon, -⟩, hlines, -⟩ := ho
  exact ⟨hmon, hpages, hworld, hlines⟩

theorem clear_of_onPool (ho : OnPool s h r t x p) : Clear s.lines s := by
  obtain ⟨⟨-, -, -, -, hcalm, -⟩, -, -, -, -, hclean, -, -⟩ := ho
  exact clear_of_calm hcalm hclean

/-- A TRPIK's record on a pool is well-formed and runs `pickChild` (R311, R316). -/
theorem treeCommand_pick (ho : OnPool s h r t x p) (hx : x.words = [treeHead 1 4 n, base]) (hn : n < 2 ^ 32) {u : State} {y : Except Nat Word}
    (hrun : runTree s (ctxOf h r t p) (pickChild (ctxOf h r t p) n) = (u, y)) :
    treeCommand s h r t x = (u, y.map (fun w => [w])) := by
  obtain ⟨⟨-, -, -, hfail, -, -⟩, hfind, -, -, -, -, -, hspoilt, hmapped⟩ := ho
  obtain ⟨hcount, hcode, hzero, harg⟩ := bitsOf_treeHead (n := 1) (code := 4) (by omega) (by omega) hn
  rw [hx] at hfind
  have hnow : s.poolNow h p = (s, p) := by simp [State.poolNow, hmapped]
  have hpool : poolCommand s h (ctxOf h r t p) r.core [treeHead 1 4 n, base] = (u, y.map (fun w => [w])) := by
    simp [poolCommand, hcode, harg, hrun]
  have hbad : treeRecordBad x.words = false := by simp [treeRecordBad, hx, hcount, hcode, hzero]
  unfold treeCommand
  dsimp only
  rw [if_neg (by simp [hfail]), if_neg (by simp [hbad]), hx, List.headD_cons, hcode, if_neg (by decide), if_neg (by simp), hfind]
  dsimp only
  rw [hnow, hpool, hspoilt]
  cases y <;> rfl

/-- A TRPIK posts what `pickChild` answers, and memory is as before. -/
theorem pick_posts (ho : OnPool s h r t x p) (hx : x.words = [treeHead 1 4 n, base]) (hn : n < 2 ^ 32) {y : Except Nat Word} (hy : y ≠ .error treeWaits)
    (ha : Answers s (ctxOf h r t p) (pickChild (ctxOf h r t p) n) y) :
    ∃ u, exec .treeCmdPick s = .next u ∧ u.thread? r = some (tookTree t r x (postedWord y)) ∧ SameMemory s u := by
  obtain ⟨u, hrun, hu⟩ := ha.runTree (clear_of_onPool ho)
  have hcore : s.arg.core = h := ho.1.1
  have hevent : treeEvent (x.words.headD 0) = .treeCmdPick := by
    rw [hx, List.headD_cons, treeEvent, (bitsOf_treeHead (by omega) (by omega) hn).2.1]
    rfl
  refine ⟨takeTree s h r t x, ?_, takeTree_of_only ho.1 hy (treeCommand_pick ho hx hn hrun) hu⟩
  show Host.Outcome.next (treeServe s s.arg.core .treeCmdPick) = _
  rw [hcore, ← hevent, treeServe_of_only ho.1]
end

/-- Settles O37: a TRPIK's run is followed step by step in a module whose reads change only caches; its loop over the children keeps the first
with the largest N. -/
theorem theMostVisitedChildIsPicked : Obligations.TheMostVisitedChildIsPicked := by
  refine ⟨?_, ?_⟩
  · intro s h r t x p base n first count c ho hx hn hv hc hlo hhi hbefore hafter
    exact pick_posts ho hx hn (by simp) (pickChild_answers (legible_of_onPool ho) hv hc (foldl_moreVisited_range hlo hhi hbefore hafter))
  · intro s h r t x p base n ho hx hn
    exact ⟨fun hv => pick_posts ho hx hn (by decide) (pickChild_invalid (legible_of_onPool ho) hv),
      fun hv hx0 => pick_posts ho hx hn (by decide) (pickChild_unexpanded (legible_of_onPool ho) hv hx0)⟩

end Sys2Proof.Proofs.TreeEngine
end

section
/-!
PROOFS. Power declarations: PWRD against the tokens that a region's children leave (R362).
-/

namespace Sys2Proof.Proofs.Power

open Sys2Proof Sys2Proof.Machine Sys2Proof.Claims Sys2Proof.Laws

/-! ### A retirement after the regions changed -/

/-- A retirement changes no byte of memory. -/
theorem sameMemory_retire (s : State) (t : Thread) (reads : List Reg) (marked : List (Bool × Reg)) (dest : Option (Reg × Word)) (n : Nat) :
    SameMemory s (retire s t reads marked dest n) :=
  ⟨fun c a => by rw [mem_retire], fun c a => by rw [scale_retire], fun a => by rw [retire_hbm]⟩

/-- Regions hold no byte of memory. -/
theorem sameMemory_modRegion (s : State) (id : Nat) (f : Region → Region) : SameMemory s (s.modRegion id f) :=
  same_of_cores _ _ (State.modRegion_cores s id f) (State.modRegion_hbm s id f)

theorem sameMemory_trans {s u v : State} (h : SameMemory s u) (k : SameMemory u v) : SameMemory s v := by
  obtain ⟨hmem, hscale, hhbm⟩ := h
  obtain ⟨kmem, kscale, khbm⟩ := k
  exact ⟨fun c a => (kmem c a).trans (hmem c a), fun c a => (kscale c a).trans (hscale c a), fun a => (khbm a).trans (hhbm a)⟩

theorem thread_modRegion (s : State) (id : Nat) (f : Region → Region) (q : SlotRef) :
    (s.modRegion id f).thread? q = s.thread? q := rfl

theorem modRegion_regions (s : State) (id : Nat) (f : Region → Region) :
    (s.modRegion id f).regions = s.regions.map (fun r => if r.id = id then f r else r) := rfl

/-! ### PWRD -/

/-- A region whose crew of one role declares another peak. -/
def redeclare (role v : Nat) (g : Region) : Region :=
  { g with roles := g.roles.map (fun k => if k.role = role then { k with power := v } else k) }

section
variable {s : State} {t : Thread} {d a : Reg} {ma : Bool} {x : Word} {g : Region}

/-- PWRD of a declaration that the headgate admits (R361, R362) changes its region, then retires with 0. -/
theorem exec_pwrd_admitted (ht : Acts s t) (hx : readReg s t [] a = .ok x) (hd : checkDest s t d = .ok ())
    (hg : s.region? t.region = some g) (h : x.toNat ≤ 65535 ∧ powerSum g t.role x.toNat ≤ s.tokensOf g) :
    exec (.pwrd d a ma) s = .next (retire (s.modRegion g.id (redeclare t.role x.toNat)) t [a] [(ma, a)] (some (d, 0)) 4) := by
  refine issueLen_ok _ _ _ t _ ht ?_
  simp only [hx, hd, hg, bind, Except.bind, if_pos h]
  rfl

/-- PWRD of a declaration that is not admitted retires with 1. -/
theorem exec_pwrd_rejected (ht : Acts s t) (hx : readReg s t [] a = .ok x) (hd : checkDest s t d = .ok ())
    (hg : s.region? t.region = some g) (h : ¬(x.toNat ≤ 65535 ∧ powerSum g t.role x.toNat ≤ s.tokensOf g)) :
    exec (.pwrd d a ma) s = .next (retire s t [a] [(ma, a)] (some (d, 1)) 4) := by
  refine issueLen_ok _ _ _ t _ ht ?_
  simp only [hx, hd, hg, bind, Except.bind, if_neg h]
  rfl
end

theorem decode_pwrd_word : decode [0x38144018] = .ok (.pwrd (.g 5) (.g 4) false, 4) := by decide

/-- Settles O14: an admitted declaration changes the regions alone before PWRD retires with 0; the two ways out of admission are the two
conditions under which it retires with 1. -/
theorem powerIsRedeclaredWithinTheTokens : Obligations.PowerIsRedeclaredWithinTheTokens := by
  refine ⟨decode_pwrd_word, fun s t d a ma x g ht hx hd hg => ⟨fun hmax hsum => ?_, fun hout => ?_⟩⟩
  · refine ⟨_, exec_pwrd_admitted ht hx hd hg ⟨hmax, hsum⟩, thread_retire .., fun q hq => ?_,
      sameMemory_trans (sameMemory_modRegion ..) (sameMemory_retire ..), ?_, ?_, ?_, ?_⟩
    · exact (thread_retire_other (s.modRegion _ _) _ _ _ _ _ _ hq).trans (thread_modRegion ..)
    · simp
    · simp
    · simp
    · rw [retire_regions, modRegion_regions]; rfl
  · refine leaves_retire _ _ _ _ _ _ _ _ (exec_pwrd_rejected ht hx hd hg fun ⟨hmax, hsum⟩ => ?_)
    exact hout.elim (Nat.not_lt_of_le hmax) (Nat.not_lt_of_le hsum)

end Sys2Proof.Proofs.Power
end

section
/-!
PROOFS. Writes of the host to the headgate window: the order of posted writes (R123), and the functions that accept no launch (R457).
-/

namespace Sys2Proof.Proofs.HostLaunch

open Sys2Proof Sys2Proof.Machine Sys2Proof.Claims

section
variable {s : State}

/-- The model's test of the agenda is the order of the host's writes (R123). -/
theorem postedBefore_eq_false_iff : s.postedBefore s.arg.slot = false ↔ InOrder s := by
  simp [State.postedBefore, InOrder]

/-- A write of 64 bytes at offset 0 of BAR0 is a launch record in the headgate window (R332, R455). -/
theorem writeBar0_window (k : Nat) {data : List Byte} (hlen : data.length = 64) :
    s.writeBar0 k 0 data = { s with urgent := s.urgent ++ [{ what := .hostLaunch, arg := { n := k, data := data } }] } :=
  if_pos ⟨rfl, hlen⟩

/-- A posted write to BAR0 whose turn has come is performed. -/
theorem exec_hostPostedWrite_bar0 (ho : InOrder s) (hbar : s.arg.core = 1) :
    exec .hostPostedWrite s = .next (s.writeBar0 s.arg.n s.arg.m s.arg.data) := by
  show execHostPostedWrite s = _
  simp [execHostPostedWrite, postedBefore_eq_false_iff.2 ho, hbar]

/-- A function that is not enabled or not bound accepts no launch. -/
theorem exec_hostLaunch_discarded (ho : InOrder s) (hlen : s.arg.data.length = 64) (hmax : s.arg.n ≤ 16) (hn : s.arg.n ≠ 0)
    (hf : (fnAt s s.arg.n).enabled = false ∨ (fnAt s s.arg.n).bound = none) :
    exec .hostLaunch s = .next (s.emit (.discardedLaunch s.arg.n)) := by
  have inTurn : ¬s.postedBefore s.arg.slot = true := Bool.eq_false_iff.1 (postedBefore_eq_false_iff.2 ho)
  have record : ¬(s.arg.data.length ≠ 64 ∨ 16 < s.arg.n) := by omega
  show execHostLaunch s = _
  unfold execHostLaunch
  dsimp only
  rw [if_neg inTurn, if_neg record, if_pos ⟨hn, hf⟩]
end

/-- Settles O47: the write becomes a launch at the headgate, and the launch of a function that is not bound leaves a notice in the output alone. -/
theorem unboundFunctionsLaunchNothing : Obligations.UnboundFunctionsLaunchNothing := by
  intro s ho hn hmax hbound hlen
  refine ⟨fun hbar hm => ?_, exec_hostLaunch_discarded ho hlen hmax hn (.inr hbound), State.emit_launches s _, rfl⟩
  rw [exec_hostPostedWrite_bar0 ho hbar, hm, writeBar0_window _ hlen]

end Sys2Proof.Proofs.HostLaunch
end
